-- ==== Sys2Proof/Word.lean ====
section
/-! DEFINITION. The words of the part: bytes, page lines, and the field value that stands for "no block". -/

namespace Sys2Proof

/-- One byte of the port, of the DRAM or of a table image. -/
abbrev Byte := BitVec 8

/-- One page line of 1728 dots (00_scope, Conventions): black is 1, and dot 0 is the most significant bit, so the 216
payload bytes of a line, first byte first, read as one number give this word. -/
abbrev Line := BitVec 1728

/-- The all-white line. -/
def whiteLine : Line := 0

/-- The field value FFFFh: no block, no next, no reader position (R62, R65, 1.10). -/
def noBlock : Nat := 65535

end Sys2Proof
end

