-- ==== Sys2Proof/Syntax.lean ====
section
/-! DEFINITION. The commands the block takes: one constructor per row of spec/opcode_table.json. -/

namespace Sys2Proof

/-- The two motor channels (R97): S moves the document, P the paper. -/
inductive Channel where
  | S
  | P
deriving DecidableEq, Repr

/-- The two contexts of the Line Coder (R54). -/
inductive CoderCtx where
  | scan
  | intake
deriving DecidableEq, Repr

/-- The two contexts of the Line Decoder (R56). -/
inductive DecoderCtx where
  | print
  | output
deriving DecidableEq, Repr

/-- The levels of the input lines that change without a row of their own in the table (log entry 2): the falls of DOCP,
RING and KEY, the rise of COVER, and every change of DOCE, PAPR and BOOTSRC. A level here that would be a rise of DOCP,
RING or KEY, or a fall of COVER, says nothing: those come as DOCP_RISE, RING_RISE, KEY_RISE and COVER_OPEN. Within a command
that has no such operand a level reads as last sensed. -/
structure Levels where
  docp    : Bool
  doce    : Bool
  papr    : Bool
  cover   : Bool
  ring    : Bool
  key     : Bool
  bootsrc : Bool
deriving DecidableEq, Repr

/-- A write strobe (R1): whether CS is asserted with it, and whether it comes at the very instant of the wake event taken
just before it (R171; log entry 39). -/
structure WriteStrobe where
  cs       : Bool
  together : Bool
deriving DecidableEq, Repr

/-- What the DRAM holds when its supply returns (R74): bytes at addresses, and the addresses whose parity bit fails. -/
structure PowerUpDram where
  cells     : List (Nat × Byte)
  badParity : List Nat
deriving DecidableEq, Repr

/-- The commands. A record row (LINE to DIAG_WRITE_SEEDED, but SLEEP_ENTRY) is the host writing that whole record at the
port; its operands are the record's sub where it varies, and its payload fields, each a byte as the host sends it. -/
inductive Instr where
  /-- WSTB_STROBE: a write strobe, and the byte on D0 to D7. -/
  | wstbStrobe (w : WriteStrobe) (d : Byte) (lv : Levels)
  /-- RSTB_STROBE: a read strobe; whether CS is asserted. -/
  | rstbStrobe (cs : Bool)
  /-- LINE: sub and 0 to 216 payload bytes. -/
  | line (sub : Byte) (payload : List Byte)
  /-- LOAD: table id, segment number, final flag, image bytes. -/
  | load (table segment final : Byte) (image : List Byte)
  | calibrate
  | scan (purpose resolution zoom stamp policy pageLimit slew : Byte) (lv : Levels)
  | intake (resolution policy : Byte)
  | intakeEnd
  | output (page consume : Byte)
  | print (page copies ratio consume cutThrough : Byte) (lv : Levels)
  | erase (page : Byte)
  | stopScan (keepPartial : Byte)
  | stopIntake (keepPartial : Byte)
  | stopPrint (keepPartial : Byte)
  | stopOutput (keepPartial : Byte)
  | resume (channel : Byte) (lv : Levels)
  | move (channel direction : Byte) (steps : BitVec 16) (slew : Byte)
  | temp (code : Byte) (lv : Levels)
  | powerDoze (mask timer : Byte)
  | powerSleep (mask timer : Byte)
  | powerStandby (mask timer : Byte)
  /-- SLEEP_ENTRY: the POWER reply has been read and the entry goes on. -/
  | sleepEntry (lv : Levels)
  | ready
  | restart
  | queryStatus
  | queryPage (page : Byte)
  | queryDir
  | queryTable (table copy segment : Byte)
  | queryMem
  /-- EVACK: the flag numbers listed. -/
  | evack (flags : List Byte)
  /-- DIAG_READ: memory, item, offset, count. -/
  | diagRead (memory : Byte) (item offset count : BitVec 16)
  /-- DIAG_WRITE: memory, item, offset, data. -/
  | diagWrite (memory : Byte) (item offset : BitVec 16) (data : List Byte)
  /-- DIAG_WRITE_SEEDED: memory, item, offset, data. -/
  | diagWriteSeeded (memory : Byte) (item offset : BitVec 16) (data : List Byte)
  | dramGrantEnd (lv : Levels)
  | refreshDue
  | coderLineStart (ctx : CoderCtx)
  | memwaitExpiry (ctx : CoderCtx)
  | dirwaitExpiry (ctx : CoderCtx)
  | decoderLineStart (ctx : DecoderCtx)
  /-- READOUT_END: the 1760 samples of the readout that ends, the lead-in first (R19). -/
  | readoutEnd (samples : Vector Byte 1760)
  | lampwarmExpiry
  | motorStep (ch : Channel) (lv : Levels)
  | motionEnd (ch : Channel) (lv : Levels)
  | holdTimerExpiry (ch : Channel)
  | headShiftEnd
  | strobeEnd
  | gapEnd
  | tempAgeExpiry
  | idleTimerExpiry
  | wakeTimerExpiry
  | ringRise
  | keyRise
  | docpRise
  | runReached (lv : Levels)
  | coverOpen
  | pfailRise
  | pfailFall
  /-- POWER_ON: the levels of the lines, and what the DRAM holds where its supply had failed too (none: it had not). -/
  | powerOn (lv : Levels) (dram : Option PowerUpDram)
  | resetAssert
  | resetRelease (lv : Levels)
  | resetStateEnd (lv : Levels)
  /-- ROM_RECORD: kind, sub, stated payload length and payload of the record read. -/
  | romRecord (kind sub : Byte) (len : BitVec 16) (payload : List Byte)
deriving DecidableEq, Repr

end Sys2Proof
end

