-- ==== Sys2Proof/Decode.lean ====
section
/-! DEFINITION. Reading commands from words. spec/opcode_table.json gives no row any bits ("fields" is empty in every row
and none has "fixed"), so no word spells a command. -/

namespace Sys2Proof

/-- The command that a word spells by the table's bits: the table gives bits to no row, so there is none. -/
def decodeTableWord (_nbits _w : Nat) : Option Instr := none

end Sys2Proof
end

