-- ==== Sys2Proof/Config.lean ====
section
/-! DEFINITION. What the part fixes: the capacities and sizes the spec states. -/

namespace Sys2Proof.Config

/-- Dots across a page line (00_scope, Conventions). -/
def lineDots : Nat := 1728
/-- Bytes of a full LINE payload (R7). -/
def lineBytes : Nat := 216
/-- Entries the reply queue holds (R4). -/
def replyCapacity : Nat := 8
/-- Payload bytes a record may have (R2). -/
def maxPayload : Nat := 2048
/-- Ring capacities (R45). -/
def scanRingSlots : Nat := 16
def intakeRingSlots : Nat := 8
def printRingSlots : Nat := 4
def outputRingSlots : Nat := 4
/-- Payload units of a page block (R62). -/
def blockUnits : Nat := 1020
/-- Bytes of a block (R61). -/
def blockBytes : Nat := 1024
/-- Blocks of the spill reserve (R61). -/
def reserveBlocks : Nat := 16
/-- Units or bytes one grant moves at most (R72). -/
def burstUnits : Nat := 16
/-- Entries plus places of the Page Directory (R78). -/
def directoryRoom : Nat := 32
/-- Lines a page entry can count (R82). -/
def maxLineCount : Nat := 65535
/-- Bytes the Table Store gathers for one image (R12). -/
def maxImage : Nat := 12288
/-- Bytes of a readout that are the sensor's lead-in (R19). -/
def leadIn : Nat := 32
/-- Bytes of the serial ROM read without an END record before the image is invalid (R18). -/
def romLimit : Nat := 65536
/-- The spill marker (R175). -/
def spillMarker : Nat := 0xA55A

end Sys2Proof.Config
end

