-- ==== Sys2Proof/Machine/State.lean ====
section
/-! DEFINITION. The state of the part, every piece the spec names, as plain data; the outcomes' reasons; the state after reset. -/

namespace Sys2Proof.Machine

/-! ## Names -/

/-- The status codes of a REPLY (R5), in code order. -/
inductive Status where
  | ok | clamped | busy | badarg | notable | nopage | nodir | full | state | length | kind | calweak
deriving DecidableEq, Repr

/-- The vertical resolutions of a page. -/
inductive Resolution where
  | std | fine | super
deriving DecidableEq, Repr

/-- The memory policy of a job (R85). -/
inductive Policy where
  | discard | truncate
deriving DecidableEq, Repr

/-- A page's origin (R77). -/
inductive Origin where
  | scanTx | scanCopy | intake
deriving DecidableEq, Repr

/-- A page entry's state (R77). -/
inductive PageState where
  | filling | complete | erasing
deriving DecidableEq, Repr

/-- The input lines' levels (00_scope, Signals). `cover` is high when the cover is closed, `pfail` when the warning is
given, `reset` when RESET is asserted. -/
structure Lines where
  docp    : Bool
  doce    : Bool
  papr    : Bool
  cover   : Bool
  pfail   : Bool
  ring    : Bool
  key     : Bool
  bootsrc : Bool
  reset   : Bool
deriving DecidableEq, Repr

/-! ## Line Port (R1 to R10) -/

/-- One record of the stream: kind, sub and payload (R2). -/
structure Record where
  kind    : Byte
  sub     : Byte
  payload : List Byte
deriving DecidableEq, Repr

/-- The inbound side (R1 to R3): bytes of the record being received, a refused record being drained with the payload
bytes still to come, or a complete order held for the return to RUN. -/
inductive Inbound where
  | receiving (bytes : List Byte)
  | draining (kind sub : Byte) (status : Status) (left : Nat)
  | held (r : Record)
deriving DecidableEq, Repr

/-- A reply entry's content (R4): filled, or waiting for a calibration or for a DIAG access to DRAM. -/
inductive ReplyBody where
  | filled (status : Status) (answer : List Byte)
  | calibrating
  | diag
deriving DecidableEq, Repr

/-- One entry of the reply queue (R4): the kind and sub answered, and its content. -/
structure ReplyEntry where
  kind : Byte
  sub  : Byte
  body : ReplyBody
deriving DecidableEq, Repr

/-- What the outbound record in course was made from (R8). -/
inductive OutSource where
  | reply
  | event
  | line
deriving DecidableEq, Repr

/-- The outbound record partly read: its source and the bytes still to be read (R9). -/
structure OutCourse where
  source : OutSource
  rest   : List Byte
deriving DecidableEq, Repr

structure Port where
  inbound      : Inbound
  replies      : List ReplyEntry
  course       : Option OutCourse
  /-- D0 to D7 as the last read strobe drove them. -/
  dataOut      : Byte
  /-- R48 -/
  intakeLineNo : Nat
  prevIntake   : Option Line
deriving DecidableEq, Repr

/-! ## Table Store (R11 to R15) -/

/-- The load assembly (R12). -/
structure Assembly where
  table : Fin 14
  next  : Nat
  bytes : List Byte
deriving DecidableEq, Repr

structure Tables where
  active   : Vector (Option (List Byte)) 14
  pending  : Vector (Option (List Byte)) 14
  assembly : Option Assembly
deriving DecidableEq, Repr

/-! ## Scan Front (R19 to R44) -/

/-- The line in computation: its page line number and its last-of-page decision (R21, R128). -/
structure LineComp where
  y    : Nat
  last : Bool
deriving DecidableEq, Repr

/-- Where a calibration stands (R41): dark lines read so far, the LAMPWARM wait, white lines read so far. -/
inductive CalStage where
  | dark (n : Nat)
  | lampWait
  | white (n : Nat)
deriving DecidableEq, Repr

structure Calibration where
  stage : CalStage
  sums  : List Nat
  black : List Byte
deriving DecidableEq, Repr

structure ScanFront where
  errorRow  : List Int
  defective : List Nat
  ditherRow : Nat
  ditherCol : Nat
  lamp      : Bool
  comp      : Option LineComp
  cal       : Option Calibration
deriving DecidableEq, Repr

/-! ## Rings (R45 to R51) -/

/-- A ring slot's storage (R45). -/
structure Slot where
  dots   : Line
  lineNo : Nat
  last   : Bool
  rep    : Bool
deriving DecidableEq, Repr

/-- A ring: its slots, the head and tail indices, and the number of occupied slots. -/
structure Ring where
  slots : List Slot
  head  : Nat
  tail  : Nat
  occ   : Nat
deriving DecidableEq, Repr

structure Rings where
  scan         : Ring
  intake       : Ring
  print        : Ring
  output       : Ring
  /-- the reserved slots of the Scan Ring, 0 or 1 (R46) -/
  scanReserved : Nat
  /-- the Intake Ring's full mark (R49) -/
  intakeFull   : Bool
deriving DecidableEq, Repr

/-! ## Line Coder and Line Decoder contexts (R54, R56) -/

inductive CoderState where
  | idle | coding | memwait
deriving DecidableEq, Repr

structure Coder where
  st      : CoderState
  /-- the memory wait timer, in seconds as started (R68) -/
  timer   : Option Nat
  /-- the directory wait timer, in seconds as started (R81) -/
  dirWait : Option Nat
  page    : Option Nat
  prev    : Option Line
  block   : Option Nat
  fill    : Nat
  wpos    : Nat
  /-- the block and the unit at which the page's last whole line ends (R55) -/
  lastEnd : Option (Nat × Nat)
  todo    : List Byte
  /-- a block request not yet granted (R66) -/
  asking  : Bool
deriving DecidableEq, Repr

/-- How far the units of one line have been read (R52, R58). -/
inductive Parse where
  | mark
  | runs (black : Bool) (dots : Nat) (acc : Nat) (hi : Option Nat) (count : Nat)
  | raw (count : Nat) (acc : Nat)
  /-- the length was found; the line, or none for REPEAT -/
  | done (l : Option Line)
  /-- the length was not found -/
  | lost
deriving DecidableEq, Repr

/-- The line a decoder is reading: its units so far, whether one failed parity, whether the mark did, and the blocks the
read position has entered within the line. -/
structure LineRead where
  parse      : Parse
  parity     : Bool
  markParity : Bool
  crossed    : List Nat
deriving DecidableEq, Repr

/-- A decoder context in a pass (R56). -/
structure Pass where
  page      : Nat
  linePos   : Nat
  block     : Option Nat
  off       : Nat
  prev      : Option Line
  outOfStep : Bool
  /-- the fill and next of the block's header as last read; none: not read since the block was entered (R62) -/
  header    : Option (Nat × Nat)
  reading   : Option LineRead
deriving DecidableEq, Repr

/-! ## Page memory (R61 to R76) -/

/-- Memory sizes (R61), in code order. -/
inductive MemSize where
  | k512 | m1 | m2 | m4
deriving DecidableEq, Repr

/-- The page DRAM: the bytes that differ from what an unlisted address reads as, the addresses whose stored parity bit
is wrong, and the size the board carries. -/
structure Memory where
  cells     : List Host.Cell
  badParity : List Nat
  fitted    : MemSize
deriving DecidableEq, Repr

/-- The arbiter's requesters (R71), in priority order. -/
inductive Requester where
  | refresh | printDec | scanCoder | intakeCoder | outputDec | spill | diag
deriving DecidableEq, Repr

/-- A list upkeep access (R65): write a block's next, write the whole header of a block that was a coder context's current
block as it is freed (R62, R70), or read the new head's next into the head link. -/
inductive Upkeep where
  | setNext (b next : Nat)
  | setHeader (b next fill : Nat)
  | readLink (b : Nat)
deriving DecidableEq, Repr

/-- The burst of a grant (R72). -/
inductive Burst where
  | refresh
  /-- the one last refresh cycle before self-refresh (R74) -/
  | lastRefresh
  | upkeep (op : Upkeep)
  | decode (ctx : DecoderCtx)
  | code (ctx : CoderCtx) (addr : Nat) (units : List Byte)
  | build
  | spill
  | diag
deriving DecidableEq, Repr

/-- The grant in course; `live` is cleared when its requester's work ends meanwhile (R76). -/
structure Grant where
  burst : Burst
  live  : Bool
deriving DecidableEq, Repr

/-- Why the DRAM is to be placed in self-refresh (R74). -/
inductive SelfRefreshFor where
  | sleep | standby | pfail
deriving DecidableEq, Repr

structure Pmc where
  head        : Nat
  tail        : Nat
  headLink    : Nat
  linkKnown   : Bool
  count       : Nat
  upkeep      : List Upkeep
  /-- the block whose header a list build writes next (R67) -/
  build       : Option Nat
  refreshDue  : Bool
  selfRefresh : Bool
  srPending   : Option SelfRefreshFor
  grant       : Option Grant
deriving DecidableEq, Repr

/-! ## Page Directory (R77 to R96) -/

/-- A reader part (R87, R88). -/
structure Reader where
  consume : Bool
  linePos : Nat
  block   : Nat
deriving DecidableEq, Repr

/-- A page entry (R77). -/
structure Entry where
  id         : Nat
  origin     : Origin
  state      : PageState
  res        : Resolution
  lineCount  : Nat
  headLine   : Nat
  headOff    : Nat
  blockCount : Nat
  first      : Nat
  last       : Nat
  writer     : Option CoderCtx
  truncated  : Bool
  erasePend  : Bool
  printRd    : Option Reader
  outRd      : Option Reader
  damaged    : Nat
deriving DecidableEq, Repr

structure Directory where
  entries : List Entry
  places  : Nat
  nextId  : Nat
deriving DecidableEq, Repr

/-! ## Motor Timing Unit (R97 to R118) -/

inductive ChState where
  | off | hold | accel | slew | decel | burst | fault
deriving DecidableEq, Repr

/-- What a channel still has to issue: nothing; a run in a direction with its steps left in acceleration, at steady
speed (none: unbounded) and in deceleration, and whether a stop request stands (R103, R104); or a burst, the steps left
and the step's number (R105). -/
inductive Plan where
  | idle
  | run (reverse : Bool) (up : Nat) (flat : Option Nat) (down : Nat) (stopped : Bool)
  | burst (left index : Nat)
deriving DecidableEq, Repr

inductive Owner where
  | nobody | scan | print | move
deriving DecidableEq, Repr

/-- A request that waits for the channel to come to rest (R103, R105). -/
inductive MotorRequest where
  | burst (m : Nat)
  | run (reverse : Bool) (req use : Nat) (steps : Option Nat)
deriving DecidableEq, Repr

/-- The fault causes of a channel (R112). -/
structure Causes where
  cover : Bool
  pfail : Bool
  jam   : Bool
deriving DecidableEq, Repr

/-- What an owner is told when its motion is abandoned (R106, R112): the steps of the motion or burst issued, and those its
plan still owed, none of an unbounded run. -/
structure Abandonment where
  owner  : Owner
  issued : Nat
  owed   : Option Nat
deriving DecidableEq, Repr

structure Motor where
  state     : ChState
  rampIndex : Nat
  slewEff   : Nat
  slewReq   : Nat
  plan      : Plan
  phase     : Nat
  pos       : BitVec 32
  /-- the hold timer, in 10 ms as started (R107) -/
  hold      : Option Nat
  causes    : Causes
  owner     : Owner
  waiting   : Option MotorRequest
  /-- the interval of the step last issued, in microseconds (R100) -/
  interval  : Nat
  /-- the steps issued of the present motion or burst, or of the last one (R106; the model's own form, log entry 52) -/
  issued    : Nat
  /-- the last report of an abandoned motion to its owner (R106, R112; the model's own form, log entry 52) -/
  told      : Option Abandonment
deriving DecidableEq, Repr

/-- The motor shadow (R116). -/
structure Shadow where
  sPhase : Nat
  sPos   : BitVec 32
  pPhase : Nat
  pPos   : BitVec 32
deriving DecidableEq, Repr

/-! ## Jobs -/

inductive ScanPhase where
  | search | lead | capture | dirwait | runout | ending
deriving DecidableEq, Repr

/-- The run figures of a scan job (R120). -/
structure Figures where
  slewUse : Nat
  m       : Nat
  j       : Nat
  margin  : Nat
  restart : Nat
deriving DecidableEq, Repr

/-- A SCAN job (R121, R122). -/
structure ScanJob where
  purpose       : Origin
  res           : Resolution
  zoom          : Nat
  stamp         : Bool
  policy        : Policy
  pageLimit     : Nat
  slewReq       : Nat
  fig           : Figures
  phase         : ScanPhase
  searchCount   : Nat
  pageCount     : Nat
  stepCount     : Nat
  y             : Nat
  trailing      : Option Nat
  pause         : Bool
  /-- a run is to be given at rest, room having come after a directory wait (R130) -/
  awaitRun      : Bool
  lastCompleted : Nat
  /-- the SCAN_END reason once the ending decision is taken (R122) -/
  endReason     : Nat
  /-- the DOC_HELD reason and page, where the ending has one -/
  docHeld       : Option (Nat × Nat)
deriving DecidableEq, Repr

inductive IntakeState where
  | opened | closing
deriving DecidableEq, Repr

/-- An INTAKE job (R157). Its page being written is the intake context's page. -/
structure IntakeJob where
  state         : IntakeState
  res           : Resolution
  policy        : Policy
  lastCompleted : Nat
deriving DecidableEq, Repr

/-- An OUTPUT job (R163); `reason` is the OUTPUT_END reason its end will carry. -/
structure OutputJob where
  state   : IntakeState
  page    : Nat
  consume : Bool
  reason  : Nat
deriving DecidableEq, Repr

/-- The line cycle states of a PRINT job (R137). `lineStart` is a line start that is due and not yet made; no step ends
in it. -/
inductive Cycle where
  | lineStart | waitData | strobing | stepping | cooling | suspended | ending
deriving DecidableEq, Repr

/-- What channel P is stepping for the print: a line's burst, a burst owed after a resume, or a page exit. -/
inductive Stepping where
  | lineBurst | owedBurst | pageExit
deriving DecidableEq, Repr

inductive SuspendReason where
  | fault | noPaper
deriving DecidableEq, Repr

/-- One phase of a printed line (R147, R148): the dots driven, and each group's strobe time in microseconds (none: the
group takes no part). -/
structure HeadPhase where
  dots   : Line
  pulses : List (Option Nat)
deriving DecidableEq, Repr

/-- Where the strobes of a phase stand: between phases, a group's strobe high, a group's GAP. -/
inductive StrobeStage where
  | waiting
  | high (group : Nat)
  | gap (group : Nat)
deriving DecidableEq, Repr

/-- A line being strobed (R148): the phases not yet begun, the phase whose strobes run, whether a shift is in course and
whether a shifted phase waits for its latch. The first of `todo` is the phase being shifted or waiting. -/
structure Strobe where
  todo     : List HeadPhase
  cur      : Option HeadPhase
  stage    : StrobeStage
  shifting : Bool
  shifted  : Bool
deriving DecidableEq, Repr

/-- A PRINT job (R137). -/
structure PrintJob where
  page        : Nat
  copies      : Nat
  copy        : Nat
  consume     : Bool
  reff        : Nat
  cycle       : Cycle
  acc         : Nat
  src         : Option Line
  srcLast     : Bool
  repeats     : Nat
  h1          : Line
  h2          : Line
  printed     : Nat
  passEnded   : Bool
  interrupted : Bool
  /-- owed steps: their number and whether a page exit owes them -/
  owed        : Nat
  owedExit    : Bool
  susp        : SuspendReason
  reason      : Nat
  /-- PRAMP and PPHASE are in use: from the start of a copy to the end of its page exit (R11) -/
  inCopy      : Bool
  /-- the page end of the copy has been reached and its page exit issued or not needed (R153) -/
  exitDone    : Bool
  strobe      : Option Strobe
  stepping    : Option Stepping
deriving DecidableEq, Repr

/-- The head temperature reading (R145). -/
structure Temperature where
  reading    : Option Byte
  fresh      : Bool
  /-- the age timer, in 100 ms as started -/
  age        : Option Nat
  staleSpell : Bool
deriving DecidableEq, Repr

/-! ## Power Manager and Boot Loader (R168 to R183) -/

inductive PowerState where
  | run | doze | sleep | standby
deriving DecidableEq, Repr

/-- The wake sources that can rise (R172). -/
structure Risen where
  ring : Bool
  key  : Bool
  docp : Bool
deriving DecidableEq, Repr

/-- Where a SLEEP or STANDBY entry stands: waiting for its reply to be read, the spill being written, the DRAM being
placed in self-refresh, or the marker being cleared after an abandonment (R172, R174). -/
inductive EntryStage where
  | waitReply | spilling | selfRefresh | clearing
deriving DecidableEq, Repr

structure SleepEntry where
  standby  : Bool
  mask     : Byte
  timer    : Nat
  fromDoze : Bool
  risen    : Risen
  stage    : EntryStage
  /-- the WAKE reason of an abandonment whose marker is being cleared -/
  found    : Nat
deriving DecidableEq, Repr

/-- The PFAIL sequence and hold (R176). -/
inductive PfailPhase where
  | inactive | sequence | hold
deriving DecidableEq, Repr

structure Power where
  state      : PowerState
  mask       : Byte
  /-- minutes, as started -/
  wakeTimer  : Option Nat
  /-- seconds, as started -/
  idleTimer  : Option Nat
  /-- a 1 ms return to RUN, with the WAKE reason to raise at its end (0: none) -/
  returning  : Option Nat
  entry      : Option SleepEntry
  coverLatch : Bool
  keptSource : Option Nat
  pwrdn      : Bool
  pfail      : PfailPhase
  shadow     : Shadow
deriving DecidableEq, Repr

inductive BootState where
  | reset | strap | spillcheck | restore | romload | portload | ready
deriving DecidableEq, Repr

structure Boot where
  state  : BootState
  /-- BOOTSRC as sampled in STRAP: high selects ROM -/
  strap  : Bool
  romPos : Nat
  romSum : Nat
deriving DecidableEq, Repr

/-- What a spill is written for. -/
inductive SpillFor where
  | standby | pfail
deriving DecidableEq, Repr

/-- What follows the clearing of the marker: READY after a restore, no restore, or the return from an abandoned STANDBY. -/
inductive AfterClear where
  | restored | lost | abandoned
deriving DecidableEq, Repr

/-- The spill engine (R75, R175, R178, R179). -/
inductive SpillEngine where
  | idle
  /-- SPILLCHECK at the candidate size -/
  | check (cand : MemSize)
  /-- SPILLCHECK, the spill found being read: bytes so far, and whether one failed parity -/
  | read (size : MemSize) (got : List Byte) (parity : Bool)
  /-- RESTORE, the second read -/
  | restore (size : MemSize) (got : List Byte)
  | clearMarker (size : MemSize) (next : AfterClear)
  /-- a spill to be written once list upkeep and a list build are done -/
  | await (why : SpillFor)
  /-- the bytes still to be written, the reserve offset of the first, and the whole spill's size code -/
  | write (why : SpillFor) (off : Nat) (todo : List Byte)
  | writeMarker (why : SpillFor)
deriving DecidableEq, Repr

/-- A DIAG access to a DRAM block (R190). -/
structure DiagAccess where
  /-- none: read; some b: write, b set when seeded -/
  write    : Option Bool
  block    : Nat
  offset   : Nat
  count    : Nat
  clamped  : Bool
  /-- read: bytes so far; write: bytes still to be written -/
  data     : List Byte
  done     : Nat
  firstBad : Option Nat
deriving DecidableEq, Repr

/-! ## Event Unit (R184 to R187) -/

structure EventFlag where
  set      : Bool
  masked   : Bool
  reported : Bool
  again    : Bool
  page     : Nat
  chan     : Nat
  reason   : Nat
deriving DecidableEq, Repr

structure Events where
  flags : Vector EventFlag 20
  queue : List (Fin 20)
deriving DecidableEq, Repr

/-! ## The whole -/

structure State where
  lines    : Lines
  port     : Port
  tables   : Tables
  front    : ScanFront
  rings    : Rings
  scanCd   : Coder
  intakeCd : Coder
  printDec : Option Pass
  outDec   : Option Pass
  dram     : Memory
  pmc      : Pmc
  dir      : Directory
  motS     : Motor
  motP     : Motor
  scanJob  : Option ScanJob
  intJob   : Option IntakeJob
  prtJob   : Option PrintJob
  outJob   : Option OutputJob
  temp     : Temperature
  power    : Power
  boot     : Boot
  spill    : SpillEngine
  diagQ    : List DiagAccess
  events   : Events
  /-- the commands waiting, first in first out (the host's form of a block) -/
  pending  : List Instr
deriving DecidableEq, Repr

/-- The reasons a step can stop with a fault: none. The spec answers every command the block takes with a next state (log
entry 1), and reports every trouble as a reply, an event or a channel FAULT. Safe: nothing is stopped. -/
inductive Fault where
deriving DecidableEq, Repr

/-- The reasons a step can be refused. -/
inductive Refusal where
  /-- A command that has no meaning here yet, by its mnemonic; raised by exec's arms. Safe: the model stops. -/
  | notModelled (mnemonic : String)
deriving DecidableEq, Repr

/-! ## Reset -/

def Slot.blank : Slot := { dots := whiteLine, lineNo := 0, last := false, rep := false }

def Ring.reset (n : Nat) : Ring := { slots := List.replicate n Slot.blank, head := 0, tail := 0, occ := 0 }

/-- A coder context after every reset (R55). -/
def Coder.reset : Coder :=
  { st := .idle, timer := none, dirWait := none, page := none, prev := none, block := none, fill := 0, wpos := 0,
    lastEnd := none, todo := [], asking := false }

def Port.reset : Port :=
  { inbound := .receiving [], replies := [], course := none, dataOut := 0xFF, intakeLineNo := 0, prevIntake := none }

def Tables.reset : Tables :=
  { active := Vector.replicate 14 none, pending := Vector.replicate 14 none, assembly := none }

def ScanFront.reset : ScanFront :=
  { errorRow := List.replicate 1728 0, defective := [], ditherRow := 0, ditherCol := 0, lamp := false, comp := none,
    cal := none }

def Rings.reset : Rings :=
  { scan := Ring.reset Config.scanRingSlots, intake := Ring.reset Config.intakeRingSlots,
    print := Ring.reset Config.printRingSlots, output := Ring.reset Config.outputRingSlots,
    scanReserved := 0, intakeFull := false }

def Memory.reset : Memory := { cells := [], badParity := [], fitted := .m4 }

/-- R74, R76: an empty list, its head link FFFFh (DESIGN CHOICE: log entry 55), and no request; the DRAM is out of self-refresh, and the refresh cycle every cold start makes, before
the spill check reads, is being made (log entry 17). -/
def Pmc.reset : Pmc :=
  { head := noBlock, tail := noBlock, headLink := noBlock, linkKnown := true, count := 0, upkeep := [], build := none,
    refreshDue := false, selfRefresh := false, srPending := none, grant := some { burst := .refresh, live := true } }

def Directory.reset : Directory := { entries := [], places := 0, nextId := 1 }

def Causes.reset : Causes := { cover := false, pfail := false, jam := false }

/-- R97, R118: a channel after a cold start without restore. -/
def Motor.reset : Motor :=
  { state := .off, rampIndex := 0, slewEff := 0, slewReq := 0, plan := .idle, phase := 0, pos := 0, hold := none,
    causes := Causes.reset, owner := .nobody, waiting := none, interval := 0, issued := 0, told := none }

def Shadow.reset : Shadow := { sPhase := 0, sPos := 0, pPhase := 0, pPos := 0 }

def Temperature.reset : Temperature := { reading := none, fresh := false, age := none, staleSpell := false }

def Power.reset : Power :=
  { state := .run, mask := 0, wakeTimer := none, idleTimer := none, returning := none, entry := none,
    coverLatch := false, keptSource := none, pwrdn := false, pfail := .inactive, shadow := Shadow.reset }

def Boot.reset : Boot := { state := .reset, strap := false, romPos := 0, romSum := 0 }

def EventFlag.reset : EventFlag :=
  { set := false, masked := false, reported := false, again := false, page := 0, chan := 0, reason := 0 }

def Events.reset : Events := { flags := Vector.replicate 20 EventFlag.reset, queue := [] }

/-- The lines as the model finds them at reset (log entry 2): cover closed, paper present, all else low. -/
def Lines.atReset : Lines :=
  { docp := false, doce := false, papr := true, cover := true, pfail := false, ring := false, key := false,
    bootsrc := false, reset := false }

/-- The part right after power-on: the boot state RESET of a cold start without a spill yet looked for (R177), every
block in its cold-start state (R10, R17, R44, R51, R60, R76, R96, R118, R135, R156, R167, R183, R187). -/
def State.reset : State :=
  { lines := Lines.atReset, port := Port.reset, tables := Tables.reset, front := ScanFront.reset, rings := Rings.reset,
    scanCd := Coder.reset, intakeCd := Coder.reset, printDec := none, outDec := none, dram := Memory.reset,
    pmc := Pmc.reset, dir := Directory.reset, motS := Motor.reset, motP := Motor.reset, scanJob := none, intJob := none,
    prtJob := none, outJob := none, temp := Temperature.reset, power := Power.reset, boot := Boot.reset, spill := .idle,
    diagQ := [], events := Events.reset, pending := [] }

end Sys2Proof.Machine
end

