-- ==== Sys2Proof/Machine/Operands.lean ====
section
/-! DEFINITION. Operand forms: byte order, page lines as bytes and dots, the coded values of record fields, and the
record catalogue of section 1.10. -/

namespace Sys2Proof.Machine

/-! ## Byte order (00_scope, Byte order: most significant byte first) -/

def be8 (n : Nat) : List Byte := [BitVec.ofNat 8 n]

def be16 (n : Nat) : List Byte := [BitVec.ofNat 8 (n / 256), BitVec.ofNat 8 n]

def be32 (n : Nat) : List Byte := be16 (n / 65536) ++ be16 n

/-- The number spelled by bytes, most significant first. -/
def beNat (bs : List Byte) : Nat := bs.foldl (fun n b => 256 * n + b.toNat) 0

/-- Byte `i` of an image, as a number. -/
def byteAt (bs : List Byte) (i : Nat) : Nat := (bs.getD i 0).toNat

/-- The two-byte field at offset `i`. -/
def wordAt (bs : List Byte) (i : Nat) : Nat := 256 * byteAt bs i + byteAt bs (i + 1)

/-- A four-byte field at offset `i`. -/
def longAt (bs : List Byte) (i : Nat) : Nat := 65536 * wordAt bs i + wordAt bs (i + 2)

/-- Bytes `i` and on, `n` of them. -/
def sliceOf (bs : List Byte) (i n : Nat) : List Byte := (bs.drop i).take n

/-- `bs` with the bytes of `d` written from offset `i`, its length kept. -/
def patchAt (bs : List Byte) (i : Nat) (d : List Byte) : List Byte :=
  bs.take i ++ d ++ bs.drop (i + d.length)

/-- `bs` with the two-byte field at offset `i` set to `n`. -/
def setWordAt (bs : List Byte) (i n : Nat) : List Byte := patchAt bs i (be16 n)

/-! ## Page lines -/

/-- Dot `j` of a line: true is black. -/
def dotOf (l : Line) (j : Nat) : Bool := l.getMsbD j

/-- The dots of a line, dot 0 first. -/
def dotsOf (l : Line) : List Bool := (List.range 1728).map (dotOf l)

/-- The line of the dots listed, dot 0 first; dots not listed are white. -/
def lineOfDots (ds : List Bool) : Line :=
  BitVec.ofNat 1728 ((ds.foldl (fun n d => 2 * n + d.toNat) 0) <<< (1728 - ds.length))

/-- The 216 payload bytes of a line (R7). -/
def lineToBytes (l : Line) : List Byte :=
  (List.range 216).map fun k => BitVec.ofNat 8 (l.toNat >>> (8 * (215 - k)))

/-- The line whose first dots the bytes give, the rest white (R7). -/
def lineOfBytes (bs : List Byte) : Line := BitVec.ofNat 1728 (beNat bs <<< (8 * (216 - bs.length)))

/-! ## Coded values -/

def Status.code : Status → Nat
  | .ok => 0 | .clamped => 1 | .busy => 2 | .badarg => 3 | .notable => 4 | .nopage => 5 | .nodir => 6 | .full => 7
  | .state => 8 | .length => 9 | .kind => 10 | .calweak => 11

def Resolution.code : Resolution → Nat
  | .std => 0 | .fine => 1 | .super => 2

def Resolution.ofCode? : Nat → Option Resolution
  | 0 => some .std
  | 1 => some .fine
  | 2 => some .super
  | _ => none

def Policy.code : Policy → Nat
  | .discard => 0 | .truncate => 1

def Policy.ofCode? : Nat → Option Policy
  | 0 => some .discard
  | 1 => some .truncate
  | _ => none

/-- A flag byte of 0 or 1 (R6). -/
def flagOf? : Nat → Option Bool
  | 0 => some false
  | 1 => some true
  | _ => none

def Origin.code : Origin → Nat
  | .scanTx => 0 | .scanCopy => 1 | .intake => 2

def Origin.ofCode? : Nat → Option Origin
  | 0 => some .scanTx
  | 1 => some .scanCopy
  | 2 => some .intake
  | _ => none

/-- The SCAN order's purpose: 0 TX, 1 COPY. -/
def purposeOf? : Nat → Option Origin
  | 0 => some .scanTx
  | 1 => some .scanCopy
  | _ => none

def PageState.code : PageState → Nat
  | .filling => 0 | .complete => 1 | .erasing => 2

def channelOf? : Nat → Option Channel
  | 0 => some .S
  | 1 => some .P
  | _ => none

def ChState.code : ChState → Nat
  | .off => 0 | .hold => 1 | .accel => 2 | .slew => 3 | .decel => 4 | .burst => 5 | .fault => 6

def PowerState.code : PowerState → Nat
  | .run => 0 | .doze => 1 | .sleep => 2 | .standby => 3

def BootState.code : BootState → Nat
  | .reset => 0 | .strap => 1 | .spillcheck => 2 | .restore => 3 | .romload => 4 | .portload => 5 | .ready => 6

def MemSize.code : MemSize → Nat
  | .k512 => 0 | .m1 => 1 | .m2 => 2 | .m4 => 3

def MemSize.ofCode? : Nat → Option MemSize
  | 0 => some .k512
  | 1 => some .m1
  | 2 => some .m2
  | 3 => some .m4
  | _ => none

/-- The number of blocks N (R61). -/
def MemSize.blocks : MemSize → Nat
  | .k512 => 512 | .m1 => 1024 | .m2 => 2048 | .m4 => 4096

/-- The bytes of a memory size (R61). -/
def MemSize.bytes (z : MemSize) : Nat := 1024 * z.blocks

/-- Steps per line m (R120). -/
def Resolution.steps : Resolution → Nat
  | .std => 4 | .fine => 2 | .super => 1

/-- The resolution factor of FIT, in halves (R140). -/
def Resolution.halves : Resolution → Nat
  | .std => 4 | .fine => 2 | .super => 1

/-- Brought to the nearest end of lo..hi (R6). -/
def clampNat (lo hi n : Nat) : Nat := max lo (min hi n)

def clampInt (lo hi n : Int) : Int := max lo (min hi n)

/-- Quotient rounded up. -/
def ceilDiv (a b : Nat) : Nat := (a + b - 1) / b

/-! ## The record catalogue (1.10) -/

def kLine : Byte := 0x10
def kLoad : Byte := 0x20
def kOrder : Byte := 0x30
def kQuery : Byte := 0x40
def kEvack : Byte := 0x50
def kDiag : Byte := 0x60
def kReply : Byte := 0x80
def kEvent : Byte := 0x90
def kEnd : Byte := 0x7F

/-- The payload length of an order, by order code. -/
def orderLength? : Nat → Option Nat
  | 0x01 => some 0
  | 0x02 => some 7
  | 0x03 => some 2
  | 0x04 => some 0
  | 0x05 => some 2
  | 0x06 => some 5
  | 0x07 => some 1
  | 0x08 => some 2
  | 0x09 => some 1
  | 0x0A => some 5
  | 0x0B => some 1
  | 0x0C => some 3
  | 0x0D => some 0
  | 0x0E => some 0
  | _ => none

/-- The payload length of a query, by query code. -/
def queryLength? : Nat → Option Nat
  | 1 => some 0
  | 2 => some 1
  | 3 => some 0
  | 4 => some 3
  | 5 => some 0
  | _ => none

/-- The payload lengths the catalogue allows for an inbound kind and sub, least and greatest; none where the kind is no
inbound kind or the sub is not defined for it (R2, R188). -/
def lengthRange? (kind sub : Byte) : Option (Nat × Nat) :=
  if kind = kLine then if sub.toNat ≤ 1 then some (0, 216) else none
  else if kind = kLoad then if sub.toNat ≤ 13 then some (2, 2048) else none
  else if kind = kOrder then (orderLength? sub.toNat).map fun n => (n, n)
  else if kind = kQuery then (queryLength? sub.toNat).map fun n => (n, n)
  else if kind = kEvack then if sub = 0 then some (1, 20) else none
  else if kind = kDiag then
    if sub = 0 then some (7, 7) else if sub.toNat ≤ 2 then some (6, 2048) else none
  else none

/-- The header check (R2): none where the header passes. -/
def headerCheck (kind sub : Byte) (len : Nat) : Option Status :=
  match lengthRange? kind sub with
  | none => some .kind
  | some (lo, hi) => if lo ≤ len ∧ len ≤ hi then none else some .length

/-- The bytes of a record as the port carries them (R2). -/
def Record.bytes (r : Record) : List Byte := [r.kind, r.sub] ++ be16 r.payload.length ++ r.payload

end Sys2Proof.Machine
end

