-- ==== Sys2Proof/Machine/Flags.lean ====
section
/-! DEFINITION. The event flags (R184 to R187). -/

namespace Sys2Proof.Machine

def evScanEnd : Fin 20 := 0
def evScanPage : Fin 20 := 1
def evIntakeEnd : Fin 20 := 2
def evPrintEnd : Fin 20 := 3
def evOutputEnd : Fin 20 := 4
def evCalDone : Fin 20 := 5
def evCover : Fin 20 := 6
def evJam : Fin 20 := 7
def evPaperOut : Fin 20 := 8
def evOverheat : Fin 20 := 9
def evTempStale : Fin 20 := 10
def evMemWait : Fin 20 := 11
def evDocIn : Fin 20 := 12
def evDocHeld : Fin 20 := 13
def evIntakeSpace : Fin 20 := 14
def evParity : Fin 20 := 15
def evWake : Fin 20 := 16
def evBoot : Fin 20 := 17
def evPagesLost : Fin 20 := 18
def evTableApplied : Fin 20 := 19

/-- Store a flag; if it is then set, unmasked and not reported, its record joins the queue and it is marked reported
(R184). -/
def Events.post (e : Events) (f : Fin 20) (g : EventFlag) : Events :=
  if g.set && !g.masked && !g.reported then
    { flags := e.flags.set f { g with reported := true }, queue := e.queue ++ [f] }
  else { e with flags := e.flags.set f g }

/-- A flag raised: set with its snapshot, or marked again (R184). -/
def EventFlag.raised (g : EventFlag) (page chan reason : Nat) : EventFlag :=
  if g.set then { g with again := true }
  else { g with set := true, again := false, page := page, chan := chan, reason := reason }

def Events.raise (e : Events) (f : Fin 20) (page chan reason : Nat) : Events :=
  e.post f ((e.flags[f]).raised page chan reason)

/-- Raise an event flag (R184). -/
def raise (f : Fin 20) (page chan reason : Nat) (s : State) : State :=
  { s with events := s.events.raise f page chan reason }

/-- A change of one flag's mask (R185): a flag unmasked while set and unreported queues its record. -/
def Events.mask (e : Events) (f : Fin 20) (m : Bool) : Events :=
  e.post f { e.flags[f] with masked := m }

/-- The masks of a SETTINGS image's 24-bit field replace the Event Unit's (R15): bit n masks flag n. Several flags that one
image unmasks while set and unreported queue their records in ascending flag number (DESIGN CHOICE: R15 and R185 give no
order; log entry 42). -/
def Events.maskAll (e : Events) (field : Nat) : Events :=
  (List.finRange 20).foldl (fun e f => e.mask f (field.testBit f.val)) e

/-- The 24-bit mask field as the spill holds it (R175): bit n the mask of flag n, bits 20 to 23 as 0, which SETTINGS ignores
(DESIGN CHOICE: log entry 57). -/
def Events.maskField (e : Events) : Nat :=
  (List.finRange 20).foldl (fun n f => n + if (e.flags[f]).masked then 2 ^ f.val else 0) 0

/-- A flag cleared by EVACK (R186); its mask stays. -/
def EventFlag.cleared (g : EventFlag) : EventFlag := { EventFlag.reset with masked := g.masked }

/-- Withdraw a flag's waiting record; the record being read, at the head, stays (R186). -/
def withdraw (headBegun : Bool) (f : Fin 20) (q : List (Fin 20)) : List (Fin 20) :=
  match headBegun, q with
  | true, h :: t => h :: t.filter (· ≠ f)
  | _, q => q.filter (· ≠ f)

/-- EVACK of one flag (R186): the flag is cleared, its waiting record withdrawn; with the answer byte. -/
def Events.ack (headBegun : Bool) (e : Events) (f : Fin 20) : Events × Byte :=
  ({ flags := e.flags.set f (e.flags[f]).cleared, queue := withdraw headBegun f e.queue },
    if (e.flags[f]).set then (if (e.flags[f]).again then 2 else 1) else 0)

/-- EVACK of a list of flags, in payload order (R186). -/
def Events.ackAll (headBegun : Bool) : Events → List (Fin 20) → Events × List Byte
  | e, [] => (e, [])
  | e, f :: fs =>
    let a := e.ack headBegun f
    let r := Events.ackAll headBegun a.1 fs
    (r.1, a.2 :: r.2)

/-- The bytes of a flag's EVENT record (R185): sub the flag number; again-indicator, page id, channel, reason. -/
def Events.recordBytes (e : Events) (f : Fin 20) : List Byte :=
  [kEvent, BitVec.ofNat 8 f.val] ++ be16 4 ++
    [if (e.flags[f]).again then 1 else 0, BitVec.ofNat 8 (e.flags[f]).page, BitVec.ofNat 8 (e.flags[f]).chan,
      BitVec.ofNat 8 (e.flags[f]).reason]

end Sys2Proof.Machine
end

