-- ==== Sys2Proof/Machine/Ops.lean ====
section
/-! DEFINITION. Named operations over the DRAM, the rings, the reply queue, SETTINGS and the parts of State that come in
twos. -/

namespace Sys2Proof.Machine

/-! ## DRAM (R61 to R63) -/

/-- What an unlisted DRAM address reads as (log entry 4). -/
def unlistedByte : Byte := 0

/-- The byte listed at an address, or what an unlisted address reads as. -/
def lookupCell : List Host.Cell → Nat → Byte
  | [], _ => unlistedByte
  | (x, v) :: t, a => if a = x then v else lookupCell t a

/-- Put a byte at an address, keeping the canonical form. -/
def putCell : List Host.Cell → Nat → Byte → List Host.Cell
  | [], a, b => if b = unlistedByte then [] else [(a, b)]
  | (x, v) :: t, a, b =>
    if a < x then (if b = unlistedByte then (x, v) :: t else (a, b) :: (x, v) :: t)
    else if a = x then (if b = unlistedByte then t else (a, b) :: t)
    else (x, v) :: putCell t a b

/-- Mark or unmark an address in a rising list. -/
def putMark : List Nat → Nat → Bool → List Nat
  | [], a, m => if m then [a] else []
  | x :: t, a, m =>
    if a < x then (if m then a :: x :: t else x :: t)
    else if a = x then (if m then a :: t else t)
    else x :: putMark t a m

/-- Strictly rising. -/
def rising : List Nat → Bool
  | [] => true
  | [_] => true
  | x :: y :: t => decide (x < y) && rising (y :: t)

/-- The canonical form: cells at strictly rising addresses of the fitted DRAM, none equal to what an unlisted address
reads as; marks at strictly rising addresses. -/
def Memory.wf (m : Memory) : Bool :=
  rising (m.cells.map Prod.fst) && m.cells.all (fun c => c.2 ≠ unlistedByte) && rising m.badParity

/-- Where an address of the part lands in the fitted DRAM: the board decodes the address lines of the size fitted
(R178's worked example; log entry 5). -/
def Memory.place (m : Memory) (a : Nat) : Nat := a % m.fitted.bytes

/-- Read one byte. -/
def Memory.read (m : Memory) (a : Nat) : Byte := lookupCell m.cells (m.place a)

/-- The parity result of one byte: true passes (R63). -/
def Memory.parityOk (m : Memory) (a : Nat) : Bool := !m.badParity.contains (m.place a)

/-- Write one byte, with generated parity, or with the inverted parity bit when `seeded` (R63). -/
def Memory.write (m : Memory) (a : Nat) (b : Byte) (seeded : Bool) : Memory :=
  { m with cells := putCell m.cells (m.place a) b, badParity := putMark m.badParity (m.place a) seeded }

/-- Write bytes from an address on. -/
def Memory.writeAll (m : Memory) (a : Nat) (seeded : Bool) : List Byte → Memory
  | [] => m
  | b :: bs => (m.write a b seeded).writeAll (a + 1) seeded bs

/-- Read `n` bytes from an address on. -/
def Memory.readAll (m : Memory) (a n : Nat) : List Byte := (List.range n).map fun i => m.read (a + i)

/-- Do `n` bytes from an address on pass parity? -/
def Memory.parityAll (m : Memory) (a n : Nat) : Bool := (List.range n).all fun i => m.parityOk (a + i)

/-- The DRAM with the contents it holds as its supply returns (R74). -/
def Memory.powerUp (m : Memory) (d : PowerUpDram) : Memory :=
  d.badParity.foldl (fun m a => m.write a (m.read a) true)
    (d.cells.foldl (fun m c => m.write c.1 c.2 false) { m with cells := [], badParity := [] })

/-- The first byte of block `b` (R61). -/
def blockAddr (b : Nat) : Nat := Config.blockBytes * b

/-- The address of payload unit `u` of block `b` (R62). -/
def unitAddr (b u : Nat) : Nat := blockAddr b + 4 + u

def mapDram (f : Memory → Memory) (s : State) : State := { s with dram := f s.dram }

/-- Write a block's header: next and fill (R62). -/
def writeHeader (b next fill : Nat) : State → State :=
  mapDram (·.writeAll (blockAddr b) false (be16 next ++ be16 fill))

/-- Write a block's next alone (R65). -/
def writeNext (b next : Nat) : State → State :=
  mapDram (·.writeAll (blockAddr b) false (be16 next))

/-! ## SETTINGS (1.10) -/

/-- The active SETTINGS image; the image of zeros where it is absent, which no rule reads once READY (log entry 7). -/
def settingsImage (s : State) : List Byte := (s.tables.active[(0 : Fin 14)]).getD (List.replicate 30 0)

def setMemSize (s : State) : MemSize := (MemSize.ofCode? (byteAt (settingsImage s) 0)).getD .k512
def setMp (s : State) : Nat := byteAt (settingsImage s) 2
def setPaperLength (s : State) : Nat := wordAt (settingsImage s) 3
def setMemWait (s : State) : Nat := byteAt (settingsImage s) 5
def setIdleDoze (s : State) : Nat := byteAt (settingsImage s) 6
def setHoldTime (s : State) : Nat := byteAt (settingsImage s) 7
def setTempAge (s : State) : Nat := byteAt (settingsImage s) 8
def setHotLim (s : State) : Nat := byteAt (settingsImage s) 9
def setLead (s : State) : Nat := wordAt (settingsImage s) 10
def setTail (s : State) : Nat := wordAt (settingsImage s) 12
def setJamSteps (s : State) : Nat := wordAt (settingsImage s) 14
def setMaxLines (s : State) : Nat := wordAt (settingsImage s) 16
def setRh (s : State) : Nat := byteAt (settingsImage s) 18
def setDotLim (s : State) : Nat := wordAt (settingsImage s) 19
def setGap (s : State) : Nat := byteAt (settingsImage s) 21
def setPmax (s : State) : Nat := wordAt (settingsImage s) 22
def setPexit (s : State) : Nat := wordAt (settingsImage s) 25

/-- The readout time TR in microseconds, by the pixel clock (R19). A pixel clock above 2, which only a restored SETTINGS image
can hold, is taken as 2 (DESIGN CHOICE: log entry 58). -/
def readoutTime (s : State) : Nat :=
  match byteAt (settingsImage s) 1 with
  | 0 => 3520
  | 1 => 1760
  | _ => 880

/-- The number of blocks N: from the active SETTINGS, 0 while it is absent (R61). -/
def nBlocks (s : State) : Nat :=
  match s.tables.active[(0 : Fin 14)] with
  | none => 0
  | some _ => (setMemSize s).blocks

/-- The free block count as MEM, STATUS and the accounting read it: 0 while a build runs (R64, R67). -/
def freeCount (s : State) : Nat := if s.pmc.build.isSome then 0 else s.pmc.count

/-! ## Rings (R45, R46) -/

def Ring.cap (r : Ring) : Nat := r.slots.length

/-- The slot at an index. -/
def Ring.slot (r : Ring) (i : Nat) : Slot := r.slots.getD i Slot.blank

/-- The index after `i`, from the last slot back to 0. -/
def Ring.succ (r : Ring) (i : Nat) : Nat := if i + 1 < r.cap then i + 1 else 0

/-- The index before `i`. -/
def Ring.pred (r : Ring) (i : Nat) : Nat := if i = 0 then r.cap - 1 else i - 1

/-- A line enters at the tail. -/
def Ring.enter (r : Ring) (x : Slot) : Ring :=
  { r with slots := r.slots.set r.tail x, tail := r.succ r.tail, occ := r.occ + 1 }

/-- A reservation takes the tail slot (R46). -/
def Ring.reserve (r : Ring) : Ring := { r with tail := r.succ r.tail }

/-- The reserved slot, just before the tail, becomes occupied (R21). -/
def Ring.fillReserved (r : Ring) (x : Slot) : Ring :=
  { r with slots := r.slots.set (r.pred r.tail) x, occ := r.occ + 1 }

/-- The head slot is freed. -/
def Ring.free (r : Ring) : Ring := { r with head := r.succ r.head, occ := r.occ - 1 }

/-- Emptied: the tail returns to the head (R45). -/
def Ring.emptied (r : Ring) : Ring := { r with tail := r.head, occ := 0 }

/-- Emptied but for the head slot, which a partly read record keeps (R45). -/
def Ring.emptiedButHead (r : Ring) : Ring := { r with tail := r.succ r.head, occ := 1 }

def Ring.full (r : Ring) : Bool := r.cap ≤ r.occ

def mapRings (f : Rings → Rings) (s : State) : State := { s with rings := f s.rings }

/-- The Scan Ring's free-slot count F (R46). -/
def scanFree (s : State) : Nat := Config.scanRingSlots - s.rings.scan.occ - s.rings.scanReserved

/-! ## Contexts and channels -/

def coderOf (ctx : CoderCtx) (s : State) : Coder :=
  match ctx with
  | .scan => s.scanCd
  | .intake => s.intakeCd

def setCoder (ctx : CoderCtx) (c : Coder) (s : State) : State :=
  match ctx with
  | .scan => { s with scanCd := c }
  | .intake => { s with intakeCd := c }

def mapCoder (ctx : CoderCtx) (f : Coder → Coder) (s : State) : State := setCoder ctx (f (coderOf ctx s)) s

/-- The ring a coder context drains. -/
def coderRing (ctx : CoderCtx) (s : State) : Ring :=
  match ctx with
  | .scan => s.rings.scan
  | .intake => s.rings.intake

def passOf (ctx : DecoderCtx) (s : State) : Option Pass :=
  match ctx with
  | .print => s.printDec
  | .output => s.outDec

def setPass (ctx : DecoderCtx) (p : Option Pass) (s : State) : State :=
  match ctx with
  | .print => { s with printDec := p }
  | .output => { s with outDec := p }

/-- The ring a decoder context fills. -/
def decoderRing (ctx : DecoderCtx) (s : State) : Ring :=
  match ctx with
  | .print => s.rings.print
  | .output => s.rings.output

def motorOf (ch : Channel) (s : State) : Motor :=
  match ch with
  | .S => s.motS
  | .P => s.motP

def setMotor (ch : Channel) (m : Motor) (s : State) : State :=
  match ch with
  | .S => { s with motS := m }
  | .P => { s with motP := m }

def mapMotor (ch : Channel) (f : Motor → Motor) (s : State) : State := setMotor ch (f (motorOf ch s)) s

def mapPower (f : Power → Power) (s : State) : State := { s with power := f s.power }
def mapBoot (f : Boot → Boot) (s : State) : State := { s with boot := f s.boot }
def mapPort (f : Port → Port) (s : State) : State := { s with port := f s.port }
def mapPmc (f : Pmc → Pmc) (s : State) : State := { s with pmc := f s.pmc }
def mapDir (f : Directory → Directory) (s : State) : State := { s with dir := f s.dir }
def mapFront (f : ScanFront → ScanFront) (s : State) : State := { s with front := f s.front }
def mapTemp (f : Temperature → Temperature) (s : State) : State := { s with temp := f s.temp }
def mapScanJob (f : ScanJob → ScanJob) (s : State) : State := { s with scanJob := s.scanJob.map f }
def mapIntJob (f : IntakeJob → IntakeJob) (s : State) : State := { s with intJob := s.intJob.map f }
def mapPrtJob (f : PrintJob → PrintJob) (s : State) : State := { s with prtJob := s.prtJob.map f }

/-- A channel in ACCEL, SLEW, DECEL or BURST (R97). -/
def Motor.moving (m : Motor) : Bool :=
  match m.state with
  | .accel | .slew | .decel | .burst => true
  | .off | .hold | .fault => false

/-- A channel in OFF or HOLD (R97). -/
def Motor.atRest (m : Motor) : Bool :=
  match m.state with
  | .off | .hold => true
  | .accel | .slew | .decel | .burst | .fault => false

def Motor.faulted (m : Motor) : Bool := m.state = .fault

/-- Input lines sensed as a command arrives (log entry 2). -/
def sense (lv : Levels) (s : State) : State :=
  { s with lines := { s.lines with
      docp := s.lines.docp && lv.docp, doce := lv.doce, papr := lv.papr, cover := s.lines.cover || lv.cover,
      ring := s.lines.ring && lv.ring, key := s.lines.key && lv.key, bootsrc := lv.bootsrc } }

/-! ## The reply queue (R4) -/

/-- An entry joins the reply queue. -/
def pushReply (kind sub : Byte) (body : ReplyBody) : State → State :=
  mapPort fun p => { p with replies := p.replies ++ [{ kind := kind, sub := sub, body := body }] }

/-- Fill the oldest entry with the given waiting content. -/
def fillFirst (w : ReplyBody) (status : Status) (answer : List Byte) : List ReplyEntry → List ReplyEntry
  | [] => []
  | e :: t => if e.body = w then { e with body := .filled status answer } :: t else e :: fillFirst w status answer t

/-- Fill every entry with the given waiting content. -/
def fillEvery (w : ReplyBody) (status : Status) (answer : List Byte) (l : List ReplyEntry) : List ReplyEntry :=
  l.map fun e => if e.body = w then { e with body := .filled status answer } else e

def fillReply (w : ReplyBody) (status : Status) (answer : List Byte) : State → State :=
  mapPort fun p => { p with replies := fillFirst w status answer p.replies }

def fillReplies (w : ReplyBody) (status : Status) (answer : List Byte) : State → State :=
  mapPort fun p => { p with replies := fillEvery w status answer p.replies }

end Sys2Proof.Machine
end

