-- ==== Sys2Proof/Machine/LineCode.lean ====
section
/-! DEFINITION. The line code (R52, R53) and the checks of its reading (R58). -/

namespace Sys2Proof.Machine

def markRepeat : Byte := 0x01
def markRuns : Byte := 0x02
def markRaw : Byte := 0x03

/-! ## Coding -/

/-- The run lengths of dots, alternating colours from `colour`, `n` dots of it already counted. -/
def runLengths (colour : Bool) (n : Nat) : List Bool → List Nat
  | [] => [n]
  | d :: ds => if d = colour then runLengths colour (n + 1) ds else n :: runLengths d 1 ds

/-- The units of one run length: one unit up to 127, else two (R52). -/
def runUnits (n : Nat) : List Byte :=
  if n < 128 then [BitVec.ofNat 8 n] else [BitVec.ofNat 8 (128 + n / 256), BitVec.ofNat 8 (n % 256)]

/-- The run units of a line, white run first. -/
def lineRunUnits (l : Line) : List Byte := (runLengths false 0 (dotsOf l)).flatMap runUnits

/-- The code units of a line below the line `prev` of the same page (none at line 0) (R53). -/
def codeLine (prev : Option Line) (l : Line) : List Byte :=
  if prev = some l then [markRepeat]
  else if (lineRunUnits l).length + 1 ≤ 217 then markRuns :: lineRunUnits l
  else markRaw :: lineToBytes l

/-! ## Reading -/

/-- `n` black or white dots put after the dots so far (as a number, latest dot lowest). -/
def putDots (black : Bool) (n acc : Nat) : Nat := if black then (acc + 1) * 2 ^ n - 1 else acc * 2 ^ n

/-- A whole run read: the line done at exactly 1728 dots, lost past 1728 or once 216 run units are used up before it. -/
def Parse.runRead (black : Bool) (dots acc n count : Nat) : Parse :=
  if dots + n = 1728 then .done (some (BitVec.ofNat 1728 (putDots black n acc)))
  else if 1728 < dots + n then .lost
  else if 216 ≤ count then .lost
  else .runs (!black) (dots + n) (putDots black n acc) none count

/-- One more unit of a line (R52, R58). -/
def Parse.feed (p : Parse) (u : Byte) : Parse :=
  match p with
  | .mark =>
    if u = markRepeat then .done none
    else if u = markRuns then .runs false 0 0 none 0
    else if u = markRaw then .raw 0 0
    else .lost
  | .runs black dots acc none count =>
    if u.toNat < 128 then Parse.runRead black dots acc u.toNat (count + 1)
    else if 216 ≤ count + 1 then .lost
    else .runs black dots acc (some ((u.toNat - 128) * 256)) (count + 1)
  | .runs black dots acc (some hi) count => Parse.runRead black dots acc (hi + u.toNat) (count + 1)
  | .raw count acc =>
    if count + 1 = 216 then .done (some (BitVec.ofNat 1728 (256 * acc + u.toNat)))
    else .raw (count + 1) (256 * acc + u.toNat)
  | .done l => .done l
  | .lost => .lost

/-- Has the line's reading ended, its length found or lost? -/
def Parse.ended : Parse → Bool
  | .done _ => true
  | .lost => true
  | .mark => false
  | .runs _ _ _ _ _ => false
  | .raw _ _ => false

/-- A list of units fed in order. -/
def Parse.feedAll (p : Parse) (us : List Byte) : Parse := us.foldl Parse.feed p

/-- What a line read in full stands for below the previous decoded line `prev`: the line, or none where it is damaged
whatever its parity (R57, R58). -/
def Parse.line? (p : Parse) (prev : Option Line) : Option Line :=
  match p with
  | .done (some l) => some l
  | .done none => prev
  | .lost => none
  | .mark => none
  | .runs _ _ _ _ _ => none
  | .raw _ _ => none

end Sys2Proof.Machine
end

