-- ==== Sys2Proof/Machine/Tables.lean ====
section
/-! DEFINITION. The Table Store (R11 to R15) and the formats of the fourteen tables (R25, R28, R30, R31, R33, R38, R99,
R101, R138, 1.10). -/

namespace Sys2Proof.Machine

def tSettings : Fin 14 := 0
def tShading : Fin 14 := 1
def tToneA : Fin 14 := 2
def tToneB : Fin 14 := 3
def tDither : Fin 14 := 4
def tModes : Fin 14 := 5
def tZones : Fin 14 := 6
def tStamp : Fin 14 := 7
def tSramp : Fin 14 := 8
def tSphase : Fin 14 := 9
def tPramp : Fin 14 := 10
def tPphase : Fin 14 := 11
def tHeat : Fin 14 := 12
def tTempf : Fin 14 := 13

/-- The active copy of a table. -/
def activeOf (id : Fin 14) (s : State) : Option (List Byte) := s.tables.active[id]

/-- The active image of a table, empty where absent; every order that uses a table has found it present (NOTABLE). -/
def imageOf (id : Fin 14) (s : State) : List Byte := (activeOf id s).getD []

/-- A copy of a table: active, or pending. -/
def copyOf (pending : Bool) (id : Fin 14) (s : State) : Option (List Byte) :=
  if pending then s.tables.pending[id] else s.tables.active[id]

/-! ## Formats -/

/-- Does an image's length fit the table's format (R13 step 1)? -/
def tableLengthOk (id : Fin 14) (img : List Byte) : Bool :=
  match id with
  | 0 => img.length = 30
  | 1 => img.length = 3456
  | 2 | 3 => img.length = 256
  | 4 => img.length = 16
  | 5 => img.length = 32
  | 6 => 1 ≤ img.length && byteAt img 0 ≤ 8 && img.length = 1 + 9 * byteAt img 0
  | 7 => 3 ≤ img.length && 1 ≤ byteAt img 2 && byteAt img 2 ≤ 24 && img.length = 3 + 432 * byteAt img 2
  | 8 | 10 => 1 ≤ byteAt img 0 && byteAt img 0 ≤ 32 && img.length = 1 + 2 * byteAt img 0
  | 9 | 11 => 1 ≤ byteAt img 0 && byteAt img 0 ≤ 8 && img.length = 1 + byteAt img 0
  | 12 => img.length = 8
  | 13 => img.length = 32

/-- Is every enumeration of an image in its set (R13 step 2)? The memory size and the pixel clock of SETTINGS, coded by name,
are enumerations (DESIGN CHOICE: R6 lists a setting among the numbers; log entry 49). -/
def tableEnumsOk (id : Fin 14) (img : List Byte) : Bool :=
  match id with
  | 0 => byteAt img 0 ≤ 3 && byteAt img 1 ≤ 2
  | 5 => (List.range 8).all fun k => byteAt img (4 * k) ≤ 2 && byteAt img (4 * k + 2) ≤ 1 && byteAt img (4 * k + 3) ≤ 2
  | 1 | 2 | 3 | 4 | 6 | 7 | 8 | 9 | 10 | 11 | 12 | 13 => true

/-- An image after clamping: the image, the number of values clamped, the offset of the first (0 when none) (R13). -/
structure Clamped where
  image : List Byte
  count : Nat
  first : Nat
deriving DecidableEq, Repr

/-- A number in an image: its offset, its width in bytes (1 or 2), its range. -/
structure NumField where
  off   : Nat
  width : Nat
  lo    : Nat
  hi    : Nat
deriving DecidableEq, Repr

def readField (img : List Byte) (off width : Nat) : Nat := if width = 1 then byteAt img off else wordAt img off

def writeField (img : List Byte) (off width n : Nat) : List Byte :=
  patchAt img off (if width = 1 then be8 n else be16 n)

/-- Put a value in a field, counting a change. -/
def Clamped.put (c : Clamped) (off width old new : Nat) : Clamped :=
  if new = old then c
  else { image := writeField c.image off width new, count := c.count + 1, first := if c.count = 0 then off else c.first }

def Clamped.field (c : Clamped) (f : NumField) : Clamped :=
  c.put f.off f.width (readField c.image f.off f.width) (clampNat f.lo f.hi (readField c.image f.off f.width))

/-- The numbers with a range narrower than their bytes, by table (1.10, R28, R38, R138). -/
def tableFields (id : Fin 14) (img : List Byte) : List NumField :=
  match id with
  | 0 =>
    [⟨2, 1, 1, 4⟩, ⟨3, 2, 100, 16383⟩, ⟨8, 1, 1, 255⟩, ⟨10, 2, 0, 1023⟩, ⟨12, 2, 0, 1023⟩, ⟨14, 2, 100, 65535⟩,
      ⟨16, 2, 1, 16383⟩, ⟨18, 1, 1, 8⟩, ⟨19, 2, 108, 432⟩, ⟨22, 2, 100, 4000⟩, ⟨25, 2, 0, 4095⟩]
  | 6 =>
    (List.range (byteAt img 0)).flatMap fun k =>
      [⟨1 + 9 * k, 2, 0, 1727⟩, ⟨3 + 9 * k, 2, 0, 1727⟩, ⟨5 + 9 * k, 2, 0, 16383⟩, ⟨7 + 9 * k, 2, 0, 16383⟩,
        ⟨9 + 9 * k, 1, 0, 7⟩]
  | 7 => [⟨0, 2, 0, 16383⟩]
  | 12 => (List.range 4).map fun k => ⟨2 * k, 2, 100, 4000⟩
  | 13 => (List.range 16).map fun k => ⟨2 * k, 2, 64, 512⟩
  | 1 | 2 | 3 | 4 | 5 | 8 | 9 | 10 | 11 => []

/-- A ramp entry as R99 clamps it: at least 100, and no larger than the entry before it. -/
def rampClamped (c : Clamped) (k : Nat) : Nat :=
  if k = 0 then max 100 (wordAt c.image 1)
  else min (wordAt c.image (2 * k - 1)) (max 100 (wordAt c.image (1 + 2 * k)))

/-- The clamping of a ramp image, entry by entry from entry 0 (R99). -/
def clampRamp (img : List Byte) : Clamped :=
  (List.range (byteAt img 0)).foldl
    (fun c k => c.put (1 + 2 * k) 2 (wordAt c.image (1 + 2 * k)) (rampClamped c k)) ⟨img, 0, 0⟩

/-- The clamping of R13 step 4. -/
def clampTable (id : Fin 14) (img : List Byte) : Clamped :=
  if id = tSramp ∨ id = tPramp then clampRamp img
  else (tableFields id img).foldl Clamped.field ⟨img, 0, 0⟩

/-! ## Table contents -/

/-- The number of entries of a ramp table. -/
def rampCount (img : List Byte) : Nat := byteAt img 0

/-- Entry `k` of a ramp table, in microseconds (R99). -/
def rampEntry (img : List Byte) (k : Nat) : Nat := wordAt img (1 + 2 * k)

/-- The number of patterns of a phase table. -/
def phaseCount (img : List Byte) : Nat := byteAt img 0

/-- Pattern `k` of a phase table: bits 0 to 3 (R101). -/
def phasePattern (img : List Byte) (k : Nat) : BitVec 4 := (img.getD (1 + k) 0).truncate 4

/-- The pixels whose span is too narrow to correct (R26). -/
def defectiveOf (img : List Byte) : List Nat :=
  (List.range 1728).filter fun i => (byteAt img (2 * i + 1) : Int) - (byteAt img (2 * i) : Int) < 8

/-! ## The copies -/

/-- A new active copy and what follows from it: SHADING rebuilds the defective-pixel map (R26), a phase table takes its
channel's phase index modulo its count (R102). -/
def setActive (id : Fin 14) (img : List Byte) (s : State) : State :=
  let s := { s with tables := { s.tables with active := s.tables.active.set id (some img) } }
  if id = tShading then { s with front := { s.front with defective := defectiveOf img } }
  else if id = tSphase then { s with motS := { s.motS with phase := s.motS.phase % phaseCount img } }
  else if id = tPphase then { s with motP := { s.motP with phase := s.motP.phase % phaseCount img } }
  else s

def setPending (id : Fin 14) (img : Option (List Byte)) (s : State) : State :=
  { s with tables := { s.tables with pending := s.tables.pending.set id img } }

/-- An active copy replaced other than by its pending copy: the pending copy is discarded (R14). -/
def replaceActive (id : Fin 14) (img : List Byte) (s : State) : State := setPending id none (setActive id img s)

/-- A pending copy becomes active at its boundary, and TABLE_APPLIED is raised (R14). -/
def applyPending (id : Fin 14) (s : State) : State :=
  match s.tables.pending[id] with
  | none => s
  | some img => raise evTableApplied 0 0 id.val (setPending id none (setActive id img s))

/-- Several tables that meet their boundary together, in ascending order of table id (R14). -/
def applyAll (ids : List (Fin 14)) (s : State) : State := ids.foldl (fun s id => applyPending id s) s

def scanTables : List (Fin 14) := [1, 2, 3, 4, 5, 6, 7]

/-- Is a SCAN job waiting for a directory entry at a page end (R11)? -/
def scanHoldsMotor (s : State) : Bool :=
  match s.scanJob with
  | none => false
  | some j => j.phase ≠ .dirwait

/-- Is a PRINT job within a copy (R11)? -/
def printInCopy (s : State) : Bool :=
  match s.prtJob with
  | none => false
  | some j => j.inCopy

/-- The "in use while" column of R11. In DIRWAIT the channel at rest is what frees SRAMP and SPHASE (R130). -/
def tableInUse (id : Fin 14) (s : State) : Bool :=
  match id with
  | 0 => false
  | 1 | 2 | 3 | 4 | 5 | 6 | 7 => s.scanJob.isSome
  | 8 | 9 => s.motS.moving || s.motS.faulted || scanHoldsMotor s
  | 10 | 11 => s.motP.moving || s.motP.faulted || printInCopy s
  | 12 | 13 => s.prtJob.isSome

/-- Pending motor tables no longer in use are applied (R117). -/
def applyMotorTables (s : State) : State :=
  ([tSramp, tSphase, tPramp, tPphase]).foldl (fun s id => if tableInUse id s then s else applyPending id s) s

/-! ## List build (R67) -/

/-- Begin a list build for the active memory size: until it ends the list is empty, its head link FFFFh
(DESIGN CHOICE: log entry 55), and its count reads 0. -/
def startBuild : State → State :=
  mapPmc fun p =>
    { p with head := noBlock, tail := noBlock, headLink := noBlock, linkKnown := true, count := 0, build := some 0,
             grant := p.grant.map fun g => if g.burst = .build then { g with live := false } else g }

/-! ## Loading (R12 to R15) -/

/-- The conditions that refuse a completed image before it is installed (R13 step 3, R15). -/
def installRefusal (id : Fin 14) (img : List Byte) (s : State) : Option Status :=
  if id = tSettings then
    if s.scanJob.isSome || s.intJob.isSome || s.prtJob.isSome || s.outJob.isSome || s.front.cal.isSome
        || !s.motS.atRest || !s.motP.atRest then some .busy
    else if s.boot.state = .ready ∧ byteAt img 0 ≠ byteAt (settingsImage s) 0 ∧ s.dir.entries ≠ [] then some .state
    else none
  else if id = tShading ∧ s.front.cal.isSome then some .busy
  else none

/-- A SETTINGS image accepted (R15): active at once, its masks taken, the free list rebuilt where its memory size changes
in READY. -/
def installSettings (img : List Byte) (s : State) : State :=
  let resized := s.boot.state = .ready ∧ byteAt img 0 ≠ byteAt (settingsImage s) 0
  let s := replaceActive tSettings img s
  let s := { s with events := s.events.maskAll (beNat (sliceOf img 27 3)) }
  if resized then startBuild s else s

/-- A completed image installed (R13 steps 5 and 6, R15): the state, and 0 active or 1 pending. -/
def installImage (id : Fin 14) (img : List Byte) (s : State) : State × Nat :=
  if id = tSettings then (installSettings img s, 0)
  else if tableInUse id s then (setPending id (some img) s, 1)
  else (replaceActive id img s, 0)

/-- A completed image judged and installed (R13). -/
def completeImage (id : Fin 14) (img : List Byte) (s : State) : State × ReplyBody :=
  if !tableLengthOk id img then (s, .filled .length [])
  else if !tableEnumsOk id img then (s, .filled .badarg [])
  else
    match installRefusal id img s with
    | some st => (s, .filled st [])
    | none =>
      let c := clampTable id img
      let r := installImage id c.image s
      (r.1, .filled (if c.count = 0 then .ok else .clamped) (be8 r.2 ++ be16 c.count ++ be16 c.first))

def setAssembly (a : Option Assembly) (s : State) : State := { s with tables := { s.tables with assembly := a } }

/-- A segment's bytes taken into the assembly's image so far (R12): too long, kept for the next segment, or completed. -/
def gather (id : Fin 14) (next : Nat) (final : Bool) (img : List Byte) (s : State) : State × ReplyBody :=
  if Config.maxImage < img.length then (setAssembly none s, .filled .length [])
  else if final then completeImage id img (setAssembly none s)
  else (setAssembly (some { table := id, next := next, bytes := img }) s, .filled .ok [])

/-- A LOAD segment (R12). -/
def loadSegment (id : Fin 14) (seg final : Nat) (bytes : List Byte) (s : State) : State × ReplyBody :=
  match flagOf? final with
  | none => (s, .filled .badarg [])
  | some fin =>
    if seg = 0 then gather id 1 fin bytes s
    else
      match s.tables.assembly with
      | none => (s, .filled .state [])
      | some a =>
        if a.table = id ∧ a.next = seg ∧ seg ≤ 15 then gather id (seg + 1) fin (a.bytes ++ bytes) s
        else (s, .filled .state [])

end Sys2Proof.Machine
end

