-- ==== Sys2Proof/Machine/Motor.lean ====
section
/-! DEFINITION. The Motor Timing Unit (R97 to R118): runs, stops, bursts, rest, faults, outputs, the motor shadow. -/

namespace Sys2Proof.Machine

/-! ## One channel -/

/-- The steps a plan still has to issue; none for an unbounded run (R106). -/
def Plan.owed : Plan → Option Nat
  | .idle => some 0
  | .run _ _ none _ _ => none
  | .run _ up (some f) down _ => some (up + f + down)
  | .burst left _ => some left

/-- A run taken (R103): the indices recorded, the profile planned. `count` is the ramp table's entry count. -/
def Motor.beginRun (m : Motor) (count : Nat) (owner : Owner) (reverse : Bool) (req use : Nat) (steps : Option Nat) :
    Motor :=
  let top := min use (count - 1)
  let eff := match steps with
    | none => top
    | some n => min top (n / 2)
  { m with hold := none, slewReq := req, slewEff := eff, rampIndex := 0, owner := owner,
           plan := .run reverse eff (steps.map fun n => n - 2 * eff) (if steps.isSome then eff else 0) false }

/-- A burst taken (R105). -/
def Motor.beginBurst (m : Motor) (owner : Owner) (steps : Nat) : Motor :=
  { m with hold := none, owner := owner, state := .burst, plan := .burst steps 0 }

/-- The phase index after a step in a table of `n` patterns (R102). -/
def nextPhase (reverse : Bool) (n phase : Nat) : Nat :=
  if reverse then (if phase = 0 then n - 1 else phase - 1) else (if phase + 1 < n then phase + 1 else 0)

/-- The steps issued of a motion once its next step is (R106): a run's first step, issued on a channel at rest, begins the
count; a burst's plan numbers its steps from 0. -/
def Motor.issuedNext (m : Motor) : Nat :=
  match m.plan with
  | .burst _ i => i + 1
  | .run _ _ _ _ _ => if m.moving then m.issued + 1 else 1
  | .idle => m.issued

/-- The moves of one step: phase index and step position (R102), and the count of the motion's steps (R106). -/
def Motor.turn (m : Motor) (reverse : Bool) (patterns : Nat) : Motor :=
  { m with phase := nextPhase reverse patterns m.phase, pos := if reverse then m.pos - 1 else m.pos + 1,
           issued := m.issuedNext }

/-- Is a step of the channel's plan still to issue? -/
def Motor.stepDue (m : Motor) : Bool := m.plan.owed ≠ some 0

/-- Is the channel in motion with its last step issued? -/
def Motor.spent (m : Motor) : Bool := m.moving && !m.stepDue

/-- The next step of the plan issued (R100, R102, R105): the entry used gives the interval. A channel with no step to
issue is unchanged. -/
def Motor.issue (m : Motor) (ramp : List Byte) (patterns : Nat) : Motor :=
  match m.plan with
  | .idle => m
  | .run rev (up + 1) flat down st =>
    { m.turn rev patterns with state := .accel, interval := rampEntry ramp m.rampIndex, rampIndex := m.rampIndex + 1,
                               plan := .run rev up flat down st }
  | .run rev 0 none down st =>
    { m.turn rev patterns with state := .slew, interval := rampEntry ramp m.rampIndex, plan := .run rev 0 none down st }
  | .run rev 0 (some (f + 1)) down st =>
    { m.turn rev patterns with state := .slew, interval := rampEntry ramp m.rampIndex,
                               plan := .run rev 0 (some f) down st }
  | .run rev 0 (some 0) (down + 1) st =>
    { m.turn rev patterns with state := .decel, interval := rampEntry ramp (m.rampIndex - 1),
                               rampIndex := m.rampIndex - 1, plan := .run rev 0 (some 0) down st }
  | .run _ 0 (some 0) 0 _ => m
  | .burst (left + 1) i =>
    { m.turn false patterns with state := .burst, interval := rampEntry ramp (min i (rampCount ramp - 1)),
                                 rampIndex := min i (rampCount ramp - 1), plan := .burst left (i + 1) }
  | .burst 0 _ => m

/-- A stop request of `q` further steps (R104): taken in ACCEL and SLEW with no stop standing, and on a bounded run only
where its deceleration would begin before the planned one. -/
def Motor.stop (m : Motor) (q : Nat) : Motor :=
  match m.plan with
  | .run rev up flat _ false =>
    if (m.state = .accel ∨ m.state = .slew) ∧ (flat.all fun f => decide (q < up + f)) = true then
      { m with plan := .run rev (min up q) (some (q - min up q)) (m.rampIndex + min up q) true }
    else m
  | .run _ _ _ _ true => m
  | .burst _ _ => m
  | .idle => m

/-- Does a stop request stand, or is the channel already coming down? -/
def Motor.stopping (m : Motor) : Bool :=
  match m.plan with
  | .run _ _ _ _ st => st || m.state = .decel
  | .burst _ _ => false
  | .idle => false

/-- Rest at the end of a motion or burst (R107). -/
def Motor.rest (m : Motor) (holdTime : Nat) : Motor :=
  { m with state := .hold, plan := .idle, owner := .nobody, interval := 0,
           rampIndex := if m.state = .burst then m.rampIndex else 0,
           hold := if holdTime = 0 then none else some holdTime }

/-- The hold timer expires (R107). -/
def Motor.release (m : Motor) : Motor := { m with state := .off, hold := none }

/-- The report of a motion abandoned now (R106). A MOVE has no job to report to, and a channel at rest or in FAULT has no
motion: the report told last stands. A run taken whose first step is not issued, its line jammed at MAXLINES, is none either
(DESIGN CHOICE: log entry 52). -/
def Motor.report (m : Motor) : Option Abandonment :=
  if m.moving && (m.owner = .scan || m.owner = .print) then
    some { owner := m.owner, issued := m.issued, owed := m.plan.owed }
  else m.told

/-- FAULT (R112): the motion abandoned and its owner told, the timer and a waiting request withdrawn. -/
def Motor.cutOff (m : Motor) (add : Causes) : Motor :=
  let causes : Causes :=
    { cover := m.causes.cover || add.cover, pfail := m.causes.pfail || add.pfail, jam := m.causes.jam || add.jam }
  if m.faulted then { m with causes := causes }
  else { m with state := .fault, plan := .idle, owner := .nobody, interval := 0, rampIndex := 0, hold := none,
                waiting := none, causes := causes, told := m.report }

def byCover : Causes := { cover := true, pfail := false, jam := false }
def byPfail : Causes := { cover := false, pfail := true, jam := false }
def byJam : Causes := { cover := false, pfail := false, jam := true }

/-- The fault causes as RESUME answers them: bit 0 COVER, bit 1 PFAIL, bit 2 JAM (R114). -/
def Causes.code (c : Causes) : Nat := c.cover.toNat + 2 * c.pfail.toNat + 4 * c.jam.toNat

/-- RESUME clears a fault (R114). -/
def Motor.clear (m : Motor) : Motor := { m with state := .off, causes := Causes.reset }

/-- RESTART (R118): OFF, the motion abandoned and its owner told (R106), causes cleared; phase index, step position and slew indices kept. -/
def Motor.restarted (m : Motor) : Motor :=
  { m with state := .off, plan := .idle, owner := .nobody, interval := 0, rampIndex := 0, hold := none, waiting := none,
           causes := Causes.reset, told := m.report }

/-- At entry to DOZE, SLEEP or STANDBY (R115): HOLD goes to OFF, OFF and FAULT stay. -/
def Motor.powerDown (m : Motor) : Motor := if m.state = .hold then m.release else m

/-- At speed (R108). -/
def Motor.atSpeed (m : Motor) : Bool := m.state = .slew && m.slewEff = m.slewReq

/-- The phase outputs, output 1 in bit 0 (R98). -/
def Motor.outputs (m : Motor) (phases : List Byte) : BitVec 4 :=
  match m.state with
  | .off | .fault => 0
  | .hold | .accel | .slew | .decel | .burst => phasePattern phases m.phase

/-- The hold line (R98). -/
def Motor.holdLine (m : Motor) : Bool := m.state = .hold

/-! ## The two channels in State -/

def rampTable (ch : Channel) (s : State) : List Byte :=
  match ch with
  | .S => imageOf tSramp s
  | .P => imageOf tPramp s

def phaseTable (ch : Channel) (s : State) : List Byte :=
  match ch with
  | .S => imageOf tSphase s
  | .P => imageOf tPphase s

/-- The next step of a channel's plan issued. -/
def issueStep (ch : Channel) (s : State) : State :=
  mapMotor ch (fun m => m.issue (rampTable ch s) (phaseCount (phaseTable ch s))) s

/-- A run request taken on a channel at rest, its first step issued at once (R103). -/
def takeRun (ch : Channel) (owner : Owner) (reverse : Bool) (req use : Nat) (steps : Option Nat) (s : State) : State :=
  issueStep ch (mapMotor ch (fun m => m.beginRun (rampCount (rampTable ch s)) owner reverse req use steps) s)

/-- A burst request taken on channel P at rest, its first step issued at once (R105). -/
def takeBurst (steps : Nat) (s : State) : State :=
  issueStep .P (mapMotor .P (fun m => m.beginBurst .print steps) s)

/-- A request of the Print Engine on channel P (R103, R105): taken at rest, waiting while in motion; not taken in FAULT,
which the answer tells. -/
def requestP (r : MotorRequest) (s : State) : State × Bool :=
  if s.motP.faulted then (s, false)
  else if s.motP.moving then ({ s with motP := { s.motP with waiting := some r } }, true)
  else
    match r with
    | .burst m => (takeBurst m s, true)
    | .run rev req use steps => (takeRun .P .print rev req use steps s, true)

/-- A request that waited for rest is taken (R103, R105). -/
def takeWaiting (s : State) : State :=
  match s.motP.waiting with
  | none => s
  | some r => (requestP r { s with motP := { s.motP with waiting := none } }).1

/-- A channel comes to rest at the end of its last step's interval. -/
def restChannel (ch : Channel) (s : State) : State := mapMotor ch (·.rest (setHoldTime s)) s

/-! ## The motor shadow (R116) -/

def takeShadow (s : State) : Shadow :=
  { sPhase := s.motS.phase, sPos := s.motS.pos, pPhase := s.motP.phase, pPos := s.motP.pos }

def writeShadow (s : State) : State := mapPower (fun p => { p with shadow := takeShadow s }) s

/-- The channels take their phase index and step position from a shadow, in OFF, or in FAULT where they were. The phase index is
taken as the shadow holds it, also where a phase table of fewer patterns was installed in DOZE meanwhile (DESIGN CHOICE; log
entry 44). -/
def readShadow (h : Shadow) (s : State) : State :=
  { s with motS := { s.motS with phase := h.sPhase, pos := h.sPos },
           motP := { s.motP with phase := h.pPhase, pos := h.pPos } }

/-- Entry to a power state: HOLD goes to OFF on both channels (R115). -/
def powerDownMotors (s : State) : State := { s with motS := s.motS.powerDown, motP := s.motP.powerDown }

/-- The channels in ACCEL, SLEW, DECEL or BURST, as COVER's snapshot names them (R113). -/
def movingChannels (s : State) : Nat := s.motS.moving.toNat + 2 * s.motP.moving.toNat

end Sys2Proof.Machine
end

