-- ==== Sys2Proof/Machine/PageMemory.lean ====
section
/-! DEFINITION. The free block list, allocation, memory waits and list upkeep (R62 to R70). -/

namespace Sys2Proof.Machine

/-! ## Page entries -/

def entryOf (id : Nat) (s : State) : Option Entry := s.dir.entries.find? fun e => e.id = id

def mapEntry (id : Nat) (f : Entry → Entry) : State → State :=
  mapDir fun d => { d with entries := d.entries.map fun e => if e.id = id then f e else e }

/-- A page has stored lines unless its head line equals its line count (R84). -/
def Entry.stored (e : Entry) : Nat := e.lineCount - e.headLine

def Entry.hasReader (e : Entry) : Bool := e.printRd.isSome || e.outRd.isSome

/-- The MEM_WAIT reason of a memory wait (R68). -/
def memReason : CoderCtx → Nat
  | .scan => 1
  | .intake => 2

/-- The MEM_WAIT reason of a directory wait (R81). -/
def dirReason : CoderCtx → Nat
  | .scan => 3
  | .intake => 4

/-! ## Allocation (R66) -/

/-- The head block leaves the list; the new head's link is read by list upkeep (R65, R66 step 1). The head link of the list then
empty, and one not yet read, is FFFFh (DESIGN CHOICE: log entry 55). -/
def Pmc.takeHead (p : Pmc) : Pmc :=
  if p.count ≤ 1 then { p with head := noBlock, tail := noBlock, headLink := noBlock, linkKnown := true, count := 0 }
  else { p with head := p.headLink, headLink := noBlock, linkKnown := false, count := p.count - 1,
                upkeep := p.upkeep ++ [.readLink p.headLink] }

/-- The page gains a block (R66 steps 3 and 4). -/
def Entry.gain (e : Entry) (b : Nat) : Entry :=
  { e with blockCount := e.blockCount + 1, last := b, first := if e.first = noBlock then b else e.first }

/-- A print pass waiting on a page with no block yet takes its read position from the first (R56). -/
def positionReader (id b : Nat) (s : State) : State :=
  match s.printDec with
  | none => s
  | some p =>
    if p.page = id ∧ p.block = none then
      mapEntry id (fun e => { e with printRd := e.printRd.map fun r => { r with block := b } })
        { s with printDec := some { p with block := some b, off := 0, header := none } }
    else s

/-- The head block is allocated to a coder context (R66). -/
def allocate (ctx : CoderCtx) (s : State) : State :=
  let b := s.pmc.head
  let c := coderOf ctx s
  let s := mapPmc Pmc.takeHead s
  let s := match c.block with
    | none => s
    | some old => writeHeader old b Config.blockUnits s
  let s := setCoder ctx { c with st := .coding, timer := none, block := some b, fill := 0, wpos := 0, asking := false } s
  match c.page with
  | none => s
  | some id => positionReader id b (mapEntry id (·.gain b) s)

/-- A context enters MEMWAIT (R68). -/
def enterMemwait (ctx : CoderCtx) (s : State) : State :=
  let c := coderOf ctx s
  raise evMemWait (c.page.getD 0) 0 (memReason ctx)
    (setCoder ctx { c with st := .memwait, asking := false, timer := some (setMemWait s) } s)

/-- Is the upkeep read of the head's link in course? -/
def Pmc.readingLink (p : Pmc) : Bool := p.grant.any fun g => g.burst = .upkeep (.readLink p.head)

/-- An outstanding request is granted, held, or turned into a memory wait (R65, R66, R68): while a list build runs, or
until the upkeep read of a new head link has ended, it is held. -/
def pumpAsk (ctx : CoderCtx) (s : State) : State :=
  if (coderOf ctx s).asking ∧ s.pmc.build = none then
    if s.pmc.count = 0 then enterMemwait ctx s
    else if s.pmc.linkKnown && !s.pmc.readingLink then allocate ctx s
    else s
  else s

/-- A coder context asks for a block (R66). -/
def askBlock (ctx : CoderCtx) (s : State) : State :=
  pumpAsk ctx (mapCoder ctx (fun c => { c with asking := true }) s)

/-- A waiting context with a block on the list leaves MEMWAIT for it (R68). -/
def serveOne (ctx : CoderCtx) (s : State) : State :=
  let c := coderOf ctx s
  pumpAsk ctx
    (if c.st = .memwait ∧ 0 < s.pmc.count then setCoder ctx { c with st := .coding, timer := none, asking := true } s
     else s)

/-- Freed blocks go to the waiting contexts, the scan context first (R68). -/
def serveWaiters (s : State) : State := serveOne .intake (serveOne .scan s)

/-! ## Freeing (R70) -/

/-- `k` blocks from `first` to `last`, `link` being the next of the first, join the list's tail; `pre` is the upkeep that
settles their own headers. On a one-block list the head link is `first`; while the upkeep read of that link still waits, the
write of the head's next is made before it (R65), and only where the read is in course already does the join give the link
(log entry 11). -/
def Pmc.join (p : Pmc) (first last k link : Nat) (pre : List Upkeep) : Pmc :=
  if p.count = 0 then
    { p with head := first, tail := last, headLink := link, linkKnown := true, count := k, upkeep := p.upkeep ++ pre }
  else
    { p with tail := last, count := p.count + k, upkeep := p.upkeep ++ pre ++ [.setNext p.tail first],
             headLink := if p.count = 1 then first else p.headLink,
             linkKnown := p.linkKnown || (p.count = 1 && p.readingLink) }

/-- A single block is freed (R70). -/
def freeSingle (b : Nat) (s : State) : State :=
  serveWaiters (mapPmc (·.join b b 1 noBlock [.setNext b noBlock]) s)

/-- A single block that was a coder context's current block is freed: its header goes to DRAM as it stops being current,
next none and the fill the context held (R62, R70). -/
def freeCurrent (b fill : Nat) (s : State) : State :=
  serveWaiters (mapPmc (·.join b b 1 noBlock [.setHeader b noBlock fill]) s)

/-- The next field of a block's header in DRAM. -/
def headerNext (b : Nat) (s : State) : Nat := beNat (s.dram.readAll (blockAddr b) 2)

/-- A header read of the controller for list upkeep: PARITY for one that fails, its link used as read (R63). -/
def checkLink (b : Nat) (s : State) : State := if s.dram.parityAll (blockAddr b) 4 then s else raise evParity 0 0 3 s

/-- A chain of `k` blocks is freed whole (R70). `current` is the fill of the last block where that was a coder context's
current block, whose header then goes to DRAM as it is freed (R62). On an empty list the head link is read from the first
block's header (log entry 10); a chain of one block is its own tail, and its head link is FFFFh with no header read and none
checked for parity (DESIGN CHOICE: log entry 10). -/
def freeChain (first last k : Nat) (current : Option Nat) (s : State) : State :=
  if k = 0 then s
  else
    let pre := match current with
      | none => []
      | some fill => [.setHeader last noBlock fill]
    let s := if s.pmc.count = 0 ∧ k ≠ 1 then checkLink first s else s
    serveWaiters (mapPmc (·.join first last k (if k = 1 then noBlock else headerNext first s) pre) s)

/-! ## List upkeep (R65) -/

/-- Is the access a write to the header of a block? -/
def Upkeep.writes (b : Nat) : Upkeep → Bool
  | .setNext c _ => c = b
  | .setHeader c _ _ => c = b
  | .readLink _ => false

/-- The upkeep accesses that wait, in the order they are made: as they came, but that every write to a header comes before a
read of it (R65). -/
def upkeepOrder : List Upkeep → List Upkeep
  | .readLink b :: rest => rest.filter (·.writes b) ++ .readLink b :: rest.filter fun u => !u.writes b
  | us => us

/-- A list upkeep access done: a next or a header written, or the head link read, with PARITY for a header that fails (R63). -/
def doUpkeep (op : Upkeep) (s : State) : State :=
  match op with
  | .setNext b n => writeNext b n s
  | .setHeader b n fill => writeHeader b n fill s
  | .readLink b =>
    let s := checkLink b s
    if s.pmc.head = b then
      pumpAsk .intake (pumpAsk .scan (if s.pmc.linkKnown then s
        else mapPmc (fun p => { p with headLink := headerNext b s, linkKnown := true }) s))
    else s

/-! ## List build (R67) -/

/-- One header of a list build written; the last ends it, and the waiting contexts are served. -/
def doBuild (s : State) : State :=
  match s.pmc.build with
  | none => s
  | some b =>
    let top := nBlocks s - Config.reserveBlocks - 1
    if b < top then mapPmc (fun p => { p with build := some (b + 1) }) (writeHeader b (b + 1) 0 s)
    else
      pumpAsk .intake (pumpAsk .scan
        (mapPmc (fun p => { p with build := none, head := 0, headLink := 1, tail := top, linkKnown := true,
                                   count := top + 1 })
          (writeHeader top noBlock 0 s)))

/-! ## A context's end (R55, R76) -/

/-- The burst of a requester whose work has ended goes on, to no one (R76). -/
def killGrant (f : Burst → Bool) : State → State :=
  mapPmc fun p => { p with grant := p.grant.map fun g => if f g.burst then { g with live := false } else g }

def Burst.ofCoder (ctx : CoderCtx) : Burst → Bool
  | .code c _ _ => c = ctx
  | .refresh | .lastRefresh | .upkeep _ | .decode _ | .build | .spill | .diag => false

def Burst.ofDecoder (ctx : DecoderCtx) : Burst → Bool
  | .decode c => c = ctx
  | .refresh | .lastRefresh | .upkeep _ | .code _ _ _ | .build | .spill | .diag => false

/-- A context returns to IDLE with no page, no current block and no previous coded line (R55), its request and memory
wait withdrawn (R69); a directory wait is its own. -/
def idleCoder (ctx : CoderCtx) (s : State) : State :=
  killGrant (Burst.ofCoder ctx) (mapCoder ctx (fun c => { Coder.reset with dirWait := c.dirWait }) s)

/-- A decoder context returns to IDLE with no page (R60). -/
def idleDecoder (ctx : DecoderCtx) (s : State) : State := killGrant (Burst.ofDecoder ctx) (setPass ctx none s)

end Sys2Proof.Machine
end

