-- ==== Sys2Proof/Machine/Directory.lean ====
section
/-! DEFINITION. The Page Directory (R77 to R96): creation, completion, discard, readers, erasure. -/

namespace Sys2Proof.Machine

/-! ## Creation (R78 to R80) -/

/-- Is there room for an entry or a place (R78)? -/
def hasRoom (s : State) : Bool := s.dir.entries.length + s.dir.places < Config.directoryRoom

/-- The id after `n`: 1 follows 255 (R79). -/
def idAfter (n : Nat) : Nat := if 255 ≤ n then 1 else n + 1

/-- The first id from `n` on that no entry holds (R79). -/
def pickId (used : List Nat) : Nat → Nat → Nat
  | 0, n => n
  | fuel + 1, n => if used.contains n then pickId used fuel (idAfter n) else n

/-- The id the next entry takes. -/
def newId (s : State) : Nat := pickId (s.dir.entries.map Entry.id) 255 s.dir.nextId

/-- A new entry (R80). -/
def Entry.new (id : Nat) (origin : Origin) (res : Resolution) (w : CoderCtx) : Entry :=
  { id := id, origin := origin, state := .filling, res := res, lineCount := 0, headLine := 0, headOff := 0,
    blockCount := 0, first := noBlock, last := noBlock, writer := some w, truncated := false, erasePend := false,
    printRd := none, outRd := none, damaged := 0 }

/-- An entry is created at the end of the list (R78, R79). -/
def createEntry (origin : Origin) (res : Resolution) (w : CoderCtx) (s : State) : State :=
  mapDir (fun d => { d with entries := d.entries ++ [Entry.new (newId s) origin res w], nextId := idAfter (newId s) }) s

def removeEntry (id : Nat) : State → State :=
  mapDir fun d => { d with entries := d.entries.filter fun e => e.id ≠ id }

/-- Is an entry a FILLING page of a writer that it has not yet taken up? -/
def waitsFor (ctx : CoderCtx) (s : State) (e : Entry) : Bool :=
  e.state = .filling && e.writer = some ctx && (coderOf ctx s).page ≠ some e.id

/-- The oldest FILLING page of a writer that it has not yet taken up. -/
def waitingPage (ctx : CoderCtx) (s : State) : Option Entry := s.dir.entries.find? (waitsFor ctx s)

/-- The ids of the FILLING pages of a writer that it has not yet taken up, oldest first. -/
def waitingIds (ctx : CoderCtx) (s : State) : List Nat := (s.dir.entries.filter (waitsFor ctx s)).map Entry.id

/-! ## Removal -/

/-- The fill of an entry's last block as a coder context holds it, where that is its current block (R62). -/
def currentFill (e : Entry) (s : State) : Option Nat :=
  if s.scanCd.block = some e.last then some s.scanCd.fill
  else if s.intakeCd.block = some e.last then some s.intakeCd.fill
  else none

/-- Every block in an entry's chain is freed as one chain and the entry is removed. -/
def dropEntry (e : Entry) (current : Option Nat) (s : State) : State :=
  removeEntry e.id (freeChain e.first e.last e.blockCount current s)

/-- The test of R84: a COMPLETE page with no stored line and no reader is removed. -/
def settleEmpty (id : Nat) (s : State) : State :=
  match entryOf id s with
  | none => s
  | some e => if e.state = .complete ∧ e.headLine = e.lineCount ∧ !e.hasReader then dropEntry e none s else s

/-! ## Completion (R55, R83) -/

/-- The last block and its fill at a completion, and the return of a block that held only the abandoned line (R55): the
context `c` as it stood when it was stopped. A reader of a page that so loses its only block keeps the block position it had
(DESIGN CHOICE: R88 gives none for a pass that has ended; log entry 53). -/
def settleChain (id : Nat) (c : Coder) (s : State) : State :=
  match c.block, c.lastEnd with
  | none, _ => s
  | some cur, none =>
    freeCurrent cur 0
      (mapEntry id (fun e => { e with blockCount := e.blockCount - 1, first := noBlock, last := noBlock }) s)
  | some cur, some (b, f) =>
    let s := writeHeader b noBlock f s
    if cur = b then s
    else freeCurrent cur 0 (mapEntry id (fun e => { e with blockCount := e.blockCount - 1, last := b }) s)

/-- The page becomes COMPLETE with the writer's part removed (R83). -/
def markComplete (id : Nat) (truncated : Bool) : State → State :=
  mapEntry id fun e => { e with state := .complete, writer := none, truncated := truncated }

/-- What a completion tells the job: SCAN_PAGE (R129), the last completed page (R122, R158). A completion by the PFAIL
sequence raises nothing. -/
def noteCompleted (ctx : CoderCtx) (id : Nat) (truncated quiet : Bool) (s : State) : State :=
  match ctx with
  | .scan =>
    let s := mapScanJob (fun j => { j with lastCompleted := id }) s
    if quiet then s else raise evScanPage id 1 truncated.toNat s
  | .intake => mapIntJob (fun j => { j with lastCompleted := id }) s

/-- The page a context writes is completed (R83). -/
def completePage (ctx : CoderCtx) (truncated quiet : Bool) (s : State) : State :=
  let c := coderOf ctx s
  match c.page with
  | none => s
  | some id =>
    settleEmpty id (noteCompleted ctx id truncated quiet (markComplete id truncated (settleChain id c (idleCoder ctx s))))

/-! ## Readers (R87 to R90) -/

/-- Every line of the Print Ring dropped (R50). -/
def emptyPrintRing : State → State := mapRings fun r => { r with print := r.print.emptied }

/-- Is an outbound LINE record partly read (R9)? -/
def lineBegun (s : State) : Bool :=
  match s.port.course with
  | none => false
  | some c => c.source = .line

/-- The Output Ring emptied but for a line whose record is partly read (R50). -/
def emptyOutputRing (s : State) : State :=
  mapRings (fun r => { r with output := if lineBegun s then r.output.emptiedButHead else r.output.emptied }) s

def clearReader (ctx : DecoderCtx) (id : Nat) : State → State :=
  mapEntry id fun e =>
    match ctx with
    | .print => { e with printRd := none }
    | .output => { e with outRd := none }

def Entry.reader (e : Entry) : DecoderCtx → Option Reader
  | .print => e.printRd
  | .output => e.outRd

/-- Does the entry have no reader of the other kind? -/
def Entry.readAlone (e : Entry) : DecoderCtx → Bool
  | .print => e.outRd.isNone
  | .output => e.printRd.isNone

/-- A reader is removed and its page settled (R90). -/
def removeReader (ctx : DecoderCtx) (id : Nat) (s : State) : State :=
  match entryOf id s with
  | none => s
  | some e =>
    match e.reader ctx with
    | none => s
    | some r =>
      let s := clearReader ctx id s
      if e.state = .erasing ∧ e.readAlone ctx then dropEntry e none s
      else if r.consume ∧ e.state = .complete ∧ r.linePos = e.lineCount then dropEntry e none s
      else settleEmpty id s

/-- The first position of a pass over a page (R56). -/
def passStart (e : Entry) : Pass :=
  { page := e.id, linePos := e.headLine, block := if e.first = noBlock then none else some e.first, off := e.headOff,
    prev := none, outOfStep := false, header := none, reading := none }

def readerStart (e : Entry) (consume : Bool) : Reader := { consume := consume, linePos := e.headLine, block := e.first }

/-- A reader is admitted to a page and its decoder context starts its pass (R56, R87). -/
def admitReader (ctx : DecoderCtx) (e : Entry) (consume : Bool) (s : State) : State :=
  setPass ctx (some (passStart e))
    (mapEntry e.id (fun e =>
      match ctx with
      | .print => { e with printRd := some (readerStart e consume) }
      | .output => { e with outRd := some (readerStart e consume) }) s)

/-- A reader's positions follow its decoder context's (R88). -/
def moveReader (ctx : DecoderCtx) (id linePos block : Nat) : State → State :=
  mapEntry id fun e =>
    match ctx with
    | .print => { e with printRd := e.printRd.map fun r => { r with linePos := linePos, block := block } }
    | .output => { e with outRd := e.outRd.map fun r => { r with linePos := linePos, block := block } }

/-- A consuming reader leaves the page's first block for `succ` (R89); a non-consuming one leaves it without effect. A page
whose block count is 1 has no block to leave, whatever a damaged link says (R64; log entry 48). -/
def leaveBlock (ctx : DecoderCtx) (id succ linePos off : Nat) (s : State) : State :=
  match entryOf id s with
  | none => s
  | some e =>
    match e.reader ctx with
    | none => s
    | some r =>
      if r.consume ∧ 1 < e.blockCount then
        mapEntry id (fun e => { e with headLine := linePos, headOff := off })
          (freeSingle e.first (mapEntry id (fun e => { e with first := succ, blockCount := e.blockCount - 1 }) s))
      else s

/-! ## Discard (R86) -/

/-- The PRINT job whose page is discarded under its reader enters ENDING with the page-gone result (R155). -/
def printPageGone (s : State) : State :=
  mapPrtJob (fun j =>
    if j.cycle = .ending then j
    else { j with cycle := .ending, reason := 2, exitDone := j.exitDone || j.cycle = .suspended }) (emptyPrintRing (idleDecoder .print s))

/-- A FILLING page is discarded (R86); under RESTART its reader leaves without the page-gone ending. -/
def discardPage (id : Nat) (restart : Bool) (s : State) : State :=
  match entryOf id s with
  | none => s
  | some e =>
    let s := if e.printRd.isSome && !restart then printPageGone s else s
    let s := clearReader .print id s
    let cur := currentFill e s
    let s := if s.scanCd.page = some id then idleCoder .scan s else s
    let s := if s.intakeCd.page = some id then idleCoder .intake s else s
    dropEntry e cur s

/-- The page a context writes is discarded. -/
def discardWritten (ctx : CoderCtx) (s : State) : State :=
  match (coderOf ctx s).page with
  | none => s
  | some id => discardPage id false s

/-- The memory policy applied to the page a context writes (R85). -/
def applyPolicy (ctx : CoderCtx) (p : Policy) (s : State) : State :=
  match p with
  | .truncate => completePage ctx true false s
  | .discard => discardWritten ctx s

/-- Every page created and not yet taken up by its writer is discarded, oldest first (R122; log entry 43). -/
def discardWaiting (ctx : CoderCtx) (s : State) : State :=
  (waitingIds ctx s).foldl (fun s id => discardPage id false s) s

/-! ## Waits for room (R81) -/

/-- A context enters the directory wait (R81). -/
def enterDirwait (ctx : CoderCtx) (s : State) : State :=
  raise evMemWait 0 0 (dirReason ctx) (mapCoder ctx (fun c => { c with dirWait := some (setMemWait s) }) s)

def endDirwait (ctx : CoderCtx) : State → State := mapCoder ctx fun c => { c with dirWait := none }

end Sys2Proof.Machine
end

