-- ==== Sys2Proof/Machine/Diag.lean ====
section
/-! DEFINITION. Diagnostic access (R188 to R190). -/

namespace Sys2Proof.Machine

/-! ## Items (R188) -/

/-- The table a memory-6 item names, and whether its pending copy is meant. -/
def tableItem? (item : Nat) : Option (Bool × Fin 14) :=
  if h : item % 256 < 14 then
    if item / 256 = 0 then some (false, ⟨item % 256, h⟩)
    else if item / 256 = 1 then some (true, ⟨item % 256, h⟩)
    else none
  else none

/-- The copy a memory-6 item names. -/
def tableItemCopy (item : Nat) (s : State) : Option (List Byte) :=
  match tableItem? item with
  | none => none
  | some t => copyOf t.1 t.2 s

/-- The size of an item; none where the memory or the item is not among those listed. An absent table copy has no bytes. -/
def itemSize? (memory item : Nat) (s : State) : Option Nat :=
  match memory with
  | 0 => if item < nBlocks s then some Config.blockBytes else none
  | 1 => if item < Config.scanRingSlots then some 219 else none
  | 2 => if item < Config.intakeRingSlots then some 219 else none
  | 3 => if item < Config.printRingSlots then some 219 else none
  | 4 => if item < Config.outputRingSlots then some 219 else none
  | 5 => if item = 0 then some 3456 else none
  | 6 => (tableItem? item).map fun t => ((copyOf t.1 t.2 s).getD []).length
  | _ => none

/-- Is the owner of an item idle? -/
def ownerIdle (memory item : Nat) (s : State) : Bool :=
  match memory with
  | 1 | 5 => s.scanJob.isNone && s.front.cal.isNone
  | 2 => s.intJob.isNone
  | 3 => s.prtJob.isNone
  | 4 => s.outJob.isNone
  | 6 =>
    match tableItem? item with
    | none => true
    | some t => !tableInUse t.2 s && !(t.2 = tShading && s.front.cal.isSome)
  | _ => true

/-- What a DIAG record asks: to read a count, or to write data, seeded or not. -/
inductive DiagAsk where
  | read (count : Nat)
  | write (seeded : Bool) (data : List Byte)
deriving DecidableEq, Repr

/-- The count of an access as the record gives it. -/
def DiagAsk.count : DiagAsk → Nat
  | .read n => n
  | .write _ d => d.length

/-- Check 3 of R188: does the access break a bound of its item? -/
def diagOutOfBounds (memory item offset size : Nat) (a : DiagAsk) (s : State) : Bool :=
  size ≤ offset
    || (match a with
        | .read _ => false
        | .write seeded d =>
          size < offset + d.length || (seeded && memory ≠ 0)
            || (memory = 0 && item + Config.reserveBlocks < nBlocks s && offset < 4)
            || (memory = 6 && item % 256 = 0))
    || (memory = 5 && (offset % 2 = 1 || a.count % 2 = 1))

/-- The refusal of a DIAG record, in check order (R188). -/
def diagRefusal (memory item offset : Nat) (a : DiagAsk) (s : State) : Option Status :=
  match itemSize? memory item s with
  | none => some .badarg
  | some size =>
    if memory = 6 ∧ tableItemCopy item s = none then some .notable
    else if diagOutOfBounds memory item offset size a s then some .badarg
    else if !ownerIdle memory item s then some .state
    else none

/-- The count a read is taken for: 0 becomes 1, and no more than 2036 or than the item holds from the offset. -/
def readCount (size offset count : Nat) : Nat := min (if count = 0 then 1 else count) (min 2036 (size - offset))

/-! ## Internal memories (R189) -/

/-- The storage of a slot as bytes (R188). -/
def slotBytes (x : Slot) : List Byte :=
  lineToBytes x.dots ++ be16 x.lineNo ++ [BitVec.ofNat 8 (x.last.toNat + 2 * x.rep.toNat)]

/-- A slot from its bytes. Bits 2 to 7 of the marks byte are dropped, and read back 0 (DESIGN CHOICE: R188 names bits 0 and 1
only; log entry 46). -/
def slotOfBytes (bs : List Byte) : Slot :=
  { dots := lineOfBytes (bs.take 216), lineNo := wordAt bs 216, last := (bs.getD 218 0).getLsbD 0,
    rep := (bs.getD 218 0).getLsbD 1 }

/-- The error row as bytes: signed 16-bit entries (R188). -/
def errorBytes (row : List Int) : List Byte := row.flatMap fun e => be16 (e % 65536).toNat

/-- Entry `k` of an error row's bytes. -/
def errorAt (bs : List Byte) (k : Nat) : Int := (BitVec.ofNat 16 (wordAt bs (2 * k))).toInt

def errorOfBytes (bs : List Byte) : List Int := (List.range 1728).map fun k => clampInt (-255) 255 (errorAt bs k)

/-- Does an error row's image hold an entry outside −255..255? -/
def errorClamps (bs : List Byte) : Bool :=
  (List.range 1728).any fun k => errorAt bs k < -255 || 255 < errorAt bs k

/-- The ring of memory 1 to 4. -/
def ringOf (memory : Nat) (s : State) : Ring :=
  match memory with
  | 1 => s.rings.scan
  | 2 => s.rings.intake
  | 3 => s.rings.print
  | _ => s.rings.output

def setRing (memory : Nat) (r : Ring) : State → State :=
  mapRings fun g =>
    match memory with
    | 1 => { g with scan := r }
    | 2 => { g with intake := r }
    | 3 => { g with print := r }
    | _ => { g with output := r }

/-- The bytes of an item of an internal memory. -/
def itemBytes (memory item : Nat) (s : State) : List Byte :=
  match memory with
  | 5 => errorBytes s.front.errorRow
  | 6 => (tableItemCopy item s).getD []
  | _ => slotBytes ((ringOf memory s).slot item)

/-- A table copy changed in place (R189, R14): the pending copy stands; the active SHADING rebuilds the defective-pixel
map (R26). -/
def putCopy (pending : Bool) (id : Fin 14) (img : List Byte) (s : State) : State :=
  if pending then setPending id (some img) s
  else
    let s := { s with tables := { s.tables with active := s.tables.active.set id (some img) } }
    if id = tShading then { s with front := { s.front with defective := defectiveOf img } } else s

/-- The write of a table copy (R189): refused where its length or an enumeration would no longer fit, else clamped. -/
def writeCopy (pending : Bool) (id : Fin 14) (img : List Byte) (s : State) : State × Status :=
  if !tableLengthOk id img then (s, .length)
  else if !tableEnumsOk id img then (s, .badarg)
  else
    let c := clampTable id img
    (putCopy pending id c.image s, if c.count = 0 then .ok else .clamped)

/-- The write of an item of an internal memory, its changed image given (R189). -/
def writeItem (memory item : Nat) (img : List Byte) (s : State) : State × Status :=
  match memory with
  | 5 => (mapFront (fun f => { f with errorRow := errorOfBytes img }) s, if errorClamps img then .clamped else .ok)
  | 6 =>
    match tableItem? item with
    | none => (s, .badarg)
    | some t => writeCopy t.1 t.2 img s
  | _ =>
    let r := ringOf memory s
    (setRing memory { r with slots := r.slots.set item (slotOfBytes img) } s, .ok)

/-! ## The record -/

/-- The address as answered: memory, item, offset. -/
def diagAddress (memory item offset : Nat) : List Byte := be8 memory ++ be16 item ++ be16 offset

/-- An access to a DRAM block joins those outstanding; its reply entry waits (R190). -/
def queueDiag (a : DiagAccess) (s : State) : State := { s with diagQ := s.diagQ ++ [a] }

/-- A DIAG record that passes its checks: an internal access is made and answered, a DRAM access waits (R189, R190). -/
def takeDiag (memory item offset size : Nat) (a : DiagAsk) (s : State) : State × ReplyBody :=
  match memory, a with
  | 0, .read n =>
    let c := readCount size offset n
    (queueDiag { write := none, block := item, offset := offset, count := c, clamped := decide (c ≠ n), data := [],
                 done := 0, firstBad := none } s, .diag)
  | 0, .write seeded d =>
    (queueDiag { write := some seeded, block := item, offset := offset, count := d.length, clamped := false, data := d,
                 done := 0, firstBad := none } s, .diag)
  | _, .read n =>
    let c := readCount size offset n
    (s, .filled (if c = n then .ok else .clamped)
      (diagAddress memory item offset ++ be16 c ++ sliceOf (itemBytes memory item s) offset c ++ [0] ++ be16 0xFFFF))
  | _, .write _ d =>
    let x := writeItem memory item (patchAt (itemBytes memory item s) offset d) s
    if x.2 = .ok ∨ x.2 = .clamped then (x.1, .filled x.2 (diagAddress memory item offset ++ be16 d.length))
    else (x.1, .filled x.2 [])

/-- A DIAG record (R188). -/
def orderDiag (memory item offset : Nat) (a : DiagAsk) (s : State) : State × ReplyBody :=
  match diagRefusal memory item offset a s with
  | some st => (s, .filled st [])
  | none => takeDiag memory item offset ((itemSize? memory item s).getD 0) a s

/-! ## Bursts (R190) -/

/-- The first of `n` bytes from an offset of a block that fails parity, as an offset within the block. -/
def firstFailure (m : Memory) (block offset n : Nat) : Option Nat :=
  ((List.range n).find? fun i => !m.parityOk (blockAddr block + offset + i)).map (offset + ·)

/-- The bytes of the next burst. -/
def DiagAccess.burst (a : DiagAccess) : Nat := min Config.burstUnits (a.count - a.done)

/-- One burst of an access: the DRAM and the access after it. -/
def DiagAccess.move (a : DiagAccess) (m : Memory) : Memory × DiagAccess :=
  let at' := a.offset + a.done
  match a.write with
  | none =>
    (m, { a with data := a.data ++ m.readAll (blockAddr a.block + at') a.burst, done := a.done + a.burst,
                 firstBad := if a.firstBad.isSome then a.firstBad else firstFailure m a.block at' a.burst })
  | some seeded =>
    (m.writeAll (blockAddr a.block + at') seeded (a.data.take a.burst),
      { a with data := a.data.drop a.burst, done := a.done + a.burst })

/-- The answer of a finished access. -/
def DiagAccess.answer (a : DiagAccess) : List Byte :=
  diagAddress 0 a.block a.offset ++ be16 a.count ++
    match a.write with
    | none => a.data ++ be8 (if a.firstBad.isSome then 1 else 0) ++ be16 (a.firstBad.getD 0xFFFF)
    | some _ => []

/-- A burst of the oldest outstanding access; the last fills its reply. -/
def diagBurst (s : State) : State :=
  match s.diagQ with
  | [] => s
  | a :: rest =>
    let x := a.move s.dram
    if x.2.done < a.count then { s with dram := x.1, diagQ := x.2 :: rest }
    else
      fillReply .diag (if a.clamped then .clamped else .ok) x.2.answer { s with dram := x.1, diagQ := rest }

/-- Outstanding accesses abandoned: each waiting reply filled STATE with an empty answer (R190). -/
def abandonDiag (s : State) : State := fillReplies .diag .state [] { s with diagQ := [] }

end Sys2Proof.Machine
end

