-- ==== Sys2Proof/Machine/Coding.lean ====
section
/-! DEFINITION. The coder and decoder contexts at work (R46 to R49, R54 to R60). -/

namespace Sys2Proof.Machine

/-! ## Rings emptied -/

/-- The Scan Ring emptied, its reserved line abandoned (R21, R47). -/
def emptyScanRing (s : State) : State :=
  { s with rings := { s.rings with scan := s.rings.scan.emptied, scanReserved := 0 },
           front := { s.front with comp := none } }

/-- The Intake Ring emptied, its full mark cleared without INTAKE_SPACE (R49). -/
def emptyIntakeRing : State → State := mapRings fun r => { r with intake := r.intake.emptied, intakeFull := false }

/-- The intake line number 0 and the previous intake line absent (R48). -/
def clearIntakeLine : State → State := mapPort fun p => { p with intakeLineNo := 0, prevIntake := none }

/-! ## Coder contexts (R54) -/

/-- The head line of a context's ring is taken: its form chosen, CODING entered, a block asked for where the write
position has no room (R54, R66). -/
def beginCoding (ctx : CoderCtx) (s : State) : State :=
  let c := coderOf ctx s
  let x := (coderRing ctx s).slot (coderRing ctx s).head
  let s := setCoder ctx { c with st := .coding, todo := codeLine c.prev x.dots } s
  if c.block = none ∨ c.wpos = Config.blockUnits then askBlock ctx s else s

/-- The page for line 0 of a scan page: the entry its leading edge made (R124). -/
def takeUpScan (s : State) : State :=
  match waitingPage .scan s with
  | none => s
  | some e => beginCoding .scan (mapCoder .scan (fun c => { c with page := some e.id }) s)

/-- The page for line 0 of a later intake page: a new entry, or the directory wait (R80). -/
def takeUpIntake (s : State) : State :=
  match s.intJob with
  | none => s
  | some j =>
    if hasRoom s then
      beginCoding .intake
        (mapCoder .intake (fun c => { c with page := some (newId s) }) (createEntry .intake j.res .intake s))
    else enterDirwait .intake s

/-- A context may take a line: IDLE, its ring's head slot occupied, and no directory wait of an intake context. -/
def coderCanStart (ctx : CoderCtx) (s : State) : Bool :=
  (coderOf ctx s).st = .idle && 0 < (coderRing ctx s).occ && (ctx = .scan || (coderOf ctx s).dirWait.isNone)

/-- An IDLE context takes the occupied head slot of its ring (R54). -/
def coderStart (ctx : CoderCtx) (s : State) : State :=
  if coderCanStart ctx s then
    match (coderOf ctx s).page, ctx with
    | some _, _ => beginCoding ctx s
    | none, .scan => takeUpScan s
    | none, .intake => takeUpIntake s
  else s

/-- Does a context have a burst to write (R54, R72)? -/
def coderWants (ctx : CoderCtx) (s : State) : Bool :=
  let c := coderOf ctx s
  c.st = .coding && !c.asking && !c.todo.isEmpty && c.block.isSome && c.wpos < Config.blockUnits

/-- The next burst of a context: up to 16 units in its current block. -/
def coderBurst (ctx : CoderCtx) (s : State) : Burst :=
  let c := coderOf ctx s
  .code ctx (unitAddr (c.block.getD noBlock) c.wpos) (c.todo.take (min Config.burstUnits (Config.blockUnits - c.wpos)))

/-- The head slot of a context's ring is freed; the Intake Ring's fall to four raises INTAKE_SPACE (R45, R49). -/
def freeCodedSlot (ctx : CoderCtx) (s : State) : State :=
  match ctx with
  | .scan => mapRings (fun r => { r with scan := r.scan.free }) s
  | .intake =>
    let s := mapRings (fun r => { r with intake := r.intake.free }) s
    if s.rings.intakeFull ∧ s.rings.intake.occ ≤ 4 then
      raise evIntakeSpace (s.intakeCd.page.getD 0) 0 0 (mapRings (fun r => { r with intakeFull := false }) s)
    else s

/-- The last unit of a line has been written (R54): line count, fill, previous coded line, slot, IDLE. -/
def lineCoded (ctx : CoderCtx) (s : State) : State :=
  let c := coderOf ctx s
  let x := (coderRing ctx s).slot (coderRing ctx s).head
  let s := mapEntry (c.page.getD 0) (fun e => { e with lineCount := e.lineCount + 1 }) s
  let s := setCoder ctx
    { c with st := .idle, fill := c.wpos, lastEnd := c.block.map fun b => (b, c.wpos), prev := some x.dots, todo := [] } s
  freeCodedSlot ctx s

/-- Does the head line of a context's ring carry the last-of-page mark? -/
def headIsLast (ctx : CoderCtx) (s : State) : Bool := ((coderRing ctx s).slot (coderRing ctx s).head).last

/-- Has the page a context writes reached the longest line count (R82)? -/
def pageOverlong (ctx : CoderCtx) (s : State) : Bool :=
  match (coderOf ctx s).page with
  | none => false
  | some id =>
    match entryOf id s with
    | none => false
    | some e => Config.maxLineCount ≤ e.lineCount

/-! ## Decoder contexts (R57) -/

/-- A decoder context's state (R56). -/
inductive DecoderState where
  | idle | waitRoom | waitWriter | decoding
deriving DecidableEq, Repr

/-- Is there a coded line for a pass to decode (R57 step 2)? -/
def lineAvailable (p : Pass) (s : State) : Bool :=
  match entryOf p.page s with
  | none => false
  | some e => p.linePos < e.lineCount

/-- The state of a decoder context (R57): IDLE without a pass; DECODING a line; else WAIT_ROOM while its ring is full,
WAIT_WRITER while the page has no further line. -/
def decoderState (ctx : DecoderCtx) (s : State) : DecoderState :=
  match passOf ctx s with
  | none => .idle
  | some p =>
    if p.reading.isSome then .decoding
    else if (decoderRing ctx s).full then .waitRoom
    else if lineAvailable p s then .decoding
    else .waitWriter

/-- The PARITY reason of a decoder context (R59). -/
def parityReason : DecoderCtx → Nat
  | .print => 1
  | .output => 2

def enterRing (ctx : DecoderCtx) (x : Slot) : State → State :=
  mapRings fun r =>
    match ctx with
    | .print => { r with print := r.print.enter x }
    | .output => { r with output := r.output.enter x }

/-- Is line `n` the last of a page that is no longer FILLING (R57 step 4)? -/
def isLastLine (id n : Nat) (s : State) : Bool :=
  match entryOf id s with
  | none => false
  | some e => e.state ≠ .filling && n + 1 = e.lineCount

/-- A line placed in the ring's tail slot and the pass moved on (R57 steps 4 and 5). -/
def placeLine (ctx : DecoderCtx) (p : Pass) (dots : Line) (rep outOfStep : Bool) (s : State) : State :=
  let s := enterRing ctx { dots := dots, lineNo := p.linePos, last := isLastLine p.page p.linePos s,
                           rep := rep && ctx = .output } s
  let s := setPass ctx (some { p with linePos := p.linePos + 1, prev := some dots, outOfStep := outOfStep,
                                      reading := none }) s
  moveReader ctx p.page (p.linePos + 1) (p.block.getD noBlock) s

/-- One more damaged line on the page's count, which stops at 65535 (R59). -/
def countDamage (id : Nat) : State → State := mapEntry id fun e => { e with damaged := min 65535 (e.damaged + 1) }

/-- What replaces a damaged line (R58). -/
def substitute (p : Pass) : Line := p.prev.getD whiteLine

/-- The blocks left within a line are reported once it has been placed (R89). -/
def leaveAll (ctx : DecoderCtx) (id linePos off : Nat) (succs : List Nat) (s : State) : State :=
  succs.foldl (fun s b => leaveBlock ctx id b linePos off s) s

/-- The line being read has ended, its length found or lost: it or its substitute is placed (R57, R58, R59). -/
def finishLine (ctx : DecoderCtx) (p : Pass) (r : LineRead) (s : State) : State :=
  let inStep := !r.markParity && r.parse ≠ .lost
  match (if inStep && !r.parity then r.parse.line? p.prev else none) with
  | some l =>
    leaveAll ctx p.page (p.linePos + 1) p.off r.crossed (placeLine ctx p l (r.parse = .done none) false s)
  | none =>
    let s := countDamage p.page s
    let s := if r.parity then raise evParity p.page 0 (parityReason ctx) s else s
    let s := placeLine ctx p (substitute p) false (!inStep) s
    if inStep then leaveAll ctx p.page (p.linePos + 1) p.off r.crossed s else s

/-- A context out of step replaces its next line without reading (R58). -/
def replaceLine (ctx : DecoderCtx) (p : Pass) (s : State) : State :=
  placeLine ctx p (substitute p) false true (countDamage p.page s)

/-- A decoder context with ring room and a coded line available begins reading it (R57). -/
def decoderStart (ctx : DecoderCtx) (s : State) : State :=
  match passOf ctx s with
  | none => s
  | some p =>
    if p.reading.isNone && !(decoderRing ctx s).full && lineAvailable p s then
      if p.outOfStep then replaceLine ctx p s
      else setPass ctx (some { p with reading := some { parse := .mark, parity := false, markParity := false,
                                                        crossed := [] } }) s
    else s

/-- The header of a block as the Page Memory Controller answers it: next, fill, and its parity result; a coder context's
current block is answered from the context (R62). -/
def headerOf (b : Nat) (s : State) : Nat × Nat × Bool :=
  if s.scanCd.block = some b then (noBlock, s.scanCd.fill, true)
  else if s.intakeCd.block = some b then (noBlock, s.intakeCd.fill, true)
  else
    (wordAt (s.dram.readAll (blockAddr b) 4) 0, wordAt (s.dram.readAll (blockAddr b) 4) 2,
      s.dram.parityAll (blockAddr b) 4)

/-- One unit of the line being read, with its parity result (R58): a mark that fails parity is lost. -/
def LineRead.unit (r : LineRead) (u : Byte) (ok : Bool) : LineRead :=
  if r.parse = .mark ∧ !ok then { r with parse := .lost, parity := true, markParity := true }
  else { r with parse := r.parse.feed u, parity := r.parity || !ok }

/-- Units read from an address on until the line ends or `n` are read: the line so far and how many were taken. -/
def readUnits (m : Memory) : Nat → Nat → LineRead → LineRead × Nat
  | 0, _, r => (r, 0)
  | n + 1, a, r =>
    if r.parse.ended then (r, 0)
    else
      let x := readUnits m n (a + 1) (r.unit (m.read a) (m.parityOk a))
      (x.1, x.2 + 1)

/-- The decoder's read of the header where it needs one (R62): the block just entered, or a unit at or beyond the fill
last read. -/
def freshHeader (p : Pass) (b : Nat) (r : LineRead) (s : State) : (Nat × Nat) × LineRead :=
  match p.header with
  | some (next, fill) =>
    if p.off < min fill Config.blockUnits then ((next, fill), r)
    else
      let h := headerOf b s
      ((h.1, h.2.1), { r with parity := r.parity || !h.2.2 })
  | none =>
    let h := headerOf b s
    ((h.1, h.2.1), { r with parity := r.parity || !h.2.2 })

/-- The decoder goes on to the successor of a block (R57, R89). Within a line the read position is there at once, and the
leaving is reported once the line is placed; before a line's first unit both wait until that unit is read. -/
def enterSuccessor (ctx : DecoderCtx) (p : Pass) (r : LineRead) (next : Nat) (s : State) : State :=
  let s := setPass ctx (some { p with block := some next, off := 0, header := none,
                                      reading := some { r with crossed := r.crossed ++ [next] } }) s
  if r.parse = .mark then s else moveReader ctx p.page p.linePos next s

/-- The first unit of a line read from a successor: the blocks whose ends the read position stood at are left (R89). -/
def firstUnitRead (ctx : DecoderCtx) (p : Pass) (r : LineRead) (s : State) : State :=
  if r.parse = .mark ∧ r.crossed ≠ [] then
    moveReader ctx p.page p.linePos (p.block.getD noBlock) (leaveAll ctx p.page p.linePos 0 r.crossed s)
  else s

/-- A burst delivered to a decoder context (R57, R72): a header where needed and up to 16 units of one block. -/
def decodeBurst (ctx : DecoderCtx) (s : State) : State :=
  match passOf ctx s with
  | none => s
  | some p =>
    match p.reading, p.block with
    | none, _ => s
    | some r, none => finishLine ctx p { r with parse := .lost } s
    | some r, some b =>
      let h := freshHeader p b r s
      let limit := min h.1.2 Config.blockUnits
      let p := { p with header := some h.1 }
      if limit ≤ p.off then
        if h.1.1 = noBlock then finishLine ctx p { h.2 with parse := .lost } s
        else enterSuccessor ctx p h.2 h.1.1 s
      else
        let x := readUnits s.dram (min Config.burstUnits (limit - p.off)) (unitAddr b p.off)
          { h.2 with crossed := if h.2.parse = .mark then [] else h.2.crossed }
        let s := firstUnitRead ctx p h.2 s
        let p := { p with off := p.off + x.2, reading := some x.1 }
        if x.1.parse.ended then finishLine ctx p x.1 s else setPass ctx (some p) s

end Sys2Proof.Machine
end

