-- ==== Sys2Proof/Machine/IntakeOutput.lean ====
section
/-! DEFINITION. The INTAKE and OUTPUT jobs, and ERASE (R7, R48, R92, R157 to R166). -/

namespace Sys2Proof.Machine

/-! ## INTAKE -/

/-- The INTAKE order (R157). -/
def orderIntake (p : List Byte) (s : State) : State × ReplyBody :=
  match Resolution.ofCode? (byteAt p 0), Policy.ofCode? (byteAt p 1) with
  | some res, some policy =>
    if s.intJob.isSome then (s, .filled .busy [])
    else if !hasRoom s then (s, .filled .nodir [])
    else
      let id := newId s
      let s := createEntry .intake res .intake s
      let s := clearIntakeLine (mapCoder .intake (fun c => { c with page := some id }) s)
      ({ s with intJob := some { state := .opened, res := res, policy := policy, lastCompleted := 0 } },
        .filled .ok [p.getD 0 0, p.getD 1 0, BitVec.ofNat 8 id])
  | _, _ => (s, .filled .badarg [])

/-- Is an INTAKE job taking lines (R7, R159)? -/
def intakeOpen (s : State) : Bool :=
  match s.intJob with
  | none => false
  | some j => j.state = .opened

/-- The refusal of a LINE, if it is refused (R7). -/
def lineRefusal (payload : List Byte) (s : State) : Option Status :=
  if !intakeOpen s then some .state
  else if s.rings.intake.full then some .full
  else if payload = [] ∧ s.port.intakeLineNo = 0 then some .state
  else none

/-- The dots an accepted LINE stands for: as sent, or a repeat of the previous intake line (R48). -/
def lineDotsOf (payload : List Byte) (s : State) : Line :=
  if payload = [] then s.port.prevIntake.getD whiteLine else lineOfBytes payload

/-- A LINE accepted (R48, R49). -/
def acceptLine (last : Bool) (payload : List Byte) (s : State) : State :=
  let x : Slot := { dots := lineDotsOf payload s, lineNo := s.port.intakeLineNo, last := last, rep := false }
  let ring := s.rings.intake.enter x
  { s with
    rings := { s.rings with intake := ring, intakeFull := s.rings.intakeFull || ring.full },
    port := { s.port with intakeLineNo := if last then 0 else s.port.intakeLineNo + 1, prevIntake := some x.dots } }

/-- An INTAKE job ends (R162). -/
def endIntake (reason : Nat) (s : State) : State :=
  match s.intJob with
  | none => s
  | some j =>
    raise evIntakeEnd j.lastCompleted 0 reason
      { clearIntakeLine (endDirwait .intake (idleCoder .intake (emptyIntakeRing s))) with intJob := none }

/-- The INTAKE_END order (R159): the job becomes CLOSING. -/
def orderIntakeEnd (s : State) : State × ReplyBody :=
  if intakeOpen s then (mapIntJob (fun j => { j with state := .closing }) s, .filled .ok [])
  else (s, .filled .state [])

/-- The page being written as a CLOSING job closes (R159). -/
def closePage (s : State) : State :=
  match s.intakeCd.page with
  | none => s
  | some id =>
    match entryOf id s with
    | none => s
    | some e => if e.lineCount = 0 then discardPage id false s else completePage .intake false false s

/-- A CLOSING job closes at the first moment the ring is empty and the context is IDLE (R159). -/
def settleIntake (s : State) : State :=
  match s.intJob with
  | none => s
  | some j =>
    if j.state = .closing ∧ s.rings.intake.occ = 0 ∧ s.intakeCd.st = .idle then endIntake 0 (closePage s) else s

/-- The intake context's memory wait expires (R160). -/
def intakeMemExpiry (s : State) : State :=
  match s.intJob with
  | none => s
  | some j => endIntake 2 (applyPolicy .intake j.policy s)

/-- The intake context's directory wait expires (R160). -/
def intakeDirExpiry (s : State) : State := if s.intakeCd.dirWait.isSome then endIntake 3 (endDirwait .intake s) else s

/-- STOP of the INTAKE job (R161). -/
def orderStopIntake (keep : Bool) (answer : List Byte) (s : State) : State × ReplyBody :=
  if s.intJob.isNone then (s, .filled .state [])
  else
    let s := endDirwait .intake s
    (endIntake 1 (if keep then completePage .intake true false s else discardWritten .intake s), .filled .ok answer)

/-- The INTAKE job state of STATUS (R157). -/
def intakeStatus (s : State) : Nat :=
  if s.intJob.isNone then 0 else if s.intakeCd.st = .memwait ∨ s.intakeCd.dirWait.isSome then 2 else 1

/-! ## OUTPUT -/

/-- The owner's checks of OUTPUT against its page (R163 checks 3 to 5). -/
def outputPageRefusal (e : Entry) (consume : Bool) : Option Status :=
  if e.state ≠ .complete then some .state
  else if consume ∧ e.hasReader then some .badarg
  else if !consume ∧ (e.printRd.any (·.consume) ∨ e.outRd.any (·.consume)) then some .state
  else none

/-- The OUTPUT order (R163). -/
def orderOutput (p : List Byte) (s : State) : State × ReplyBody :=
  match flagOf? (byteAt p 1) with
  | none => (s, .filled .badarg [])
  | some consume =>
    if s.outJob.isSome then (s, .filled .busy [])
    else
      match entryOf (byteAt p 0) s with
      | none => (s, .filled .nopage [])
      | some e =>
        match outputPageRefusal e consume with
        | some st => (s, .filled st [])
        | none =>
          (admitReader .output e consume
            { s with outJob := some { state := .opened, page := e.id, consume := consume, reason := 0 } },
            .filled .ok ([p.getD 0 0, p.getD 1 0, BitVec.ofNat 8 e.res.code] ++ be16 e.stored))

/-- The job ends at the first moment the pass has ended and the Output Ring is empty (R164, R166). -/
def settleOutput (s : State) : State :=
  match s.outJob with
  | none => s
  | some j =>
    if s.outDec.isNone ∧ s.rings.output.occ = 0 then
      raise evOutputEnd j.page 0 j.reason (removeReader .output j.page { s with outJob := none })
    else s

/-- STOP of the OUTPUT job (R166). -/
def orderStopOutput (answer : List Byte) (s : State) : State × ReplyBody :=
  match s.outJob with
  | none => (s, .filled .state [])
  | some j =>
    if j.state = .closing then (s, .filled .state [])
    else
      (emptyOutputRing (idleDecoder .output { s with outJob := some { j with state := .closing, reason := 1 } }),
        .filled .ok answer)

/-- The OUTPUT job state of STATUS (R163). -/
def outputStatus (s : State) : Nat :=
  if s.outJob.isNone then 0 else if decoderState .output s = .waitRoom then 3 else 1

/-! ## ERASE (R92) -/

/-- The ERASE order. -/
def orderErase (p : List Byte) (s : State) : State × ReplyBody :=
  match entryOf (byteAt p 0) s with
  | none => (s, .filled .nopage [])
  | some e =>
    match e.state with
    | .filling => (s, .filled .state [])
    | .erasing => (s, .filled .state [])
    | .complete =>
      if e.hasReader then
        (mapEntry e.id (fun e => { e with state := .erasing, erasePend := true }) s, .filled .ok [p.getD 0 0])
      else (dropEntry e none s, .filled .ok [p.getD 0 0])

end Sys2Proof.Machine
end

