-- ==== Sys2Proof/Machine/PrintEngine.lean ====
section
/-! DEFINITION. The Print Engine (R136 to R156). -/

namespace Sys2Proof.Machine

/-! ## Scaling (R139, R140) -/

/-- The ratio FIT chooses for a page of `l` stored lines (R140). -/
def fitRatio (paper l : Nat) (res : Resolution) : Nat :=
  if l = 0 then 100 else max 50 (min 100 (200 * paper / (l * res.halves)))

/-- The effective ratio (R139). -/
def effRatio (ratio : Nat) : Resolution → Nat
  | .std => 2 * ratio
  | .fine => ratio
  | .super => ratio / 2

/-! ## Heat (R143 to R145) -/

/-- The stale factor: the smallest of the sixteen (R145). -/
def staleFactor (tempf : List Byte) : Nat :=
  (List.range 16).foldl (fun m b => min m (wordAt tempf (2 * b))) (wordAt tempf 0)

/-- The temperature factor of a line (R144). -/
def heatFactor (tempf : List Byte) (t : Temperature) : Nat :=
  match t.fresh, t.reading with
  | true, some code => wordAt tempf (2 * (code.toNat / 16))
  | _, _ => staleFactor tempf

/-- The pulse of history class `k` (R144). -/
def pulseOf (heat : List Byte) (pmax factor k : Nat) : Nat := min pmax (wordAt heat (2 * k) * factor / 256)

/-- The history class of dot `j` (R143). -/
def heatClass (h1 h2 : Line) (j : Nat) : Nat := 2 * (dotOf h1 j).toNat + (dotOf h2 j).toNat

/-! ## Batches and phases (R147) -/

/-- The black dots of strobe group `g`, left to right. -/
def groupDots (l : Line) (g : Nat) : List Nat := ((List.range 432).map (432 * g + ·)).filter (dotOf l)

/-- Batch `p` of a group, in batches of `lim` dots from the left. -/
def batch (l : Line) (lim g p : Nat) : List Nat := ((groupDots l g).drop (p * lim)).take lim

/-- The number of phases of a line: the largest batch count of any group. -/
def phaseTotal (l : Line) (lim : Nat) : Nat :=
  (List.range 4).foldl (fun m g => max m (ceilDiv (groupDots l g).length lim)) 0

/-- The line whose black dots are listed. -/
def lineOfPositions (ps : List Nat) : Line := BitVec.ofNat 1728 (ps.foldl (fun n j => n + 2 ^ (1727 - j)) 0)

/-- The longest pulse among dots; none for no dot. -/
def longestPulse (pulse : Nat → Nat) : List Nat → Option Nat
  | [] => none
  | d :: ds => some (ds.foldl (fun m j => max m (pulse j)) (pulse d))

/-- Phase `p` of a line (R147, R148). -/
def headPhase (l : Line) (lim : Nat) (pulse : Nat → Nat) (p : Nat) : HeadPhase :=
  { dots := lineOfPositions ((List.range 4).flatMap fun g => batch l lim g p),
    pulses := (List.range 4).map fun g => longestPulse pulse (batch l lim g p) }

/-- The phases of a line. -/
def headPhases (l : Line) (lim : Nat) (pulse : Nat → Nat) : List HeadPhase :=
  (List.range (phaseTotal l lim)).map (headPhase l lim pulse)

/-- The phases of a printed line under the active HEAT and TEMPF, the reading and the history (R143, R144). -/
def linePhases (j : PrintJob) (l : Line) (s : State) : List HeadPhase :=
  headPhases l (setDotLim s) fun d =>
    pulseOf (imageOf tHeat s) (setPmax s) (heatFactor (imageOf tTempf s) s.temp) (heatClass j.h1 j.h2 d)

/-! ## Strobing (R148) -/

/-- The first group from `g` on that takes part in a phase. -/
def nextGroup (ph : HeadPhase) (g : Nat) : Option Nat := (List.range' g (4 - g)).find? fun k => (ph.pulses.getD k none).isSome

/-- A shifted phase latched and its strobes begun, the next phase's shift beside them. -/
def Strobe.latch (t : Strobe) : Strobe :=
  match t.todo with
  | [] => t
  | ph :: rest =>
    { todo := rest, cur := some ph, shifting := !rest.isEmpty, shifted := false,
      stage := match nextGroup ph 0 with
        | none => .waiting
        | some g => .high g }

/-- The shift in course ends: it is latched once the strobes of the phase before have ended. -/
def Strobe.shiftEnd (t : Strobe) : Strobe :=
  if t.shifting then
    if t.cur.isNone then Strobe.latch { t with shifting := false } else { t with shifting := false, shifted := true }
  else t

/-- A group's pulse ends and its GAP begins. -/
def Strobe.pulseEnd (t : Strobe) : Strobe :=
  match t.stage with
  | .high g => { t with stage := .gap g }
  | .gap _ => t
  | .waiting => t

/-- A GAP ends: the next group, or the end of the phase's strobes and the next phase's latch. -/
def Strobe.gapEnd (t : Strobe) : Strobe :=
  match t.stage, t.cur with
  | .gap g, some ph =>
    match nextGroup ph (g + 1) with
    | some k => { t with stage := .high k }
    | none =>
      if t.shifted then Strobe.latch { t with cur := none, stage := .waiting } else { t with cur := none, stage := .waiting }
  | _, _ => t

/-- Have the last strobes of the last phase ended? -/
def Strobe.over (t : Strobe) : Bool := t.todo.isEmpty && t.cur.isNone

/-- The strobe lines STB1 to STB4, as the group that is high (R148). -/
def Strobe.line (t : Strobe) : Option Nat :=
  match t.stage with
  | .high g => some g
  | .gap _ => none
  | .waiting => none

/-! ## The line cycle (R141, R142) -/

/-- The PRINT job suspended (R150, R151). -/
def suspendPrint (r : SuspendReason) : State → State := mapPrtJob fun j => { j with cycle := .suspended, susp := r }

/-- A stale spell begins at a line that uses a stale reading, or as the reading goes stale in COOLING (R145). -/
def staleSpellBegins (page : Nat) (s : State) : State :=
  if s.temp.staleSpell ∨ s.temp.fresh then s
  else raise evTempStale page 2 (if s.temp.reading.isSome then 0 else 1) (mapTemp (fun t => { t with staleSpell := true }) s)

/-- A burst or run asked of channel P; where the channel is faulted the job is suspended with the steps owed, or ends. -/
def askSteps (kind : Stepping) (r : MotorRequest) (steps : Nat) (s : State) : State :=
  let x := requestP r (mapPrtJob (fun j =>
    { j with stepping := some kind, cycle := if j.cycle = .ending then .ending else .stepping }) s)
  if x.2 then x.1
  else
    mapPrtJob (fun j =>
      if j.cycle = .ending then { j with stepping := none, exitDone := true }
      else { j with stepping := none, cycle := .suspended, susp := .fault, owed := steps, owedExit := kind = .pageExit,
                    interrupted := j.interrupted || kind ≠ .pageExit }) x.1

/-- STEPPING after a line's strobes: a burst of m_p steps (R149). -/
def lineSteps (s : State) : State := askSteps .lineBurst (.burst (setMp s)) (setMp s) s

/-- The bounded forward run of a page exit (R153). -/
def exitRun (steps : Nat) (s : State) : MotorRequest :=
  .run false (rampCount (rampTable .P s) - 1) (rampCount (rampTable .P s) - 1) (some steps)

def exitSteps (steps : Nat) (s : State) : State := askSteps .pageExit (exitRun steps s) steps s

/-- Step 7 of R141: the pulses worked out, STROBING entered; a line with no black dot passes straight to STEPPING. -/
def strobeLine (s : State) : State :=
  match s.prtJob with
  | none => s
  | some j =>
    let l := j.src.getD whiteLine
    let s := staleSpellBegins j.page s
    match linePhases j l s with
    | [] => lineSteps s
    | ph :: rest =>
      { s with prtJob := some { j with cycle := .strobing,
                                       strobe := some { todo := ph :: rest, cur := none, stage := .waiting,
                                                        shifting := true, shifted := false } } }

/-- Pending HEAT, TEMPF applied and the copy's items set (R153 steps 2 to 4). -/
def copyItems (s : State) : State :=
  mapPrtJob (fun j =>
    { j with acc := 0, h1 := whiteLine, h2 := whiteLine, src := none, srcLast := false, repeats := 0, printed := 0,
             passEnded := false, interrupted := false, owed := 0, owedExit := false, inCopy := true, exitDone := false,
             stepping := none, strobe := none, cycle := .lineStart }) (applyAll [tHeat, tTempf] s)

/-- The print decoder starts a new pass at the page's head line (R56, R88). -/
def restartPass (page : Nat) (s : State) : State :=
  match entryOf page s with
  | none => s
  | some e => setPass .print (some (passStart e)) (moveReader .print page e.headLine e.first s)

/-- A copy after the first starts (R153). -/
def nextCopy (s : State) : State :=
  match s.prtJob with
  | none => s
  | some j =>
    copyItems (restartPass j.page (emptyPrintRing { s with prtJob := some { j with copy := j.copy + 1 } }))

/-- The page exit has ended, or there is none: motor tables out of use are applied; the next copy starts, or the job
ends (R153). -/
def afterExit (s : State) : State :=
  let s := applyMotorTables (mapPrtJob (fun j => { j with inCopy := false, owed := 0, owedExit := false }) s)
  match s.prtJob with
  | none => s
  | some j =>
    if j.copy < j.copies then nextCopy s
    else { s with prtJob := some { j with cycle := .ending, exitDone := true, stepping := none } }

/-- The page end of a copy (R153). -/
def pageEnd (s : State) : State :=
  match s.prtJob with
  | none => s
  | some j =>
    let s := { s with prtJob := some { j with exitDone := true, cycle := if j.copy < j.copies then .stepping else .ending } }
    if 0 < j.printed ∧ 0 < setPexit s then exitSteps (setPexit s) s else afterExit s

/-- The next source line taken from the Print Ring and owed its printed lines (R139, R141 step 5): dropped lines are
followed at once; true where a line is to be printed. -/
def takeSource : Nat → State → State × Bool
  | 0, s => (s, false)
  | fuel + 1, s =>
    match s.prtJob with
    | none => (s, false)
    | some j =>
      if s.rings.print.occ = 0 then
        if j.passEnded then (pageEnd s, false) else ({ s with prtJob := some { j with cycle := .waitData } }, false)
      else
        let x := s.rings.print.slot s.rings.print.head
        let a := j.acc + j.reff
        let s := mapRings (fun r => { r with print := r.print.free })
          { s with prtJob := some { j with acc := a % 100, src := some x.dots, srcLast := x.last, repeats := a / 100 } }
        if a / 100 = 0 then if x.last then (pageEnd s, false) else takeSource fuel s
        else (s, true)

/-- The line start (R141). PAPR is the level the command carries, or the level last sensed within a command that carries none
(R150; DESIGN CHOICE: log entry 2). -/
def lineStart (s : State) : State :=
  match s.prtJob with
  | none => s
  | some j =>
    if s.motP.faulted then suspendPrint .fault s
    else if !s.lines.papr then raise evPaperOut j.page 2 0 (suspendPrint .noPaper s)
    else if s.temp.reading.any fun c => setHotLim s ≤ c.toNat then
      raise evOverheat j.page 2 ((s.temp.reading.map BitVec.toNat).getD 0)
        { s with prtJob := some { j with cycle := .cooling } }
    else if j.interrupted then strobeLine { s with prtJob := some { j with interrupted := false } }
    else
      let x := if j.repeats = 0 then takeSource (Config.printRingSlots + 1) s else (s, true)
      if x.2 then strobeLine (mapPrtJob (fun j => { j with repeats := j.repeats - 1 }) x.1) else x.1

/-- A printed line is done at the end of its burst (R143, R149). -/
def lineDone (j : PrintJob) (s : State) : State :=
  let j := { j with h2 := j.h1, h1 := j.src.getD whiteLine, printed := j.printed + 1, stepping := none }
  if j.cycle = .ending then { s with prtJob := some j }
  else if j.repeats = 0 ∧ j.srcLast then pageEnd { s with prtJob := some j }
  else { s with prtJob := some { j with cycle := .lineStart } }

/-- Channel P reports rest to the Print Engine (R106). -/
def printRest (s : State) : State :=
  match s.prtJob with
  | none => s
  | some j =>
    match j.stepping with
    | none => s
    | some .lineBurst => lineDone j s
    | some .owedBurst =>
      { s with prtJob := some { j with stepping := none, owed := 0,
                                       cycle := if j.cycle = .ending then .ending else .lineStart } }
    | some .pageExit =>
      let s := { s with prtJob := some { j with stepping := none } }
      if j.cycle = .ending then s else afterExit s

/-- The last strobes of a line have ended, or not (R148). -/
def strobesMoved (t : Strobe) (s : State) : State :=
  if t.over then lineSteps (mapPrtJob (fun j => { j with strobe := none }) s)
  else mapPrtJob (fun j => { j with strobe := some t }) s

/-- An event of the head (R148). -/
def headEvent (f : Strobe → Strobe) (s : State) : State :=
  match s.prtJob with
  | none => s
  | some j =>
    match j.strobe with
    | none => s
    | some t => strobesMoved (f t) s

/-! ## The job's end (R153, R154, R155) -/

/-- The job ends: the reader removed, PRINT_END raised. -/
def endPrint (j : PrintJob) (s : State) : State :=
  raise evPrintEnd j.page 2 j.reason
    (removeReader .print j.page (emptyPrintRing (idleDecoder .print { s with prtJob := none })))

/-- ENDING with nothing in flight: the page exit still due, or the end; the motor tables go out of use before it (R153,
R154). -/
def endingMove (j : PrintJob) (s : State) : State :=
  if j.strobe.isSome || j.stepping.isSome then s
  else if !j.exitDone && 0 < j.printed && 0 < setPexit s then
    exitSteps (setPexit s) { s with prtJob := some { j with exitDone := true } }
  else endPrint j (applyMotorTables { s with prtJob := some { j with inCopy := false } })

/-- A decoder pass is over when its page is no longer FILLING and no line is left, or the page is gone (R57, R60). -/
def passOver (p : Pass) (s : State) : Bool :=
  p.reading.isNone &&
    match entryOf p.page s with
    | none => true
    | some e => e.state ≠ .filling && e.lineCount ≤ p.linePos

/-- The end of a decoder's pass, reported to its job (R137, R164). -/
def settlePass (ctx : DecoderCtx) (s : State) : State :=
  match passOf ctx s with
  | none => s
  | some p =>
    if passOver p s then
      match ctx with
      | .print => mapPrtJob (fun j => { j with passEnded := true }) (idleDecoder .print s)
      | .output => idleDecoder .output s
    else s

/-- Is a move of the Print Engine due at once: a line start, the end of a wait for data, a move of the ending? -/
def printDue (s : State) : Bool :=
  match s.prtJob with
  | none => false
  | some j =>
    match j.cycle with
    | .lineStart => true
    | .waitData => 0 < s.rings.print.occ || j.passEnded
    | .ending => j.strobe.isNone && j.stepping.isNone
    | .strobing | .stepping | .cooling | .suspended => false

/-- The move that is due. -/
def printMove (s : State) : State :=
  match s.prtJob with
  | none => s
  | some j =>
    match j.cycle with
    | .lineStart => lineStart s
    | .waitData => if 0 < s.rings.print.occ then lineStart s else if j.passEnded then pageEnd s else s
    | .ending => endingMove j s
    | .strobing => s
    | .stepping => s
    | .cooling => s
    | .suspended => s

/-- The moves due at once, one after another, at most `n`. -/
def printMoves : Nat → State → State
  | 0, s => settlePass .print s
  | n + 1, s => if printDue (settlePass .print s) then printMoves n (printMove (settlePass .print s)) else settlePass .print s

/-- The Print Engine's moves that are due at once, as many as 99 copies of an empty page can take. -/
def settlePrint (s : State) : State := printMoves 400 s

/-! ## Faults and resume (R151, R152) -/

/-- The steps channel P owes the print as a fault cuts it off: of a motion in course, or all of a request still waiting (R106,
R112; that a request not taken is owed whole, its line interrupted, is a DESIGN CHOICE: log entry 51). -/
def printOwed (m : Motor) : Nat :=
  match m.waiting with
  | some (.burst n) => n
  | some (.run _ _ _ steps) => steps.getD 0
  | none => if m.owner = .print then m.plan.owed.getD 0 else 0

/-- Channel P enters FAULT under a PRINT job (R151, R154). -/
def printFaulted (owed : Nat) : State → State :=
  mapPrtJob fun j =>
    match j.cycle with
    | .ending => { j with strobe := none, stepping := none, exitDone := true }
    | .suspended => { j with susp := .fault }
    | .strobing => { j with cycle := .suspended, susp := .fault, strobe := none, interrupted := true }
    | .stepping =>
      if j.stepping = some .pageExit then
        { j with cycle := .suspended, susp := .fault, stepping := none, owed := owed, owedExit := true }
      else { j with cycle := .suspended, susp := .fault, stepping := none, owed := owed, owedExit := false,
                    interrupted := true }
    | .lineStart | .waitData | .cooling => { j with cycle := .suspended, susp := .fault }

/-- A suspended job resumes (R152): history white, the owed steps first. A page exit cut off after its last step owes none, and
the job goes on from the page end (DESIGN CHOICE: log entry 50). -/
def resumePrint (j : PrintJob) (s : State) : State :=
  let s := { s with prtJob := some { j with h1 := whiteLine, h2 := whiteLine, cycle := .stepping } }
  if j.owedExit then if 0 < j.owed then exitSteps j.owed s else afterExit s
  else if 0 < j.owed then askSteps .owedBurst (.burst j.owed) j.owed s
  else mapPrtJob (fun j => { j with cycle := .lineStart }) s

/-- A RESUME of channel P passed to the Print Engine (R152). -/
def printResume (answer : List Byte) (s : State) : State × ReplyBody :=
  match s.prtJob with
  | none => (s, .filled .state [])
  | some j =>
    if j.cycle ≠ .suspended ∨ !s.lines.papr then (s, .filled .state [])
    else (resumePrint j s, .filled .ok answer)

/-! ## Orders (R136, R137, R154, R145) -/

/-- The owner's checks of PRINT against its page (R136 checks 3 to 5). -/
def printPageRefusal (e : Entry) (copies ratio : Nat) (consume cut : Bool) : Option Status :=
  if e.state = .erasing ∨ (e.state = .filling ∧ !cut) then some .state
  else if (ratio = 0 ∧ cut ∧ e.state = .filling) ∨ (consume ∧ 1 < clampNat 1 99 copies) ∨ (consume ∧ e.hasReader) then
    some .badarg
  else if !consume ∧ (e.printRd.any (·.consume) ∨ e.outRd.any (·.consume)) then some .state
  else none

def printNeeds : List (Fin 14) := [tHeat, tTempf, tPramp, tPphase]

/-- The PRINT job as taken (R137). Its suspension and ending reasons are FAULT and 0 until it is first suspended and enters
ENDING (DESIGN CHOICE: log entry 56). -/
def PrintJob.start (page copies reff : Nat) (consume : Bool) : PrintJob :=
  { page := page, copies := copies, copy := 1, consume := consume, reff := reff, cycle := .lineStart, acc := 0,
    src := none, srcLast := false, repeats := 0, h1 := whiteLine, h2 := whiteLine, printed := 0, passEnded := false,
    interrupted := false, owed := 0, owedExit := false, susp := .fault, reason := 0, inCopy := true, exitDone := false,
    strobe := none, stepping := none }

/-- The reader added, the job begun, its first copy started (R137, R153). -/
def beginPrint (e : Entry) (copies reff : Nat) (consume : Bool) (s : State) : State :=
  copyItems
    (admitReader .print e consume { s with prtJob := some (PrintJob.start e.id copies reff consume) })

/-- The ratio used: FIT's, or the order's brought into range (R136, R140). -/
def printRatio (ratio : Nat) (e : Entry) (s : State) : Nat :=
  if ratio = 0 then fitRatio (setPaperLength s) e.stored e.res else clampNat 50 200 ratio

/-- The PRINT order (R136). -/
def orderPrint (p : List Byte) (s : State) : State × ReplyBody :=
  match flagOf? (byteAt p 3), flagOf? (byteAt p 4) with
  | some consume, some cut =>
    if s.prtJob.isSome then (s, .filled .busy [])
    else
      match entryOf (byteAt p 0) s with
      | none => (s, .filled .nopage [])
      | some e =>
        match printPageRefusal e (byteAt p 1) (byteAt p 2) consume cut with
        | some st => (s, .filled st [])
        | none =>
          if !(printNeeds.all fun id => (activeOf id s).isSome) then (s, .filled .notable [])
          else if !s.lines.papr then (s, .filled .state [])
          else
            let copies := clampNat 1 99 (byteAt p 1)
            let ratio := if byteAt p 2 = 0 then 0 else clampNat 50 200 (byteAt p 2)
            let used := printRatio (byteAt p 2) e s
            (beginPrint e copies (effRatio used e.res) consume s,
              .filled (if copies ≠ byteAt p 1 ∨ ratio ≠ byteAt p 2 then .clamped else .ok)
                ([p.getD 0 0, BitVec.ofNat 8 copies, BitVec.ofNat 8 ratio, p.getD 3 0, p.getD 4 0] ++ be16 used
                  ++ be16 (effRatio used e.res)))
  | _, _ => (s, .filled .badarg [])

/-- STOP of the PRINT job (R154). -/
def orderStopPrint (answer : List Byte) (s : State) : State × ReplyBody :=
  match s.prtJob with
  | none => (s, .filled .state [])
  | some j =>
    if j.cycle = .ending then (s, .filled .state [])
    else
      (removeReader .print j.page (emptyPrintRing (idleDecoder .print
        { s with prtJob := some { j with cycle := .ending, reason := 1,
                                         exitDone := j.exitDone || j.cycle = .suspended } })),
        .filled .ok answer)

/-- The TEMP order (R145, R146). -/
def orderTemp (code : Byte) (s : State) : State × ReplyBody :=
  let s := mapTemp (fun _ => { reading := some code, fresh := true, age := some (setTempAge s), staleSpell := false }) s
  let s := mapPrtJob (fun j =>
    if j.cycle = .cooling ∧ code.toNat + 8 < setHotLim s then
      { j with h1 := whiteLine, h2 := whiteLine, cycle := .lineStart }
    else j) s
  (s, .filled .ok [code])

/-- The temperature age timer expires (R145). -/
def tempExpired (s : State) : State :=
  match s.temp.age with
  | none => s
  | some _ =>
    let s := mapTemp (fun t => { t with fresh := false, age := none }) s
    match s.prtJob with
    | none => s
    | some j => if j.cycle = .cooling then staleSpellBegins j.page s else s

/-- The PRINT job state of STATUS (R137). -/
def printStatus (s : State) : Nat :=
  match s.prtJob with
  | none => 0
  | some j =>
    match j.cycle with
    | .waitData => 3
    | .suspended => 4
    | .cooling => 5
    | .lineStart | .strobing | .stepping | .ending => 1

end Sys2Proof.Machine
end

