-- ==== Sys2Proof/Machine/Imaging.lean ====
section
/-! DEFINITION. The Scan Front's computation of one line (R23 to R39) and the calibration sums (R41). -/

namespace Sys2Proof.Machine

/-! ## Resample (R24) -/

/-- The output width Wo. -/
def outWidth (zoom : Nat) : Nat := min 1728 (1728 * zoom / 100)

/-- The source pixel of output dot `j`. -/
def sourcePixel (zoom j : Nat) : Nat := 100 * j / zoom

/-! ## Shading (R27) -/

/-- The corrected value of one good pixel with levels `b`, `w` and sample `v`. -/
def shade (b w v : Nat) : Nat :=
  if v ≤ b then 0 else if w ≤ v then 255 else (510 * (v - b) + (w - b)) / (2 * (w - b))

/-- The corrected values of pixels `i` and on, `prev` being pixel i − 1's. -/
def shadeFrom (shading : List Byte) (defective : List Nat) : Nat → Nat → List Byte → List Nat
  | _, _, [] => []
  | i, prev, v :: vs =>
    let c := if defective.contains i then prev else shade (byteAt shading (2 * i)) (byteAt shading (2 * i + 1)) v.toNat
    c :: shadeFrom shading defective (i + 1) c vs

/-- The corrected values of a line's source pixels; a run of defective pixels from pixel 0 takes 255. -/
def shadeLine (shading : List Byte) (defective : List Nat) (samples : List Byte) : List Nat :=
  shadeFrom shading defective 0 255 samples

/-! ## Zones and modes (R28 to R30) -/

/-- Does zone `k` of a ZONES image contain source pixel `i` of page line `y`? -/
def zoneHolds (zones : List Byte) (k i y : Nat) : Bool :=
  wordAt zones (1 + 9 * k) ≤ i && i ≤ wordAt zones (3 + 9 * k) &&
    wordAt zones (5 + 9 * k) ≤ y && y ≤ wordAt zones (7 + 9 * k)

/-- The mode index of a source pixel: that of the highest-numbered zone that contains it, or 0 (R29). -/
def modeIndex (zones : List Byte) (i y : Nat) : Nat :=
  (List.range (byteAt zones 0)).foldl (fun m k => if zoneHolds zones k i y then byteAt zones (9 + 9 * k) else m) 0

/-- A mode record (R30), its fields as the image has them (log entry 58). -/
structure ModeRec where
  method    : Nat
  threshold : Nat
  bank      : Nat
  stampRule : Nat
deriving DecidableEq, Repr

def modeRecord (modes : List Byte) (k : Nat) : ModeRec :=
  { method := byteAt modes (4 * k), threshold := byteAt modes (4 * k + 1), bank := byteAt modes (4 * k + 2),
    stampRule := byteAt modes (4 * k + 3) }

/-! ## Binarization (R32 to R36) -/

/-- The four shares of a DIFFUSE dot's error (R34). -/
structure Shares where
  r  : Int
  d  : Int
  dl : Int
  dr : Int
deriving DecidableEq, Repr

def sharesOf (err : Int) : Shares :=
  { r := err.tdiv 2, d := err.tdiv 4, dl := err.tdiv 8,
    dr := err - err.tdiv 2 - err.tdiv 4 - err.tdiv 8 }

/-- The decision value (R34). -/
def decisionValue (t : Nat) (e q : Int) : Int := clampInt (-128) 383 ((t : Int) + e + q)

/-- The error of a decision: v for a black dot, v − 255 for a white one (R34). -/
def decisionError (v : Int) : Int := if v < 128 then v else v - 255

/-- A share added to a next-line entry, clamped at once (R35). -/
def addShare (entry share : Int) : Int := clampInt (-255) 255 (entry + share)

/-- Error diffusion along a line: the running carry, the next-line entries already passed (last first), and the next-line
entry of the dot to come with what its left neighbour has added. -/
structure Diffusion where
  carry : Int
  done  : List Int
  here  : Int
deriving DecidableEq, Repr

def Diffusion.start : Diffusion := { carry := 0, done := [], here := 0 }

/-- Add dl to the entry of the dot on the left, where there is one (R35). -/
def addLeft (dl : Int) : List Int → List Int
  | [] => []
  | e :: t => addShare e dl :: t

/-- A FIXED or DITHER dot: carry 0, its entry 0 (R36). -/
def Diffusion.skip (f : Diffusion) : Diffusion := { carry := 0, done := 0 :: f.done, here := 0 }

/-- A DIFFUSE dot with the given error; `lastDot` when it is dot Wo − 1, whose r and dr shares are dropped (R35). -/
def Diffusion.dot (f : Diffusion) (err : Int) (lastDot : Bool) : Diffusion :=
  let h := sharesOf err
  { carry := if lastDot then 0 else h.r,
    done := addShare f.here h.d :: addLeft h.dl f.done,
    here := if lastDot then 0 else addShare 0 h.dr }

/-! ## Stamp (R38, R39) -/

/-- The stamp code of dot `j` on page line `y`: 0 CLEAR, 1 WHITE, 2 BLACK, 3 FLIP; none where the stamp does not apply. -/
def stampCode (stamp : List Byte) (on : Bool) (y j : Nat) : Option Nat :=
  if on && wordAt stamp 0 ≤ y && y < wordAt stamp 0 + byteAt stamp 2 then
    some ((byteAt stamp (3 + 432 * (y - wordAt stamp 0) + j / 4) >>> (6 - 2 * (j % 4))) % 4)
  else none

/-- The merge of a stamp code with a dot by a stamp rule: 0 OFF, 1 OVER, 2 UNDER (R39). A rule above 2, which only a restored
MODES image can hold, is taken as OFF (DESIGN CHOICE: log entry 58). -/
def stampMerge (rule : Nat) (code : Nat) (dot : Bool) : Bool :=
  match rule, code with
  | 1, 1 => false
  | 1, 2 => true
  | 1, 3 => !dot
  | 2, 2 => true
  | 2, 3 => true
  | _, _ => dot

/-- The dot after stage 6. -/
def stampDot (stamp : List Byte) (on : Bool) (rule y j : Nat) (dot : Bool) : Bool :=
  match stampCode stamp on y j with
  | none => dot
  | some c => stampMerge rule c dot

/-! ## The line (R23) -/

/-- What one line is computed from. -/
structure LineInputs where
  zoom      : Nat
  stampOn   : Bool
  y         : Nat
  corrected : List Nat
  toneA     : List Byte
  toneB     : List Byte
  dither    : List Byte
  modes     : List Byte
  zones     : List Byte
  stamp     : List Byte
  errorRow  : List Int
deriving DecidableEq, Repr

/-- The mode record of output dot `j` (R23 stage 3): of its source pixel, or record 0 beyond the width. -/
def LineInputs.modeAt (a : LineInputs) (j : Nat) : ModeRec :=
  modeRecord a.modes (if j < outWidth a.zoom then modeIndex a.zones (sourcePixel a.zoom j) a.y else 0)

/-- The tone value of output dot `j` within the width (R31). A bank above 1, which only a restored MODES image can hold, is
taken as TONE_B (DESIGN CHOICE: log entry 58). -/
def LineInputs.tone (a : LineInputs) (j : Nat) : Nat :=
  byteAt (if (a.modeAt j).bank = 0 then a.toneA else a.toneB) (a.corrected.getD (sourcePixel a.zoom j) 0)

/-- The diffusion decision value of dot `j` given the carry (R34). -/
def LineInputs.value (a : LineInputs) (j : Nat) (q : Int) : Int :=
  decisionValue (a.tone j) (a.errorRow.getD j 0) q

/-- Stage 5 of output dot `j`: the dot, and the diffusion state after it (R32 to R36). A method above 2, which only a restored
MODES image can hold, is taken as DIFFUSE (DESIGN CHOICE: log entry 58). -/
def LineInputs.binarize (a : LineInputs) (j : Nat) (f : Diffusion) : Bool × Diffusion :=
  if outWidth a.zoom ≤ j then (false, { f with done := 0 :: f.done, here := 0 })
  else
    match (a.modeAt j).method with
    | 0 => (decide (a.tone j < (a.modeAt j).threshold), f.skip)
    | 1 => (decide (a.tone j < byteAt a.dither (4 * (a.y % 4) + j % 4)), f.skip)
    | _ =>
      (decide (a.value j f.carry < 128), f.dot (decisionError (a.value j f.carry)) (decide (j + 1 = outWidth a.zoom)))

/-- Output dots `j` and on, `n` of them: the final dots and the diffusion state at the end. -/
def LineInputs.dots (a : LineInputs) : Nat → Nat → Diffusion → List Bool × Diffusion
  | 0, _, f => ([], f)
  | n + 1, j, f =>
    let b := a.binarize j f
    let r := LineInputs.dots a n (j + 1) b.2
    (stampDot a.stamp a.stampOn (a.modeAt j).stampRule a.y j b.1 :: r.1, r.2)

/-- A whole line: its 1728 dots and the error row it leaves (R35). -/
def LineInputs.compute (a : LineInputs) : Line × List Int :=
  let r := a.dots 1728 0 Diffusion.start
  (lineOfDots r.1, r.2.done.reverse)

/-- The source pixel samples of a readout: the lead-in discarded (R19). -/
def pixelSamples (v : Vector Byte 1760) : List Byte := v.toList.drop Config.leadIn

/-- The inputs of a scan job's line as its readout ends. -/
def lineInputs (j : ScanJob) (y : Nat) (samples : List Byte) (s : State) : LineInputs :=
  { zoom := j.zoom, stampOn := j.stamp, y := y,
    corrected := shadeLine (imageOf tShading s) s.front.defective samples,
    toneA := imageOf tToneA s, toneB := imageOf tToneB s, dither := imageOf tDither s, modes := imageOf tModes s,
    zones := imageOf tZones s, stamp := imageOf tStamp s, errorRow := s.front.errorRow }

/-! ## Calibration (R41, R42) -/

/-- One more line's samples added to the sums. -/
def addSums (sums : List Nat) (samples : List Byte) : List Nat :=
  List.zipWith (fun a v => a + v.toNat) sums samples

/-- The rounded mean of eight samples. -/
def meanLevel (sum : Nat) : Byte := BitVec.ofNat 8 ((sum + 4) / 8)

/-- The SHADING image of black and white levels (R25). -/
def shadingImage (black white : List Byte) : List Byte :=
  (List.zip black white).flatMap fun p => [p.1, p.2]

end Sys2Proof.Machine
end

