-- ==== Sys2Proof/Machine/ScanSequencer.lean ====
section
/-! DEFINITION. The Scan Sequencer (R119 to R135). -/

namespace Sys2Proof.Machine

/-! ## The slew clamp (R120) -/

/-- The stop span j of a slew index. -/
def stopSpan (m slew : Nat) : Nat := max 1 (ceilDiv slew m)

/-- Does a slew index meet conditions (a) and (b)? -/
def slewUsable (ramp : List Byte) (tr m slew : Nat) : Bool := tr ≤ m * rampEntry ramp slew && stopSpan m slew ≤ 16

/-- The slew index in effect: the largest usable one at most S and within the table. -/
def slewClamp (ramp : List Byte) (tr m want : Nat) : Option Nat :=
  ((List.range (min want (rampCount ramp - 1) + 1)).filter (slewUsable ramp tr m)).getLast?

/-- The run figures of a scan (R120). -/
def figuresOf (slew m rh : Nat) : Figures :=
  let j := stopSpan m slew
  { slewUse := slew, m := m, j := j, margin := j - 1, restart := max 2 (j - 1 + min rh (16 - (j - 1))) }

/-- The run figures the active SRAMP and SETTINGS give a scan, where a slew index is usable. -/
def scanFigures (res : Resolution) (want : Nat) (s : State) : Option Figures :=
  (slewClamp (imageOf tSramp s) (readoutTime s) res.steps want).map fun k => figuresOf k res.steps (setRh s)

/-! ## Ending (R122) -/

/-- What becomes of the page the scan context writes at an ending decision. -/
inductive ScanSettle where
  | policy | keep | drop | leave
deriving DecidableEq, Repr

/-- The page the scan context writes settled as the ending's row gives (R122 step 2), also where its line 0 is still part coded:
completed with no stored line, it then leaves the directory by the test of R84. -/
def settleWritten (how : ScanSettle) (p : Policy) (s : State) : State :=
  match how with
  | .policy => applyPolicy .scan p s
  | .keep => completePage .scan true false s
  | .drop => discardWritten .scan s
  | .leave => s

/-- The page being written settled, and every page not yet taken up, a following sheet's, discarded (R122 step 2, R131,
R132). -/
def settleScanPages (how : ScanSettle) (p : Policy) (s : State) : State :=
  match how with
  | .leave => s
  | .policy | .keep | .drop => discardWaiting .scan (settleWritten how p s)

/-- A directory place is released (R80). -/
def releasePlace : State → State := mapDir fun d => { d with places := 0 }

/-- The ending decision (R122); `held` is the DOC_HELD reason where the ending has one. -/
def scanDecision (reason : Nat) (how : ScanSettle) (held : Option Nat) (s : State) : State :=
  match s.scanJob with
  | none => s
  | some j =>
    let page := if how = .leave then 0 else s.scanCd.page.getD 0
    let s := { s with scanJob := some { j with phase := .ending, pause := false, awaitRun := false, endReason := reason,
                                               docHeld := held.map fun r => (r, page) } }
    let s := endDirwait .scan (releasePlace (settleScanPages how j.policy s))
    let s := if how = .leave then s else emptyScanRing s
    { s with motS := s.motS.stop 0 }

/-- Channel S enters FAULT under a scan job (R122, R133). -/
def scanFaulted (s : State) : State :=
  match s.scanJob with
  | none => s
  | some j =>
    if j.phase = .ending then emptyScanRing (settleScanPages .policy j.policy s) else scanDecision 4 .policy none s

/-- Have all pages of the scan been completed or removed? -/
def scanPagesDone (s : State) : Bool := s.scanCd.page.isNone && (waitingPage .scan s).isNone

/-- Is the end of the job due (R122)? -/
def scanEndDue (j : ScanJob) (s : State) : Bool :=
  match j.phase with
  | .ending => !s.motS.moving && (j.endReason < 6 || scanPagesDone s)
  | .runout => s.motS.atRest && scanPagesDone s
  | .search | .lead | .capture | .dirwait => false

/-- The SCAN_END reason of the job's end (R122, R129). -/
def scanEndReason (j : ScanJob) : Nat :=
  if j.phase = .ending then j.endReason else if j.pageCount = j.pageLimit then 1 else 0

/-- The job ends: LAMP low, no owner, SCAN_END and then DOC_HELD (R122). The Scan Ring is empty then: emptied by the ending, or
with nothing to discard (R47). -/
def endScan (j : ScanJob) (s : State) : State :=
  let s := emptyScanRing s
  let s := { s with scanJob := none, front := { s.front with lamp := false }, motS := { s.motS with owner := .nobody } }
  let s := raise evScanEnd j.lastCompleted 1 (scanEndReason j) s
  match j.docHeld with
  | none => s
  | some (r, page) => raise evDocHeld page 1 r s

def settleScanEnd (s : State) : State :=
  match s.scanJob with
  | none => s
  | some j => if scanEndDue j s then endScan j s else s

/-! ## Steps (R123 to R129) -/

/-- The page entry of the present sheet: the newest FILLING page of the scan context. -/
def sheetPage (s : State) : Nat :=
  match (s.dir.entries.filter fun e => e.state = .filling && e.writer = some CoderCtx.scan).getLast? with
  | none => 0
  | some e => e.id

/-- A jam (R123, R125): JAM, channel S in FAULT, the ending decision. -/
def scanJam (page reason : Nat) (s : State) : State :=
  let s := raise evJam page 1 reason s
  scanDecision 3 .policy none { s with motS := s.motS.cutOff byJam }

/-- The sheet's leading edge (R124). -/
def leadingEdge (s : State) : State :=
  match s.scanJob with
  | none => s
  | some j =>
    let s := createEntry j.purpose j.res .scan (releasePlace s)
    { s with scanJob := some { j with pageCount := j.pageCount + 1, stepCount := 0, trailing := none, y := 0,
                                      phase := .lead } }

/-- A step of channel S in SEARCH (R123). -/
def searchStep (j : ScanJob) (s : State) : State :=
  let s := issueStep .S { s with scanJob := some { j with searchCount := j.searchCount + 1 } }
  if s.lines.doce then leadingEdge s
  else if setJamSteps s ≤ j.searchCount + 1 then scanJam 0 1 s
  else s

/-- The stop count q of a stop decided at a boundary, by the channel's ramp index as the boundary step falls due (R126): at
S', whose next step runs in SLEW, or below it in ACCEL (log entry 26). -/
def boundaryStop (j : ScanJob) (m : Motor) : Nat :=
  if m.rampIndex = j.fig.slewUse then j.fig.j * j.fig.m - j.fig.slewUse else 0

/-- Is the line started at boundary step `n` marked last-of-page (R128)? -/
def lastMark (j : ScanJob) (n tail : Nat) : Bool :=
  match j.trailing with
  | none => false
  | some e => e + tail < n + j.fig.m

/-- Page tables at a line-0 boundary (R22). -/
def pageStart (s : State) : State :=
  let s := applyAll scanTables s
  { s with front := { s.front with errorRow := List.replicate 1728 0 } }

/-- The closing boundary (R129): the next sheet, the directory wait, or run-out. -/
def closingBoundary (s : State) : State :=
  match s.scanJob with
  | none => s
  | some j =>
    if s.lines.docp ∧ j.pageCount < j.pageLimit then
      if hasRoom s then
        { s with dir := { s.dir with places := s.dir.places + 1 },
                 scanJob := some { j with phase := .search, searchCount := 0 } }
      else
        enterDirwait .scan { s with scanJob := some { j with phase := .dirwait }, motS := s.motS.stop 0 }
    else { s with scanJob := some { j with phase := .runout }, motS := s.motS.stop 0 }

/-- A line boundary (R125): `first` when its step is the first of a run restarting from a pause. -/
def boundaryStep (first : Bool) (j : ScanJob) (s : State) : State :=
  if j.y = setMaxLines s then scanJam (sheetPage s) 2 s
  else
    let s := if j.y = 0 then pageStart s else s
    let s := mapRings (fun r => { r with scan := r.scan.reserve, scanReserved := r.scanReserved + 1 }) s
    let last := lastMark j j.stepCount (setTail s)
    let stop := !first && scanFree s ≤ j.fig.margin && !s.motS.stopping
    let s := if stop then { s with motS := s.motS.stop (boundaryStop j s.motS) } else s
    let s := issueStep .S s
    let s := { s with scanJob := some { j with phase := .capture, y := j.y + 1, pause := j.pause || stop },
                      front := { s.front with comp := some { y := j.y, last := last }, ditherRow := j.y % 4,
                                              ditherCol := 0 } }
    if last then closingBoundary s else s

/-- Is the next step of channel S the boundary of the line to start next (R124)? -/
def boundaryNext (j : ScanJob) (s : State) : Bool :=
  (j.phase = .lead || j.phase = .capture) && j.stepCount + 1 = setLead s + 1 + j.y * j.fig.m

/-- A boundary step cannot fall due while the line before it is still being read out (R19, R120; log entry 1). -/
def lineOpen (s : State) : Bool := s.front.comp.isSome && s.scanJob.any fun j => boundaryNext j s

/-- A step of channel S in LEAD or CAPTURE: DOCE is sampled first (R125, R128). -/
def pageStep (first : Bool) (j : ScanJob) (s : State) : State :=
  let n := j.stepCount + 1
  let j := { j with stepCount := n,
                    trailing := if j.trailing.isNone && !s.lines.doce then some n else j.trailing }
  let s := { s with scanJob := some j }
  if n = setLead s + 1 + j.y * j.fig.m then boundaryStep first j s else issueStep .S s

/-- A step of channel S that falls due under a scan job. -/
def scanStep (first : Bool) (s : State) : State :=
  match s.scanJob with
  | none => issueStep .S s
  | some j =>
    match j.phase with
    | .search => searchStep j s
    | .lead => pageStep first j s
    | .capture => pageStep first j s
    | .dirwait => issueStep .S s
    | .runout => issueStep .S s
    | .ending => issueStep .S s

/-- A new unbounded run with S and S', its first step issued at once (R121, R127). -/
def startScanRun (restart : Bool) (s : State) : State :=
  match s.scanJob with
  | none => s
  | some j =>
    scanStep restart
      (mapMotor .S (fun m => m.beginRun (rampCount (rampTable .S s)) .scan false j.slewReq j.fig.slewUse none) s)

/-- Is a restart due (R127, R130)? -/
def scanRestartDue (j : ScanJob) (s : State) : Bool :=
  (j.phase = .search || j.phase = .lead || j.phase = .capture) && (j.pause || j.awaitRun) && s.motS.atRest
    && j.fig.restart ≤ scanFree s && !lineOpen s

def settleScanRestart (s : State) : State :=
  match s.scanJob with
  | none => s
  | some j =>
    if scanRestartDue j s then
      startScanRun true { s with scanJob := some { j with pause := false, awaitRun := false } }
    else s

/-! ## The directory wait (R130) -/

/-- Room given to the scan context: a place held again, the figures worked out afresh. The run to come is owed as `awaitRun`
and sets no pause (DESIGN CHOICE: log entry 45). -/
def scanRoom (s : State) : State :=
  match s.scanJob with
  | none => endDirwait .scan s
  | some j =>
    let s := endDirwait .scan { s with dir := { s.dir with places := s.dir.places + 1 } }
    match scanFigures j.res j.slewReq s with
    | none => scanDecision 7 .leave (some 3) s
    | some f => { s with scanJob := some { j with phase := .search, searchCount := 0, fig := f, awaitRun := true } }

/-- The room a removal or release leaves is given to the waiters, the scan context first (R81). -/
def settleRoom (s : State) : State :=
  let s := if s.scanCd.dirWait.isSome && hasRoom s then scanRoom s else s
  if s.intakeCd.dirWait.isSome && hasRoom s then takeUpIntake (endDirwait .intake s) else s

/-- The scan's directory wait expires (R130). -/
def scanDirExpiry (s : State) : State :=
  if s.scanCd.dirWait.isSome then scanDecision 6 .leave (some 2) (endDirwait .scan s) else s

/-- The scan context's memory wait expires (R131). -/
def scanMemExpiry (s : State) : State := scanDecision 5 .policy (some 1) s

/-! ## Orders (R119, R121, R132) -/

/-- The scan tables and motor tables a scan needs (R119 check 3). -/
def scanNeeds : List (Fin 14) := [1, 2, 3, 4, 5, 6, 7, 8, 9]

def allPresent (ids : List (Fin 14)) (s : State) : Bool := ids.all fun id => (activeOf id s).isSome

/-- The owner's checks of SCAN before the slew clamp (R119). -/
def scanRefusal (s : State) : Option Status :=
  if s.scanJob.isSome || s.front.cal.isSome || !s.motS.atRest then some .busy
  else if !s.lines.docp then some .state
  else if !allPresent scanNeeds s then some .notable
  else if !hasRoom s then some .nodir
  else none

/-- The job a SCAN order starts (R121 step 3). -/
def ScanJob.start (purpose : Origin) (res : Resolution) (zoom : Nat) (stamp : Bool) (policy : Policy)
    (limit slew : Nat) (f : Figures) : ScanJob :=
  { purpose := purpose, res := res, zoom := zoom, stamp := stamp, policy := policy, pageLimit := limit, slewReq := slew,
    fig := f, phase := .search, searchCount := 0, pageCount := 0, stepCount := 0, y := 0, trailing := none,
    pause := false, awaitRun := false, lastCompleted := 0, endReason := 0, docHeld := none }

/-- LAMP raised, the place claimed, the job set, the run started (R121). -/
def beginScan (j : ScanJob) (s : State) : State :=
  startScanRun false
    { s with front := { s.front with lamp := true }, dir := { s.dir with places := s.dir.places + 1 }, scanJob := some j }

/-- The SCAN order (R119). -/
def orderScan (p : List Byte) (s : State) : State × ReplyBody :=
  match purposeOf? (byteAt p 0), Resolution.ofCode? (byteAt p 1), flagOf? (byteAt p 3), Policy.ofCode? (byteAt p 4) with
  | some purpose, some res, some stamp, some policy =>
    match scanRefusal s with
    | some st => (s, .filled st [])
    | none =>
      let zoom := clampNat 50 200 (byteAt p 2)
      let limit := clampNat 1 32 (byteAt p 5)
      let slew := min 31 (byteAt p 6)
      match scanFigures res slew s with
      | none => (s, .filled .badarg [])
      | some f =>
        let clamped := zoom ≠ byteAt p 2 ∨ limit ≠ byteAt p 5 ∨ slew ≠ byteAt p 6 ∨ f.slewUse ≠ slew
        (beginScan (ScanJob.start purpose res zoom stamp policy limit slew f) s,
          .filled (if clamped then .clamped else .ok)
            [p.getD 0 0, p.getD 1 0, BitVec.ofNat 8 zoom, p.getD 3 0, p.getD 4 0, BitVec.ofNat 8 limit,
              BitVec.ofNat 8 f.slewUse])
  | _, _, _, _ => (s, .filled .badarg [])

/-- STOP of the SCAN job (R132): refused during a calibration, with no job, or in ENDING. -/
def orderStopScan (keep : Bool) (answer : List Byte) (s : State) : State × ReplyBody :=
  match s.front.cal, s.scanJob with
  | none, some j =>
    if j.phase = .ending then (s, .filled .state [])
    else (scanDecision 2 (if keep then .keep else .drop) none s, .filled .ok answer)
  | _, _ => (s, .filled .state [])

/-- The SCAN job state of STATUS (R121, R40): 4 for a pause at rest alone; a job given room that rests in SEARCH for F ≥ L shows
1 (DESIGN CHOICE: log entry 45). -/
def scanStatus (s : State) : Nat :=
  if s.front.cal.isSome then 6
  else
    match s.scanJob with
    | none => 0
    | some j =>
      if j.phase = .dirwait ∨ s.scanCd.st = .memwait then 2
      else if j.pause ∧ s.motS.atRest then 4
      else 1

/-! ## Readouts (R21, R35) -/

/-- A scan line's readout ends: its dots fill the reserved slot, the error row takes the gathered values (R21, R35). -/
def lineRead (samples : Vector Byte 1760) (s : State) : State :=
  match s.front.comp, s.scanJob with
  | some c, some j =>
    let r := (lineInputs j c.y (pixelSamples samples) s).compute
    { s with rings := { s.rings with
               scan := s.rings.scan.fillReserved { dots := r.1, lineNo := c.y, last := c.last, rep := false },
               scanReserved := s.rings.scanReserved - 1 },
             front := { s.front with comp := none, errorRow := r.2, ditherCol := 3 } }
  | _, _ => s

end Sys2Proof.Machine
end

