-- ==== Sys2Proof/Machine/Spill.lean ====
section
/-! DEFINITION. The spill: its layout (R175), its check (R178), its restore (R179). -/

namespace Sys2Proof.Machine

/-! ## Writing (R175) -/

/-- The flags byte of a page entry (1.10). -/
def Entry.flags (e : Entry) : Nat :=
  e.truncated.toNat + 2 * e.erasePend.toNat + 4 * e.printRd.isSome.toNat + 8 * e.outRd.isSome.toNat
    + 16 * (e.printRd.any (·.consume)).toNat + 32 * (e.outRd.any (·.consume)).toNat

/-- A page entry as spilled, 19 bytes. -/
def Entry.spilled (e : Entry) : List Byte :=
  be8 e.id ++ be8 e.origin.code ++ be8 e.state.code ++ be8 e.res.code ++ be8 e.flags ++ be16 e.lineCount ++
    be16 e.headLine ++ be16 e.headOff ++ be16 e.blockCount ++ be16 e.first ++ be16 e.last ++ be16 e.damaged

/-- The motor shadow as spilled, 10 bytes. -/
def Shadow.spilled (h : Shadow) : List Byte :=
  be8 h.sPhase ++ be32 h.sPos.toNat ++ be8 h.pPhase ++ be32 h.pPos.toNat

/-- A table as spilled: its length, 0 when absent, and its image. -/
def tableSpilled (t : Option (List Byte)) : List Byte := be16 (t.getD []).length ++ t.getD []

/-- The spill from the memory size code to the last table image. -/
def spillBody (s : State) : List Byte :=
  be8 (setMemSize s).code ++ be8 s.dir.nextId ++ be8 s.dir.entries.length ++ be16 s.pmc.head ++ be16 s.pmc.headLink ++
    be16 s.pmc.tail ++ be16 s.pmc.count ++ [BitVec.ofNat 8 (s.events.maskField / 65536)] ++
    be16 s.events.maskField ++ s.power.shadow.spilled ++ s.dir.entries.flatMap Entry.spilled ++
    s.tables.active.toList.flatMap tableSpilled

/-- The total, modulo 65536, of the 16-bit words of some bytes (R175). The last byte of an odd count, as a spill found with an
odd length field has it, is added as a high byte (DESIGN CHOICE: log entry 20). -/
def wordSum : List Byte → Nat
  | a :: b :: t => (256 * a.toNat + b.toNat + wordSum t) % 65536
  | [a] => (256 * a.toNat) % 65536
  | [] => 0

/-- The pad: one 00h where the count is odd. -/
def padOf (n : Nat) : List Byte := if n % 2 = 1 then [0] else []

/-- The spill from the marker through the pad. -/
def spillSummed (s : State) : List Byte :=
  let b := spillBody s
  let p := padOf b.length
  be16 Config.spillMarker ++ be16 (4 + b.length + p.length) ++ b ++ p

/-- The whole spill, marker to sum. -/
def spillImage (s : State) : List Byte := spillSummed s ++ be16 (wordSum (spillSummed s))

/-- The byte of the DRAM where the reserve of a memory size begins (R75, R178). -/
def reserveAddr (z : MemSize) : Nat := blockAddr (z.blocks - Config.reserveBlocks)

/-! ## Reading (R178) -/

/-- The candidate after one, from 4 MiB down to 512 KiB. -/
def MemSize.nextCandidate : MemSize → Option MemSize
  | .m4 => some .m2
  | .m2 => some .m1
  | .m1 => some .k512
  | .k512 => none

/-- Does a candidate's reserve hold a valid marker, with the candidate's own size code? -/
def candidateHolds (z : MemSize) (m : Memory) : Bool :=
  m.parityAll (reserveAddr z) 2 && m.parityOk (reserveAddr z + 4)
    && beNat (m.readAll (reserveAddr z) 2) = Config.spillMarker && (m.read (reserveAddr z + 4)).toNat = z.code

/-- The spill length field of the bytes read; an odd one is taken as it stands (DESIGN CHOICE: log entry 20). -/
def spillLength (b : List Byte) : Nat := wordAt b 2

/-- Does the spill length fit within the reserve, its sum included? -/
def spillFits (b : List Byte) : Bool := spillLength b + 2 ≤ Config.reserveBlocks * Config.blockBytes

/-- Entry `k` of a spill, 19 bytes from its offset: COMPLETE, with no writer and no reader (R96). -/
def entryOfSpill (b : List Byte) (k : Nat) : Entry :=
  let o := 28 + 19 * k
  { id := byteAt b o, origin := (Origin.ofCode? (byteAt b (o + 1))).getD .scanTx, state := .complete,
    res := (Resolution.ofCode? (byteAt b (o + 3))).getD .std, lineCount := wordAt b (o + 5), headLine := wordAt b (o + 7),
    headOff := wordAt b (o + 9), blockCount := wordAt b (o + 11), first := wordAt b (o + 13), last := wordAt b (o + 15),
    writer := none, truncated := byteAt b (o + 4) % 2 = 1, erasePend := byteAt b (o + 4) / 2 % 2 = 1, printRd := none,
    outRd := none, damaged := wordAt b (o + 17) }

def spillCount (b : List Byte) : Nat := byteAt b 6

/-- The entries of a spill, in their order. -/
def spillEntries (b : List Byte) : List Entry := (List.range (spillCount b)).map (entryOfSpill b)

/-- The images of `n` tables from the front of some bytes, each with its stated length. -/
def tablesOf : Nat → List Byte → List (Nat × List Byte)
  | 0, _ => []
  | n + 1, bs => (wordAt bs 0, sliceOf bs 2 (wordAt bs 0)) :: tablesOf n (bs.drop (2 + wordAt bs 0))

/-- The tables of a spill, by table id. -/
def spillTables (b : List Byte) : List (Nat × List Byte) :=
  tablesOf 14 ((b.take (spillLength b)).drop (28 + 19 * spillCount b))

/-- A table image of a spill. -/
def spillTable (b : List Byte) (id : Fin 14) : List Byte := ((spillTables b).getD id.val (0, [])).2

/-- A block number that lies below N − 16, or is none exactly when the count is 0 (R178). -/
def blockSound (z : MemSize) (count b : Nat) : Bool :=
  if count = 0 then b = noBlock else b + Config.reserveBlocks < z.blocks

/-- Entry `k` of a spill sound (R178). -/
def entrySound (z : MemSize) (b : List Byte) (k : Nat) : Bool :=
  let o := 28 + 19 * k
  1 ≤ byteAt b o && byteAt b (o + 1) ≤ 2 && byteAt b (o + 2) = PageState.complete.code && byteAt b (o + 3) ≤ 2
    && wordAt b (o + 7) ≤ wordAt b (o + 5) && blockSound z (wordAt b (o + 11)) (wordAt b (o + 13))
    && blockSound z (wordAt b (o + 11)) (wordAt b (o + 15))

/-- The tables of a spill sound: each whole, with a length its format allows, SETTINGS present with the size code. R178 asks
no more of an image; what its values then mean is log entry 58's. -/
def tablesSound (z : MemSize) (b : List Byte) : Bool :=
  ((List.finRange 14).all fun id =>
      let t := (spillTables b).getD id.val (0, [])
      t.2.length = t.1 && (t.1 = 0 || tableLengthOk id t.2))
    && spillTable b tSettings ≠ [] && byteAt (spillTable b tSettings) 0 = z.code

/-- Sound contents (R178). -/
def spillSound (z : MemSize) (b : List Byte) : Bool :=
  spillFits b && spillCount b ≤ Config.directoryRoom && decide ((spillEntries b).map Entry.id).Nodup
    && (List.range (spillCount b)).all (entrySound z b)
    && wordAt b 13 + ((spillEntries b).map Entry.blockCount).sum + Config.reserveBlocks = z.blocks
    && blockSound z (wordAt b 13) (wordAt b 7) && blockSound z (wordAt b 13) (wordAt b 11)
    && (wordAt b 9 = noBlock || wordAt b 9 + Config.reserveBlocks < z.blocks)
    && 1 ≤ byteAt b 5 && tablesSound z b

/-- Does the sum of a spill agree? -/
def spillSumOk (b : List Byte) : Bool := wordSum (b.take (spillLength b)) = wordAt b (spillLength b)

/-- The PAGES_LOST reason of a spill that fails, none where it passes: parity, then the sum, then the contents (log entry
19). -/
def spillVerdict (z : MemSize) (b : List Byte) (badParity : Bool) : Option Nat :=
  if badParity then some 3
  else if !spillFits b then some 2
  else if !spillSumOk b then some 1
  else if !spillSound z b then some 2
  else none

/-- Has a spill been read to the end of its sum, or found not to fit? -/
def spillRead (b : List Byte) : Bool := !spillFits b || spillLength b + 2 ≤ b.length

/-! ## Restore (R179) -/

/-- The motor shadow of a spill. -/
def spillShadow (b : List Byte) : Shadow :=
  { sPhase := byteAt b 18, sPos := BitVec.ofNat 32 (longAt b 19), pPhase := byteAt b 23,
    pPos := BitVec.ofNat 32 (longAt b 24) }

/-- The active copies of a spill. -/
def spillActive (b : List Byte) : Vector (Option (List Byte)) 14 :=
  Vector.ofFn fun id => if spillTable b id = [] then none else some (spillTable b id)

/-- The defective-pixel map a spill's SHADING gives (R26). -/
def spillDefective (b : List Byte) : List Nat :=
  if spillTable b tShading = [] then [] else defectiveOf (spillTable b tShading)

/-- A spill's items reinstated (R179): the free list, the directory, the tables, the masks, the motor shadow and, from it,
the channels. -/
def restoreSpill (b : List Byte) (s : State) : State :=
  let s := mapPmc (fun p => { p with head := wordAt b 7, headLink := wordAt b 9, linkKnown := true, tail := wordAt b 11,
                                     count := wordAt b 13 }) s
  let s := { s with dir := { entries := spillEntries b, places := 0, nextId := byteAt b 5 },
                    tables := { active := spillActive b, pending := Vector.replicate 14 none, assembly := none },
                    front := { s.front with defective := spillDefective b },
                    events := s.events.maskAll (beNat (sliceOf b 15 3)) }
  readShadow (spillShadow b) (mapPower (fun p => { p with shadow := spillShadow b }) s)

end Sys2Proof.Machine
end

