-- ==== Sys2Proof/Machine/Power.lean ====
section
/-! DEFINITION. The Power Manager and the Boot Loader (R112, R113, R168 to R183): DOZE, SLEEP and STANDBY, wakes, the
PFAIL sequence, cold starts, RESTART, ROM records. -/

namespace Sys2Proof.Machine

/-! ## The idle timer (R170) -/

/-- The conditions the idle timer runs under. -/
def idleConds (s : State) : Bool :=
  s.power.state = .run && s.boot.state = .ready && s.scanJob.isNone && s.prtJob.isNone && s.front.cal.isNone
    && s.motS.atRest && s.motP.atRest && s.power.returning.isNone && s.power.entry.isNone
    && s.power.pfail = .inactive

/-- The idle timer as it starts: none for an IDLEDOZE of 0. -/
def idleStart (s : State) : Option Nat := if setIdleDoze s = 0 then none else some (setIdleDoze s)

def setIdle (t : Option Nat) : State → State := mapPower fun p => { p with idleTimer := t }

/-- The timer starts as its conditions begin to hold and stops as one ceases. -/
def updateIdle (s : State) : State :=
  if idleConds s then (if s.power.idleTimer.isSome then s else setIdle (idleStart s) s) else setIdle none s

/-- The timer starts again as a record is dispatched. -/
def restartIdle (s : State) : State := setIdle (if idleConds s then idleStart s else none) s

/-! ## Cold start (R177) -/

/-- The state a cold start begins in: every block in its cold-start state (R183), the DRAM out of self-refresh with its
refresh cycle being made (R74, `Pmc.reset`); the DRAM, the lines, the wake section's
kept source and the commands waiting outside stay. -/
def coldStart (s : State) : State :=
  { State.reset with dram := s.dram, lines := s.lines, pending := s.pending,
                     power := { Power.reset with keptSource := s.power.keptSource } }

/-- Both channels in FAULT with a cause (R112). -/
def cutOffBoth (c : Causes) (s : State) : State := { s with motS := s.motS.cutOff c, motP := s.motP.cutOff c }

/-- The cover found open where no motion can be in course: FAULT on both channels, COVER with channel 0 (R113). -/
def coverFound (s : State) : State := cutOffBoth byCover (raise evCover 0 0 0 s)

/-- A power-fail warning before READY: FAULT and the hold at once, with no spill (R176). Where the boot state is RESET it stays
so through the hold, and a cover low then is not found (DESIGN CHOICE: log entry 15). -/
def holdAtOnce (s : State) : State :=
  killGrant (fun b => b = .spill)
    (mapPower (fun p => { p with pfail := .hold })
      (mapPmc (fun p => { p with srPending := some .pfail }) (cutOffBoth byPfail { s with spill := .idle })))

/-- The end of the boot state RESET: BOOTSRC is sampled in STRAP, and SPILLCHECK begins (R177, R178). -/
def leaveReset (s : State) : State :=
  let s := { s with boot := { s.boot with state := .spillcheck, strap := s.lines.bootsrc }, spill := .check .m4 }
  let s := if s.lines.cover then s else coverFound s
  if s.lines.pfail then holdAtOnce s else s

/-- No spill, or one that cannot be taken: ROMLOAD or PORTLOAD by the strap (R178). -/
def noSpill (s : State) : State :=
  { s with spill := .idle, boot := { s.boot with state := if s.boot.strap then .romload else .portload, romPos := 0,
                                                 romSum := 0 } }

/-- READY reached: BOOT with its reason, then WAKE for a kept source (R174, R179, R180, R181). -/
def reachReady (reason : Nat) (s : State) : State :=
  let s := raise evBoot 0 0 reason (mapBoot (fun b => { b with state := .ready, romPos := 0, romSum := 0 }) s)
  match s.power.keptSource with
  | none => s
  | some k => raise evWake 0 0 k (mapPower (fun p => { p with keptSource := none }) s)

/-- The READY order (R181). -/
def orderReady (s : State) : State × ReplyBody :=
  if s.boot.state = .portload then
    if (activeOf tSettings s).isNone then (s, .filled .notable [])
    else (reachReady 1 (startBuild s), .filled .ok [])
  else (s, .filled .state [])

/-! ## ROMLOAD (R18, R180) -/

/-- The image found invalid: ROM_BAD, PORTLOAD. -/
def romBad (s : State) : State :=
  raise evBoot 0 0 3 (mapBoot (fun b => { b with state := .portload, romPos := 0, romSum := 0 }) s)

/-- The payload bytes of a ROM record; bytes the record does not give read FFh, as an absent ROM does. -/
def romPayload (len : Nat) (payload : List Byte) : List Byte :=
  payload.take len ++ List.replicate (len - payload.length) 0xFF

/-- The END record: the image valid or invalid. -/
def romEnd (sub : Byte) (len : Nat) (payload : List Byte) (s : State) : State :=
  if sub = 0 ∧ len = 2 ∧ beNat payload = s.boot.romSum ∧ (activeOf tSettings s).isSome then reachReady 0 (startBuild s)
  else romBad s

/-- A LOAD record of the ROM (R18): answered other than OK or CLAMPED, it makes the image invalid. -/
def romLoad (sub : Byte) (payload : List Byte) (s : State) : State × Bool :=
  if h : sub.toNat < 14 then
    let x := loadSegment ⟨sub.toNat, h⟩ (byteAt payload 0) (byteAt payload 1) (payload.drop 2) s
    (x.1, match x.2 with
      | .filled .ok _ | .filled .clamped _ => true
      | _ => false)
  else (s, false)

/-- The bytes of a ROM record added up. -/
def byteSum (bs : List Byte) : Nat := (bs.map BitVec.toNat).sum

/-- A record read from the serial ROM in ROMLOAD. -/
def romRecord (kind sub : Byte) (len : Nat) (payload : List Byte) (s : State) : State :=
  let pos := s.boot.romPos + 4 + len
  let body := romPayload len payload
  if Config.romLimit < pos then romBad s
  else if kind = kEnd then romEnd sub len body s
  else if kind ≠ kLoad ∨ headerCheck kind sub len ≠ none then romBad s
  else
    let x := romLoad sub body s
    if !x.2 ∨ pos = Config.romLimit then romBad x.1
    else
      mapBoot (fun b => { b with romPos := pos,
                                 romSum := (b.romSum + byteSum ([kind, sub] ++ be16 len ++ body)) % 65536 }) x.1

/-! ## DOZE (R169 to R171) -/

/-- A timer of 0 is none. -/
def timerOf (n : Nat) : Option Nat := if n = 0 then none else some n

/-- Entry to DOZE (R170). -/
def enterDoze (mask : Byte) (timer : Nat) (s : State) : State :=
  mapPower (fun p => { p with state := .doze, mask := mask, wakeTimer := timerOf timer, idleTimer := none })
    (writeShadow (powerDownMotors s))

/-- A 1 ms return to RUN begins, with the WAKE reason to raise at its end (0: none); a return under way stands. -/
def beginReturn (reason : Nat) (s : State) : State :=
  if s.power.returning.isSome then s else mapPower (fun p => { p with returning := some reason }) s

/-- The cover latch of the wake section taken at a wake (R173). -/
def takeLatch (s : State) : State :=
  if s.power.coverLatch then coverFound (mapPower (fun p => { p with coverLatch := false }) s) else s

/-- The core restarts from SLEEP (R173 steps 1 and 2): the DRAM leaves self-refresh with one refresh cycle due at once. -/
def leaveSleep (s : State) : State :=
  readShadow s.power.shadow
    (takeLatch (mapPmc (fun p => { p with selfRefresh := false, refreshDue := true })
      (mapPower (fun p => { p with wakeTimer := none }) s)))

/-- A wake event in SLEEP (R173). -/
def sleepWake (reason : Nat) (s : State) : State :=
  if s.power.returning.isSome then s else beginReturn reason (leaveSleep s)

/-- A wake event in STANDBY (R174): PWRDN falls and a cold start begins, the source kept. -/
def standbyWake (reason : Nat) (s : State) : State :=
  coldStart (mapPower (fun p => { p with keptSource := some reason }) s)

/-- A wake event in whatever power state it finds. -/
def wakeEvent (reason : Nat) (s : State) : State :=
  match s.power.state with
  | .run => s
  | .doze => beginReturn reason s
  | .sleep => sleepWake reason s
  | .standby => standbyWake reason s

/-- A wake line of the mask's bit rises (R171 to R174): marked during an entry, else a wake event where its bit is in the
mask. -/
def wakeRise (bit reason : Nat) (mark : Risen → Risen) (s : State) : State :=
  match s.power.entry with
  | some e => mapPower (fun p => { p with entry := some { e with risen := mark e.risen } }) s
  | none => if s.power.mask.getLsbD bit then wakeEvent reason s else s

/-- RUN reached after a return (R171, R173). -/
def runReached (s : State) : State :=
  match s.power.returning with
  | none => s
  | some r =>
    let s := mapPower (fun p => { p with state := .run, returning := none, wakeTimer := none })
      (readShadow s.power.shadow s)
    if r = 0 then s else raise evWake 0 0 r s

/-! ## The POWER order (R169, R172, R174) -/

/-- Does the state of jobs, calibration and channels refuse a POWER order with BUSY (R169)? -/
def powerBusy (sleep : Bool) (s : State) : Bool :=
  s.scanJob.isSome || s.prtJob.isSome || (sleep && (s.intJob.isSome || s.outJob.isSome)) || s.front.cal.isSome
    || s.motS.moving || s.motP.moving

/-- A SLEEP or STANDBY entry begins (R172). -/
def beginEntry (standby : Bool) (mask : Byte) (timer : Nat) : State → State :=
  mapPower fun p =>
    { p with idleTimer := none, wakeTimer := none,
             entry := some { standby := standby, mask := mask, timer := timer, fromDoze := decide (p.state = .doze),
                             risen := { ring := false, key := false, docp := false }, stage := .waitReply, found := 0 } }

/-- POWER DOZE taken: entered, or in DOZE the mask replaced and the timer restarted (R169). -/
def takeDoze (mask : Byte) (timer : Nat) (s : State) : State :=
  if s.power.state = .doze then mapPower (fun p => { p with mask := mask, wakeTimer := timerOf timer }) s
  else enterDoze mask timer s

/-- The POWER order (R169). -/
def orderPower (p : List Byte) (s : State) : State × ReplyBody :=
  let mask := p.getD 1 0
  let timer := byteAt p 2
  match byteAt p 0 with
  | 1 => if powerBusy false s then (s, .filled .busy []) else (takeDoze mask timer s, .filled .ok p)
  | 2 => if powerBusy true s then (s, .filled .busy []) else (beginEntry false mask timer s, .filled .ok p)
  | 3 => if powerBusy true s then (s, .filled .busy []) else (beginEntry true mask timer s, .filled .ok p)
  | _ => (s, .filled .badarg [])

/-! ## The entry (R172, R174) -/

/-- The first active source of an entry's mask, in the order RING, KEY, DOCP (R172). -/
def activeSource (e : SleepEntry) (l : Lines) : Option Nat :=
  if e.mask.getLsbD 0 && (l.ring || e.risen.ring) then some 1
  else if e.mask.getLsbD 1 && (l.key || e.risen.key) then some 2
  else if e.mask.getLsbD 2 && e.risen.docp then some 3
  else none

/-- An entry abandoned for a source (R172): RUN with WAKE at once, or by the 1 ms return where it began in DOZE. -/
def abandonEntry (fromDoze : Bool) (source : Nat) (s : State) : State :=
  let s := mapPower (fun p => { p with entry := none }) s
  if fromDoze then beginReturn (128 + source) s else raise evWake 0 0 (128 + source) s

def setStage (st : EntryStage) : State → State :=
  mapPower fun p => { p with entry := p.entry.map fun e => { e with stage := st } }

/-- The DRAM is to be placed in self-refresh once the grant in progress ends (R74). -/
def askSelfRefresh (why : SelfRefreshFor) : State → State := mapPmc fun p => { p with srPending := some why }

/-- Step 3 of an entry and what follows it: the shadow, HOLD to OFF, the temperature stale; then self-refresh, or the
spill for STANDBY. -/
def passCheck (e : SleepEntry) (s : State) : State :=
  let s := writeShadow (powerDownMotors (mapTemp (fun t => { t with fresh := false, age := none }) s))
  if e.standby then setStage .spilling { s with spill := .await .standby }
  else setStage .selfRefresh (askSelfRefresh .sleep s)

/-- SLEEP_ENTRY: the POWER reply has been read (R172 steps 1 and 2). -/
def entryGoesOn (s : State) : State :=
  match s.power.entry with
  | none => s
  | some e =>
    if e.stage = .waitReply ∧ s.port.replies = [] then
      match activeSource e s.lines with
      | some k => abandonEntry e.fromDoze k s
      | none => passCheck e s
    else s

/-- The spill of a STANDBY entry is written: the second check (R174 step 5). -/
def standbySpilled (s : State) : State :=
  match s.power.entry with
  | none => s
  | some e =>
    match activeSource e s.lines with
    | some k =>
      mapPower (fun p => { p with entry := some { e with stage := .clearing, found := k } })
        { s with spill := .clearMarker (setMemSize s) .abandoned }
    | none => setStage .selfRefresh (askSelfRefresh .standby s)

/-- The marker of an abandoned STANDBY's spill is cleared (R174). -/
def standbyAbandoned (s : State) : State :=
  match s.power.entry with
  | none => s
  | some e => abandonEntry e.fromDoze e.found s

/-! ## Self-refresh (R74) -/

/-- SLEEP or STANDBY reached: the mask and the timer of the order stand (R172 step 5, R174 step 7). -/
def reachPower (st : PowerState) (e : SleepEntry) : State → State :=
  mapPower fun p => { p with state := st, mask := e.mask, wakeTimer := timerOf e.timer, idleTimer := none, entry := none,
                             pwrdn := decide (st = .standby) }

/-- The PFAIL hold reached; a warning already withdrawn leads to the cold start (R176). -/
def reachHold (s : State) : State :=
  let s := mapPower (fun p => { p with pfail := .hold }) s
  if s.lines.pfail then s else coldStart s

/-- The DRAM enters self-refresh, and with it the state it was asked for (R74). -/
def enterSelfRefresh (why : SelfRefreshFor) (s : State) : State :=
  let s := abandonDiag (mapPmc (fun p => { p with selfRefresh := true, srPending := none, refreshDue := false }) s)
  match why, s.power.entry with
  | .sleep, some e => reachPower .sleep e s
  | .standby, some e => reachPower .standby e s
  | .pfail, _ => reachHold s
  | .sleep, none => s
  | .standby, none => s

/-! ## Ending everything -/

/-- The coder contexts' requests and waits withdrawn, with no policy applied (R69, R76, R81). -/
def withdrawWaits (s : State) : State :=
  let off (c : Coder) : Coder :=
    { c with st := if c.st = .memwait then .coding else c.st, timer := none, dirWait := none, asking := false }
  { s with scanCd := off s.scanCd, intakeCd := off s.intakeCd }

/-- The ids of the FILLING pages, oldest first: the order in which RESTART and PFAIL take them (DESIGN CHOICE: R94 and R95
give none; log entry 43). -/
def fillingIds (s : State) : List Nat := (s.dir.entries.filter fun e => e.state = .filling).map Entry.id

/-- The ids of all pages, oldest first. -/
def pageIds (s : State) : List Nat := s.dir.entries.map Entry.id

/-- A FILLING page completed by the PFAIL sequence (R95 step 1). -/
def completeAtPfail (s : State) (id : Nat) : State :=
  if s.scanCd.page = some id then completePage .scan true true s
  else if s.intakeCd.page = some id then completePage .intake true true s
  else settleEmpty id (markComplete id true s)

/-- Both readers of a page removed and the page settled (R90): the print reader first (DESIGN CHOICE; log entry 43). -/
def dropReaders (s : State) (id : Nat) : State := removeReader .output id (removeReader .print id s)

/-- A calibration abandoned (R43). -/
def abandonCalibration (s : State) : State :=
  if s.front.cal.isSome then fillReplies .calibrating .state [] (mapFront (fun f => { f with cal := none }) s) else s

/-- The rings emptied, the contexts IDLE, the jobs gone, LAMP low, no event raised (R51, R55, R60, R135, R156, R167). -/
def dropJobs (s : State) : State :=
  let s := mapFront (fun f => { f with lamp := false }) (abandonCalibration s)
  let s := clearIntakeLine (emptyOutputRing (emptyPrintRing (emptyIntakeRing (emptyScanRing s))))
  let s := idleDecoder .output (idleDecoder .print (idleCoder .intake (idleCoder .scan s)))
  { s with scanJob := none, intJob := none, prtJob := none, outJob := none }

/-- The jobs end and the directory settles its pages within the PFAIL sequence (R95, R176 step 3): the FILLING pages and then
the readers of all pages, oldest page first (log entry 43). -/
def endAtPfail (s : State) : State :=
  let s := withdrawWaits s
  let s := (fillingIds s).foldl completeAtPfail s
  dropJobs (releasePlace ((pageIds s).foldl dropReaders s))

/-- The jobs end and the directory settles its pages under RESTART (R94, R182): the FILLING pages and then the readers of all
pages, oldest page first (log entry 43). -/
def endAtRestart (s : State) : State :=
  let s := withdrawWaits s
  let s := (fillingIds s).foldl (fun s id => discardPage id true s) s
  dropJobs (releasePlace ((pageIds s).foldl dropReaders s))

/-! ## PFAIL (R176) -/

/-- The Power Manager's own state as a PFAIL sequence begins (R183). A return to RUN under way ends with it, and the WAKE it
was to raise is not raised (DESIGN CHOICE: log entry 54). -/
def pfailPower : State → State :=
  mapPower fun p => { p with state := .run, mask := 0, wakeTimer := none, idleTimer := none, returning := none,
                             entry := none, pfail := .sequence }

/-- Has a STANDBY entry reached its spill, so that a warning keeps what is written (R174)? -/
def spillBegun (s : State) : Bool :=
  match s.power.entry with
  | none => false
  | some e => e.standby && (e.stage = .spilling || e.stage = .selfRefresh)

/-- The sequence from a state with the core running (R174, R176). -/
def pfailSequence (s : State) : State :=
  let s := cutOffBoth byPfail s
  if spillBegun s then
    pfailPower (if s.pmc.srPending.isSome then askSelfRefresh .pfail s else s)
  else
    let s := pfailPower (endAtPfail s)
    writeShadow (killGrant (fun b => b = .spill)
      { s with spill := .await .pfail, pmc := { s.pmc with srPending := none } })

/-- PFAIL rises (R174, R176). -/
def pfailRises (s : State) : State :=
  if s.power.pfail ≠ .inactive ∨ s.power.state = .standby then s
  else if s.boot.state ≠ .ready then holdAtOnce s
  else if s.power.state = .sleep ∧ s.power.returning = none then pfailSequence (leaveSleep s)
  else pfailSequence s

/-! ## COVER (R112, R113, R173) -/

/-- COVER falls: latched in SLEEP, seen at the next wake or cold start in STANDBY and in the boot state RESET, else FAULT
on both channels at once, the motions cut off and their jobs told. In a PFAIL hold begun in the boot state RESET it changes
the level alone, with no cause and no event in that hold (DESIGN CHOICE: log entry 15). -/
def coverOpened (s : State) : State :=
  if s.power.state = .standby ∨ s.boot.state = .reset then s
  else if s.power.state = .sleep ∧ s.power.returning = none then
    mapPower (fun p => { p with coverLatch := true }) s
  else
    printFaulted (printOwed s.motP) (scanFaulted (cutOffBoth byCover (raise evCover 0 (movingChannels s) 0 s)))

/-! ## RESTART (R182) -/

/-- The Scan Front after RESTART (R44). -/
def restartFront : State → State :=
  mapFront fun f => { f with errorRow := List.replicate 1728 0, ditherRow := 0, ditherCol := 0, comp := none }

/-- The channels after RESTART (R118): OFF, pending motor tables applied, FAULT again while the cover is open. -/
def restartMotors (s : State) : State :=
  let s := applyMotorTables { s with motS := s.motS.restarted, motP := s.motP.restarted }
  if s.lines.cover then s else cutOffBoth byCover s

/-- Diagnostic accesses outstanding end (R190). -/
def restartDiag (s : State) : State := killGrant (fun b => b = .diag) (abandonDiag s)

/-- The RESTART order (R182): the wake mask and timer cleared; from DOZE by the 1 ms return. -/
def orderRestart (s : State) : State × ReplyBody :=
  let s := restartMotors (restartDiag (restartFront (endAtRestart s)))
  let s := mapPower (fun p => { p with mask := 0, wakeTimer := none }) s
  (if s.power.state = .doze then beginReturn 0 s else s, .filled .ok [])

end Sys2Proof.Machine
end

