-- ==== Sys2Proof/Machine/Arbiter.lean ====
section
/-! DEFINITION. The DRAM arbiter (R71 to R74), the bursts it grants, and the spill engine's work (R175, R178, R179). -/

namespace Sys2Proof.Machine

/-! ## The spill engine -/

/-- A wait of the spill engine for list upkeep and a list build ends (R67, R176 step 4): the spill is made from the state
as it stands, its marker to be written last (R175). -/
def spillReady (s : State) : State :=
  match s.spill with
  | .await why =>
    if s.pmc.upkeep = [] ∧ s.pmc.build = none then { s with spill := .write why 2 ((spillImage s).drop 2) } else s
  | _ => s

/-- Has the spill engine a burst to make? -/
def spillWants (s : State) : Bool :=
  match s.spill with
  | .idle => false
  | .await _ => false
  | .check _ | .read _ _ _ | .restore _ _ | .clearMarker _ _ | .write _ _ _ | .writeMarker _ => true

/-- SPILLCHECK at one candidate (R178). -/
def checkCandidate (z : MemSize) (s : State) : State :=
  if candidateHolds z s.dram then { s with spill := .read z [] false }
  else
    match z.nextCandidate with
    | some z' => { s with spill := .check z' }
    | none => noSpill s

/-- The bytes of the next read burst of a spill, of which `got` have been read. The first burst is of 16 bytes whatever length
they state, so that a parity failure beyond a length below 14 and its sum counts (DESIGN CHOICE: log entry 20). -/
def spillStep (got : List Byte) : Nat :=
  if got.length < Config.burstUnits then Config.burstUnits - got.length
  else min Config.burstUnits (spillLength got + 2 - got.length)

/-- A burst of the spill read in SPILLCHECK; the whole spill judged at its end (R178). -/
def readSpill (z : MemSize) (got : List Byte) (bad : Bool) (s : State) : State :=
  let a := reserveAddr z + got.length
  let b := got ++ s.dram.readAll a (spillStep got)
  let bad := bad || !s.dram.parityAll a (spillStep got)
  if spillRead b then
    match spillVerdict z b bad with
    | none => { s with spill := .restore z [], boot := { s.boot with state := .restore } }
    | some r => noSpill (raise evPagesLost 0 0 r s)
  else { s with spill := .read z b bad }

/-- A burst of the second read (R179): a parity failure abandons the restore; the end reinstates the spill. What is
reinstated is a spill that passes R178, as the first read found it (log entry 20). -/
def rereadSpill (z : MemSize) (got : List Byte) (s : State) : State :=
  let a := reserveAddr z + got.length
  let b := got ++ s.dram.readAll a (spillStep got)
  if !s.dram.parityAll a (spillStep got) then { s with spill := .clearMarker z .lost }
  else if spillRead b then
    if spillVerdict z b false = none then { restoreSpill b s with spill := .clearMarker z .restored }
    else { s with spill := .clearMarker z .lost }
  else { s with spill := .restore z b }

/-- The marker written to 0000h, and what follows (R174, R179). -/
def clearMarker (z : MemSize) (next : AfterClear) (s : State) : State :=
  let s := { mapDram (·.writeAll (reserveAddr z) false (be16 0)) s with spill := .idle }
  match next with
  | .restored => reachReady 2 s
  | .lost => noSpill (raise evPagesLost 0 0 3 s)
  | .abandoned => standbyAbandoned s

/-- A burst of the spill's writing (R175). -/
def writeSpill (why : SpillFor) (off : Nat) (todo : List Byte) (s : State) : State :=
  let n := min Config.burstUnits (Config.blockBytes - off % Config.blockBytes)
  let s := mapDram (·.writeAll (reserveAddr (setMemSize s) + off) false (todo.take n)) s
  { s with spill := if (todo.drop n).isEmpty then .writeMarker why else .write why (off + n) (todo.drop n) }

/-- The marker written last (R175); then self-refresh for a power-fail warning, or the second check of STANDBY (R174). -/
def writeMarker (s : State) : State :=
  let s := { mapDram (·.writeAll (reserveAddr (setMemSize s)) false (be16 Config.spillMarker)) s with spill := .idle }
  if s.power.pfail = .inactive then standbySpilled s else askSelfRefresh .pfail s

/-- A burst of the spill engine. -/
def spillBurst (s : State) : State :=
  match s.spill with
  | .idle => s
  | .check z => checkCandidate z s
  | .read z got bad => readSpill z got bad s
  | .restore z got => rereadSpill z got s
  | .clearMarker z next => clearMarker z next s
  | .await _ => s
  | .write why off todo => writeSpill why off todo s
  | .writeMarker _ => writeMarker s

/-! ## The coders' bursts -/

/-- What follows a coded line (R54, R82, R83, R129): the longest page is completed truncated and its job ends, the line
marked last-of-page completes its page. -/
def afterLine (ctx : CoderCtx) (wasLast : Bool) (s : State) : State :=
  if pageOverlong ctx s then
    match ctx with
    | .scan => scanDecision 5 .keep (some 1) s
    | .intake => endIntake 4 (completePage .intake true false s)
  else if wasLast then completePage ctx false false s
  else s

/-- A coder's units have been written (R54): the write position moves on; the line ends, or a block is asked for. -/
def unitsWritten (ctx : CoderCtx) (n : Nat) (s : State) : State :=
  let s := mapCoder ctx (fun c => { c with todo := c.todo.drop n, wpos := c.wpos + n }) s
  if (coderOf ctx s).todo.isEmpty then afterLine ctx (headIsLast ctx s) (lineCoded ctx s)
  else if (coderOf ctx s).wpos = Config.blockUnits then askBlock ctx s
  else s

/-! ## Choosing and granting (R71, R72) -/

/-- The burst of the waiting requester highest in the table, if any waits. -/
def nextBurst (s : State) : Option Burst :=
  if s.pmc.refreshDue then some .refresh
  else
    match upkeepOrder s.pmc.upkeep with
    | op :: _ => some (.upkeep op)
    | [] =>
      if s.printDec.any (·.reading.isSome) then some (.decode .print)
      else if coderWants .scan s then some (coderBurst .scan s)
      else if coderWants .intake s then some (coderBurst .intake s)
      else if s.outDec.any (·.reading.isSome) then some (.decode .output)
      else if spillWants s then some .spill
      else if s.pmc.build.isSome then some .build
      else if s.diagQ.isEmpty then none
      else some .diag

/-- Is the burst a list upkeep access? -/
def Burst.ofUpkeep : Burst → Bool
  | .upkeep _ => true
  | .refresh | .lastRefresh | .decode _ | .code _ _ _ | .build | .spill | .diag => false

/-- A grant begins; a refresh cycle that was due is then being made, and an upkeep access made is the first of those waiting. -/
def grantBurst (b : Burst) : State → State :=
  mapPmc fun p => { p with grant := some { burst := b, live := true },
                           refreshDue := p.refreshDue && b ≠ .refresh && b ≠ .lastRefresh,
                           upkeep := if b.ofUpkeep then upkeepOrder p.upkeep else p.upkeep }

/-- The port, when free, makes the last refresh cycle where self-refresh is asked for (R74), else goes to the highest waiting
requester. -/
def arbitrate (s : State) : State :=
  let s := spillReady s
  if s.pmc.grant.isSome || s.pmc.selfRefresh then s
  else
    match s.pmc.srPending with
    | some _ => grantBurst .lastRefresh s
    | none =>
      match nextBurst s with
      | none => s
      | some b => grantBurst b s

/-- The last refresh cycle has been made: the DRAM is placed in self-refresh, where that is still asked for (R74). -/
def lastRefreshMade (s : State) : State :=
  match s.pmc.srPending with
  | none => s
  | some why => enterSelfRefresh why s

/-- The burst of a grant that ends, delivered to its requester. Units of a coder whose work has ended still reach the
DRAM (R76). -/
def deliver (g : Grant) (s : State) : State :=
  match g.burst with
  | .refresh => s
  | .lastRefresh => lastRefreshMade s
  | .upkeep op => doUpkeep op (mapPmc (fun p => { p with upkeep := p.upkeep.drop 1 }) s)
  | .decode ctx => if g.live then decodeBurst ctx s else s
  | .code ctx a us =>
    let s := mapDram (·.writeAll a false us) s
    if g.live then unitsWritten ctx us.length s else s
  | .build => if g.live then doBuild s else s
  | .spill => if g.live then spillBurst s else s
  | .diag => if g.live then diagBurst s else s

/-- The grant in course ends (R72). -/
def endGrant (s : State) : State :=
  match s.pmc.grant with
  | none => s
  | some g => deliver g (mapPmc (fun p => { p with grant := none }) s)

/-- A refresh cycle falls due (R73): only while the refresh timer runs. -/
def refreshFalls (s : State) : State :=
  if s.pmc.selfRefresh then s else mapPmc (fun p => { p with refreshDue := true }) s

end Sys2Proof.Machine
end

