-- ==== Sys2Proof/Machine/Settle.lean ====
section
/-! DEFINITION. What comes about at once after a command's own effect, within the same step (95_what_each_step_holds):
waits that end, jobs that close, restarts, table boundaries, the idle timer, the next grant. -/

namespace Sys2Proof.Machine

/-- The memory wait of a context expires (R69, R131, R160). -/
def memExpire (ctx : CoderCtx) (s : State) : State :=
  if (coderOf ctx s).st = .memwait then
    match ctx with
    | .scan => scanMemExpiry s
    | .intake => intakeMemExpiry s
  else s

/-- The directory wait of a context expires (R81, R130, R160). -/
def dirExpire (ctx : CoderCtx) (s : State) : State :=
  match ctx with
  | .scan => scanDirExpiry s
  | .intake => intakeDirExpiry s

/-- The waits of a context that began with MEMWAIT 0 expire at once (R69, R81). -/
def zeroWait (ctx : CoderCtx) (s : State) : State :=
  let s := if (coderOf ctx s).timer = some 0 then memExpire ctx s else s
  if (coderOf ctx s).dirWait = some 0 then dirExpire ctx s else s

def zeroWaits (s : State) : State := zeroWait .intake (zeroWait .scan s)

/-- One round over the jobs. -/
def settleJobs (s : State) : State :=
  settleRoom (settleOutput (settlePrint (settlePass .output (settlePass .print (settleIntake (zeroWaits
    (settleScanRestart s)))))))

/-- Everything that follows at once. The second round takes up what the room and the blocks freed in the first let
begin. -/
def settle (s : State) : State :=
  arbitrate (updateIdle (applyMotorTables (settleScanEnd (settleScanRestart (settleJobs (settleJobs s))))))

end Sys2Proof.Machine
end

