-- ==== Sys2Proof/Machine/Port.lean ====
section
/-! DEFINITION. The Line Port (R1 to R10, R16): the handshake, framing, dispatch, queries, EVACK, the outbound side; the
orders CALIBRATE (R40), RESUME (R114), MOVE (R109) and STOP. -/

namespace Sys2Proof.Machine

/-! ## RDY and ATTN (R1, R8) -/

/-- Is a record partly received (R1)? -/
def Inbound.begun : Inbound → Bool
  | .receiving bs => !bs.isEmpty
  | .draining _ _ _ _ => true
  | .held _ => false

def Inbound.isHeld : Inbound → Bool
  | .held _ => true
  | .receiving _ => false
  | .draining _ _ _ _ => false

/-- The RDY line (R1). -/
def rdy (s : State) : Bool :=
  !s.port.inbound.isHeld && (s.port.replies.length < Config.replyCapacity || s.port.inbound.begun)
    && s.power.returning.isNone && s.power.entry.isNone && (s.power.state = .run || s.power.state = .doze)
    && s.power.pfail = .inactive && (s.boot.state = .portload || s.boot.state = .ready)

/-- Is the reply of the oldest entry ready to be offered (R4)? -/
def replyReady (s : State) : Bool :=
  match s.port.replies with
  | { body := .filled _ _, .. } :: _ => true
  | _ => false

/-- Is something waiting to be offered (R8)? -/
def outWaiting (s : State) : Bool := replyReady s || !s.events.queue.isEmpty || 0 < s.rings.output.occ

/-- The ATTN line (R8); low in SLEEP and STANDBY (R168) and in the return from SLEEP (R173). -/
def attn (s : State) : Bool :=
  (s.power.state = .run || s.power.state = .doze) && (s.port.course.isSome || outWaiting s)

/-- The RSTOUT line (R176, R177). -/
def rstout (s : State) : Bool := s.boot.state ≠ .ready || s.power.pfail ≠ .inactive

/-! ## Other output lines that follow the state -/

/-- The ROMCS line: high but in ROMLOAD (R177, R180), a PFAIL hold begun in ROMLOAD included (DESIGN CHOICE: log entry 16). -/
def romcs (s : State) : Bool := s.boot.state ≠ .romload

/-- ROMCK: running at 4 MHz while the image is read (R180), and in a PFAIL hold begun in ROMLOAD, in which no further record
is taken (DESIGN CHOICE: log entry 16). -/
def romck (s : State) : Bool := s.boot.state = .romload

/-- What the Boot Loader sends on ROMDO once it has lowered ROMCS: the read command byte and the address 0000h; nothing
outside ROMLOAD (R180). -/
def romdo (s : State) : List Byte := if s.boot.state = .romload then 0x03 :: be16 0 else []

/-- Is a sensor readout in course, with SCLK running (R19, R41)? -/
def sclkRuns (s : State) : Bool :=
  s.front.comp.isSome ||
    match s.front.cal with
    | none => false
    | some c => c.stage ≠ .lampWait

/-- The strobe state of the head (R148). -/
def headStrobe (s : State) : Option Strobe :=
  match s.prtJob with
  | none => none
  | some j => j.strobe

/-- The dots being shifted on HDAT with HCLK, if a shift is in course (R148). -/
def headShift (s : State) : Option Line :=
  match headStrobe s with
  | none => none
  | some t => if t.shifting then (t.todo.head?).map HeadPhase.dots else none

/-- The strobe lines STB1 to STB4, STB1 in bit 0 (R148). -/
def strobeLines (s : State) : BitVec 4 :=
  match headStrobe s with
  | none => 0
  | some t =>
    match t.line with
    | none => 0
    | some g => BitVec.ofNat 4 (2 ^ g)

/-! ## Queries (R16) -/

/-- One channel of the STATUS answer. -/
def channelStatus (m : Motor) : List Byte :=
  be8 m.state.code ++ be8 m.slewReq ++ be8 m.slewEff ++ be8 m.atSpeed.toNat ++ be32 m.pos.toNat

/-- The STATUS answer, 25 bytes. -/
def statusAnswer (s : State) : List Byte :=
  be8 s.boot.state.code ++ be8 s.power.state.code ++ be8 (scanStatus s) ++ be8 (intakeStatus s) ++ be8 (printStatus s) ++
    be8 (outputStatus s) ++ channelStatus s.motS ++ channelStatus s.motP ++ be16 (freeCount s) ++
    be8 s.dir.entries.length

/-- The reader fields of a page entry: FFFFh where the reader is absent. -/
def readerBytes (r : Option Reader) : List Byte :=
  match r with
  | none => be16 0xFFFF ++ be16 0xFFFF
  | some r => be16 r.linePos ++ be16 r.block

/-- The code of a page's writer. -/
def writerCode : Option CoderCtx → Nat
  | none => 0
  | some .scan => 1
  | some .intake => 2

/-- The PAGE answer, 26 bytes. -/
def pageAnswer (e : Entry) : List Byte :=
  be8 e.id ++ be8 e.origin.code ++ be8 e.state.code ++ be8 e.res.code ++ be16 e.lineCount ++ be16 e.headLine ++
    be16 e.blockCount ++ be16 e.first ++ be16 e.last ++ be8 (writerCode e.writer) ++ be8 e.flags ++
    readerBytes e.printRd ++ readerBytes e.outRd ++ be16 e.damaged

/-- The DIR answer. -/
def dirAnswer (s : State) : List Byte := be8 s.dir.entries.length ++ s.dir.entries.flatMap fun e => be8 e.id

/-- The MEM answer. -/
def memAnswer (s : State) : List Byte := be16 (freeCount s) ++ be16 (nBlocks s) ++ be16 Config.reserveBlocks

/-- The bytes of an image one TABLE segment carries at most. -/
def querySegment : Nat := 2040

/-- The TABLE answer for a segment of an image. -/
def tableAnswer (id : Fin 14) (pending : Bool) (seg : Nat) (img : List Byte) : List Byte :=
  be8 id.val ++ be8 pending.toNat ++ be8 seg ++
    be8 (if img.length ≤ querySegment * (seg + 1) then 1 else 0) ++ be16 img.length ++
    sliceOf img (querySegment * seg) querySegment

def queryPage (id : Nat) (s : State) : ReplyBody :=
  match entryOf id s with
  | none => .filled .nopage []
  | some e => .filled .ok (pageAnswer e)

def queryTable (id copy seg : Nat) (s : State) : ReplyBody :=
  if h : id < 14 then
    match flagOf? copy with
    | none => .filled .badarg []
    | some pending =>
      match copyOf pending ⟨id, h⟩ s with
      | none => .filled .notable []
      | some img =>
        if img.length ≤ querySegment * seg then .filled .badarg []
        else .filled .ok (tableAnswer ⟨id, h⟩ pending seg img)
  else .filled .badarg []

/-- A QUERY, answered from the state as it stands. -/
def queryBody (sub : Nat) (p : List Byte) (s : State) : ReplyBody :=
  match sub with
  | 1 => .filled .ok (statusAnswer s)
  | 2 => queryPage (byteAt p 0) s
  | 3 => .filled .ok (dirAnswer s)
  | 4 => queryTable (byteAt p 0) (byteAt p 1) (byteAt p 2) s
  | 5 => .filled .ok (memAnswer s)
  | _ => .filled .kind []

/-! ## EVACK (R3, R186) -/

/-- Is the record of the event at the head of the queue partly read? -/
def eventBegun (s : State) : Bool :=
  match s.port.course with
  | none => false
  | some c => c.source = .event

/-- The flag numbers a payload lists; none where one is 20 or more. -/
def flagList? : List Byte → Option (List (Fin 20))
  | [] => some []
  | b :: t => if h : b.toNat < 20 then (flagList? t).map (⟨b.toNat, h⟩ :: ·) else none

def orderEvack (p : List Byte) (s : State) : State × ReplyBody :=
  match flagList? p with
  | none => (s, .filled .badarg [])
  | some fs =>
    let a := s.events.ackAll (eventBegun s) fs
    ({ s with events := a.1 }, .filled .ok a.2)

/-! ## CALIBRATE, RESUME, MOVE, STOP -/

/-- The CALIBRATE order (R40, R41): its reply waits until the calibration ends. -/
def orderCalibrate (s : State) : State × ReplyBody :=
  if s.front.cal.isSome || s.scanJob.isSome || !s.motS.atRest then (s, .filled .busy [])
  else
    (mapFront (fun f => { f with lamp := false,
                                 cal := some { stage := .dark 0, sums := List.replicate 1728 0, black := [] } }) s,
      .calibrating)

/-- The RESUME order (R114, R152). -/
def orderResume (p : List Byte) (s : State) : State × ReplyBody :=
  match channelOf? (byteAt p 0) with
  | none => (s, .filled .badarg [])
  | some ch =>
    if (motorOf ch s).faulted then
      if s.lines.cover && !s.lines.pfail then
        (mapMotor ch Motor.clear s, .filled .ok (p.take 1 ++ be8 (motorOf ch s).causes.code))
      else (s, .filled .state [])
    else
      match ch with
      | .S => (s, .filled .state [])
      | .P => printResume (p.take 1) s

/-- Is a job on a channel (R109)? -/
def jobOn (ch : Channel) (s : State) : Bool :=
  match ch with
  | .S => s.scanJob.isSome || s.front.cal.isSome
  | .P => s.prtJob.isSome

/-- Are a channel's ramp and phase tables present? -/
def motorTables (ch : Channel) (s : State) : Bool :=
  match ch with
  | .S => (activeOf tSramp s).isSome && (activeOf tSphase s).isSome
  | .P => (activeOf tPramp s).isSome && (activeOf tPphase s).isSome

/-- The MOVE order (R109, R110). -/
def orderMove (p : List Byte) (s : State) : State × ReplyBody :=
  match channelOf? (byteAt p 0), flagOf? (byteAt p 1) with
  | some ch, some rev =>
    if !(motorOf ch s).atRest || jobOn ch s then (s, .filled .busy [])
    else if !motorTables ch s then (s, .filled .notable [])
    else
      let steps := max 1 (wordAt p 2)
      let slew := min (byteAt p 4) (rampCount (rampTable ch s) - 1)
      (takeRun ch .move rev slew slew (some steps) s,
        .filled (if steps = wordAt p 2 ∧ slew = byteAt p 4 then .ok else .clamped) (p.take 2 ++ be16 steps ++ be8 slew))
  | _, _ => (s, .filled .badarg [])

/-- The STOP order, by its job (R132, R154, R161, R166). -/
def orderStop (p : List Byte) (s : State) : State × ReplyBody :=
  match flagOf? (byteAt p 1) with
  | none => (s, .filled .badarg [])
  | some keep =>
    match byteAt p 0 with
    | 0 => orderStopScan keep p s
    | 1 => orderStopIntake keep p s
    | 2 => orderStopPrint p s
    | 3 => orderStopOutput p s
    | _ => (s, .filled .badarg [])

/-! ## Dispatch (R3) -/

/-- An ORDER, by its code. -/
def actOrder (code : Nat) (p : List Byte) (s : State) : State × ReplyBody :=
  match code with
  | 0x01 => orderCalibrate s
  | 0x02 => orderScan p s
  | 0x03 => orderIntake p s
  | 0x04 => orderIntakeEnd s
  | 0x05 => orderOutput p s
  | 0x06 => orderPrint p s
  | 0x07 => orderErase p s
  | 0x08 => orderStop p s
  | 0x09 => orderResume p s
  | 0x0A => orderMove p s
  | 0x0B => orderTemp (p.getD 0 0) s
  | 0x0C => orderPower p s
  | 0x0D => orderReady s
  | 0x0E => orderRestart s
  | _ => (s, .filled .kind [])

/-- A LOAD record, its table id known to the catalogue. -/
def actLoad (sub : Byte) (p : List Byte) (s : State) : State × ReplyBody :=
  if h : sub.toNat < 14 then loadSegment ⟨sub.toNat, h⟩ (byteAt p 0) (byteAt p 1) (p.drop 2) s
  else (s, .filled .kind [])

/-- What a DIAG payload asks (R188). -/
def diagAsk (sub : Byte) (p : List Byte) : DiagAsk :=
  if sub = 0 then .read (wordAt p 5) else .write (decide (sub = 2)) (p.drop 5)

/-- A DIAG record. -/
def actDiag (sub : Byte) (p : List Byte) (s : State) : State × ReplyBody :=
  orderDiag (byteAt p 0) (wordAt p 1) (wordAt p 3) (diagAsk sub p) s

/-- A record's answer joins the reply queue (R4). -/
def answer (r : Record) (x : State × ReplyBody) : State := pushReply r.kind r.sub x.2 x.1

/-- A LINE record: refused with a reply, or accepted with none (R7). -/
def actLine (r : Record) (s : State) : State :=
  match lineRefusal r.payload s with
  | some st => answer r (s, .filled st [])
  | none => acceptLine (decide (r.sub = 1)) r.payload s

/-- May a record be dispatched in PORTLOAD (R3, R181)? -/
def portloadTakes (r : Record) : Bool := r.kind = kLoad || r.kind = kQuery || (r.kind = kOrder && r.sub = 0x0D)

/-- The record's own effect and what follows from it at once, by its owner (R3). A record that passed its header check is of one of
the kinds named (R2). -/
def act (r : Record) (s : State) : State :=
  if s.boot.state = .portload ∧ portloadTakes r = false then answer r (s, .filled .state [])
  else if r.kind = kLine then actLine r s
  else if r.kind = kLoad then arbitrate (answer r (actLoad r.sub r.payload s))
  else if r.kind = kQuery then answer r (s, queryBody r.sub.toNat r.payload s)
  else if r.kind = kEvack then answer r (orderEvack r.payload s)
  else if r.kind = kDiag then arbitrate (answer r (actDiag r.sub r.payload s))
  else if r.kind = kOrder then settle (answer r (actOrder r.sub.toNat r.payload s))
  else answer r (s, .filled .kind [])

/-- A complete record dispatched (R3): the buffer empties, the record acts, the idle timer starts again (R170). -/
def dispatch (r : Record) (s : State) : State :=
  restartIdle (act r (mapPort (fun p => { p with inbound := .receiving [] }) s))

/-- The orders that need RUN (R3): CALIBRATE, SCAN, PRINT, MOVE. -/
def needsRun (r : Record) : Bool :=
  r.kind = kOrder && (r.sub = 0x01 || r.sub = 0x02 || r.sub = 0x06 || r.sub = 0x0A)

/-- A record is complete (R3): dispatched, or held for the return to RUN that it starts. -/
def completeRecord (r : Record) (s : State) : State :=
  if needsRun r ∧ s.power.state = .doze then
    beginReturn 0 (mapPort (fun p => { p with inbound := .held r }) s)
  else dispatch r s

/-- RUN reached: a held order is dispatched (R171). -/
def dispatchHeld (s : State) : State :=
  match s.port.inbound with
  | .held r => dispatch r s
  | .receiving _ => s
  | .draining _ _ _ _ => s

/-! ## Taking bytes (R1, R2) -/

def setInbound (i : Inbound) : State → State := mapPort fun p => { p with inbound := i }

/-- A refused record drained to its end is answered (R2). -/
def drained (kind sub : Byte) (st : Status) (s : State) : State :=
  pushReply kind sub (.filled st []) (setInbound (.receiving []) s)

/-- The header has been taken (R2): checked, refused and drained, or its payload awaited; complete at once without one. -/
def headerTaken (kind sub : Byte) (len : Nat) (bytes : List Byte) (s : State) : State :=
  match headerCheck kind sub len with
  | some st => if len = 0 then drained kind sub st s else setInbound (.draining kind sub st len) s
  | none =>
    if len = 0 then completeRecord { kind := kind, sub := sub, payload := [] } s else setInbound (.receiving bytes) s

/-- A byte appended to the record being received (R1, R2). -/
def appendByte (bytes : List Byte) (s : State) : State :=
  if bytes.length < 4 then setInbound (.receiving bytes) s
  else if bytes.length = 4 then headerTaken (bytes.getD 0 0) (bytes.getD 1 0) (wordAt bytes 2) bytes s
  else if bytes.length < 4 + wordAt bytes 2 then setInbound (.receiving bytes) s
  else completeRecord { kind := bytes.getD 0 0, sub := bytes.getD 1 0, payload := bytes.drop 4 } s

/-- One byte taken with RDY high. -/
def takeByte (d : Byte) (s : State) : State :=
  match s.port.inbound with
  | .receiving bs => appendByte (bs ++ [d]) s
  | .draining k sb st left => if left ≤ 1 then drained k sb st s else setInbound (.draining k sb st (left - 1)) s
  | .held _ => s

/-- The order that needs RUN and that these bytes complete, if they do (R2, R3). -/
def runOrder? (bytes : List Byte) : Option Record :=
  let r : Record := { kind := bytes.getD 0 0, sub := bytes.getD 1 0, payload := bytes.drop 4 }
  if 4 ≤ bytes.length ∧ bytes.length = 4 + wordAt bytes 2 ∧ headerCheck r.kind r.sub r.payload.length = none ∧ needsRun r
  then some r else none

/-- Is a return from DOZE under way for a wake event of R171's table? -/
def wakeReturns (s : State) : Bool := s.power.state = .doze && s.power.returning.any fun r => 0 < r && r < 5

/-- The last byte of an order that needs RUN, arriving together with a wake event of DOZE that is taken first: the order
waits in the buffer until RUN, by the return under way (R171). Any other byte is lost with RDY low. -/
def holdTogether (d : Byte) (s : State) : State :=
  match s.port.inbound with
  | .receiving bs =>
    match runOrder? (bs ++ [d]) with
    | some r => if wakeReturns s then setInbound (.held r) s else s
    | none => s
  | .draining _ _ _ _ => s
  | .held _ => s

/-- A write strobe with CS asserted (R1): a wake event in SLEEP, a byte taken with RDY high, else a byte lost, unless it
came together with a wake event taken first (R171). -/
def strobe (together : Bool) (d : Byte) (s : State) : State :=
  if s.power.state = .sleep then arbitrate (sleepWake 5 s)
  else if rdy s then takeByte d s
  else if together then holdTogether d s
  else s

/-- The host writes one whole record: at once where the port stands between records with RDY high, else byte by byte. -/
def writeRecord (r : Record) (s : State) : State :=
  if rdy s ∧ s.port.inbound = .receiving [] then
    match headerCheck r.kind r.sub r.payload.length with
    | some st => drained r.kind r.sub st s
    | none => completeRecord r s
  else r.bytes.foldl (fun s d => strobe false d s) s

/-- An order written as a record. -/
def writeOrder (code : Byte) (payload : List Byte) (s : State) : State :=
  writeRecord { kind := kOrder, sub := code, payload := payload } s

/-! ## The outbound side (R8, R9) -/

/-- The REPLY record of an entry (1.10). -/
def replyBytes (e : ReplyEntry) : List Byte :=
  match e.body with
  | .filled st answer =>
    [kReply, BitVec.ofNat 8 st.code] ++ be16 (2 + answer.length) ++ [e.kind, e.sub] ++ answer
  | .calibrating => []
  | .diag => []

/-- The outbound LINE record of a slot (R9). -/
def lineBytes (x : Slot) : List Byte :=
  let payload := if x.rep then [] else lineToBytes x.dots
  [kLine, if x.last then 1 else 0] ++ be16 payload.length ++ payload

/-- The record the arbiter chooses (R8): a reply, an event, a line. -/
def chooseOut (s : State) : Option OutCourse :=
  match s.port.replies with
  | { kind := k, sub := sb, body := .filled st a } :: _ =>
    some { source := .reply, rest := replyBytes { kind := k, sub := sb, body := .filled st a } }
  | _ =>
    match s.events.queue with
    | f :: _ => some { source := .event, rest := s.events.recordBytes f }
    | [] =>
      if 0 < s.rings.output.occ then
        some { source := .line, rest := lineBytes (s.rings.output.slot s.rings.output.head) }
      else none

/-- The last byte of an outbound record has been read (R4, R9, R185). -/
def outboundEnd (source : OutSource) (s : State) : State :=
  match source with
  | .reply => mapPort (fun p => { p with replies := p.replies.drop 1 }) s
  | .event => { s with events := { s.events with queue := s.events.queue.drop 1 } }
  | .line => settle (mapRings (fun r => { r with output := r.output.free }) s)

/-- The next byte of the record in course is driven. -/
def driveByte (c : OutCourse) (s : State) : State :=
  match c.rest with
  | [] => s
  | [b] => outboundEnd c.source (mapPort (fun p => { p with course := none, dataOut := b }) s)
  | b :: rest => mapPort (fun p => { p with course := some { c with rest := rest }, dataOut := b }) s

/-- A read strobe with CS asserted (R8): FFh while ATTN is low. -/
def readStrobe (s : State) : State :=
  if attn s then
    match s.port.course with
    | some c => driveByte c s
    | none =>
      match chooseOut s with
      | some c => driveByte c s
      | none => s
  else mapPort (fun p => { p with dataOut := 0xFF }) s

end Sys2Proof.Machine
end

