-- ==== Sys2Proof/Machine/EventCommands.lean ====
section
/-! DEFINITION. The events of the part's own blocks: the page memory, the coders and decoders, the Scan Front, the motor
channels, the head, the timers of the jobs. An event whose condition does not stand changes nothing (log entry 1). -/

namespace Sys2Proof.Machine

/-! ## Calibration lines (R41, R42) -/

/-- The last white line ends the calibration (R42). -/
def endCalibration (black white : List Byte) (s : State) : State :=
  let img := shadingImage black white
  let n := (defectiveOf img).length
  let weak := decide (32 < n)
  let s := replaceActive tShading img (mapFront (fun f => { f with cal := none, lamp := false }) s)
  raise evCalDone 0 0 weak.toNat (fillReply .calibrating (if weak then .calweak else .ok) (be16 n) s)

/-- A calibration line's readout ends (R41). -/
def calibrationLine (c : Calibration) (samples : List Byte) (s : State) : State :=
  let sums := addSums c.sums samples
  let zeros := List.replicate 1728 0
  match c.stage with
  | .dark n =>
    if n + 1 < 8 then mapFront (fun f => { f with cal := some { c with stage := .dark (n + 1), sums := sums } }) s
    else
      let stage := if byteAt (settingsImage s) 24 = 0 then CalStage.white 0 else CalStage.lampWait
      mapFront (fun f => { f with lamp := true,
                                  cal := some { stage := stage, sums := zeros, black := sums.map meanLevel } }) s
  | .lampWait => s
  | .white n =>
    if n + 1 < 8 then mapFront (fun f => { f with cal := some { c with stage := .white (n + 1), sums := sums } }) s
    else endCalibration c.black (sums.map meanLevel) s

/-- A sensor readout ends (R21, R41). -/
def readoutEnds (samples : Vector Byte 1760) (s : State) : State :=
  match s.front.cal with
  | some c => calibrationLine c (pixelSamples samples) s
  | none => lineRead samples s

/-- The LAMPWARM wait of a calibration ends (R41 step 4). -/
def lampWarm (s : State) : State :=
  match s.front.cal with
  | none => s
  | some c =>
    if c.stage = .lampWait then mapFront (fun f => { f with cal := some { c with stage := .white 0 } }) s else s

/-! ## Motor events (R100, R106, R107) -/

/-- A step falls due on a channel and is issued. -/
def stepFalls (ch : Channel) (s : State) : State :=
  if (motorOf ch s).moving && (motorOf ch s).stepDue then
    match ch, (motorOf ch s).owner with
    | .S, .scan => if lineOpen s then s else scanStep false s
    | _, _ => issueStep ch s
  else s

/-- The last step's interval ends: HOLD, the report to the owner, the request that waited. -/
def motionEnds (ch : Channel) (s : State) : State :=
  if (motorOf ch s).spent then
    match ch, (motorOf ch s).owner with
    | .S, _ => restChannel .S s
    | .P, .print => printRest (restChannel .P s)
    | .P, _ => takeWaiting (restChannel .P s)
  else s

/-- The hold timer of a channel expires (R107). -/
def holdExpires (ch : Channel) (s : State) : State :=
  if (motorOf ch s).state = .hold ∧ (motorOf ch s).hold.isSome then mapMotor ch Motor.release s else s

/-! ## The commands -/

/-- DRAM_GRANT_END (R72). -/
def execDramGrantEnd (lv : Levels) (s : State) : Host.Outcome State Fault Refusal :=
  .next (if s.pmc.grant.isSome then settle (endGrant (sense lv s)) else sense lv s)

/-- REFRESH_DUE (R73). -/
def execRefreshDue (s : State) : Host.Outcome State Fault Refusal := .next (arbitrate (refreshFalls s))

/-- CODER_LINE_START (R54). -/
def execCoderLineStart (ctx : CoderCtx) (s : State) : Host.Outcome State Fault Refusal :=
  .next (settle (coderStart ctx s))

/-- MEMWAIT_EXPIRY (R69). -/
def execMemwaitExpiry (ctx : CoderCtx) (s : State) : Host.Outcome State Fault Refusal :=
  .next (settle (memExpire ctx s))

/-- DIRWAIT_EXPIRY (R81, R130, R160). -/
def execDirwaitExpiry (ctx : CoderCtx) (s : State) : Host.Outcome State Fault Refusal :=
  .next (settle (dirExpire ctx s))

/-- DECODER_LINE_START (R57). A line start that comes about here reads PAPR as last sensed (log entry 2). -/
def execDecoderLineStart (ctx : DecoderCtx) (s : State) : Host.Outcome State Fault Refusal :=
  .next (settle (decoderStart ctx s))

/-- READOUT_END (R21, R41). -/
def execReadoutEnd (samples : Vector Byte 1760) (s : State) : Host.Outcome State Fault Refusal :=
  .next (settle (readoutEnds samples s))

/-- LAMPWARM_EXPIRY (R41). -/
def execLampwarmExpiry (s : State) : Host.Outcome State Fault Refusal := .next (lampWarm s)

/-- MOTOR_STEP (R100). -/
def execMotorStep (ch : Channel) (lv : Levels) (s : State) : Host.Outcome State Fault Refusal :=
  .next (settle (stepFalls ch (sense lv s)))

/-- MOTION_END (R107). -/
def execMotionEnd (ch : Channel) (lv : Levels) (s : State) : Host.Outcome State Fault Refusal :=
  .next (settle (motionEnds ch (sense lv s)))

/-- HOLD_TIMER_EXPIRY (R107). -/
def execHoldTimerExpiry (ch : Channel) (s : State) : Host.Outcome State Fault Refusal := .next (holdExpires ch s)

/-- HEAD_SHIFT_END (R148). -/
def execHeadShiftEnd (s : State) : Host.Outcome State Fault Refusal := .next (headEvent Strobe.shiftEnd s)

/-- STROBE_END (R148). -/
def execStrobeEnd (s : State) : Host.Outcome State Fault Refusal := .next (headEvent Strobe.pulseEnd s)

/-- GAP_END (R148, R149). -/
def execGapEnd (s : State) : Host.Outcome State Fault Refusal := .next (settle (headEvent Strobe.gapEnd s))

/-- TEMP_AGE_EXPIRY (R145). -/
def execTempAgeExpiry (s : State) : Host.Outcome State Fault Refusal := .next (tempExpired s)

end Sys2Proof.Machine
end

