-- ==== Sys2Proof/Machine/OrderCommands.lean ====
section
/-! DEFINITION. The ORDER records as the host writes them whole (1.10). -/

namespace Sys2Proof.Machine

/-- CALIBRATE (R40, R41). -/
def execCalibrate (s : State) : Host.Outcome State Fault Refusal := .next (writeOrder 0x01 [] s)

/-- SCAN (R119 to R121). -/
def execScan (purpose resolution zoom stamp policy pageLimit slew : Byte) (lv : Levels) (s : State) :
    Host.Outcome State Fault Refusal :=
  .next (writeOrder 0x02 [purpose, resolution, zoom, stamp, policy, pageLimit, slew] (sense lv s))

/-- INTAKE (R157). -/
def execIntake (resolution policy : Byte) (s : State) : Host.Outcome State Fault Refusal :=
  .next (writeOrder 0x03 [resolution, policy] s)

/-- INTAKE_END (R159). -/
def execIntakeEnd (s : State) : Host.Outcome State Fault Refusal := .next (writeOrder 0x04 [] s)

/-- OUTPUT (R163). -/
def execOutput (page consume : Byte) (s : State) : Host.Outcome State Fault Refusal :=
  .next (writeOrder 0x05 [page, consume] s)

/-- PRINT (R136, R137). -/
def execPrint (page copies ratio consume cutThrough : Byte) (lv : Levels) (s : State) :
    Host.Outcome State Fault Refusal :=
  .next (writeOrder 0x06 [page, copies, ratio, consume, cutThrough] (sense lv s))

/-- ERASE (R92). -/
def execErase (page : Byte) (s : State) : Host.Outcome State Fault Refusal := .next (writeOrder 0x07 [page] s)

/-- STOP of the SCAN job (R132). -/
def execStopScan (keepPartial : Byte) (s : State) : Host.Outcome State Fault Refusal :=
  .next (writeOrder 0x08 [0, keepPartial] s)

/-- STOP of the INTAKE job (R161). -/
def execStopIntake (keepPartial : Byte) (s : State) : Host.Outcome State Fault Refusal :=
  .next (writeOrder 0x08 [1, keepPartial] s)

/-- STOP of the PRINT job (R154). -/
def execStopPrint (keepPartial : Byte) (s : State) : Host.Outcome State Fault Refusal :=
  .next (writeOrder 0x08 [2, keepPartial] s)

/-- STOP of the OUTPUT job (R166). -/
def execStopOutput (keepPartial : Byte) (s : State) : Host.Outcome State Fault Refusal :=
  .next (writeOrder 0x08 [3, keepPartial] s)

/-- RESUME (R114, R152). -/
def execResume (channel : Byte) (lv : Levels) (s : State) : Host.Outcome State Fault Refusal :=
  .next (writeOrder 0x09 [channel] (sense lv s))

/-- MOVE (R109, R110). -/
def execMove (channel direction : Byte) (steps : BitVec 16) (slew : Byte) (s : State) :
    Host.Outcome State Fault Refusal :=
  .next (writeOrder 0x0A (channel :: direction :: (be16 steps.toNat ++ [slew])) s)

/-- TEMP (R145, R146). -/
def execTemp (code : Byte) (lv : Levels) (s : State) : Host.Outcome State Fault Refusal :=
  .next (writeOrder 0x0B [code] (sense lv s))

/-- POWER to DOZE (R169, R170). -/
def execPowerDoze (mask timer : Byte) (s : State) : Host.Outcome State Fault Refusal :=
  .next (writeOrder 0x0C [1, mask, timer] s)

/-- POWER to SLEEP (R169, R172). -/
def execPowerSleep (mask timer : Byte) (s : State) : Host.Outcome State Fault Refusal :=
  .next (writeOrder 0x0C [2, mask, timer] s)

/-- POWER to STANDBY (R169, R174). -/
def execPowerStandby (mask timer : Byte) (s : State) : Host.Outcome State Fault Refusal :=
  .next (writeOrder 0x0C [3, mask, timer] s)

/-- READY (R181). -/
def execReady (s : State) : Host.Outcome State Fault Refusal := .next (writeOrder 0x0D [] s)

/-- RESTART (R182). -/
def execRestart (s : State) : Host.Outcome State Fault Refusal := .next (writeOrder 0x0E [] s)

end Sys2Proof.Machine
end

