-- ==== Sys2Proof/Machine/PortCommands.lean ====
section
/-! DEFINITION. The port's commands: the strobes (R1, R8), and the records LINE, LOAD, QUERY, EVACK, DIAG as the host writes
them whole. -/

namespace Sys2Proof.Machine

/-- WSTB_STROBE (R1): nothing without CS. -/
def execWstbStrobe (w : WriteStrobe) (d : Byte) (lv : Levels) (s : State) : Host.Outcome State Fault Refusal :=
  .next (if w.cs then strobe w.together d (sense lv s) else sense lv s)

/-- RSTB_STROBE (R8): nothing without CS. -/
def execRstbStrobe (cs : Bool) (s : State) : Host.Outcome State Fault Refusal :=
  .next (if cs then readStrobe s else s)

/-- LINE (R7). -/
def execLine (sub : Byte) (payload : List Byte) (s : State) : Host.Outcome State Fault Refusal :=
  .next (writeRecord { kind := kLine, sub := sub, payload := payload } s)

/-- LOAD (R12, R13). -/
def execLoad (table segment final : Byte) (image : List Byte) (s : State) : Host.Outcome State Fault Refusal :=
  .next (writeRecord { kind := kLoad, sub := table, payload := segment :: final :: image } s)

/-- A QUERY record. -/
def writeQuery (sub : Byte) (payload : List Byte) (s : State) : State :=
  writeRecord { kind := kQuery, sub := sub, payload := payload } s

/-- QUERY_STATUS (R16). -/
def execQueryStatus (s : State) : Host.Outcome State Fault Refusal := .next (writeQuery 1 [] s)

/-- QUERY_PAGE (R16). -/
def execQueryPage (page : Byte) (s : State) : Host.Outcome State Fault Refusal := .next (writeQuery 2 [page] s)

/-- QUERY_DIR (R16). -/
def execQueryDir (s : State) : Host.Outcome State Fault Refusal := .next (writeQuery 3 [] s)

/-- QUERY_TABLE (R16). -/
def execQueryTable (table copy segment : Byte) (s : State) : Host.Outcome State Fault Refusal :=
  .next (writeQuery 4 [table, copy, segment] s)

/-- QUERY_MEM (R16). -/
def execQueryMem (s : State) : Host.Outcome State Fault Refusal := .next (writeQuery 5 [] s)

/-- EVACK (R3, R186). -/
def execEvack (flags : List Byte) (s : State) : Host.Outcome State Fault Refusal :=
  .next (writeRecord { kind := kEvack, sub := 0, payload := flags } s)

/-- The address of a DIAG payload: memory, item, offset. -/
def diagPayload (memory : Byte) (item offset : BitVec 16) : List Byte := memory :: (be16 item.toNat ++ be16 offset.toNat)

/-- DIAG_READ (R188 to R190). -/
def execDiagRead (memory : Byte) (item offset count : BitVec 16) (s : State) : Host.Outcome State Fault Refusal :=
  .next (writeRecord { kind := kDiag, sub := 0, payload := diagPayload memory item offset ++ be16 count.toNat } s)

/-- DIAG_WRITE (R188 to R190). -/
def execDiagWrite (memory : Byte) (item offset : BitVec 16) (data : List Byte) (s : State) :
    Host.Outcome State Fault Refusal :=
  .next (writeRecord { kind := kDiag, sub := 1, payload := diagPayload memory item offset ++ data } s)

/-- DIAG_WRITE_SEEDED (R63, R188, R190). -/
def execDiagWriteSeeded (memory : Byte) (item offset : BitVec 16) (data : List Byte) (s : State) :
    Host.Outcome State Fault Refusal :=
  .next (writeRecord { kind := kDiag, sub := 2, payload := diagPayload memory item offset ++ data } s)

end Sys2Proof.Machine
end

