-- ==== Sys2Proof/Machine/PowerCommands.lean ====
section
/-! DEFINITION. The events of the power states, the outside lines, the cold start and the serial ROM (R134, R168 to R181). -/

namespace Sys2Proof.Machine

/-! ## Line events -/

/-- RING rises. -/
def ringRises (s : State) : State :=
  if s.lines.ring then s
  else wakeRise 0 1 (fun r => { r with ring := true }) { s with lines := { s.lines with ring := true } }

/-- KEY rises. -/
def keyRises (s : State) : State :=
  if s.lines.key then s
  else wakeRise 1 2 (fun r => { r with key := true }) { s with lines := { s.lines with key := true } }

/-- Does the part see a rise of DOCP: its core running past the boot state RESET, or woken by it (R134, R173)? -/
def coreRuns (s : State) : Bool :=
  s.boot.state ≠ .reset && s.power.state ≠ .standby && !(s.power.state = .sleep && s.power.returning.isNone)

/-- DOC_IN where no SCAN job exists (R134). -/
def docIn (s : State) : State :=
  if coreRuns s && s.scanJob.isNone then raise evDocIn 0 0 0 s else s

/-- DOCP rises. -/
def docpRises (s : State) : State :=
  if s.lines.docp then s
  else docIn (wakeRise 2 3 (fun r => { r with docp := true }) { s with lines := { s.lines with docp := true } })

/-- The wake timer expires (R171, R173, R174). -/
def wakeTimerExpires (s : State) : State :=
  if s.power.wakeTimer.isSome then wakeEvent 4 (mapPower (fun p => { p with wakeTimer := none }) s) else s

/-- The idle timer expires: DOZE, with all three lines in the mask and no wake timer (R170). -/
def idleExpires (s : State) : State :=
  if s.power.idleTimer.isSome then (if idleConds s then enterDoze 7 0 s else setIdle none s) else s

/-- COVER falls (R112, R113). -/
def coverFalls (s : State) : State :=
  if s.lines.cover then coverOpened { s with lines := { s.lines with cover := false } } else s

/-- PFAIL rises (R176). -/
def pfailLineRises (s : State) : State :=
  if s.lines.pfail then s else pfailRises { s with lines := { s.lines with pfail := true } }

/-- PFAIL falls: a cold start from the hold (R176, R177). -/
def pfailLineFalls (s : State) : State :=
  if s.lines.pfail then
    let s := { s with lines := { s.lines with pfail := false } }
    if s.power.pfail = .hold then coldStart s else s
  else s

/-! ## Reset and power -/

/-- The levels of the lines as power returns; PFAIL and RESET have rows of their own. -/
def powerLevels (lv : Levels) (l : Lines) : Lines :=
  { l with docp := lv.docp, doce := lv.doce, papr := lv.papr, cover := lv.cover, ring := lv.ring, key := lv.key,
           bootsrc := lv.bootsrc }

/-- Power returns (R74, R177): a cold start, its refresh cycle being made, with no source kept; the DRAM as it stood, or as its own supply left it. -/
def powerReturns (lv : Levels) (dram : Option PowerUpDram) (s : State) : State :=
  { State.reset with
    lines := powerLevels lv s.lines, pending := s.pending,
    dram := match dram with
      | none => s.dram
      | some d => s.dram.powerUp d }

/-- RESET is asserted (R177); in STANDBY it is a wake that keeps no source (R174). -/
def resetAsserted (s : State) : State := coldStart { s with lines := { s.lines with reset := true } }

/-- The boot state RESET ends, unless the PFAIL hold is in force: a hold begun in RESET leaves the cover unread until the cold
start that ends it (DESIGN CHOICE: log entry 15). -/
def resetEnds (s : State) : State := if s.power.pfail = .inactive then leaveReset s else s

/-- RESET is released (R177). -/
def resetReleased (s : State) : State :=
  if s.lines.reset then resetEnds { s with lines := { s.lines with reset := false } } else s

/-- The 1 ms of the boot state RESET is over (R177). -/
def resetStateEnds (s : State) : State := if s.boot.state = .reset ∧ !s.lines.reset then resetEnds s else s

/-! ## The commands -/

/-- SLEEP_ENTRY (R172, R174). -/
def execSleepEntry (lv : Levels) (s : State) : Host.Outcome State Fault Refusal :=
  .next (settle (entryGoesOn (sense lv s)))

/-- IDLE_TIMER_EXPIRY (R170). -/
def execIdleTimerExpiry (s : State) : Host.Outcome State Fault Refusal := .next (idleExpires s)

/-- WAKE_TIMER_EXPIRY (R171, R173, R174). -/
def execWakeTimerExpiry (s : State) : Host.Outcome State Fault Refusal := .next (arbitrate (wakeTimerExpires s))

/-- RING_RISE (R171 to R174). -/
def execRingRise (s : State) : Host.Outcome State Fault Refusal := .next (arbitrate (ringRises s))

/-- KEY_RISE (R171 to R174). -/
def execKeyRise (s : State) : Host.Outcome State Fault Refusal := .next (arbitrate (keyRises s))

/-- DOCP_RISE (R134, R171 to R174). -/
def execDocpRise (s : State) : Host.Outcome State Fault Refusal := .next (arbitrate (docpRises s))

/-- RUN_REACHED (R171, R173). -/
def execRunReached (lv : Levels) (s : State) : Host.Outcome State Fault Refusal :=
  .next (if s.power.returning.isSome then settle (dispatchHeld (runReached (sense lv s))) else sense lv s)

/-- COVER_OPEN (R112, R113). -/
def execCoverOpen (s : State) : Host.Outcome State Fault Refusal := .next (settle (coverFalls s))

/-- PFAIL_RISE (R176). -/
def execPfailRise (s : State) : Host.Outcome State Fault Refusal := .next (settle (pfailLineRises s))

/-- PFAIL_FALL (R176, R177). -/
def execPfailFall (s : State) : Host.Outcome State Fault Refusal := .next (pfailLineFalls s)

/-- POWER_ON (R74, R177). -/
def execPowerOn (lv : Levels) (dram : Option PowerUpDram) (s : State) : Host.Outcome State Fault Refusal :=
  .next (powerReturns lv dram s)

/-- RESET_ASSERT (R174, R177). -/
def execResetAssert (s : State) : Host.Outcome State Fault Refusal := .next (resetAsserted s)

/-- RESET_RELEASE (R177). -/
def execResetRelease (lv : Levels) (s : State) : Host.Outcome State Fault Refusal :=
  .next (settle (resetReleased (sense lv s)))

/-- RESET_STATE_END (R177, R178). -/
def execResetStateEnd (lv : Levels) (s : State) : Host.Outcome State Fault Refusal :=
  .next (settle (resetStateEnds (sense lv s)))

/-- ROM_RECORD (R18, R180). -/
def execRomRecord (kind sub : Byte) (len : BitVec 16) (payload : List Byte) (s : State) :
    Host.Outcome State Fault Refusal :=
  .next (if s.boot.state = .romload ∧ s.power.pfail = .inactive then settle (romRecord kind sub len.toNat payload s)
    else s)

end Sys2Proof.Machine
end

