-- ==== Sys2Proof/Machine/Dispatch.lean ====
section
/-! DEFINITION. One arm per command. -/

namespace Sys2Proof.Machine

def exec (i : Instr) (s : State) : Host.Outcome State Fault Refusal :=
  match i with
  | .wstbStrobe w d lv => Sys2Proof.Machine.execWstbStrobe w d lv s
  | .rstbStrobe cs => Sys2Proof.Machine.execRstbStrobe cs s
  | .line sub payload => Sys2Proof.Machine.execLine sub payload s
  | .load table segment final image => Sys2Proof.Machine.execLoad table segment final image s
  | .calibrate => Sys2Proof.Machine.execCalibrate s
  | .scan purpose resolution zoom stamp policy pageLimit slew lv => Sys2Proof.Machine.execScan purpose resolution zoom stamp policy pageLimit slew lv s
  | .intake resolution policy => Sys2Proof.Machine.execIntake resolution policy s
  | .intakeEnd => Sys2Proof.Machine.execIntakeEnd s
  | .output page consume => Sys2Proof.Machine.execOutput page consume s
  | .print page copies ratio consume cutThrough lv => Sys2Proof.Machine.execPrint page copies ratio consume cutThrough lv s
  | .erase page => Sys2Proof.Machine.execErase page s
  | .stopScan keepPartial => Sys2Proof.Machine.execStopScan keepPartial s
  | .stopIntake keepPartial => Sys2Proof.Machine.execStopIntake keepPartial s
  | .stopPrint keepPartial => Sys2Proof.Machine.execStopPrint keepPartial s
  | .stopOutput keepPartial => Sys2Proof.Machine.execStopOutput keepPartial s
  | .resume channel lv => Sys2Proof.Machine.execResume channel lv s
  | .move channel direction steps slew => Sys2Proof.Machine.execMove channel direction steps slew s
  | .temp code lv => Sys2Proof.Machine.execTemp code lv s
  | .powerDoze mask timer => Sys2Proof.Machine.execPowerDoze mask timer s
  | .powerSleep mask timer => Sys2Proof.Machine.execPowerSleep mask timer s
  | .powerStandby mask timer => Sys2Proof.Machine.execPowerStandby mask timer s
  | .sleepEntry lv => Sys2Proof.Machine.execSleepEntry lv s
  | .ready => Sys2Proof.Machine.execReady s
  | .restart => Sys2Proof.Machine.execRestart s
  | .queryStatus => Sys2Proof.Machine.execQueryStatus s
  | .queryPage page => Sys2Proof.Machine.execQueryPage page s
  | .queryDir => Sys2Proof.Machine.execQueryDir s
  | .queryTable table copy segment => Sys2Proof.Machine.execQueryTable table copy segment s
  | .queryMem => Sys2Proof.Machine.execQueryMem s
  | .evack flags => Sys2Proof.Machine.execEvack flags s
  | .diagRead memory item offset count => Sys2Proof.Machine.execDiagRead memory item offset count s
  | .diagWrite memory item offset data => Sys2Proof.Machine.execDiagWrite memory item offset data s
  | .diagWriteSeeded memory item offset data => Sys2Proof.Machine.execDiagWriteSeeded memory item offset data s
  | .dramGrantEnd lv => Sys2Proof.Machine.execDramGrantEnd lv s
  | .refreshDue => Sys2Proof.Machine.execRefreshDue s
  | .coderLineStart ctx => Sys2Proof.Machine.execCoderLineStart ctx s
  | .memwaitExpiry ctx => Sys2Proof.Machine.execMemwaitExpiry ctx s
  | .dirwaitExpiry ctx => Sys2Proof.Machine.execDirwaitExpiry ctx s
  | .decoderLineStart ctx => Sys2Proof.Machine.execDecoderLineStart ctx s
  | .readoutEnd samples => Sys2Proof.Machine.execReadoutEnd samples s
  | .lampwarmExpiry => Sys2Proof.Machine.execLampwarmExpiry s
  | .motorStep ch lv => Sys2Proof.Machine.execMotorStep ch lv s
  | .motionEnd ch lv => Sys2Proof.Machine.execMotionEnd ch lv s
  | .holdTimerExpiry ch => Sys2Proof.Machine.execHoldTimerExpiry ch s
  | .headShiftEnd => Sys2Proof.Machine.execHeadShiftEnd s
  | .strobeEnd => Sys2Proof.Machine.execStrobeEnd s
  | .gapEnd => Sys2Proof.Machine.execGapEnd s
  | .tempAgeExpiry => Sys2Proof.Machine.execTempAgeExpiry s
  | .idleTimerExpiry => Sys2Proof.Machine.execIdleTimerExpiry s
  | .wakeTimerExpiry => Sys2Proof.Machine.execWakeTimerExpiry s
  | .ringRise => Sys2Proof.Machine.execRingRise s
  | .keyRise => Sys2Proof.Machine.execKeyRise s
  | .docpRise => Sys2Proof.Machine.execDocpRise s
  | .runReached lv => Sys2Proof.Machine.execRunReached lv s
  | .coverOpen => Sys2Proof.Machine.execCoverOpen s
  | .pfailRise => Sys2Proof.Machine.execPfailRise s
  | .pfailFall => Sys2Proof.Machine.execPfailFall s
  | .powerOn lv dram => Sys2Proof.Machine.execPowerOn lv dram s
  | .resetAssert => Sys2Proof.Machine.execResetAssert s
  | .resetRelease lv => Sys2Proof.Machine.execResetRelease lv s
  | .resetStateEnd lv => Sys2Proof.Machine.execResetStateEnd lv s
  | .romRecord kind sub len payload => Sys2Proof.Machine.execRomRecord kind sub len payload s

end Sys2Proof.Machine
end

