-- ==== Sys2Proof/Safety.lean ====
section
/-! DEFINITION. What a sound state is, in the terms the statements use. -/

namespace Sys2Proof.Machine

/-- The page DRAM is in its canonical form. -/
def State.dramSound (s : State) : Prop := s.dram.wf = true

/-- The EVENT queue holds at most one record per flag, the record partly read apart (R184, R186). -/
def State.queueSound (s : State) : Prop := (s.events.queue.drop (if eventBegun s then 1 else 0)).Nodup

/-- Every flag whose record waits in the EVENT queue, the record partly read apart, is marked reported (R184). -/
def State.queueReported (s : State) : Prop :=
  ∀ f ∈ s.events.queue.drop (if eventBegun s then 1 else 0), (s.events.flags[f]).reported = true

/-- While COVER is low or PFAIL is high, all motor phase outputs and hold lines are low (R112): each channel is in OFF or
FAULT. -/
def State.motorsLow (s : State) : Prop :=
  ∀ ch, ((motorOf ch s).outputs (phaseTable ch s)) = 0 ∧ (motorOf ch s).holdLine = false

/-- The directory holds at most 32 entries and places, and no two entries share a page id (R78). -/
def State.dirSound (s : State) : Prop :=
  s.dir.entries.length + s.dir.places ≤ Config.directoryRoom ∧ (s.dir.entries.map Entry.id).Nodup

/-- The block accounting of R64. -/
def State.blocksSound (s : State) : Prop :=
  freeCount s + (s.dir.entries.map Entry.blockCount).sum + Config.reserveBlocks = nBlocks s

/-- The port takes a record that begins now, in READY (R1, R3). -/
def portOpen (s : State) : Prop := rdy s = true ∧ s.port.inbound = .receiving [] ∧ s.boot.state = .ready

/-- An order's answer joins the reply queue and what follows at once comes about; then the idle timer starts again (R4,
R170). -/
def replied (code : Byte) (body : ReplyBody) (s : State) : State := restartIdle (settle (pushReply kOrder code body s))

/-- The reply queue holds eight entries at most, and has room for the reply of a record begun or held (R1, R4). -/
def State.repliesSound (s : State) : Prop :=
  s.port.replies.length ≤ 8 ∧ ((s.port.inbound.begun || s.port.inbound.isHeld) = true → s.port.replies.length ≤ 7)

/-- No job, no pass, no wait and no pending motor table: nothing to follow but the idle timer and the next grant. -/
structure Quiet (s : State) : Prop where
  scanJob   : s.scanJob = none
  intJob    : s.intJob = none
  prtJob    : s.prtJob = none
  outJob    : s.outJob = none
  printDec  : s.printDec = none
  outDec    : s.outDec = none
  scanTimer : s.scanCd.timer = none
  scanDir   : s.scanCd.dirWait = none
  intTimer  : s.intakeCd.timer = none
  intDir    : s.intakeCd.dirWait = none
  sramp     : s.tables.pending[tSramp] = none
  sphase    : s.tables.pending[tSphase] = none
  pramp     : s.tables.pending[tPramp] = none
  pphase    : s.tables.pending[tPphase] = none

/-- A scan's jam has been found (R122, R123, R125): from `s` the job of `t` stands at its ending decision with reason 3 and
nothing held, channel S in FAULT with cause JAM, the Scan Ring empty with no line in computation and the place released, and
JAM is set, for a flag that was clear with the page given, channel 1 and the reason given. -/
def ScanJammed (page reason : Nat) (s t : State) : Prop :=
  (∃ j : ScanJob, t.scanJob = some j ∧ j.phase = .ending ∧ j.endReason = 3 ∧ j.docHeld = none)
    ∧ t.motS.state = .fault ∧ t.motS.causes.jam = true ∧ t.rings.scan.occ = 0 ∧ t.rings.scanReserved = 0
    ∧ t.front.comp = none ∧ t.dir.places = 0 ∧ (t.events.flags[evJam]).set = true
    ∧ ((s.events.flags[evJam]).set = false →
        (t.events.flags[evJam]).page = page ∧ (t.events.flags[evJam]).chan = 1 ∧ (t.events.flags[evJam]).reason = reason
          ∧ (t.events.flags[evJam]).again = false)

/-- The line due starts (R22, R125, R126, R128, R129): from `s`, with job `j` and channel S at `m` as the boundary step falls
due and the lines at `l`, the slot, the computation, the tables and the phase of `t` are what the rules give; `first` where
the step is the first of a run restarting, at which F is not read. -/
def LineStarts (first : Bool) (j : ScanJob) (m : Motor) (l : Lines) (s t : State) : Prop :=
  let n := j.stepCount + 1
  let trailing := if j.trailing = none ∧ l.doce = false then some n else j.trailing
  let last := match trailing with
    | none => false
    | some e => decide (e + setTail s < n + j.fig.m)
  let stop := !first && decide (scanFree s - 1 ≤ j.fig.margin) && !m.stopping
  let q := if m.rampIndex = j.fig.slewUse then j.fig.j * j.fig.m - j.fig.slewUse else 0
  let stepped : Motor := (if stop then m.stop q else m).issue (rampTable .S s) (phaseCount (phaseTable .S s))
  let started : ScanJob :=
    { j with stepCount := n, trailing := trailing, y := j.y + 1, phase := .capture, pause := j.pause || stop }
  t.rings = { s.rings with
      scan := { s.rings.scan with tail := s.rings.scan.succ s.rings.scan.tail }, scanReserved := s.rings.scanReserved + 1 }
    ∧ t.front.comp = some { y := j.y, last := last } ∧ t.front.ditherRow = j.y % 4 ∧ t.front.ditherCol = 0
    ∧ t.front.errorRow = (if j.y = 0 then List.replicate 1728 0 else s.front.errorRow)
    ∧ (j.y ≠ 0 → t.tables = s.tables ∧ t.front.defective = s.front.defective)
    ∧ (j.y = 0 → ∀ id : Fin 14,
        if id ∈ scanTables ∧ s.tables.pending[id] ≠ none then
          t.tables.active[id] = s.tables.pending[id] ∧ t.tables.pending[id] = none
        else t.tables.active[id] = s.tables.active[id] ∧ t.tables.pending[id] = s.tables.pending[id])
    ∧ t.dir.entries = s.dir.entries ∧ t.dram = s.dram ∧ t.port = s.port
    ∧ (last = false → t.scanJob = some started ∧ t.motS = stepped ∧ t.dir = s.dir ∧ t.scanCd = s.scanCd)
    ∧ (last = true → l.docp = true → j.pageCount < j.pageLimit →
        (s.dir.entries.length + s.dir.places < 32 →
            t.scanJob = some { started with phase := .search, searchCount := 0 } ∧ t.motS = stepped
              ∧ t.dir.places = s.dir.places + 1 ∧ t.scanCd = s.scanCd)
          ∧ (32 ≤ s.dir.entries.length + s.dir.places →
              t.scanJob = some { started with phase := .dirwait } ∧ t.motS = stepped.stop 0
                ∧ t.dir.places = s.dir.places ∧ t.scanCd = { s.scanCd with dirWait := some (setMemWait s) }
                ∧ (t.events.flags[evMemWait]).set = true))
    ∧ (last = true → (l.docp = false ∨ j.pageLimit ≤ j.pageCount) →
        t.scanJob = some { started with phase := .runout } ∧ t.motS = stepped.stop 0 ∧ t.dir = s.dir ∧ t.scanCd = s.scanCd)

/-- What no job's end touches: the lines, the tables, the temperature, the power states, the boot state, the spill engine,
the diagnostic accesses and the commands waiting are those of `s`. -/
def State.besideJobs (t s : State) : Prop :=
  t.lines = s.lines ∧ t.tables = s.tables ∧ t.temp = s.temp ∧ t.power = s.power ∧ t.boot = s.boot ∧ t.spill = s.spill
    ∧ t.diagQ = s.diagQ ∧ t.pending = s.pending

/-- No coder context waits for a block: blocks freed go to no one. -/
def State.noAsk (s : State) : Prop :=
  s.scanCd.st ≠ .memwait ∧ s.intakeCd.st ≠ .memwait ∧ s.scanCd.asking = false ∧ s.intakeCd.asking = false

/-! ## The channels: what every step keeps (R112, R115) -/

/-- A channel in OFF or FAULT: its phase outputs and its hold line are low (R98). -/
def Motor.low (m : Motor) : Prop := m.state = .off ∨ m.state = .fault

/-- Both channels stand in FAULT, as the opening of COVER and a power-fail warning leave them (R112). -/
def bothFaulted (s : State) : Prop := s.motS.state = .fault ∧ s.motP.state = .fault

/-- Only in RUN and READY with no power-fail warning in course and no SLEEP or STANDBY entry under way may a channel move
(R115, R172, R174, R177). -/
def mayMove (s : State) : Prop :=
  s.power.state = .run ∧ s.boot.state = .ready ∧ s.power.pfail = .inactive ∧ s.power.entry = none

/-- What the spill engine may be doing while a SLEEP or STANDBY entry is under way (R174, R178). -/
def SpillEngine.ofEntry : SpillEngine → Bool
  | .idle | .await _ | .write _ _ _ | .writeMarker _ => true
  | .clearMarker _ n => n = .abandoned
  | .check _ | .read _ _ _ | .restore _ _ => false

/-- A SLEEP or STANDBY entry under way (R172, R174): from RUN or DOZE in READY, with no return and no wake timer running; once
its reply has been read both channels are down, and only the DRAM or the spill is at work. -/
structure EntrySound (e : SleepEntry) (s : State) : Prop where
  noReturn : s.power.returning = none
  noTimer  : s.power.wakeTimer = none
  ready    : s.boot.state = .ready
  from_    : s.power.state = .run ∨ s.power.state = .doze
  low      : e.stage ≠ .waitReply → s.motS.low ∧ s.motP.low
  refresh  : s.pmc.srPending ≠ none → e.stage = .selfRefresh
  engine   : s.spill.ofEntry = true
  spilling : s.spill ≠ .idle → e.stage = .spilling ∨ e.stage = .clearing

/-- What every step keeps of the lines, the power states and the channels: the block has seen the levels of RESET, PFAIL and
COVER (R112, R175, R177); a power-fail warning finds both channels in FAULT and no entry; outside RUN, and outside READY, both
channels are in OFF or FAULT (R115); where no channel may move there is no job on one and none moves; the self-refresh and the
spill engine are at work only for an entry, a warning or a cold start (R74, R174, R178). -/
structure MotorsSound (s : State) : Prop where
  resetSeen  : s.lines.reset = true → s.boot.state = .reset
  pfailSeen  : s.lines.pfail = true → s.power.pfail ≠ .inactive ∨ s.power.state = .standby ∨ s.boot.state = .reset
  coverSeen  : s.lines.cover = false → bothFaulted s ∨ s.power.state = .standby ∨ s.boot.state = .reset
    ∨ (s.power.state = .sleep ∧ s.power.returning = none ∧ s.power.coverLatch = true)
  warned     : s.power.pfail ≠ .inactive →
    bothFaulted s ∧ s.power.state = .run ∧ s.power.entry = none ∧ s.power.returning = none
  entering   : ∀ e, s.power.entry = some e → EntrySound e s
  away       : s.power.state ≠ .run → s.boot.state = .ready ∧ s.motS.low ∧ s.motP.low
  booting    : s.boot.state ≠ .ready → s.motS.low ∧ s.motP.low
  coming     : s.power.returning ≠ none → s.boot.state = .ready ∧ s.power.state ≠ .standby
  still      : ¬ mayMove s → s.scanJob = none ∧ s.prtJob = none ∧ s.motS.moving = false ∧ s.motP.moving = false
  failFor    : s.pmc.srPending = some .pfail → s.power.pfail ≠ .inactive
  refreshed  : s.power.pfail = .inactive → s.power.entry = none → s.pmc.srPending = none
  spilled    : s.power.pfail = .inactive → s.power.entry = none →
    s.boot.state = .ready ∨ s.boot.state = .portload ∨ s.boot.state = .romload → s.spill = .idle
  unspilled  : s.boot.state = .reset → s.spill = .idle

/-! ## The directory and the blocks: what every step keeps (R64, R78) -/

/-- Is a restore in course, its items reinstated or not (R179)? -/
def SpillEngine.restoring : SpillEngine → Bool
  | .restore _ _ => true
  | .clearMarker _ n => n = .restored
  | .idle | .check _ | .read _ _ _ | .await _ | .write _ _ _ | .writeMarker _ => false

/-- Have a spill's items been reinstated, its marker still to be cleared (R179)? -/
def SpillEngine.restored : SpillEngine → Bool
  | .clearMarker _ n => n = .restored
  | .idle | .check _ | .read _ _ _ | .restore _ _ | .await _ | .write _ _ _ | .writeMarker _ => false

/-- Is the directory in force: in READY, or reinstated from a spill? -/
def State.inForce (s : State) : Prop := s.boot.state = .ready ∨ s.spill.restored = true

/-- What every step keeps of the directory and the blocks: the directory is sound (R78); a coder context writes a FILLING page of
its own, which counts the block the context holds, and without a page it holds no block and waits for none (R54, R66, R82); a
scan in SEARCH holds a place (R80), and an intake context in the directory wait has no page (R81); outside READY no job stands
and no entry but those a restore reinstates (R177, R179); in READY there are settings; while the list is built no entry holds a
block (R67); the block accounting of R64 holds wherever the directory is in force. -/
structure PagesSound (s : State) : Prop where
  dir       : s.dirSound
  writers   : ∀ c id, (coderOf c s).page = some id →
    ∃ e ∈ s.dir.entries, e.id = id ∧ e.state = .filling ∧ e.writer = some c ∧ ((coderOf c s).block ≠ none → 1 ≤ e.blockCount)
  idle      : ∀ c, (coderOf c s).page = none →
    (coderOf c s).block = none ∧ (coderOf c s).asking = false ∧ (coderOf c s).st ≠ .memwait ∧ (coderOf c s).todo = []
  searching : ∀ j, s.scanJob = some j → j.phase = .search → 1 ≤ s.dir.places
  intake    : s.intJob = none → s.intakeCd.page = none ∧ s.intakeCd.dirWait = none
  waiting   : s.intakeCd.dirWait ≠ none → s.intakeCd.page = none
  booting   : s.boot.state ≠ .ready → s.intJob = none ∧ s.scanJob = none ∧ s.pmc.build = none
  empty     : s.boot.state ≠ .ready → s.boot.state ≠ .restore → s.dir.entries = []
  settings  : s.inForce → (s.tables.active[tSettings]).isSome = true
  engine    : s.boot.state = .ready → s.spill.ofEntry = true
  reading   : s.spill.ofEntry = false → s.spill.restored = false → s.dir.entries = []
  restoring : s.spill.restoring = true → s.boot.state = .restore
  building  : s.pmc.build ≠ none → s.pmc.count = 0 ∧ (s.dir.entries.map Entry.blockCount).sum = 0
  law       : s.inForce → s.pmc.build = none → s.blocksSound

/-! ## The Scan Ring: what every step keeps (R46) -/

/-- The lines started within `r` further steps, the next boundary `d` steps on and `m` steps between boundaries (R125). -/
def linesWithin (m d r : Nat) : Nat := if r < d then 0 else (r - d) / m + 1

/-- The fewest steps to the next line boundary: of the present sheet, or of one found at the next step (R124). -/
def ScanJob.toBoundary (j : ScanJob) (lead : Nat) : Nat :=
  match j.phase with
  | .lead | .capture => lead + 1 + j.y * j.fig.m - j.stepCount
  | .search | .dirwait | .runout | .ending => lead + 2

/-- May the job still start a line? -/
def ScanJob.feeds (j : ScanJob) : Bool :=
  match j.phase with
  | .search | .lead | .capture | .dirwait => true
  | .runout | .ending => false

/-- The settings and the order under which the stop margin and the restart threshold of R120 and R126 keep R46's bound: RH is 2
at least, the slew index asked is at most 15 lines' steps, and a line's steps are at most LEAD + 2 (log entry 47). -/
def ScanJob.roomy (j : ScanJob) (s : State) : Prop :=
  2 ≤ setRh s ∧ j.slewReq ≤ 15 * j.res.steps ∧ j.res.steps ≤ setLead s + 2

/-- The run of channel S has room for the lines it is to start: one without an end has more than the stop margin, one with its
stop decided has a slot for each boundary still to come (R126). -/
def runRoom (j : ScanJob) (s : State) : Prop :=
  match s.motS.plan with
  | .idle => True
  | .run _ up none _ st => st = false ∧ (s.motS.state = .accel ∨ s.motS.state = .slew) ∧ s.motS.rampIndex + up ≤ j.fig.slewUse
      ∧ j.fig.margin + 1 ≤ scanFree s ∧ j.phase ≠ .dirwait
  | .run _ up (some f) down st => st = true ∧ linesWithin j.fig.m (j.toBoundary (setLead s)) (up + f + down) ≤ scanFree s
  | .burst _ _ => False

/-- The slots of the Scan Ring: a slot is reserved exactly while a line's computation runs (R46), the ring is empty with no job,
the job's figures are those of a slew index up to the one asked (R120), and the bound of R46. -/
structure RingBase (s : State) : Prop where
  one   : s.rings.scanReserved = s.front.comp.isSome.toNat
  idle  : s.scanJob = none → s.rings.scan.occ = 0 ∧ s.front.comp = none
  fig   : ∀ j, s.scanJob = some j → ∃ k ≤ j.slewReq, j.fig = figuresOf k j.res.steps (setRh s)
  bound : ∀ j, s.scanJob = some j → j.roomy s → s.rings.scan.occ + s.rings.scanReserved ≤ Config.scanRingSlots

/-- What every step keeps of the Scan Ring: its slots, and what carries their bound: the scan context waits for a place only in
DIRWAIT (R130), a sheet's step count is short of its next boundary (R125), and a moving scan has room for its run (R126). -/
structure RingSound (s : State) : Prop extends RingBase s where
  waits : s.scanCd.dirWait ≠ none → ∃ j, s.scanJob = some j ∧ j.phase = .dirwait
  next  : ∀ j, s.scanJob = some j → j.phase = .lead ∨ j.phase = .capture → j.stepCount < setLead s + 1 + j.y * j.fig.m
  room  : ∀ j, s.scanJob = some j → j.roomy s → j.feeds = true → s.motS.moving = true → s.motS.owner = .scan → runRoom j s

end Sys2Proof.Machine
end

