-- ==== Sys2Proof/Certificates/Slice0/Obligations.lean ====
section
/-! DEFINITION. The statements for the provers. -/

section
open Sys2Proof Sys2Proof.Machine

/-! ## The queue and the port -/

/-- The commands are taken from the front of the queue, first in first out; on an empty queue the block idles (the host's
form of a block; log entry 1). -/
def Obligations.StepRunsFrontCommand : Prop :=
  (∀ (c : Instr) (rest : List Instr) (s : State), s.pending = c :: rest → step s = exec c { s with pending := rest })
    ∧ ∀ s : State, s.pending = [] → step s = .next s

/-- WSTB_STROBE (R1, R171): without CS it is no strobe to the part; with RDY low, out of SLEEP, the byte is lost, unless it
came together with a wake event of DOZE taken just before it and completes an order that needs RUN, which then waits in the
buffer for the return under way (the form of the operand is the model's, log entry 39); with RDY high a header byte is
appended to the record being received, and nothing else changes. The lines' levels come with the command (log entry 2).
RSTB_STROBE (R4, R8, R9, R164, R185): without CS nothing; with ATTN low FFh and no other change; within a record the next
byte is driven and leaves the record; between records the oldest reply comes first where it is filled, else the oldest EVENT
record, else the head line of the Output Ring as it stands, a repeat with no payload; reading the last byte of a REPLY or
EVENT record removes its entry from its queue and changes nothing else but the byte driven; reading the last byte of a LINE
record releases its slot, the head of the Output Ring. -/
def Obligations.StrobesTakeAndDriveBytes : Prop :=
  (∀ (cs : Bool) (d : Byte) (together : Bool) (lv : Levels) (s : State),
      (cs = false → exec (.wstbStrobe ⟨cs, together⟩ d lv) s = .next (sense lv s))
        ∧ (cs = true → s.power.state ≠ .sleep → rdy s = false →
            (together = false ∨ wakeReturns s = false ∨ ∀ bs, s.port.inbound = .receiving bs → runOrder? (bs ++ [d]) = none) →
              exec (.wstbStrobe ⟨cs, together⟩ d lv) s = .next (sense lv s))
        ∧ (∀ bs r, cs = true → together = true → wakeReturns s = true → s.port.inbound = .receiving bs →
            runOrder? (bs ++ [d]) = some r →
              exec (.wstbStrobe ⟨cs, together⟩ d lv) s = .next (setInbound (.held r) (sense lv s)))
        ∧ (∀ bs, cs = true → rdy s = true → s.port.inbound = .receiving bs → bs.length < 3 →
            exec (.wstbStrobe ⟨cs, together⟩ d lv) s = .next (setInbound (.receiving (bs ++ [d])) (sense lv s))))
    ∧ (∀ (cs : Bool) (s : State),
        (cs = false → exec (.rstbStrobe cs) s = .next s)
          ∧ (cs = true → attn s = false → exec (.rstbStrobe cs) s = .next (mapPort (fun p => { p with dataOut := 0xFF }) s))
          ∧ (∀ src b b' rest, cs = true → attn s = true → s.port.course = some { source := src, rest := b :: b' :: rest } →
              exec (.rstbStrobe cs) s =
                .next (mapPort (fun p => { p with course := some { source := src, rest := b' :: rest }, dataOut := b }) s)))
    ∧ (∀ s : State, attn s = true → s.port.course = none →
        let begins (src : OutSource) (b : Byte) (rest : List Byte) : Prop :=
          exec (.rstbStrobe true) s =
            .next (mapPort (fun p => { p with dataOut := b, course := some { source := src, rest := rest } }) s)
        (∀ k sb st a tl, s.port.replies = { kind := k, sub := sb, body := .filled st a } :: tl →
            begins .reply 0x80 (BitVec.ofNat 8 st.code :: (be16 (2 + a.length) ++ [k, sb] ++ a)))
          ∧ (∀ f q, replyReady s = false → s.events.queue = f :: q →
              begins .event 0x90 (BitVec.ofNat 8 f.val :: be16 4 ++
                [if (s.events.flags[f]).again then 1 else 0, BitVec.ofNat 8 (s.events.flags[f]).page,
                  BitVec.ofNat 8 (s.events.flags[f]).chan, BitVec.ofNat 8 (s.events.flags[f]).reason]))
          ∧ (replyReady s = false → s.events.queue = [] →
              let x := s.rings.output.slot s.rings.output.head
              begins .line 0x10
                ((if x.last then 1 else 0) :: (if x.rep then be16 0 else be16 216 ++ lineToBytes x.dots))))
    ∧ ∀ (b : Byte) (s : State), attn s = true →
        (s.port.course = some { source := .reply, rest := [b] } →
            exec (.rstbStrobe true) s =
              .next (mapPort (fun p => { p with course := none, dataOut := b, replies := s.port.replies.tail }) s))
          ∧ (s.port.course = some { source := .event, rest := [b] } →
              exec (.rstbStrobe true) s =
                .next { mapPort (fun p => { p with course := none, dataOut := b }) s with
                        events := { s.events with queue := s.events.queue.tail } })
          ∧ (s.port.course = some { source := .line, rest := [b] } →
              exec (.rstbStrobe true) s =
                .next (settle { mapPort (fun p => { p with course := none, dataOut := b }) s with
                                rings := { s.rings with output := s.rings.output.free } }))

/-- The record rows stand for their strobes (R1, R2, R3): a record whose header passes, written byte by byte, is the record
complete; one refused at its header is drained, and once its stated payload has been written one REPLY with the refusal
status and the kind and sub as received is in the queue, the buffer empty, nothing else changed. That a record row is the
host writing the record whole is the model's form of the row (log entry 6). -/
def Obligations.RecordsAreTheirStrobes : Prop :=
  (∀ (r : Record) (s : State), rdy s = true → s.port.inbound = .receiving [] →
      headerCheck r.kind r.sub r.payload.length = none →
        r.bytes.foldl (fun s d => strobe false d s) s = completeRecord r s)
    ∧ (∀ (r : Record) (st : Status) (s : State), rdy s = true → s.port.inbound = .receiving [] → r.payload.length ≤ 65535 →
          headerCheck r.kind r.sub r.payload.length = some st →
            r.bytes.foldl (fun s d => strobe false d s) s = pushReply r.kind r.sub (.filled st []) s)

/-! ## Invariants every step keeps -/

/-- The reply queue never overflows: from every state in which it holds at most eight entries, seven while a record is
partly received or held, a step leaves it so (R1, R4). -/
def Obligations.RepliesNeverOverflow : Prop :=
  ∀ s t : State, s.repliesSound → step s = .next t → t.repliesSound

/-- The EVENT queue holds at most one record per flag, each of a flag marked reported, the record partly read apart: every
step keeps this (R184, R186). -/
def Obligations.EventQueueStaysSound : Prop :=
  ∀ s t : State, s.queueSound → s.queueReported → step s = .next t → t.queueSound ∧ t.queueReported

/-- The page DRAM keeps its canonical form through every step. The form is the model's own (log entry 4). -/
def Obligations.DramStaysCanonical : Prop :=
  ∀ s t : State, s.dramSound → step s = .next t → t.dramSound

/-- While COVER is low or PFAIL is high all motor outputs and hold lines are low (R112), and outside RUN too, with no channel
moving (R115): the accounting of lines, power states and channels that carries this is kept by every step. -/
def Obligations.MotorOutputsStayLow : Prop :=
  ∀ s t : State, MotorsSound s → step s = .next t →
    MotorsSound t ∧ (t.lines.cover = false ∨ t.lines.pfail = true → t.motorsLow)
      ∧ (t.power.state ≠ .run → t.motorsLow ∧ t.motS.moving = false ∧ t.motP.moving = false)

/-- The directory holds 32 entries and places at most, and no two entries of one page id (R78), and outside the list build every
block of page memory is free, an entry's or the reserve's (R64): the accounting of jobs, contexts and pages that carries this is
kept by every step. -/
def Obligations.DirectoryAndBlocksStaySound : Prop :=
  ∀ s t : State, MotorsSound s → PagesSound s → step s = .next t →
    PagesSound t ∧ t.dir.entries.length + t.dir.places ≤ 32 ∧ (t.dir.entries.map Entry.id).Nodup
      ∧ (t.boot.state = .ready → t.pmc.build = none →
        t.pmc.count + (t.dir.entries.map Entry.blockCount).sum + 16 = nBlocks t)

/-- The Scan Ring's law (R46): a slot is reserved exactly while a line's computation runs, the ring is empty with no job, and
occupied and reserved slots are 16 at most for a scan whose settings and order let the stop margin of R120 and R126 hold what
R46 promises (RH of 2 or more, a slew index of 15 lines' steps or less, a line of LEAD + 2 steps or less: log entry 47): the
accounting of the run that carries this is kept by every step. -/
def Obligations.ScanRingKeepsItsBound : Prop :=
  ∀ s t : State, PagesSound s → RingSound s → step s = .next t →
    RingSound t ∧ t.rings.scanReserved = t.front.comp.isSome.toNat ∧ (t.scanJob = none → t.rings.scan.occ = 0)
      ∧ ∀ j : ScanJob, t.scanJob = some j → 2 ≤ setRh t → j.slewReq ≤ 15 * j.res.steps → j.res.steps ≤ setLead t + 2 →
        t.rings.scan.occ + t.rings.scanReserved ≤ 16

/-- The invariants of the statements above hold right after reset (R10, R96, R187). -/
def Obligations.InvariantsHoldAtReset : Prop :=
  State.reset.repliesSound ∧ State.reset.queueSound ∧ State.reset.queueReported ∧ State.reset.dramSound
    ∧ State.reset.dirSound ∧ MotorsSound State.reset ∧ PagesSound State.reset ∧ RingSound State.reset

/-! ## LINE, LOAD, QUERY, EVACK, the event flags -/

/-- LINE (R7, R48, R49): accepted, its dots, a repeat of the previous intake line for an empty payload and else the
payload's padded white, enter the Intake Ring with the line's number and mark and no reply; refused STATE with no INTAKE job
open, FULL with the ring full, STATE for the repeat form at a page's first line, the intake page and the ring stay exactly
as they were (R159). That the line number has no upper bound is the model's choice (log entry 32). -/
def Obligations.LineEntersRingOrIsRefused : Prop :=
  (∀ (sub : Byte) (payload : List Byte) (s : State) (j : IntakeJob), portOpen s → sub.toNat ≤ 1 → payload.length ≤ 216 →
      s.intJob = some j → j.state = .opened → s.rings.intake.full = false → (payload = [] → s.port.intakeLineNo ≠ 0) →
        let x : Slot := { dots := if payload = [] then s.port.prevIntake.getD whiteLine else lineOfBytes payload,
                          lineNo := s.port.intakeLineNo, last := decide (sub = 1), rep := false }
        exec (.line sub payload) s =
          .next (restartIdle { s with
            rings := { s.rings with intake := s.rings.intake.enter x,
                                    intakeFull := s.rings.intakeFull || (s.rings.intake.enter x).full },
            port := { s.port with intakeLineNo := if sub = 1 then 0 else s.port.intakeLineNo + 1,
                                  prevIntake := some x.dots } }))
    ∧ (∀ (sub : Byte) (payload : List Byte) (s : State), portOpen s → sub.toNat ≤ 1 → payload.length ≤ 216 →
          ((∀ j, s.intJob = some j → j.state = .closing) →
              exec (.line sub payload) s = .next (restartIdle (pushReply kLine sub (.filled .state []) s)))
            ∧ (∀ j, s.intJob = some j → j.state = .opened → s.rings.intake.full = true →
                exec (.line sub payload) s = .next (restartIdle (pushReply kLine sub (.filled .full []) s)))
            ∧ (∀ j, s.intJob = some j → j.state = .opened → s.rings.intake.full = false → payload = [] →
                s.port.intakeLineNo = 0 →
                  exec (.line sub payload) s = .next (restartIdle (pushReply kLine sub (.filled .state []) s))))

/-- LOAD (R12, R13, R14, R15): a segment other than 0 that does not continue the assembly is refused STATE, a final flag
other than 0 and 1 BADARG, and nothing changes. Otherwise the bytes join the image, segment 0 beginning it afresh whatever
stood before. An image of more than 12288 bytes is LENGTH and the assembly is empty; one with more to come is kept for the
next segment and answered OK with an empty answer; a final one empties the assembly and is refused LENGTH where its length
does not fit the table's format, BADARG where an enumeration is out of its set, BUSY for SHADING during a calibration and
for SETTINGS while a job or a calibration exists or a channel is not at rest, STATE for SETTINGS of another memory size
while a page exists. A table other than SETTINGS not so refused becomes, clamped, the active copy with the pending copy
discarded, or the pending copy where the table is in use, and the reply says where it went, how many values were clamped and
the first one's offset. That a segment number above 15 never continues an assembly is the model's reading (log entry 18),
that the memory size and the pixel clock of SETTINGS are enumerations the model's choice (log entry 49). -/
def Obligations.LoadGathersAndInstallsImage : Prop :=
  ∀ (id : Fin 14) (seg : Byte) (bytes : List Byte) (s : State), portOpen s → bytes.length ≤ 2046 →
    let tid : Byte := BitVec.ofNat 8 id.val
    let answers (fin : Byte) (st : Status) (ans : List Byte) (t : State) : Prop :=
      exec (.load tid seg fin bytes) s = .next (restartIdle (arbitrate (pushReply kLoad tid (.filled st ans) t)))
    let continues (a : Assembly) : Prop := a.table = id ∧ a.next = seg.toNat ∧ seg.toNat ≤ 15
    (∀ fin : Byte, 2 ≤ fin.toNat → answers fin .badarg [] s)
      ∧ (∀ fin : Byte, fin.toNat ≤ 1 → seg ≠ 0 → (∀ a, s.tables.assembly = some a → ¬continues a) → answers fin .state [] s)
      ∧ ∀ img : List Byte,
        ((seg = 0 ∧ img = bytes) ∨ (seg ≠ 0 ∧ ∃ a, s.tables.assembly = some a ∧ continues a ∧ img = a.bytes ++ bytes)) →
          let t := setAssembly none s
          (12288 < img.length → answers 0 .length [] t ∧ answers 1 .length [] t)
            ∧ (img.length ≤ 12288 →
                answers 0 .ok []
                    { s with tables := { s.tables with
                        assembly := some { table := id, next := seg.toNat + 1, bytes := img } } }
                  ∧ (tableLengthOk id img = false → answers 1 .length [] t)
                  ∧ (tableLengthOk id img = true → tableEnumsOk id img = false → answers 1 .badarg [] t)
                  ∧ (tableLengthOk id img = true → tableEnumsOk id img = true →
                      (id = tShading → s.front.cal ≠ none → answers 1 .busy [] t)
                        ∧ (id = tSettings →
                            (s.scanJob ≠ none ∨ s.intJob ≠ none ∨ s.prtJob ≠ none ∨ s.outJob ≠ none ∨ s.front.cal ≠ none
                              ∨ s.motS.atRest = false ∨ s.motP.atRest = false) → answers 1 .busy [] t)
                        ∧ (id = tSettings → s.scanJob = none → s.intJob = none → s.prtJob = none → s.outJob = none →
                            s.front.cal = none → s.motS.atRest = true → s.motP.atRest = true →
                            byteAt img 0 ≠ byteAt (settingsImage s) 0 → s.dir.entries ≠ [] → answers 1 .state [] t)
                        ∧ (id ≠ tSettings → (id = tShading → s.front.cal = none) →
                            let c := clampTable id img
                            answers 1 (if c.count = 0 then .ok else .clamped)
                              (be8 (if tableInUse id s then 1 else 0) ++ be16 c.count ++ be16 c.first)
                              (if tableInUse id s then setPending id (some c.image) t
                               else setPending id none (setActive id c.image t)))))

/-- SETTINGS in READY (R15, R67, R185): with no job, no calibration and both channels at rest, an image sent whole that names
the memory size in force, or any size while no page exists, becomes, clamped, the active copy at once; its masks replace the
Event Unit's, and a new memory size begins a list build. As the masks change every flag keeps what it holds but its mask, and
a set flag unmasked and not reported is marked reported, its record joining the queue's tail; several do so in ascending
order, which is the model's choice (log entry 42). -/
def Obligations.SettingsTakesMasksAndSize : Prop :=
  (∀ (image : List Byte) (s : State), portOpen s → s.scanJob = none → s.intJob = none → s.prtJob = none → s.outJob = none →
      s.front.cal = none → s.motS.atRest = true → s.motP.atRest = true → tableLengthOk 0 image = true →
      tableEnumsOk 0 image = true → (byteAt image 0 = byteAt (settingsImage s) 0 ∨ s.dir.entries = []) →
        let c := clampTable 0 image
        let taken : State :=
          { s with
            tables := { active := s.tables.active.set 0 (some c.image), pending := s.tables.pending.set 0 none,
                        assembly := none },
            events := s.events.maskAll (beNat (sliceOf c.image 27 3)) }
        exec (.load 0 0 1 image) s =
          .next (restartIdle (arbitrate (pushReply kLoad 0
            (.filled (if c.count = 0 then .ok else .clamped) (be8 0 ++ be16 c.count ++ be16 c.first))
            (if byteAt image 0 = byteAt (settingsImage s) 0 then taken else startBuild taken)))))
    ∧ ∀ (e : Events) (field : Nat),
      let told (f : Fin 20) : Bool := (e.flags[f]).set && !field.testBit f.val && !(e.flags[f]).reported
      (e.maskAll field).queue = e.queue ++ (List.finRange 20).filter told
        ∧ ∀ f : Fin 20, (e.maskAll field).flags[f] =
            { e.flags[f] with masked := field.testBit f.val, reported := (e.flags[f]).reported || told f }

/-- When a loaded table takes effect (R14, R102, R117): a pending copy whose boundary is reached becomes the active copy, the
pending slot is empty and TABLE_APPLIED is raised with page 0, channel 0 and the table id; a table without one stays. Tables
that meet their boundary together are applied in the order listed, each raising in turn. Of the motor tables those in use
keep both copies and the others take their pending copies; a new phase table takes its channel's phase index modulo its
count. With no job, no pass and no wait, the end of a motion of channel S takes its pending SRAMP and SPHASE into use at once.
(The line-0 boundary of R22 is stated with the line boundaries, HEAT and TEMPF with the start of a copy.) -/
def Obligations.PendingTablesTakeEffect : Prop :=
  (∀ (id : Fin 14) (s : State),
      (s.tables.pending[id] = none → applyPending id s = s)
        ∧ ∀ img, s.tables.pending[id] = some img →
          ∃ t : State, applyPending id s = raise evTableApplied 0 0 id.val t
            ∧ t.tables.active = s.tables.active.set id (some img) ∧ t.tables.pending = s.tables.pending.set id none
            ∧ t.front.defective = (if id = tShading then defectiveOf img else s.front.defective)
            ∧ t.motS = (if id = tSphase then { s.motS with phase := s.motS.phase % phaseCount img } else s.motS)
            ∧ t.motP = (if id = tPphase then { s.motP with phase := s.motP.phase % phaseCount img } else s.motP)
            ∧ t.events = s.events ∧ t.dir = s.dir ∧ t.dram = s.dram ∧ t.port = s.port)
    ∧ (∀ (id : Fin 14) (ids : List (Fin 14)) (s : State), applyAll (id :: ids) s = applyAll ids (applyPending id s))
    ∧ (∀ (s : State) (id : Fin 14),
        let t := applyMotorTables s
        if id ∈ [tSramp, tSphase, tPramp, tPphase] ∧ tableInUse id s = false ∧ s.tables.pending[id] ≠ none then
          t.tables.active[id] = s.tables.pending[id] ∧ t.tables.pending[id] = none
            ∧ (t.events.flags[evTableApplied]).set = true
        else t.tables.active[id] = s.tables.active[id] ∧ t.tables.pending[id] = s.tables.pending[id])
    ∧ ∀ (lv : Levels) (s : State), s.motS.spent = true → s.scanJob = none → s.intJob = none → s.prtJob = none →
        s.outJob = none → s.printDec = none → s.outDec = none → s.scanCd.timer = none → s.scanCd.dirWait = none →
        s.intakeCd.timer = none → s.intakeCd.dirWait = none →
          ∃ t : State, exec (.motionEnd .S lv) s = .next t ∧ t.motS.state = .hold
            ∧ ∀ id ∈ [tSramp, tSphase], s.tables.pending[id] ≠ none →
                t.tables.active[id] = s.tables.pending[id] ∧ t.tables.pending[id] = none
                  ∧ (t.events.flags[evTableApplied]).set = true

/-- Every QUERY is answered at dispatch from the state as it stands, and changes nothing but the reply queue and the idle timer
(R16). TABLE is refused BADARG for a table id above 13 or a copy other than 0 or 1, then NOTABLE for a copy that is absent,
then BADARG for a segment that starts at or beyond the image's end. What the answers give for a page without a block, and a
free count of 0 while a list build runs, are the model's reading (log entry 41). -/
def Obligations.QueriesAnswerFromState : Prop :=
  ∀ s : State, rdy s = true → s.port.inbound = .receiving [] →
    let refuses (i : Instr) (st : Status) : Prop := exec i s = .next (restartIdle (pushReply kQuery 4 (.filled st []) s))
    exec .queryStatus s = .next (restartIdle (pushReply kQuery 1 (.filled .ok (statusAnswer s)) s))
      ∧ exec .queryDir s =
          .next (restartIdle (pushReply kQuery 3
            (.filled .ok (be8 s.dir.entries.length ++ s.dir.entries.flatMap fun e => be8 e.id)) s))
      ∧ exec .queryMem s =
          .next (restartIdle (pushReply kQuery 5
            (.filled .ok (be16 (if s.pmc.build.isSome then 0 else s.pmc.count) ++ be16 (nBlocks s) ++ be16 16)) s))
      ∧ (∀ page, exec (.queryPage page) s =
          .next (restartIdle (pushReply kQuery 2
            (match entryOf page.toNat s with
              | none => .filled .nopage []
              | some e => .filled .ok (pageAnswer e)) s)))
      ∧ ((∀ id copy seg : Byte, (14 ≤ id.toNat ∨ 2 ≤ copy.toNat) → refuses (.queryTable id copy seg) .badarg)
            ∧ ∀ (id : Fin 14) (pending : Bool) (seg : Byte),
                let ask : Instr := .queryTable (BitVec.ofNat 8 id.val) (if pending then 1 else 0) seg
                (copyOf pending id s = none → refuses ask .notable)
                  ∧ ∀ img : List Byte, copyOf pending id s = some img →
                      (img.length ≤ 2040 * seg.toNat → refuses ask .badarg)
                        ∧ (2040 * seg.toNat < img.length →
                            exec ask s =
                              .next (restartIdle (pushReply kQuery 4
                                (.filled .ok (be8 id.val ++ be8 pending.toNat ++ [seg] ++
                                  be8 (if img.length ≤ 2040 * (seg.toNat + 1) then 1 else 0) ++ be16 img.length ++
                                  (img.drop (2040 * seg.toNat)).take 2040)) s))))

/-- Raising a flag (R184): a clear flag is set with its snapshot and again-indicator 0; a set one keeps its snapshot and is
marked again; either way its record joins the queue's tail, and the reported mark is set, where it is unmasked and not
reported; its mask and every other flag stay. EVACK (R186, R3): each listed flag is cleared with its mask kept, the others
stay; the answer has one byte for each listed number, 2 for a flag found set and marked again, 1 for one found set, 0 for one
found clear, as it is where the number came before in the list; the waiting records of the listed flags are withdrawn, the
record partly read and the records of the flags not listed stay in their order; a list with a number of 20 or more is refused
BADARG and clears nothing. -/
def Obligations.FlagsAreRaisedAndAcknowledged : Prop :=
  (∀ (f : Fin 20) (p c r : Nat) (s : State),
      let g := s.events.flags[f]
      let h := (raise f p c r s).events.flags[f]
      let queues := !g.masked && !g.reported
      h.set = true ∧ h.masked = g.masked ∧ h.again = g.set ∧ h.reported = (g.reported || queues)
        ∧ (if g.set then h.page = g.page ∧ h.chan = g.chan ∧ h.reason = g.reason
           else h.page = p ∧ h.chan = c ∧ h.reason = r)
        ∧ (raise f p c r s).events.queue = s.events.queue ++ (if queues then [f] else [])
        ∧ ∀ k, k ≠ f → (raise f p c r s).events.flags[k] = s.events.flags[k])
    ∧ (∀ (fs : List (Fin 20)) (s : State), portOpen s → fs ≠ [] → fs.length ≤ 20 →
        let read := if eventBegun s then 1 else 0
        ∃ (e : Events) (ans : List Byte),
          exec (.evack (fs.map fun f => BitVec.ofNat 8 f.val)) s =
              .next (restartIdle (pushReply kEvack 0 (.filled .ok ans) { s with events := e }))
            ∧ ans.length = fs.length
            ∧ (∀ i f, fs[i]? = some f → ans[i]? = some
                (if f ∈ fs.take i then 0
                 else if (s.events.flags[f]).set then (if (s.events.flags[f]).again then 2 else 1) else 0))
            ∧ (∀ f ∈ fs, e.flags[f] = { EventFlag.reset with masked := (s.events.flags[f]).masked })
            ∧ (∀ f, f ∉ fs → e.flags[f] = s.events.flags[f])
            ∧ e.queue = s.events.queue.take read ++ (s.events.queue.drop read).filter (fun f => decide (f ∉ fs)))
    ∧ ∀ (flags : List Byte) (s : State), portOpen s → flags ≠ [] → flags.length ≤ 20 → (∃ b ∈ flags, 20 ≤ b.toNat) →
        exec (.evack flags) s = .next (restartIdle (pushReply kEvack 0 (.filled .badarg []) s))

/-! ## Scan -/

/-- CALIBRATE and its lines (R40, R41, R42): taken with no calibration, no SCAN job and channel S at rest, its reply waits,
LAMP is low and the first dark line is to be read. Each of the dark lines 0 to 6 and of the white lines 0 to 6 is added to
the sums and the next follows; the eighth dark line gives the rounded means as the black levels, raises LAMP, clears the
sums and starts the LAMPWARM wait, or the first white line where LAMPWARM is 0; the eighth white line stores the rounded
means as the active SHADING with the pending copy discarded, rebuilds the map, fills the reply with the defective count, and
raises CAL_DONE, LAMP low. That a LAMPWARM of 0 passes straight on is the model's reading (log entry 33). -/
def Obligations.CalibrationStartsAndEnds : Prop :=
  (∀ s : State, portOpen s → s.power.state = .run → s.front.cal = none → s.scanJob = none → s.motS.atRest = true →
      exec .calibrate s =
        .next (replied 0x01 .calibrating
          { s with front := { s.front with
              lamp := false, cal := some { stage := .dark 0, sums := List.replicate 1728 0, black := [] } } }))
    ∧ (∀ (v : Vector Byte 1760) (s : State) (c : Calibration), s.front.cal = some c →
          let sums := List.zipWith (fun a x => a + x.toNat) c.sums (v.toList.drop 32)
          let means := sums.map fun n => BitVec.ofNat 8 ((n + 4) / 8)
          let goesOn (lamp : Bool) (c' : Calibration) : Prop :=
            exec (.readoutEnd v) s = .next (settle { s with front := { s.front with lamp := lamp, cal := some c' } })
          (∀ n, n < 7 → c.stage = .dark n → goesOn s.front.lamp { c with stage := .dark (n + 1), sums := sums })
            ∧ (c.stage = .dark 7 →
                goesOn true { stage := if byteAt (settingsImage s) 24 = 0 then .white 0 else .lampWait,
                              sums := List.replicate 1728 0, black := means })
            ∧ (∀ n, n < 7 → c.stage = .white n → goesOn s.front.lamp { c with stage := .white (n + 1), sums := sums })
            ∧ (c.stage = .white 7 →
                let img := (List.zip c.black means).flatMap fun p => [p.1, p.2]
                let n := (defectiveOf img).length
                exec (.readoutEnd v) s =
                  .next (settle (raise evCalDone 0 0 (if 32 < n then 1 else 0)
                    (fillReply .calibrating (if 32 < n then .calweak else .ok) (be16 n)
                      { s with
                        front := { s.front with lamp := false, cal := none, defective := defectiveOf img },
                        tables := { s.tables with active := s.tables.active.set 1 (some img),
                                                  pending := s.tables.pending.set 1 none } })))))

/-- DOZE (R3, R134, R171): CALIBRATE, SCAN, PRINT and MOVE completed in DOZE start the 1 ms return to RUN and are held in the
buffer. With no POWER entry under way, whatever the DRAM port is at, RING, KEY and DOCP rising with their bit in the mask, and
the wake timer, begin the return with reasons 1 to 4; with the bit outside the mask, or with a return already under way, the
level alone changes, or the timer alone stops; DOCP also raises DOC_IN where no SCAN job exists, its bit in the mask or not.
What the arbiter then does, stated for a part whose spill engine awaits no start: nothing while a grant is in course, in
self-refresh, or with nothing waiting for a free port; else the port goes to the burst that is next, and nothing but the grant
and what it takes up changes (R71, R72). -/
def Obligations.DozeHoldsOrdersAndWakes : Prop :=
  (∀ (a b c d e f g : Byte) (n : BitVec 16) (lv : Levels) (s : State), portOpen s → s.power.state = .doze →
      let held (code : Byte) (p : List Byte) (s : State) : State :=
        { s with port := { s.port with inbound := .held { kind := kOrder, sub := code, payload := p } },
                 power := { s.power with returning := some 0 } }
      exec .calibrate s = .next (held 0x01 [] s)
        ∧ exec (.scan a b c d e f g lv) s = .next (held 0x02 [a, b, c, d, e, f, g] (sense lv s))
        ∧ exec (.print a b c d e lv) s = .next (held 0x06 [a, b, c, d, e] (sense lv s))
        ∧ exec (.move a b n c) s = .next (held 0x0A ([a, b] ++ be16 n.toNat ++ [c]) s))
    ∧ (∀ s : State, s.power.state = .doze → s.power.entry = none →
        let back (b : Bool) (r : Nat) (t : State) : State :=
          if b && s.power.returning.isNone then { t with power := { t.power with returning := some r } } else t
        let docIn? (t : State) : State := if s.scanJob = none ∧ s.boot.state ≠ .reset then raise evDocIn 0 0 0 t else t
        (s.lines.ring = false →
            exec .ringRise s =
              .next (arbitrate (back (s.power.mask.getLsbD 0) 1 { s with lines := { s.lines with ring := true } })))
          ∧ (s.lines.key = false →
              exec .keyRise s =
                .next (arbitrate (back (s.power.mask.getLsbD 1) 2 { s with lines := { s.lines with key := true } })))
          ∧ (s.lines.docp = false →
              exec .docpRise s =
                .next (arbitrate (docIn?
                  (back (s.power.mask.getLsbD 2) 3 { s with lines := { s.lines with docp := true } }))))
          ∧ (∀ n, s.power.wakeTimer = some n →
              exec .wakeTimerExpiry s =
                .next (arbitrate (back true 4 { s with power := { s.power with wakeTimer := none } }))))
    ∧ ∀ u : State, (∀ why, u.spill ≠ .await why) →
        ((u.pmc.grant.isSome = true ∨ u.pmc.selfRefresh = true) → arbitrate u = u)
          ∧ (u.pmc.grant = none → u.pmc.selfRefresh = false → u.pmc.srPending = none →
              (nextBurst u = none → arbitrate u = u)
                ∧ ∀ b, nextBurst u = some b →
                    arbitrate u =
                      { u with pmc := { u.pmc with
                          grant := some { burst := b, live := true },
                          refreshDue := u.pmc.refreshDue && b ≠ .refresh && b ≠ .lastRefresh,
                          upkeep := if b.ofUpkeep then upkeepOrder u.pmc.upkeep else u.pmc.upkeep } })

/-- SCAN's owner's checks in their order (R119): BUSY for a job, a calibration or a channel not at rest; STATE without paper;
NOTABLE; NODIR; nothing else changes. With the checks passed (R120, R121), a place is claimed, LAMP is raised, and channel S
takes the first step of an unbounded forward run owned by the Scan Sequencer at the slew index the clamp gives: one step of
the ramp up, or SLEW at once at index 0; the phase index and the step position move by one, the interval is ramp entry 0, and
one step of the motion is counted (the model's own form, log entry 52); the reply gives the values as taken. The start is
stated where the first step finds no edge and is not yet a jam. -/
def Obligations.ScanIsCheckedAndStarts : Prop :=
  ∀ (purpose : Origin) (res : Resolution) (stamp : Bool) (policy : Policy) (zoom limit slew : Byte) (lv : Levels)
    (s : State), portOpen s → s.power.state = .run → purpose ≠ .intake →
      let command : Instr :=
        .scan (BitVec.ofNat 8 purpose.code) (BitVec.ofNat 8 res.code) zoom (if stamp then 1 else 0)
          (BitVec.ofNat 8 policy.code) limit slew lv
      let refuse (st : Status) : Prop := exec command s = .next (replied 0x02 (.filled st []) (sense lv s))
      ((s.scanJob ≠ none ∨ s.front.cal ≠ none ∨ s.motS.atRest = false) → refuse .busy)
        ∧ (s.scanJob = none → s.front.cal = none → s.motS.atRest = true →
            ((sense lv s).lines.docp = false → refuse .state)
              ∧ ((sense lv s).lines.docp = true → (∃ id ∈ scanNeeds, s.tables.active[id] = none) → refuse .notable)
              ∧ ((sense lv s).lines.docp = true → (∀ id ∈ scanNeeds, (s.tables.active[id]).isSome = true) →
                  (32 ≤ s.dir.entries.length + s.dir.places → refuse .nodir)
                    ∧ ∀ fig : Figures, s.dir.entries.length + s.dir.places < 32 → lv.doce = false → 2 ≤ setJamSteps s →
                      scanFigures res (min 31 slew.toNat) s = some fig →
                        let m : Motor :=
                          { s.motS with
                            state := if fig.slewUse = 0 then .slew else .accel,
                            rampIndex := if fig.slewUse = 0 then 0 else 1, slewEff := fig.slewUse,
                            slewReq := min 31 slew.toNat, plan := .run false (fig.slewUse - 1) none 0 false,
                            phase := nextPhase false (phaseCount (phaseTable .S s)) s.motS.phase, pos := s.motS.pos + 1,
                            hold := none, owner := .scan, interval := rampEntry (rampTable .S s) 0, issued := 1 }
                        exec command s =
                          .next (replied 0x02
                            (.filled
                              (if clampNat 50 200 zoom.toNat ≠ zoom.toNat ∨ clampNat 1 32 limit.toNat ≠ limit.toNat
                                  ∨ min 31 slew.toNat ≠ slew.toNat ∨ fig.slewUse ≠ min 31 slew.toNat then .clamped else .ok)
                              [BitVec.ofNat 8 purpose.code, BitVec.ofNat 8 res.code,
                                BitVec.ofNat 8 (clampNat 50 200 zoom.toNat), if stamp then 1 else 0,
                                BitVec.ofNat 8 policy.code, BitVec.ofNat 8 (clampNat 1 32 limit.toNat),
                                BitVec.ofNat 8 fig.slewUse])
                            { sense lv s with
                              front := { s.front with lamp := true },
                              dir := { s.dir with places := s.dir.places + 1 }, motS := m,
                              scanJob := some { ScanJob.start purpose res (clampNat 50 200 zoom.toNat) stamp policy
                                                  (clampNat 1 32 limit.toNat) (min 31 slew.toNat) fig with
                                                searchCount := 1 } })))

/-- STOP of the SCAN job (R122, R132): the ending decision is taken at once with reason 2, the place released, the Scan Ring
emptied with any line in computation abandoned, the directory wait over, a stop request of 0 steps made. With keep-partial the
page being written is completed truncated at its last whole line, its line 0 still part coded or not (R83), and is then gone
where it has no stored line and no reader (R84); without keep-partial it is discarded (R86); no page of the scan stays FILLING;
the entries of other pages are not stated here. With no context waiting for a block, the
only bytes of DRAM written are the header of the kept page's last block (R62), where the context holds one, its next none and
its fill the end of the page's last whole line; that it is written at the STOP itself, and that a discard writes nothing at
once but queues the header of the freed current block as list upkeep, is the model's reading (log entry 10). -/
def Obligations.StopScanTakesEndingDecision : Prop :=
  ∀ (keep : Bool) (s : State) (j : ScanJob), portOpen s → s.front.cal = none → s.scanJob = some j → j.phase ≠ .ending →
    ∃ (t : State) (j' : ScanJob),
      exec (.stopScan (if keep then 1 else 0)) s =
          .next (replied 0x08 (.filled .ok [0, if keep then 1 else 0]) t)
        ∧ t.scanJob = some j' ∧ j'.phase = .ending ∧ j'.endReason = 2 ∧ j'.pause = false ∧ j'.docHeld = none
        ∧ t.rings.scan.occ = 0 ∧ t.rings.scanReserved = 0 ∧ t.front.comp = none ∧ t.dir.places = 0
        ∧ t.scanCd.dirWait = none ∧ t.besideJobs s ∧ t.port = s.port ∧ t.motS = s.motS.stop 0
        ∧ t.motP = s.motP ∧ t.intJob = s.intJob ∧ t.outJob = s.outJob ∧ t.outDec = s.outDec
        ∧ (∀ e ∈ t.dir.entries, e.state = .filling → e.writer ≠ some .scan)
        ∧ (∀ id e, s.scanCd.page = some id → entryOf id s = some e →
            (keep = false → entryOf id t = none)
              ∧ (keep = true →
                  j'.lastCompleted = id
                    ∧ (e.headLine = e.lineCount → e.printRd = none → e.outRd = none → entryOf id t = none)
                    ∧ ((e.headLine ≠ e.lineCount ∨ e.printRd ≠ none ∨ e.outRd ≠ none) →
                        ∃ e', entryOf id t = some e' ∧ e'.state = .complete ∧ e'.truncated = true ∧ e'.writer = none
                          ∧ e'.lineCount = e.lineCount ∧ e'.headLine = e.headLine)))
        ∧ (s.noAsk →
            t.dram =
              match keep, s.scanCd.page, s.scanCd.block, s.scanCd.lastEnd with
              | true, some _, some _, some (b, fill) =>
                s.dram.writeAll (blockAddr b) false (be16 noBlock ++ be16 fill)
              | _, _, _, _ => s.dram)

/-- The steps of channel S under a scan job that are no line boundary (R123, R124, R127, R128, R129), DOCE sampled as each
falls due. In SEARCH with DOCE low the step is issued and the search count rises; the step that brings it to JAMSTEPS is a
jam: JAM, page 0, channel 1, reason 1, the channel in FAULT with cause JAM, the ending decision with reason 3. With DOCE
high the job's place becomes a FILLING page entry with the scan context as writer, the page count rises and LEAD begins at
page step 0. In LEAD and CAPTURE the page step count rises, and the first step with DOCE low is the trailing edge. In
DIRWAIT, RUNOUT and ENDING the step is issued and nothing else. A boundary due while the line before it is still being read
waits for its readout's end (log entry 1). A channel at rest with a pause or a run owed, in SEARCH, LEAD or CAPTURE, is
given a new run once the free slots reach the restart level, the pause cleared and its first step issued at once (R127), in
SEARCH with the same three outcomes, in LEAD and CAPTURE as a step that is no boundary or as the boundary of the line due:
that line starts as at any boundary (`LineStarts`) but that F is not read, or at MAXLINES the jam of reason 2 is found. DOCE
and DOCP are as last sensed there (log entry 2). The field that owes the run after a directory wait is the model's (log
entry 45). -/
def Obligations.ScanRunSteps : Prop :=
  ∀ (s : State) (j : ScanJob), s.scanJob = some j →
    let n := j.stepCount + 1
    let boundary := decide (n = setLead s + 1 + j.y * j.fig.m)
    let paged (j : ScanJob) (l : Lines) : ScanJob :=
      { j with stepCount := n, trailing := if j.trailing = none ∧ l.doce = false then some n else j.trailing }
    let edge (j : ScanJob) (m : Motor) (s : State) : State :=
      { s with
        motS := m,
        dir := { entries := s.dir.entries ++ [Entry.new (newId s) j.purpose j.res .scan], places := 0,
                 nextId := if 255 ≤ newId s then 1 else newId s + 1 },
        scanJob := some { j with searchCount := j.searchCount + 1, pageCount := j.pageCount + 1, stepCount := 0,
                                 trailing := none, y := 0, phase := .lead } }
    (∀ lv : Levels, s.motS.owner = .scan → s.motS.moving = true → s.motS.stepDue = true →
        let base : State := sense lv s
        let m : Motor := s.motS.issue (rampTable .S s) (phaseCount (phaseTable .S s))
        (lineOpen s = true → exec (.motorStep .S lv) s = .next (settle base))
          ∧ (j.phase = .search → lv.doce = false → j.searchCount + 1 < setJamSteps s →
              exec (.motorStep .S lv) s =
                .next (settle { base with motS := m, scanJob := some { j with searchCount := j.searchCount + 1 } }))
          ∧ (j.phase = .search → lv.doce = false → setJamSteps s ≤ j.searchCount + 1 →
              ∃ t : State, exec (.motorStep .S lv) s = .next (settle t) ∧ ScanJammed 0 1 s t ∧ t.motS.pos = m.pos)
          ∧ (j.phase = .search → lv.doce = true → exec (.motorStep .S lv) s = .next (settle (edge j m base)))
          ∧ ((j.phase = .lead ∨ j.phase = .capture) → boundary = false →
              exec (.motorStep .S lv) s =
                .next (settle { base with motS := m, scanJob := some (paged j base.lines) }))
          ∧ ((j.phase = .dirwait ∨ j.phase = .runout ∨ j.phase = .ending) →
              exec (.motorStep .S lv) s = .next (settle { base with motS := m })))
    ∧ ((j.phase = .search ∨ j.phase = .lead ∨ j.phase = .capture) → (j.pause = true ∨ j.awaitRun = true) →
        s.motS.atRest = true →
          let run : Motor := s.motS.beginRun (rampCount (rampTable .S s)) .scan false j.slewReq j.fig.slewUse none
          let m : Motor := run.issue (rampTable .S s) (phaseCount (phaseTable .S s))
          let going : ScanJob := { j with pause := false, awaitRun := false }
          (scanFree s < j.fig.restart → settleScanRestart s = s)
            ∧ (j.fig.restart ≤ scanFree s → j.phase = .search →
                (s.lines.doce = false → j.searchCount + 1 < setJamSteps s →
                    settleScanRestart s =
                      { s with motS := m, scanJob := some { going with searchCount := j.searchCount + 1 } })
                  ∧ (s.lines.doce = false → setJamSteps s ≤ j.searchCount + 1 →
                      ScanJammed 0 1 s (settleScanRestart s) ∧ (settleScanRestart s).motS.pos = m.pos)
                  ∧ (s.lines.doce = true → settleScanRestart s = edge going m s))
            ∧ (j.fig.restart ≤ scanFree s → (j.phase = .lead ∨ j.phase = .capture) →
                (boundary = false →
                    settleScanRestart s = { s with motS := m, scanJob := some (paged going s.lines) })
                  ∧ (boundary = true → s.front.comp ≠ none → settleScanRestart s = s)
                  ∧ (boundary = true → s.front.comp = none → j.y ≠ setMaxLines s →
                      LineStarts true going run s.lines s (settleScanRestart s))
                  ∧ (boundary = true → s.front.comp = none → j.y = setMaxLines s →
                      ∃ page : Nat, ScanJammed page 2 s (settleScanRestart s)
                        ∧ (settleScanRestart s).motS.pos = s.motS.pos)))

/-- A line boundary (R22, R125, R126, R128, R129), the step numbered LEAD + 1 + y × m, no line being read. At MAXLINES lines
it is a jam: JAM with the page being scanned, the newest FILLING one the scan writes, channel 1 and reason 2, the channel in
FAULT with its step not issued, the ending decision with reason 3. Otherwise the line starts (`LineStarts`): the ring's tail
slot is reserved, line y is in computation with its last-of-page mark, the dither indices stand at its start, CAPTURE stands
and y rises; where the free slots after the reservation are within the stop margin and no stop stands, the pause is set and
the stop of R126 is made before the step is issued. At line 0 the error row is cleared and every pending copy of tables 1 to
7 becomes active. At the closing boundary the job goes on to SEARCH with a place claimed, to DIRWAIT with MEM_WAIT raised
where the directory is full, or to RUNOUT; in the last two a stop request of 0 steps is made. The stop count where the
acceleration has just been completed (log entry 26) and the dither column 0 from a line's start (log entry 37) are the
model's reading. -/
def Obligations.ScanLineBoundaries : Prop :=
  ∀ (lv : Levels) (s : State) (j : ScanJob), s.scanJob = some j → s.motS.owner = .scan → s.motS.moving = true →
    s.motS.stepDue = true → (j.phase = .lead ∨ j.phase = .capture) → s.front.comp = none →
    j.stepCount + 1 = setLead s + 1 + j.y * j.fig.m →
      (j.y = setMaxLines s →
          ∃ (t : State) (page : Nat), exec (.motorStep .S lv) s = .next (settle t) ∧ ScanJammed page 2 s t
            ∧ t.motS.pos = s.motS.pos
            ∧ ∀ (pre post : List Entry) (e : Entry), s.dir.entries = pre ++ e :: post → e.state = .filling →
                e.writer = some .scan → (∀ x ∈ post, x.state = .filling → x.writer ≠ some .scan) → page = e.id)
        ∧ (j.y ≠ setMaxLines s →
            ∃ t : State, exec (.motorStep .S lv) s = .next (settle t)
              ∧ LineStarts false j s.motS (sense lv s).lines s t)

/-- A scan line's readout ends (R21, R35): its dots fill the reserved slot with the line's number and mark, the error row
takes what the line gathered; nothing else changes before what follows at once, but that the dither column counter stands at
3, the column of dot 1727, which is the model's reading (log entry 37). -/
def Obligations.ReadoutFillsReservedSlot : Prop :=
  ∀ (v : Vector Byte 1760) (s : State) (c : LineComp) (j : ScanJob), s.front.cal = none → s.front.comp = some c →
    s.scanJob = some j →
      let r := (lineInputs j c.y (pixelSamples v) s).compute
      exec (.readoutEnd v) s =
        .next (settle { s with
          rings := { s.rings with
            scan := s.rings.scan.fillReserved { dots := r.1, lineNo := c.y, last := c.last, rep := false },
            scanReserved := s.rings.scanReserved - 1 },
          front := { s.front with comp := none, errorRow := r.2, ditherCol := 3 } })

/-- With method FIXED, a dot within the width is black exactly when its tone value is less than the threshold; a threshold
of 0 makes every dot white, and 255 every dot black except those of tone value 255 (R32). -/
def Obligations.FixedThresholdDecidesDot : Prop :=
  ∀ (a : LineInputs) (j : Nat) (f : Diffusion), j < outWidth a.zoom → (a.modeAt j).method = 0 →
    (a.binarize j f).1 = decide (a.tone j < (a.modeAt j).threshold)
      ∧ ((a.modeAt j).threshold = 0 → (a.binarize j f).1 = false)
      ∧ ((a.modeAt j).threshold = 255 → ((a.binarize j f).1 = true ↔ a.tone j ≠ 255))

/-- With method DIFFUSE (R34), for a dot within the width: the decision value is t + e + q clamped to −128..383, black below
128; the error lies in −128..128; the shares are the truncated half, quarter and eighth and the rest, and sum to the error;
r is the carry of the next dot, d joins the dot's own next-line entry, dl its left neighbour's and dr its right
neighbour's. The rule's worked figures included. The rule is the spec's for method 2; that a method above 2, which only a
restored MODES image can hold, is taken as DIFFUSE is the model's choice (log entry 58). -/
def Obligations.DiffusionDecidesAndSharesError : Prop :=
  (∀ (a : LineInputs) (j : Nat) (f : Diffusion), j < outWidth a.zoom → 2 ≤ (a.modeAt j).method →
    let v := clampInt (-128) 383 ((a.tone j : Int) + a.errorRow.getD j 0 + f.carry)
    let err := if v < 128 then v else v - 255
    let h := sharesOf err
    (a.binarize j f).1 = decide (v < 128) ∧ -128 ≤ v ∧ v ≤ 383 ∧ -128 ≤ err ∧ err ≤ 128
      ∧ h.r = err.tdiv 2 ∧ h.d = err.tdiv 4 ∧ h.dl = err.tdiv 8 ∧ h.r + h.d + h.dl + h.dr = err
      ∧ (a.binarize j f).2.done = addShare f.here h.d :: addLeft h.dl f.done
      ∧ (j + 1 < outWidth a.zoom → (a.binarize j f).2.carry = h.r ∧ (a.binarize j f).2.here = addShare 0 h.dr))
    ∧ decisionValue 154 (-37) 0 = 117 ∧ decisionError 117 = 117
    ∧ sharesOf 117 = { r := 58, d := 29, dl := 14, dr := 16 }

/-- The mode of a dot (R29): the mode index of a source pixel is that of the highest-numbered zone that contains it, 0 where
none does; a dot within the width takes the record of its source pixel's index, so dots of one source pixel share one mode;
a dot beyond the width has mode index 0. -/
def Obligations.HighestZoneGivesMode : Prop :=
  (∀ (zones : List Byte) (i y : Nat),
    (∀ k, k < byteAt zones 0 → zoneHolds zones k i y = true →
        (∀ l, k < l → l < byteAt zones 0 → zoneHolds zones l i y = false) →
          modeIndex zones i y = byteAt zones (9 + 9 * k))
      ∧ ((∀ k, k < byteAt zones 0 → zoneHolds zones k i y = false) → modeIndex zones i y = 0))
    ∧ ∀ (a : LineInputs) (j : Nat),
      (j < outWidth a.zoom → a.modeAt j = modeRecord a.modes (modeIndex a.zones (sourcePixel a.zoom j) a.y))
        ∧ (outWidth a.zoom ≤ j → a.modeAt j = modeRecord a.modes 0)
        ∧ ∀ k, j < outWidth a.zoom → k < outWidth a.zoom → sourcePixel a.zoom j = sourcePixel a.zoom k →
            a.modeAt j = a.modeAt k

/-- Every error row a line's computation leaves has 1728 entries, all in −255..255, those beyond the output width 0 (R35,
R36). -/
def Obligations.ErrorRowStaysInRange : Prop :=
  ∀ a : LineInputs, a.compute.2.length = 1728 ∧ (∀ e ∈ a.compute.2, -255 ≤ e ∧ e ≤ 255)
    ∧ ∀ j, outWidth a.zoom ≤ j → a.compute.2.getD j 0 = 0

/-! ## The line code and the contexts -/

/-- Reading back the code units of any line, below any previous line, gives that line, and the reading ends exactly at the
last unit (R52, R53, R57, R58). -/
def Obligations.LineCodeRoundTrip : Prop :=
  ∀ (prev : Option Line) (l : Line),
    (Parse.mark.feedAll (codeLine prev l)).line? prev = some l
      ∧ (Parse.mark.feedAll (codeLine prev l)).ended = true
      ∧ ∀ n, n < (codeLine prev l).length → (Parse.mark.feedAll ((codeLine prev l).take n)).ended = false

/-- The form of a line (R53): REPEAT below an equal line; otherwise RUNS where 1 plus the run units is 217 or less; otherwise
RAW. A line's code is 1 to 217 units, and a RUNS line takes no more than RAW would. The rule's worked lines included. -/
def Obligations.LineFormAndLength : Prop :=
  (∀ (prev : Option Line) (l : Line),
    (prev = some l → codeLine prev l = [0x01])
      ∧ (prev ≠ some l → 1 + (lineRunUnits l).length ≤ 217 → codeLine prev l = 0x02 :: lineRunUnits l)
      ∧ (prev ≠ some l → 217 < 1 + (lineRunUnits l).length → codeLine prev l = 0x03 :: lineToBytes l)
      ∧ 1 ≤ (codeLine prev l).length ∧ (codeLine prev l).length ≤ 217
      ∧ (prev ≠ some l → 1 + (lineRunUnits l).length ≤ 217 → (codeLine prev l).length ≤ 1 + (lineToBytes l).length))
    ∧ codeLine none whiteLine = [0x02, 0x86, 0xC0]
    ∧ codeLine (some whiteLine) whiteLine = [0x01]
    ∧ codeLine none (lineOfDots (List.replicate 100 false ++ List.replicate 40 true)) = [0x02, 0x64, 0x28, 0x86, 0x34]
    ∧ codeLine none (lineOfDots (List.replicate 12 true)) = [0x02, 0x00, 0x0C, 0x86, 0xB4]

/-- CODER_LINE_START (R54, R66, R68, R80, R81, R124): an IDLE coder context with a line in its ring, the intake context in no
directory wait, takes the head line into CODING, its form chosen against the previous coded line. With a page and room in its
block that is all. With no block yet, or the block exactly full, a block is asked for: with one on the list, no list build
running and the head's link at hand, the head becomes the current block, empty, the page gains it, and a block left behind gets
its header, its next the new block and its fill 1020 (that the header is written at the event itself is the model's reading,
log entry 10); while a build runs, or the link is not at hand, the request waits; with none on the list the context enters
MEMWAIT, its timer at MEMWAIT, and MEM_WAIT is raised with the page, channel 0 and reason 1 or 2. Without a page, for line 0 of
a page, the scan context takes up the oldest FILLING page of its own and begins as with that page; the intake context makes a
new FILLING entry at the directory's end and begins as with that, or, with the directory full, enters the directory wait, and
MEM_WAIT is raised with page 0, channel 0 and reason 4, the line left in the ring. (That a scan context which finds no page of
its own does nothing is the model's reading, log entry 1.) DECODER_LINE_START (R57, R58, R59): a decoder context with ring room
and a coded line begins to read it; one out of step replaces it at once, in the ring's tail slot, by the previous decoded line,
or white, under its own line number, marked last where it is the last line of a page no longer FILLING, without the repeat
mark, and counts one more damaged line on the page, up to 65535. That an ERASING page's last line is marked as a COMPLETE one's
is the model's reading (log entry 31). -/
def Obligations.ContextsBeginLines : Prop :=
  (∀ (ctx : CoderCtx) (s : State) (p : Nat), (coderOf ctx s).st = .idle → 0 < (coderRing ctx s).occ →
      (ctx = .intake → s.intakeCd.dirWait = none) → (coderOf ctx s).page = some p →
        let c := coderOf ctx s
        let coding : Coder :=
          { c with st := .coding, todo := codeLine c.prev ((coderRing ctx s).slot (coderRing ctx s).head).dots }
        (∀ b, c.block = some b → c.wpos < 1020 →
            exec (.coderLineStart ctx) s = .next (settle (setCoder ctx coding s)))
          ∧ ((c.block = none ∨ c.wpos = 1020) →
              ((s.pmc.build ≠ none ∨ (0 < s.pmc.count ∧ (s.pmc.linkKnown = false ∨ s.pmc.readingLink = true))) →
                  exec (.coderLineStart ctx) s = .next (settle (setCoder ctx { coding with asking := true } s)))
                ∧ (s.pmc.build = none → s.pmc.count = 0 →
                    exec (.coderLineStart ctx) s =
                      .next (settle (raise evMemWait p 0 (match ctx with | .scan => 1 | .intake => 2)
                        (setCoder ctx { coding with st := .memwait, timer := some (setMemWait s), asking := false } s))))
                ∧ (s.pmc.build = none → 0 < s.pmc.count → s.pmc.linkKnown = true → s.pmc.readingLink = false →
                    ∃ t : State, exec (.coderLineStart ctx) s = .next (settle t)
                      ∧ coderOf ctx t = { coding with timer := none, block := some s.pmc.head, fill := 0, wpos := 0,
                                                      asking := false }
                      ∧ t.pmc.count = s.pmc.count - 1
                      ∧ t.pmc.head = (if s.pmc.count = 1 then noBlock else s.pmc.headLink)
                      ∧ t.dram = (match c.block with
                                  | none => s.dram
                                  | some b => s.dram.writeAll (blockAddr b) false (be16 s.pmc.head ++ be16 1020))
                      ∧ t.rings = s.rings ∧ t.port = s.port ∧ t.events = s.events
                      ∧ ∀ e, entryOf p s = some e → ∃ e', entryOf p t = some e' ∧ e'.blockCount = e.blockCount + 1
                          ∧ e'.last = s.pmc.head ∧ e'.first = (if e.first = noBlock then s.pmc.head else e.first)
                          ∧ e'.lineCount = e.lineCount ∧ e'.headLine = e.headLine ∧ e'.state = e.state)))
    ∧ (∀ s : State, s.scanCd.st = .idle → 0 < s.rings.scan.occ → s.scanCd.page = none →
        let waits (e : Entry) : Prop := e.state = .filling ∧ e.writer = some .scan
        (∀ pre e post, s.dir.entries = pre ++ e :: post → waits e → (∀ x ∈ pre, ¬waits x) →
            exec (.coderLineStart .scan) s =
              exec (.coderLineStart .scan) { s with scanCd := { s.scanCd with page := some e.id } })
          ∧ ((∀ e ∈ s.dir.entries, ¬waits e) → exec (.coderLineStart .scan) s = .next (settle s)))
    ∧ (∀ (s : State) (j : IntakeJob), s.intakeCd.st = .idle → 0 < s.rings.intake.occ → s.intakeCd.page = none →
        s.intakeCd.dirWait = none → s.intJob = some j →
          (s.dir.entries.length + s.dir.places < 32 →
              exec (.coderLineStart .intake) s =
                exec (.coderLineStart .intake)
                  { s with
                    dir := { s.dir with entries := s.dir.entries ++ [Entry.new (newId s) .intake j.res .intake],
                                        nextId := if 255 ≤ newId s then 1 else newId s + 1 },
                    intakeCd := { s.intakeCd with page := some (newId s) } })
            ∧ (32 ≤ s.dir.entries.length + s.dir.places →
                exec (.coderLineStart .intake) s =
                  .next (settle (raise evMemWait 0 0 4
                    { s with intakeCd := { s.intakeCd with dirWait := some (setMemWait s) } }))))
    ∧ (∀ (ctx : DecoderCtx) (s : State) (p : Pass) (e : Entry), passOf ctx s = some p → p.reading = none →
          (decoderRing ctx s).full = false → entryOf p.page s = some e → p.linePos < e.lineCount →
            (p.outOfStep = false →
                exec (.decoderLineStart ctx) s =
                  .next (settle (setPass ctx (some { p with
                    reading := some { parse := .mark, parity := false, markParity := false, crossed := [] } }) s)))
              ∧ (p.outOfStep = true → ∃ (t : State) (e' : Entry), exec (.decoderLineStart ctx) s = .next (settle t)
                  ∧ passOf ctx t = some { p with linePos := p.linePos + 1, prev := some (p.prev.getD whiteLine),
                                                 outOfStep := true, reading := none }
                  ∧ decoderRing ctx t = (decoderRing ctx s).enter
                      { dots := p.prev.getD whiteLine, lineNo := p.linePos,
                        last := decide (e.state ≠ .filling ∧ p.linePos + 1 = e.lineCount), rep := false }
                  ∧ entryOf p.page t = some e' ∧ e'.damaged = min 65535 (e.damaged + 1) ∧ e'.lineCount = e.lineCount
                  ∧ e'.state = e.state ∧ e'.blockCount = e.blockCount ∧ e'.headLine = e.headLine
                  ∧ (∀ r, e.reader ctx = some r →
                      ∃ r', e'.reader ctx = some r' ∧ r'.linePos = p.linePos + 1 ∧ r'.consume = r.consume)
                  ∧ t.dram = s.dram ∧ t.events = s.events ∧ t.pmc = s.pmc))

/-! ## Page memory -/

/-- A byte reads back as written, seeded or not, at every address that lands in its place, and every other place reads as
before; parity passes after a write and fails after a seeded one (R63). Where an address above the fitted DRAM lands is the
model's choice (log entry 5). -/
def Obligations.DramReadsBackWithParity : Prop :=
  ∀ (m : Memory) (a x : Nat) (b : Byte) (seeded : Bool), m.wf = true →
    (m.write a b seeded).read x = (if m.place x = m.place a then b else m.read x)
      ∧ (m.write a b seeded).parityOk x = (if m.place x = m.place a then !seeded else m.parityOk x)

/-- DRAM_GRANT_END and REFRESH_DUE (R71, R72, R73): a refresh cycle ends and frees the port; with the port free a refresh
cycle falling due is granted at once, whatever else waits, and with a grant in course it waits. A coder's burst puts its units
in the DRAM, every other byte as before (R54, R66, R68): in the middle of a line the write position moves past them; where
they fill the block and more is to come, the head of a free list at hand becomes the current block, its predecessor's header
naming it with a fill of 1020, and with none on the list the context enters MEMWAIT and MEM_WAIT is raised; where they end a
line the page counts it, the fill and the end of the last whole line are the write position, the line is the previous coded
one, its slot is freed and the context is IDLE; INTAKE_SPACE is raised as the marked Intake Ring falls to four (R49). Where they
end the page's last line, with no context waiting for a block, the page counts the line and is COMPLETE, not truncated and with
no writer, the context is IDLE with no page, and the header of its last block has next none and the write position as its fill
(R62, R83). That a header is written at the event itself, at a block's end and at the page's, and not by a grant of its own, is
the model's reading (log entry 10). -/
def Obligations.CoderBurstsAndRefresh : Prop :=
  (∀ (lv : Levels) (s : State) (live : Bool), s.pmc.grant = some { burst := .refresh, live := live } →
      exec (.dramGrantEnd lv) s = .next (settle { sense lv s with pmc := { s.pmc with grant := none } }))
    ∧ (∀ s : State, s.pmc.selfRefresh = false → s.pmc.srPending = none → s.spill = .idle →
          (s.pmc.grant = none →
              exec .refreshDue s =
                .next { s with pmc := { s.pmc with grant := some { burst := .refresh, live := true }, refreshDue := false } })
            ∧ (∀ g, s.pmc.grant = some g → exec .refreshDue s = .next { s with pmc := { s.pmc with refreshDue := true } }))
    ∧ ∀ (lv : Levels) (s : State) (ctx : CoderCtx) (a : Nat) (us : List Byte),
        s.pmc.grant = some { burst := .code ctx a us, live := true } →
          let c := coderOf ctx s
          let w := c.wpos + us.length
          let x := (coderRing ctx s).slot (coderRing ctx s).head
          let written : State :=
            { sense lv s with pmc := { s.pmc with grant := none }, dram := s.dram.writeAll a false us }
          (us.length < c.todo.length → w < 1020 →
              exec (.dramGrantEnd lv) s =
                .next (settle (setCoder ctx { c with todo := c.todo.drop us.length, wpos := w } written)))
            ∧ (∀ id b, us.length < c.todo.length → w = 1020 → c.page = some id → c.block = some b → s.pmc.build = none →
                (0 < s.pmc.count → s.pmc.linkKnown = true →
                    ∃ t : State, exec (.dramGrantEnd lv) s = .next (settle t)
                      ∧ coderOf ctx t = { c with st := .coding, timer := none, todo := c.todo.drop us.length, wpos := 0,
                                                 block := some s.pmc.head, fill := 0, asking := false }
                      ∧ t.pmc.count = s.pmc.count - 1 ∧ t.rings = s.rings ∧ t.port = s.port ∧ t.events = s.events
                      ∧ t.dram = (s.dram.writeAll a false us).writeAll (blockAddr b) false
                          (be16 s.pmc.head ++ be16 1020))
                  ∧ (s.pmc.count = 0 →
                      exec (.dramGrantEnd lv) s =
                        .next (settle (raise evMemWait id 0 (match ctx with | .scan => 1 | .intake => 2)
                          (setCoder ctx { c with st := .memwait, timer := some (setMemWait s), asking := false,
                                                 todo := c.todo.drop us.length, wpos := w } written)))))
            ∧ (∀ id b e, us.length = c.todo.length → x.last = false → c.page = some id → c.block = some b →
                entryOf id s = some e → e.lineCount + 1 < 65535 →
                  let coded : State :=
                    setCoder ctx { c with st := .idle, wpos := w, fill := w, lastEnd := some (b, w), prev := some x.dots,
                                          todo := [] }
                      { written with dir := { s.dir with entries := s.dir.entries.map fun y =>
                          if y.id = id then { y with lineCount := y.lineCount + 1 } else y } }
                  (ctx = .scan →
                      exec (.dramGrantEnd lv) s =
                        .next (settle { coded with rings := { s.rings with scan := s.rings.scan.free } }))
                    ∧ (ctx = .intake →
                        exec (.dramGrantEnd lv) s =
                          .next (settle
                            (if s.rings.intakeFull = true ∧ s.rings.intake.occ - 1 ≤ 4 then
                              raise evIntakeSpace id 0 0
                                { coded with rings := { s.rings with intake := s.rings.intake.free, intakeFull := false } }
                             else { coded with rings := { s.rings with intake := s.rings.intake.free } }))))
            ∧ (∀ id b e, us.length = c.todo.length → x.last = true → c.page = some id → c.block = some b →
                entryOf id s = some e → e.lineCount + 1 < 65535 → e.headLine ≤ e.lineCount → s.noAsk →
                  ∃ (t : State) (e' : Entry), exec (.dramGrantEnd lv) s = .next (settle t)
                    ∧ coderOf ctx t = { Coder.reset with dirWait := c.dirWait }
                    ∧ entryOf id t = some e' ∧ e'.state = .complete ∧ e'.truncated = false ∧ e'.writer = none
                    ∧ e'.lineCount = e.lineCount + 1
                    ∧ t.dram = (s.dram.writeAll a false us).writeAll (blockAddr b) false (be16 noBlock ++ be16 w))

/-- A decoder's burst (R57, R58, R59, R62, R72, R89), the header of its block known from the last read while the read
position stands below its fill, and else read again: from the coder context whose current block it is, or from DRAM. A line
whose last code units, 16 at most, lie at the read position below the fill, its earlier units read in bursts before, is placed
in the ring's tail slot under its number, marked last where it is the last of a page no longer FILLING, and the read position
moves past it. With every unit of good parity the line itself is placed, with the repeat mark where its code was REPEAT in the
output context; where a unit other than the mark has failed parity, in this burst or before, the previous decoded line, or
white, takes its place, PARITY is raised with the page and the context's reason, and the page counts a damaged line. Where the
mark fails parity, the same and the context is out of step. Units that make no line (a bad mark, runs that pass the width or the
run units' number, a REPEAT with no previous line) are replaced and counted in the same way, PARITY only where a unit failed,
and the context is out of step but after a REPEAT. A line that goes on takes all the units of the burst, a failure among them
kept for its end. At the block's fill the successor is entered, its header not yet read, and without one the line's length is
lost. A consuming reader that has come from the page's first block to a successor leaves that block, which joins the free list:
with a line's first unit, the head line being the line read, or, where the line began before, once the line is placed, the head
being the line and the unit behind it. That a block is left for its successor where its fill ends, also below 1020, and that an
ERASING page's last line is marked as a COMPLETE one's, is the model's reading (log entries 25, 31). -/
def Obligations.DecoderBurstsReadLines : Prop :=
  ∀ (lv : Levels) (s : State) (ctx : DecoderCtx) (p : Pass) (r : LineRead) (b next fill : Nat) (e : Entry),
    s.pmc.grant = some { burst := .decode ctx, live := true } → passOf ctx s = some p → p.reading = some r →
    p.block = some b → entryOf p.page s = some e →
    ((p.header = some (next, fill) ∧ p.off < min fill 1020) ∨
      ((∀ n f, p.header = some (n, f) → min f 1020 ≤ p.off) ∧
        ((s.scanCd.block = some b ∧ next = noBlock ∧ fill = s.scanCd.fill)
          ∨ (s.scanCd.block ≠ some b ∧ s.intakeCd.block = some b ∧ next = noBlock ∧ fill = s.intakeCd.fill)
          ∨ (s.scanCd.block ≠ some b ∧ s.intakeCd.block ≠ some b ∧ s.dram.parityAll (blockAddr b) 4 = true
              ∧ s.dram.readAll (blockAddr b) 4 = be16 next ++ be16 fill ∧ next < 65536 ∧ fill < 65536)))) →
      let base : State := { sense lv s with pmc := { s.pmc with grant := none } }
      let units (k : Nat) : List Byte := s.dram.readAll (unitAddr b p.off) k
      let sound (k : Nat) : Bool := s.dram.parityAll (unitAddr b p.off) k
      let n := min 16 (min fill 1020 - p.off)
      let stays : Prop := r.crossed = [] ∨ ∀ rd, e.reader ctx = some rd → rd.consume = false
      let leaves : Prop :=
        r.crossed = [b] ∧ (∃ rd, e.reader ctx = some rd ∧ rd.consume = true) ∧ 1 < e.blockCount ∧ s.noAsk
      let left (t : State) (head off : Nat) : Prop :=
        t.pmc.count = s.pmc.count + 1 ∧ t.pmc.tail = e.first
          ∧ ∃ e', entryOf p.page t = some e' ∧ e'.first = b ∧ e'.blockCount = e.blockCount - 1 ∧ e'.headLine = head
              ∧ e'.headOff = off
      let placed (t : State) (l : Line) (rep lost : Bool) (off : Nat) : Prop :=
        decoderRing ctx t = (decoderRing ctx s).enter
            { dots := l, lineNo := p.linePos, last := decide (e.state ≠ .filling ∧ p.linePos + 1 = e.lineCount),
              rep := rep }
          ∧ passOf ctx t = some { p with linePos := p.linePos + 1, off := off, prev := some l, outOfStep := lost,
                                         header := some (next, fill), reading := none }
          ∧ t.dram = s.dram ∧ t.lines = base.lines ∧ (stays → t.pmc = base.pmc)
      let damaged (t : State) : Prop :=
        ∃ e', entryOf p.page t = some e' ∧ e'.damaged = min 65535 (e.damaged + 1) ∧ e'.lineCount = e.lineCount
      let told (bad : Bool) (t : State) : Prop :=
        t.events = if bad then s.events.raise evParity p.page 0 (match ctx with | .print => 1 | .output => 2) else s.events
      (∀ l k first, r.parse = Parse.mark.feedAll first → r.markParity = false → codeLine p.prev l = first ++ units k →
          0 < k → k ≤ 16 → p.off + k ≤ min fill 1020 → (stays ∨ leaves) →
          (first = [] → s.dram.parityOk (unitAddr b p.off) = true) →
            ∃ t : State, exec (.dramGrantEnd lv) s = .next (settle t)
              ∧ (r.parity = false → sound k = true →
                  told false t ∧ placed t l (decide (ctx = .output ∧ p.prev = some l)) false (p.off + k))
              ∧ ((r.parity = true ∨ sound k = false) →
                  told true t ∧ damaged t ∧ placed t (p.prev.getD whiteLine) false false (p.off + k))
              ∧ (leaves → if first = [] then left t p.linePos 0 else left t (p.linePos + 1) (p.off + k)))
        ∧ (r.parse = .mark → p.off < min fill 1020 → (stays ∨ leaves) → s.dram.parityOk (unitAddr b p.off) = false →
            ∃ t : State, exec (.dramGrantEnd lv) s = .next (settle t) ∧ told true t ∧ damaged t
              ∧ placed t (p.prev.getD whiteLine) false true (p.off + 1) ∧ (leaves → left t p.linePos 0))
        ∧ (∀ k, 0 < k → k ≤ 16 → p.off + k ≤ min fill 1020 → r.markParity = false →
            (r.parse.feedAll (units (k - 1))).ended = false →
            (r.parse.feedAll (units k) = .lost ∨ (r.parse.feedAll (units k) = .done none ∧ p.prev = none)) →
            (r.parse = .mark → s.dram.parityOk (unitAddr b p.off) = true) → (stays ∨ (leaves ∧ r.parse = .mark)) →
              ∃ t : State, exec (.dramGrantEnd lv) s = .next (settle t) ∧ told (r.parity || !sound k) t ∧ damaged t
                ∧ placed t (p.prev.getD whiteLine) false (decide (r.parse.feedAll (units k) = .lost)) (p.off + k)
                ∧ (leaves → left t p.linePos 0))
        ∧ (p.off < min fill 1020 → r.parse.ended = false → (r.parse.feedAll (units n)).ended = false →
            (r.parse = .mark → s.dram.parityOk (unitAddr b p.off) = true) →
              let on (crossed : List Nat) : Pass :=
                { p with off := p.off + n, header := some (next, fill),
                         reading := some { r with parse := r.parse.feedAll (units n), parity := r.parity || !sound n,
                                                  crossed := crossed } }
              ((r.parse ≠ .mark ∨ r.crossed = []) →
                  exec (.dramGrantEnd lv) s = .next (settle (setPass ctx (some (on r.crossed)) base)))
                ∧ (r.parse = .mark → (stays ∨ leaves) →
                    ∃ t : State, exec (.dramGrantEnd lv) s = .next (settle t) ∧ passOf ctx t = some (on [])
                      ∧ t.dram = s.dram ∧ told false t ∧ (stays → t.pmc = base.pmc) ∧ (leaves → left t p.linePos 0)))
        ∧ (min fill 1020 ≤ p.off →
            (next ≠ noBlock → ∃ t : State, exec (.dramGrantEnd lv) s = .next (settle t) ∧ t.dram = s.dram
                ∧ t.events = s.events ∧ t.pmc = base.pmc
                ∧ passOf ctx t = some { p with block := some next, off := 0, header := none,
                                               reading := some { r with crossed := r.crossed ++ [next] } })
              ∧ (next = noBlock →
                  ∃ t : State, exec (.dramGrantEnd lv) s = .next (settle t) ∧ told r.parity t ∧ damaged t
                    ∧ t.pmc = base.pmc ∧ placed t (p.prev.getD whiteLine) false true p.off))

/-- The free list and its upkeep (R62, R63, R64, R65, R67, R70). A list build writes the header of one block a burst, its next
the following block and its fill 0; the last leaves blocks 0 to N − 17 listed, head 0, head link 1, tail N − 17, count N − 16.
An upkeep burst writes a next, writes the whole header of a block that was a coder's current one, or reads the new head's
link, with PARITY, page 0 and reason 3, for a header that fails. A chain of k blocks freed while no coder context waits joins
the tail by an upkeep of the old tail's next, the header its coder context held queued before it; the count rises by k; an
empty list takes the chain's first block as its head and that block's link, read there and then with the same parity check
(log entry 10), as head link, but FFFFh without a read for a chain of one block (the model's choice, log entry 10); the page
entries stay. -/
def Obligations.FreeListBuildsAndJoins : Prop :=
  (∀ (lv : Levels) (s : State) (live : Bool),
      let base (u : List Upkeep) : State := { sense lv s with pmc := { s.pmc with grant := none, upkeep := u } }
      (∀ b n, s.pmc.grant = some { burst := .upkeep (.setNext b n), live := live } →
          exec (.dramGrantEnd lv) s =
            .next (settle { base (s.pmc.upkeep.drop 1) with dram := s.dram.writeAll (1024 * b) false (be16 n) }))
        ∧ (∀ b n fill, s.pmc.grant = some { burst := .upkeep (.setHeader b n fill), live := live } →
            exec (.dramGrantEnd lv) s =
              .next (settle { base (s.pmc.upkeep.drop 1) with
                              dram := s.dram.writeAll (1024 * b) false (be16 n ++ be16 fill) }))
        ∧ (∀ b, s.pmc.grant = some { burst := .upkeep (.readLink b), live := live } → s.pmc.head = b →
            s.pmc.linkKnown = false → s.scanCd.asking = false → s.intakeCd.asking = false →
              let known (t : State) : State :=
                { t with pmc := { t.pmc with headLink := beNat (s.dram.readAll (1024 * b) 2), linkKnown := true } }
              exec (.dramGrantEnd lv) s =
                .next (settle (known (if s.dram.parityAll (1024 * b) 4 then base (s.pmc.upkeep.drop 1)
                                      else raise evParity 0 0 3 (base (s.pmc.upkeep.drop 1))))))
        ∧ (∀ b, s.pmc.grant = some { burst := .build, live := true } → s.pmc.build = some b →
            s.tables.active[tSettings] ≠ none → s.scanCd.asking = false → s.intakeCd.asking = false →
              (b < nBlocks s - 17 →
                  exec (.dramGrantEnd lv) s =
                    .next (settle { sense lv s with
                      pmc := { s.pmc with grant := none, build := some (b + 1) },
                      dram := s.dram.writeAll (1024 * b) false (be16 (b + 1) ++ be16 0) }))
                ∧ (b = nBlocks s - 17 →
                    exec (.dramGrantEnd lv) s =
                      .next (settle { sense lv s with
                        pmc := { s.pmc with grant := none, build := none, head := 0, headLink := 1, tail := b,
                                            linkKnown := true, count := nBlocks s - 16 },
                        dram := s.dram.writeAll (1024 * b) false (be16 noBlock ++ be16 0) }))))
    ∧ ∀ (first last k : Nat) (current : Option Nat) (s : State), 0 < k → s.noAsk →
        let t := freeChain first last k current s
        t.pmc.count = s.pmc.count + k ∧ t.pmc.tail = last ∧ t.dir = s.dir ∧ t.dram = s.dram
          ∧ t.pmc.head = (if s.pmc.count = 0 then first else s.pmc.head)
          ∧ t.pmc.headLink = (if s.pmc.count = 0 then (if k = 1 then noBlock else beNat (s.dram.readAll (1024 * first) 2))
                              else if s.pmc.count = 1 then first else s.pmc.headLink)
          ∧ t.pmc.upkeep = s.pmc.upkeep
              ++ (match current with | none => [] | some fill => [.setHeader last noBlock fill])
              ++ (if s.pmc.count = 0 then [] else [.setNext s.pmc.tail first])
          ∧ t.events = (if s.pmc.count = 0 ∧ k ≠ 1 ∧ s.dram.parityAll (1024 * first) 4 = false then
                          s.events.raise evParity 0 0 3 else s.events)

/-! ## Page directory, INTAKE, OUTPUT -/

/-- A new entry's id lies in 1..255 and no entry holds it, while fewer than 255 entries stand and the next page id lies in
1..255 (R79). -/
def Obligations.NewPageIdIsFree : Prop :=
  ∀ s : State, s.dir.entries.length < 255 → 1 ≤ s.dir.nextId → s.dir.nextId ≤ 255 →
    1 ≤ newId s ∧ newId s ≤ 255 ∧ ∀ e ∈ s.dir.entries, e.id ≠ newId s

/-- INTAKE, INTAKE_END, STOP and the end of the INTAKE job (R80, R157, R158, R159, R161, R162): with no INTAKE job and room, a
FILLING entry of origin INTAKE joins the directory's end, the job is OPEN, the intake line number 0 and the previous intake
line absent, and the reply gives the new page's id; INTAKE_END makes an open job CLOSING and is refused STATE of a closing one.
A CLOSING job ends as soon as its ring is empty and its context IDLE, and not before: a page being written with no line is
discarded, one with lines is completed, not truncated, and becomes the last completed one, and is then gone where it has no
stored line and no reader; the context is IDLE with no page, the intake line number 0, and an INTAKE_END flag that was clear is
set with the last completed page, channel 0 and reason 0. STOP ends the job at once, the ring emptied, the context IDLE. With
keep-partial the page being written is completed truncated and becomes the last completed one, and is then gone where it has no
stored line and no reader; without it the page is discarded. An INTAKE_END flag that was clear is set with the last completed
page, channel 0 and reason 1. With no context waiting for a block, the only bytes of DRAM written are the header of the
completed page's last block (R62), where the context holds one, its next none and its fill the end of the page's last whole
line; that it is written at the event itself, and that a discard writes nothing at once but queues the header of the freed
current block as list upkeep, is the model's reading (log entry 10). With no other job, no pass and no directory wait, the
job's end is all that follows at once but the motor tables, the idle timer and the next grant. -/
def Obligations.IntakeOpensEndsAndStops : Prop :=
  (∀ (res : Resolution) (policy : Policy) (s : State), portOpen s → s.intJob = none →
      s.dir.entries.length + s.dir.places < 32 →
        exec (.intake (BitVec.ofNat 8 res.code) (BitVec.ofNat 8 policy.code)) s =
          .next (replied 0x03
            (.filled .ok [BitVec.ofNat 8 res.code, BitVec.ofNat 8 policy.code, BitVec.ofNat 8 (newId s)])
            { s with
              dir := { s.dir with entries := s.dir.entries ++ [Entry.new (newId s) .intake res .intake],
                                  nextId := if 255 ≤ newId s then 1 else newId s + 1 },
              intakeCd := { s.intakeCd with page := some (newId s) },
              port := { s.port with intakeLineNo := 0, prevIntake := none },
              intJob := some { state := .opened, res := res, policy := policy, lastCompleted := 0 } }))
    ∧ (∀ (keep : Bool) (s : State) (j : IntakeJob), portOpen s → s.intJob = some j →
          (j.state = .opened →
              exec .intakeEnd s =
                .next (replied 0x04 (.filled .ok []) { s with intJob := some { j with state := .closing } }))
            ∧ (j.state = .closing → exec .intakeEnd s = .next (replied 0x04 (.filled .state []) s))
            ∧ ∃ t : State, exec (.stopIntake (if keep then 1 else 0)) s =
                  .next (replied 0x08 (.filled .ok [1, if keep then 1 else 0]) t)
                ∧ t.intJob = none ∧ t.rings.intake.occ = 0 ∧ t.rings.intakeFull = false ∧ t.intakeCd = Coder.reset
                ∧ t.port.intakeLineNo = 0 ∧ t.port.prevIntake = none ∧ (t.events.flags[evIntakeEnd]).set = true
                ∧ t.port.replies = s.port.replies ∧ t.besideJobs s ∧ t.motS = s.motS ∧ t.motP = s.motP
                ∧ t.scanJob = s.scanJob ∧ t.outJob = s.outJob ∧ t.outDec = s.outDec
                ∧ ((s.events.flags[evIntakeEnd]).set = false →
                    (t.events.flags[evIntakeEnd]).page =
                        (match keep, s.intakeCd.page with | true, some id => id | _, _ => j.lastCompleted)
                      ∧ (t.events.flags[evIntakeEnd]).chan = 0 ∧ (t.events.flags[evIntakeEnd]).reason = 1
                      ∧ (t.events.flags[evIntakeEnd]).again = false)
                ∧ (∀ id e, s.intakeCd.page = some id → entryOf id s = some e →
                    (keep = false → entryOf id t = none)
                      ∧ (keep = true →
                          (e.headLine = e.lineCount → e.printRd = none → e.outRd = none → entryOf id t = none)
                            ∧ ((e.headLine ≠ e.lineCount ∨ e.printRd ≠ none ∨ e.outRd ≠ none) →
                                ∃ e', entryOf id t = some e' ∧ e'.state = .complete ∧ e'.truncated = true
                                  ∧ e'.writer = none ∧ e'.lineCount = e.lineCount ∧ e'.headLine = e.headLine)))
                ∧ (s.noAsk →
                    t.dram =
                      match keep, s.intakeCd.page, s.intakeCd.block, s.intakeCd.lastEnd with
                      | true, some _, some _, some (b, fill) =>
                        s.dram.writeAll (blockAddr b) false (be16 noBlock ++ be16 fill)
                      | _, _, _, _ => s.dram))
    ∧ (∀ (s : State) (j : IntakeJob), s.intJob = some j →
        ((j.state = .opened ∨ 0 < s.rings.intake.occ ∨ s.intakeCd.st ≠ .idle) → settleIntake s = s)
          ∧ (j.state = .closing → s.rings.intake.occ = 0 → s.intakeCd.st = .idle →
              let t := settleIntake s
              t.intJob = none ∧ t.rings.intake.occ = 0 ∧ t.rings.intakeFull = false ∧ t.intakeCd = Coder.reset
                ∧ t.port.intakeLineNo = 0 ∧ t.port.prevIntake = none ∧ t.port.replies = s.port.replies ∧ t.besideJobs s
                ∧ t.motS = s.motS ∧ t.motP = s.motP ∧ t.outJob = s.outJob ∧ t.outDec = s.outDec
                ∧ t.scanJob = s.scanJob
                ∧ (t.events.flags[evIntakeEnd]).set = true
                ∧ ((s.events.flags[evIntakeEnd]).set = false →
                    ((∀ id e, s.intakeCd.page = some id → entryOf id s = some e → e.lineCount = 0) →
                        (t.events.flags[evIntakeEnd]).page = j.lastCompleted)
                      ∧ (∀ id e, s.intakeCd.page = some id → entryOf id s = some e → e.lineCount ≠ 0 →
                        (t.events.flags[evIntakeEnd]).page = id)
                      ∧ (t.events.flags[evIntakeEnd]).chan = 0 ∧ (t.events.flags[evIntakeEnd]).reason = 0
                      ∧ (t.events.flags[evIntakeEnd]).again = false)
                ∧ (∀ id e, s.intakeCd.page = some id → entryOf id s = some e →
                    (e.lineCount = 0 → entryOf id t = none ∧ (s.noAsk → t.dram = s.dram))
                      ∧ (e.lineCount ≠ 0 →
                          (e.headLine = e.lineCount → e.printRd = none → e.outRd = none → entryOf id t = none)
                            ∧ ((e.headLine ≠ e.lineCount ∨ e.printRd ≠ none ∨ e.outRd ≠ none) →
                                ∃ e', entryOf id t = some e' ∧ e'.state = .complete ∧ e'.truncated = false
                                  ∧ e'.writer = none ∧ e'.lineCount = e.lineCount ∧ e'.headLine = e.headLine)
                            ∧ (∀ b blk fill, s.intakeCd.block = some b → s.intakeCd.lastEnd = some (blk, fill) → s.noAsk →
                                t.dram = s.dram.writeAll (blockAddr blk) false (be16 noBlock ++ be16 fill))))
                ∧ (s.scanJob = none → s.prtJob = none → s.printDec = none → s.outJob = none → s.outDec = none →
                    s.scanCd.dirWait = none → s.intakeCd.dirWait = none →
                      settle s = arbitrate (updateIdle (applyMotorTables t)))))

/-- OUTPUT of a COMPLETE page with no reader (R87, R163): the page gains an output reader at its head line and first block, the
output context starts its pass there, the reply gives the resolution and the number of lines. STOP of the OUTPUT job (R166):
the pass ends, every line not begun to be read is dropped, the job is closing with reason 1. The end (R90, R164): a pass is
over once nothing is being read and its page, no longer FILLING, has no line left; the job ends as soon as its pass is over and
the Output Ring is empty, and not before. Its reader leaves the page: the page is gone where it was ERASING with no other
reader, or consumed to its last line, or COMPLETE with no stored line and no other reader; else nothing of it but the reader
changes. An OUTPUT_END flag that was clear is set with the page, channel 0 and the job's reason. With no other job, no print
pass and no directory wait, that is all that follows at once but the motor tables, the idle timer and the next grant. -/
def Obligations.OutputStartsStopsAndEnds : Prop :=
  (∀ (page : Byte) (consume : Bool) (s : State) (e : Entry), portOpen s → s.outJob = none →
      entryOf page.toNat s = some e → e.state = .complete → e.printRd = none → e.outRd = none →
        exec (.output page (if consume then 1 else 0)) s =
          .next (replied 0x05
            (.filled .ok ([page, if consume then 1 else 0, BitVec.ofNat 8 e.res.code] ++ be16 (e.lineCount - e.headLine)))
            { s with
              outJob := some { state := .opened, page := e.id, consume := consume, reason := 0 },
              outDec := some { page := e.id, linePos := e.headLine,
                               block := if e.first = noBlock then none else some e.first, off := e.headOff, prev := none,
                               outOfStep := false, header := none, reading := none },
              dir := { s.dir with entries := s.dir.entries.map fun x =>
                if x.id = e.id then
                  { x with outRd := some { consume := consume, linePos := x.headLine, block := x.first } }
                else x } }))
    ∧ (∀ (keep : Bool) (s : State) (j : OutputJob), portOpen s → s.outJob = some j → j.state = .opened →
          ∃ t : State, exec (.stopOutput (if keep then 1 else 0)) s =
                .next (replied 0x08 (.filled .ok [3, if keep then 1 else 0]) t)
              ∧ t.outJob = some { j with state := .closing, reason := 1 } ∧ t.outDec = none
              ∧ t.rings.output.occ = (if lineBegun s then 1 else 0) ∧ t.dir = s.dir ∧ t.dram = s.dram ∧ t.events = s.events
              ∧ t.port = s.port)
    ∧ (∀ (s : State) (p : Pass), s.outDec = some p →
        let ended : Prop :=
          p.reading = none ∧ ∀ e, entryOf p.page s = some e → e.state ≠ .filling ∧ e.lineCount ≤ p.linePos
        (ended → ∃ g : Option Grant, settlePass .output s = { s with outDec := none, pmc := { s.pmc with grant := g } })
          ∧ (¬ended → settlePass .output s = s))
    ∧ (∀ (s : State) (j : OutputJob), s.outJob = some j →
        ((s.outDec ≠ none ∨ 0 < s.rings.output.occ) → settleOutput s = s)
          ∧ (s.outDec = none → s.rings.output.occ = 0 →
              let t := settleOutput s
              t.outJob = none ∧ t.outDec = none ∧ t.rings = s.rings ∧ t.besideJobs s ∧ t.port = s.port
                ∧ t.motS = s.motS ∧ t.motP = s.motP
                ∧ (t.events.flags[evOutputEnd]).set = true
                ∧ ((s.events.flags[evOutputEnd]).set = false →
                    (t.events.flags[evOutputEnd]).page = j.page ∧ (t.events.flags[evOutputEnd]).chan = 0
                      ∧ (t.events.flags[evOutputEnd]).reason = j.reason ∧ (t.events.flags[evOutputEnd]).again = false)
                ∧ (∀ e r, entryOf j.page s = some e → e.outRd = some r →
                    let gone : Prop :=
                      (e.state = .erasing ∧ e.printRd = none)
                        ∨ (r.consume = true ∧ e.state = .complete ∧ r.linePos = e.lineCount)
                        ∨ (e.state = .complete ∧ e.headLine = e.lineCount ∧ e.printRd = none)
                    (gone → entryOf j.page t = none)
                      ∧ (¬gone →
                          entryOf j.page t = some { e with outRd := none } ∧ t.pmc.count = s.pmc.count ∧ t.dram = s.dram))
                ∧ (s.noAsk → t.dram = s.dram)))
    ∧ (∀ s : State, s.scanJob = none → s.intJob = none → s.prtJob = none → s.printDec = none → s.scanCd.dirWait = none →
        s.intakeCd.dirWait = none →
          settle s = arbitrate (updateIdle (applyMotorTables (settleOutput (settlePass .output s)))))

/-- ERASE (R92): a COMPLETE page without a reader leaves the directory and its chain is freed; one with a reader becomes
ERASING and erase-pending; no page NOPAGE; a FILLING or ERASING page STATE. -/
def Obligations.EraseFreesOrMarksPage : Prop :=
  ∀ (page : Byte) (s : State), portOpen s →
    (entryOf page.toNat s = none → exec (.erase page) s = .next (replied 0x07 (.filled .nopage []) s))
      ∧ (∀ e, entryOf page.toNat s = some e →
          (e.state ≠ .complete → exec (.erase page) s = .next (replied 0x07 (.filled .state []) s))
            ∧ (e.state = .complete → e.printRd = none → e.outRd = none →
                ∃ t : State, exec (.erase page) s = .next (replied 0x07 (.filled .ok [page]) t)
                  ∧ (∀ x ∈ t.dir.entries, x.id ≠ e.id)
                  ∧ t = removeEntry e.id (freeChain e.first e.last e.blockCount none s))
            ∧ (e.state = .complete → (e.printRd ≠ none ∨ e.outRd ≠ none) →
                exec (.erase page) s =
                  .next (replied 0x07 (.filled .ok [page])
                    { s with dir := { s.dir with entries := s.dir.entries.map fun x =>
                        if x.id = e.id then { x with state := .erasing, erasePend := true } else x } })))

/-- MEMWAIT_EXPIRY and DIRWAIT_EXPIRY (R69, R81, R85, R122, R130, R131, R160): the intake job ends with INTAKE_END set and its ring
emptied, a flag that was clear with the last completed page, channel 0 and reason 2 at a memory wait's expiry or 3 at a
directory wait's; the scan job takes its ending decision, at a memory wait's expiry with reason 5, DOC_HELD reason 1 to follow
and the Scan Ring emptied, at a directory wait's with reason 6, DOC_HELD reason 2 to follow and its ring left to be drained. At
a memory wait's expiry the job's policy is applied to the page being written (R84, R85, R86): under TRUNCATE it is completed at
its last whole line with the truncated flag set and becomes the last completed page, and is then gone where it has no stored line
and no reader; under DISCARD it is gone; and no page of the scan stays FILLING. At a directory wait's expiry the pages stand as
they are. The page
DOC_HELD will name, the page being written at a memory wait and 0 at a directory wait, is the model's reading (log entry 24).
The SCAN job's end (R122, R129): from the ending decision it comes as channel S is at rest or in FAULT, for reasons 6 and 7
only once every page of the scan is completed or removed; from RUNOUT as channel S is at rest with every page done; and in no
other case. Then the job is gone, LAMP is low, channel S has no owner, the Scan Ring is empty, and SCAN_END is raised with the
last completed page, channel 1 and the reason, from RUNOUT 1 at the page limit and else 0, and after it DOC_HELD where the
ending has one. With no other job, no pass and no wait, that is all that follows at once but the motor tables, the idle timer
and the next grant. -/
def Obligations.WaitExpiryAndScanEnd : Prop :=
  (∀ s : State,
      let completed (id : Nat) (e : Entry) (t : State) : Prop :=
        (e.headLine = e.lineCount → e.printRd = none → e.outRd = none → entryOf id t = none)
          ∧ ((e.headLine ≠ e.lineCount ∨ e.printRd ≠ none ∨ e.outRd ≠ none) →
              ∃ e', entryOf id t = some e' ∧ e'.state = .complete ∧ e'.truncated = true ∧ e'.writer = none
                ∧ e'.lineCount = e.lineCount ∧ e'.headLine = e.headLine)
      let intakeEnded (page reason : Nat) (t : State) : Prop :=
        t.intJob = none ∧ t.rings.intake.occ = 0 ∧ t.intakeCd = Coder.reset ∧ (t.events.flags[evIntakeEnd]).set = true
          ∧ ((s.events.flags[evIntakeEnd]).set = false →
              (t.events.flags[evIntakeEnd]).page = page ∧ (t.events.flags[evIntakeEnd]).chan = 0
                ∧ (t.events.flags[evIntakeEnd]).reason = reason ∧ (t.events.flags[evIntakeEnd]).again = false)
      (∀ k, s.intakeCd.st = .memwait → s.intJob = some k →
          ∃ t : State, exec (.memwaitExpiry .intake) s = .next (settle t)
            ∧ intakeEnded (if k.policy = .truncate then s.intakeCd.page.getD k.lastCompleted else k.lastCompleted) 2 t
            ∧ ∀ id e, s.intakeCd.page = some id → entryOf id s = some e →
                (k.policy = .discard → entryOf id t = none) ∧ (k.policy = .truncate → completed id e t))
        ∧ (∀ j, s.scanCd.st = .memwait → s.scanJob = some j →
            ∃ (t : State) (j' : ScanJob), exec (.memwaitExpiry .scan) s = .next (settle t) ∧ t.scanJob = some j'
              ∧ j'.phase = .ending ∧ j'.endReason = 5 ∧ j'.docHeld = some (1, s.scanCd.page.getD 0)
              ∧ t.rings.scan.occ = 0 ∧ t.dir.places = 0
              ∧ (∀ e ∈ t.dir.entries, e.state = .filling → e.writer ≠ some .scan)
              ∧ ∀ id e, s.scanCd.page = some id → entryOf id s = some e →
                  (j.policy = .discard → entryOf id t = none)
                    ∧ (j.policy = .truncate → j'.lastCompleted = id ∧ completed id e t))
        ∧ (∀ k, s.intakeCd.dirWait ≠ none → s.intJob = some k →
            ∃ t : State, exec (.dirwaitExpiry .intake) s = .next (settle t) ∧ intakeEnded k.lastCompleted 3 t
              ∧ t.dir.entries = s.dir.entries)
        ∧ (∀ j, s.scanCd.dirWait ≠ none → s.scanJob = some j →
            ∃ (t : State) (j' : ScanJob), exec (.dirwaitExpiry .scan) s = .next (settle t) ∧ t.scanJob = some j'
              ∧ j'.phase = .ending ∧ j'.endReason = 6 ∧ j'.docHeld = some (2, 0) ∧ t.scanCd.dirWait = none
              ∧ t.rings = s.rings ∧ t.dir.entries = s.dir.entries))
    ∧ (∀ (s : State) (j : ScanJob), s.scanJob = some j →
        let done : Prop := s.scanCd.page = none ∧ ∀ e ∈ s.dir.entries, e.state = .filling → e.writer ≠ some .scan
        let ended (r : Nat) : State :=
          { s with
            rings := { s.rings with scan := s.rings.scan.emptied, scanReserved := 0 }, scanJob := none,
            front := { s.front with comp := none, lamp := false }, motS := { s.motS with owner := .nobody },
            events := match j.docHeld with
              | none => s.events.raise evScanEnd j.lastCompleted 1 r
              | some (h, page) => (s.events.raise evScanEnd j.lastCompleted 1 r).raise evDocHeld page 1 h }
        (j.phase = .ending → s.motS.moving = false → (j.endReason < 6 ∨ done) → settleScanEnd s = ended j.endReason)
          ∧ (j.phase = .runout → s.motS.atRest = true → done →
              settleScanEnd s = ended (if j.pageCount = j.pageLimit then 1 else 0))
          ∧ (((j.phase = .search ∨ j.phase = .lead ∨ j.phase = .capture ∨ j.phase = .dirwait)
                ∨ (j.phase = .ending ∧ (s.motS.moving = true ∨ (6 ≤ j.endReason ∧ ¬done)))
                ∨ (j.phase = .runout ∧ (s.motS.atRest = false ∨ ¬done))) → settleScanEnd s = s)
          ∧ ((j.phase = .ending ∨ j.phase = .runout) → s.scanCd.timer ≠ some 0 → s.scanCd.dirWait = none →
              s.intJob = none → s.intakeCd.dirWait = none → s.prtJob = none → s.printDec = none → s.outJob = none →
              s.outDec = none → settle s = arbitrate (updateIdle (applyMotorTables (settleScanEnd s)))))

/-! ## Motors -/

/-- Runs and stops (R99, R100, R102, R103, R104): a bounded run of n steps plans exactly n; each step issued moves the step
position and the phase index by one and leaves one step fewer, an unbounded run staying unbounded; a step up the ramp takes the
entry of the ramp index, which then rises, one at steady speed that of the index as it stays, one down the ramp that of the
index below, which it takes; a stop request fixes the steps left: from SLEW on an unbounded run q more and the ramp index
down, from ACCEL at ramp index k with q = 0 k steps; in DECEL it changes nothing. -/
def Obligations.MotorPlansIssueTheirSteps : Prop :=
  ((∀ (m : Motor) (count n req use : Nat) (owner : Owner) (reverse : Bool),
        (m.beginRun count owner reverse req use (some n)).plan.owed = some n
          ∧ (m.beginRun count owner reverse req use (some n)).slewEff = min (min use (count - 1)) (n / 2)
          ∧ (m.beginRun count owner reverse req use (some n)).slewReq = req)
      ∧ ∀ (m : Motor) (ramp : List Byte) (patterns up down : Nat) (flat : Option Nat) (reverse stopped : Bool),
          m.plan = .run reverse up flat down stopped → m.plan.owed ≠ some 0 →
            let i := m.issue ramp patterns
            i.plan.owed = m.plan.owed.map (· - 1)
              ∧ i.pos = (if reverse then m.pos - 1 else m.pos + 1)
              ∧ i.phase = nextPhase reverse patterns m.phase
              ∧ (0 < up → i.state = .accel ∧ i.interval = rampEntry ramp m.rampIndex ∧ i.rampIndex = m.rampIndex + 1)
              ∧ (up = 0 → flat ≠ some 0 →
                  i.state = .slew ∧ i.interval = rampEntry ramp m.rampIndex ∧ i.rampIndex = m.rampIndex)
              ∧ (up = 0 → flat = some 0 →
                  i.state = .decel ∧ i.interval = rampEntry ramp (m.rampIndex - 1) ∧ i.rampIndex = m.rampIndex - 1))
    ∧ (∀ (m : Motor) (q up : Nat) (reverse : Bool),
          (m.state = .slew → m.plan = .run reverse 0 none 0 false → (m.stop q).plan.owed = some (q + m.rampIndex))
            ∧ (m.state = .accel → m.plan = .run reverse up none 0 false → (m.stop 0).plan.owed = some m.rampIndex)
            ∧ (m.state = .decel → m.stop q = m))

/-- MOVE (R109, R110): on a channel at rest with no job on it and its tables present, a bounded run owned by the MOVE
begins in the order's direction, its first step issued; a count of 0 is taken as 1 and the slew index brought within the
ramp table; nothing else changes. -/
def Obligations.MoveBeginsBoundedRun : Prop :=
  ∀ (ch : Channel) (rev : Bool) (steps : BitVec 16) (slew : Byte) (s : State), portOpen s → s.power.state = .run →
    (motorOf ch s).atRest = true → jobOn ch s = false → motorTables ch s = true →
      let c : Byte := match ch with
        | .S => 0
        | .P => 1
      let n := max 1 steps.toNat
      let k := min slew.toNat (rampCount (rampTable ch s) - 1)
      ∃ m : Motor,
        exec (.move c (if rev then 1 else 0) steps slew) s =
          .next (replied 0x0A
            (.filled (if n = steps.toNat ∧ k = slew.toNat then .ok else .clamped)
              ([c, if rev then 1 else 0] ++ be16 n ++ be8 k))
            (setMotor ch m s))
          ∧ m.owner = .move ∧ m.plan.owed = some (n - 1) ∧ m.slewReq = k ∧ m.slewEff = min k (n / 2)
          ∧ m.pos = (if rev then (motorOf ch s).pos - 1 else (motorOf ch s).pos + 1) ∧ m.hold = none
          ∧ m.causes = (motorOf ch s).causes

/-- MOTOR_STEP (R100, R102, R105): a step due on a channel not run by the Scan Sequencer is issued: the position and the phase
index move by one in the direction of the run, forward in a burst, the plan is one step shorter, the count of the motion's steps
issued is one more, in a burst the step's number and one (the model's own form, log entry 52), and nothing but the channel and
the lines' levels changes before what follows at once. MOTION_END (R103, R105, R106, R107): a channel with its last step
issued rests in HOLD, its owner none, its ramp index 0 but after a burst, its interval 0 (the model's choice, log entry 30),
the hold timer at HOLDTIME unless that is 0, its phase index and step position kept; a request of the Print Engine that waited
for channel P, its MOVE then ended, is taken at once and its first step issued. -/
def Obligations.MotorStepsThenHolds : Prop :=
  (∀ (ch : Channel) (lv : Levels) (s : State), (motorOf ch s).moving = true → (motorOf ch s).stepDue = true →
      (motorOf ch s).owner ≠ .scan →
        let reverse := match (motorOf ch s).plan with
          | .run r _ _ _ _ => r
          | .burst _ _ => false
          | .idle => false
        ∃ m : Motor,
          exec (.motorStep ch lv) s = .next (settle (setMotor ch m (sense lv s)))
            ∧ m.pos = (if reverse then (motorOf ch s).pos - 1 else (motorOf ch s).pos + 1)
            ∧ m.phase = nextPhase reverse (phaseCount (phaseTable ch s)) (motorOf ch s).phase
            ∧ m.plan.owed = (motorOf ch s).plan.owed.map (· - 1)
            ∧ m.owner = (motorOf ch s).owner ∧ m.slewReq = (motorOf ch s).slewReq ∧ m.slewEff = (motorOf ch s).slewEff
            ∧ m.causes = (motorOf ch s).causes ∧ m.waiting = (motorOf ch s).waiting
            ∧ m.issued = (match (motorOf ch s).plan with
                          | .burst _ i => i + 1
                          | .run _ _ _ _ _ => (motorOf ch s).issued + 1
                          | .idle => (motorOf ch s).issued))
    ∧ ∀ (ch : Channel) (lv : Levels) (s : State), (motorOf ch s).spent = true →
        let m := motorOf ch s
        let rested : Motor :=
          { m with state := .hold, plan := .idle, owner := .nobody, interval := 0,
                   rampIndex := if m.state = .burst then m.rampIndex else 0,
                   hold := if setHoldTime s = 0 then none else some (setHoldTime s) }
        ((ch = .S ∨ (m.owner = .print ∧ ∀ j, s.prtJob = some j → j.stepping = none) ∨ (m.owner ≠ .print ∧ m.waiting = none)) →
            exec (.motionEnd ch lv) s = .next (settle (setMotor ch rested (sense lv s))))
          ∧ (∀ n, ch = .P → m.owner ≠ .print → 0 < n →
              (m.waiting = some (.burst n) →
                  exec (.motionEnd ch lv) s =
                    .next (settle (setMotor ch
                      (({ rested with waiting := none, hold := none, owner := .print, state := .burst,
                                      plan := .burst n 0 } : Motor).issue (rampTable .P s) (phaseCount (phaseTable .P s)))
                      (sense lv s))))
                ∧ (∀ rev req use, m.waiting = some (.run rev req use (some n)) →
                    exec (.motionEnd ch lv) s =
                      .next (settle (setMotor ch
                        ((({ rested with waiting := none } : Motor).beginRun (rampCount (rampTable .P s)) .print rev req use
                          (some n)).issue (rampTable .P s) (phaseCount (phaseTable .P s))) (sense lv s)))))

/-- COVER_OPEN (R112, R113, R173): in RUN or DOZE, past the boot state RESET, both channels are in FAULT with COVER among their
causes, their outputs and hold lines low, phase index and step position kept, and COVER is set; a motion in progress of the
Scan Sequencer or the Print Engine is abandoned, the owner none, and the report to it holds the steps issued and those the plan
owed, none of an unbounded run (R106; that the count and the report are fields of the channel is the model's own form, log
entry 52). In SLEEP with no return under way an opening is latched and nothing else moves but the level, and in STANDBY and in
the boot state RESET the level alone (R113, R173; that it is so also in a PFAIL hold begun in RESET is the model's choice, log
entry 15); what follows at once moves nothing there, with no job. At the next wake from SLEEP, by a strobe, RING, KEY, DOCP or
the wake timer, the latch puts both channels in FAULT, a COVER flag that was clear is set with page, channel and reason 0
before WAKE is raised at the return's end, and the latch is cleared; a power-fail warning in SLEEP takes it in the same way,
with PFAIL among the causes and no return (R176). RESUME (R114): a faulted channel with COVER high and PFAIL low enters OFF,
its causes cleared and returned, phase index and step position kept; otherwise STATE. Channel S not in FAULT is refused STATE.
RESUME of channel P not in FAULT (R152): refused STATE with no PRINT job, one not suspended, or no paper; else answered OK, the
history white: with nothing owed the job is at its line start, and a burst or a page exit owed is taken by a channel at rest,
its first step issued, the job STEPPING. -/
def Obligations.CoverFaultsAndResume : Prop :=
  (∀ s : State, s.lines.cover = true → (s.power.state = .run ∨ s.power.state = .doze) → s.boot.state ≠ .reset →
      ∃ t : State, exec .coverOpen s = .next (settle t) ∧ t.motS.state = .fault ∧ t.motP.state = .fault
        ∧ t.motS.causes.cover = true ∧ t.motP.causes.cover = true
        ∧ (∀ ch, (motorOf ch t).outputs (phaseTable ch t) = 0 ∧ (motorOf ch t).holdLine = false)
        ∧ t.motS.pos = s.motS.pos ∧ t.motP.pos = s.motP.pos ∧ t.motS.phase = s.motS.phase ∧ t.motP.phase = s.motP.phase
        ∧ (t.events.flags[evCover]).set = true ∧ t.lines = { s.lines with cover := false } ∧ t.tables = s.tables
        ∧ t.temp = s.temp ∧ t.power = s.power ∧ t.port = s.port
        ∧ ∀ ch, (motorOf ch s).moving = true → ((motorOf ch s).owner = .scan ∨ (motorOf ch s).owner = .print) →
            (motorOf ch t).plan = .idle ∧ (motorOf ch t).owner = .nobody
              ∧ (motorOf ch t).told =
                  some { owner := (motorOf ch s).owner, issued := (motorOf ch s).issued, owed := (motorOf ch s).plan.owed })
    ∧ (∀ s : State, s.lines.cover = true →
        let shut : State := { s with lines := { s.lines with cover := false } }
        (s.power.state = .sleep → s.power.returning = none → s.boot.state ≠ .reset →
            exec .coverOpen s = .next (settle { shut with power := { s.power with coverLatch := true } }))
          ∧ ((s.power.state = .standby ∨ s.boot.state = .reset) → exec .coverOpen s = .next (settle shut)))
    ∧ (∀ s : State, (s.power.state = .sleep ∨ s.power.state = .standby) → Quiet s → s.power.idleTimer = none →
          s.spill = .idle → s.pmc.selfRefresh = true → settle s = s)
    ∧ (∀ s : State, s.power.state = .sleep → s.power.entry = none → s.power.returning = none → s.power.coverLatch = true →
        let told (t : State) : Prop :=
          t.motS.state = .fault ∧ t.motP.state = .fault ∧ t.motS.causes.cover = true ∧ t.motP.causes.cover = true
            ∧ t.power.coverLatch = false ∧ (t.events.flags[evCover]).set = true
            ∧ ((s.events.flags[evCover]).set = false →
                (t.events.flags[evCover]).page = 0 ∧ (t.events.flags[evCover]).chan = 0
                  ∧ (t.events.flags[evCover]).reason = 0 ∧ (t.events.flags[evCover]).again = false)
            ∧ t.events.flags[evWake] = s.events.flags[evWake]
        let woken (i : Instr) (r : Nat) : Prop :=
          ∃ t : State, exec i s = .next (arbitrate t) ∧ told t ∧ t.power.returning = some r
        (∀ d together lv, woken (.wstbStrobe ⟨true, together⟩ d lv) 5)
          ∧ (s.lines.ring = false → s.power.mask.getLsbD 0 = true → woken .ringRise 1)
          ∧ (s.lines.key = false → s.power.mask.getLsbD 1 = true → woken .keyRise 2)
          ∧ (s.lines.docp = false → s.power.mask.getLsbD 2 = true → woken .docpRise 3)
          ∧ (s.power.wakeTimer.isSome = true → woken .wakeTimerExpiry 4)
          ∧ (s.lines.pfail = false → s.power.pfail = .inactive → s.boot.state = .ready →
              ∃ t : State, exec .pfailRise s = .next (settle t) ∧ told t ∧ t.motS.causes.pfail = true
                ∧ t.motP.causes.pfail = true ∧ t.power.returning = none))
    ∧ (∀ (ch : Channel) (lv : Levels) (s : State), portOpen s →
        let c : Byte := match ch with
          | .S => 0
          | .P => 1
        let refused : Prop := exec (.resume c lv) s = .next (replied 0x09 (.filled .state []) (sense lv s))
        ((motorOf ch s).state = .fault → (sense lv s).lines.cover = true → s.lines.pfail = false →
            exec (.resume c lv) s =
              .next (replied 0x09 (.filled .ok [c, BitVec.ofNat 8 (motorOf ch s).causes.code])
                (setMotor ch { motorOf ch s with state := .off, causes := Causes.reset } (sense lv s))))
          ∧ ((motorOf ch s).state = .fault → ((sense lv s).lines.cover = false ∨ s.lines.pfail = true) → refused)
          ∧ (ch = .S → (motorOf ch s).state ≠ .fault → refused)
          ∧ (ch = .P → (motorOf ch s).state ≠ .fault → (s.prtJob = none ∨ lv.papr = false) → refused)
          ∧ (∀ j, ch = .P → (motorOf ch s).state ≠ .fault → s.prtJob = some j → j.cycle ≠ .suspended → refused))
    ∧ ∀ (lv : Levels) (s : State) (j : PrintJob), portOpen s → s.motP.atRest = true → s.prtJob = some j →
        j.cycle = .suspended → lv.papr = true →
          let resumed (m : Motor) (j' : PrintJob) : Prop :=
            exec (.resume 1 lv) s =
              .next (replied 0x09 (.filled .ok [1]) { sense lv s with motP := m, prtJob := some j' })
          let white : PrintJob := { j with h1 := whiteLine, h2 := whiteLine }
          let ramp := rampTable .P s
          let patterns := phaseCount (phaseTable .P s)
          (j.owed = 0 → j.owedExit = false → resumed s.motP { white with cycle := .lineStart })
            ∧ (0 < j.owed → j.owedExit = false →
                resumed (({ s.motP with hold := none, owner := .print, state := .burst, plan := .burst j.owed 0 }
                    : Motor).issue ramp patterns) { white with cycle := .stepping, stepping := some .owedBurst })
            ∧ (0 < j.owed → j.owedExit = true →
                resumed ((s.motP.beginRun (rampCount ramp) .print false (rampCount ramp - 1) (rampCount ramp - 1)
                    (some j.owed)).issue ramp patterns) { white with cycle := .stepping, stepping := some .pageExit })

/-! ## Print -/

/-- FIT, the accumulator and the taking of a source line (R139, R140, R141 step 5, R142): FIT's ratio lies in 50..100, is 100
for a page with no stored line, and never more than the paper allows unless it is 50; a source line taken at a line start adds
the effective ratio to the accumulator, is owed the whole hundreds, and leaves the rest. The head slot of the Print Ring is
freed and its line is the current source line with its last-of-page mark; a line owed none is followed at once by the next, or,
as the page's last, by the page end; an empty ring leads to WAIT_DATA, or with the pass ended to the page end. -/
def Obligations.RatioAndSourceLines : Prop :=
  (∀ (paper l : Nat) (res : Resolution),
      50 ≤ fitRatio paper l res ∧ fitRatio paper l res ≤ 100 ∧ fitRatio paper 0 res = 100
        ∧ (0 < l → 50 < fitRatio paper l res → fitRatio paper l res * (l * res.halves) ≤ 200 * paper))
    ∧ (∀ (s : State) (j : PrintJob) (k : Nat), s.prtJob = some j →
          let x := s.rings.print.slot s.rings.print.head
          let taken : State :=
            { s with rings := { s.rings with print := s.rings.print.free },
                     prtJob := some { j with acc := (j.acc + j.reff) % 100, repeats := (j.acc + j.reff) / 100,
                                             src := some x.dots, srcLast := x.last } }
          (0 < s.rings.print.occ → 100 ≤ j.acc + j.reff → takeSource (k + 1) s = (taken, true))
            ∧ (0 < s.rings.print.occ → j.acc + j.reff < 100 →
                takeSource (k + 1) s = if x.last then (pageEnd taken, false) else takeSource k taken)
            ∧ (s.rings.print.occ = 0 →
                takeSource (k + 1) s =
                  (if j.passEnded then pageEnd s else { s with prtJob := some { j with cycle := .waitData } }, false)))

/-- PRINT of a COMPLETE page, or in cut-through of a FILLING one at a given ratio, with no print reader, and with no output
reader or one that does not consume beside a print that does not (R136, R137, R139, R153): the page gains a print reader, the
job stands at its first line start with white history, the print context starts its pass at the page's head line, or waits for
the first block of a page that has none. The ratio is the order's, brought into range, or FIT's for the page's stored lines
(R140), and the answer gives the ratio asked for (0 for FIT), the one used and the effective one. Pending HEAT and TEMPF are
applied. -/
def Obligations.PrintStartsFirstCopy : Prop :=
  ∀ (page copies ratio : Byte) (consume cut : Bool) (lv : Levels) (s : State) (e : Entry), portOpen s →
    s.power.state = .run → s.prtJob = none → entryOf page.toNat s = some e →
    (e.state = .complete ∨ (e.state = .filling ∧ cut = true ∧ ratio ≠ 0)) → e.printRd = none →
    (∀ r, e.outRd = some r → consume = false ∧ r.consume = false) → (consume = true → copies.toNat ≤ 1) →
    (∀ id ∈ printNeeds, (s.tables.active[id]).isSome = true) → lv.papr = true →
      let asked := if ratio = 0 then 0 else clampNat 50 200 ratio.toNat
      let used := if ratio = 0 then fitRatio (setPaperLength s) (e.lineCount - e.headLine) e.res else asked
      let n := clampNat 1 99 copies.toNat
      exec (.print page copies ratio (if consume then 1 else 0) (if cut then 1 else 0) lv) s =
        .next (replied 0x06
          (.filled (if n ≠ copies.toNat ∨ asked ≠ ratio.toNat then .clamped else .ok)
            ([page, BitVec.ofNat 8 n, BitVec.ofNat 8 asked, if consume then 1 else 0, if cut then 1 else 0] ++ be16 used
              ++ be16 (effRatio used e.res)))
          { applyAll [tHeat, tTempf] { sense lv s with prtJob := some (PrintJob.start e.id n (effRatio used e.res) consume) } with
            printDec := some { page := e.id, linePos := e.headLine,
                               block := if e.first = noBlock then none else some e.first, off := e.headOff, prev := none,
                               outOfStep := false, header := none, reading := none },
            dir := { s.dir with entries := s.dir.entries.map fun x =>
              if x.id = e.id then
                { x with printRd := some { consume := consume, linePos := x.headLine, block := x.first } }
              else x } })

/-- The line start (R141, R143 to R147, R150), in the order of its steps: channel P in FAULT suspends the job with reason
FAULT; no paper suspends it with reason NO_PAPER and raises PAPER_OUT with the page id and channel 2; a reading at or above
HOTLIM, fresh or stale, leads to COOLING with OVERHEAT, its reason the code; all before any line is taken. An interrupted line
is printed again, its mark cleared; else repeats left falls by 1, a source line being taken first where none are left, and
where none is to be printed the taking of it is all. The line then fixes its temperature factor: the TEMPF entry of the code's
band of 16 while the reading is fresh, else the smallest of the sixteen, and the first such line of a stale spell raises
TEMP_STALE with the page, channel 2 and reason 0 for an expired reading, 1 for an absent one. A black dot's history class is
twice its blackness in the last printed line plus that in the line before, and its pulse the class's base times the factor over
256, no more than PMAX. With a black dot the job is STROBING, the first phase being shifted; with none it passes straight to
STEPPING, and a channel P at rest takes the line's burst. The phases: none for a line with no black dot, four at most with
DOTLIM at least 108; a black dot of a strobe group with n black dots of its group to its left is driven in phase n / DOTLIM and
in no other, a white dot in none; no group drives more than DOTLIM dots in a phase, and its strobe is the longest pulse among
them, none for no dot. Stated with DOTLIM above 0, as every SETTINGS that a LOAD installs has it (R6; a restored image is log
entry 58's). A line start that is due is made at once. TEMP (R145, R146): the reading is the code and fresh, its age timer
starts at TEMPAGE, a stale spell ends; a COOLING job with a code below HOTLIM − 8 returns to its line start with white
history. -/
def Obligations.LineStartsAndHeat : Prop :=
  (∀ (s : State) (j : PrintJob), s.prtJob = some j →
      let put (k : PrintJob) : State := { s with prtJob := some k }
      (s.motP.state = .fault → lineStart s = put { j with cycle := .suspended, susp := .fault })
        ∧ (s.motP.state ≠ .fault → s.lines.papr = false →
            lineStart s = raise evPaperOut j.page 2 0 (put { j with cycle := .suspended, susp := .noPaper }))
        ∧ (s.motP.state ≠ .fault → s.lines.papr = true →
            (∀ c, s.temp.reading = some c → setHotLim s ≤ c.toNat →
                lineStart s = raise evOverheat j.page 2 c.toNat (put { j with cycle := .cooling }))
              ∧ ((∀ c, s.temp.reading = some c → c.toNat < setHotLim s) →
                  (j.interrupted = true → lineStart s = strobeLine (put { j with interrupted := false }))
                    ∧ (j.interrupted = false → 0 < j.repeats →
                        lineStart s = strobeLine (put { j with repeats := j.repeats - 1 }))
                    ∧ (j.interrupted = false → j.repeats = 0 →
                        ((takeSource 5 s).2 = false → lineStart s = (takeSource 5 s).1)
                          ∧ ∀ k, (takeSource 5 s).2 = true → (takeSource 5 s).1.prtJob = some k →
                              lineStart s =
                                strobeLine { (takeSource 5 s).1 with prtJob := some { k with repeats := k.repeats - 1 } })))
        ∧ ((j.cycle = .lineStart ∨ (j.cycle = .waitData ∧ 0 < s.rings.print.occ)) → settlePass .print s = s →
            settlePass .print (lineStart s) = lineStart s →
            (∀ k, (lineStart s).prtJob = some k →
                k.cycle = .strobing ∨ k.cycle = .stepping ∨ k.cycle = .cooling ∨ k.cycle = .suspended) →
              settlePrint s = lineStart s))
    ∧ (∀ (s : State) (j : PrintJob), s.prtJob = some j → 0 < setDotLim s →
        let l := j.src.getD whiteLine
        let warm : State :=
          if s.temp.fresh = false ∧ s.temp.staleSpell = false then
            raise evTempStale j.page 2 (if s.temp.reading = none then 1 else 0)
              { s with temp := { s.temp with staleSpell := true } }
          else s
        let factors := imageOf tTempf s
        ∃ f : Nat,
          (∀ c, s.temp.fresh = true → s.temp.reading = some c → f = wordAt factors (2 * (c.toNat / 16)))
            ∧ ((s.temp.fresh = false ∨ s.temp.reading = none) →
                (∀ b, b < 16 → f ≤ wordAt factors (2 * b)) ∧ ∃ b, b < 16 ∧ f = wordAt factors (2 * b))
            ∧ (let pulse (d : Nat) : Nat :=
                min (setPmax s)
                  (wordAt (imageOf tHeat s) (2 * (2 * (dotOf j.h1 d).toNat + (dotOf j.h2 d).toNat)) * f / 256)
              ((∃ d, dotOf l d = true) →
                  strobeLine s =
                    { warm with prtJob := some { j with
                        cycle := .strobing,
                        strobe := some { todo := headPhases l (setDotLim s) pulse, cur := none, stage := .waiting,
                                         shifting := true, shifted := false } } })
                ∧ ((∀ d, dotOf l d = false) → j.cycle ≠ .ending → s.motP.atRest = true →
                    strobeLine s =
                      { warm with
                        motP := ({ s.motP with hold := none, owner := .print, state := .burst, plan := .burst (setMp s) 0 }
                          : Motor).issue (rampTable .P s) (phaseCount (phaseTable .P s)),
                        prtJob := some { j with stepping := some .lineBurst, cycle := .stepping } })))
    ∧ (∀ (l : Line) (lim : Nat) (pulse : Nat → Nat), 0 < lim →
        let phases := headPhases l lim pulse
        let left (d : Nat) : Nat := ((List.range d).filter fun k => decide (k / 432 = d / 432) && dotOf l k).length
        (phases = [] ↔ ∀ d, dotOf l d = false)
          ∧ (108 ≤ lim → phases.length ≤ 4)
          ∧ (∀ d, (phases.filter fun ph => dotOf ph.dots d).length = (if dotOf l d then 1 else 0))
          ∧ (∀ p ph, phases[p]? = some ph →
              (∃ d, dotOf ph.dots d = true)
                ∧ (∀ d, dotOf ph.dots d = (dotOf l d && decide (left d / lim = p)))
                ∧ ∀ g, g < 4 →
                  let driven := (List.range 1728).filter fun d => decide (d / 432 = g) && dotOf ph.dots d
                  driven.length ≤ lim
                    ∧ (driven = [] → ph.pulses[g]? = some none)
                    ∧ (driven ≠ [] → ∃ n, ph.pulses[g]? = some (some n) ∧ (∀ d ∈ driven, pulse d ≤ n)
                        ∧ ∃ d ∈ driven, pulse d = n)))
    ∧ ∀ (code : Byte) (lv : Levels) (s : State), portOpen s →
        exec (.temp code lv) s =
          .next (replied 0x0B (.filled .ok [code])
            { sense lv s with
              temp := { reading := some code, fresh := true, age := some (setTempAge s), staleSpell := false },
              prtJob := s.prtJob.map fun j =>
                if j.cycle = .cooling ∧ code.toNat + 8 < setHotLim s then
                  { j with h1 := whiteLine, h2 := whiteLine, cycle := .lineStart }
                else j })

/-- The head's events (R148, R149): a shift's end with no strobes running latches the phase and starts its first group's
strobe; a pulse's end starts its group's GAP; a GAP's end starts the next group that takes part, latches the next phase where
that has been shifted, and after the last group of the last phase puts the job in STEPPING with a burst of the line's motor
steps, its first step issued by a channel P at rest. The end of that burst completes the printed line: the history takes it,
the count of lines printed rises, and the job is at its next line start while the page has more to print, at the page end where
it was the last line owed by the page's last source line, and where it was in ENDING. The page end (R153): a copy that has
printed a line issues its page exit where PEXIT is above 0, a bounded forward run of PEXIT steps at the ramp table's last
index, taken by a channel P at rest with its first step issued, the job STEPPING, or for the last copy ENDING; else, and as the
page exit ends, PRAMP and PPHASE are out of use and their pending copies are applied, and after the last copy the job is ENDING
with its page exit done; before it the next copy starts: the copy number rises, the Print Ring is emptied, the print context
and the reader are at the page's head line, pending HEAT and TEMPF are applied, and every item of the copy is as for the first,
its history white. A page exit that ends in ENDING leaves the job to its end. The interval of 0 of a channel at rest is the
model's choice (log entry 30). -/
def Obligations.StrobesBurstsAndPageEnds : Prop :=
  (∀ (s : State) (j : PrintJob) (t : Strobe), s.prtJob = some j → j.strobe = some t →
    let strobing (u : Strobe) : State := { s with prtJob := some { j with strobe := some u } }
    (∀ ph rest g, t.shifting = true → t.cur = none → t.todo = ph :: rest → nextGroup ph 0 = some g →
        let u : Strobe :=
          { todo := rest, cur := some ph, stage := .high g, shifting := !rest.isEmpty, shifted := false }
        exec .headShiftEnd s = .next (strobing u))
      ∧ (∀ g, t.stage = .high g → t.cur ≠ none → exec .strobeEnd s = .next (strobing { t with stage := .gap g }))
      ∧ (∀ g k ph, t.stage = .gap g → t.cur = some ph → nextGroup ph (g + 1) = some k →
          exec .gapEnd s = .next (settle (strobing { t with stage := .high k })))
      ∧ (∀ g k ph next rest, t.stage = .gap g → t.cur = some ph → nextGroup ph (g + 1) = none → t.shifted = true →
          t.todo = next :: rest → nextGroup next 0 = some k →
            exec .gapEnd s = .next (settle (strobing
              { todo := rest, cur := some next, stage := .high k, shifting := !rest.isEmpty, shifted := false })))
      ∧ (∀ g ph, t.stage = .gap g → t.cur = some ph → nextGroup ph (g + 1) = none → t.shifted = false → t.todo = [] →
          s.motP.atRest = true → j.cycle = .strobing →
            exec .gapEnd s =
              .next (settle { s with
                motP := ({ s.motP with hold := none, owner := .print, state := .burst, plan := .burst (setMp s) 0 }
                  : Motor).issue (rampTable .P s) (phaseCount (phaseTable .P s)),
                prtJob := some { j with strobe := none, stepping := some .lineBurst, cycle := .stepping } })))
    ∧ (∀ (lv : Levels) (s : State) (j : PrintJob), s.motP.spent = true → s.motP.owner = .print → s.prtJob = some j →
        let rested : Motor :=
          { s.motP with state := .hold, plan := .idle, owner := .nobody, interval := 0,
                        rampIndex := if s.motP.state = .burst then s.motP.rampIndex else 0,
                        hold := if setHoldTime s = 0 then none else some (setHoldTime s) }
        let ends (k : PrintJob) : State := { sense lv s with motP := rested, prtJob := some k }
        let printed : PrintJob :=
          { j with h2 := j.h1, h1 := j.src.getD whiteLine, printed := j.printed + 1, stepping := none }
        (j.stepping = some .lineBurst → j.cycle = .stepping → (j.repeats ≠ 0 ∨ j.srcLast = false) →
            exec (.motionEnd .P lv) s = .next (settle (ends { printed with cycle := .lineStart })))
          ∧ (j.stepping = some .lineBurst → j.cycle = .stepping → j.repeats = 0 → j.srcLast = true →
              exec (.motionEnd .P lv) s = .next (settle (pageEnd (ends printed))))
          ∧ (j.stepping = some .lineBurst → j.cycle = .ending →
              exec (.motionEnd .P lv) s = .next (settle (ends printed)))
          ∧ (j.stepping = some .pageExit → j.cycle ≠ .ending →
              exec (.motionEnd .P lv) s = .next (settle (afterExit (ends { j with stepping := none }))))
          ∧ (j.stepping = some .pageExit → j.cycle = .ending →
              exec (.motionEnd .P lv) s = .next (settle (ends { j with stepping := none }))))
    ∧ ∀ (s : State) (j : PrintJob), s.prtJob = some j →
        let ramp := rampTable .P s
        let last : PrintJob := { j with exitDone := true, cycle := if j.copy < j.copies then .stepping else .ending }
        let out : PrintJob := { j with inCopy := false, owed := 0, owedExit := false }
        let free : State := applyMotorTables { s with prtJob := some out }
        (0 < j.printed → 0 < setPexit s → s.motP.atRest = true →
            pageEnd s =
              { s with
                motP := (s.motP.beginRun (rampCount ramp) .print false (rampCount ramp - 1) (rampCount ramp - 1)
                  (some (setPexit s))).issue ramp (phaseCount (phaseTable .P s)),
                prtJob := some { last with stepping := some .pageExit } })
          ∧ ((j.printed = 0 ∨ setPexit s = 0) → pageEnd s = afterExit { s with prtJob := some last })
          ∧ (j.copies ≤ j.copy →
              afterExit s =
                { free with prtJob := some { out with cycle := .ending, exitDone := true, stepping := none } })
          ∧ (∀ e, j.copy < j.copies → entryOf j.page s = some e →
              afterExit s =
                { applyAll [tHeat, tTempf]
                    { free with
                      rings := { s.rings with print := s.rings.print.emptied },
                      prtJob := some { out with copy := j.copy + 1 },
                      printDec := some { page := e.id, linePos := e.headLine,
                                         block := if e.first = noBlock then none else some e.first, off := e.headOff,
                                         prev := none, outOfStep := false, header := none, reading := none },
                      dir := { s.dir with entries := s.dir.entries.map fun x =>
                        if x.id = j.page then
                          { x with printRd := x.printRd.map fun r => { r with linePos := e.headLine, block := e.first } }
                        else x } } with
                  prtJob := some { PrintJob.start j.page j.copies j.reff j.consume with
                                   copy := j.copy + 1, susp := j.susp, reason := j.reason } })

/-- STOP and the end of the PRINT job (R90, R151, R153, R154, R155). STOP, keep-partial taken but unused: the job enters ENDING with
reason 1, the pass ends, the Print Ring is emptied, and the page has no print reader left; a suspended job owes no page exit any
more, so that it ends at once with no further steps. A job in ENDING with no line in strobes or steps, its pass over: where the
copy has printed a line, its page exit is not done and PEXIT is above 0, a channel P at rest takes the page exit, its first step
issued, and the job stays; one in motion keeps it as a request that waits for its rest, and the job stays; a channel P in FAULT
leaves it unissued. There and else the job ends: the motor tables go out of use and their
pending copies are applied, the job is gone, the Print Ring empty, the reader removed, and a PRINT_END flag that was clear is
set with the page, channel 2 and the job's reason. The page, as the reader leaves it at the STOP or at the end, is gone where
it was ERASING with no other reader, or consumed to its last line, or COMPLETE with no stored line and no other reader; else
nothing of it but the reader changes. A fault of channel P while the job is in ENDING, by COVER_OPEN, cuts off what it had still
to do: no strobes, no steps and no page exit are left (R151, R154). With no other job, no output pass and no directory wait, the Print Engine's moves are all
that follows at once but the motor tables, the idle timer and the next grant. -/
def Obligations.PrintStopsAndEnds : Prop :=
  (∀ (keep : Bool) (s : State) (j : PrintJob), portOpen s → s.prtJob = some j → j.cycle ≠ .ending →
    ∃ (t : State) (j' : PrintJob), exec (.stopPrint (if keep then 1 else 0)) s =
          .next (replied 0x08 (.filled .ok [2, if keep then 1 else 0]) t)
        ∧ t.prtJob = some j' ∧ j'.cycle = .ending ∧ j'.reason = 1 ∧ j'.strobe = j.strobe ∧ j'.stepping = j.stepping
        ∧ j'.exitDone = (j.exitDone || decide (j.cycle = .suspended))
        ∧ t.printDec = none ∧ t.rings.print.occ = 0 ∧ (∀ e, entryOf j.page t = some e → e.printRd = none)
        ∧ (∀ e r, entryOf j.page s = some e → e.printRd = some r →
            ((e.state = .erasing ∧ e.outRd = none)
                ∨ (r.consume = true ∧ e.state = .complete ∧ r.linePos = e.lineCount)
                ∨ (e.state = .complete ∧ e.headLine = e.lineCount ∧ e.outRd = none) → entryOf j.page t = none)
              ∧ (¬((e.state = .erasing ∧ e.outRd = none)
                ∨ (r.consume = true ∧ e.state = .complete ∧ r.linePos = e.lineCount)
                ∨ (e.state = .complete ∧ e.headLine = e.lineCount ∧ e.outRd = none)) →
                  entryOf j.page t = some { e with printRd := none } ∧ t.pmc.count = s.pmc.count
                    ∧ t.events = s.events ∧ t.dram = s.dram))
        ∧ t.besideJobs s ∧ t.port = s.port ∧ t.motS = s.motS ∧ t.motP = s.motP ∧ t.scanJob = s.scanJob
        ∧ t.intJob = s.intJob ∧ t.outJob = s.outJob ∧ t.outDec = s.outDec ∧ (s.noAsk → t.dram = s.dram))
    ∧ (∀ (s : State) (j : PrintJob), s.prtJob = some j → j.cycle = .ending → j.strobe = none → j.stepping = none →
        s.printDec = none →
          (j.exitDone = false → 0 < j.printed → 0 < setPexit s → s.motP.atRest = true →
              let ramp := rampTable .P s
              settlePrint s =
                { s with
                  motP := (s.motP.beginRun (rampCount ramp) .print false (rampCount ramp - 1) (rampCount ramp - 1)
                    (some (setPexit s))).issue ramp (phaseCount (phaseTable .P s)),
                  prtJob := some { j with exitDone := true, stepping := some .pageExit } })
            ∧ (j.exitDone = false → 0 < j.printed → 0 < setPexit s → s.motP.moving = true →
                let last := rampCount (rampTable .P s) - 1
                settlePrint s =
                  { s with motP := { s.motP with waiting := some (.run false last last (some (setPexit s))) },
                           prtJob := some { j with exitDone := true, stepping := some .pageExit } })
            ∧ ((j.exitDone = true ∨ j.printed = 0 ∨ setPexit s = 0 ∨ s.motP.state = .fault) →
                let t := settlePrint s
                t.prtJob = none ∧ t.printDec = none ∧ t.rings.print.occ = 0
                  ∧ t.tables = (applyMotorTables { s with prtJob := some { j with inCopy := false } }).tables
                  ∧ (t.events.flags[evPrintEnd]).set = true
                  ∧ ((s.events.flags[evPrintEnd]).set = false →
                      (t.events.flags[evPrintEnd]).page = j.page ∧ (t.events.flags[evPrintEnd]).chan = 2
                        ∧ (t.events.flags[evPrintEnd]).reason = j.reason ∧ (t.events.flags[evPrintEnd]).again = false)
                  ∧ (∀ e r, entryOf j.page s = some e → e.printRd = some r →
                      let gone : Prop :=
                        (e.state = .erasing ∧ e.outRd = none)
                          ∨ (r.consume = true ∧ e.state = .complete ∧ r.linePos = e.lineCount)
                          ∨ (e.state = .complete ∧ e.headLine = e.lineCount ∧ e.outRd = none)
                      (gone → entryOf j.page t = none)
                        ∧ (¬gone → entryOf j.page t = some { e with printRd := none } ∧ t.pmc.count = s.pmc.count
                            ∧ t.dram = s.dram))
                  ∧ (∀ e, entryOf j.page s = some e → e.printRd = none → entryOf j.page t = some e)
                  ∧ t.lines = s.lines ∧ t.port = s.port ∧ t.temp = s.temp ∧ t.power = s.power ∧ t.boot = s.boot
                  ∧ t.spill = s.spill ∧ t.diagQ = s.diagQ ∧ t.pending = s.pending ∧ t.outJob = s.outJob
                  ∧ t.outDec = s.outDec ∧ t.scanJob = s.scanJob ∧ t.intJob = s.intJob ∧ t.motS.pos = s.motS.pos
                  ∧ t.motP.pos = s.motP.pos ∧ (s.noAsk → t.dram = s.dram)))
    ∧ (∀ (s : State) (j : PrintJob), s.prtJob = some j → j.cycle = .ending → s.lines.cover = true →
        (s.power.state = .run ∨ s.power.state = .doze) → s.boot.state ≠ .reset →
          ∃ t : State, exec .coverOpen s = .next (settle t) ∧ t.motP.state = .fault ∧ (s.printDec = none → t.printDec = none)
            ∧ t.prtJob = some { j with strobe := none, stepping := none, exitDone := true })
    ∧ (∀ s : State, s.scanJob = none → s.intJob = none → s.outJob = none → s.outDec = none → s.scanCd.dirWait = none →
        s.intakeCd.dirWait = none →
          settle s = arbitrate (updateIdle (applyMotorTables (settlePrint (settlePrint s)))))

/-! ## Diagnostic access -/

/-- DIAG access to DRAM (R63, R188, R190): one that breaks no bound joins those outstanding with its reply waiting: a read of a
count within the block, a write, a seeded write. Each burst moves 16 bytes at most of the oldest one: a read gathers them and
the offset of the first that fails parity, a write stores them, with the inverted parity bit where seeded, every other byte as
before; the last fills the oldest reply still waiting, a read's with its bytes, the parity mark and that offset, FFFFh for
none. -/
def Obligations.DiagDramAccess : Prop :=
  (∀ (item offset count : BitVec 16) (data : List Byte) (s : State), portOpen s → item.toNat < nBlocks s →
      let waits (sub : Byte) (a : DiagAccess) : State :=
        restartIdle (arbitrate (pushReply kDiag sub .diag { s with diagQ := s.diagQ ++ [a] }))
      let access (write : Option Bool) (count : Nat) (data : List Byte) : DiagAccess :=
        { write := write, block := item.toNat, offset := offset.toNat, count := count, clamped := false, data := data,
          done := 0, firstBad := none }
      (0 < count.toNat → count.toNat ≤ 2036 → offset.toNat + count.toNat ≤ 1024 →
          exec (.diagRead 0 item offset count) s = .next (waits 0 (access none count.toNat [])))
        ∧ (data ≠ [] → data.length ≤ 1024 → offset.toNat + data.length ≤ 1024 → 4 ≤ offset.toNat →
            exec (.diagWrite 0 item offset data) s = .next (waits 1 (access (some false) data.length data))
              ∧ exec (.diagWriteSeeded 0 item offset data) s = .next (waits 2 (access (some true) data.length data))))
    ∧ ∀ (lv : Levels) (s : State) (a : DiagAccess) (rest : List DiagAccess),
        s.pmc.grant = some { burst := .diag, live := true } → s.diagQ = a :: rest →
          let base : State := { sense lv s with pmc := { s.pmc with grant := none } }
          let n := min 16 (a.count - a.done)
          let at' := 1024 * a.block + a.offset + a.done
          let bad := match a.firstBad with
            | some o => some o
            | none => ((List.range n).find? fun i => !s.dram.parityOk (at' + i)).map (a.offset + a.done + ·)
          let got := a.data ++ s.dram.readAll at' n
          (a.write = none →
              (a.done + n < a.count →
                  exec (.dramGrantEnd lv) s =
                    .next (settle { base with
                      diagQ := { a with data := got, done := a.done + n, firstBad := bad } :: rest }))
                ∧ (a.count ≤ a.done + n →
                    exec (.dramGrantEnd lv) s =
                      .next (settle (fillReply .diag (if a.clamped then .clamped else .ok)
                        (be8 0 ++ be16 a.block ++ be16 a.offset ++ be16 a.count ++ got ++ be8 (if bad.isSome then 1 else 0)
                          ++ be16 (bad.getD 0xFFFF)) { base with diagQ := rest }))))
            ∧ (∀ seeded, a.write = some seeded →
                let stored : State := { base with dram := s.dram.writeAll at' seeded (a.data.take n) }
                (a.done + n < a.count →
                    exec (.dramGrantEnd lv) s =
                      .next (settle { stored with diagQ := { a with data := a.data.drop n, done := a.done + n } :: rest }))
                  ∧ (a.count ≤ a.done + n →
                      exec (.dramGrantEnd lv) s =
                        .next (settle (fillReply .diag (if a.clamped then .clamped else .ok)
                          (be8 0 ++ be16 a.block ++ be16 a.offset ++ be16 a.count) { stored with diagQ := rest }))))

/-- DIAG access to the internal memories (R188, R189), answered at once: a slot of an idle ring reads as its 216 line bytes,
its number (its low 16 bits, which is the model's choice, log entry 32) and its marks, the error row as signed 16-bit entries,
a table copy as its image; a write changes exactly the bytes given (bits 2 to 7 of a slot's marks byte are dropped, which is
the model's choice, log entry 46), an error row entry outside −255..255 being clamped and the reply then CLAMPED; a table copy
is changed in place, clamped as a LOAD is, and refused LENGTH or BADARG where it would no longer fit, and neither channel
changes, its phase index too where its active phase table is the copy written (the model's reading, log entry 27); the answer
gives the address and the count. A slot of a job that exists, the error row under a SCAN job or a calibration, and a table in
use are refused STATE, read or written. -/
def Obligations.DiagInternalAccess : Prop :=
  ∀ (s : State), portOpen s →
    let told (sub : Byte) (st : Status) (ans : List Byte) (t : State) : State :=
      restartIdle (arbitrate (pushReply kDiag sub (.filled st ans) t))
    let address (m : Byte) (item offset : BitVec 16) (n : Nat) : List Byte :=
      [m] ++ be16 item.toNat ++ be16 offset.toNat ++ be16 n
    let slots (m : Byte) : Nat := if m = 1 then 16 else if m = 2 then 8 else 4
    let ring (m : Byte) : Ring := ringOf m.toNat s
    let idle (m : Byte) : Prop :=
      (m = 1 → s.scanJob = none ∧ s.front.cal = none) ∧ (m = 2 → s.intJob = none) ∧ (m = 3 → s.prtJob = none)
        ∧ (m = 4 → s.outJob = none)
    let bytes (x : Slot) : List Byte :=
      lineToBytes x.dots ++ be16 x.lineNo ++ [BitVec.ofNat 8 (x.last.toNat + 2 * x.rep.toNat)]
    (∀ (m : Byte) (item offset : BitVec 16), 1 ≤ m.toNat → m.toNat ≤ 4 → item.toNat < slots m → offset.toNat < 219 →
        let x := (ring m).slot item.toNat
        (idle m →
            (∀ count : BitVec 16, 0 < count.toNat → offset.toNat + count.toNat ≤ 219 →
                exec (.diagRead m item offset count) s =
                  .next (told 0 .ok (address m item offset count.toNat
                    ++ ((bytes x).drop offset.toNat).take count.toNat ++ [0] ++ be16 0xFFFF) s))
              ∧ (∀ data : List Byte, data ≠ [] → offset.toNat + data.length ≤ 219 →
                  let new := (bytes x).take offset.toNat ++ data ++ (bytes x).drop (offset.toNat + data.length)
                  let y : Slot :=
                    { dots := lineOfBytes (new.take 216), lineNo := wordAt new 216, last := (new.getD 218 0).getLsbD 0,
                      rep := (new.getD 218 0).getLsbD 1 }
                  exec (.diagWrite m item offset data) s =
                    .next (told 1 .ok (address m item offset data.length)
                      (setRing m.toNat { ring m with slots := (ring m).slots.set item.toNat y } s))))
          ∧ (¬idle m →
              (∀ count : BitVec 16, exec (.diagRead m item offset count) s = .next (told 0 .state [] s))
                ∧ ∀ data : List Byte, data ≠ [] → offset.toNat + data.length ≤ 219 →
                    exec (.diagWrite m item offset data) s = .next (told 1 .state [] s)))
      ∧ (∀ offset count : BitVec 16, offset.toNat % 2 = 0 → offset.toNat < 3456 → count.toNat % 2 = 0 →
          (s.scanJob = none → s.front.cal = none → 0 < count.toNat → count.toNat ≤ 2036 →
              offset.toNat + count.toNat ≤ 3456 →
                let row := s.front.errorRow.flatMap fun e => be16 (e % 65536).toNat
                exec (.diagRead 5 0 offset count) s =
                  .next (told 0 .ok (address 5 0 offset count.toNat
                    ++ (row.drop offset.toNat).take count.toNat ++ [0] ++ be16 0xFFFF) s))
            ∧ ((s.scanJob ≠ none ∨ s.front.cal ≠ none) →
                exec (.diagRead 5 0 offset count) s = .next (told 0 .state [] s)))
      ∧ (∀ (offset : BitVec 16) (data : List Byte), (s.scanJob ≠ none ∨ s.front.cal ≠ none) → offset.toNat % 2 = 0 →
          data ≠ [] → data.length % 2 = 0 → data.length ≤ 2043 → offset.toNat + data.length ≤ 3456 →
            exec (.diagWrite 5 0 offset data) s = .next (told 1 .state [] s))
      ∧ (∀ (offset : BitVec 16) (data : List Byte), s.scanJob = none → s.front.cal = none → offset.toNat % 2 = 0 →
          data ≠ [] → data.length % 2 = 0 → data.length ≤ 2043 → offset.toNat + data.length ≤ 3456 →
            let row := s.front.errorRow.flatMap fun e => be16 (e % 65536).toNat
            let new := row.take offset.toNat ++ data ++ row.drop (offset.toNat + data.length)
            let entry (k : Nat) : Int := (BitVec.ofNat 16 (wordAt new (2 * k))).toInt
            exec (.diagWrite 5 0 offset data) s =
              .next (told 1 (if (List.range 1728).any fun k => entry k < -255 || 255 < entry k then .clamped else .ok)
                (address 5 0 offset data.length)
                { s with front := { s.front with
                    errorRow := (List.range 1728).map fun k => clampInt (-255) 255 (entry k) } }))
      ∧ (∀ (id : Fin 14) (pending : Bool) (offset count : BitVec 16) (img : List Byte), copyOf pending id s = some img →
          offset.toNat < img.length →
            let item : BitVec 16 := BitVec.ofNat 16 (id.val + if pending then 256 else 0)
            ((tableInUse id s = true ∨ (id = tShading ∧ s.front.cal ≠ none)) →
                exec (.diagRead 6 item offset count) s = .next (told 0 .state [] s))
              ∧ (tableInUse id s = false → (id = tShading → s.front.cal = none) → 0 < count.toNat → count.toNat ≤ 2036 →
                  offset.toNat + count.toNat ≤ img.length →
                    exec (.diagRead 6 item offset count) s =
                      .next (told 0 .ok (address 6 item offset count.toNat
                        ++ (img.drop offset.toNat).take count.toNat ++ [0] ++ be16 0xFFFF) s)))
      ∧ (∀ (id : Fin 14) (pending : Bool) (offset : BitVec 16) (data img : List Byte), copyOf pending id s = some img →
          id ≠ tSettings → offset.toNat < img.length → offset.toNat + data.length ≤ img.length → data ≠ [] →
          data.length ≤ 2043 →
            let item : BitVec 16 := BitVec.ofNat 16 (id.val + if pending then 256 else 0)
            let new := img.take offset.toNat ++ data ++ img.drop (offset.toNat + data.length)
            let c := clampTable id new
            ((tableInUse id s = true ∨ (id = tShading ∧ s.front.cal ≠ none)) →
                exec (.diagWrite 6 item offset data) s = .next (told 1 .state [] s))
              ∧ (tableInUse id s = false → (id = tShading → s.front.cal = none) →
                  (tableLengthOk id new = false → exec (.diagWrite 6 item offset data) s = .next (told 1 .length [] s))
                    ∧ (tableLengthOk id new = true → tableEnumsOk id new = false →
                        exec (.diagWrite 6 item offset data) s = .next (told 1 .badarg [] s))
                    ∧ (tableLengthOk id new = true → tableEnumsOk id new = true → ∃ t : State,
                        exec (.diagWrite 6 item offset data) s =
                            .next (told 1 (if c.count = 0 then .ok else .clamped) (address 6 item offset data.length) t)
                          ∧ copyOf pending id t = some c.image
                          ∧ (∀ q k, (q ≠ pending ∨ k ≠ id) → copyOf q k t = copyOf q k s)
                          ∧ (id = tShading → pending = false → t.front.defective = defectiveOf c.image)
                          ∧ t.events = s.events ∧ t.motS = s.motS ∧ t.motP = s.motP ∧ t.dram = s.dram)))

/-! ## Power and boot -/

/-- POWER DOZE in RUN with nothing that refuses it (R115, R116, R169, R170): DOZE, the mask and the timer of the order, the
idle timer stopped, the motor shadow written, HOLD gone to OFF; in DOZE the mask is replaced and the timer restarted. POWER
SLEEP and POWER STANDBY begin their entry (R172, R174), waiting for the reply to be read, the idle timer and a DOZE wake timer
stopped. A POWER order is refused BUSY by a SCAN or PRINT job, a calibration or a moving channel, SLEEP and STANDBY by an
INTAKE or OUTPUT job too. -/
def Obligations.PowerOrdersEnterOrBegin : Prop :=
  ∀ (mask timer : Byte) (s : State), portOpen s →
    let wake := if timer.toNat = 0 then none else some timer.toNat
    let shadow : Shadow :=
      { sPhase := s.motS.phase, sPos := s.motS.pos, pPhase := s.motP.phase, pPos := s.motP.pos }
    let dozing : Power :=
      { s.power with state := .doze, mask := mask, wakeTimer := wake, idleTimer := none, shadow := shadow }
    let entry (standby : Bool) : SleepEntry :=
      { standby := standby, mask := mask, timer := timer.toNat, fromDoze := decide (s.power.state = .doze),
        risen := { ring := false, key := false, docp := false }, stage := .waitReply, found := 0 }
    let entering (standby : Bool) : State :=
      { s with power := { s.power with idleTimer := none, wakeTimer := none, entry := some (entry standby) } }
    let busy : Prop :=
      s.scanJob ≠ none ∨ s.prtJob ≠ none ∨ s.front.cal ≠ none ∨ s.motS.moving = true ∨ s.motP.moving = true
    let busySleep : Prop := busy ∨ s.intJob ≠ none ∨ s.outJob ≠ none
    let refused : State := replied 0x0C (.filled .busy []) s
    let off (m : Motor) : Motor := if m.state = .hold then { m with state := .off, hold := none } else m
    (¬busy →
        (s.power.state = .run →
            exec (.powerDoze mask timer) s =
              .next (replied 0x0C (.filled .ok [1, mask, timer])
                { s with motS := off s.motS, motP := off s.motP, power := dozing }))
          ∧ (s.power.state = .doze →
              exec (.powerDoze mask timer) s =
                .next (replied 0x0C (.filled .ok [1, mask, timer])
                  { s with power := { s.power with mask := mask, wakeTimer := wake } })))
      ∧ (busy → exec (.powerDoze mask timer) s = .next refused)
      ∧ (¬busySleep →
          exec (.powerSleep mask timer) s = .next (replied 0x0C (.filled .ok [2, mask, timer]) (entering false))
            ∧ exec (.powerStandby mask timer) s = .next (replied 0x0C (.filled .ok [3, mask, timer]) (entering true)))
      ∧ (busySleep →
          exec (.powerSleep mask timer) s = .next refused ∧ exec (.powerStandby mask timer) s = .next refused)

/-- SLEEP_ENTRY (R74, R172): once the replies are read, an active source of the mask abandons an entry begun in RUN with WAKE,
reason 128 plus the source. With none and the port free, a quiet part makes one last refresh cycle, and as that ends it is in
SLEEP with the DRAM in self-refresh, no channel in HOLD, the temperature stale with its code kept, the DRAM, the tables and
the directory kept. That the state is reached as the cycle's grant ends, and not before, is the model's reading (log entry
17). -/
def Obligations.SleepEntryGoesOnOrIsAbandoned : Prop :=
  ∀ (lv : Levels) (s : State) (e : SleepEntry), s.power.entry = some e → e.stage = .waitReply → s.port.replies = [] →
    (∀ k, activeSource e (sense lv s).lines = some k → e.fromDoze = false →
        exec (.sleepEntry lv) s =
          .next (settle (raise evWake 0 0 (128 + k)
            { sense lv s with power := { s.power with entry := none } })))
      ∧ (activeSource e (sense lv s).lines = none → e.standby = false → Quiet s → s.spill = .idle →
          s.pmc.grant = none → s.pmc.selfRefresh = false →
            ∃ u : State, exec (.sleepEntry lv) s = .next u
              ∧ u.pmc.grant = some { burst := .lastRefresh, live := true } ∧ u.power.state = s.power.state
              ∧ ∀ lv' : Levels, ∃ t : State, exec (.dramGrantEnd lv') u = .next t ∧ t.power.state = .sleep
                ∧ t.pmc.selfRefresh = true ∧ t.pmc.grant = none
                ∧ t.power.entry = none ∧ t.power.mask = e.mask
                ∧ t.power.wakeTimer = (if e.timer = 0 then none else some e.timer)
                ∧ t.motS.state ≠ .hold ∧ t.motP.state ≠ .hold ∧ t.temp.fresh = false ∧ t.temp.reading = s.temp.reading
                ∧ t.dram = s.dram ∧ t.tables = s.tables ∧ t.dir = s.dir ∧ t.events = s.events)

/-- READY (R67, R174, R181): in PORTLOAD with SETTINGS the free list's build begins, the boot state is READY and BOOT is raised
with reason 1, and after it, where the wake section kept a source, WAKE with that source, which is then kept no longer; without
SETTINGS the order is NOTABLE; in READY it is STATE. ROM_RECORD in ROMLOAD (R18, R180): an END record with the right sum and
SETTINGS present reaches READY in the same way with BOOT reason 0; with another sub, length or sum, or without SETTINGS, the
image is invalid: PORTLOAD with BOOT reason 3. So it is at a record of another kind than LOAD or END and at a LOAD whose header
fails. A LOAD is taken into the assembly and its image judged and installed as one from the port; the read position and the
running sum then go on past its bytes. One that would be answered other than OK or CLAMPED makes the image invalid, the tables
as the load left them. In ROMLOAD, and only there, ROMCS is low, ROMCK runs, and the read command 03h with address 0000h is
what ROMDO sends (as bytes, log entry 9); that a PFAIL hold begun in ROMLOAD leaves the boot state and these lines so is the
model's choice (log entry 16). That an END record must end within the 65536 bytes, and that a LOAD which ends exactly with
them, or beyond, makes the image invalid, is the model's reading (log entry 21). That a segment number above 15 never continues
an assembly is the model's reading (log entry 18); that memory size and pixel clock of a SETTINGS image are enumerations,
refused and not clamped, is the model's choice (log entry 49). -/
def Obligations.ReadyIsReached : Prop :=
  (∀ s : State,
      let reached (r : Nat) : State :=
        let u := raise evBoot 0 0 r { startBuild s with boot := { s.boot with state := .ready, romPos := 0, romSum := 0 } }
        match s.power.keptSource with
        | none => u
        | some k => raise evWake 0 0 k { u with power := { u.power with keptSource := none } }
      let bad (t : State) : State :=
        raise evBoot 0 0 3 { t with boot := { s.boot with state := .portload, romPos := 0, romSum := 0 } }
      (rdy s = true → s.port.inbound = .receiving [] →
          (s.boot.state = .portload → s.tables.active[tSettings] ≠ none →
              exec .ready s = .next (replied 0x0D (.filled .ok []) (reached 1)))
            ∧ (s.boot.state = .portload → s.tables.active[tSettings] = none →
                exec .ready s = .next (replied 0x0D (.filled .notable []) s))
            ∧ (s.boot.state = .ready → exec .ready s = .next (replied 0x0D (.filled .state []) s)))
        ∧ (s.boot.state = .romload → s.power.pfail = .inactive →
            (∀ hi lo : Byte, s.tables.active[tSettings] ≠ none → s.boot.romPos + 6 ≤ 65536 →
                256 * hi.toNat + lo.toNat = s.boot.romSum →
                  exec (.romRecord 0x7F 0 2 [hi, lo]) s = .next (settle (reached 0)))
              ∧ (∀ (sub : Byte) (len : BitVec 16) (payload : List Byte), payload.length = len.toNat →
                  (sub ≠ 0 ∨ len ≠ 2 ∨ beNat payload ≠ s.boot.romSum ∨ s.tables.active[tSettings] = none) →
                    exec (.romRecord 0x7F sub len payload) s = .next (settle (bad s)))
              ∧ (∀ (sub : Byte) (len : BitVec 16) (payload : List Byte),
                  (14 ≤ sub.toNat ∨ len.toNat < 2 ∨ 2048 < len.toNat) →
                    exec (.romRecord 0x20 sub len payload) s = .next (settle (bad s)))
              ∧ (∀ kind sub len payload, kind ≠ 0x7F → kind ≠ 0x20 →
                  exec (.romRecord kind sub len payload) s = .next (settle (bad s)))
              ∧ (∀ (id : Fin 14) (seg fin : Byte) (bytes : List Byte), bytes.length ≤ 2046 →
                  let tid : Byte := BitVec.ofNat 8 id.val
                  let n := 2 + bytes.length
                  let pos := s.boot.romPos + 4 + n
                  let record : Instr := .romRecord 0x20 tid (BitVec.ofNat 16 n) (seg :: fin :: bytes)
                  let continues (a : Assembly) : Prop := a.table = id ∧ a.next = seg.toNat ∧ seg.toNat ≤ 15
                  let invalid (t : State) : Prop := exec record s = .next (settle (bad t))
                  let taken (t : State) : Prop :=
                    if pos = 65536 then invalid t
                    else
                      exec record s = .next (settle { t with boot := { s.boot with
                        romPos := pos,
                        romSum := (s.boot.romSum +
                          (([0x20, tid] ++ be16 n ++ seg :: fin :: bytes).map BitVec.toNat).sum) % 65536 } })
                  (65536 < pos → invalid s)
                    ∧ (pos ≤ 65536 →
                        (2 ≤ fin.toNat → invalid s)
                          ∧ (fin.toNat ≤ 1 → seg ≠ 0 → (∀ a, s.tables.assembly = some a → ¬continues a) → invalid s)
                          ∧ ∀ img : List Byte,
                            ((seg = 0 ∧ img = bytes) ∨
                              (seg ≠ 0 ∧ ∃ a, s.tables.assembly = some a ∧ continues a ∧ img = a.bytes ++ bytes)) →
                              let t := setAssembly none s
                              (12288 < img.length → fin.toNat ≤ 1 → invalid t)
                                ∧ (img.length ≤ 12288 → fin = 0 →
                                    taken (setAssembly (some { table := id, next := seg.toNat + 1, bytes := img }) s))
                                ∧ (img.length ≤ 12288 → fin = 1 →
                                    ((tableLengthOk id img = false ∨ tableEnumsOk id img = false) → invalid t)
                                      ∧ (tableLengthOk id img = true → tableEnumsOk id img = true →
                                          let c := clampTable id img
                                          (id = tShading → s.front.cal ≠ none → invalid t)
                                            ∧ (id = tSettings →
                                                (s.scanJob ≠ none ∨ s.intJob ≠ none ∨ s.prtJob ≠ none ∨ s.outJob ≠ none
                                                  ∨ s.front.cal ≠ none ∨ s.motS.atRest = false ∨ s.motP.atRest = false) →
                                                  invalid t)
                                            ∧ (id = tSettings → s.scanJob = none → s.intJob = none → s.prtJob = none →
                                                s.outJob = none → s.front.cal = none → s.motS.atRest = true →
                                                s.motP.atRest = true →
                                                  taken { s with
                                                    tables := { active := s.tables.active.set 0 (some c.image),
                                                                pending := s.tables.pending.set 0 none, assembly := none },
                                                    events := s.events.maskAll (beNat (sliceOf c.image 27 3)) })
                                            ∧ (id ≠ tSettings → (id = tShading → s.front.cal = none) →
                                                taken (if tableInUse id s then setPending id (some c.image) t
                                                       else setPending id none (setActive id c.image t)))))))))
    ∧ ∀ s : State, (romcs s = false ↔ s.boot.state = .romload) ∧ (romck s = true ↔ s.boot.state = .romload)
        ∧ romdo s = (if s.boot.state = .romload then [0x03, 0x00, 0x00] else [])

/-- RESTART (R17, R43, R90, R94, R106, R117, R118, R182, R190): every job and calibration is gone, no page is FILLING, the places claimed are released and
the next page id kept, the rings are empty but for a line being read, the error row 0, LAMP low, both channels in OFF, or in
FAULT while the cover is open, positions kept, a motion of the Scan Sequencer or the Print Engine abandoned and its owner told
the steps issued and owed (held in the model's own form, log entry 52), the wake mask and timer cleared; from DOZE a return to
RUN begins that raises no WAKE. Its reply joins the queue behind those there, of which the calibration's and the diagnostic
accesses' that wait are filled STATE. Of the pages, a FILLING one is gone, an ERASING one where it has a reader, a COMPLETE one
where a reader consumes it and stands at its line count or it has a reader and no stored line (R90); every other stays as it is,
in its order, with no reader, and the blocks of those gone are counted free. Both directory waits are over and the coder and
decoder contexts are as at reset. A pending motor table becomes active, every other copy and the load assembly stay; no flag is
raised but TABLE_APPLIED for those tables and PARITY for a header that fails, every mask and every queued record stays. The spill engine, the temperature and the boot state are as they were, and so is every byte of the
DRAM: the discarded pages' blocks go back to the free list (R70), and the header of a coder's current block among them, which
R70 has written first, is queued as list upkeep and not written at the order itself (the model's reading, log entry 10). -/
def Obligations.RestartEndsEverything : Prop :=
  ∀ s : State, portOpen s →
    ∃ t : State, exec .restart s = .next (replied 0x0E (.filled .ok []) t)
      ∧ t.scanJob = none ∧ t.intJob = none ∧ t.prtJob = none ∧ t.outJob = none ∧ t.front.cal = none
      ∧ (∀ e ∈ t.dir.entries, e.state ≠ .filling) ∧ t.dir.places = 0 ∧ t.dir.nextId = s.dir.nextId
      ∧ t.rings.scan.occ = 0 ∧ t.rings.intake.occ = 0 ∧ t.rings.print.occ = 0
      ∧ t.rings.output.occ = (if lineBegun s then 1 else 0) ∧ t.front.errorRow = List.replicate 1728 0
      ∧ t.front.lamp = false
      ∧ t.motS.state = (if s.lines.cover then .off else .fault) ∧ t.motP.state = (if s.lines.cover then .off else .fault)
      ∧ t.motS.pos = s.motS.pos ∧ t.motP.pos = s.motP.pos ∧ t.power.mask = 0 ∧ t.power.wakeTimer = none
      ∧ (∀ ch, (motorOf ch s).moving = true → ((motorOf ch s).owner = .scan ∨ (motorOf ch s).owner = .print) →
          (motorOf ch t).plan = .idle ∧ (motorOf ch t).owner = .nobody
            ∧ (motorOf ch t).told =
                some { owner := (motorOf ch s).owner, issued := (motorOf ch s).issued, owed := (motorOf ch s).plan.owed })
      ∧ t.spill = s.spill ∧ t.temp = s.temp ∧ t.dram = s.dram ∧ t.boot = s.boot
      ∧ (s.power.state = .doze → s.power.returning = none → t.power.returning = some 0)
      ∧ t.port.replies = (s.port.replies.map fun x =>
          match x.body with
          | .filled _ _ => x
          | .calibrating => if s.front.cal.isSome then { x with body := .filled .state [] } else x
          | .diag => { x with body := .filled .state [] })
      ∧ ((s.dir.entries.map Entry.id).Nodup →
          let stays (e : Entry) : Bool :=
            match e.state with
            | .filling => false
            | .erasing => !e.hasReader
            | .complete =>
              !e.hasReader
                || !((e.printRd.any fun r => r.consume && decide (r.linePos = e.lineCount))
                      || (e.outRd.any fun r => r.consume && decide (r.linePos = e.lineCount))
                      || decide (e.headLine = e.lineCount))
          t.dir.entries = ((s.dir.entries.filter stays).map fun e => { e with printRd := none, outRd := none })
            ∧ t.pmc.count = s.pmc.count + ((s.dir.entries.filter fun e => !stays e).map Entry.blockCount).sum)
      ∧ t.scanCd = Coder.reset ∧ t.intakeCd = Coder.reset ∧ t.printDec = none ∧ t.outDec = none
      ∧ (∀ id : Fin 14,
          if id ∈ [tSramp, tSphase, tPramp, tPphase] ∧ s.tables.pending[id] ≠ none then
            t.tables.active[id] = s.tables.pending[id] ∧ t.tables.pending[id] = none
          else t.tables.active[id] = s.tables.active[id] ∧ t.tables.pending[id] = s.tables.pending[id])
      ∧ t.tables.assembly = s.tables.assembly
      ∧ (∀ f : Fin 20, (t.events.flags[f]).masked = (s.events.flags[f]).masked
          ∧ (f ≠ evTableApplied → f ≠ evParity → t.events.flags[f] = s.events.flags[f]))
      ∧ s.events.queue <+: t.events.queue

/-- The first wake event in SLEEP (R74, R116, R173): a write strobe, a rise of RING, KEY or DOCP in the mask, or the wake
timer takes the DRAM out of self-refresh with a refresh cycle at once and begins the 1 ms return with its reason, 5, 1, 2, 3
or 4, the channels taking the motor shadow; the strobe's byte is not taken, and the rise of DOCP raises DOC_IN where no SCAN
job exists (R134), which is the model's reading (log entry 14). RUN_REACHED (R116, R171, R173): RUN, the return over, the
wake timer stopped, the channels at the motor shadow, WAKE raised for a reason other than 0, and an order held is
dispatched. That a part woken from SLEEP stays in it, and raises WAKE, only at RUN_REACHED is the model's reading (log entry
13), as it is that a refresh cycle due at the wake takes the first grant (log entry 17). That a channel takes the shadow's
phase index unreduced is the model's choice (log entry 44). -/
def Obligations.SleepWakesAndRunIsReached : Prop :=
  (∀ (d : Byte) (together : Bool) (lv : Levels) (s : State), s.power.state = .sleep → s.power.entry = none →
      s.power.returning = none → s.power.coverLatch = false → s.spill = .idle → s.pmc.grant = none →
      s.pmc.srPending = none →
        let woken (r : Nat) (s : State) : State :=
          { s with
            pmc := { s.pmc with selfRefresh := false, refreshDue := false,
                                grant := some { burst := .refresh, live := true } },
            power := { s.power with wakeTimer := none, returning := some r },
            motS := { s.motS with phase := s.power.shadow.sPhase, pos := s.power.shadow.sPos },
            motP := { s.motP with phase := s.power.shadow.pPhase, pos := s.power.shadow.pPos } }
        exec (.wstbStrobe ⟨true, together⟩ d lv) s = .next (woken 5 (sense lv s))
          ∧ (s.lines.ring = false → s.power.mask.getLsbD 0 = true →
              exec .ringRise s = .next (woken 1 { s with lines := { s.lines with ring := true } }))
          ∧ (s.lines.key = false → s.power.mask.getLsbD 1 = true →
              exec .keyRise s = .next (woken 2 { s with lines := { s.lines with key := true } }))
          ∧ (s.lines.docp = false → s.power.mask.getLsbD 2 = true → s.boot.state ≠ .reset →
              exec .docpRise s =
                .next (if s.scanJob.isNone then raise evDocIn 0 0 0 (woken 3 { s with lines := { s.lines with docp := true } })
                  else woken 3 { s with lines := { s.lines with docp := true } }))
          ∧ (s.power.wakeTimer.isSome = true → exec .wakeTimerExpiry s = .next (woken 4 s)))
    ∧ ∀ (lv : Levels) (s : State) (r : Nat), s.power.returning = some r →
        let t : State :=
          { sense lv s with
            power := { s.power with state := .run, returning := none, wakeTimer := none },
            motS := { s.motS with phase := s.power.shadow.sPhase, pos := s.power.shadow.sPos },
            motP := { s.motP with phase := s.power.shadow.pPhase, pos := s.power.shadow.pPos } }
        let u : State := if r = 0 then t else raise evWake 0 0 r t
        ((∀ held, s.port.inbound ≠ .held held) → exec (.runReached lv) s = .next (settle u))
          ∧ ∀ held, s.port.inbound = .held held →
              exec (.runReached lv) s = .next (settle (completeRecord held (setInbound (.receiving []) u)))

/-- The timers that run out with no job to tell (R41, R107, R145, R170): the lamp wait starts the white lines, a hold timer
takes its channel to OFF with its phase index kept, the age timer makes the reading stale with its code kept, the idle
timer takes the part to DOZE with all three lines in the mask and no wake timer. -/
def Obligations.TimersRunOut : Prop :=
  ∀ s : State,
    let shadow : Shadow :=
      { sPhase := s.motS.phase, sPos := s.motS.pos, pPhase := s.motP.phase, pPos := s.motP.pos }
    let dozing : Power :=
      { s.power with state := .doze, mask := 7, wakeTimer := none, idleTimer := none, shadow := shadow }
    (∀ c, s.front.cal = some c → c.stage = .lampWait →
        exec .lampwarmExpiry s = .next { s with front := { s.front with cal := some { c with stage := .white 0 } } })
      ∧ (∀ ch n, (motorOf ch s).state = .hold → (motorOf ch s).hold = some n →
          exec (.holdTimerExpiry ch) s = .next (setMotor ch { motorOf ch s with state := .off, hold := none } s))
      ∧ (∀ n, s.temp.age = some n → s.prtJob = none →
          exec .tempAgeExpiry s = .next { s with temp := { s.temp with fresh := false, age := none } })
      ∧ (∀ n, s.power.idleTimer = some n → idleConds s = true →
          exec .idleTimerExpiry s =
            .next { s with motS := s.motS.powerDown, motP := s.motP.powerDown, power := dozing })

/-- PFAIL_RISE in READY, with the core running and no SLEEP or STANDBY entry (R95, R176): both channels in FAULT, RDY low,
RSTOUT high, the jobs and calibration gone, the rings empty but for a line whose record is partly read, no reader left on any
page, the spill to be written, the wake mask cleared. No page is FILLING: each that was is COMPLETE and truncated with its
lines kept, or gone; one with a stored line and no reader is not gone. The pages are stated
with page ids that differ. -/
def Obligations.PfailEndsJobsAndSpills : Prop :=
  ∀ s : State, s.lines.pfail = false → s.power.pfail = .inactive → s.boot.state = .ready → s.power.entry = none →
    (s.power.state = .run ∨ s.power.state = .doze) →
      ∃ t : State, exec .pfailRise s = .next (settle t) ∧ t.motS.state = .fault ∧ t.motP.state = .fault
        ∧ t.motS.causes.pfail = true ∧ t.motP.causes.pfail = true ∧ rdy t = false ∧ rstout t = true
        ∧ t.scanJob = none ∧ t.intJob = none ∧ t.prtJob = none ∧ t.outJob = none ∧ t.front.cal = none
        ∧ t.rings.scan.occ = 0 ∧ t.rings.scanReserved = 0 ∧ t.rings.intake.occ = 0 ∧ t.rings.print.occ = 0
        ∧ t.rings.output.occ = (if lineBegun s then 1 else 0)
        ∧ (∀ e ∈ t.dir.entries, e.state ≠ .filling) ∧ t.dir.places = 0 ∧ t.spill = .await .pfail
        ∧ t.power.mask = 0 ∧ t.power.shadow = takeShadow t ∧ t.lines.pfail = true
        ∧ ((s.dir.entries.map Entry.id).Nodup →
            (∀ e ∈ t.dir.entries, e.printRd = none ∧ e.outRd = none)
              ∧ ∀ e ∈ s.dir.entries, e.state = .filling →
                (∀ e' ∈ t.dir.entries, e'.id = e.id →
                    e'.state = .complete ∧ e'.truncated = true ∧ e'.lineCount = e.lineCount)
                  ∧ (e.headLine ≠ e.lineCount → e.printRd = none → e.outRd = none → ∃ e' ∈ t.dir.entries, e'.id = e.id))

/-- Cold starts (R174, R177, R183): the fall of PFAIL in the hold, the assertion of RESET, the return of power with the DRAM
kept, and a wake from STANDBY leave the state of reset, PWRDN low and the power state RUN, in which the DRAM is out of
self-refresh and the refresh cycle of the cold start is in course (R74; that it ends with a grant's end, the spill check's
reads behind it, is the model's reading, log entry 17), but for the DRAM, the lines, a source the wake section keeps, and the
commands waiting. In STANDBY a rise of RING, KEY or DOCP with its bit in the mask, and the wake timer's expiry, wake the part
so, with reason 1, 2, 3 or 4 kept; a rise outside the mask changes the level alone. That the rise of DOCP there raises no
DOC_IN is the model's reading (log entry 14). That a kept source outlives RESET and the fall of PFAIL and not POWER_ON (log
entry 22), and that POWER_ON keeps the PFAIL and RESET levels (log entry 38), is the model's reading. The end of the boot state
RESET (R113, R177, R178): BOOTSRC is sampled, SPILLCHECK begins at 4 MiB; a cover found open puts both channels in FAULT and
sets COVER. Stated with PFAIL low. That RESET_RELEASE ends the state at once and that STRAP passes within the same step is the
model's reading (log entries 15, 38). -/
def Obligations.ColdStartsAndStandbyWakes : Prop :=
  (∀ (lv : Levels) (s : State),
      let cold (l : Lines) (kept : Option Nat) : State :=
        { State.reset with dram := s.dram, lines := l, pending := s.pending,
                           power := { Power.reset with keptSource := kept } }
      (s.lines.pfail = true → s.power.pfail = .hold →
          exec .pfailFall s = .next (cold { s.lines with pfail := false } s.power.keptSource))
        ∧ exec .resetAssert s = .next (cold { s.lines with reset := true } s.power.keptSource)
        ∧ exec (.powerOn lv none) s =
            .next (cold { docp := lv.docp, doce := lv.doce, papr := lv.papr, cover := lv.cover, pfail := s.lines.pfail,
                          ring := lv.ring, key := lv.key, bootsrc := lv.bootsrc, reset := s.lines.reset } none)
        ∧ (∀ l k, (cold l k).power.pwrdn = false ∧ (cold l k).power.state = .run ∧ (cold l k).boot.state = .reset)
        ∧ (s.power.state = .standby → s.power.entry = none →
            (s.lines.ring = false → s.power.mask.getLsbD 0 = true →
                exec .ringRise s = .next (cold { s.lines with ring := true } (some 1)))
              ∧ (s.lines.key = false → s.power.mask.getLsbD 1 = true →
                  exec .keyRise s = .next (cold { s.lines with key := true } (some 2)))
              ∧ (s.lines.docp = false → s.power.mask.getLsbD 2 = true →
                  exec .docpRise s = .next (cold { s.lines with docp := true } (some 3)))
              ∧ (∀ n, s.power.wakeTimer = some n → exec .wakeTimerExpiry s = .next (cold s.lines (some 4)))
              ∧ (s.pmc.selfRefresh = true → s.spill = .idle →
                  (s.lines.ring = false → s.power.mask.getLsbD 0 = false →
                      exec .ringRise s = .next { s with lines := { s.lines with ring := true } })
                    ∧ (s.lines.key = false → s.power.mask.getLsbD 1 = false →
                        exec .keyRise s = .next { s with lines := { s.lines with key := true } })
                    ∧ (s.lines.docp = false → s.power.mask.getLsbD 2 = false →
                        exec .docpRise s = .next { s with lines := { s.lines with docp := true } }))))
    ∧ ∀ (lv : Levels) (s : State), s.boot.state = .reset → s.power.pfail = .inactive → s.lines.pfail = false →
        ∃ t : State,
          (s.lines.reset = true → exec (.resetRelease lv) s = .next (settle t) ∧ t.lines.reset = false)
            ∧ (s.lines.reset = false → exec (.resetStateEnd lv) s = .next (settle t))
            ∧ t.boot.state = .spillcheck ∧ t.boot.strap = lv.bootsrc ∧ t.spill = .check .m4 ∧ t.dram = s.dram
            ∧ ((sense lv s).lines.cover = false →
                t.motS.state = .fault ∧ t.motP.state = .fault ∧ (t.events.flags[evCover]).set = true)
            ∧ ((sense lv s).lines.cover = true → t.motS = s.motS ∧ t.motP = s.motP ∧ t.events = s.events)

/-- The sum of a spill agrees with its words, and its marker stands first (R175), for every spill that fits the reserve. -/
def Obligations.SpillCarriesMarkerAndSum : Prop :=
  ∀ s : State, (spillImage s).length ≤ 16384 →
    (spillImage s).take 2 = [0xA5, 0x5A] ∧ spillFits (spillImage s) = true ∧ spillSumOk (spillImage s) = true
      ∧ spillLength (spillImage s) + 2 = (spillImage s).length ∧ spillLength (spillImage s) % 2 = 0

/-- The spill engine's bursts (R67, R75, R174, R175, R178, R179). A spill awaited stays so, whatever the arbiter does, while
list upkeep waits or a list build runs; it is then written from behind its marker on, 16 bytes at most a burst and within one
block, every other byte as before, and its marker last; for a power-fail warning self-refresh is then asked for, for STANDBY
where no source of its mask is active, else the marker is cleared. In SPILLCHECK a candidate whose marker or size code does not
hold gives way to the next smaller, and after 512 KiB to ROMLOAD or PORTLOAD by the strap; one that holds is read. A spill read
whole that passes leads to RESTORE and the second read; one that fails raises PAGES_LOST with the reason of its fault (which
fault counts first, and what is sound at the edges, is the model's reading, log entries 19, 20) and there is no spill. A parity
failure in the second read abandons the restore; its end reinstates the free list, the directory, the tables with no pending
copy, the motor shadow from its ten bytes, and from it the channels' phase indices and positions. The marker cleared leads
after a restore to READY with BOOT reason 2, and after that, where the wake section kept a source, to WAKE with it, which is
then kept no longer; after an abandoned one to PAGES_LOST reason 3 and no spill; and at the end of an abandoned STANDBY entry to
that entry's end with its source, bit 7 set (R172): WAKE at once for one begun in RUN, the 1 ms return to that WAKE for one
begun in DOZE. -/
def Obligations.SpillBursts : Prop :=
  (∀ (why : SpillFor) (s : State), s.spill = .await why → s.pmc.selfRefresh = false →
      (∀ g, s.pmc.upkeep = [] → s.pmc.build = none → s.pmc.grant = some g →
          exec .refreshDue s =
            .next { s with pmc := { s.pmc with refreshDue := true },
                           spill := .write why 2 ((spillImage { s with pmc := { s.pmc with refreshDue := true } }).drop 2) })
        ∧ ((s.pmc.upkeep ≠ [] ∨ s.pmc.build ≠ none) →
            (arbitrate s).spill = .await why
              ∧ (∀ g, s.pmc.grant = some g →
                  exec .refreshDue s = .next { s with pmc := { s.pmc with refreshDue := true } })
              ∧ (s.pmc.grant = none → s.pmc.srPending = none →
                  exec .refreshDue s =
                    .next { s with pmc := { s.pmc with grant := some { burst := .refresh, live := true },
                                                       refreshDue := false } })))
    ∧ ∀ (lv : Levels) (s : State), s.pmc.grant = some { burst := .spill, live := true } →
        let base : State := { sense lv s with pmc := { s.pmc with grant := none } }
        let ends (t : State) : Prop := exec (.dramGrantEnd lv) s = .next (settle t)
        let none? (t : State) : State :=
          { t with spill := .idle, boot := { t.boot with state := if t.boot.strap then .romload else .portload, romPos := 0,
                                                         romSum := 0 } }
        (∀ why off todo, s.spill = .write why off todo →
            let n := min 16 (1024 - off % 1024)
            ends { base with
              dram := s.dram.writeAll (reserveAddr (setMemSize s) + off) false (todo.take n),
              spill := if todo.length ≤ n then .writeMarker why else .write why (off + n) (todo.drop n) })
          ∧ (∀ why, s.spill = .writeMarker why →
              let marked : State :=
                { base with dram := s.dram.writeAll (reserveAddr (setMemSize s)) false [0xA5, 0x5A], spill := .idle }
              (s.power.pfail ≠ .inactive → ends { marked with pmc := { base.pmc with srPending := some .pfail } })
                ∧ (∀ e, s.power.pfail = .inactive → s.power.entry = some e →
                    (activeSource e base.lines = none →
                        ends { marked with pmc := { base.pmc with srPending := some .standby },
                                           power := { s.power with entry := some { e with stage := .selfRefresh } } })
                      ∧ (∀ k, activeSource e base.lines = some k →
                          ends { marked with spill := .clearMarker (setMemSize s) .abandoned,
                                             power := { s.power with
                                               entry := some { e with stage := .clearing, found := k } } })))
          ∧ (∀ z, s.spill = .check z →
              let a := reserveAddr z
              let holds : Prop :=
                s.dram.parityAll a 2 = true ∧ s.dram.parityOk (a + 4) = true ∧ s.dram.readAll a 2 = [0xA5, 0x5A]
                  ∧ (s.dram.read (a + 4)).toNat = z.code
              (holds → ends { base with spill := .read z [] false })
                ∧ (¬holds →
                    (z = .m4 → ends { base with spill := .check .m2 }) ∧ (z = .m2 → ends { base with spill := .check .m1 })
                      ∧ (z = .m1 → ends { base with spill := .check .k512 }) ∧ (z = .k512 → ends (none? base))))
          ∧ (∀ z got bad, s.spill = .read z got bad →
              let b := got ++ s.dram.readAll (reserveAddr z + got.length) (spillStep got)
              let bad' := bad || !s.dram.parityAll (reserveAddr z + got.length) (spillStep got)
              (spillRead b = false → ends { base with spill := .read z b bad' })
                ∧ (spillRead b = true →
                    (spillVerdict z b bad' = none →
                        ends { base with spill := .restore z [], boot := { s.boot with state := .restore } })
                      ∧ (∀ r, spillVerdict z b bad' = some r → ends (none? (raise evPagesLost 0 0 r base)))))
          ∧ (∀ z got, s.spill = .restore z got →
              let b := got ++ s.dram.readAll (reserveAddr z + got.length) (spillStep got)
              let good := s.dram.parityAll (reserveAddr z + got.length) (spillStep got)
              (good = false → ends { base with spill := .clearMarker z .lost })
                ∧ (good = true → spillRead b = false → ends { base with spill := .restore z b })
                ∧ (good = true → spillRead b = true → spillVerdict z b false = none → ∃ t : State, ends t
                    ∧ t.spill = .clearMarker z .restored ∧ t.boot = s.boot ∧ t.dram = s.dram
                    ∧ t.pmc.head = wordAt b 7 ∧ t.pmc.headLink = wordAt b 9 ∧ t.pmc.tail = wordAt b 11
                    ∧ t.pmc.count = wordAt b 13 ∧ t.dir.nextId = byteAt b 5 ∧ t.dir.places = 0
                    ∧ t.dir.entries = (List.range (byteAt b 6)).map (entryOfSpill b)
                    ∧ (∀ id : Fin 14, t.tables.active[id] = (if spillTable b id = [] then none else some (spillTable b id))
                        ∧ t.tables.pending[id] = none)
                    ∧ t.tables.assembly = none
                    ∧ t.power.shadow =
                        { sPhase := byteAt b 18, sPos := BitVec.ofNat 32 (longAt b 19), pPhase := byteAt b 23,
                          pPos := BitVec.ofNat 32 (longAt b 24) }
                    ∧ t.motS = { s.motS with phase := t.power.shadow.sPhase, pos := t.power.shadow.sPos }
                    ∧ t.motP = { s.motP with phase := t.power.shadow.pPhase, pos := t.power.shadow.pPos }
                    ∧ ∀ f : Fin 20, (t.events.flags[f]).masked = (beNat (sliceOf b 15 3)).testBit f.val))
          ∧ (∀ z, s.spill = .clearMarker z .restored →
              let ready : State :=
                raise evBoot 0 0 2
                  { base with dram := s.dram.writeAll (reserveAddr z) false [0, 0], spill := .idle,
                              boot := { s.boot with state := .ready, romPos := 0, romSum := 0 } }
              (s.power.keptSource = none → ends ready)
                ∧ (∀ k, s.power.keptSource = some k →
                    ends (raise evWake 0 0 k { ready with power := { s.power with keptSource := none } })))
          ∧ (∀ z e, s.spill = .clearMarker z .abandoned → s.power.entry = some e →
              let cleared : State :=
                { base with dram := s.dram.writeAll (reserveAddr z) false [0, 0], spill := .idle,
                            power := { s.power with entry := none } }
              (e.fromDoze = false → ends (raise evWake 0 0 (128 + e.found) cleared))
                ∧ (e.fromDoze = true →
                    ends { cleared with power := { cleared.power with
                      returning := some (s.power.returning.getD (128 + e.found)) } }))
          ∧ (∀ z, s.spill = .clearMarker z .lost →
              ends (none? (raise evPagesLost 0 0 3
                { base with dram := s.dram.writeAll (reserveAddr z) false [0, 0], spill := .idle })))

end
end

