-- ==== Sys2Proof/Laws/State.lean ====
section
/-! SUPPORT. One lemma per field per update of State. -/

-- one declaration after the other: run side by side, the proofs of the whole package hold more threads than memory has room for
set_option Elab.async false

namespace Sys2Proof.Machine

/-! ### mapDram -/

@[simp] theorem mapDram_lines (f : Memory → Memory) (s : State) : (mapDram f s).lines = s.lines := rfl
@[simp] theorem mapDram_port (f : Memory → Memory) (s : State) : (mapDram f s).port = s.port := rfl
@[simp] theorem mapDram_tables (f : Memory → Memory) (s : State) : (mapDram f s).tables = s.tables := rfl
@[simp] theorem mapDram_front (f : Memory → Memory) (s : State) : (mapDram f s).front = s.front := rfl
@[simp] theorem mapDram_rings (f : Memory → Memory) (s : State) : (mapDram f s).rings = s.rings := rfl
@[simp] theorem mapDram_scanCd (f : Memory → Memory) (s : State) : (mapDram f s).scanCd = s.scanCd := rfl
@[simp] theorem mapDram_intakeCd (f : Memory → Memory) (s : State) : (mapDram f s).intakeCd = s.intakeCd := rfl
@[simp] theorem mapDram_printDec (f : Memory → Memory) (s : State) : (mapDram f s).printDec = s.printDec := rfl
@[simp] theorem mapDram_outDec (f : Memory → Memory) (s : State) : (mapDram f s).outDec = s.outDec := rfl
@[simp] theorem mapDram_dram (f : Memory → Memory) (s : State) : (mapDram f s).dram = f s.dram := rfl
@[simp] theorem mapDram_pmc (f : Memory → Memory) (s : State) : (mapDram f s).pmc = s.pmc := rfl
@[simp] theorem mapDram_dir (f : Memory → Memory) (s : State) : (mapDram f s).dir = s.dir := rfl
@[simp] theorem mapDram_motS (f : Memory → Memory) (s : State) : (mapDram f s).motS = s.motS := rfl
@[simp] theorem mapDram_motP (f : Memory → Memory) (s : State) : (mapDram f s).motP = s.motP := rfl
@[simp] theorem mapDram_scanJob (f : Memory → Memory) (s : State) : (mapDram f s).scanJob = s.scanJob := rfl
@[simp] theorem mapDram_intJob (f : Memory → Memory) (s : State) : (mapDram f s).intJob = s.intJob := rfl
@[simp] theorem mapDram_prtJob (f : Memory → Memory) (s : State) : (mapDram f s).prtJob = s.prtJob := rfl
@[simp] theorem mapDram_outJob (f : Memory → Memory) (s : State) : (mapDram f s).outJob = s.outJob := rfl
@[simp] theorem mapDram_temp (f : Memory → Memory) (s : State) : (mapDram f s).temp = s.temp := rfl
@[simp] theorem mapDram_power (f : Memory → Memory) (s : State) : (mapDram f s).power = s.power := rfl
@[simp] theorem mapDram_boot (f : Memory → Memory) (s : State) : (mapDram f s).boot = s.boot := rfl
@[simp] theorem mapDram_spill (f : Memory → Memory) (s : State) : (mapDram f s).spill = s.spill := rfl
@[simp] theorem mapDram_diagQ (f : Memory → Memory) (s : State) : (mapDram f s).diagQ = s.diagQ := rfl
@[simp] theorem mapDram_events (f : Memory → Memory) (s : State) : (mapDram f s).events = s.events := rfl
@[simp] theorem mapDram_pending (f : Memory → Memory) (s : State) : (mapDram f s).pending = s.pending := rfl

/-! ### mapRings -/

@[simp] theorem mapRings_lines (f : Rings → Rings) (s : State) : (mapRings f s).lines = s.lines := rfl
@[simp] theorem mapRings_port (f : Rings → Rings) (s : State) : (mapRings f s).port = s.port := rfl
@[simp] theorem mapRings_tables (f : Rings → Rings) (s : State) : (mapRings f s).tables = s.tables := rfl
@[simp] theorem mapRings_front (f : Rings → Rings) (s : State) : (mapRings f s).front = s.front := rfl
@[simp] theorem mapRings_rings (f : Rings → Rings) (s : State) : (mapRings f s).rings = f s.rings := rfl
@[simp] theorem mapRings_scanCd (f : Rings → Rings) (s : State) : (mapRings f s).scanCd = s.scanCd := rfl
@[simp] theorem mapRings_intakeCd (f : Rings → Rings) (s : State) : (mapRings f s).intakeCd = s.intakeCd := rfl
@[simp] theorem mapRings_printDec (f : Rings → Rings) (s : State) : (mapRings f s).printDec = s.printDec := rfl
@[simp] theorem mapRings_outDec (f : Rings → Rings) (s : State) : (mapRings f s).outDec = s.outDec := rfl
@[simp] theorem mapRings_dram (f : Rings → Rings) (s : State) : (mapRings f s).dram = s.dram := rfl
@[simp] theorem mapRings_pmc (f : Rings → Rings) (s : State) : (mapRings f s).pmc = s.pmc := rfl
@[simp] theorem mapRings_dir (f : Rings → Rings) (s : State) : (mapRings f s).dir = s.dir := rfl
@[simp] theorem mapRings_motS (f : Rings → Rings) (s : State) : (mapRings f s).motS = s.motS := rfl
@[simp] theorem mapRings_motP (f : Rings → Rings) (s : State) : (mapRings f s).motP = s.motP := rfl
@[simp] theorem mapRings_scanJob (f : Rings → Rings) (s : State) : (mapRings f s).scanJob = s.scanJob := rfl
@[simp] theorem mapRings_intJob (f : Rings → Rings) (s : State) : (mapRings f s).intJob = s.intJob := rfl
@[simp] theorem mapRings_prtJob (f : Rings → Rings) (s : State) : (mapRings f s).prtJob = s.prtJob := rfl
@[simp] theorem mapRings_outJob (f : Rings → Rings) (s : State) : (mapRings f s).outJob = s.outJob := rfl
@[simp] theorem mapRings_temp (f : Rings → Rings) (s : State) : (mapRings f s).temp = s.temp := rfl
@[simp] theorem mapRings_power (f : Rings → Rings) (s : State) : (mapRings f s).power = s.power := rfl
@[simp] theorem mapRings_boot (f : Rings → Rings) (s : State) : (mapRings f s).boot = s.boot := rfl
@[simp] theorem mapRings_spill (f : Rings → Rings) (s : State) : (mapRings f s).spill = s.spill := rfl
@[simp] theorem mapRings_diagQ (f : Rings → Rings) (s : State) : (mapRings f s).diagQ = s.diagQ := rfl
@[simp] theorem mapRings_events (f : Rings → Rings) (s : State) : (mapRings f s).events = s.events := rfl
@[simp] theorem mapRings_pending (f : Rings → Rings) (s : State) : (mapRings f s).pending = s.pending := rfl

/-! ### mapPower -/

@[simp] theorem mapPower_lines (f : Power → Power) (s : State) : (mapPower f s).lines = s.lines := rfl
@[simp] theorem mapPower_port (f : Power → Power) (s : State) : (mapPower f s).port = s.port := rfl
@[simp] theorem mapPower_tables (f : Power → Power) (s : State) : (mapPower f s).tables = s.tables := rfl
@[simp] theorem mapPower_front (f : Power → Power) (s : State) : (mapPower f s).front = s.front := rfl
@[simp] theorem mapPower_rings (f : Power → Power) (s : State) : (mapPower f s).rings = s.rings := rfl
@[simp] theorem mapPower_scanCd (f : Power → Power) (s : State) : (mapPower f s).scanCd = s.scanCd := rfl
@[simp] theorem mapPower_intakeCd (f : Power → Power) (s : State) : (mapPower f s).intakeCd = s.intakeCd := rfl
@[simp] theorem mapPower_printDec (f : Power → Power) (s : State) : (mapPower f s).printDec = s.printDec := rfl
@[simp] theorem mapPower_outDec (f : Power → Power) (s : State) : (mapPower f s).outDec = s.outDec := rfl
@[simp] theorem mapPower_dram (f : Power → Power) (s : State) : (mapPower f s).dram = s.dram := rfl
@[simp] theorem mapPower_pmc (f : Power → Power) (s : State) : (mapPower f s).pmc = s.pmc := rfl
@[simp] theorem mapPower_dir (f : Power → Power) (s : State) : (mapPower f s).dir = s.dir := rfl
@[simp] theorem mapPower_motS (f : Power → Power) (s : State) : (mapPower f s).motS = s.motS := rfl
@[simp] theorem mapPower_motP (f : Power → Power) (s : State) : (mapPower f s).motP = s.motP := rfl
@[simp] theorem mapPower_scanJob (f : Power → Power) (s : State) : (mapPower f s).scanJob = s.scanJob := rfl
@[simp] theorem mapPower_intJob (f : Power → Power) (s : State) : (mapPower f s).intJob = s.intJob := rfl
@[simp] theorem mapPower_prtJob (f : Power → Power) (s : State) : (mapPower f s).prtJob = s.prtJob := rfl
@[simp] theorem mapPower_outJob (f : Power → Power) (s : State) : (mapPower f s).outJob = s.outJob := rfl
@[simp] theorem mapPower_temp (f : Power → Power) (s : State) : (mapPower f s).temp = s.temp := rfl
@[simp] theorem mapPower_power (f : Power → Power) (s : State) : (mapPower f s).power = f s.power := rfl
@[simp] theorem mapPower_boot (f : Power → Power) (s : State) : (mapPower f s).boot = s.boot := rfl
@[simp] theorem mapPower_spill (f : Power → Power) (s : State) : (mapPower f s).spill = s.spill := rfl
@[simp] theorem mapPower_diagQ (f : Power → Power) (s : State) : (mapPower f s).diagQ = s.diagQ := rfl
@[simp] theorem mapPower_events (f : Power → Power) (s : State) : (mapPower f s).events = s.events := rfl
@[simp] theorem mapPower_pending (f : Power → Power) (s : State) : (mapPower f s).pending = s.pending := rfl

/-! ### mapBoot -/

@[simp] theorem mapBoot_lines (f : Boot → Boot) (s : State) : (mapBoot f s).lines = s.lines := rfl
@[simp] theorem mapBoot_port (f : Boot → Boot) (s : State) : (mapBoot f s).port = s.port := rfl
@[simp] theorem mapBoot_tables (f : Boot → Boot) (s : State) : (mapBoot f s).tables = s.tables := rfl
@[simp] theorem mapBoot_front (f : Boot → Boot) (s : State) : (mapBoot f s).front = s.front := rfl
@[simp] theorem mapBoot_rings (f : Boot → Boot) (s : State) : (mapBoot f s).rings = s.rings := rfl
@[simp] theorem mapBoot_scanCd (f : Boot → Boot) (s : State) : (mapBoot f s).scanCd = s.scanCd := rfl
@[simp] theorem mapBoot_intakeCd (f : Boot → Boot) (s : State) : (mapBoot f s).intakeCd = s.intakeCd := rfl
@[simp] theorem mapBoot_printDec (f : Boot → Boot) (s : State) : (mapBoot f s).printDec = s.printDec := rfl
@[simp] theorem mapBoot_outDec (f : Boot → Boot) (s : State) : (mapBoot f s).outDec = s.outDec := rfl
@[simp] theorem mapBoot_dram (f : Boot → Boot) (s : State) : (mapBoot f s).dram = s.dram := rfl
@[simp] theorem mapBoot_pmc (f : Boot → Boot) (s : State) : (mapBoot f s).pmc = s.pmc := rfl
@[simp] theorem mapBoot_dir (f : Boot → Boot) (s : State) : (mapBoot f s).dir = s.dir := rfl
@[simp] theorem mapBoot_motS (f : Boot → Boot) (s : State) : (mapBoot f s).motS = s.motS := rfl
@[simp] theorem mapBoot_motP (f : Boot → Boot) (s : State) : (mapBoot f s).motP = s.motP := rfl
@[simp] theorem mapBoot_scanJob (f : Boot → Boot) (s : State) : (mapBoot f s).scanJob = s.scanJob := rfl
@[simp] theorem mapBoot_intJob (f : Boot → Boot) (s : State) : (mapBoot f s).intJob = s.intJob := rfl
@[simp] theorem mapBoot_prtJob (f : Boot → Boot) (s : State) : (mapBoot f s).prtJob = s.prtJob := rfl
@[simp] theorem mapBoot_outJob (f : Boot → Boot) (s : State) : (mapBoot f s).outJob = s.outJob := rfl
@[simp] theorem mapBoot_temp (f : Boot → Boot) (s : State) : (mapBoot f s).temp = s.temp := rfl
@[simp] theorem mapBoot_power (f : Boot → Boot) (s : State) : (mapBoot f s).power = s.power := rfl
@[simp] theorem mapBoot_boot (f : Boot → Boot) (s : State) : (mapBoot f s).boot = f s.boot := rfl
@[simp] theorem mapBoot_spill (f : Boot → Boot) (s : State) : (mapBoot f s).spill = s.spill := rfl
@[simp] theorem mapBoot_diagQ (f : Boot → Boot) (s : State) : (mapBoot f s).diagQ = s.diagQ := rfl
@[simp] theorem mapBoot_events (f : Boot → Boot) (s : State) : (mapBoot f s).events = s.events := rfl
@[simp] theorem mapBoot_pending (f : Boot → Boot) (s : State) : (mapBoot f s).pending = s.pending := rfl

/-! ### mapPort -/

@[simp] theorem mapPort_lines (f : Port → Port) (s : State) : (mapPort f s).lines = s.lines := rfl
@[simp] theorem mapPort_port (f : Port → Port) (s : State) : (mapPort f s).port = f s.port := rfl
@[simp] theorem mapPort_tables (f : Port → Port) (s : State) : (mapPort f s).tables = s.tables := rfl
@[simp] theorem mapPort_front (f : Port → Port) (s : State) : (mapPort f s).front = s.front := rfl
@[simp] theorem mapPort_rings (f : Port → Port) (s : State) : (mapPort f s).rings = s.rings := rfl
@[simp] theorem mapPort_scanCd (f : Port → Port) (s : State) : (mapPort f s).scanCd = s.scanCd := rfl
@[simp] theorem mapPort_intakeCd (f : Port → Port) (s : State) : (mapPort f s).intakeCd = s.intakeCd := rfl
@[simp] theorem mapPort_printDec (f : Port → Port) (s : State) : (mapPort f s).printDec = s.printDec := rfl
@[simp] theorem mapPort_outDec (f : Port → Port) (s : State) : (mapPort f s).outDec = s.outDec := rfl
@[simp] theorem mapPort_dram (f : Port → Port) (s : State) : (mapPort f s).dram = s.dram := rfl
@[simp] theorem mapPort_pmc (f : Port → Port) (s : State) : (mapPort f s).pmc = s.pmc := rfl
@[simp] theorem mapPort_dir (f : Port → Port) (s : State) : (mapPort f s).dir = s.dir := rfl
@[simp] theorem mapPort_motS (f : Port → Port) (s : State) : (mapPort f s).motS = s.motS := rfl
@[simp] theorem mapPort_motP (f : Port → Port) (s : State) : (mapPort f s).motP = s.motP := rfl
@[simp] theorem mapPort_scanJob (f : Port → Port) (s : State) : (mapPort f s).scanJob = s.scanJob := rfl
@[simp] theorem mapPort_intJob (f : Port → Port) (s : State) : (mapPort f s).intJob = s.intJob := rfl
@[simp] theorem mapPort_prtJob (f : Port → Port) (s : State) : (mapPort f s).prtJob = s.prtJob := rfl
@[simp] theorem mapPort_outJob (f : Port → Port) (s : State) : (mapPort f s).outJob = s.outJob := rfl
@[simp] theorem mapPort_temp (f : Port → Port) (s : State) : (mapPort f s).temp = s.temp := rfl
@[simp] theorem mapPort_power (f : Port → Port) (s : State) : (mapPort f s).power = s.power := rfl
@[simp] theorem mapPort_boot (f : Port → Port) (s : State) : (mapPort f s).boot = s.boot := rfl
@[simp] theorem mapPort_spill (f : Port → Port) (s : State) : (mapPort f s).spill = s.spill := rfl
@[simp] theorem mapPort_diagQ (f : Port → Port) (s : State) : (mapPort f s).diagQ = s.diagQ := rfl
@[simp] theorem mapPort_events (f : Port → Port) (s : State) : (mapPort f s).events = s.events := rfl
@[simp] theorem mapPort_pending (f : Port → Port) (s : State) : (mapPort f s).pending = s.pending := rfl

/-! ### mapPmc -/

@[simp] theorem mapPmc_lines (f : Pmc → Pmc) (s : State) : (mapPmc f s).lines = s.lines := rfl
@[simp] theorem mapPmc_port (f : Pmc → Pmc) (s : State) : (mapPmc f s).port = s.port := rfl
@[simp] theorem mapPmc_tables (f : Pmc → Pmc) (s : State) : (mapPmc f s).tables = s.tables := rfl
@[simp] theorem mapPmc_front (f : Pmc → Pmc) (s : State) : (mapPmc f s).front = s.front := rfl
@[simp] theorem mapPmc_rings (f : Pmc → Pmc) (s : State) : (mapPmc f s).rings = s.rings := rfl
@[simp] theorem mapPmc_scanCd (f : Pmc → Pmc) (s : State) : (mapPmc f s).scanCd = s.scanCd := rfl
@[simp] theorem mapPmc_intakeCd (f : Pmc → Pmc) (s : State) : (mapPmc f s).intakeCd = s.intakeCd := rfl
@[simp] theorem mapPmc_printDec (f : Pmc → Pmc) (s : State) : (mapPmc f s).printDec = s.printDec := rfl
@[simp] theorem mapPmc_outDec (f : Pmc → Pmc) (s : State) : (mapPmc f s).outDec = s.outDec := rfl
@[simp] theorem mapPmc_dram (f : Pmc → Pmc) (s : State) : (mapPmc f s).dram = s.dram := rfl
@[simp] theorem mapPmc_pmc (f : Pmc → Pmc) (s : State) : (mapPmc f s).pmc = f s.pmc := rfl
@[simp] theorem mapPmc_dir (f : Pmc → Pmc) (s : State) : (mapPmc f s).dir = s.dir := rfl
@[simp] theorem mapPmc_motS (f : Pmc → Pmc) (s : State) : (mapPmc f s).motS = s.motS := rfl
@[simp] theorem mapPmc_motP (f : Pmc → Pmc) (s : State) : (mapPmc f s).motP = s.motP := rfl
@[simp] theorem mapPmc_scanJob (f : Pmc → Pmc) (s : State) : (mapPmc f s).scanJob = s.scanJob := rfl
@[simp] theorem mapPmc_intJob (f : Pmc → Pmc) (s : State) : (mapPmc f s).intJob = s.intJob := rfl
@[simp] theorem mapPmc_prtJob (f : Pmc → Pmc) (s : State) : (mapPmc f s).prtJob = s.prtJob := rfl
@[simp] theorem mapPmc_outJob (f : Pmc → Pmc) (s : State) : (mapPmc f s).outJob = s.outJob := rfl
@[simp] theorem mapPmc_temp (f : Pmc → Pmc) (s : State) : (mapPmc f s).temp = s.temp := rfl
@[simp] theorem mapPmc_power (f : Pmc → Pmc) (s : State) : (mapPmc f s).power = s.power := rfl
@[simp] theorem mapPmc_boot (f : Pmc → Pmc) (s : State) : (mapPmc f s).boot = s.boot := rfl
@[simp] theorem mapPmc_spill (f : Pmc → Pmc) (s : State) : (mapPmc f s).spill = s.spill := rfl
@[simp] theorem mapPmc_diagQ (f : Pmc → Pmc) (s : State) : (mapPmc f s).diagQ = s.diagQ := rfl
@[simp] theorem mapPmc_events (f : Pmc → Pmc) (s : State) : (mapPmc f s).events = s.events := rfl
@[simp] theorem mapPmc_pending (f : Pmc → Pmc) (s : State) : (mapPmc f s).pending = s.pending := rfl

/-! ### mapDir -/

@[simp] theorem mapDir_lines (f : Directory → Directory) (s : State) : (mapDir f s).lines = s.lines := rfl
@[simp] theorem mapDir_port (f : Directory → Directory) (s : State) : (mapDir f s).port = s.port := rfl
@[simp] theorem mapDir_tables (f : Directory → Directory) (s : State) : (mapDir f s).tables = s.tables := rfl
@[simp] theorem mapDir_front (f : Directory → Directory) (s : State) : (mapDir f s).front = s.front := rfl
@[simp] theorem mapDir_rings (f : Directory → Directory) (s : State) : (mapDir f s).rings = s.rings := rfl
@[simp] theorem mapDir_scanCd (f : Directory → Directory) (s : State) : (mapDir f s).scanCd = s.scanCd := rfl
@[simp] theorem mapDir_intakeCd (f : Directory → Directory) (s : State) : (mapDir f s).intakeCd = s.intakeCd := rfl
@[simp] theorem mapDir_printDec (f : Directory → Directory) (s : State) : (mapDir f s).printDec = s.printDec := rfl
@[simp] theorem mapDir_outDec (f : Directory → Directory) (s : State) : (mapDir f s).outDec = s.outDec := rfl
@[simp] theorem mapDir_dram (f : Directory → Directory) (s : State) : (mapDir f s).dram = s.dram := rfl
@[simp] theorem mapDir_pmc (f : Directory → Directory) (s : State) : (mapDir f s).pmc = s.pmc := rfl
@[simp] theorem mapDir_dir (f : Directory → Directory) (s : State) : (mapDir f s).dir = f s.dir := rfl
@[simp] theorem mapDir_motS (f : Directory → Directory) (s : State) : (mapDir f s).motS = s.motS := rfl
@[simp] theorem mapDir_motP (f : Directory → Directory) (s : State) : (mapDir f s).motP = s.motP := rfl
@[simp] theorem mapDir_scanJob (f : Directory → Directory) (s : State) : (mapDir f s).scanJob = s.scanJob := rfl
@[simp] theorem mapDir_intJob (f : Directory → Directory) (s : State) : (mapDir f s).intJob = s.intJob := rfl
@[simp] theorem mapDir_prtJob (f : Directory → Directory) (s : State) : (mapDir f s).prtJob = s.prtJob := rfl
@[simp] theorem mapDir_outJob (f : Directory → Directory) (s : State) : (mapDir f s).outJob = s.outJob := rfl
@[simp] theorem mapDir_temp (f : Directory → Directory) (s : State) : (mapDir f s).temp = s.temp := rfl
@[simp] theorem mapDir_power (f : Directory → Directory) (s : State) : (mapDir f s).power = s.power := rfl
@[simp] theorem mapDir_boot (f : Directory → Directory) (s : State) : (mapDir f s).boot = s.boot := rfl
@[simp] theorem mapDir_spill (f : Directory → Directory) (s : State) : (mapDir f s).spill = s.spill := rfl
@[simp] theorem mapDir_diagQ (f : Directory → Directory) (s : State) : (mapDir f s).diagQ = s.diagQ := rfl
@[simp] theorem mapDir_events (f : Directory → Directory) (s : State) : (mapDir f s).events = s.events := rfl
@[simp] theorem mapDir_pending (f : Directory → Directory) (s : State) : (mapDir f s).pending = s.pending := rfl

/-! ### mapFront -/

@[simp] theorem mapFront_lines (f : ScanFront → ScanFront) (s : State) : (mapFront f s).lines = s.lines := rfl
@[simp] theorem mapFront_port (f : ScanFront → ScanFront) (s : State) : (mapFront f s).port = s.port := rfl
@[simp] theorem mapFront_tables (f : ScanFront → ScanFront) (s : State) : (mapFront f s).tables = s.tables := rfl
@[simp] theorem mapFront_front (f : ScanFront → ScanFront) (s : State) : (mapFront f s).front = f s.front := rfl
@[simp] theorem mapFront_rings (f : ScanFront → ScanFront) (s : State) : (mapFront f s).rings = s.rings := rfl
@[simp] theorem mapFront_scanCd (f : ScanFront → ScanFront) (s : State) : (mapFront f s).scanCd = s.scanCd := rfl
@[simp] theorem mapFront_intakeCd (f : ScanFront → ScanFront) (s : State) : (mapFront f s).intakeCd = s.intakeCd := rfl
@[simp] theorem mapFront_printDec (f : ScanFront → ScanFront) (s : State) : (mapFront f s).printDec = s.printDec := rfl
@[simp] theorem mapFront_outDec (f : ScanFront → ScanFront) (s : State) : (mapFront f s).outDec = s.outDec := rfl
@[simp] theorem mapFront_dram (f : ScanFront → ScanFront) (s : State) : (mapFront f s).dram = s.dram := rfl
@[simp] theorem mapFront_pmc (f : ScanFront → ScanFront) (s : State) : (mapFront f s).pmc = s.pmc := rfl
@[simp] theorem mapFront_dir (f : ScanFront → ScanFront) (s : State) : (mapFront f s).dir = s.dir := rfl
@[simp] theorem mapFront_motS (f : ScanFront → ScanFront) (s : State) : (mapFront f s).motS = s.motS := rfl
@[simp] theorem mapFront_motP (f : ScanFront → ScanFront) (s : State) : (mapFront f s).motP = s.motP := rfl
@[simp] theorem mapFront_scanJob (f : ScanFront → ScanFront) (s : State) : (mapFront f s).scanJob = s.scanJob := rfl
@[simp] theorem mapFront_intJob (f : ScanFront → ScanFront) (s : State) : (mapFront f s).intJob = s.intJob := rfl
@[simp] theorem mapFront_prtJob (f : ScanFront → ScanFront) (s : State) : (mapFront f s).prtJob = s.prtJob := rfl
@[simp] theorem mapFront_outJob (f : ScanFront → ScanFront) (s : State) : (mapFront f s).outJob = s.outJob := rfl
@[simp] theorem mapFront_temp (f : ScanFront → ScanFront) (s : State) : (mapFront f s).temp = s.temp := rfl
@[simp] theorem mapFront_power (f : ScanFront → ScanFront) (s : State) : (mapFront f s).power = s.power := rfl
@[simp] theorem mapFront_boot (f : ScanFront → ScanFront) (s : State) : (mapFront f s).boot = s.boot := rfl
@[simp] theorem mapFront_spill (f : ScanFront → ScanFront) (s : State) : (mapFront f s).spill = s.spill := rfl
@[simp] theorem mapFront_diagQ (f : ScanFront → ScanFront) (s : State) : (mapFront f s).diagQ = s.diagQ := rfl
@[simp] theorem mapFront_events (f : ScanFront → ScanFront) (s : State) : (mapFront f s).events = s.events := rfl
@[simp] theorem mapFront_pending (f : ScanFront → ScanFront) (s : State) : (mapFront f s).pending = s.pending := rfl

/-! ### mapTemp -/

@[simp] theorem mapTemp_lines (f : Temperature → Temperature) (s : State) : (mapTemp f s).lines = s.lines := rfl
@[simp] theorem mapTemp_port (f : Temperature → Temperature) (s : State) : (mapTemp f s).port = s.port := rfl
@[simp] theorem mapTemp_tables (f : Temperature → Temperature) (s : State) : (mapTemp f s).tables = s.tables := rfl
@[simp] theorem mapTemp_front (f : Temperature → Temperature) (s : State) : (mapTemp f s).front = s.front := rfl
@[simp] theorem mapTemp_rings (f : Temperature → Temperature) (s : State) : (mapTemp f s).rings = s.rings := rfl
@[simp] theorem mapTemp_scanCd (f : Temperature → Temperature) (s : State) : (mapTemp f s).scanCd = s.scanCd := rfl
@[simp] theorem mapTemp_intakeCd (f : Temperature → Temperature) (s : State) : (mapTemp f s).intakeCd = s.intakeCd := rfl
@[simp] theorem mapTemp_printDec (f : Temperature → Temperature) (s : State) : (mapTemp f s).printDec = s.printDec := rfl
@[simp] theorem mapTemp_outDec (f : Temperature → Temperature) (s : State) : (mapTemp f s).outDec = s.outDec := rfl
@[simp] theorem mapTemp_dram (f : Temperature → Temperature) (s : State) : (mapTemp f s).dram = s.dram := rfl
@[simp] theorem mapTemp_pmc (f : Temperature → Temperature) (s : State) : (mapTemp f s).pmc = s.pmc := rfl
@[simp] theorem mapTemp_dir (f : Temperature → Temperature) (s : State) : (mapTemp f s).dir = s.dir := rfl
@[simp] theorem mapTemp_motS (f : Temperature → Temperature) (s : State) : (mapTemp f s).motS = s.motS := rfl
@[simp] theorem mapTemp_motP (f : Temperature → Temperature) (s : State) : (mapTemp f s).motP = s.motP := rfl
@[simp] theorem mapTemp_scanJob (f : Temperature → Temperature) (s : State) : (mapTemp f s).scanJob = s.scanJob := rfl
@[simp] theorem mapTemp_intJob (f : Temperature → Temperature) (s : State) : (mapTemp f s).intJob = s.intJob := rfl
@[simp] theorem mapTemp_prtJob (f : Temperature → Temperature) (s : State) : (mapTemp f s).prtJob = s.prtJob := rfl
@[simp] theorem mapTemp_outJob (f : Temperature → Temperature) (s : State) : (mapTemp f s).outJob = s.outJob := rfl
@[simp] theorem mapTemp_temp (f : Temperature → Temperature) (s : State) : (mapTemp f s).temp = f s.temp := rfl
@[simp] theorem mapTemp_power (f : Temperature → Temperature) (s : State) : (mapTemp f s).power = s.power := rfl
@[simp] theorem mapTemp_boot (f : Temperature → Temperature) (s : State) : (mapTemp f s).boot = s.boot := rfl
@[simp] theorem mapTemp_spill (f : Temperature → Temperature) (s : State) : (mapTemp f s).spill = s.spill := rfl
@[simp] theorem mapTemp_diagQ (f : Temperature → Temperature) (s : State) : (mapTemp f s).diagQ = s.diagQ := rfl
@[simp] theorem mapTemp_events (f : Temperature → Temperature) (s : State) : (mapTemp f s).events = s.events := rfl
@[simp] theorem mapTemp_pending (f : Temperature → Temperature) (s : State) : (mapTemp f s).pending = s.pending := rfl

/-! ### mapScanJob -/

@[simp] theorem mapScanJob_lines (f : ScanJob → ScanJob) (s : State) : (mapScanJob f s).lines = s.lines := rfl
@[simp] theorem mapScanJob_port (f : ScanJob → ScanJob) (s : State) : (mapScanJob f s).port = s.port := rfl
@[simp] theorem mapScanJob_tables (f : ScanJob → ScanJob) (s : State) : (mapScanJob f s).tables = s.tables := rfl
@[simp] theorem mapScanJob_front (f : ScanJob → ScanJob) (s : State) : (mapScanJob f s).front = s.front := rfl
@[simp] theorem mapScanJob_rings (f : ScanJob → ScanJob) (s : State) : (mapScanJob f s).rings = s.rings := rfl
@[simp] theorem mapScanJob_scanCd (f : ScanJob → ScanJob) (s : State) : (mapScanJob f s).scanCd = s.scanCd := rfl
@[simp] theorem mapScanJob_intakeCd (f : ScanJob → ScanJob) (s : State) : (mapScanJob f s).intakeCd = s.intakeCd := rfl
@[simp] theorem mapScanJob_printDec (f : ScanJob → ScanJob) (s : State) : (mapScanJob f s).printDec = s.printDec := rfl
@[simp] theorem mapScanJob_outDec (f : ScanJob → ScanJob) (s : State) : (mapScanJob f s).outDec = s.outDec := rfl
@[simp] theorem mapScanJob_dram (f : ScanJob → ScanJob) (s : State) : (mapScanJob f s).dram = s.dram := rfl
@[simp] theorem mapScanJob_pmc (f : ScanJob → ScanJob) (s : State) : (mapScanJob f s).pmc = s.pmc := rfl
@[simp] theorem mapScanJob_dir (f : ScanJob → ScanJob) (s : State) : (mapScanJob f s).dir = s.dir := rfl
@[simp] theorem mapScanJob_motS (f : ScanJob → ScanJob) (s : State) : (mapScanJob f s).motS = s.motS := rfl
@[simp] theorem mapScanJob_motP (f : ScanJob → ScanJob) (s : State) : (mapScanJob f s).motP = s.motP := rfl
@[simp] theorem mapScanJob_scanJob (f : ScanJob → ScanJob) (s : State) : (mapScanJob f s).scanJob = s.scanJob.map f := rfl
@[simp] theorem mapScanJob_intJob (f : ScanJob → ScanJob) (s : State) : (mapScanJob f s).intJob = s.intJob := rfl
@[simp] theorem mapScanJob_prtJob (f : ScanJob → ScanJob) (s : State) : (mapScanJob f s).prtJob = s.prtJob := rfl
@[simp] theorem mapScanJob_outJob (f : ScanJob → ScanJob) (s : State) : (mapScanJob f s).outJob = s.outJob := rfl
@[simp] theorem mapScanJob_temp (f : ScanJob → ScanJob) (s : State) : (mapScanJob f s).temp = s.temp := rfl
@[simp] theorem mapScanJob_power (f : ScanJob → ScanJob) (s : State) : (mapScanJob f s).power = s.power := rfl
@[simp] theorem mapScanJob_boot (f : ScanJob → ScanJob) (s : State) : (mapScanJob f s).boot = s.boot := rfl
@[simp] theorem mapScanJob_spill (f : ScanJob → ScanJob) (s : State) : (mapScanJob f s).spill = s.spill := rfl
@[simp] theorem mapScanJob_diagQ (f : ScanJob → ScanJob) (s : State) : (mapScanJob f s).diagQ = s.diagQ := rfl
@[simp] theorem mapScanJob_events (f : ScanJob → ScanJob) (s : State) : (mapScanJob f s).events = s.events := rfl
@[simp] theorem mapScanJob_pending (f : ScanJob → ScanJob) (s : State) : (mapScanJob f s).pending = s.pending := rfl

/-! ### mapIntJob -/

@[simp] theorem mapIntJob_lines (f : IntakeJob → IntakeJob) (s : State) : (mapIntJob f s).lines = s.lines := rfl
@[simp] theorem mapIntJob_port (f : IntakeJob → IntakeJob) (s : State) : (mapIntJob f s).port = s.port := rfl
@[simp] theorem mapIntJob_tables (f : IntakeJob → IntakeJob) (s : State) : (mapIntJob f s).tables = s.tables := rfl
@[simp] theorem mapIntJob_front (f : IntakeJob → IntakeJob) (s : State) : (mapIntJob f s).front = s.front := rfl
@[simp] theorem mapIntJob_rings (f : IntakeJob → IntakeJob) (s : State) : (mapIntJob f s).rings = s.rings := rfl
@[simp] theorem mapIntJob_scanCd (f : IntakeJob → IntakeJob) (s : State) : (mapIntJob f s).scanCd = s.scanCd := rfl
@[simp] theorem mapIntJob_intakeCd (f : IntakeJob → IntakeJob) (s : State) : (mapIntJob f s).intakeCd = s.intakeCd := rfl
@[simp] theorem mapIntJob_printDec (f : IntakeJob → IntakeJob) (s : State) : (mapIntJob f s).printDec = s.printDec := rfl
@[simp] theorem mapIntJob_outDec (f : IntakeJob → IntakeJob) (s : State) : (mapIntJob f s).outDec = s.outDec := rfl
@[simp] theorem mapIntJob_dram (f : IntakeJob → IntakeJob) (s : State) : (mapIntJob f s).dram = s.dram := rfl
@[simp] theorem mapIntJob_pmc (f : IntakeJob → IntakeJob) (s : State) : (mapIntJob f s).pmc = s.pmc := rfl
@[simp] theorem mapIntJob_dir (f : IntakeJob → IntakeJob) (s : State) : (mapIntJob f s).dir = s.dir := rfl
@[simp] theorem mapIntJob_motS (f : IntakeJob → IntakeJob) (s : State) : (mapIntJob f s).motS = s.motS := rfl
@[simp] theorem mapIntJob_motP (f : IntakeJob → IntakeJob) (s : State) : (mapIntJob f s).motP = s.motP := rfl
@[simp] theorem mapIntJob_scanJob (f : IntakeJob → IntakeJob) (s : State) : (mapIntJob f s).scanJob = s.scanJob := rfl
@[simp] theorem mapIntJob_intJob (f : IntakeJob → IntakeJob) (s : State) : (mapIntJob f s).intJob = s.intJob.map f := rfl
@[simp] theorem mapIntJob_prtJob (f : IntakeJob → IntakeJob) (s : State) : (mapIntJob f s).prtJob = s.prtJob := rfl
@[simp] theorem mapIntJob_outJob (f : IntakeJob → IntakeJob) (s : State) : (mapIntJob f s).outJob = s.outJob := rfl
@[simp] theorem mapIntJob_temp (f : IntakeJob → IntakeJob) (s : State) : (mapIntJob f s).temp = s.temp := rfl
@[simp] theorem mapIntJob_power (f : IntakeJob → IntakeJob) (s : State) : (mapIntJob f s).power = s.power := rfl
@[simp] theorem mapIntJob_boot (f : IntakeJob → IntakeJob) (s : State) : (mapIntJob f s).boot = s.boot := rfl
@[simp] theorem mapIntJob_spill (f : IntakeJob → IntakeJob) (s : State) : (mapIntJob f s).spill = s.spill := rfl
@[simp] theorem mapIntJob_diagQ (f : IntakeJob → IntakeJob) (s : State) : (mapIntJob f s).diagQ = s.diagQ := rfl
@[simp] theorem mapIntJob_events (f : IntakeJob → IntakeJob) (s : State) : (mapIntJob f s).events = s.events := rfl
@[simp] theorem mapIntJob_pending (f : IntakeJob → IntakeJob) (s : State) : (mapIntJob f s).pending = s.pending := rfl

/-! ### mapPrtJob -/

@[simp] theorem mapPrtJob_lines (f : PrintJob → PrintJob) (s : State) : (mapPrtJob f s).lines = s.lines := rfl
@[simp] theorem mapPrtJob_port (f : PrintJob → PrintJob) (s : State) : (mapPrtJob f s).port = s.port := rfl
@[simp] theorem mapPrtJob_tables (f : PrintJob → PrintJob) (s : State) : (mapPrtJob f s).tables = s.tables := rfl
@[simp] theorem mapPrtJob_front (f : PrintJob → PrintJob) (s : State) : (mapPrtJob f s).front = s.front := rfl
@[simp] theorem mapPrtJob_rings (f : PrintJob → PrintJob) (s : State) : (mapPrtJob f s).rings = s.rings := rfl
@[simp] theorem mapPrtJob_scanCd (f : PrintJob → PrintJob) (s : State) : (mapPrtJob f s).scanCd = s.scanCd := rfl
@[simp] theorem mapPrtJob_intakeCd (f : PrintJob → PrintJob) (s : State) : (mapPrtJob f s).intakeCd = s.intakeCd := rfl
@[simp] theorem mapPrtJob_printDec (f : PrintJob → PrintJob) (s : State) : (mapPrtJob f s).printDec = s.printDec := rfl
@[simp] theorem mapPrtJob_outDec (f : PrintJob → PrintJob) (s : State) : (mapPrtJob f s).outDec = s.outDec := rfl
@[simp] theorem mapPrtJob_dram (f : PrintJob → PrintJob) (s : State) : (mapPrtJob f s).dram = s.dram := rfl
@[simp] theorem mapPrtJob_pmc (f : PrintJob → PrintJob) (s : State) : (mapPrtJob f s).pmc = s.pmc := rfl
@[simp] theorem mapPrtJob_dir (f : PrintJob → PrintJob) (s : State) : (mapPrtJob f s).dir = s.dir := rfl
@[simp] theorem mapPrtJob_motS (f : PrintJob → PrintJob) (s : State) : (mapPrtJob f s).motS = s.motS := rfl
@[simp] theorem mapPrtJob_motP (f : PrintJob → PrintJob) (s : State) : (mapPrtJob f s).motP = s.motP := rfl
@[simp] theorem mapPrtJob_scanJob (f : PrintJob → PrintJob) (s : State) : (mapPrtJob f s).scanJob = s.scanJob := rfl
@[simp] theorem mapPrtJob_intJob (f : PrintJob → PrintJob) (s : State) : (mapPrtJob f s).intJob = s.intJob := rfl
@[simp] theorem mapPrtJob_prtJob (f : PrintJob → PrintJob) (s : State) : (mapPrtJob f s).prtJob = s.prtJob.map f := rfl
@[simp] theorem mapPrtJob_outJob (f : PrintJob → PrintJob) (s : State) : (mapPrtJob f s).outJob = s.outJob := rfl
@[simp] theorem mapPrtJob_temp (f : PrintJob → PrintJob) (s : State) : (mapPrtJob f s).temp = s.temp := rfl
@[simp] theorem mapPrtJob_power (f : PrintJob → PrintJob) (s : State) : (mapPrtJob f s).power = s.power := rfl
@[simp] theorem mapPrtJob_boot (f : PrintJob → PrintJob) (s : State) : (mapPrtJob f s).boot = s.boot := rfl
@[simp] theorem mapPrtJob_spill (f : PrintJob → PrintJob) (s : State) : (mapPrtJob f s).spill = s.spill := rfl
@[simp] theorem mapPrtJob_diagQ (f : PrintJob → PrintJob) (s : State) : (mapPrtJob f s).diagQ = s.diagQ := rfl
@[simp] theorem mapPrtJob_events (f : PrintJob → PrintJob) (s : State) : (mapPrtJob f s).events = s.events := rfl
@[simp] theorem mapPrtJob_pending (f : PrintJob → PrintJob) (s : State) : (mapPrtJob f s).pending = s.pending := rfl

/-! ### raise -/

@[simp] theorem raise_lines (f : Fin 20) (p c r : Nat) (s : State) : (raise f p c r s).lines = s.lines := rfl
@[simp] theorem raise_port (f : Fin 20) (p c r : Nat) (s : State) : (raise f p c r s).port = s.port := rfl
@[simp] theorem raise_tables (f : Fin 20) (p c r : Nat) (s : State) : (raise f p c r s).tables = s.tables := rfl
@[simp] theorem raise_front (f : Fin 20) (p c r : Nat) (s : State) : (raise f p c r s).front = s.front := rfl
@[simp] theorem raise_rings (f : Fin 20) (p c r : Nat) (s : State) : (raise f p c r s).rings = s.rings := rfl
@[simp] theorem raise_scanCd (f : Fin 20) (p c r : Nat) (s : State) : (raise f p c r s).scanCd = s.scanCd := rfl
@[simp] theorem raise_intakeCd (f : Fin 20) (p c r : Nat) (s : State) : (raise f p c r s).intakeCd = s.intakeCd := rfl
@[simp] theorem raise_printDec (f : Fin 20) (p c r : Nat) (s : State) : (raise f p c r s).printDec = s.printDec := rfl
@[simp] theorem raise_outDec (f : Fin 20) (p c r : Nat) (s : State) : (raise f p c r s).outDec = s.outDec := rfl
@[simp] theorem raise_dram (f : Fin 20) (p c r : Nat) (s : State) : (raise f p c r s).dram = s.dram := rfl
@[simp] theorem raise_pmc (f : Fin 20) (p c r : Nat) (s : State) : (raise f p c r s).pmc = s.pmc := rfl
@[simp] theorem raise_dir (f : Fin 20) (p c r : Nat) (s : State) : (raise f p c r s).dir = s.dir := rfl
@[simp] theorem raise_motS (f : Fin 20) (p c r : Nat) (s : State) : (raise f p c r s).motS = s.motS := rfl
@[simp] theorem raise_motP (f : Fin 20) (p c r : Nat) (s : State) : (raise f p c r s).motP = s.motP := rfl
@[simp] theorem raise_scanJob (f : Fin 20) (p c r : Nat) (s : State) : (raise f p c r s).scanJob = s.scanJob := rfl
@[simp] theorem raise_intJob (f : Fin 20) (p c r : Nat) (s : State) : (raise f p c r s).intJob = s.intJob := rfl
@[simp] theorem raise_prtJob (f : Fin 20) (p c r : Nat) (s : State) : (raise f p c r s).prtJob = s.prtJob := rfl
@[simp] theorem raise_outJob (f : Fin 20) (p c r : Nat) (s : State) : (raise f p c r s).outJob = s.outJob := rfl
@[simp] theorem raise_temp (f : Fin 20) (p c r : Nat) (s : State) : (raise f p c r s).temp = s.temp := rfl
@[simp] theorem raise_power (f : Fin 20) (p c r : Nat) (s : State) : (raise f p c r s).power = s.power := rfl
@[simp] theorem raise_boot (f : Fin 20) (p c r : Nat) (s : State) : (raise f p c r s).boot = s.boot := rfl
@[simp] theorem raise_spill (f : Fin 20) (p c r : Nat) (s : State) : (raise f p c r s).spill = s.spill := rfl
@[simp] theorem raise_diagQ (f : Fin 20) (p c r : Nat) (s : State) : (raise f p c r s).diagQ = s.diagQ := rfl
@[simp] theorem raise_events (f : Fin 20) (p c r : Nat) (s : State) : (raise f p c r s).events = s.events.raise f p c r := rfl
@[simp] theorem raise_pending (f : Fin 20) (p c r : Nat) (s : State) : (raise f p c r s).pending = s.pending := rfl

/-! ### sense -/

@[simp] theorem sense_port (lv : Levels) (s : State) : (sense lv s).port = s.port := rfl
@[simp] theorem sense_tables (lv : Levels) (s : State) : (sense lv s).tables = s.tables := rfl
@[simp] theorem sense_front (lv : Levels) (s : State) : (sense lv s).front = s.front := rfl
@[simp] theorem sense_rings (lv : Levels) (s : State) : (sense lv s).rings = s.rings := rfl
@[simp] theorem sense_scanCd (lv : Levels) (s : State) : (sense lv s).scanCd = s.scanCd := rfl
@[simp] theorem sense_intakeCd (lv : Levels) (s : State) : (sense lv s).intakeCd = s.intakeCd := rfl
@[simp] theorem sense_printDec (lv : Levels) (s : State) : (sense lv s).printDec = s.printDec := rfl
@[simp] theorem sense_outDec (lv : Levels) (s : State) : (sense lv s).outDec = s.outDec := rfl
@[simp] theorem sense_dram (lv : Levels) (s : State) : (sense lv s).dram = s.dram := rfl
@[simp] theorem sense_pmc (lv : Levels) (s : State) : (sense lv s).pmc = s.pmc := rfl
@[simp] theorem sense_dir (lv : Levels) (s : State) : (sense lv s).dir = s.dir := rfl
@[simp] theorem sense_motS (lv : Levels) (s : State) : (sense lv s).motS = s.motS := rfl
@[simp] theorem sense_motP (lv : Levels) (s : State) : (sense lv s).motP = s.motP := rfl
@[simp] theorem sense_scanJob (lv : Levels) (s : State) : (sense lv s).scanJob = s.scanJob := rfl
@[simp] theorem sense_intJob (lv : Levels) (s : State) : (sense lv s).intJob = s.intJob := rfl
@[simp] theorem sense_prtJob (lv : Levels) (s : State) : (sense lv s).prtJob = s.prtJob := rfl
@[simp] theorem sense_outJob (lv : Levels) (s : State) : (sense lv s).outJob = s.outJob := rfl
@[simp] theorem sense_temp (lv : Levels) (s : State) : (sense lv s).temp = s.temp := rfl
@[simp] theorem sense_power (lv : Levels) (s : State) : (sense lv s).power = s.power := rfl
@[simp] theorem sense_boot (lv : Levels) (s : State) : (sense lv s).boot = s.boot := rfl
@[simp] theorem sense_spill (lv : Levels) (s : State) : (sense lv s).spill = s.spill := rfl
@[simp] theorem sense_diagQ (lv : Levels) (s : State) : (sense lv s).diagQ = s.diagQ := rfl
@[simp] theorem sense_events (lv : Levels) (s : State) : (sense lv s).events = s.events := rfl
@[simp] theorem sense_pending (lv : Levels) (s : State) : (sense lv s).pending = s.pending := rfl

/-! ### pushReply -/

@[simp] theorem pushReply_lines (k sb : Byte) (b : ReplyBody) (s : State) : (pushReply k sb b s).lines = s.lines := rfl
@[simp] theorem pushReply_tables (k sb : Byte) (b : ReplyBody) (s : State) : (pushReply k sb b s).tables = s.tables := rfl
@[simp] theorem pushReply_front (k sb : Byte) (b : ReplyBody) (s : State) : (pushReply k sb b s).front = s.front := rfl
@[simp] theorem pushReply_rings (k sb : Byte) (b : ReplyBody) (s : State) : (pushReply k sb b s).rings = s.rings := rfl
@[simp] theorem pushReply_scanCd (k sb : Byte) (b : ReplyBody) (s : State) : (pushReply k sb b s).scanCd = s.scanCd := rfl
@[simp] theorem pushReply_intakeCd (k sb : Byte) (b : ReplyBody) (s : State) : (pushReply k sb b s).intakeCd = s.intakeCd := rfl
@[simp] theorem pushReply_printDec (k sb : Byte) (b : ReplyBody) (s : State) : (pushReply k sb b s).printDec = s.printDec := rfl
@[simp] theorem pushReply_outDec (k sb : Byte) (b : ReplyBody) (s : State) : (pushReply k sb b s).outDec = s.outDec := rfl
@[simp] theorem pushReply_dram (k sb : Byte) (b : ReplyBody) (s : State) : (pushReply k sb b s).dram = s.dram := rfl
@[simp] theorem pushReply_pmc (k sb : Byte) (b : ReplyBody) (s : State) : (pushReply k sb b s).pmc = s.pmc := rfl
@[simp] theorem pushReply_dir (k sb : Byte) (b : ReplyBody) (s : State) : (pushReply k sb b s).dir = s.dir := rfl
@[simp] theorem pushReply_motS (k sb : Byte) (b : ReplyBody) (s : State) : (pushReply k sb b s).motS = s.motS := rfl
@[simp] theorem pushReply_motP (k sb : Byte) (b : ReplyBody) (s : State) : (pushReply k sb b s).motP = s.motP := rfl
@[simp] theorem pushReply_scanJob (k sb : Byte) (b : ReplyBody) (s : State) : (pushReply k sb b s).scanJob = s.scanJob := rfl
@[simp] theorem pushReply_intJob (k sb : Byte) (b : ReplyBody) (s : State) : (pushReply k sb b s).intJob = s.intJob := rfl
@[simp] theorem pushReply_prtJob (k sb : Byte) (b : ReplyBody) (s : State) : (pushReply k sb b s).prtJob = s.prtJob := rfl
@[simp] theorem pushReply_outJob (k sb : Byte) (b : ReplyBody) (s : State) : (pushReply k sb b s).outJob = s.outJob := rfl
@[simp] theorem pushReply_temp (k sb : Byte) (b : ReplyBody) (s : State) : (pushReply k sb b s).temp = s.temp := rfl
@[simp] theorem pushReply_power (k sb : Byte) (b : ReplyBody) (s : State) : (pushReply k sb b s).power = s.power := rfl
@[simp] theorem pushReply_boot (k sb : Byte) (b : ReplyBody) (s : State) : (pushReply k sb b s).boot = s.boot := rfl
@[simp] theorem pushReply_spill (k sb : Byte) (b : ReplyBody) (s : State) : (pushReply k sb b s).spill = s.spill := rfl
@[simp] theorem pushReply_diagQ (k sb : Byte) (b : ReplyBody) (s : State) : (pushReply k sb b s).diagQ = s.diagQ := rfl
@[simp] theorem pushReply_events (k sb : Byte) (b : ReplyBody) (s : State) : (pushReply k sb b s).events = s.events := rfl
@[simp] theorem pushReply_pending (k sb : Byte) (b : ReplyBody) (s : State) : (pushReply k sb b s).pending = s.pending := rfl

/-! ### fillReply -/

@[simp] theorem fillReply_lines (w : ReplyBody) (st : Status) (a : List Byte) (s : State) : (fillReply w st a s).lines = s.lines := rfl
@[simp] theorem fillReply_tables (w : ReplyBody) (st : Status) (a : List Byte) (s : State) : (fillReply w st a s).tables = s.tables := rfl
@[simp] theorem fillReply_front (w : ReplyBody) (st : Status) (a : List Byte) (s : State) : (fillReply w st a s).front = s.front := rfl
@[simp] theorem fillReply_rings (w : ReplyBody) (st : Status) (a : List Byte) (s : State) : (fillReply w st a s).rings = s.rings := rfl
@[simp] theorem fillReply_scanCd (w : ReplyBody) (st : Status) (a : List Byte) (s : State) : (fillReply w st a s).scanCd = s.scanCd := rfl
@[simp] theorem fillReply_intakeCd (w : ReplyBody) (st : Status) (a : List Byte) (s : State) : (fillReply w st a s).intakeCd = s.intakeCd := rfl
@[simp] theorem fillReply_printDec (w : ReplyBody) (st : Status) (a : List Byte) (s : State) : (fillReply w st a s).printDec = s.printDec := rfl
@[simp] theorem fillReply_outDec (w : ReplyBody) (st : Status) (a : List Byte) (s : State) : (fillReply w st a s).outDec = s.outDec := rfl
@[simp] theorem fillReply_dram (w : ReplyBody) (st : Status) (a : List Byte) (s : State) : (fillReply w st a s).dram = s.dram := rfl
@[simp] theorem fillReply_pmc (w : ReplyBody) (st : Status) (a : List Byte) (s : State) : (fillReply w st a s).pmc = s.pmc := rfl
@[simp] theorem fillReply_dir (w : ReplyBody) (st : Status) (a : List Byte) (s : State) : (fillReply w st a s).dir = s.dir := rfl
@[simp] theorem fillReply_motS (w : ReplyBody) (st : Status) (a : List Byte) (s : State) : (fillReply w st a s).motS = s.motS := rfl
@[simp] theorem fillReply_motP (w : ReplyBody) (st : Status) (a : List Byte) (s : State) : (fillReply w st a s).motP = s.motP := rfl
@[simp] theorem fillReply_scanJob (w : ReplyBody) (st : Status) (a : List Byte) (s : State) : (fillReply w st a s).scanJob = s.scanJob := rfl
@[simp] theorem fillReply_intJob (w : ReplyBody) (st : Status) (a : List Byte) (s : State) : (fillReply w st a s).intJob = s.intJob := rfl
@[simp] theorem fillReply_prtJob (w : ReplyBody) (st : Status) (a : List Byte) (s : State) : (fillReply w st a s).prtJob = s.prtJob := rfl
@[simp] theorem fillReply_outJob (w : ReplyBody) (st : Status) (a : List Byte) (s : State) : (fillReply w st a s).outJob = s.outJob := rfl
@[simp] theorem fillReply_temp (w : ReplyBody) (st : Status) (a : List Byte) (s : State) : (fillReply w st a s).temp = s.temp := rfl
@[simp] theorem fillReply_power (w : ReplyBody) (st : Status) (a : List Byte) (s : State) : (fillReply w st a s).power = s.power := rfl
@[simp] theorem fillReply_boot (w : ReplyBody) (st : Status) (a : List Byte) (s : State) : (fillReply w st a s).boot = s.boot := rfl
@[simp] theorem fillReply_spill (w : ReplyBody) (st : Status) (a : List Byte) (s : State) : (fillReply w st a s).spill = s.spill := rfl
@[simp] theorem fillReply_diagQ (w : ReplyBody) (st : Status) (a : List Byte) (s : State) : (fillReply w st a s).diagQ = s.diagQ := rfl
@[simp] theorem fillReply_events (w : ReplyBody) (st : Status) (a : List Byte) (s : State) : (fillReply w st a s).events = s.events := rfl
@[simp] theorem fillReply_pending (w : ReplyBody) (st : Status) (a : List Byte) (s : State) : (fillReply w st a s).pending = s.pending := rfl

/-! ### fillReplies -/

@[simp] theorem fillReplies_lines (w : ReplyBody) (st : Status) (a : List Byte) (s : State) : (fillReplies w st a s).lines = s.lines := rfl
@[simp] theorem fillReplies_tables (w : ReplyBody) (st : Status) (a : List Byte) (s : State) : (fillReplies w st a s).tables = s.tables := rfl
@[simp] theorem fillReplies_front (w : ReplyBody) (st : Status) (a : List Byte) (s : State) : (fillReplies w st a s).front = s.front := rfl
@[simp] theorem fillReplies_rings (w : ReplyBody) (st : Status) (a : List Byte) (s : State) : (fillReplies w st a s).rings = s.rings := rfl
@[simp] theorem fillReplies_scanCd (w : ReplyBody) (st : Status) (a : List Byte) (s : State) : (fillReplies w st a s).scanCd = s.scanCd := rfl
@[simp] theorem fillReplies_intakeCd (w : ReplyBody) (st : Status) (a : List Byte) (s : State) : (fillReplies w st a s).intakeCd = s.intakeCd := rfl
@[simp] theorem fillReplies_printDec (w : ReplyBody) (st : Status) (a : List Byte) (s : State) : (fillReplies w st a s).printDec = s.printDec := rfl
@[simp] theorem fillReplies_outDec (w : ReplyBody) (st : Status) (a : List Byte) (s : State) : (fillReplies w st a s).outDec = s.outDec := rfl
@[simp] theorem fillReplies_dram (w : ReplyBody) (st : Status) (a : List Byte) (s : State) : (fillReplies w st a s).dram = s.dram := rfl
@[simp] theorem fillReplies_pmc (w : ReplyBody) (st : Status) (a : List Byte) (s : State) : (fillReplies w st a s).pmc = s.pmc := rfl
@[simp] theorem fillReplies_dir (w : ReplyBody) (st : Status) (a : List Byte) (s : State) : (fillReplies w st a s).dir = s.dir := rfl
@[simp] theorem fillReplies_motS (w : ReplyBody) (st : Status) (a : List Byte) (s : State) : (fillReplies w st a s).motS = s.motS := rfl
@[simp] theorem fillReplies_motP (w : ReplyBody) (st : Status) (a : List Byte) (s : State) : (fillReplies w st a s).motP = s.motP := rfl
@[simp] theorem fillReplies_scanJob (w : ReplyBody) (st : Status) (a : List Byte) (s : State) : (fillReplies w st a s).scanJob = s.scanJob := rfl
@[simp] theorem fillReplies_intJob (w : ReplyBody) (st : Status) (a : List Byte) (s : State) : (fillReplies w st a s).intJob = s.intJob := rfl
@[simp] theorem fillReplies_prtJob (w : ReplyBody) (st : Status) (a : List Byte) (s : State) : (fillReplies w st a s).prtJob = s.prtJob := rfl
@[simp] theorem fillReplies_outJob (w : ReplyBody) (st : Status) (a : List Byte) (s : State) : (fillReplies w st a s).outJob = s.outJob := rfl
@[simp] theorem fillReplies_temp (w : ReplyBody) (st : Status) (a : List Byte) (s : State) : (fillReplies w st a s).temp = s.temp := rfl
@[simp] theorem fillReplies_power (w : ReplyBody) (st : Status) (a : List Byte) (s : State) : (fillReplies w st a s).power = s.power := rfl
@[simp] theorem fillReplies_boot (w : ReplyBody) (st : Status) (a : List Byte) (s : State) : (fillReplies w st a s).boot = s.boot := rfl
@[simp] theorem fillReplies_spill (w : ReplyBody) (st : Status) (a : List Byte) (s : State) : (fillReplies w st a s).spill = s.spill := rfl
@[simp] theorem fillReplies_diagQ (w : ReplyBody) (st : Status) (a : List Byte) (s : State) : (fillReplies w st a s).diagQ = s.diagQ := rfl
@[simp] theorem fillReplies_events (w : ReplyBody) (st : Status) (a : List Byte) (s : State) : (fillReplies w st a s).events = s.events := rfl
@[simp] theorem fillReplies_pending (w : ReplyBody) (st : Status) (a : List Byte) (s : State) : (fillReplies w st a s).pending = s.pending := rfl

/-! ### setIdle -/

@[simp] theorem setIdle_lines (t : Option Nat) (s : State) : (setIdle t s).lines = s.lines := rfl
@[simp] theorem setIdle_port (t : Option Nat) (s : State) : (setIdle t s).port = s.port := rfl
@[simp] theorem setIdle_tables (t : Option Nat) (s : State) : (setIdle t s).tables = s.tables := rfl
@[simp] theorem setIdle_front (t : Option Nat) (s : State) : (setIdle t s).front = s.front := rfl
@[simp] theorem setIdle_rings (t : Option Nat) (s : State) : (setIdle t s).rings = s.rings := rfl
@[simp] theorem setIdle_scanCd (t : Option Nat) (s : State) : (setIdle t s).scanCd = s.scanCd := rfl
@[simp] theorem setIdle_intakeCd (t : Option Nat) (s : State) : (setIdle t s).intakeCd = s.intakeCd := rfl
@[simp] theorem setIdle_printDec (t : Option Nat) (s : State) : (setIdle t s).printDec = s.printDec := rfl
@[simp] theorem setIdle_outDec (t : Option Nat) (s : State) : (setIdle t s).outDec = s.outDec := rfl
@[simp] theorem setIdle_dram (t : Option Nat) (s : State) : (setIdle t s).dram = s.dram := rfl
@[simp] theorem setIdle_pmc (t : Option Nat) (s : State) : (setIdle t s).pmc = s.pmc := rfl
@[simp] theorem setIdle_dir (t : Option Nat) (s : State) : (setIdle t s).dir = s.dir := rfl
@[simp] theorem setIdle_motS (t : Option Nat) (s : State) : (setIdle t s).motS = s.motS := rfl
@[simp] theorem setIdle_motP (t : Option Nat) (s : State) : (setIdle t s).motP = s.motP := rfl
@[simp] theorem setIdle_scanJob (t : Option Nat) (s : State) : (setIdle t s).scanJob = s.scanJob := rfl
@[simp] theorem setIdle_intJob (t : Option Nat) (s : State) : (setIdle t s).intJob = s.intJob := rfl
@[simp] theorem setIdle_prtJob (t : Option Nat) (s : State) : (setIdle t s).prtJob = s.prtJob := rfl
@[simp] theorem setIdle_outJob (t : Option Nat) (s : State) : (setIdle t s).outJob = s.outJob := rfl
@[simp] theorem setIdle_temp (t : Option Nat) (s : State) : (setIdle t s).temp = s.temp := rfl
@[simp] theorem setIdle_boot (t : Option Nat) (s : State) : (setIdle t s).boot = s.boot := rfl
@[simp] theorem setIdle_spill (t : Option Nat) (s : State) : (setIdle t s).spill = s.spill := rfl
@[simp] theorem setIdle_diagQ (t : Option Nat) (s : State) : (setIdle t s).diagQ = s.diagQ := rfl
@[simp] theorem setIdle_events (t : Option Nat) (s : State) : (setIdle t s).events = s.events := rfl
@[simp] theorem setIdle_pending (t : Option Nat) (s : State) : (setIdle t s).pending = s.pending := rfl

/-! ### setInbound -/

@[simp] theorem setInbound_lines (i : Inbound) (s : State) : (setInbound i s).lines = s.lines := rfl
@[simp] theorem setInbound_tables (i : Inbound) (s : State) : (setInbound i s).tables = s.tables := rfl
@[simp] theorem setInbound_front (i : Inbound) (s : State) : (setInbound i s).front = s.front := rfl
@[simp] theorem setInbound_rings (i : Inbound) (s : State) : (setInbound i s).rings = s.rings := rfl
@[simp] theorem setInbound_scanCd (i : Inbound) (s : State) : (setInbound i s).scanCd = s.scanCd := rfl
@[simp] theorem setInbound_intakeCd (i : Inbound) (s : State) : (setInbound i s).intakeCd = s.intakeCd := rfl
@[simp] theorem setInbound_printDec (i : Inbound) (s : State) : (setInbound i s).printDec = s.printDec := rfl
@[simp] theorem setInbound_outDec (i : Inbound) (s : State) : (setInbound i s).outDec = s.outDec := rfl
@[simp] theorem setInbound_dram (i : Inbound) (s : State) : (setInbound i s).dram = s.dram := rfl
@[simp] theorem setInbound_pmc (i : Inbound) (s : State) : (setInbound i s).pmc = s.pmc := rfl
@[simp] theorem setInbound_dir (i : Inbound) (s : State) : (setInbound i s).dir = s.dir := rfl
@[simp] theorem setInbound_motS (i : Inbound) (s : State) : (setInbound i s).motS = s.motS := rfl
@[simp] theorem setInbound_motP (i : Inbound) (s : State) : (setInbound i s).motP = s.motP := rfl
@[simp] theorem setInbound_scanJob (i : Inbound) (s : State) : (setInbound i s).scanJob = s.scanJob := rfl
@[simp] theorem setInbound_intJob (i : Inbound) (s : State) : (setInbound i s).intJob = s.intJob := rfl
@[simp] theorem setInbound_prtJob (i : Inbound) (s : State) : (setInbound i s).prtJob = s.prtJob := rfl
@[simp] theorem setInbound_outJob (i : Inbound) (s : State) : (setInbound i s).outJob = s.outJob := rfl
@[simp] theorem setInbound_temp (i : Inbound) (s : State) : (setInbound i s).temp = s.temp := rfl
@[simp] theorem setInbound_power (i : Inbound) (s : State) : (setInbound i s).power = s.power := rfl
@[simp] theorem setInbound_boot (i : Inbound) (s : State) : (setInbound i s).boot = s.boot := rfl
@[simp] theorem setInbound_spill (i : Inbound) (s : State) : (setInbound i s).spill = s.spill := rfl
@[simp] theorem setInbound_diagQ (i : Inbound) (s : State) : (setInbound i s).diagQ = s.diagQ := rfl
@[simp] theorem setInbound_events (i : Inbound) (s : State) : (setInbound i s).events = s.events := rfl
@[simp] theorem setInbound_pending (i : Inbound) (s : State) : (setInbound i s).pending = s.pending := rfl

/-! ### mapEntry -/

@[simp] theorem mapEntry_lines (id : Nat) (f : Entry → Entry) (s : State) : (mapEntry id f s).lines = s.lines := rfl
@[simp] theorem mapEntry_port (id : Nat) (f : Entry → Entry) (s : State) : (mapEntry id f s).port = s.port := rfl
@[simp] theorem mapEntry_tables (id : Nat) (f : Entry → Entry) (s : State) : (mapEntry id f s).tables = s.tables := rfl
@[simp] theorem mapEntry_front (id : Nat) (f : Entry → Entry) (s : State) : (mapEntry id f s).front = s.front := rfl
@[simp] theorem mapEntry_rings (id : Nat) (f : Entry → Entry) (s : State) : (mapEntry id f s).rings = s.rings := rfl
@[simp] theorem mapEntry_scanCd (id : Nat) (f : Entry → Entry) (s : State) : (mapEntry id f s).scanCd = s.scanCd := rfl
@[simp] theorem mapEntry_intakeCd (id : Nat) (f : Entry → Entry) (s : State) : (mapEntry id f s).intakeCd = s.intakeCd := rfl
@[simp] theorem mapEntry_printDec (id : Nat) (f : Entry → Entry) (s : State) : (mapEntry id f s).printDec = s.printDec := rfl
@[simp] theorem mapEntry_outDec (id : Nat) (f : Entry → Entry) (s : State) : (mapEntry id f s).outDec = s.outDec := rfl
@[simp] theorem mapEntry_dram (id : Nat) (f : Entry → Entry) (s : State) : (mapEntry id f s).dram = s.dram := rfl
@[simp] theorem mapEntry_pmc (id : Nat) (f : Entry → Entry) (s : State) : (mapEntry id f s).pmc = s.pmc := rfl
@[simp] theorem mapEntry_motS (id : Nat) (f : Entry → Entry) (s : State) : (mapEntry id f s).motS = s.motS := rfl
@[simp] theorem mapEntry_motP (id : Nat) (f : Entry → Entry) (s : State) : (mapEntry id f s).motP = s.motP := rfl
@[simp] theorem mapEntry_scanJob (id : Nat) (f : Entry → Entry) (s : State) : (mapEntry id f s).scanJob = s.scanJob := rfl
@[simp] theorem mapEntry_intJob (id : Nat) (f : Entry → Entry) (s : State) : (mapEntry id f s).intJob = s.intJob := rfl
@[simp] theorem mapEntry_prtJob (id : Nat) (f : Entry → Entry) (s : State) : (mapEntry id f s).prtJob = s.prtJob := rfl
@[simp] theorem mapEntry_outJob (id : Nat) (f : Entry → Entry) (s : State) : (mapEntry id f s).outJob = s.outJob := rfl
@[simp] theorem mapEntry_temp (id : Nat) (f : Entry → Entry) (s : State) : (mapEntry id f s).temp = s.temp := rfl
@[simp] theorem mapEntry_power (id : Nat) (f : Entry → Entry) (s : State) : (mapEntry id f s).power = s.power := rfl
@[simp] theorem mapEntry_boot (id : Nat) (f : Entry → Entry) (s : State) : (mapEntry id f s).boot = s.boot := rfl
@[simp] theorem mapEntry_spill (id : Nat) (f : Entry → Entry) (s : State) : (mapEntry id f s).spill = s.spill := rfl
@[simp] theorem mapEntry_diagQ (id : Nat) (f : Entry → Entry) (s : State) : (mapEntry id f s).diagQ = s.diagQ := rfl
@[simp] theorem mapEntry_events (id : Nat) (f : Entry → Entry) (s : State) : (mapEntry id f s).events = s.events := rfl
@[simp] theorem mapEntry_pending (id : Nat) (f : Entry → Entry) (s : State) : (mapEntry id f s).pending = s.pending := rfl

/-! ### writeHeader -/

@[simp] theorem writeHeader_lines (b n k : Nat) (s : State) : (writeHeader b n k s).lines = s.lines := rfl
@[simp] theorem writeHeader_port (b n k : Nat) (s : State) : (writeHeader b n k s).port = s.port := rfl
@[simp] theorem writeHeader_tables (b n k : Nat) (s : State) : (writeHeader b n k s).tables = s.tables := rfl
@[simp] theorem writeHeader_front (b n k : Nat) (s : State) : (writeHeader b n k s).front = s.front := rfl
@[simp] theorem writeHeader_rings (b n k : Nat) (s : State) : (writeHeader b n k s).rings = s.rings := rfl
@[simp] theorem writeHeader_scanCd (b n k : Nat) (s : State) : (writeHeader b n k s).scanCd = s.scanCd := rfl
@[simp] theorem writeHeader_intakeCd (b n k : Nat) (s : State) : (writeHeader b n k s).intakeCd = s.intakeCd := rfl
@[simp] theorem writeHeader_printDec (b n k : Nat) (s : State) : (writeHeader b n k s).printDec = s.printDec := rfl
@[simp] theorem writeHeader_outDec (b n k : Nat) (s : State) : (writeHeader b n k s).outDec = s.outDec := rfl
@[simp] theorem writeHeader_pmc (b n k : Nat) (s : State) : (writeHeader b n k s).pmc = s.pmc := rfl
@[simp] theorem writeHeader_dir (b n k : Nat) (s : State) : (writeHeader b n k s).dir = s.dir := rfl
@[simp] theorem writeHeader_motS (b n k : Nat) (s : State) : (writeHeader b n k s).motS = s.motS := rfl
@[simp] theorem writeHeader_motP (b n k : Nat) (s : State) : (writeHeader b n k s).motP = s.motP := rfl
@[simp] theorem writeHeader_scanJob (b n k : Nat) (s : State) : (writeHeader b n k s).scanJob = s.scanJob := rfl
@[simp] theorem writeHeader_intJob (b n k : Nat) (s : State) : (writeHeader b n k s).intJob = s.intJob := rfl
@[simp] theorem writeHeader_prtJob (b n k : Nat) (s : State) : (writeHeader b n k s).prtJob = s.prtJob := rfl
@[simp] theorem writeHeader_outJob (b n k : Nat) (s : State) : (writeHeader b n k s).outJob = s.outJob := rfl
@[simp] theorem writeHeader_temp (b n k : Nat) (s : State) : (writeHeader b n k s).temp = s.temp := rfl
@[simp] theorem writeHeader_power (b n k : Nat) (s : State) : (writeHeader b n k s).power = s.power := rfl
@[simp] theorem writeHeader_boot (b n k : Nat) (s : State) : (writeHeader b n k s).boot = s.boot := rfl
@[simp] theorem writeHeader_spill (b n k : Nat) (s : State) : (writeHeader b n k s).spill = s.spill := rfl
@[simp] theorem writeHeader_diagQ (b n k : Nat) (s : State) : (writeHeader b n k s).diagQ = s.diagQ := rfl
@[simp] theorem writeHeader_events (b n k : Nat) (s : State) : (writeHeader b n k s).events = s.events := rfl
@[simp] theorem writeHeader_pending (b n k : Nat) (s : State) : (writeHeader b n k s).pending = s.pending := rfl

/-! ### writeNext -/

@[simp] theorem writeNext_lines (b n : Nat) (s : State) : (writeNext b n s).lines = s.lines := rfl
@[simp] theorem writeNext_port (b n : Nat) (s : State) : (writeNext b n s).port = s.port := rfl
@[simp] theorem writeNext_tables (b n : Nat) (s : State) : (writeNext b n s).tables = s.tables := rfl
@[simp] theorem writeNext_front (b n : Nat) (s : State) : (writeNext b n s).front = s.front := rfl
@[simp] theorem writeNext_rings (b n : Nat) (s : State) : (writeNext b n s).rings = s.rings := rfl
@[simp] theorem writeNext_scanCd (b n : Nat) (s : State) : (writeNext b n s).scanCd = s.scanCd := rfl
@[simp] theorem writeNext_intakeCd (b n : Nat) (s : State) : (writeNext b n s).intakeCd = s.intakeCd := rfl
@[simp] theorem writeNext_printDec (b n : Nat) (s : State) : (writeNext b n s).printDec = s.printDec := rfl
@[simp] theorem writeNext_outDec (b n : Nat) (s : State) : (writeNext b n s).outDec = s.outDec := rfl
@[simp] theorem writeNext_pmc (b n : Nat) (s : State) : (writeNext b n s).pmc = s.pmc := rfl
@[simp] theorem writeNext_dir (b n : Nat) (s : State) : (writeNext b n s).dir = s.dir := rfl
@[simp] theorem writeNext_motS (b n : Nat) (s : State) : (writeNext b n s).motS = s.motS := rfl
@[simp] theorem writeNext_motP (b n : Nat) (s : State) : (writeNext b n s).motP = s.motP := rfl
@[simp] theorem writeNext_scanJob (b n : Nat) (s : State) : (writeNext b n s).scanJob = s.scanJob := rfl
@[simp] theorem writeNext_intJob (b n : Nat) (s : State) : (writeNext b n s).intJob = s.intJob := rfl
@[simp] theorem writeNext_prtJob (b n : Nat) (s : State) : (writeNext b n s).prtJob = s.prtJob := rfl
@[simp] theorem writeNext_outJob (b n : Nat) (s : State) : (writeNext b n s).outJob = s.outJob := rfl
@[simp] theorem writeNext_temp (b n : Nat) (s : State) : (writeNext b n s).temp = s.temp := rfl
@[simp] theorem writeNext_power (b n : Nat) (s : State) : (writeNext b n s).power = s.power := rfl
@[simp] theorem writeNext_boot (b n : Nat) (s : State) : (writeNext b n s).boot = s.boot := rfl
@[simp] theorem writeNext_spill (b n : Nat) (s : State) : (writeNext b n s).spill = s.spill := rfl
@[simp] theorem writeNext_diagQ (b n : Nat) (s : State) : (writeNext b n s).diagQ = s.diagQ := rfl
@[simp] theorem writeNext_events (b n : Nat) (s : State) : (writeNext b n s).events = s.events := rfl
@[simp] theorem writeNext_pending (b n : Nat) (s : State) : (writeNext b n s).pending = s.pending := rfl

/-! ### setPending -/

@[simp] theorem setPending_lines (id : Fin 14) (img : Option (List Byte)) (s : State) : (setPending id img s).lines = s.lines := rfl
@[simp] theorem setPending_port (id : Fin 14) (img : Option (List Byte)) (s : State) : (setPending id img s).port = s.port := rfl
@[simp] theorem setPending_front (id : Fin 14) (img : Option (List Byte)) (s : State) : (setPending id img s).front = s.front := rfl
@[simp] theorem setPending_rings (id : Fin 14) (img : Option (List Byte)) (s : State) : (setPending id img s).rings = s.rings := rfl
@[simp] theorem setPending_scanCd (id : Fin 14) (img : Option (List Byte)) (s : State) : (setPending id img s).scanCd = s.scanCd := rfl
@[simp] theorem setPending_intakeCd (id : Fin 14) (img : Option (List Byte)) (s : State) : (setPending id img s).intakeCd = s.intakeCd := rfl
@[simp] theorem setPending_printDec (id : Fin 14) (img : Option (List Byte)) (s : State) : (setPending id img s).printDec = s.printDec := rfl
@[simp] theorem setPending_outDec (id : Fin 14) (img : Option (List Byte)) (s : State) : (setPending id img s).outDec = s.outDec := rfl
@[simp] theorem setPending_dram (id : Fin 14) (img : Option (List Byte)) (s : State) : (setPending id img s).dram = s.dram := rfl
@[simp] theorem setPending_pmc (id : Fin 14) (img : Option (List Byte)) (s : State) : (setPending id img s).pmc = s.pmc := rfl
@[simp] theorem setPending_dir (id : Fin 14) (img : Option (List Byte)) (s : State) : (setPending id img s).dir = s.dir := rfl
@[simp] theorem setPending_motS (id : Fin 14) (img : Option (List Byte)) (s : State) : (setPending id img s).motS = s.motS := rfl
@[simp] theorem setPending_motP (id : Fin 14) (img : Option (List Byte)) (s : State) : (setPending id img s).motP = s.motP := rfl
@[simp] theorem setPending_scanJob (id : Fin 14) (img : Option (List Byte)) (s : State) : (setPending id img s).scanJob = s.scanJob := rfl
@[simp] theorem setPending_intJob (id : Fin 14) (img : Option (List Byte)) (s : State) : (setPending id img s).intJob = s.intJob := rfl
@[simp] theorem setPending_prtJob (id : Fin 14) (img : Option (List Byte)) (s : State) : (setPending id img s).prtJob = s.prtJob := rfl
@[simp] theorem setPending_outJob (id : Fin 14) (img : Option (List Byte)) (s : State) : (setPending id img s).outJob = s.outJob := rfl
@[simp] theorem setPending_temp (id : Fin 14) (img : Option (List Byte)) (s : State) : (setPending id img s).temp = s.temp := rfl
@[simp] theorem setPending_power (id : Fin 14) (img : Option (List Byte)) (s : State) : (setPending id img s).power = s.power := rfl
@[simp] theorem setPending_boot (id : Fin 14) (img : Option (List Byte)) (s : State) : (setPending id img s).boot = s.boot := rfl
@[simp] theorem setPending_spill (id : Fin 14) (img : Option (List Byte)) (s : State) : (setPending id img s).spill = s.spill := rfl
@[simp] theorem setPending_diagQ (id : Fin 14) (img : Option (List Byte)) (s : State) : (setPending id img s).diagQ = s.diagQ := rfl
@[simp] theorem setPending_events (id : Fin 14) (img : Option (List Byte)) (s : State) : (setPending id img s).events = s.events := rfl
@[simp] theorem setPending_pending (id : Fin 14) (img : Option (List Byte)) (s : State) : (setPending id img s).pending = s.pending := rfl

/-! ### setAssembly -/

@[simp] theorem setAssembly_lines (a : Option Assembly) (s : State) : (setAssembly a s).lines = s.lines := rfl
@[simp] theorem setAssembly_port (a : Option Assembly) (s : State) : (setAssembly a s).port = s.port := rfl
@[simp] theorem setAssembly_front (a : Option Assembly) (s : State) : (setAssembly a s).front = s.front := rfl
@[simp] theorem setAssembly_rings (a : Option Assembly) (s : State) : (setAssembly a s).rings = s.rings := rfl
@[simp] theorem setAssembly_scanCd (a : Option Assembly) (s : State) : (setAssembly a s).scanCd = s.scanCd := rfl
@[simp] theorem setAssembly_intakeCd (a : Option Assembly) (s : State) : (setAssembly a s).intakeCd = s.intakeCd := rfl
@[simp] theorem setAssembly_printDec (a : Option Assembly) (s : State) : (setAssembly a s).printDec = s.printDec := rfl
@[simp] theorem setAssembly_outDec (a : Option Assembly) (s : State) : (setAssembly a s).outDec = s.outDec := rfl
@[simp] theorem setAssembly_dram (a : Option Assembly) (s : State) : (setAssembly a s).dram = s.dram := rfl
@[simp] theorem setAssembly_pmc (a : Option Assembly) (s : State) : (setAssembly a s).pmc = s.pmc := rfl
@[simp] theorem setAssembly_dir (a : Option Assembly) (s : State) : (setAssembly a s).dir = s.dir := rfl
@[simp] theorem setAssembly_motS (a : Option Assembly) (s : State) : (setAssembly a s).motS = s.motS := rfl
@[simp] theorem setAssembly_motP (a : Option Assembly) (s : State) : (setAssembly a s).motP = s.motP := rfl
@[simp] theorem setAssembly_scanJob (a : Option Assembly) (s : State) : (setAssembly a s).scanJob = s.scanJob := rfl
@[simp] theorem setAssembly_intJob (a : Option Assembly) (s : State) : (setAssembly a s).intJob = s.intJob := rfl
@[simp] theorem setAssembly_prtJob (a : Option Assembly) (s : State) : (setAssembly a s).prtJob = s.prtJob := rfl
@[simp] theorem setAssembly_outJob (a : Option Assembly) (s : State) : (setAssembly a s).outJob = s.outJob := rfl
@[simp] theorem setAssembly_temp (a : Option Assembly) (s : State) : (setAssembly a s).temp = s.temp := rfl
@[simp] theorem setAssembly_power (a : Option Assembly) (s : State) : (setAssembly a s).power = s.power := rfl
@[simp] theorem setAssembly_boot (a : Option Assembly) (s : State) : (setAssembly a s).boot = s.boot := rfl
@[simp] theorem setAssembly_spill (a : Option Assembly) (s : State) : (setAssembly a s).spill = s.spill := rfl
@[simp] theorem setAssembly_diagQ (a : Option Assembly) (s : State) : (setAssembly a s).diagQ = s.diagQ := rfl
@[simp] theorem setAssembly_events (a : Option Assembly) (s : State) : (setAssembly a s).events = s.events := rfl
@[simp] theorem setAssembly_pending (a : Option Assembly) (s : State) : (setAssembly a s).pending = s.pending := rfl

/-! ### setCoder -/

@[simp] theorem setCoder_lines (ctx : CoderCtx) (c : Coder) (s : State) : (setCoder ctx c s).lines = s.lines := by cases ctx <;> rfl
@[simp] theorem setCoder_port (ctx : CoderCtx) (c : Coder) (s : State) : (setCoder ctx c s).port = s.port := by cases ctx <;> rfl
@[simp] theorem setCoder_tables (ctx : CoderCtx) (c : Coder) (s : State) : (setCoder ctx c s).tables = s.tables := by cases ctx <;> rfl
@[simp] theorem setCoder_front (ctx : CoderCtx) (c : Coder) (s : State) : (setCoder ctx c s).front = s.front := by cases ctx <;> rfl
@[simp] theorem setCoder_rings (ctx : CoderCtx) (c : Coder) (s : State) : (setCoder ctx c s).rings = s.rings := by cases ctx <;> rfl
@[simp] theorem setCoder_printDec (ctx : CoderCtx) (c : Coder) (s : State) : (setCoder ctx c s).printDec = s.printDec := by cases ctx <;> rfl
@[simp] theorem setCoder_outDec (ctx : CoderCtx) (c : Coder) (s : State) : (setCoder ctx c s).outDec = s.outDec := by cases ctx <;> rfl
@[simp] theorem setCoder_dram (ctx : CoderCtx) (c : Coder) (s : State) : (setCoder ctx c s).dram = s.dram := by cases ctx <;> rfl
@[simp] theorem setCoder_pmc (ctx : CoderCtx) (c : Coder) (s : State) : (setCoder ctx c s).pmc = s.pmc := by cases ctx <;> rfl
@[simp] theorem setCoder_dir (ctx : CoderCtx) (c : Coder) (s : State) : (setCoder ctx c s).dir = s.dir := by cases ctx <;> rfl
@[simp] theorem setCoder_motS (ctx : CoderCtx) (c : Coder) (s : State) : (setCoder ctx c s).motS = s.motS := by cases ctx <;> rfl
@[simp] theorem setCoder_motP (ctx : CoderCtx) (c : Coder) (s : State) : (setCoder ctx c s).motP = s.motP := by cases ctx <;> rfl
@[simp] theorem setCoder_scanJob (ctx : CoderCtx) (c : Coder) (s : State) : (setCoder ctx c s).scanJob = s.scanJob := by cases ctx <;> rfl
@[simp] theorem setCoder_intJob (ctx : CoderCtx) (c : Coder) (s : State) : (setCoder ctx c s).intJob = s.intJob := by cases ctx <;> rfl
@[simp] theorem setCoder_prtJob (ctx : CoderCtx) (c : Coder) (s : State) : (setCoder ctx c s).prtJob = s.prtJob := by cases ctx <;> rfl
@[simp] theorem setCoder_outJob (ctx : CoderCtx) (c : Coder) (s : State) : (setCoder ctx c s).outJob = s.outJob := by cases ctx <;> rfl
@[simp] theorem setCoder_temp (ctx : CoderCtx) (c : Coder) (s : State) : (setCoder ctx c s).temp = s.temp := by cases ctx <;> rfl
@[simp] theorem setCoder_power (ctx : CoderCtx) (c : Coder) (s : State) : (setCoder ctx c s).power = s.power := by cases ctx <;> rfl
@[simp] theorem setCoder_boot (ctx : CoderCtx) (c : Coder) (s : State) : (setCoder ctx c s).boot = s.boot := by cases ctx <;> rfl
@[simp] theorem setCoder_spill (ctx : CoderCtx) (c : Coder) (s : State) : (setCoder ctx c s).spill = s.spill := by cases ctx <;> rfl
@[simp] theorem setCoder_diagQ (ctx : CoderCtx) (c : Coder) (s : State) : (setCoder ctx c s).diagQ = s.diagQ := by cases ctx <;> rfl
@[simp] theorem setCoder_events (ctx : CoderCtx) (c : Coder) (s : State) : (setCoder ctx c s).events = s.events := by cases ctx <;> rfl
@[simp] theorem setCoder_pending (ctx : CoderCtx) (c : Coder) (s : State) : (setCoder ctx c s).pending = s.pending := by cases ctx <;> rfl

/-! ### setPass -/

@[simp] theorem setPass_lines (ctx : DecoderCtx) (p : Option Pass) (s : State) : (setPass ctx p s).lines = s.lines := by cases ctx <;> rfl
@[simp] theorem setPass_port (ctx : DecoderCtx) (p : Option Pass) (s : State) : (setPass ctx p s).port = s.port := by cases ctx <;> rfl
@[simp] theorem setPass_tables (ctx : DecoderCtx) (p : Option Pass) (s : State) : (setPass ctx p s).tables = s.tables := by cases ctx <;> rfl
@[simp] theorem setPass_front (ctx : DecoderCtx) (p : Option Pass) (s : State) : (setPass ctx p s).front = s.front := by cases ctx <;> rfl
@[simp] theorem setPass_rings (ctx : DecoderCtx) (p : Option Pass) (s : State) : (setPass ctx p s).rings = s.rings := by cases ctx <;> rfl
@[simp] theorem setPass_scanCd (ctx : DecoderCtx) (p : Option Pass) (s : State) : (setPass ctx p s).scanCd = s.scanCd := by cases ctx <;> rfl
@[simp] theorem setPass_intakeCd (ctx : DecoderCtx) (p : Option Pass) (s : State) : (setPass ctx p s).intakeCd = s.intakeCd := by cases ctx <;> rfl
@[simp] theorem setPass_dram (ctx : DecoderCtx) (p : Option Pass) (s : State) : (setPass ctx p s).dram = s.dram := by cases ctx <;> rfl
@[simp] theorem setPass_pmc (ctx : DecoderCtx) (p : Option Pass) (s : State) : (setPass ctx p s).pmc = s.pmc := by cases ctx <;> rfl
@[simp] theorem setPass_dir (ctx : DecoderCtx) (p : Option Pass) (s : State) : (setPass ctx p s).dir = s.dir := by cases ctx <;> rfl
@[simp] theorem setPass_motS (ctx : DecoderCtx) (p : Option Pass) (s : State) : (setPass ctx p s).motS = s.motS := by cases ctx <;> rfl
@[simp] theorem setPass_motP (ctx : DecoderCtx) (p : Option Pass) (s : State) : (setPass ctx p s).motP = s.motP := by cases ctx <;> rfl
@[simp] theorem setPass_scanJob (ctx : DecoderCtx) (p : Option Pass) (s : State) : (setPass ctx p s).scanJob = s.scanJob := by cases ctx <;> rfl
@[simp] theorem setPass_intJob (ctx : DecoderCtx) (p : Option Pass) (s : State) : (setPass ctx p s).intJob = s.intJob := by cases ctx <;> rfl
@[simp] theorem setPass_prtJob (ctx : DecoderCtx) (p : Option Pass) (s : State) : (setPass ctx p s).prtJob = s.prtJob := by cases ctx <;> rfl
@[simp] theorem setPass_outJob (ctx : DecoderCtx) (p : Option Pass) (s : State) : (setPass ctx p s).outJob = s.outJob := by cases ctx <;> rfl
@[simp] theorem setPass_temp (ctx : DecoderCtx) (p : Option Pass) (s : State) : (setPass ctx p s).temp = s.temp := by cases ctx <;> rfl
@[simp] theorem setPass_power (ctx : DecoderCtx) (p : Option Pass) (s : State) : (setPass ctx p s).power = s.power := by cases ctx <;> rfl
@[simp] theorem setPass_boot (ctx : DecoderCtx) (p : Option Pass) (s : State) : (setPass ctx p s).boot = s.boot := by cases ctx <;> rfl
@[simp] theorem setPass_spill (ctx : DecoderCtx) (p : Option Pass) (s : State) : (setPass ctx p s).spill = s.spill := by cases ctx <;> rfl
@[simp] theorem setPass_diagQ (ctx : DecoderCtx) (p : Option Pass) (s : State) : (setPass ctx p s).diagQ = s.diagQ := by cases ctx <;> rfl
@[simp] theorem setPass_events (ctx : DecoderCtx) (p : Option Pass) (s : State) : (setPass ctx p s).events = s.events := by cases ctx <;> rfl
@[simp] theorem setPass_pending (ctx : DecoderCtx) (p : Option Pass) (s : State) : (setPass ctx p s).pending = s.pending := by cases ctx <;> rfl

/-! ### setMotor -/

@[simp] theorem setMotor_lines (ch : Channel) (m : Motor) (s : State) : (setMotor ch m s).lines = s.lines := by cases ch <;> rfl
@[simp] theorem setMotor_port (ch : Channel) (m : Motor) (s : State) : (setMotor ch m s).port = s.port := by cases ch <;> rfl
@[simp] theorem setMotor_tables (ch : Channel) (m : Motor) (s : State) : (setMotor ch m s).tables = s.tables := by cases ch <;> rfl
@[simp] theorem setMotor_front (ch : Channel) (m : Motor) (s : State) : (setMotor ch m s).front = s.front := by cases ch <;> rfl
@[simp] theorem setMotor_rings (ch : Channel) (m : Motor) (s : State) : (setMotor ch m s).rings = s.rings := by cases ch <;> rfl
@[simp] theorem setMotor_scanCd (ch : Channel) (m : Motor) (s : State) : (setMotor ch m s).scanCd = s.scanCd := by cases ch <;> rfl
@[simp] theorem setMotor_intakeCd (ch : Channel) (m : Motor) (s : State) : (setMotor ch m s).intakeCd = s.intakeCd := by cases ch <;> rfl
@[simp] theorem setMotor_printDec (ch : Channel) (m : Motor) (s : State) : (setMotor ch m s).printDec = s.printDec := by cases ch <;> rfl
@[simp] theorem setMotor_outDec (ch : Channel) (m : Motor) (s : State) : (setMotor ch m s).outDec = s.outDec := by cases ch <;> rfl
@[simp] theorem setMotor_dram (ch : Channel) (m : Motor) (s : State) : (setMotor ch m s).dram = s.dram := by cases ch <;> rfl
@[simp] theorem setMotor_pmc (ch : Channel) (m : Motor) (s : State) : (setMotor ch m s).pmc = s.pmc := by cases ch <;> rfl
@[simp] theorem setMotor_dir (ch : Channel) (m : Motor) (s : State) : (setMotor ch m s).dir = s.dir := by cases ch <;> rfl
@[simp] theorem setMotor_scanJob (ch : Channel) (m : Motor) (s : State) : (setMotor ch m s).scanJob = s.scanJob := by cases ch <;> rfl
@[simp] theorem setMotor_intJob (ch : Channel) (m : Motor) (s : State) : (setMotor ch m s).intJob = s.intJob := by cases ch <;> rfl
@[simp] theorem setMotor_prtJob (ch : Channel) (m : Motor) (s : State) : (setMotor ch m s).prtJob = s.prtJob := by cases ch <;> rfl
@[simp] theorem setMotor_outJob (ch : Channel) (m : Motor) (s : State) : (setMotor ch m s).outJob = s.outJob := by cases ch <;> rfl
@[simp] theorem setMotor_temp (ch : Channel) (m : Motor) (s : State) : (setMotor ch m s).temp = s.temp := by cases ch <;> rfl
@[simp] theorem setMotor_power (ch : Channel) (m : Motor) (s : State) : (setMotor ch m s).power = s.power := by cases ch <;> rfl
@[simp] theorem setMotor_boot (ch : Channel) (m : Motor) (s : State) : (setMotor ch m s).boot = s.boot := by cases ch <;> rfl
@[simp] theorem setMotor_spill (ch : Channel) (m : Motor) (s : State) : (setMotor ch m s).spill = s.spill := by cases ch <;> rfl
@[simp] theorem setMotor_diagQ (ch : Channel) (m : Motor) (s : State) : (setMotor ch m s).diagQ = s.diagQ := by cases ch <;> rfl
@[simp] theorem setMotor_events (ch : Channel) (m : Motor) (s : State) : (setMotor ch m s).events = s.events := by cases ch <;> rfl
@[simp] theorem setMotor_pending (ch : Channel) (m : Motor) (s : State) : (setMotor ch m s).pending = s.pending := by cases ch <;> rfl

@[simp] theorem coderOf_setCoder (ctx : CoderCtx) (c : Coder) (s : State) : coderOf ctx (setCoder ctx c s) = c := by
  cases ctx <;> rfl

@[simp] theorem passOf_setPass (ctx : DecoderCtx) (p : Option Pass) (s : State) : passOf ctx (setPass ctx p s) = p := by
  cases ctx <;> rfl

@[simp] theorem motorOf_setMotor (ch : Channel) (m : Motor) (s : State) : motorOf ch (setMotor ch m s) = m := by
  cases ch <;> rfl

@[simp] theorem motorOf_mapMotor (ch : Channel) (f : Motor → Motor) (s : State) :
    motorOf ch (mapMotor ch f s) = f (motorOf ch s) := by
  cases ch <;> rfl

end Sys2Proof.Machine
end

