-- ==== Sys2Proof/Laws/Pages.lean ====
section
/-! SUPPORT. What the page operations leave alone: allocation, freeing, completion, discard and readers touch neither the
lines, the port, the tables, the channels nor the power states; and with no coder context waiting, freeing writes no byte. -/

-- one declaration after the other: run side by side, the proofs of the whole package hold more threads than memory has room for
set_option Elab.async false

namespace Sys2Proof.Machine

/-- What no page operation touches. -/
structure Shell (s t : State) : Prop where
  lines   : t.lines = s.lines
  port    : t.port = s.port
  tables  : t.tables = s.tables
  front   : t.front = s.front
  motS    : t.motS = s.motS
  motP    : t.motP = s.motP
  outDec  : t.outDec = s.outDec
  outJob  : t.outJob = s.outJob
  temp    : t.temp = s.temp
  power   : t.power = s.power
  boot    : t.boot = s.boot
  spill   : t.spill = s.spill
  diagQ   : t.diagQ = s.diagQ
  pending : t.pending = s.pending

theorem Shell.refl (s : State) : Shell s s := by constructor <;> rfl

theorem Shell.trans {s t u : State} (h : Shell s t) (k : Shell t u) : Shell s u := by
  constructor
  · exact k.lines.trans h.lines
  · exact k.port.trans h.port
  · exact k.tables.trans h.tables
  · exact k.front.trans h.front
  · exact k.motS.trans h.motS
  · exact k.motP.trans h.motP
  · exact k.outDec.trans h.outDec
  · exact k.outJob.trans h.outJob
  · exact k.temp.trans h.temp
  · exact k.power.trans h.power
  · exact k.boot.trans h.boot
  · exact k.spill.trans h.spill
  · exact k.diagQ.trans h.diagQ
  · exact k.pending.trans h.pending

/-- The shell of a state is what no job's end touches (Safety's `besideJobs`). -/
theorem Shell.beside {s t : State} (h : Shell s t) : t.besideJobs s :=
  ⟨h.lines, h.tables, h.temp, h.power, h.boot, h.spill, h.diagQ, h.pending⟩

theorem shell_raise (f : Fin 20) (p c r : Nat) (s : State) : Shell s (raise f p c r s) := by constructor <;> rfl
theorem shell_mapPmc (f : Pmc → Pmc) (s : State) : Shell s (mapPmc f s) := by constructor <;> rfl
theorem shell_mapDir (f : Directory → Directory) (s : State) : Shell s (mapDir f s) := by constructor <;> rfl
theorem shell_mapDram (f : Memory → Memory) (s : State) : Shell s (mapDram f s) := by constructor <;> rfl
theorem shell_mapRings (f : Rings → Rings) (s : State) : Shell s (mapRings f s) := by constructor <;> rfl
theorem shell_setCoder (c : CoderCtx) (x : Coder) (s : State) : Shell s (setCoder c x s) := by
  cases c <;> constructor <;> rfl
theorem shell_mapCoder (c : CoderCtx) (f : Coder → Coder) (s : State) : Shell s (mapCoder c f s) := shell_setCoder c _ s
theorem shell_mapEntry (i : Nat) (f : Entry → Entry) (s : State) : Shell s (mapEntry i f s) := by constructor <;> rfl
theorem shell_mapScanJob (f : ScanJob → ScanJob) (s : State) : Shell s (mapScanJob f s) := by constructor <;> rfl
theorem shell_mapIntJob (f : IntakeJob → IntakeJob) (s : State) : Shell s (mapIntJob f s) := by constructor <;> rfl
theorem shell_mapPrtJob (f : PrintJob → PrintJob) (s : State) : Shell s (mapPrtJob f s) := by constructor <;> rfl
theorem shell_killGrant (f : Burst → Bool) (s : State) : Shell s (killGrant f s) := by constructor <;> rfl
theorem shell_printDec (p : Option Pass) (s : State) : Shell s (setPass .print p s) := by constructor <;> rfl

theorem shell_positionReader (i b : Nat) (s : State) : Shell s (positionReader i b s) := by
  unfold positionReader
  split
  · exact Shell.refl s
  · split
    · constructor <;> rfl
    · exact Shell.refl s

theorem shell_allocate (c : CoderCtx) (s : State) : Shell s (allocate c s) := by
  have h1 : ∀ (o : Option Nat) (u : State),
      Shell u (match o with | none => u | some old => writeHeader old s.pmc.head Config.blockUnits u) := by
    intro o u
    cases o with
    | none => exact Shell.refl u
    | some old => exact shell_mapDram _ u
  have h2 : ∀ (o : Option Nat) (u : State),
      Shell u (match o with | none => u | some id => positionReader id s.pmc.head (mapEntry id (·.gain s.pmc.head) u)) := by
    intro o u
    cases o with
    | none => exact Shell.refl u
    | some id => exact (shell_mapEntry id _ u).trans (shell_positionReader id _ _)
  unfold allocate
  exact (((shell_mapPmc _ s).trans (h1 (coderOf c s).block _)).trans (shell_setCoder c _ _)).trans (h2 _ _)

theorem shell_enterMemwait (c : CoderCtx) (s : State) : Shell s (enterMemwait c s) :=
  (shell_setCoder c _ s).trans (shell_raise _ _ _ _ _)

theorem shell_pumpAsk (c : CoderCtx) (s : State) : Shell s (pumpAsk c s) := by
  unfold pumpAsk
  split
  · split
    · exact shell_enterMemwait c s
    · split
      · exact shell_allocate c s
      · exact Shell.refl s
  · exact Shell.refl s

theorem shell_serveOne (c : CoderCtx) (s : State) : Shell s (serveOne c s) := by
  unfold serveOne
  refine Shell.trans ?_ (shell_pumpAsk c _)
  split
  · exact shell_setCoder c _ s
  · exact Shell.refl s

/-- Freed blocks go to waiting contexts, and nothing of the shell changes (R68). -/
theorem shell_serveWaiters (s : State) : Shell s (serveWaiters s) :=
  (shell_serveOne .scan s).trans (shell_serveOne .intake _)

theorem shell_freeSingle (b : Nat) (s : State) : Shell s (freeSingle b s) :=
  (shell_mapPmc _ s).trans (shell_serveWaiters _)

theorem shell_freeCurrent (b f : Nat) (s : State) : Shell s (freeCurrent b f s) :=
  (shell_mapPmc _ s).trans (shell_serveWaiters _)

theorem shell_checkLink (b : Nat) (s : State) : Shell s (checkLink b s) := by
  unfold checkLink
  split
  · exact Shell.refl s
  · exact shell_raise _ _ _ _ s

/-- A chain freed (R70). -/
theorem shell_freeChain (a b k : Nat) (c : Option Nat) (s : State) : Shell s (freeChain a b k c s) := by
  unfold freeChain
  split
  · exact Shell.refl s
  · dsimp only
    refine Shell.trans ?_ ((shell_mapPmc _ _).trans (shell_serveWaiters _))
    split
    · exact shell_checkLink _ s
    · exact Shell.refl s

theorem shell_idleCoder (c : CoderCtx) (s : State) : Shell s (idleCoder c s) :=
  (shell_mapCoder c _ s).trans (shell_killGrant _ _)

theorem shell_idlePrint (s : State) : Shell s (idleDecoder .print s) :=
  (shell_printDec none s).trans (shell_killGrant _ _)

/-- An entry removed with its blocks (R84, R92). -/
theorem shell_dropEntry (e : Entry) (c : Option Nat) (s : State) : Shell s (dropEntry e c s) :=
  (shell_freeChain e.first e.last e.blockCount c s).trans (by constructor <;> rfl)

theorem shell_settleEmpty (i : Nat) (s : State) : Shell s (settleEmpty i s) := by
  unfold settleEmpty
  split
  · exact Shell.refl s
  · split
    · exact shell_dropEntry _ _ s
    · exact Shell.refl s

theorem shell_settleChain (i : Nat) (c : Coder) (s : State) : Shell s (settleChain i c s) := by
  unfold settleChain
  split
  · exact Shell.refl s
  · exact (shell_mapEntry i _ s).trans (shell_freeCurrent _ _ _)
  · dsimp only
    split
    · exact shell_mapDram _ s
    · exact ((shell_mapDram _ s).trans (shell_mapEntry i _ _)).trans (shell_freeCurrent _ _ _)

theorem shell_noteCompleted (c : CoderCtx) (i : Nat) (t q : Bool) (s : State) : Shell s (noteCompleted c i t q s) := by
  cases c with
  | scan =>
    unfold noteCompleted
    dsimp only
    split
    · exact shell_mapScanJob _ s
    · exact (shell_mapScanJob _ s).trans (shell_raise _ _ _ _ _)
  | intake => exact shell_mapIntJob _ s

/-- A page completed (R83). -/
theorem shell_completePage (c : CoderCtx) (t q : Bool) (s : State) : Shell s (completePage c t q s) := by
  unfold completePage
  dsimp only
  split
  · exact Shell.refl s
  · exact ((((shell_idleCoder c s).trans (shell_settleChain _ _ _)).trans (shell_mapEntry _ _ _)).trans
      (shell_noteCompleted c _ t q _)).trans (shell_settleEmpty _ _)

theorem shell_clearReader (c : DecoderCtx) (i : Nat) (s : State) : Shell s (clearReader c i s) := shell_mapEntry i _ s

theorem shell_printPageGone (s : State) : Shell s (printPageGone s) :=
  ((shell_idlePrint s).trans (shell_mapRings _ _)).trans (shell_mapPrtJob _ _)

/-- A page discarded (R86). -/
theorem shell_discardPage (i : Nat) (r : Bool) (s : State) : Shell s (discardPage i r s) := by
  unfold discardPage
  split
  · exact Shell.refl s
  · next e _ =>
    dsimp only
    have h1 : Shell s (if e.printRd.isSome && !r then printPageGone s else s) := by
      split
      · exact shell_printPageGone s
      · exact Shell.refl s
    have h2 := h1.trans (shell_clearReader .print i _)
    have h3 : ∀ u : State, Shell u (if u.scanCd.page = some i then idleCoder .scan u else u) := by
      intro u
      split
      · exact shell_idleCoder .scan u
      · exact Shell.refl u
    have h4 : ∀ u : State, Shell u (if u.intakeCd.page = some i then idleCoder .intake u else u) := by
      intro u
      split
      · exact shell_idleCoder .intake u
      · exact Shell.refl u
    exact ((h2.trans (h3 _)).trans (h4 _)).trans (shell_dropEntry e _ _)

theorem shell_discardWritten (c : CoderCtx) (s : State) : Shell s (discardWritten c s) := by
  unfold discardWritten
  split
  · exact Shell.refl s
  · exact shell_discardPage _ false s

theorem shell_applyPolicy (c : CoderCtx) (p : Policy) (s : State) : Shell s (applyPolicy c p s) := by
  cases p
  · exact shell_discardWritten c s
  · exact shell_completePage c true false s

theorem shell_discardAll (is : List Nat) (r : Bool) : ∀ s : State, Shell s (is.foldl (fun s i => discardPage i r s) s) := by
  induction is with
  | nil => exact Shell.refl
  | cons i is ih => exact fun s => (shell_discardPage i r s).trans (ih _)

theorem shell_discardWaiting (c : CoderCtx) (s : State) : Shell s (discardWaiting c s) := shell_discardAll _ false s

/-- A reader removed and its page settled (R90). -/
theorem shell_removeReader (c : DecoderCtx) (i : Nat) (s : State) : Shell s (removeReader c i s) := by
  unfold removeReader
  split
  · exact Shell.refl s
  · split
    · exact Shell.refl s
    · dsimp only
      split
      · exact (shell_clearReader c i s).trans (shell_dropEntry _ _ _)
      · split
        · exact (shell_clearReader c i s).trans (shell_dropEntry _ _ _)
        · exact (shell_clearReader c i s).trans (shell_settleEmpty _ _)

/-! ## Freeing with no context waiting -/

/-- No context waits in `t` and the DRAM holds what it held in `s`. -/
structure Unasked (s t : State) : Prop where
  quiet : t.noAsk
  dram  : t.dram = s.dram

theorem Unasked.trans {s t u : State} (h : Unasked s t) (k : Unasked t u) : Unasked s u :=
  ⟨k.quiet, k.dram.trans h.dram⟩

/-- A request waits while the link of the head is not known, or its upkeep read is in course (R65). -/
theorem pumpAsk_waits {c : CoderCtx} {s : State} (h : s.pmc.count ≠ 0) (w : s.pmc.linkKnown = false ∨ s.pmc.readingLink = true) :
    pumpAsk c s = s := by
  unfold pumpAsk
  rcases w with w | w <;> simp [h, w]

/-- The order in which upkeep accesses are made leaves none out and adds none (R65). -/
theorem upkeepOrder_perm (us : List Upkeep) : (upkeepOrder us).Perm us := by
  unfold upkeepOrder
  split
  · next b rest =>
    exact List.perm_middle.trans ((List.filter_append_perm (·.writes b) rest).cons _)
  · exact .refl _

theorem pumpAsk_unasked {c : CoderCtx} {s : State} (h : s.noAsk) : pumpAsk c s = s := by
  cases c
  · simp [pumpAsk, coderOf, h.2.2.1]
  · simp [pumpAsk, coderOf, h.2.2.2]

/-- With no context waiting, freed blocks only join the list. -/
theorem serveWaiters_unasked {s : State} (h : s.noAsk) : serveWaiters s = s := by
  have one : ∀ c, serveOne c s = s := by
    intro c
    have hst : ¬ (coderOf c s).st = .memwait := by
      cases c
      · exact h.1
      · exact h.2.1
    simp only [serveOne, hst, false_and, if_false]
    exact pumpAsk_unasked h
  simp only [serveWaiters, one]

theorem freeSingle_unasked (b : Nat) {s : State} (h : s.noAsk) : Unasked s (freeSingle b s) := by
  have h' : (mapPmc (·.join b b 1 noBlock [.setNext b noBlock]) s).noAsk := h
  unfold freeSingle
  rw [serveWaiters_unasked h']
  exact ⟨h', rfl⟩

theorem freeCurrent_unasked (b f : Nat) {s : State} (h : s.noAsk) : Unasked s (freeCurrent b f s) := by
  have h' : (mapPmc (·.join b b 1 noBlock [.setHeader b noBlock f]) s).noAsk := h
  unfold freeCurrent
  rw [serveWaiters_unasked h']
  exact ⟨h', rfl⟩

theorem checkLink_unasked (b : Nat) {s : State} (h : s.noAsk) : Unasked s (checkLink b s) := by
  unfold checkLink
  split
  · exact ⟨h, rfl⟩
  · exact ⟨h, rfl⟩

theorem freeChain_unasked (a b k : Nat) (c : Option Nat) {s : State} (h : s.noAsk) : Unasked s (freeChain a b k c s) := by
  unfold freeChain
  split
  · exact ⟨h, rfl⟩
  · dsimp only
    have h1 : Unasked s (if s.pmc.count = 0 ∧ k ≠ 1 then checkLink a s else s) := by
      split
      · exact checkLink_unasked a h
      · exact ⟨h, rfl⟩
    have h' : ∀ f : Pmc → Pmc, (mapPmc f (if s.pmc.count = 0 ∧ k ≠ 1 then checkLink a s else s)).noAsk := fun _ => h1.quiet
    rw [serveWaiters_unasked (h' _)]
    exact ⟨h' _, h1.dram⟩

theorem dropEntry_unasked (e : Entry) (c : Option Nat) {s : State} (h : s.noAsk) : Unasked s (dropEntry e c s) :=
  ⟨(freeChain_unasked _ _ _ c h).quiet, (freeChain_unasked _ _ _ c h).dram⟩

theorem settleEmpty_unasked (i : Nat) {s : State} (h : s.noAsk) : Unasked s (settleEmpty i s) := by
  unfold settleEmpty
  split
  · exact ⟨h, rfl⟩
  · split
    · exact dropEntry_unasked _ _ h
    · exact ⟨h, rfl⟩

theorem idleCoder_unasked (c : CoderCtx) {s : State} (h : s.noAsk) : Unasked s (idleCoder c s) := by
  cases c
  · exact ⟨⟨nofun, h.2.1, rfl, h.2.2.2⟩, rfl⟩
  · exact ⟨⟨h.1, nofun, h.2.2.1, rfl⟩, rfl⟩

/-- A discard writes no byte when no context waits. -/
theorem discardPage_unasked (i : Nat) (r : Bool) {s : State} (h : s.noAsk) : Unasked s (discardPage i r s) := by
  unfold discardPage
  split
  · exact ⟨h, rfl⟩
  · next e _ =>
    dsimp only
    have h1 : Unasked s (clearReader .print i (if e.printRd.isSome && !r then printPageGone s else s)) := by
      split
      · exact ⟨h, rfl⟩
      · exact ⟨h, rfl⟩
    have h3 : ∀ u : State, u.noAsk → Unasked u (if u.scanCd.page = some i then idleCoder .scan u else u) := by
      intro u hu
      split
      · exact idleCoder_unasked .scan hu
      · exact ⟨hu, rfl⟩
    have h4 : ∀ u : State, u.noAsk → Unasked u (if u.intakeCd.page = some i then idleCoder .intake u else u) := by
      intro u hu
      split
      · exact idleCoder_unasked .intake hu
      · exact ⟨hu, rfl⟩
    have h5 := h1.trans (h3 _ h1.quiet)
    have h6 := h5.trans (h4 _ h5.quiet)
    exact h6.trans (dropEntry_unasked e _ h6.quiet)

theorem discardWritten_unasked (c : CoderCtx) {s : State} (h : s.noAsk) : Unasked s (discardWritten c s) := by
  unfold discardWritten
  split
  · exact ⟨h, rfl⟩
  · exact discardPage_unasked _ false h

theorem discardAll_unasked (is : List Nat) (r : Bool) :
    ∀ {s : State}, s.noAsk → Unasked s (is.foldl (fun s i => discardPage i r s) s) := by
  induction is with
  | nil => exact fun h => ⟨h, rfl⟩
  | cons i is ih => exact fun h => (discardPage_unasked i r h).trans (ih (discardPage_unasked i r h).quiet)

theorem discardWaiting_unasked (c : CoderCtx) {s : State} (h : s.noAsk) : Unasked s (discardWaiting c s) :=
  discardAll_unasked _ false h

theorem removeReader_unasked (c : DecoderCtx) (i : Nat) {s : State} (h : s.noAsk) : Unasked s (removeReader c i s) := by
  have h' : (clearReader c i s).noAsk := h
  unfold removeReader
  split
  · exact ⟨h, rfl⟩
  · split
    · exact ⟨h, rfl⟩
    · dsimp only
      split
      · exact ⟨(dropEntry_unasked _ _ h').quiet, (dropEntry_unasked _ _ h').dram⟩
      · split
        · exact ⟨(dropEntry_unasked _ _ h').quiet, (dropEntry_unasked _ _ h').dram⟩
        · exact ⟨(settleEmpty_unasked i h').quiet, (settleEmpty_unasked i h').dram⟩

end Sys2Proof.Machine
end

