-- ==== Sys2Proof/Laws/Beside.lean ====
section
/-! SUPPORT. What a page operation leaves of the jobs, the places, the list build and the Scan Ring. -/

-- one declaration after the other: run side by side, the proofs of the whole package hold more threads than memory has room for
set_option Elab.async false

namespace Sys2Proof.Machine

/-- What a page operation leaves of the jobs, the places, the list build and the Scan Ring: the jobs stand, but for the last
completed page; entries may leave the directory, none joins. -/
structure Beside (s t : State) : Prop where
  sr      : t.pmc.srPending = s.pmc.srPending
  build   : t.pmc.build = s.pmc.build
  places  : t.dir.places = s.dir.places
  ids     : (t.dir.entries.map Entry.id).Sublist (s.dir.entries.map Entry.id)
  scanJob : t.scanJob.map (fun j => { j with lastCompleted := 0 }) = s.scanJob.map (fun j => { j with lastCompleted := 0 })
  intJob  : t.intJob.isNone = s.intJob.isNone
  prtJob  : t.prtJob.isNone = s.prtJob.isNone
  scan    : t.rings.scan = s.rings.scan
  room    : t.rings.scanReserved = s.rings.scanReserved
  pages   : ∀ c, (coderOf c t).page = (coderOf c s).page ∨ (coderOf c t).page = none
  waits   : ∀ c, (coderOf c t).dirWait = (coderOf c s).dirWait

theorem Beside.refl (s : State) : Beside s s := by constructor <;> first | rfl | exact List.Sublist.refl _ | exact fun _ => .inl rfl | exact fun _ => rfl

theorem Beside.trans {s t u : State} (h : Beside s t) (k : Beside t u) : Beside s u := by
  constructor
  · exact k.sr.trans h.sr
  · exact k.build.trans h.build
  · exact k.places.trans h.places
  · exact k.ids.trans h.ids
  · exact k.scanJob.trans h.scanJob
  · exact k.intJob.trans h.intJob
  · exact k.prtJob.trans h.prtJob
  · exact k.scan.trans h.scan
  · exact k.room.trans h.room
  · intro c
    rcases k.pages c with x | x
    · rw [x]; exact h.pages c
    · exact .inr x
  · exact fun c => (k.waits c).trans (h.waits c)

theorem beside_raise (f : Fin 20) (p c r : Nat) (s : State) : Beside s (raise f p c r s) := by
  constructor <;> first | rfl | exact List.Sublist.refl _ | exact fun _ => .inl rfl | exact fun _ => rfl
theorem beside_mapDram (f : Memory → Memory) (s : State) : Beside s (mapDram f s) := by
  constructor <;> first | rfl | exact List.Sublist.refl _ | exact fun _ => .inl rfl | exact fun _ => rfl
theorem beside_setCoder (c : CoderCtx) (x : Coder) (s : State) (hp : x.page = (coderOf c s).page ∨ x.page = none)
    (hw : x.dirWait = (coderOf c s).dirWait) : Beside s (setCoder c x s) := by
  cases c <;> constructor <;> first | rfl | exact List.Sublist.refl _ | skip
  · intro d; cases d
    · exact hp
    · exact .inl rfl
  · intro d; cases d
    · exact hw
    · rfl
  · intro d; cases d
    · exact .inl rfl
    · exact hp
  · intro d; cases d
    · rfl
    · exact hw
theorem beside_mapCoder (c : CoderCtx) (f : Coder → Coder) (s : State)
    (hp : (f (coderOf c s)).page = (coderOf c s).page ∨ (f (coderOf c s)).page = none)
    (hw : (f (coderOf c s)).dirWait = (coderOf c s).dirWait) : Beside s (mapCoder c f s) := beside_setCoder c _ s hp hw
theorem beside_mapPmc {f : Pmc → Pmc} {s : State} (h : (f s.pmc).srPending = s.pmc.srPending)
    (k : (f s.pmc).build = s.pmc.build) : Beside s (mapPmc f s) := by
  constructor <;> first | exact h | exact k | rfl | exact List.Sublist.refl _ | exact fun _ => .inl rfl | exact fun _ => rfl
theorem beside_killGrant (f : Burst → Bool) (s : State) : Beside s (killGrant f s) := beside_mapPmc rfl rfl
theorem beside_setPass (c : DecoderCtx) (p : Option Pass) (s : State) : Beside s (setPass c p s) := by
  cases c <;> constructor <;> first | rfl | exact List.Sublist.refl _ | exact fun _ => .inl rfl | exact fun _ => rfl
theorem beside_mapIntJob (f : IntakeJob → IntakeJob) (s : State) : Beside s (mapIntJob f s) := by
  constructor <;> first | rfl | exact List.Sublist.refl _ | exact fun _ => .inl rfl | exact fun _ => rfl | simp
theorem beside_mapPrtJob (f : PrintJob → PrintJob) (s : State) : Beside s (mapPrtJob f s) := by
  constructor <;> first | rfl | exact List.Sublist.refl _ | exact fun _ => .inl rfl | exact fun _ => rfl | simp
theorem beside_emptyPrintRing (s : State) : Beside s (emptyPrintRing s) := by
  constructor <;> first | rfl | exact List.Sublist.refl _ | exact fun _ => .inl rfl | exact fun _ => rfl

/-- A change of one entry that keeps its id. -/
theorem beside_mapEntry (i : Nat) (f : Entry → Entry) (s : State) (h : ∀ e, (f e).id = e.id := by intro e; rfl) : Beside s (mapEntry i f s) := by
  constructor <;> first | rfl | exact fun _ => .inl rfl | exact fun _ => rfl | skip
  have : (s.dir.entries.map fun e => if e.id = i then f e else e).map Entry.id = s.dir.entries.map Entry.id := by
    rw [List.map_map]
    refine List.map_congr_left fun e _ => ?_
    simp only [Function.comp]
    split
    · exact h e
    · rfl
  simp [mapEntry, this]

theorem beside_removeEntry (i : Nat) (s : State) : Beside s (removeEntry i s) := by
  constructor <;> first | rfl | exact fun _ => .inl rfl | exact fun _ => rfl | skip
  exact List.Sublist.map _ List.filter_sublist

theorem beside_positionReader (i b : Nat) (s : State) : Beside s (positionReader i b s) := by
  unfold positionReader
  split
  · exact .refl s
  · split
    · exact Beside.trans (beside_setPass .print _ s) (beside_mapEntry i _ _)
    · exact .refl s

theorem takeHead_build (p : Pmc) : p.takeHead.build = p.build ∧ p.takeHead.srPending = p.srPending := by
  unfold Pmc.takeHead; split <;> exact ⟨rfl, rfl⟩

theorem beside_allocate (c : CoderCtx) (s : State) : Beside s (allocate c s) := by
  have h1 : ∀ (o : Option Nat) (u : State),
      Beside u (match o with | none => u | some old => writeHeader old s.pmc.head Config.blockUnits u) := by
    intro o u
    cases o with
    | none => exact .refl u
    | some old => exact beside_mapDram _ u
  have h2 : ∀ (o : Option Nat) (u : State),
      Beside u (match o with | none => u | some id => positionReader id s.pmc.head (mapEntry id (·.gain s.pmc.head) u)) := by
    intro o u
    cases o with
    | none => exact .refl u
    | some id => exact (beside_mapEntry id _ u).trans (beside_positionReader id _ _)
  have co : ∀ (o : Option Nat) (u : State),
      coderOf c (match o with | none => u | some old => writeHeader old s.pmc.head Config.blockUnits u) = coderOf c u := by
    intro o u
    cases o <;> cases c <;> rfl
  have cp : coderOf c (mapPmc Pmc.takeHead s) = coderOf c s := by cases c <;> rfl
  unfold allocate
  refine (((beside_mapPmc (takeHead_build _).2 (takeHead_build _).1).trans (h1 (coderOf c s).block _)).trans
    (beside_setCoder c _ _ ?_ ?_)).trans (h2 _ _)
  · dsimp only
    erw [co, cp]
    exact .inl rfl
  · dsimp only
    erw [co, cp]

theorem beside_enterMemwait (c : CoderCtx) (s : State) : Beside s (enterMemwait c s) :=
  (beside_setCoder c { coderOf c s with st := .memwait, asking := false, timer := some (setMemWait s) } s (.inl rfl) rfl).trans
    (beside_raise _ _ _ _ _)

theorem beside_pumpAsk (c : CoderCtx) (s : State) : Beside s (pumpAsk c s) := by
  unfold pumpAsk
  split
  · split
    · exact beside_enterMemwait c s
    · split
      · exact beside_allocate c s
      · exact .refl s
  · exact .refl s

theorem beside_askBlock (c : CoderCtx) (s : State) : Beside s (askBlock c s) :=
  (beside_mapCoder c _ s (.inl rfl) rfl).trans (beside_pumpAsk c _)

theorem beside_serveWaiters (s : State) : Beside s (serveWaiters s) := by
  have one : ∀ (c : CoderCtx) (u : State), Beside u (serveOne c u) := by
    intro c u
    unfold serveOne
    refine Beside.trans ?_ (beside_pumpAsk c _)
    split
    · exact beside_setCoder c _ u (.inl rfl) rfl
    · exact .refl u
  exact (one .scan s).trans (one .intake _)

theorem join_build (p : Pmc) (a b k l : Nat) (pre : List Upkeep) :
    (p.join a b k l pre).build = p.build ∧ (p.join a b k l pre).srPending = p.srPending := by
  unfold Pmc.join; split <;> exact ⟨rfl, rfl⟩

theorem beside_join (a b k l : Nat) (pre : List Upkeep) (s : State) : Beside s (mapPmc (·.join a b k l pre) s) :=
  beside_mapPmc (join_build _ _ _ _ _ _).2 (join_build _ _ _ _ _ _).1

theorem beside_freeSingle (b : Nat) (s : State) : Beside s (freeSingle b s) :=
  (beside_join _ _ _ _ _ s).trans (beside_serveWaiters _)

theorem beside_freeCurrent (b f : Nat) (s : State) : Beside s (freeCurrent b f s) :=
  (beside_join _ _ _ _ _ s).trans (beside_serveWaiters _)

theorem beside_checkLink (b : Nat) (s : State) : Beside s (checkLink b s) := by
  unfold checkLink
  split
  · exact .refl s
  · exact beside_raise _ _ _ _ s

theorem beside_freeChain (a b k : Nat) (c : Option Nat) (s : State) : Beside s (freeChain a b k c s) := by
  unfold freeChain
  split
  · exact .refl s
  · dsimp only
    refine Beside.trans ?_ ((beside_join _ _ _ _ _ _).trans (beside_serveWaiters _))
    split
    · exact beside_checkLink _ s
    · exact .refl s

theorem beside_idleCoder (c : CoderCtx) (s : State) : Beside s (idleCoder c s) :=
  (beside_mapCoder c _ s (.inr rfl) rfl).trans (beside_killGrant _ _)

theorem beside_idleDecoder (c : DecoderCtx) (s : State) : Beside s (idleDecoder c s) :=
  (beside_setPass c none s).trans (beside_killGrant _ _)

theorem beside_dropEntry (e : Entry) (c : Option Nat) (s : State) : Beside s (dropEntry e c s) :=
  (beside_freeChain _ _ _ c s).trans (beside_removeEntry _ _)

theorem beside_settleEmpty (i : Nat) (s : State) : Beside s (settleEmpty i s) := by
  unfold settleEmpty
  split
  · exact .refl s
  · split
    · exact beside_dropEntry _ _ s
    · exact .refl s

theorem beside_settleChain (i : Nat) (c : Coder) (s : State) : Beside s (settleChain i c s) := by
  unfold settleChain
  split
  · exact .refl s
  · exact (beside_mapEntry i _ s).trans (beside_freeCurrent _ _ _)
  · dsimp only
    split
    · exact beside_mapDram _ s
    · exact ((beside_mapDram _ s).trans (beside_mapEntry i _ _)).trans (beside_freeCurrent _ _ _)

theorem beside_markComplete (i : Nat) (t : Bool) (s : State) : Beside s (markComplete i t s) := beside_mapEntry i _ s

theorem beside_noteCompleted (c : CoderCtx) (i : Nat) (t q : Bool) (s : State) : Beside s (noteCompleted c i t q s) := by
  have h : Beside s (mapScanJob (fun j => { j with lastCompleted := i }) s) := by
    constructor <;> first | rfl | exact List.Sublist.refl _ | exact fun _ => .inl rfl | exact fun _ => rfl | skip
    simp only [mapScanJob, Option.map_map]
    rfl
  cases c with
  | scan =>
    unfold noteCompleted
    dsimp only
    split
    · exact h
    · exact h.trans (beside_raise _ _ _ _ _)
  | intake => exact beside_mapIntJob _ s

theorem beside_completePage (c : CoderCtx) (t q : Bool) (s : State) : Beside s (completePage c t q s) := by
  unfold completePage
  dsimp only
  split
  · exact .refl s
  · exact ((((beside_idleCoder c s).trans (beside_settleChain _ _ _)).trans (beside_markComplete _ _ _)).trans
      (beside_noteCompleted c _ t q _)).trans (beside_settleEmpty _ _)

theorem beside_clearReader (c : DecoderCtx) (i : Nat) (s : State) : Beside s (clearReader c i s) := by
  cases c <;> exact beside_mapEntry i _ s

theorem beside_moveReader (c : DecoderCtx) (i l b : Nat) (s : State) : Beside s (moveReader c i l b s) := by
  cases c <;> exact beside_mapEntry i _ s

theorem beside_printPageGone (s : State) : Beside s (printPageGone s) :=
  ((beside_idleDecoder .print s).trans (beside_emptyPrintRing _)).trans (beside_mapPrtJob _ _)

theorem beside_discardPage (i : Nat) (r : Bool) (s : State) : Beside s (discardPage i r s) := by
  unfold discardPage
  split
  · exact .refl s
  · next e _ =>
    dsimp only
    have h1 : Beside s (if e.printRd.isSome && !r then printPageGone s else s) := by
      split
      · exact beside_printPageGone s
      · exact .refl s
    have h2 := h1.trans (beside_clearReader .print i _)
    have h3 : ∀ u : State, Beside u (if u.scanCd.page = some i then idleCoder .scan u else u) := by
      intro u
      split
      · exact beside_idleCoder .scan u
      · exact .refl u
    have h4 : ∀ u : State, Beside u (if u.intakeCd.page = some i then idleCoder .intake u else u) := by
      intro u
      split
      · exact beside_idleCoder .intake u
      · exact .refl u
    exact ((h2.trans (h3 _)).trans (h4 _)).trans (beside_dropEntry e _ _)

theorem beside_discardWritten (c : CoderCtx) (s : State) : Beside s (discardWritten c s) := by
  unfold discardWritten
  split
  · exact .refl s
  · exact beside_discardPage _ false s

theorem beside_applyPolicy (c : CoderCtx) (p : Policy) (s : State) : Beside s (applyPolicy c p s) := by
  cases p
  · exact beside_discardWritten c s
  · exact beside_completePage c true false s

theorem beside_discardAll (is : List Nat) (r : Bool) :
    ∀ s : State, Beside s (is.foldl (fun s i => discardPage i r s) s) := by
  induction is with
  | nil => exact .refl
  | cons i is ih => exact fun s => (beside_discardPage i r s).trans (ih _)

theorem beside_discardWaiting (c : CoderCtx) (s : State) : Beside s (discardWaiting c s) := beside_discardAll _ false s

theorem beside_removeReader (c : DecoderCtx) (i : Nat) (s : State) : Beside s (removeReader c i s) := by
  unfold removeReader
  split
  · exact .refl s
  · split
    · exact .refl s
    · dsimp only
      split
      · exact (beside_clearReader c i s).trans (beside_dropEntry _ _ _)
      · split
        · exact (beside_clearReader c i s).trans (beside_dropEntry _ _ _)
        · exact (beside_clearReader c i s).trans (beside_settleEmpty _ _)

theorem beside_leaveBlock (c : DecoderCtx) (i b l o : Nat) (s : State) : Beside s (leaveBlock c i b l o s) := by
  unfold leaveBlock
  split
  · exact .refl s
  · split
    · exact .refl s
    · split
      · exact ((beside_mapEntry i _ s).trans (beside_freeSingle _ _)).trans (beside_mapEntry i _ _)
      · exact .refl s

end Sys2Proof.Machine
end

