-- ==== Sys2Proof/Laws/Port.lean ====
section
/-! SUPPORT. What a record written at the port comes to, and what the operations every command shares can do. -/

-- one declaration after the other: run side by side, the proofs of the whole package hold more threads than memory has room for
set_option Elab.async false

namespace Sys2Proof.Machine

/-- Every command answers a next state: the block has no fault and refuses nothing. -/
theorem exec_next (i : Instr) (s : State) : ∃ t, exec i s = .next t := by
  cases i <;> exact ⟨_, rfl⟩

/-- Every step answers a next state. -/
theorem step_next (s : State) : ∃ t, step s = .next t := by
  unfold step
  split
  · exact ⟨_, rfl⟩
  · exact exec_next _ _

/-- A step idles or runs the command at the queue's front. -/
theorem step_front {s t : State} (k : step s = .next t) :
    t = s ∨ ∃ c r, s.pending = c :: r ∧ exec c { s with pending := r } = .next t := by
  unfold step at k
  split at k
  · left; injection k with k; exact k.symm
  · next c r h => exact .inr ⟨c, r, h, k⟩

/-- Setting the inbound side to what it is changes nothing. -/
theorem setInbound_self {s : State} {i : Inbound} (h : s.port.inbound = i) : setInbound i s = s := by
  subst h; rfl

theorem clearInbound_self {s : State} (h : s.port.inbound = .receiving []) :
    mapPort (fun p => { p with inbound := .receiving [] }) s = s := by
  obtain ⟨l, p, r⟩ := s
  obtain ⟨i, re⟩ := p
  simp only at h
  subst h; rfl

/-- A record whose header is refused is drained and answered (R2). -/
theorem writeRecord_refused {r : Record} {s : State} {st : Status} (hr : rdy s = true)
    (hi : s.port.inbound = .receiving []) (hh : headerCheck r.kind r.sub r.payload.length = some st) :
    writeRecord r s = drained r.kind r.sub st s := by
  simp [writeRecord, hr, hi, hh]

/-- A record whose header passes is complete once written (R2, R3). -/
theorem writeRecord_complete {r : Record} {s : State} (hr : rdy s = true) (hi : s.port.inbound = .receiving [])
    (hh : headerCheck r.kind r.sub r.payload.length = none) : writeRecord r s = completeRecord r s := by
  simp [writeRecord, hr, hi, hh]

/-- A record not held for RUN is dispatched at once (R3). -/
theorem completeRecord_dispatch {r : Record} {s : State} (h : needsRun r = true → s.power.state ≠ .doze) :
    completeRecord r s = dispatch r s := by
  unfold completeRecord
  rw [if_neg]
  rintro ⟨h1, h2⟩
  exact h h1 h2

/-- An order in READY: its owner acts, its answer joins the queue, and what follows comes about (R3, R4). -/
theorem writeOrder_ready {code : Byte} {payload : List Byte} {s : State} (hr : rdy s = true)
    (hi : s.port.inbound = .receiving []) (hb : s.boot.state = .ready)
    (hh : headerCheck kOrder code payload.length = none)
    (hn : needsRun { kind := kOrder, sub := code, payload := payload } = true → s.power.state ≠ .doze) :
    writeOrder code payload s =
      restartIdle (settle (pushReply kOrder code (actOrder code.toNat payload s).2 (actOrder code.toNat payload s).1)) := by
  unfold writeOrder
  rw [writeRecord_complete hr hi hh, completeRecord_dispatch hn]
  unfold dispatch
  rw [clearInbound_self hi]
  simp [act, hb, kOrder, kLine, kLoad, kQuery, kEvack, kDiag, answer]

/-- A query: its answer joins the queue (R16). -/
theorem writeQuery_answer {sub : Byte} {payload : List Byte} {s : State} (hr : rdy s = true)
    (hi : s.port.inbound = .receiving []) (hh : headerCheck kQuery sub payload.length = none) :
    writeQuery sub payload s = restartIdle (pushReply kQuery sub (queryBody sub.toNat payload s) s) := by
  unfold writeQuery
  rw [writeRecord_complete hr hi hh, completeRecord_dispatch (by simp [needsRun, kQuery, kOrder])]
  unfold dispatch
  rw [clearInbound_self hi]
  by_cases hp : s.boot.state = .portload <;>
    simp [act, hp, portloadTakes, kOrder, kLine, kLoad, kQuery, answer]

/-! ## Raising (R184) -/

/-- What raising a flag does to the queue. -/
theorem raise_queue (f : Fin 20) (p c r : Nat) (s : State) :
    (raise f p c r s).events.queue =
      if !(s.events.flags[f]).masked && !(s.events.flags[f]).reported then s.events.queue ++ [f] else s.events.queue := by
  have h : ((s.events.flags[f]).raised p c r).set = true ∧
      ((s.events.flags[f]).raised p c r).masked = (s.events.flags[f]).masked ∧
      ((s.events.flags[f]).raised p c r).reported = (s.events.flags[f]).reported := by
    unfold EventFlag.raised
    split <;> simp_all
  simp only [raise, Events.raise, Events.post, h.1, h.2.1, h.2.2, Bool.true_and]
  split <;> rfl

/-- Raising one flag leaves the others as they were. -/
theorem raise_other (f g : Fin 20) (p c r : Nat) (s : State) (h : g ≠ f) :
    (raise f p c r s).events.flags[g] = s.events.flags[g] := by
  have hv : f.val ≠ g.val := fun e => h (Fin.ext e.symm)
  simp only [raise, Events.raise, Events.post, Fin.getElem_fin]
  split <;> simp [Vector.getElem_set_ne _ _ hv]

/-! ## The reply queue (R4) -/

@[simp] theorem pushReply_replies (k sb : Byte) (b : ReplyBody) (s : State) :
    (pushReply k sb b s).port.replies = s.port.replies ++ [{ kind := k, sub := sb, body := b }] := rfl

theorem fillFirst_length (w : ReplyBody) (st : Status) (a : List Byte) (l : List ReplyEntry) :
    (fillFirst w st a l).length = l.length := by
  induction l with
  | nil => rfl
  | cons e t ih => simp only [fillFirst]; split <;> simp [ih]

/-- Filling a waiting entry keeps the number of entries. -/
@[simp] theorem fillReply_length (w : ReplyBody) (st : Status) (a : List Byte) (s : State) :
    (fillReply w st a s).port.replies.length = s.port.replies.length := fillFirst_length w st a _

@[simp] theorem fillReplies_length (w : ReplyBody) (st : Status) (a : List Byte) (s : State) :
    (fillReplies w st a s).port.replies.length = s.port.replies.length := by
  simp [fillReplies, fillEvery, mapPort]

/-! ## What follows at once -/

theorem settleJobs_quiet {s : State} (h : Quiet s) : settleJobs s = s := by
  have h1 : settleScanRestart s = s := by simp [settleScanRestart, h.scanJob]
  have h2 : zeroWaits s = s := by
    simp [zeroWaits, zeroWait, coderOf, h.scanTimer, h.scanDir, h.intTimer, h.intDir]
  have h3 : settleIntake s = s := by simp [settleIntake, h.intJob]
  have h4 : settlePass .print s = s := by simp [settlePass, passOf, h.printDec]
  have h5 : settlePass .output s = s := by simp [settlePass, passOf, h.outDec]
  have h6 : settlePrint s = s := by simp [settlePrint, printMoves, h4, printDue, h.prtJob]
  have h7 : settleOutput s = s := by simp [settleOutput, h.outJob]
  have h8 : settleRoom s = s := by simp [settleRoom, h.scanDir, h.intDir]
  simp only [settleJobs, h1, h2, h3, h4, h5, h6, h7, h8]

theorem applyMotorTables_quiet {s : State} (h : Quiet s) : applyMotorTables s = s := by
  have ap : ∀ id : Fin 14, s.tables.pending[id] = none → applyPending id s = s := by
    intro id hid; unfold applyPending; rw [hid]
  have e : ∀ id : Fin 14, s.tables.pending[id] = none → (if tableInUse id s then s else applyPending id s) = s := by
    intro id hid; rw [ap id hid]; split <;> rfl
  simp only [applyMotorTables, List.foldl_cons, List.foldl_nil, e _ h.sramp, e _ h.sphase, e _ h.pramp, e _ h.pphase]

/-- In a quiet state only the idle timer and the arbiter move. -/
theorem settle_quiet {s : State} (h : Quiet s) : settle s = arbitrate (updateIdle s) := by
  have h1 : settleScanRestart s = s := by simp [settleScanRestart, h.scanJob]
  have h2 : settleScanEnd s = s := by simp [settleScanEnd, h.scanJob]
  simp only [settle, settleJobs_quiet h, h1, h2, applyMotorTables_quiet h]

/-- What a free port with a waiting requester comes to (R71). -/
theorem arbitrate_grants {s : State} {b : Burst} (hs : spillReady s = s) (hg : s.pmc.grant = none)
    (hr : s.pmc.selfRefresh = false) (hp : s.pmc.srPending = none) (hb : nextBurst s = some b) :
    arbitrate s = grantBurst b s := by
  simp [arbitrate, hs, hg, hr, hp, hb]

/-- A port in use, or in self-refresh, grants nothing; only a spill that was waiting may begin. -/
theorem arbitrate_busy {s : State} (h : s.pmc.grant.isSome = true ∨ s.pmc.selfRefresh = true) :
    arbitrate s = spillReady s := by
  have hp : (spillReady s).pmc = s.pmc := by
    unfold spillReady
    split
    · split <;> rfl
    · rfl
  unfold arbitrate
  dsimp only
  rw [hp]
  rcases h with h | h <;> simp [h]

/-- What a spill's turn to be written changes. -/
theorem spillReady_idle {s : State} (h : s.spill = .idle) : spillReady s = s := by
  simp [spillReady, h]

/-- A cold start keeps the DRAM, the lines, the kept wake source and the commands waiting, and nothing else (R183). -/
theorem coldStart_eq (s : State) :
    coldStart s = { State.reset with dram := s.dram, lines := s.lines, pending := s.pending,
                                     power := { Power.reset with keptSource := s.power.keptSource } } := rfl

end Sys2Proof.Machine
end

