-- ==== Sys2Proof/Laws/Calm.lean ====
section
/-! SUPPORT. What the shared operations do to the two channels: a FAULT stands, and with no job on it a channel's state stands. -/

-- one declaration after the other: run side by side, the proofs of the whole package hold more threads than memory has room for
set_option Elab.async false

namespace Sys2Proof.Machine

/-- What the two motors may do beside the jobs on them: a FAULT stands, and with no job on a channel its state stands. -/
def MotCalm (noJob : Prop) (m n : Motor) : Prop :=
  (m.state = .fault → n.state = .fault) ∧ (noJob → n.state = m.state)

/-- A spill that was waiting begins to be written. -/
def SpillMoves (a b : SpillEngine) : Prop := b = a ∨ ∃ w o d, a = .await w ∧ b = .write w o d

theorem SpillMoves.trans {a b c : SpillEngine} (h : SpillMoves a b) (k : SpillMoves b c) : SpillMoves a c := by
  rcases h with rfl | ⟨w, o, d, rfl, rfl⟩
  · exact k
  · rcases k with rfl | ⟨w', o', d', h1, _⟩
    · exact .inr ⟨w, o, d, rfl, rfl⟩
    · cases h1

theorem SpillMoves.idle {a b : SpillEngine} (h : SpillMoves a b) : a = .idle → b = .idle := by
  rintro rfl
  rcases h with rfl | ⟨w, o, d, h1, _⟩
  · rfl
  · cases h1

structure Calm (s t : State) : Prop where
  lines   : t.lines = s.lines
  boot    : t.boot.state = s.boot.state
  pst     : t.power.state = s.power.state
  pfail   : t.power.pfail = s.power.pfail
  entry   : t.power.entry = s.power.entry
  ret     : t.power.returning = s.power.returning
  latch   : t.power.coverLatch = s.power.coverLatch
  timer   : t.power.wakeTimer = s.power.wakeTimer
  sr      : t.pmc.srPending = s.pmc.srPending
  spill   : SpillMoves s.spill t.spill
  scan    : s.scanJob = none → t.scanJob = none
  prt     : s.prtJob = none → t.prtJob = none
  motS    : MotCalm (s.scanJob = none) s.motS t.motS
  motP    : MotCalm (s.prtJob = none) s.motP t.motP

theorem MotCalm.refl (p : Prop) (m : Motor) : MotCalm p m m := ⟨id, fun _ => rfl⟩
theorem MotCalm.of_eq {p : Prop} {m n : Motor} (h : n.state = m.state) : MotCalm p m n := ⟨fun k => h.trans k, fun _ => h⟩

theorem Calm.refl (s : State) : Calm s s := by
  constructor <;> first | rfl | exact .inl rfl | exact id | exact .refl _ _

theorem Calm.trans {s t u : State} (h : Calm s t) (k : Calm t u) : Calm s u := by
  constructor
  · exact k.lines.trans h.lines
  · exact k.boot.trans h.boot
  · exact k.pst.trans h.pst
  · exact k.pfail.trans h.pfail
  · exact k.entry.trans h.entry
  · exact k.ret.trans h.ret
  · exact k.latch.trans h.latch
  · exact k.timer.trans h.timer
  · exact k.sr.trans h.sr
  · exact h.spill.trans k.spill
  · exact fun x => k.scan (h.scan x)
  · exact fun x => k.prt (h.prt x)
  · exact ⟨fun x => k.motS.1 (h.motS.1 x), fun x => (k.motS.2 (h.scan x)).trans (h.motS.2 x)⟩
  · exact ⟨fun x => k.motP.1 (h.motP.1 x), fun x => (k.motP.2 (h.prt x)).trans (h.motP.2 x)⟩

theorem calm_ite {s t u : State} {p : Prop} [Decidable p] (h : Calm s t) (k : Calm s u) : Calm s (if p then t else u) := by
  split
  · exact h
  · exact k

theorem none_of_isNone {α β : Type} {a : Option α} {b : Option β} (h : b.isNone = a.isNone) : a = none → b = none := by
  rintro rfl; simpa using h

/-- A page operation is calm. -/
theorem calm_of {s t : State} (h : Shell s t) (k : Beside s t) : Calm s t := by
  constructor
  · exact h.lines
  · rw [h.boot]
  · rw [h.power]
  · rw [h.power]
  · rw [h.power]
  · rw [h.power]
  · rw [h.power]
  · rw [h.power]
  · exact k.sr
  · exact .inl h.spill
  · intro x
    have := k.scanJob
    rw [x] at this
    simpa using this
  · exact none_of_isNone k.prtJob
  · rw [h.motS]; exact .refl _ _
  · rw [h.motP]; exact .refl _ _

theorem calm_raise (f : Fin 20) (p c r : Nat) (s : State) : Calm s (raise f p c r s) := calm_of (shell_raise ..) (beside_raise ..)
theorem calm_serveWaiters (s : State) : Calm s (serveWaiters s) := calm_of (shell_serveWaiters ..) (beside_serveWaiters ..)
theorem calm_pumpAsk (c : CoderCtx) (s : State) : Calm s (pumpAsk c s) := calm_of (shell_pumpAsk ..) (beside_pumpAsk ..)
theorem calm_setCoder (c : CoderCtx) (x : Coder) (s : State) : Calm s (setCoder c x s) := by
  cases c <;> constructor <;> first | rfl | exact .inl rfl | exact id | exact .refl _ _
theorem calm_mapCoder (c : CoderCtx) (f : Coder → Coder) (s : State) : Calm s (mapCoder c f s) := calm_setCoder c _ s
theorem calm_askBlock (c : CoderCtx) (s : State) : Calm s (askBlock c s) := (calm_mapCoder ..).trans (calm_pumpAsk ..)
theorem calm_idleCoder (c : CoderCtx) (s : State) : Calm s (idleCoder c s) := calm_of (shell_idleCoder ..) (beside_idleCoder ..)
theorem calm_setPass (c : DecoderCtx) (p : Option Pass) (s : State) : Calm s (setPass c p s) := by
  cases c <;> constructor <;> first | rfl | exact .inl rfl | exact id | exact .refl _ _
theorem calm_mapPmc {f : Pmc → Pmc} {s : State} (h : (f s.pmc).srPending = s.pmc.srPending) : Calm s (mapPmc f s) := by
  constructor <;> first | exact h | rfl | exact .inl rfl | exact id | exact .refl _ _
theorem calm_killGrant (f : Burst → Bool) (s : State) : Calm s (killGrant f s) := calm_mapPmc rfl
theorem calm_idleDecoder (c : DecoderCtx) (s : State) : Calm s (idleDecoder c s) := (calm_setPass ..).trans (calm_killGrant ..)
theorem calm_mapDram (f : Memory → Memory) (s : State) : Calm s (mapDram f s) := by
  constructor <;> first | rfl | exact .inl rfl | exact id | exact .refl _ _
theorem calm_mapDir (f : Directory → Directory) (s : State) : Calm s (mapDir f s) := by
  constructor <;> first | rfl | exact .inl rfl | exact id | exact .refl _ _
theorem calm_mapEntry (i : Nat) (f : Entry → Entry) (s : State) : Calm s (mapEntry i f s) := calm_mapDir _ s
theorem calm_mapRings (f : Rings → Rings) (s : State) : Calm s (mapRings f s) := by
  constructor <;> first | rfl | exact .inl rfl | exact id | exact .refl _ _
theorem calm_mapFront (f : ScanFront → ScanFront) (s : State) : Calm s (mapFront f s) := by
  constructor <;> first | rfl | exact .inl rfl | exact id | exact .refl _ _
theorem calm_mapTemp (f : Temperature → Temperature) (s : State) : Calm s (mapTemp f s) := by
  constructor <;> first | rfl | exact .inl rfl | exact id | exact .refl _ _
theorem calm_mapPort (f : Port → Port) (s : State) : Calm s (mapPort f s) := by
  constructor <;> first | rfl | exact .inl rfl | exact id | exact .refl _ _
theorem calm_mapPrtJob (f : PrintJob → PrintJob) (s : State) : Calm s (mapPrtJob f s) := by
  constructor <;> first | rfl | exact .inl rfl | exact id | exact .refl _ _ | (intro h; simp [mapPrtJob, h])
theorem calm_mapIntJob (f : IntakeJob → IntakeJob) (s : State) : Calm s (mapIntJob f s) := by
  constructor <;> first | rfl | exact .inl rfl | exact id | exact .refl _ _
theorem calm_mapScanJob (f : ScanJob → ScanJob) (s : State) : Calm s (mapScanJob f s) := by
  constructor <;> first | rfl | exact .inl rfl | exact id | exact .refl _ _ | (intro h; simp [mapScanJob, h])
theorem calm_emptyPrintRing (s : State) : Calm s (emptyPrintRing s) := calm_mapRings _ s
theorem calm_emptyOutputRing (s : State) : Calm s (emptyOutputRing s) := calm_mapRings _ s
theorem calm_emptyScanRing (s : State) : Calm s (emptyScanRing s) := by
  constructor <;> first | rfl | exact .inl rfl | exact id | exact .refl _ _
theorem calm_emptyIntakeRing (s : State) : Calm s (emptyIntakeRing s) := calm_mapRings _ s
theorem calm_clearIntakeLine (s : State) : Calm s (clearIntakeLine s) := calm_mapPort _ s
theorem calm_endDirwait (c : CoderCtx) (s : State) : Calm s (endDirwait c s) := calm_mapCoder c _ s
theorem calm_enterDirwait (c : CoderCtx) (s : State) : Calm s (enterDirwait c s) :=
  (calm_mapCoder c _ s).trans (calm_raise ..)
theorem calm_releasePlace (s : State) : Calm s (releasePlace s) := calm_mapDir _ s
theorem calm_createEntry (o : Origin) (r : Resolution) (w : CoderCtx) (s : State) : Calm s (createEntry o r w s) :=
  calm_mapDir _ s

theorem calm_completePage (c : CoderCtx) (t q : Bool) (s : State) : Calm s (completePage c t q s) :=
  calm_of (shell_completePage ..) (beside_completePage ..)
theorem calm_discardPage (i : Nat) (r : Bool) (s : State) : Calm s (discardPage i r s) :=
  calm_of (shell_discardPage ..) (beside_discardPage ..)
theorem calm_discardWritten (c : CoderCtx) (s : State) : Calm s (discardWritten c s) :=
  calm_of (shell_discardWritten ..) (beside_discardWritten ..)
theorem calm_applyPolicy (c : CoderCtx) (p : Policy) (s : State) : Calm s (applyPolicy c p s) :=
  calm_of (shell_applyPolicy ..) (beside_applyPolicy ..)
theorem calm_discardWaiting (c : CoderCtx) (s : State) : Calm s (discardWaiting c s) :=
  calm_of (shell_discardWaiting ..) (beside_discardWaiting ..)
theorem calm_removeReader (c : DecoderCtx) (i : Nat) (s : State) : Calm s (removeReader c i s) :=
  calm_of (shell_removeReader ..) (beside_removeReader ..)
theorem calm_dropEntry (e : Entry) (c : Option Nat) (s : State) : Calm s (dropEntry e c s) :=
  calm_of (shell_dropEntry ..) (beside_dropEntry ..)
theorem calm_settleEmpty (i : Nat) (s : State) : Calm s (settleEmpty i s) :=
  calm_of (shell_settleEmpty ..) (beside_settleEmpty ..)
theorem calm_moveReader (c : DecoderCtx) (i l b : Nat) (s : State) : Calm s (moveReader c i l b s) := by
  cases c <;> exact calm_mapEntry i _ s
theorem calm_leaveBlock (c : DecoderCtx) (i b l o : Nat) (s : State) : Calm s (leaveBlock c i b l o s) := by
  unfold leaveBlock
  split
  · exact .refl s
  · split
    · exact .refl s
    · split
      · exact ((calm_mapEntry i _ s).trans (calm_of (shell_freeSingle ..) (beside_freeSingle ..))).trans (calm_mapEntry i _ _)
      · exact .refl s

/-! ## The coder and decoder contexts -/

theorem calm_beginCoding (c : CoderCtx) (s : State) : Calm s (beginCoding c s) := by
  unfold beginCoding
  dsimp only
  split
  · exact (calm_setCoder ..).trans (calm_askBlock ..)
  · exact calm_setCoder ..

theorem calm_takeUpScan (s : State) : Calm s (takeUpScan s) := by
  unfold takeUpScan
  split
  · exact .refl s
  · exact (calm_mapCoder ..).trans (calm_beginCoding ..)

theorem calm_takeUpIntake (s : State) : Calm s (takeUpIntake s) := by
  unfold takeUpIntake
  split
  · exact .refl s
  · split
    · exact ((calm_createEntry ..).trans (calm_mapCoder ..)).trans (calm_beginCoding ..)
    · exact calm_enterDirwait ..

theorem calm_coderStart (c : CoderCtx) (s : State) : Calm s (coderStart c s) := by
  unfold coderStart
  split
  · split
    · exact calm_beginCoding ..
    · exact calm_takeUpScan s
    · exact calm_takeUpIntake s
  · exact .refl s

theorem calm_freeCodedSlot (c : CoderCtx) (s : State) : Calm s (freeCodedSlot c s) := by
  unfold freeCodedSlot
  split
  · exact calm_mapRings ..
  · dsimp only
    split
    · exact ((calm_mapRings ..).trans (calm_mapRings ..)).trans (calm_raise ..)
    · exact calm_mapRings ..

theorem calm_lineCoded (c : CoderCtx) (s : State) : Calm s (lineCoded c s) :=
  ((calm_mapEntry ..).trans (calm_setCoder ..)).trans (calm_freeCodedSlot ..)

theorem calm_enterRing (c : DecoderCtx) (x : Slot) (s : State) : Calm s (enterRing c x s) := calm_mapRings ..

theorem calm_placeLine (c : DecoderCtx) (p : Pass) (l : Line) (r o : Bool) (s : State) : Calm s (placeLine c p l r o s) :=
  ((calm_enterRing ..).trans (calm_setPass ..)).trans (calm_moveReader ..)

theorem calm_leaveAll (c : DecoderCtx) (i l o : Nat) (bs : List Nat) : ∀ s : State, Calm s (leaveAll c i l o bs s) := by
  unfold leaveAll
  induction bs with
  | nil => exact .refl
  | cons b bs ih => exact fun s => (calm_leaveBlock ..).trans (ih _)

theorem calm_countDamage (i : Nat) (s : State) : Calm s (countDamage i s) := calm_mapEntry i _ s

theorem calm_finishLine (c : DecoderCtx) (p : Pass) (r : LineRead) (s : State) : Calm s (finishLine c p r s) := by
  unfold finishLine
  dsimp only
  split
  · exact (calm_placeLine ..).trans (calm_leaveAll ..)
  · have h : Calm s (if r.parity = true then raise evParity p.page 0 (parityReason c) (countDamage p.page s)
        else countDamage p.page s) := by
      split
      · exact (calm_countDamage ..).trans (calm_raise ..)
      · exact calm_countDamage ..
    split
    · exact (h.trans (calm_placeLine ..)).trans (calm_leaveAll ..)
    · exact h.trans (calm_placeLine ..)

theorem calm_decoderStart (c : DecoderCtx) (s : State) : Calm s (decoderStart c s) := by
  unfold decoderStart
  split
  · exact .refl s
  · split
    · split
      · exact (calm_countDamage ..).trans (calm_placeLine ..)
      · exact calm_setPass ..
    · exact .refl s

theorem calm_decodeBurst (c : DecoderCtx) (s : State) : Calm s (decodeBurst c s) := by
  unfold decodeBurst
  split
  · exact .refl s
  · split
    · exact .refl s
    · exact calm_finishLine ..
    · dsimp only
      split
      · split
        · exact calm_finishLine ..
        · unfold enterSuccessor
          dsimp only
          split
          · exact calm_setPass ..
          · exact (calm_setPass ..).trans (calm_moveReader ..)
      · have h : ∀ (q : Pass) (r : LineRead), Calm s (firstUnitRead c q r s) := by
          intro q r
          unfold firstUnitRead
          split
          · exact (calm_leaveAll ..).trans (calm_moveReader ..)
          · exact .refl s
        exact (h _ _).trans (calm_ite (calm_finishLine ..) (calm_setPass ..))

/-! ## Channel S under the scan -/

/-- Channel S moves under its job, not in FAULT. -/
theorem calm_motS {s : State} (m : Motor) (hf : s.motS.state ≠ .fault) (hj : s.scanJob ≠ none) :
    Calm s { s with motS := m } := by
  constructor <;> first | rfl | exact .inl rfl | exact (fun h => h) | exact MotCalm.refl _ _ | exact ⟨fun h => absurd h hf, fun h => absurd h hj⟩

theorem calm_motP {s : State} (m : Motor) (hf : s.motP.state ≠ .fault) (hj : s.prtJob ≠ none) :
    Calm s { s with motP := m } := by
  constructor <;> first | rfl | exact .inl rfl | exact (fun h => h) | exact MotCalm.refl _ _ | exact ⟨fun h => absurd h hf, fun h => absurd h hj⟩

theorem calm_motS_same {s : State} (m : Motor) (h : m.state = s.motS.state) : Calm s { s with motS := m } := by
  constructor <;> first | rfl | exact .inl rfl | exact (fun h => h) | exact MotCalm.refl _ _ | exact MotCalm.of_eq h

theorem calm_motP_same {s : State} (m : Motor) (h : m.state = s.motP.state) : Calm s { s with motP := m } := by
  constructor <;> first | rfl | exact .inl rfl | exact (fun h => h) | exact MotCalm.refl _ _ | exact MotCalm.of_eq h

theorem stop_state (m : Motor) (q : Nat) : (m.stop q).state = m.state := by
  unfold Motor.stop
  split
  · split <;> rfl
  all_goals rfl

/-- The job set to another while there is one. -/
theorem calm_scanJob {s : State} (j : Option ScanJob) (h : s.scanJob ≠ none) : Calm s { s with scanJob := j } := by
  constructor <;> first | rfl | exact .inl rfl | exact (fun h => h) | exact MotCalm.refl _ _ | exact fun k => absurd k h

theorem calm_prtJob {s : State} (j : Option PrintJob) (h : s.prtJob = none → j = none) : Calm s { s with prtJob := j } := by
  constructor <;> first | rfl | exact .inl rfl | exact (fun h => h) | exact MotCalm.refl _ _ | exact h

theorem calm_setActive (id : Fin 14) (img : List Byte) (s : State) : Calm s (setActive id img s) := by
  unfold setActive
  dsimp only
  split
  · constructor <;> first | rfl | exact .inl rfl | exact (fun h => h) | exact MotCalm.refl _ _
  · split
    · constructor <;> first | rfl | exact .inl rfl | exact (fun h => h) | exact MotCalm.refl _ _
    · split
      · constructor <;> first | rfl | exact .inl rfl | exact (fun h => h) | exact MotCalm.refl _ _
      · constructor <;> first | rfl | exact .inl rfl | exact (fun h => h) | exact MotCalm.refl _ _

theorem calm_setPending (id : Fin 14) (o : Option (List Byte)) (s : State) : Calm s (setPending id o s) := by
  constructor <;> first | rfl | exact .inl rfl | exact (fun h => h) | exact MotCalm.refl _ _

theorem calm_applyPending (id : Fin 14) (s : State) : Calm s (applyPending id s) := by
  unfold applyPending
  split
  · exact .refl s
  · exact ((calm_setActive ..).trans (calm_setPending ..)).trans (calm_raise ..)

theorem calm_applyAll (ids : List (Fin 14)) : ∀ s : State, Calm s (applyAll ids s) := by
  unfold applyAll
  induction ids with
  | nil => exact .refl
  | cons i is ih => exact fun s => (calm_applyPending i s).trans (ih _)

theorem calm_applyMotorTables (s : State) : Calm s (applyMotorTables s) := by
  have h : ∀ (ids : List (Fin 14)) (u : State),
      Calm u (ids.foldl (fun s id => if tableInUse id s then s else applyPending id s) u) := by
    intro ids
    induction ids with
    | nil => exact .refl
    | cons i is ih => exact fun u => (calm_ite (.refl u) (calm_applyPending i u)).trans (ih _)
  exact h _ s

theorem calm_settleScanPages (h : ScanSettle) (p : Policy) (s : State) : Calm s (settleScanPages h p s) := by
  have k : ∀ w : ScanSettle, Calm s (settleWritten w p s) := by
    intro w
    unfold settleWritten
    split
    · exact calm_applyPolicy ..
    · exact calm_completePage ..
    · exact calm_discardWritten ..
    · exact .refl s
  unfold settleScanPages
  split
  · exact .refl s
  all_goals exact (k _).trans (calm_discardWaiting ..)

theorem calm_scanDecision (r : Nat) (h : ScanSettle) (d : Option Nat) (s : State) : Calm s (scanDecision r h d s) := by
  unfold scanDecision
  split
  · exact .refl s
  · next j hj =>
    dsimp only
    generalize hX : ite (h = ScanSettle.leave) _ (emptyScanRing _) = X
    have hk : Calm s X := by
      rw [← hX]
      refine Calm.trans ?_ (calm_ite (.refl _) (calm_emptyScanRing _))
      exact (((calm_scanJob _ (by simp [hj])).trans (calm_settleScanPages ..)).trans (calm_releasePlace _)).trans
        (calm_endDirwait ..)
    exact hk.trans (calm_motS_same _ (stop_state _ _))

theorem calm_scanFaulted (s : State) : Calm s (scanFaulted s) := by
  unfold scanFaulted
  split
  · exact .refl s
  · split
    · exact (calm_settleScanPages ..).trans (calm_emptyScanRing _)
    · exact calm_scanDecision ..

theorem calm_jobGone (s : State) (f : ScanFront) (o : Owner) :
    Calm s { s with scanJob := none, front := f, motS := { s.motS with owner := o } } := by
  constructor <;> first | rfl | exact .inl rfl | exact (fun h => h) | exact MotCalm.refl _ _ | exact MotCalm.of_eq rfl | exact fun _ => rfl

theorem calm_endScan (j : ScanJob) (s : State) : Calm s (endScan j s) := by
  have h := (calm_emptyScanRing s).trans ((calm_jobGone (emptyScanRing s) { (emptyScanRing s).front with lamp := false }
    .nobody).trans (calm_raise evScanEnd j.lastCompleted 1 (scanEndReason j) _))
  unfold endScan
  dsimp only
  split
  · exact h
  · exact h.trans (calm_raise ..)

theorem calm_settleScanEnd (s : State) : Calm s (settleScanEnd s) := by
  unfold settleScanEnd
  split
  · exact .refl s
  · exact calm_ite (calm_endScan ..) (.refl s)

/-- A jam of the scan: nothing of the other channel, the power states or the lines changes. -/
theorem calm_scanJam (p r : Nat) (s : State) (hf : s.motS.state ≠ .fault) (hj : s.scanJob ≠ none) : Calm s (scanJam p r s) := by
  unfold scanJam
  dsimp only
  exact ((calm_raise evJam p 1 r s).trans (calm_motS _ hf hj)).trans (calm_scanDecision ..)

theorem calm_issueS {s : State} (hf : s.motS.state ≠ .fault) (hj : s.scanJob ≠ none) : Calm s (issueStep .S s) :=
  calm_motS _ hf hj

theorem calm_leadingEdge (s : State) : Calm s (leadingEdge s) := by
  unfold leadingEdge
  split
  · exact .refl s
  · next j hj =>
    exact ((calm_releasePlace s).trans (calm_createEntry ..)).trans (calm_scanJob _ (by simp [createEntry, releasePlace, hj]))

theorem calm_closingBoundary (s : State) : Calm s (closingBoundary s) := by
  unfold closingBoundary
  split
  · exact .refl s
  · next j hj =>
    have h : ∀ (k : ScanJob) (q : Nat), Calm s { s with scanJob := some k, motS := s.motS.stop q } := by
      intro k q
      exact (calm_scanJob (some k) (by simp [hj])).trans (calm_motS_same _ (stop_state _ _))
    split
    · split
      · exact (calm_mapDir (fun d => { d with places := d.places + 1 }) s).trans (calm_scanJob _ (by simp [mapDir, hj]))
      · exact (h _ _).trans (calm_enterDirwait ..)
    · exact h _ _

theorem applyPending_motS (id : Fin 14) (s : State) :
    (applyPending id s).motS.state = s.motS.state ∧ (applyPending id s).scanJob = s.scanJob := by
  unfold applyPending
  split
  · exact ⟨rfl, rfl⟩
  · simp only [setPending, raise, setActive]
    split
    · exact ⟨rfl, rfl⟩
    · split
      · exact ⟨rfl, rfl⟩
      · split <;> exact ⟨rfl, rfl⟩

theorem applyAll_motS (ids : List (Fin 14)) :
    ∀ s : State, (applyAll ids s).motS.state = s.motS.state ∧ (applyAll ids s).scanJob = s.scanJob := by
  unfold applyAll
  induction ids with
  | nil => exact fun s => ⟨rfl, rfl⟩
  | cons i is ih =>
    intro s
    have h := applyPending_motS i s
    have k := ih (applyPending i s)
    exact ⟨k.1.trans h.1, k.2.trans h.2⟩

theorem calm_pageStart (s : State) :
    Calm s (pageStart s) ∧ (pageStart s).motS.state = s.motS.state ∧ (pageStart s).scanJob = s.scanJob := by
  have h := calm_applyAll scanTables s
  have k := applyAll_motS scanTables s
  unfold pageStart
  generalize applyAll scanTables s = u at *
  exact ⟨h.trans (calm_mapFront (fun f => { f with errorRow := List.replicate 1728 0 }) u), k⟩

theorem issue_fault (m : Motor) (r : List Byte) (p : Nat) (h : m.state ≠ .fault) : (m.issue r p).state ≠ .fault := by
  unfold Motor.issue
  split <;> first | exact h | simp

theorem calm_boundaryStep (first : Bool) (j : ScanJob) {s : State} (hf : s.motS.state ≠ .fault) (hj : s.scanJob ≠ none) :
    Calm s (boundaryStep first j s) := by
  unfold boundaryStep
  split
  · exact calm_scanJam _ _ s hf hj
  · extract_lets s1 s2 last stop s3 s4 sx s5
    have h1 : Calm s s1 ∧ s1.motS.state = s.motS.state ∧ s1.scanJob = s.scanJob := by
      simp only [s1]
      split
      · exact calm_pageStart s
      · exact ⟨.refl s, rfl, rfl⟩
    have h2 : Calm s s2 := h1.1.trans (calm_mapRings ..)
    have h3 : Calm s s3 ∧ s3.motS.state = s.motS.state ∧ s3.scanJob = s.scanJob := by
      simp only [s3]
      split
      · exact ⟨h2.trans (calm_motS_same _ (stop_state _ _)), (stop_state _ _).trans h1.2.1, h1.2.2⟩
      · exact ⟨h2, h1.2⟩
    have h4 : Calm s s4 := h3.1.trans (calm_issueS (by rw [h3.2.1]; exact hf) (by rw [h3.2.2]; exact hj))
    have h5 : Calm s s5 := h4.trans ((calm_mapFront (fun f => { f with comp := some { y := j.y, last := last }, ditherRow := j.y % 4, ditherCol := 0 }) s4).trans
      (calm_scanJob _ (by show s3.scanJob ≠ none; rw [h3.2.2]; exact hj)))
    exact calm_ite (h5.trans (calm_closingBoundary _)) h5

theorem calm_scanStep (first : Bool) {s : State} (hf : s.motS.state ≠ .fault) (hj : s.scanJob ≠ none) :
    Calm s (scanStep first s) := by
  have pg : ∀ j : ScanJob, Calm s (pageStep first j s) := by
    intro j
    unfold pageStep
    extract_lets n j' s1
    have h1 : Calm s s1 := calm_scanJob _ hj
    exact calm_ite (h1.trans (calm_boundaryStep first j' hf (by simp [s1]))) (h1.trans (calm_issueS hf (by simp [s1])))
  unfold scanStep
  split
  · exact calm_issueS hf hj
  · next j _ =>
    split
    · unfold searchStep
      extract_lets s1
      have h1 : Calm s s1 := (calm_scanJob (some { j with searchCount := j.searchCount + 1 }) hj).trans
        (calm_issueS (s := { s with scanJob := some { j with searchCount := j.searchCount + 1 } }) hf (by simp))
      refine calm_ite (h1.trans (calm_leadingEdge _)) (calm_ite ?_ h1)
      exact h1.trans (calm_scanJam _ _ _ (issue_fault _ _ _ hf) (by simp [s1, issueStep, mapMotor, setMotor]))
    · exact pg j
    · exact pg j
    all_goals exact calm_issueS hf hj

theorem atRest_fault {m : Motor} (h : m.atRest = true) : m.state ≠ .fault := by
  intro k; simp [Motor.atRest, k] at h

theorem moving_fault {m : Motor} (h : m.moving = true) : m.state ≠ .fault := by
  intro k; simp [Motor.moving, k] at h

theorem calm_startScanRun (r : Bool) {s : State} (hf : s.motS.state ≠ .fault) (hj : s.scanJob ≠ none) :
    Calm s (startScanRun r s) := by
  unfold startScanRun
  split
  · exact .refl s
  · next j _ =>
    exact (calm_motS _ hf hj).trans (calm_scanStep r
      (s := mapMotor .S (fun m => m.beginRun (rampCount (rampTable .S s)) .scan false j.slewReq j.fig.slewUse none) s) hf hj)

theorem calm_settleScanRestart (s : State) : Calm s (settleScanRestart s) := by
  unfold settleScanRestart
  split
  · exact .refl s
  · next j hj =>
    split
    · next h =>
      simp only [scanRestartDue, Bool.and_eq_true] at h
      exact (calm_scanJob (some { j with pause := false, awaitRun := false }) (by simp [hj])).trans
        (calm_startScanRun true (s := { s with scanJob := some { j with pause := false, awaitRun := false } })
          (atRest_fault h.1.1.2) (by simp))
    · exact .refl s

theorem calm_scanRoom (s : State) : Calm s (scanRoom s) := by
  unfold scanRoom
  split
  · exact calm_endDirwait ..
  · next j hj =>
    have h : Calm s (endDirwait .scan { s with dir := { s.dir with places := s.dir.places + 1 } }) :=
      (calm_mapDir (fun d => { d with places := d.places + 1 }) s).trans (calm_endDirwait ..)
    dsimp only
    split
    · exact h.trans (calm_scanDecision ..)
    · exact h.trans (calm_scanJob _ (by simp [endDirwait, mapCoder, setCoder, hj]))

theorem calm_settleRoom (s : State) : Calm s (settleRoom s) := by
  unfold settleRoom
  dsimp only
  have h : Calm s (if s.scanCd.dirWait.isSome && hasRoom s then scanRoom s else s) := calm_ite (calm_scanRoom s) (.refl s)
  exact h.trans (calm_ite ((calm_endDirwait ..).trans (calm_takeUpIntake _)) (.refl _))

theorem calm_intGone (s : State) : Calm s { s with intJob := none } := by
  constructor <;> first | rfl | exact .inl rfl | exact (fun h => h) | exact MotCalm.refl _ _

theorem calm_endIntake (r : Nat) (s : State) : Calm s (endIntake r s) := by
  unfold endIntake
  split
  · exact .refl s
  · exact (((((calm_emptyIntakeRing s).trans (calm_idleCoder ..)).trans (calm_endDirwait ..)).trans
      (calm_clearIntakeLine _)).trans (calm_intGone _)).trans (calm_raise ..)

theorem calm_closePage (s : State) : Calm s (closePage s) := by
  unfold closePage
  split
  · exact .refl s
  · split
    · exact .refl s
    · exact calm_ite (calm_discardPage ..) (calm_completePage ..)

theorem calm_settleIntake (s : State) : Calm s (settleIntake s) := by
  unfold settleIntake
  split
  · exact .refl s
  · exact calm_ite ((calm_closePage s).trans (calm_endIntake ..)) (.refl s)

theorem calm_intakeMemExpiry (s : State) : Calm s (intakeMemExpiry s) := by
  unfold intakeMemExpiry
  split
  · exact .refl s
  · exact (calm_applyPolicy ..).trans (calm_endIntake ..)

theorem calm_memExpire (c : CoderCtx) (s : State) : Calm s (memExpire c s) := by
  unfold memExpire
  split
  · split
    · exact calm_scanDecision ..
    · exact calm_intakeMemExpiry s
  · exact .refl s

theorem calm_dirExpire (c : CoderCtx) (s : State) : Calm s (dirExpire c s) := by
  unfold dirExpire
  split
  · exact calm_ite ((calm_endDirwait ..).trans (calm_scanDecision ..)) (.refl s)
  · exact calm_ite ((calm_endDirwait ..).trans (calm_endIntake ..)) (.refl s)

theorem calm_zeroWaits (s : State) : Calm s (zeroWaits s) := by
  have h : ∀ (c : CoderCtx) (u : State), Calm u (zeroWait c u) := by
    intro c u
    unfold zeroWait
    dsimp only
    exact (calm_ite (calm_memExpire c u) (.refl u)).trans (calm_ite (calm_dirExpire ..) (.refl _))
  exact (h .scan s).trans (h .intake _)

theorem calm_settleOutput (s : State) : Calm s (settleOutput s) := by
  have h : Calm s { s with outJob := none } := by
    constructor <;> first | rfl | exact .inl rfl | exact (fun h => h) | exact MotCalm.refl _ _
  unfold settleOutput
  split
  · exact .refl s
  · exact calm_ite ((h.trans (calm_removeReader ..)).trans (calm_raise ..)) (.refl s)

theorem calm_settlePass (c : DecoderCtx) (s : State) : Calm s (settlePass c s) := by
  unfold settlePass
  split
  · exact .refl s
  · split
    · split
      · exact (calm_idleDecoder ..).trans (calm_mapPrtJob ..)
      · exact calm_idleDecoder ..
    · exact .refl s

/-! ## The print engine -/

theorem calm_requestP (r : MotorRequest) {s : State} (hj : s.prtJob ≠ none) : Calm s (requestP r s).1 := by
  unfold requestP
  split
  · exact .refl s
  · next hf =>
    have hf : s.motP.state ≠ .fault := by simpa [Motor.faulted] using hf
    split
    · exact calm_motP_same _ rfl
    · split
      · exact calm_motP _ hf hj
      · exact calm_motP _ hf hj

theorem calm_askSteps (k : Stepping) (r : MotorRequest) (n : Nat) {s : State} (hj : s.prtJob ≠ none) :
    Calm s (askSteps k r n s) := by
  unfold askSteps
  extract_lets x
  have h : Calm s x.1 := (calm_mapPrtJob _ s).trans (calm_requestP r (by simpa [mapPrtJob] using hj))
  exact calm_ite h (h.trans (calm_mapPrtJob ..))

theorem calm_staleSpellBegins (p : Nat) (s : State) : Calm s (staleSpellBegins p s) := by
  unfold staleSpellBegins
  split
  · exact .refl s
  · exact (calm_mapTemp ..).trans (calm_raise ..)

theorem staleSpellBegins_prtJob (p : Nat) (s : State) : (staleSpellBegins p s).prtJob = s.prtJob := by
  unfold staleSpellBegins; split <;> rfl

theorem calm_strobeLine (s : State) : Calm s (strobeLine s) := by
  unfold strobeLine
  split
  · exact .refl s
  · next j hj =>
    have h := calm_staleSpellBegins j.page s
    have k := staleSpellBegins_prtJob j.page s
    dsimp only
    split
    · exact h.trans (calm_askSteps _ _ _ (by rw [k, hj]; simp))
    · exact h.trans (calm_prtJob _ (by rw [k, hj]; simp))

theorem applyPending_prtJob (id : Fin 14) (s : State) : (applyPending id s).prtJob = s.prtJob := by
  unfold applyPending
  split
  · rfl
  · simp only [setPending, raise, setActive]
    split
    · rfl
    · split
      · rfl
      · split <;> rfl

theorem calm_copyItems (s : State) : Calm s (copyItems s) := (calm_applyAll ..).trans (calm_mapPrtJob ..)

theorem calm_restartPass (p : Nat) (s : State) : Calm s (restartPass p s) := by
  unfold restartPass
  split
  · exact .refl s
  · exact (calm_moveReader ..).trans (calm_setPass ..)

theorem calm_nextCopy (s : State) : Calm s (nextCopy s) := by
  unfold nextCopy
  split
  · exact .refl s
  · next j hj =>
    exact (((calm_prtJob (some { j with copy := j.copy + 1 }) (by simp [hj])).trans (calm_emptyPrintRing _)).trans
      (calm_restartPass ..)).trans (calm_copyItems _)

theorem calm_afterExit (s : State) : Calm s (afterExit s) := by
  unfold afterExit
  extract_lets s1
  have h : Calm s s1 := (calm_mapPrtJob ..).trans (calm_applyMotorTables _)
  split
  · exact h
  · next j hj => exact h.trans (calm_ite (calm_nextCopy _) (calm_prtJob _ (by simp [hj])))

theorem calm_pageEnd (s : State) : Calm s (pageEnd s) := by
  unfold pageEnd
  split
  · exact .refl s
  · next j hj =>
    extract_lets s1
    have h : Calm s s1 := calm_prtJob _ (by simp [hj])
    exact calm_ite (h.trans (calm_askSteps _ _ _ (by simp [s1]))) (h.trans (calm_afterExit _))

theorem calm_takeSource (n : Nat) : ∀ s : State, Calm s (takeSource n s).1 := by
  induction n with
  | zero => exact .refl
  | succ n ih =>
    intro s
    unfold takeSource
    split
    · exact .refl s
    · next j hj =>
      split
      · split
        · exact calm_pageEnd s
        · exact calm_prtJob _ (by simp [hj])
      · extract_lets x a s1
        have h : Calm s s1 := (calm_prtJob _ (by simp [hj])).trans (calm_mapRings ..)
        split
        · split
          · exact h.trans (calm_pageEnd _)
          · exact h.trans (ih _)
        · exact h

theorem calm_lineStart (s : State) : Calm s (lineStart s) := by
  unfold lineStart
  split
  · exact .refl s
  · next j hj =>
    have set : ∀ k : PrintJob, Calm s { s with prtJob := some k } := fun k => calm_prtJob _ (by simp [hj])
    split
    · exact calm_mapPrtJob ..
    · split
      · exact (calm_mapPrtJob ..).trans (calm_raise ..)
      · split
        · exact (set _).trans (calm_raise ..)
        · split
          · exact (set _).trans (calm_strobeLine _)
          · extract_lets x
            have h : Calm s x.1 := by
              simp only [x]
              split
              · exact calm_takeSource _ s
              · exact .refl s
            exact calm_ite ((h.trans (calm_mapPrtJob ..)).trans (calm_strobeLine _)) h

theorem calm_endPrint (j : PrintJob) (s : State) : Calm s (endPrint j s) :=
  ((((calm_prtJob none (fun _ => rfl)).trans (calm_idleDecoder ..)).trans (calm_emptyPrintRing _)).trans
    (calm_removeReader ..)).trans (calm_raise ..)

theorem calm_endingMove (j : PrintJob) {s : State} (hj : s.prtJob ≠ none) : Calm s (endingMove j s) := by
  have set : ∀ k : PrintJob, Calm s { s with prtJob := some k } := fun k => calm_prtJob _ (by simp [hj])
  unfold endingMove
  exact calm_ite (.refl s) (calm_ite ((set _).trans (calm_askSteps _ _ _ (by simp)))
    (((set _).trans (calm_applyMotorTables _)).trans (calm_endPrint ..)))

theorem calm_printMove (s : State) : Calm s (printMove s) := by
  unfold printMove
  split
  · exact .refl s
  · next j hj =>
    split
    · exact calm_lineStart s
    · exact calm_ite (calm_lineStart s) (calm_ite (calm_pageEnd s) (.refl s))
    · exact calm_endingMove j (by simp [hj])
    all_goals exact .refl s

theorem calm_settlePrint (s : State) : Calm s (settlePrint s) := by
  have h : ∀ (n : Nat) (u : State), Calm u (printMoves n u) := by
    intro n
    induction n with
    | zero => exact fun u => calm_settlePass .print u
    | succ n ih =>
      intro u
      unfold printMoves
      exact calm_ite (((calm_settlePass .print u).trans (calm_printMove _)).trans (ih _)) (calm_settlePass .print u)
  exact h 400 s

/-! ## What follows at once -/

theorem calm_settleJobs (s : State) : Calm s (settleJobs s) :=
  (((((((calm_settleScanRestart s).trans (calm_zeroWaits _)).trans (calm_settleIntake _)).trans
    (calm_settlePass .print _)).trans (calm_settlePass .output _)).trans (calm_settlePrint _)).trans
    (calm_settleOutput _)).trans (calm_settleRoom _)

theorem calm_setIdle (t : Option Nat) (s : State) : Calm s (setIdle t s) := by
  constructor <;> first | rfl | exact .inl rfl | exact (fun h => h) | exact MotCalm.refl _ _

theorem calm_updateIdle (s : State) : Calm s (updateIdle s) := by
  unfold updateIdle
  exact calm_ite (calm_ite (.refl s) (calm_setIdle ..)) (calm_setIdle ..)

theorem calm_restartIdle (s : State) : Calm s (restartIdle s) := calm_setIdle ..

theorem calm_spillReady (s : State) : Calm s (spillReady s) := by
  unfold spillReady
  split
  · next w hw =>
    refine calm_ite ?_ (.refl s)
    constructor <;> first | rfl | exact .inl rfl | exact (fun h => h) | exact MotCalm.refl _ _ | exact .inr ⟨w, _, _, hw, rfl⟩
  · exact .refl s

theorem calm_grantBurst (b : Burst) (s : State) : Calm s (grantBurst b s) := calm_mapPmc rfl

theorem calm_arbitrate (s : State) : Calm s (arbitrate s) := by
  unfold arbitrate
  extract_lets s1
  have h : Calm s s1 := calm_spillReady s
  refine calm_ite h ?_
  split
  · exact h.trans (calm_grantBurst ..)
  · split
    · exact h
    · exact h.trans (calm_grantBurst ..)

/-- What follows a command at once moves no channel that no job is on, and no line, power state or boot state. -/
theorem calm_settle (s : State) : Calm s (settle s) :=
  ((((((calm_settleJobs s).trans (calm_settleJobs _)).trans (calm_settleScanRestart _)).trans (calm_settleScanEnd _)).trans
    (calm_applyMotorTables _)).trans (calm_updateIdle _)).trans (calm_arbitrate _)

end Sys2Proof.Machine
end

