-- ==== Sys2Proof/Laws/Accounting.lean ====
section
/-! SUPPORT. The block accounting under the page operations: allocation, freeing, completion, discard, readers. -/

-- one declaration after the other: run side by side, the proofs of the whole package hold more threads than memory has room for
set_option Elab.async false

namespace Sys2Proof.Machine

/-- The blocks of a directory's entries, but for one page's. -/
def blockSum (x : Option Nat) (es : List Entry) : Nat :=
  ((es.filter fun e => x ≠ some e.id).map Entry.blockCount).sum

/-- The page accounting: no two entries share an id; a coder context writes a FILLING page of its own, which has the block
it holds; the free count and the entries' blocks (but for those of the page `x`), with `k` blocks in passage, make `K`. -/
structure Core (x : Option Nat) (K k : Nat) (s : State) : Prop where
  ids      : (s.dir.entries.map Entry.id).Nodup
  coder    : ∀ c id, (coderOf c s).page = some id → x ≠ some id ∧
    ∃ e ∈ s.dir.entries, e.id = id ∧ e.state = .filling ∧ e.writer = some c ∧ ((coderOf c s).block ≠ none → 1 ≤ e.blockCount)
  free     : ∀ c, (coderOf c s).page = none →
    (coderOf c s).block = none ∧ (coderOf c s).asking = false ∧ (coderOf c s).st ≠ .memwait ∧ (coderOf c s).todo = []
  law      : s.pmc.build = none → s.pmc.count + blockSum x s.dir.entries + k = K
  building : s.pmc.build ≠ none → s.pmc.count = 0 ∧ blockSum x s.dir.entries + k = 0

theorem blockSum_none (es : List Entry) : blockSum none es = (es.map Entry.blockCount).sum := by
  simp [blockSum]

theorem unique_id {es : List Entry} (h : (es.map Entry.id).Nodup) {a b : Entry} (ha : a ∈ es) (hb : b ∈ es) (k : a.id = b.id) :
    a = b := by
  exact List.inj_on_of_nodup_map h ha hb k

/-- The sum with one page's blocks apart. -/
theorem blockSum_split {es : List Entry} (h : (es.map Entry.id).Nodup) {e : Entry} (he : e ∈ es) :
    blockSum none es = blockSum (some e.id) es + e.blockCount := by
  induction es with
  | nil => cases he
  | cons a t ih =>
    simp only [List.map_cons, List.nodup_cons] at h
    rcases List.mem_cons.mp he with rfl | ht
    · have : (t.filter fun b => some e.id ≠ some b.id) = t := by
        refine List.filter_eq_self.mpr fun b hb => ?_
        have : e.id ≠ b.id := fun q => h.1 (q ▸ List.mem_map_of_mem hb)
        simp [this]
      unfold blockSum
      have r : ((e :: t).filter fun b => some e.id ≠ some b.id) = t := by
        rw [List.filter_cons_of_neg (by simp)]; exact this
      rw [r, List.filter_eq_self.mpr (by simp)]
      simp only [List.map_cons, List.sum_cons]
      omega
    · have ne : some e.id ≠ some a.id := by
        intro q
        injection q with q
        exact h.1 (q ▸ List.mem_map_of_mem ht)
      have := ih h.2 ht
      simp only [blockSum] at this ⊢
      rw [List.filter_cons_of_pos (by simp), List.filter_cons_of_pos (by simpa using ne)]
      simp only [List.map_cons, List.sum_cons]
      omega

/-- A change of entries that keeps each one's id and block count keeps the sum. -/
theorem blockSum_map {es : List Entry} (x : Option Nat) (f : Entry → Entry) (hi : ∀ e, (f e).id = e.id)
    (hb : ∀ e, (f e).blockCount = e.blockCount) : blockSum x (es.map f) = blockSum x es := by
  induction es with
  | nil => rfl
  | cons a t ih =>
    simp only [blockSum, List.map_cons, List.filter_cons, hi] at ih ⊢
    split
    · simp only [List.map_cons, List.sum_cons, hb, ih]
    · exact ih

/-- One entry's block count set, among entries of distinct ids. -/
theorem blockSum_set {es : List Entry} (x : Option Nat) (h : (es.map Entry.id).Nodup) {e : Entry} (he : e ∈ es) (hx : x ≠ some e.id)
    (f : Entry → Entry) (hi : ∀ e, (f e).id = e.id) :
    blockSum x (es.map fun a => if a.id = e.id then f a else a) + e.blockCount = blockSum x es + (f e).blockCount := by
  induction es with
  | nil => cases he
  | cons a t ih =>
    simp only [List.map_cons, List.nodup_cons] at h
    by_cases q : a.id = e.id
    · have ae : e = a := by
        rcases List.mem_cons.mp he with w | w
        · exact w
        · exact absurd (q ▸ List.mem_map_of_mem w) h.1
      subst ae
      have rest : (t.map fun a => if a.id = e.id then f a else a) = t := by
        conv_rhs => rw [← List.map_id t]
        refine List.map_congr_left fun b hb => ?_
        have : b.id ≠ e.id := fun w => h.1 (w ▸ List.mem_map_of_mem hb)
        simp [this]
      simp only [List.map_cons, if_true, rest, blockSum]
      rw [List.filter_cons_of_pos (by simpa [hi] using hx), List.filter_cons_of_pos (by simpa using hx)]
      simp only [List.map_cons, List.sum_cons]
      omega
    · have ht : e ∈ t := (List.mem_cons.mp he).resolve_left fun w => q (by rw [w])
      have := ih h.2 ht
      simp only [blockSum, List.map_cons, if_neg q, List.filter_cons] at this ⊢
      split
      · simp only [List.map_cons, List.sum_cons] at this ⊢
        omega
      · exact this

theorem blockSum_zero {es : List Entry} {x : Option Nat} (h : blockSum x es = 0) {e : Entry} (he : e ∈ es) (hx : x ≠ some e.id) :
    e.blockCount = 0 := by
  induction es with
  | nil => cases he
  | cons a t ih =>
    simp only [blockSum, List.filter_cons] at h ih
    rcases List.mem_cons.mp he with rfl | w
    · rw [if_pos (by simpa using hx)] at h
      simp only [List.map_cons, List.sum_cons] at h; omega
    · split at h
      · simp only [List.map_cons, List.sum_cons] at h
        exact ih (by omega) w
      · exact ih h w

theorem entryOf_mem {i : Nat} {s : State} {e : Entry} (h : entryOf i s = some e) : e ∈ s.dir.entries ∧ e.id = i := by
  refine ⟨List.mem_of_find?_eq_some h, ?_⟩
  have := List.find?_some h
  simpa using this

theorem entryOf_of_mem {s : State} (h : (s.dir.entries.map Entry.id).Nodup) {e : Entry} (he : e ∈ s.dir.entries) :
    entryOf e.id s = some e := by
  unfold entryOf
  cases k : s.dir.entries.find? fun a => decide (a.id = e.id)
  · have := List.find?_eq_none.mp k e he
    simp at this
  · next a =>
    have m := List.mem_of_find?_eq_some k
    have i := List.find?_some k
    rw [unique_id h m he (by simpa using i)]

/-! ## Frames -/

/-- The accounting hangs on the entries, the coder contexts, the free count and the build alone. -/
theorem Core.same {x : Option Nat} {K k : Nat} {s t : State} (h : Core x K k s) (d : t.dir.entries = s.dir.entries)
    (c : ∀ c, coderOf c t = coderOf c s) (n : t.pmc.count = s.pmc.count) (b : t.pmc.build = s.pmc.build) : Core x K k t := by
  constructor
  · rw [d]; exact h.ids
  · intro c' i; rw [c, d]; exact h.coder c' i
  · intro c'; rw [c]; exact h.free c'
  · rw [n, b, d]; exact h.law
  · rw [n, b, d]; exact h.building

theorem core_mapPmc {x : Option Nat} {K k : Nat} {s : State} (h : Core x K k s) {f : Pmc → Pmc} (n : (f s.pmc).count = s.pmc.count)
    (b : (f s.pmc).build = s.pmc.build) : Core x K k (mapPmc f s) :=
  h.same rfl (fun c => by cases c <;> rfl) n b

/-- A coder context changed with its page kept. -/
theorem core_setCoder {x : Option Nat} {K k : Nat} {s : State} (h : Core x K k s) (c : CoderCtx) (y : Coder)
    (hp : y.page = (coderOf c s).page) (hb : y.block = (coderOf c s).block)
    (ha : y.page = none → y.asking = false ∧ y.st ≠ .memwait ∧ y.todo = []) : Core x K k (setCoder c y s) := by
  have cs : coderOf c (setCoder c y s) = y := by cases c <;> rfl
  have co : ∀ d, d ≠ c → coderOf d (setCoder c y s) = coderOf d s := by
    intro d hd; cases c <;> cases d <;> first | rfl | exact absurd rfl hd
  have ds : (setCoder c y s).dir = s.dir := by cases c <;> rfl
  have ps : (setCoder c y s).pmc = s.pmc := by cases c <;> rfl
  constructor
  · rw [ds]; exact h.ids
  · intro d i
    by_cases hd : d = c
    · subst hd; rw [cs, ds, hp, hb]; exact h.coder d i
    · rw [co d hd, ds]; exact h.coder d i
  · intro d
    by_cases hd : d = c
    · subst hd; rw [cs]
      intro q
      refine ⟨?_, ha q⟩
      rw [hb]; exact (h.free d (hp ▸ q)).1
    · rw [co d hd]; exact h.free d
  · rw [ds, ps]; exact h.law
  · rw [ds, ps]; exact h.building

/-- Entries changed with each one's id, block count, state and writer kept. -/
theorem core_mapEntry {x : Option Nat} {K k : Nat} {s : State} (h : Core x K k s) (i : Nat) (f : Entry → Entry)
    (hf : ∀ e, (f e).id = e.id ∧ (f e).blockCount = e.blockCount ∧ (f e).state = e.state ∧ (f e).writer = e.writer := by
      intro e; exact ⟨rfl, rfl, rfl, rfl⟩) :
    Core x K k (mapEntry i f s) := by
  have g : ∀ e : Entry, (if e.id = i then f e else e).id = e.id ∧ (if e.id = i then f e else e).blockCount = e.blockCount ∧
      (if e.id = i then f e else e).state = e.state ∧ (if e.id = i then f e else e).writer = e.writer := by
    intro e; split
    · exact hf e
    · exact ⟨rfl, rfl, rfl, rfl⟩
  have cd : ∀ c, coderOf c (mapEntry i f s) = coderOf c s := by intro c; cases c <;> rfl
  have sm : blockSum x (mapEntry i f s).dir.entries = blockSum x s.dir.entries :=
    blockSum_map x _ (fun e => (g e).1) (fun e => (g e).2.1)
  constructor
  · have : (mapEntry i f s).dir.entries.map Entry.id = s.dir.entries.map Entry.id := by
      show (s.dir.entries.map _).map Entry.id = _
      rw [List.map_map]
      exact List.map_congr_left fun e _ => (g e).1
    rw [this]; exact h.ids
  · intro c j
    rw [cd]
    intro q
    obtain ⟨h1, e, h2, h3, h4, h5, h6⟩ := h.coder c j q
    refine ⟨h1, _, List.mem_map_of_mem h2, ?_, ?_, ?_, ?_⟩
    · rw [(g e).1]; exact h3
    · rw [(g e).2.2.1]; exact h4
    · rw [(g e).2.2.2]; exact h5
    · rw [(g e).2.1]; exact h6
  · intro c; rw [cd]; exact h.free c
  · rw [sm]; exact h.law
  · rw [sm]; exact h.building

/-! ## Allocation -/

theorem takeHead_count (p : Pmc) : p.takeHead.count = p.count - 1 ∧ p.takeHead.build = p.build := by
  unfold Pmc.takeHead
  split
  · next h => exact ⟨by dsimp only; omega, rfl⟩
  · exact ⟨rfl, rfl⟩

theorem core_positionReader {x : Option Nat} {K k : Nat} {s : State} (h : Core x K k s) (i b : Nat) :
    Core x K k (positionReader i b s) := by
  unfold positionReader
  split
  · exact h
  · split
    · next p _ _ =>
      exact core_mapEntry (h.same (t := { s with printDec := some { p with block := some b, off := 0, header := none } })
        rfl (fun c => by cases c <;> rfl) rfl rfl) _ _
    · exact h

/-- A block goes from the list to a context's page. -/
theorem core_allocate {x : Option Nat} {K k : Nat} {s : State} (h : Core x K k s) (c : CoderCtx) (hc : s.pmc.count ≠ 0)
    (hb : s.pmc.build = none) (hp : (coderOf c s).page ≠ none) : Core x K k (allocate c s) := by
  obtain ⟨i, hi⟩ := Option.ne_none_iff_exists'.mp hp
  obtain ⟨h1, e, h2, h3, h4, h5, h6⟩ := h.coder c i hi
  unfold allocate
  extract_lets b cd s1 s2 s3
  have e1 : s1.dir = s.dir ∧ s1.pmc.count = s.pmc.count - 1 ∧ s1.pmc.build = s.pmc.build ∧ ∀ d, coderOf d s1 = coderOf d s :=
    ⟨rfl, (takeHead_count _).1, (takeHead_count _).2, fun d => by cases d <;> rfl⟩
  have e2 : s2.dir = s.dir ∧ s2.pmc = s1.pmc ∧ ∀ d, coderOf d s2 = coderOf d s := by
    simp only [s2]
    split
    · exact ⟨rfl, rfl, e1.2.2.2⟩
    · exact ⟨rfl, rfl, fun d => by cases d <;> rfl⟩
  have e3 : s3.dir = s.dir ∧ s3.pmc = s1.pmc ∧ (∀ d, d ≠ c → coderOf d s3 = coderOf d s) ∧ (coderOf c s3).page = some i ∧
      (coderOf c s3).block = some b := by
    refine ⟨?_, ?_, ?_, ?_, ?_⟩
    · rw [← e2.1]; cases c <;> rfl
    · rw [← e2.2.1]; cases c <;> rfl
    · intro d hd
      rw [← e2.2.2 d]; cases c <;> cases d <;> first | rfl | exact absurd rfl hd
    · rw [← hi]; cases c <;> rfl
    · cases c <;> rfl
  clear_value s3
  have hcd : cd.page = some i := hi
  rw [hcd]
  dsimp only
  refine core_positionReader ?_ _ _
  have sm := blockSum_set x h.ids h2 (h3 ▸ h1) (·.gain b) (fun _ => rfl)
  rw [h3] at sm
  have gb : (e.gain b).blockCount = e.blockCount + 1 := rfl
  have de : (mapEntry i (·.gain b) s3).dir.entries = s.dir.entries.map fun a => if a.id = i then a.gain b else a := by
    show s3.dir.entries.map _ = _
    rw [e3.1]
  have dc : ∀ d, coderOf d (mapEntry i (·.gain b) s3) = coderOf d s3 := by intro d; cases d <;> rfl
  have dp : (mapEntry i (·.gain b) s3).pmc = s1.pmc := e3.2.1
  constructor
  · rw [de, List.map_map]
    have : s.dir.entries.map (Entry.id ∘ fun a => if a.id = i then a.gain b else a) = s.dir.entries.map Entry.id :=
      List.map_congr_left fun a _ => by simp only [Function.comp]; split <;> rfl
    rw [this]; exact h.ids
  · intro d j
    rw [dc, de]
    by_cases hd : d = c
    · subst hd
      rw [e3.2.2.2.1]
      intro q
      injection q with q
      subst q
      refine ⟨h1, e.gain b, ?_, h3, h4, h5, fun _ => by rw [gb]; omega⟩
      have := List.mem_map_of_mem (f := fun a : Entry => if a.id = i then a.gain b else a) h2
      simpa [h3] using this
    · rw [e3.2.2.1 d hd]
      intro q
      obtain ⟨g1, a, g2, g3, g4, g5, g6⟩ := h.coder d j q
      refine ⟨g1, _, List.mem_map_of_mem g2, ?_, ?_, ?_, ?_⟩
      · split <;> exact g3
      · split <;> exact g4
      · split <;> exact g5
      · split
        · intro _; show 1 ≤ a.blockCount + 1; omega
        · exact g6
  · intro d
    rw [dc]
    by_cases hd : d = c
    · subst hd; rw [e3.2.2.2.1]; nofun
    · rw [e3.2.2.1 d hd]; exact h.free d
  · rw [dp, e1.2.2.1, e1.2.1, de]
    intro q
    have := h.law q
    omega
  · rw [dp, e1.2.2.1]
    exact fun q => absurd hb q

theorem core_enterMemwait {x : Option Nat} {K k : Nat} {s : State} (h : Core x K k s) (c : CoderCtx)
    (hp : (coderOf c s).page ≠ none) : Core x K k (enterMemwait c s) := by
  refine Core.same (s := setCoder c { coderOf c s with st := .memwait, asking := false, timer := some (setMemWait s) } s) ?_
    rfl (fun d => by cases d <;> rfl) rfl rfl
  exact core_setCoder h c _ rfl rfl (fun q => absurd q hp)

theorem core_pumpAsk {x : Option Nat} {K k : Nat} {s : State} (h : Core x K k s) (c : CoderCtx) : Core x K k (pumpAsk c s) := by
  unfold pumpAsk
  split
  · next q =>
    have hp : (coderOf c s).page ≠ none := by
      intro z
      rw [(h.free c z).2.1] at q
      exact absurd q.1 (by simp)
    split
    · exact core_enterMemwait h c hp
    · next hc =>
      split
      · exact core_allocate h c hc q.2 hp
      · exact h
  · exact h

theorem core_askBlock {x : Option Nat} {K k : Nat} {s : State} (h : Core x K k s) (c : CoderCtx)
    (hp : (coderOf c s).page ≠ none) : Core x K k (askBlock c s) :=
  core_pumpAsk (core_setCoder h c { coderOf c s with asking := true } rfl rfl (fun q => absurd q hp)) c

theorem core_serveWaiters {x : Option Nat} {K k : Nat} {s : State} (h : Core x K k s) : Core x K k (serveWaiters s) := by
  have one : ∀ (c : CoderCtx) (u : State), Core x K k u → Core x K k (serveOne c u) := by
    intro c u hu
    unfold serveOne
    refine core_pumpAsk ?_ c
    split
    · next q =>
      refine core_setCoder hu c _ rfl rfl fun z => ?_
      exact absurd q.1 (hu.free c z).2.2.1
    · exact hu
  exact one .intake _ (one .scan s h)

/-! ## Freeing -/

theorem join_count (p : Pmc) (a b k l : Nat) (pre : List Upkeep) : (p.join a b k l pre).count = p.count + k := by
  unfold Pmc.join
  split
  · next h => dsimp only; omega
  · rfl

/-- Blocks in passage join the list. -/
theorem core_join {x : Option Nat} {K k : Nat} {s : State} (h : Core x K k s) (a b l : Nat) (pre : List Upkeep) (hk : k ≠ 0) :
    Core x K 0 (serveWaiters (mapPmc (·.join a b k l pre) s)) := by
  refine core_serveWaiters ?_
  have cd : ∀ c, coderOf c (mapPmc (·.join a b k l pre) s) = coderOf c s := by intro c; cases c <;> rfl
  constructor
  · exact h.ids
  · intro c i; rw [cd]; exact h.coder c i
  · intro c; rw [cd]; exact h.free c
  · intro q
    have := h.law ((join_build _ _ _ _ _ _).1.symm.trans q)
    show (s.pmc.join a b k l pre).count + _ + 0 = K
    rw [join_count]
    show _ + blockSum x s.dir.entries + 0 = K
    omega
  · intro q
    have := h.building fun z => q ((join_build _ _ _ _ _ _).1.trans z)
    omega

theorem core_raise {x : Option Nat} {K k : Nat} {s : State} (h : Core x K k s) (f : Fin 20) (p c r : Nat) :
    Core x K k (raise f p c r s) := h.same rfl (fun c => by cases c <;> rfl) rfl rfl

theorem core_mapDram {x : Option Nat} {K k : Nat} {s : State} (h : Core x K k s) (f : Memory → Memory) :
    Core x K k (mapDram f s) := h.same rfl (fun c => by cases c <;> rfl) rfl rfl

theorem core_checkLink {x : Option Nat} {K k : Nat} {s : State} (h : Core x K k s) (b : Nat) : Core x K k (checkLink b s) := by
  unfold checkLink
  split
  · exact h
  · exact core_raise h ..

theorem core_freeChain {x : Option Nat} {K k : Nat} {s : State} (h : Core x K k s) (a b : Nat) (cur : Option Nat) :
    Core x K 0 (freeChain a b k cur s) := by
  unfold freeChain
  split
  · next z => subst z; exact h
  · next z =>
    extract_lets pre s1
    have h1 : Core x K k s1 := by
      simp only [s1]
      split
      · exact core_checkLink h a
      · exact h
    exact core_join h1 _ _ _ _ z

/-- An entry that no coder context writes is removed, its blocks freed. -/
theorem core_dropEntry {K : Nat} {s : State} (h : Core none K 0 s) {e : Entry}
    (he : ∃ a ∈ s.dir.entries, a.id = e.id ∧ a.blockCount = e.blockCount)
    (hs : ∀ c, (coderOf c s).page ≠ some e.id) (cur : Option Nat) : Core none K 0 (dropEntry e cur s) := by
  have h1 : Core (some e.id) K e.blockCount s := by
    obtain ⟨a, ha, hi, hb⟩ := he
    have sp := blockSum_split h.ids ha
    rw [hi, hb] at sp
    constructor
    · exact h.ids
    · intro c i q
      obtain ⟨_, y⟩ := h.coder c i q
      refine ⟨fun z => hs c ?_, y⟩
      injection z with z
      rw [z]; exact q
    · exact h.free
    · intro q
      have := h.law q
      omega
    · intro q
      have := h.building q
      exact ⟨this.1, by omega⟩
  have h2 := core_freeChain h1 e.first e.last cur
  unfold dropEntry
  generalize freeChain e.first e.last e.blockCount cur s = u at *
  have cd : ∀ c, coderOf c (removeEntry e.id u) = coderOf c u := by intro c; cases c <;> rfl
  have sm : blockSum none (removeEntry e.id u).dir.entries = blockSum (some e.id) u.dir.entries := by
    show blockSum none (u.dir.entries.filter fun a => decide (a.id ≠ e.id)) = _
    simp only [blockSum, List.filter_filter]
    congr 2
    refine List.filter_congr fun a _ => ?_
    by_cases w : a.id = e.id
    · simp [w]
    · have w' : ¬ e.id = a.id := fun z => w z.symm
      simp [w, w']
  constructor
  · exact List.Nodup.sublist (List.Sublist.map _ List.filter_sublist) h2.ids
  · intro c i
    rw [cd]
    intro q
    obtain ⟨h3, a, h4, h5, h6⟩ := h2.coder c i q
    refine ⟨by simp, a, List.mem_filter.mpr ⟨h4, ?_⟩, h5, h6⟩
    have : a.id ≠ e.id := fun z => h3 (by rw [← z, h5])
    simpa using this
  · intro c; rw [cd]; exact h2.free c
  · rw [sm]; exact h2.law
  · rw [sm]; exact h2.building

/-- No coder context writes a page. -/
def Shun (i : Nat) (s : State) : Prop := ∀ c, (coderOf c s).page ≠ some i

theorem Beside.shun {s t : State} (k : Beside s t) {i : Nat} (h : Shun i s) : Shun i t := by
  intro c q
  rcases k.pages c with x | x
  · exact h c (x ▸ q)
  · rw [x] at q; cases q

theorem shun_of_state {K : Nat} {s : State} (h : Core none K 0 s) {e : Entry} (he : e ∈ s.dir.entries) (hs : e.state ≠ .filling) :
    Shun e.id s := by
  intro c q
  obtain ⟨_, a, h1, h2, h3, _⟩ := h.coder c e.id q
  rw [unique_id h.ids h1 he h2] at h3
  exact hs h3

/-- A page that no context writes is changed, its id and block count kept. -/
theorem core_mapShun {K k : Nat} {s : State} (h : Core none K k s) (i : Nat) (f : Entry → Entry) (hs : Shun i s)
    (hf : ∀ e, (f e).id = e.id ∧ (f e).blockCount = e.blockCount := by intro e; exact ⟨rfl, rfl⟩) :
    Core none K k (mapEntry i f s) := by
  have g : ∀ e : Entry, (if e.id = i then f e else e).id = e.id ∧ (if e.id = i then f e else e).blockCount = e.blockCount := by
    intro e; split
    · exact hf e
    · exact ⟨rfl, rfl⟩
  have cd : ∀ c, coderOf c (mapEntry i f s) = coderOf c s := by intro c; cases c <;> rfl
  have sm : blockSum none (mapEntry i f s).dir.entries = blockSum none s.dir.entries :=
    blockSum_map none _ (fun e => (g e).1) (fun e => (g e).2)
  constructor
  · have : (mapEntry i f s).dir.entries.map Entry.id = s.dir.entries.map Entry.id := by
      show (s.dir.entries.map _).map Entry.id = _
      rw [List.map_map]
      exact List.map_congr_left fun e _ => (g e).1
    rw [this]; exact h.ids
  · intro c j
    rw [cd]
    intro q
    obtain ⟨h1, e, h2, h3, h4⟩ := h.coder c j q
    refine ⟨h1, e, ?_, h3, h4⟩
    have ne : e.id ≠ i := fun z => hs c (by rw [q, ← h3, z])
    have := List.mem_map_of_mem (f := fun e : Entry => if e.id = i then f e else e) h2
    rw [if_neg ne] at this
    exact this
  · intro c; rw [cd]; exact h.free c
  · rw [sm]; exact h.law
  · rw [sm]; exact h.building

/-- A page gives up a block, which is then in passage. -/
theorem core_giveUp {K : Nat} {s : State} (h : Core none K 0 s) {e : Entry} (he : e ∈ s.dir.entries) (f : Entry → Entry)
    (hb : 1 ≤ e.blockCount) (hc : ∀ c, (coderOf c s).page = some e.id → (coderOf c s).block ≠ none → 2 ≤ e.blockCount)
    (hf : ∀ e, (f e).id = e.id ∧ (f e).blockCount = e.blockCount - 1 ∧ (f e).state = e.state ∧ (f e).writer = e.writer := by
      intro e; exact ⟨rfl, rfl, rfl, rfl⟩) :
    Core none K 1 (mapEntry e.id f s) := by
  have cd : ∀ c, coderOf c (mapEntry e.id f s) = coderOf c s := by intro c; cases c <;> rfl
  have sm := blockSum_set none h.ids he (by simp) f (fun a => (hf a).1)
  rw [(hf e).2.1] at sm
  have de : (mapEntry e.id f s).dir.entries = s.dir.entries.map fun a => if a.id = e.id then f a else a := rfl
  have nb : s.pmc.build = none := by
    by_contra z
    have := h.building z
    have := blockSum_zero (x := none) (by omega) he (by simp)
    omega
  constructor
  · rw [de, List.map_map]
    have : s.dir.entries.map (Entry.id ∘ fun a => if a.id = e.id then f a else a) = s.dir.entries.map Entry.id :=
      List.map_congr_left fun a _ => by simp only [Function.comp]; split; exacts [(hf a).1, rfl]
    rw [this]; exact h.ids
  · intro c j
    rw [cd, de]
    intro q
    obtain ⟨h1, a, h2, h3, h4, h5, h6⟩ := h.coder c j q
    refine ⟨h1, _, List.mem_map_of_mem h2, ?_, ?_, ?_, ?_⟩
    · split
      · rw [(hf a).1]; exact h3
      · exact h3
    · split
      · rw [(hf a).2.2.1]; exact h4
      · exact h4
    · split
      · rw [(hf a).2.2.2]; exact h5
      · exact h5
    · split
      · next z =>
        have ae := unique_id h.ids h2 he z
        subst ae
        intro w
        have := hc c (by rw [q, ← h3]) w
        rw [(hf a).2.1]; omega
      · exact h6
  · intro c; rw [cd]; exact h.free c
  · intro q
    have := h.law q
    rw [de]
    show s.pmc.count + _ + 1 = K
    omega
  · exact fun q => absurd nb q

theorem core_idle {x : Option Nat} {K k : Nat} {s : State} (h : Core x K k s) (c : CoderCtx) :
    Core x K k (idleCoder c s) ∧ (coderOf c (idleCoder c s)).page = none ∧
      ∀ d, d ≠ c → coderOf d (idleCoder c s) = coderOf d s := by
  have cs : coderOf c (idleCoder c s) = { Coder.reset with dirWait := (coderOf c s).dirWait } := by cases c <;> rfl
  have co : ∀ d, d ≠ c → coderOf d (idleCoder c s) = coderOf d s := by
    intro d hd; cases c <;> cases d <;> first | rfl | exact absurd rfl hd
  have ds : (idleCoder c s).dir = s.dir := by cases c <;> rfl
  have pc : (idleCoder c s).pmc.count = s.pmc.count ∧ (idleCoder c s).pmc.build = s.pmc.build := by cases c <;> exact ⟨rfl, rfl⟩
  refine ⟨?_, by rw [cs]; rfl, co⟩
  constructor
  · rw [ds]; exact h.ids
  · intro d i
    by_cases hd : d = c
    · subst hd; rw [cs]; nofun
    · rw [co d hd, ds]; exact h.coder d i
  · intro d
    by_cases hd : d = c
    · subst hd; rw [cs]; exact fun _ => ⟨rfl, rfl, nofun, rfl⟩
    · rw [co d hd]; exact h.free d
  · rw [ds, pc.1, pc.2]; exact h.law
  · rw [ds, pc.1, pc.2]; exact h.building

theorem core_settleEmpty {K : Nat} {s : State} (h : Core none K 0 s) (i : Nat) : Core none K 0 (settleEmpty i s) := by
  unfold settleEmpty
  split
  · exact h
  · next e he =>
    have m := entryOf_mem he
    split
    · next q => exact core_dropEntry h ⟨e, m.1, rfl, rfl⟩ (shun_of_state h m.1 (by rw [q.1]; simp)) none
    · exact h

theorem core_settleChain {K : Nat} {s : State} (h : Core none K 0 s) (i : Nat) (c : Coder) (hs : Shun i s)
    (hc : c.block ≠ none → ∃ e ∈ s.dir.entries, e.id = i ∧ 1 ≤ e.blockCount) : Core none K 0 (settleChain i c s) := by
  unfold settleChain
  split
  · exact h
  · next cur hcur _ =>
    obtain ⟨e, h1, h2, h3⟩ := hc (by simp [hcur])
    subst h2
    exact core_join (core_giveUp h h1 _ h3 (fun d q => absurd q (hs d))) _ _ _ _ (by simp)
  · next cur b f hcur _ =>
    extract_lets s1
    have k1 : Core none K 0 s1 := core_mapDram h _
    split
    · exact k1
    · obtain ⟨e, h1, h2, h3⟩ := hc (by simp [hcur])
      subst h2
      have s1s : Shun e.id s1 := fun d => by
        have : coderOf d s1 = coderOf d s := by cases d <;> rfl
        rw [this]; exact hs d
      exact core_join (core_giveUp k1 (e := e) h1 _ h3 (fun d q => absurd q (s1s d))) _ _ _ _ (by simp)

theorem core_noteCompleted {x : Option Nat} {K k : Nat} {s : State} (h : Core x K k s) (c : CoderCtx) (i : Nat) (t q : Bool) :
    Core x K k (noteCompleted c i t q s) := by
  have g : Core x K k (mapScanJob (fun j => { j with lastCompleted := i }) s) :=
    h.same rfl (fun c => by cases c <;> rfl) rfl rfl
  cases c with
  | scan =>
    unfold noteCompleted
    dsimp only
    split
    · exact g
    · exact core_raise g ..
  | intake => exact h.same rfl (fun c => by cases c <;> rfl) rfl rfl

/-- The page of a context has no other writer. -/
theorem shun_idle {K : Nat} {s : State} (h : Core none K 0 s) {c : CoderCtx} {i : Nat} (hi : (coderOf c s).page = some i) :
    Shun i (idleCoder c s) := by
  have k := core_idle h c
  intro d q
  by_cases hd : d = c
  · subst hd; rw [k.2.1] at q; cases q
  · rw [k.2.2 d hd] at q
    obtain ⟨_, a, a1, a2, _, a4, _⟩ := h.coder c i hi
    obtain ⟨_, b, b1, b2, _, b4, _⟩ := h.coder d i q
    have := unique_id h.ids a1 b1 (a2.trans b2.symm)
    subst this
    rw [a4] at b4
    injection b4 with b4
    exact hd b4.symm

theorem core_completePage {K : Nat} {s : State} (h : Core none K 0 s) (c : CoderCtx) (t q : Bool) :
    Core none K 0 (completePage c t q s) := by
  unfold completePage
  dsimp only
  split
  · exact h
  · next i hi =>
    have k := core_idle h c
    have sh := shun_idle h hi
    obtain ⟨_, e, e1, e2, e3, e4, e5⟩ := h.coder c i hi
    have ds : (idleCoder c s).dir = s.dir := by cases c <;> rfl
    have k2 := core_settleChain k.1 i (coderOf c s) sh (fun w => ⟨e, by rw [ds]; exact e1, e2, e5 w⟩)
    have sh2 : Shun i (settleChain i (coderOf c s) (idleCoder c s)) := (beside_settleChain i (coderOf c s) (idleCoder c s)).shun sh
    exact core_settleEmpty (core_noteCompleted (core_mapShun k2 i _ sh2) c i t q) i

theorem core_printPageGone {K : Nat} {s : State} (h : Core none K 0 s) : Core none K 0 (printPageGone s) :=
  h.same rfl (fun c => by cases c <;> rfl) rfl rfl

theorem core_clearReader {x : Option Nat} {K k : Nat} {s : State} (h : Core x K k s) (c : DecoderCtx) (i : Nat) :
    Core x K k (clearReader c i s) := by
  cases c <;> exact core_mapEntry h i _

theorem core_discardPage {K : Nat} {s : State} (h : Core none K 0 s) (i : Nat) (r : Bool) : Core none K 0 (discardPage i r s) := by
  unfold discardPage
  split
  · exact h
  · next e he =>
    have m := entryOf_mem he
    extract_lets s1 s2 cur s3 s4
    have k1 : Core none K 0 s1 ∧ s1.dir = s.dir := by
      simp only [s1]
      split
      · exact ⟨core_printPageGone h, rfl⟩
      · exact ⟨h, rfl⟩
    have k2 : Core none K 0 s2 := core_clearReader k1.1 .print i
    have k3 : Core none K 0 s3 ∧ s3.dir = s2.dir ∧ s3.scanCd.page ≠ some i ∧ s3.intakeCd = s2.intakeCd := by
      simp only [s3]
      split
      · exact ⟨(core_idle k2 .scan).1, rfl, nofun, rfl⟩
      · next q => exact ⟨k2, rfl, q, rfl⟩
    have k4 : Core none K 0 s4 ∧ s4.dir = s3.dir ∧ Shun i s4 := by
      simp only [s4]
      split
      · refine ⟨(core_idle k3.1 .intake).1, rfl, fun c => ?_⟩
        cases c
        · exact k3.2.2.1
        · exact nofun
      · next q =>
        refine ⟨k3.1, rfl, fun c => ?_⟩
        cases c
        · exact k3.2.2.1
        · exact q
    refine core_dropEntry k4.1 ?_ (m.2 ▸ k4.2.2) cur
    rw [k4.2.1, k3.2.1]
    refine ⟨_, List.mem_map_of_mem (k1.2 ▸ m.1 : e ∈ s1.dir.entries), ?_⟩
    split <;> exact ⟨rfl, rfl⟩

theorem core_discardWritten {K : Nat} {s : State} (h : Core none K 0 s) (c : CoderCtx) : Core none K 0 (discardWritten c s) := by
  unfold discardWritten
  split
  · exact h
  · exact core_discardPage h _ _

theorem core_applyPolicy {K : Nat} {s : State} (h : Core none K 0 s) (c : CoderCtx) (p : Policy) :
    Core none K 0 (applyPolicy c p s) := by
  cases p
  · exact core_discardWritten h c
  · exact core_completePage h c true false

theorem core_fold {K : Nat} {f : State → Nat → State} (hf : ∀ s i, Core none K 0 s → Core none K 0 (f s i)) (is : List Nat) :
    ∀ {s : State}, Core none K 0 s → Core none K 0 (is.foldl f s) := by
  induction is with
  | nil => exact fun h => h
  | cons i is ih => exact fun h => ih (hf _ _ h)

theorem core_discardWaiting {K : Nat} {s : State} (h : Core none K 0 s) (c : CoderCtx) : Core none K 0 (discardWaiting c s) :=
  core_fold (fun _ i k => core_discardPage k i false) _ h

theorem core_removeReader {K : Nat} {s : State} (h : Core none K 0 s) (c : DecoderCtx) (i : Nat) :
    Core none K 0 (removeReader c i s) := by
  unfold removeReader
  split
  · exact h
  · next e he =>
    have m := entryOf_mem he
    split
    · exact h
    · extract_lets s1
      have k1 : Core none K 0 s1 := core_clearReader h c i
      have sh : e.state ≠ .filling → Shun e.id s1 := fun w => (beside_clearReader c i s).shun (shun_of_state h m.1 w)
      have mem : ∃ a ∈ s1.dir.entries, a.id = e.id ∧ a.blockCount = e.blockCount := by
        refine ⟨_, List.mem_map_of_mem m.1, ?_⟩
        cases c <;> dsimp only <;> split <;> exact ⟨rfl, rfl⟩
      split
      · next q => exact core_dropEntry k1 mem (sh (by rw [q.1]; simp)) none
      · split
        · next q => exact core_dropEntry k1 mem (sh (by rw [q.2.1]; simp)) none
        · exact core_settleEmpty k1 i

theorem core_leaveBlock {K : Nat} {s : State} (h : Core none K 0 s) (c : DecoderCtx) (i b l o : Nat) :
    Core none K 0 (leaveBlock c i b l o s) := by
  unfold leaveBlock
  split
  · exact h
  · next e he =>
    have m := entryOf_mem he
    split
    · exact h
    · split
      · next q =>
        obtain ⟨m1, m2⟩ := m
        subst m2
        exact core_mapEntry (core_join (core_giveUp h m1 _ (by omega) (fun _ _ _ => by omega)) _ _ _ _ (by simp)) _ _
      · exact h

/-! ## Pages kept -/

/-- A scan in SEARCH. -/
def searching (s : State) : Prop := ∃ j, s.scanJob = some j ∧ j.phase = .search

/-- A change that keeps the page accounting and what it hangs on. -/
structure Keep (s t : State) : Prop where
  core   : ∀ K, Core none K 0 s → Core none K 0 t
  build  : t.pmc.build = s.pmc.build
  places : t.dir.places ≤ s.dir.places
  ids    : (t.dir.entries.map Entry.id).Sublist (s.dir.entries.map Entry.id)
  pages  : ∀ c, (coderOf c t).page = (coderOf c s).page ∨ (coderOf c t).page = none
  active : t.tables.active[(0 : Fin 14)] = s.tables.active[(0 : Fin 14)]
  boot   : t.boot.state = s.boot.state
  spill  : SpillMoves s.spill t.spill
  search : searching t → searching s ∧ t.dir.places = s.dir.places
  scan   : s.scanJob = none → t.scanJob = none
  int    : (t.intJob.isNone = s.intJob.isNone ∧ (t.intakeCd.dirWait = s.intakeCd.dirWait ∨ t.intakeCd.dirWait = none)) ∨
    (t.intakeCd.page = none ∧ t.intakeCd.dirWait = none ∧ (s.intJob = none → t.intJob = none))

theorem Keep.refl (s : State) : Keep s s :=
  ⟨fun _ h => h, rfl, le_refl _, List.Sublist.refl _, fun _ => .inl rfl, rfl, rfl, .inl rfl, fun h => ⟨h, rfl⟩, fun h => h, .inl ⟨rfl, .inl rfl⟩⟩

theorem Keep.trans {s t u : State} (h : Keep s t) (k : Keep t u) : Keep s u := by
  constructor
  · exact fun K x => k.core K (h.core K x)
  · exact k.build.trans h.build
  · exact le_trans k.places h.places
  · exact k.ids.trans h.ids
  · intro c
    rcases k.pages c with x | x
    · rw [x]; exact h.pages c
    · exact .inr x
  · exact k.active.trans h.active
  · exact k.boot.trans h.boot
  · exact h.spill.trans k.spill
  · intro x
    have y := k.search x
    have z := h.search y.1
    exact ⟨z.1, y.2.trans z.2⟩
  · exact fun x => k.scan (h.scan x)
  · rcases k.int with ⟨k1, k2⟩ | ⟨k1, k2, k3⟩
    · rcases h.int with ⟨h1, h2⟩ | ⟨h1, h2, h3⟩
      · refine .inl ⟨k1.trans h1, ?_⟩
        rcases k2 with k2 | k2
        · rw [k2]; exact h2
        · exact .inr k2
      · refine .inr ⟨?_, ?_, fun x => none_of_isNone k1 (h3 x)⟩
        · rcases k.pages .intake with x | x
          · exact x.trans h1
          · exact x
        · rcases k2 with k2 | k2
          · exact k2.trans h2
          · exact k2
    · refine .inr ⟨k1, k2, fun x => k3 ?_⟩
      rcases h.int with ⟨h1, _⟩ | ⟨_, _, h3⟩
      · exact none_of_isNone h1 x
      · exact h3 x

theorem keep_ite {s t u : State} {p : Prop} [Decidable p] (h : Keep s t) (k : Keep s u) : Keep s (if p then t else u) := by
  split
  · exact h
  · exact k

/-- A page operation keeps the pages. -/
theorem keep_of {s t : State} (h : Shell s t) (k : Beside s t) (c : ∀ K, Core none K 0 s → Core none K 0 t) : Keep s t := by
  constructor
  · exact c
  · exact k.build
  · rw [k.places]
  · exact k.ids
  · exact k.pages
  · rw [h.tables]
  · rw [h.boot]
  · exact .inl h.spill
  · rintro ⟨j, h1, h2⟩
    refine ⟨?_, k.places⟩
    have := k.scanJob
    rw [h1] at this
    cases x : s.scanJob
    · rw [x] at this; cases this
    · next i =>
      rw [x] at this
      simp only [Option.map_some, Option.some.injEq, ScanJob.mk.injEq] at this
      exact ⟨i, x, by rw [← h2]; exact this.2.2.2.2.2.2.2.2.1.symm⟩
  · intro x
    have := k.scanJob
    rw [x] at this
    simpa using this
  · exact .inl ⟨k.intJob, .inl (k.waits .intake)⟩

/-- A change beside the pages altogether. -/
theorem keep_away {s t : State} (d : t.dir = s.dir) (c : ∀ c, coderOf c t = coderOf c s) (n : t.pmc.count = s.pmc.count)
    (b : t.pmc.build = s.pmc.build) (a : t.tables.active[(0 : Fin 14)] = s.tables.active[(0 : Fin 14)])
    (bt : t.boot.state = s.boot.state) (sp : SpillMoves s.spill t.spill)
    (se : searching t → searching s) (i : t.intJob.isNone = s.intJob.isNone)
    (sc : s.scanJob = none → t.scanJob = none := by exact fun h => h) : Keep s t :=
  ⟨fun _ h => h.same (by rw [d]) c n b, b, by rw [d], by rw [d], fun x => .inl (by rw [c]), a, bt, sp,
    fun x => ⟨se x, by rw [d]⟩, sc, .inl ⟨i, .inl (congrArg Coder.dirWait (c .intake))⟩⟩

end Sys2Proof.Machine
end

