-- ==== Sys2Proof/Laws/Settle.lean ====
section
/-! SUPPORT. What follows at once where no job, or one job alone, is left: the rounds of `settle` that change nothing, and
what the end of a pass and the removal of a reader can do. -/

-- one declaration after the other: run side by side, the proofs of the whole package hold more threads than memory has room for
set_option Elab.async false

namespace Sys2Proof.Machine

/-- A context without a pass reports no end. -/
theorem settlePass_none {c : DecoderCtx} {s : State} (h : passOf c s = none) : settlePass c s = s := by
  unfold settlePass; rw [h]

/-- An output pass that is over leaves the context IDLE, its grant with no one to answer (R60, R164). -/
theorem settlePass_output {s : State} {p : Pass} (h : s.outDec = some p) :
    settlePass .output s = if passOver p s then idleDecoder .output s else s := by
  unfold settlePass; rw [show passOf .output s = some p from h]

/-- A pass is over once nothing is being read and its page is gone, or no longer FILLING with every line read (R57, R60). -/
theorem passOver_iff (p : Pass) (s : State) : passOver p s = true ↔
    p.reading = none ∧ ∀ e, entryOf p.page s = some e → e.state ≠ .filling ∧ e.lineCount ≤ p.linePos := by
  simp only [passOver, Bool.and_eq_true, Option.isNone_iff_eq_none]
  cases entryOf p.page s <;> simp

/-- With no PRINT job and no print pass the Print Engine has nothing to do. -/
theorem settlePrint_none {s : State} (h : s.prtJob = none) (h2 : s.printDec = none) : settlePrint s = s := by
  unfold settlePrint printMoves
  rw [settlePass_none (c := .print) h2]
  simp [printDue, h]

/-- No wait of a context expires where no timer of a job stands at 0. -/
theorem zeroWaits_free {s : State} (h1 : s.scanCd.timer ≠ some 0 ∨ s.scanJob = none) (h2 : s.scanCd.dirWait = none)
    (h3 : s.intakeCd.timer ≠ some 0 ∨ s.intakeCd.st ≠ .memwait ∨ s.intJob = none) (h4 : s.intakeCd.dirWait = none) :
    zeroWaits s = s := by
  have hs : (if (coderOf .scan s).timer = some 0 then memExpire .scan s else s) = s := by
    rcases h1 with h1 | h1
    · exact if_neg h1
    · unfold memExpire scanMemExpiry scanDecision
      simp [h1]
  have hi : (if (coderOf .intake s).timer = some 0 then memExpire .intake s else s) = s := by
    unfold memExpire intakeMemExpiry
    rcases h3 with h3 | h3 | h3
    · exact if_neg h3
    · simp [coderOf, h3]
    · simp [h3]
  unfold zeroWaits zeroWait
  rw [hs]
  simp only [show (coderOf .scan s).dirWait = none from h2, reduceCtorEq, if_false]
  rw [hi]
  simp only [show (coderOf .intake s).dirWait = none from h4, reduceCtorEq, if_false]

/-- No room is given where no context waits for it. -/
theorem settleRoom_free {s : State} (h2 : s.scanCd.dirWait = none) (h4 : s.intakeCd.dirWait = none) : settleRoom s = s := by
  simp [settleRoom, h2, h4]

/-- All pages of the scan are completed or removed: its context has none, and no FILLING page is its. -/
theorem scanPagesDone_iff (s : State) : scanPagesDone s = true ↔
    s.scanCd.page = none ∧ ∀ e ∈ s.dir.entries, e.state = .filling → e.writer ≠ some .scan := by
  simp only [scanPagesDone, Bool.and_eq_true, Option.isNone_iff_eq_none, waitingPage, List.find?_eq_none, waitsFor, coderOf]
  constructor
  · rintro ⟨h, k⟩
    refine ⟨h, fun e he hf hw => ?_⟩
    have := k e he
    simp [h, hf, hw] at this
  · rintro ⟨h, k⟩
    refine ⟨h, fun e he => ?_⟩
    have := k e he
    simp [h]; exact this

/-! ## A reader removed (R90) -/

/-- Is a page gone as its reader `r` of the context leaves it (R84, R89, R90)? -/
def Entry.leaves (c : DecoderCtx) (e : Entry) (r : Reader) : Prop :=
  (e.state = .erasing ∧ e.readAlone c = true) ∨ (r.consume = true ∧ e.state = .complete ∧ r.linePos = e.lineCount)
    ∨ (e.state = .complete ∧ e.headLine = e.lineCount ∧ e.readAlone c = true)

/-- The entry with the reader of a context gone. -/
def Entry.unread (c : DecoderCtx) (e : Entry) : Entry :=
  match c with
  | .print => { e with printRd := none }
  | .output => { e with outRd := none }

theorem entryOf_removeEntry (i : Nat) (s : State) : entryOf i (removeEntry i s) = none := by
  simp [entryOf, removeEntry, mapDir, List.find?_eq_none]

theorem entryOf_dropEntry {e : Entry} {i : Nat} (h : e.id = i) (c : Option Nat) (s : State) :
    entryOf i (dropEntry e c s) = none := by
  subst h; exact entryOf_removeEntry _ _

/-- A change of an entry's items but its id is what its page then reads as. -/
theorem entryOf_mapEntry {i : Nat} {f : Entry → Entry} (hf : ∀ e, (f e).id = e.id) {s : State} {e : Entry}
    (h : entryOf i s = some e) : entryOf i (mapEntry i f s) = some (f e) := by
  unfold entryOf mapEntry mapDir at *
  dsimp only
  rw [List.find?_map]
  have k : ((fun x => decide (x.id = i)) ∘ fun e => if e.id = i then f e else e) = fun e : Entry => decide (e.id = i) := by
    funext e; dsimp only [Function.comp]; split <;> simp_all
  rw [k, h]
  have := List.find?_some h
  simp at this
  simp [this]

/-- What the removal of a reader does to its page: it is gone, or it has lost the reader and nothing else has changed. -/
theorem removeReader_cases {c : DecoderCtx} {i : Nat} {s : State} {e : Entry} {r : Reader} (h : entryOf i s = some e)
    (hr : e.reader c = some r) :
    (e.leaves c r → entryOf i (removeReader c i s) = none)
      ∧ (¬e.leaves c r → removeReader c i s = clearReader c i s ∧ entryOf i (removeReader c i s) = some (e.unread c)) := by
  have hid : e.id = i := by have := List.find?_some h; simpa using this
  have hc : entryOf i (clearReader c i s) = some (e.unread c) := by
    have k : clearReader c i s = mapEntry i (Entry.unread c) s := by cases c <;> rfl
    rw [k]; exact entryOf_mapEntry (fun e => by cases c <;> rfl) h
  have hempty : ¬(e.state = .complete ∧ e.headLine = e.lineCount ∧ e.readAlone c = true) →
      settleEmpty i (clearReader c i s) = clearReader c i s := by
    intro n
    unfold settleEmpty
    rw [hc]
    dsimp only
    rw [if_neg]
    rintro ⟨a, b, d⟩
    refine n ⟨?_, ?_, ?_⟩ <;> cases c <;> simp_all [Entry.unread, Entry.readAlone, Entry.hasReader]
  have hfull : (e.state = .complete ∧ e.headLine = e.lineCount ∧ e.readAlone c = true) →
      entryOf i (settleEmpty i (clearReader c i s)) = none := by
    rintro ⟨a, b, d⟩
    unfold settleEmpty
    rw [hc]
    dsimp only
    rw [if_pos]
    · exact entryOf_dropEntry (by cases c <;> exact hid) _ _
    · cases c <;> simp_all [Entry.unread, Entry.readAlone, Entry.hasReader]
  have heq : removeReader c i s = if e.state = .erasing ∧ e.readAlone c then dropEntry e none (clearReader c i s)
      else if r.consume ∧ e.state = .complete ∧ r.linePos = e.lineCount then dropEntry e none (clearReader c i s)
      else settleEmpty i (clearReader c i s) := by
    unfold removeReader
    simp only [h, hr]
  rw [heq]
  constructor
  · rintro (g | g | g)
    · rw [if_pos g]; exact entryOf_dropEntry hid _ _
    · split
      · exact entryOf_dropEntry hid _ _
      · exact entryOf_dropEntry hid _ _
    · split
      · exact entryOf_dropEntry hid _ _
      · split
        · exact entryOf_dropEntry hid _ _
        · exact hfull g
  · intro g
    unfold Entry.leaves at g
    rw [if_neg (fun k => g (.inl k)), if_neg (fun k => g (.inr (.inl k))), hempty (fun k => g (.inr (.inr k)))]
    exact ⟨rfl, hc⟩

/-- A page with no reader of the context is left as it is. -/
theorem removeReader_none {c : DecoderCtx} {i : Nat} {s : State} (h : ∀ e, entryOf i s = some e → e.reader c = none) :
    removeReader c i s = s := by
  unfold removeReader
  cases k : entryOf i s with
  | none => rfl
  | some e => simp [h e k]

end Sys2Proof.Machine
end

