-- ==== Sys2Proof/Laws/Fate.lean ====
section
/-! SUPPORT. What becomes of a page: the directory's entries through allocation, freeing, completion, discard and the readers'
leaving, all but the items a block's coming or going changes. -/

-- one declaration after the other: run side by side, the proofs of the whole package hold more threads than memory has room for
set_option Elab.async false

namespace Sys2Proof.Machine

/-- An entry without the items that follow its blocks: the count, the first, the last, and the print reader's block. -/
def Entry.kern (e : Entry) : Entry :=
  { e with blockCount := 0, first := 0, last := 0, printRd := e.printRd.map fun r => { r with block := 0 } }

/-- The directory's entries are the same but for the items that follow their blocks. -/
def Kin (s t : State) : Prop := t.dir.entries.map Entry.kern = s.dir.entries.map Entry.kern

theorem Kin.refl (s : State) : Kin s s := rfl
theorem Kin.trans {s t u : State} (h : Kin s t) (k : Kin t u) : Kin s u := Eq.trans k h
theorem kin_of {s t : State} (h : t.dir.entries = s.dir.entries) : Kin s t := by unfold Kin; rw [h]

/-- What two alike entries agree on. -/
theorem kern_items {a b : Entry} (h : a.kern = b.kern) :
    a.id = b.id ∧ a.state = b.state ∧ a.lineCount = b.lineCount ∧ a.headLine = b.headLine ∧ a.writer = b.writer
      ∧ a.truncated = b.truncated ∧ a.hasReader = b.hasReader ∧ a.outRd = b.outRd := by
  have h1 := congrArg Entry.id h
  have h2 := congrArg Entry.state h
  have h3 := congrArg Entry.lineCount h
  have h4 := congrArg Entry.headLine h
  have h5 := congrArg Entry.writer h
  have h6 := congrArg Entry.truncated h
  have h7 := congrArg Entry.hasReader h
  have h8 := congrArg Entry.outRd h
  have g : ∀ x : Entry, x.kern.hasReader = x.hasReader := by
    intro x; unfold Entry.hasReader Entry.kern; simp
  rw [g, g] at h7
  exact ⟨h1, h2, h3, h4, h5, h6, h7, h8⟩

theorem kern_map (i : Nat) (f : Entry → Entry) (hf : ∀ e, (f e).kern = e.kern) (s : State) : Kin s (mapEntry i f s) := by
  unfold Kin mapEntry mapDir
  dsimp only
  rw [List.map_map]
  refine List.map_congr_left fun e _ => ?_
  dsimp only [Function.comp]
  split
  · exact hf e
  · rfl

/-- The entry of a page after what only moves blocks is the entry before, but for its blocks. -/
theorem Kin.entryOf {s t : State} (h : Kin s t) (i : Nat) :
    (Machine.entryOf i t).map Entry.kern = (Machine.entryOf i s).map Entry.kern := by
  have g : ∀ l : List Entry, (l.find? fun e => e.id = i).map Entry.kern = (l.map Entry.kern).find? fun e => e.id = i := by
    intro l; rw [List.find?_map]; rfl
  unfold Machine.entryOf
  rw [g, g, h]

theorem Kin.some {s t : State} (h : Kin s t) {i : Nat} {e : Entry} (k : Machine.entryOf i s = some e) :
    ∃ e', Machine.entryOf i t = some e' ∧ e'.kern = e.kern := by
  have g := h.entryOf i
  rw [k] at g
  cases m : Machine.entryOf i t with
  | none => rw [m] at g; cases g
  | some e' => rw [m] at g; exact ⟨e', rfl, by simpa using g⟩

theorem kin_positionReader (i b : Nat) (s : State) : Kin s (positionReader i b s) := by
  unfold positionReader
  split
  · exact .refl s
  · split
    · refine (kin_of rfl).trans (kern_map i _ (fun e => ?_) _)
      unfold Entry.kern; simp [Function.comp_def]
    · exact .refl s

theorem kin_setCoder (c : CoderCtx) (x : Coder) (s : State) : Kin s (setCoder c x s) := by cases c <;> exact kin_of rfl
theorem kin_mapPmc (f : Pmc → Pmc) (s : State) : Kin s (mapPmc f s) := kin_of rfl

theorem kin_allocate (c : CoderCtx) (s : State) : Kin s (allocate c s) := by
  have h1 : ∀ (o : Option Nat) (u : State),
      Kin u (match o with | none => u | some old => writeHeader old s.pmc.head Config.blockUnits u) := by
    intro o u; cases o <;> exact .refl _
  have h2 : ∀ (o : Option Nat) (u : State),
      Kin u (match o with | none => u | some id => positionReader id s.pmc.head (mapEntry id (·.gain s.pmc.head) u)) := by
    intro o u
    cases o with
    | none => exact .refl u
    | some id => exact (kern_map id (·.gain s.pmc.head) (fun _ => rfl) u).trans (kin_positionReader id _ _)
  unfold allocate
  exact (((kin_mapPmc _ s).trans (h1 _ _)).trans (kin_setCoder c _ _)).trans (h2 _ _)

theorem kin_pumpAsk (c : CoderCtx) (s : State) : Kin s (pumpAsk c s) := by
  unfold pumpAsk
  split
  · split
    · exact (kin_setCoder c _ s).trans (kin_of rfl)
    · split
      · exact kin_allocate c s
      · exact .refl s
  · exact .refl s

theorem kin_serveOne (c : CoderCtx) (s : State) : Kin s (serveOne c s) := by
  unfold serveOne
  refine Kin.trans ?_ (kin_pumpAsk c _)
  split
  · exact kin_setCoder c _ s
  · exact .refl s

/-- Freed blocks go to waiting contexts: their pages gain blocks and nothing else changes (R66, R68). -/
theorem kin_serveWaiters (s : State) : Kin s (serveWaiters s) := (kin_serveOne .scan s).trans (kin_serveOne .intake _)

theorem kin_freeCurrent (b f : Nat) (s : State) : Kin s (freeCurrent b f s) := (kin_mapPmc _ s).trans (kin_serveWaiters _)

theorem kin_checkLink (b : Nat) (s : State) : Kin s (checkLink b s) := by unfold checkLink; split <;> exact kin_of rfl

theorem kin_freeChain (a b k : Nat) (c : Option Nat) (s : State) : Kin s (freeChain a b k c s) := by
  unfold freeChain
  split
  · exact .refl s
  · dsimp only
    refine Kin.trans ?_ ((kin_mapPmc _ _).trans (kin_serveWaiters _))
    split
    · exact kin_checkLink a s
    · exact .refl s

theorem kin_idleCoder (c : CoderCtx) (s : State) : Kin s (idleCoder c s) := by cases c <;> exact kin_of rfl

theorem kin_writeHeader (b n f : Nat) (s : State) : Kin s (writeHeader b n f s) := kin_of rfl

theorem kin_settleChain (i : Nat) (c : Coder) (s : State) : Kin s (settleChain i c s) := by
  unfold settleChain
  split
  · exact .refl s
  · exact (kern_map i (fun e => { e with blockCount := e.blockCount - 1, first := noBlock, last := noBlock }) (fun _ => rfl) s).trans
      (kin_freeCurrent _ _ _)
  · next cur b f _ _ =>
    dsimp only
    split
    · exact kin_writeHeader ..
    · exact ((kin_writeHeader ..).trans (kern_map i (fun e => { e with blockCount := e.blockCount - 1, last := b }) (fun _ => rfl) _)).trans
        (kin_freeCurrent _ _ _)

theorem kin_noteCompleted (c : CoderCtx) (i : Nat) (t q : Bool) (s : State) : Kin s (noteCompleted c i t q s) := by
  cases c
  · unfold noteCompleted; dsimp only; split <;> exact kin_of rfl
  · exact kin_of rfl

/-- An entry removed, the others as they were but for blocks gained. -/
theorem entries_dropEntry (e : Entry) (c : Option Nat) (s : State) :
    (dropEntry e c s).dir.entries.map Entry.kern = (s.dir.entries.map Entry.kern).filter fun x => x.id ≠ e.id := by
  have h := kin_freeChain e.first e.last e.blockCount c s
  unfold Kin at h
  rw [← h]
  unfold dropEntry removeEntry mapDir
  dsimp only
  rw [List.filter_map]
  rfl

theorem entryOf_dropOther {e : Entry} {i : Nat} (h : e.id ≠ i) (c : Option Nat) (s : State) :
    (entryOf i (dropEntry e c s)).map Entry.kern = (entryOf i s).map Entry.kern := by
  have g : ∀ l : List Entry, (l.find? fun e => e.id = i).map Entry.kern = (l.map Entry.kern).find? fun e => e.id = i := by
    intro l; rw [List.find?_map]; rfl
  unfold entryOf
  rw [g, g, entries_dropEntry, List.find?_filter]
  congr 1
  funext x
  by_cases k : x.id = i
  · simp [k, Ne.symm h]
  · simp [k]

/-- The page a context writes, completed (R83, R84): gone where it has no stored line and no reader, else COMPLETE with its
lines. -/
theorem completePage_fate {c : CoderCtx} (t q : Bool) {s : State} {id : Nat} {e : Entry} (hp : (coderOf c s).page = some id)
    (he : entryOf id s = some e) :
    (e.headLine = e.lineCount → e.hasReader = false → entryOf id (completePage c t q s) = none)
      ∧ ((e.headLine ≠ e.lineCount ∨ e.hasReader = true) →
          ∃ e', entryOf id (completePage c t q s) = some e' ∧ e'.state = .complete ∧ e'.truncated = t ∧ e'.writer = none
            ∧ e'.lineCount = e.lineCount ∧ e'.headLine = e.headLine) := by
  have k0 := (kin_idleCoder c s).trans (kin_settleChain id (coderOf c s) (idleCoder c s))
  obtain ⟨e1, h1, g1⟩ := k0.some he
  have h2 : entryOf id (markComplete id t (settleChain id (coderOf c s) (idleCoder c s))) =
      some { e1 with state := .complete, writer := none, truncated := t } :=
    entryOf_mapEntry (f := fun e => { e with state := .complete, writer := none, truncated := t }) (fun _ => rfl) h1
  obtain ⟨e3, h3, g3⟩ := (kin_noteCompleted c id t q _).some h2
  obtain ⟨-, -, l1, d1, -, -, r1, -⟩ := kern_items g1
  obtain ⟨i3, s3, l3, d3, w3, t3, r3, -⟩ := kern_items g3
  have r4 : e3.hasReader = e.hasReader := r3.trans r1
  have hid : e3.id = id := (entryOf_mem h3).2
  unfold completePage
  simp only [hp]
  unfold settleEmpty
  simp only [h3, s3, l3, d3, l1, d1, r4]
  constructor
  · intro a b
    rw [if_pos ⟨trivial, a, by simp [b]⟩]
    exact entryOf_dropEntry hid _ _
  · intro a
    rw [if_neg (by rintro ⟨-, x, y⟩; rcases a with a | a <;> simp_all)]
    exact ⟨e3, h3, s3, t3, w3, l3.trans l1, d3.trans d1⟩

/-! ## Discard (R86) -/

/-- A change of one page's entry is not seen where that page is left out. -/
theorem filter_mapEntry (i : Nat) (f : Entry → Entry) (hf : ∀ e, (f e).id = e.id) (s : State) :
    ((mapEntry i f s).dir.entries.filter fun x => x.id ≠ i) = s.dir.entries.filter fun x => x.id ≠ i := by
  unfold mapEntry mapDir
  dsimp only
  induction s.dir.entries with
  | nil => rfl
  | cons e es ih =>
    by_cases k : e.id = i
    · simp [k, hf] at ih ⊢; exact ih
    · simp [k] at ih ⊢; exact ih

/-- A page discarded before its entry is dropped: its print reader gone, its writers idle. -/
def beforeDrop (id : Nat) (restart : Bool) (e : Entry) (s : State) : State :=
  let s := if e.printRd.isSome && !restart then printPageGone s else s
  let s := clearReader .print id s
  let s := if s.scanCd.page = some id then idleCoder .scan s else s
  if s.intakeCd.page = some id then idleCoder .intake s else s

theorem discardPage_eq {id : Nat} {r : Bool} {s : State} {e : Entry} (h : entryOf id s = some e) :
    ∃ cur, discardPage id r s = dropEntry e cur (beforeDrop id r e s) := by
  unfold discardPage
  rw [h]
  exact ⟨_, rfl⟩

theorem filter_beforeDrop (id : Nat) (r : Bool) (e : Entry) (s : State) :
    ((beforeDrop id r e s).dir.entries.filter fun x => x.id ≠ id) = s.dir.entries.filter fun x => x.id ≠ id := by
  have h1 : ∀ u : State, (if u.scanCd.page = some id then idleCoder .scan u else u).dir = u.dir := by intro u; split <;> rfl
  have h2 : ∀ u : State, (if u.intakeCd.page = some id then idleCoder .intake u else u).dir = u.dir := by intro u; split <;> rfl
  have h3 : (if e.printRd.isSome && !r then printPageGone s else s).dir = s.dir := by split <;> rfl
  unfold beforeDrop
  dsimp only
  rw [h2, h1]
  unfold clearReader
  rw [filter_mapEntry, h3]
  exact fun _ => rfl

/-- A discard takes the page out of the directory; of the others, only blocks gained change. -/
theorem entries_discardPage (id : Nat) (r : Bool) (s : State) :
    (discardPage id r s).dir.entries.map Entry.kern = (s.dir.entries.map Entry.kern).filter fun x => x.id ≠ id := by
  cases h : entryOf id s with
  | none =>
    have g : discardPage id r s = s := by unfold discardPage; rw [h]
    rw [g, List.filter_eq_self.2]
    intro x hx
    obtain ⟨y, hy, rfl⟩ := List.mem_map.1 hx
    have := List.find?_eq_none.1 h y hy
    exact decide_eq_true (p := y.id ≠ id) (by simpa using this)
  | some e =>
    obtain ⟨cur, g⟩ := discardPage_eq (r := r) h
    have hid : e.id = id := (entryOf_mem h).2
    rw [g, entries_dropEntry, hid, List.filter_map, List.filter_map]
    congr 1
    exact filter_beforeDrop id r e s

theorem entries_discardAll (r : Bool) (is : List Nat) : ∀ s : State,
    (is.foldl (fun s i => discardPage i r s) s).dir.entries.map Entry.kern
      = (s.dir.entries.map Entry.kern).filter fun x => x.id ∉ is := by
  induction is with
  | nil => intro s; simp
  | cons i is ih =>
    intro s
    rw [List.foldl_cons, ih, entries_discardPage, List.filter_filter]
    congr 1
    funext x
    simp [Bool.and_comm]

theorem entryOf_filtered {s t : State} {p : Nat → Bool}
    (h : t.dir.entries.map Entry.kern = (s.dir.entries.map Entry.kern).filter fun x => p x.id) (i : Nat) :
    (entryOf i t).map Entry.kern = if p i then (entryOf i s).map Entry.kern else none := by
  have g : ∀ l : List Entry, (l.find? fun e => e.id = i).map Entry.kern = (l.map Entry.kern).find? fun e => e.id = i := by
    intro l; rw [List.find?_map]; rfl
  unfold entryOf
  rw [g, g, h, List.find?_filter]
  by_cases k : p i = true
  · rw [if_pos k]
    congr 1
    funext x
    by_cases m : x.id = i
    · simp [m, k]
    · simp [m]
  · rw [if_neg k, List.find?_eq_none]
    intro x _
    by_cases m : x.id = i
    · simp [m, k]
    · simp [m]

/-- A discarded page is gone (R86). -/
theorem discardPage_gone (id : Nat) (r : Bool) (s : State) : entryOf id (discardPage id r s) = none := by
  have h := entryOf_filtered (p := fun x => decide (x ≠ id)) (by simpa using entries_discardPage id r s) id
  simpa using h

/-- The pages not yet taken up are discarded; the entry of another page stays, but for blocks gained. -/
theorem discardWaiting_other {c : CoderCtx} {s : State} {i : Nat} (h : i ∉ waitingIds c s) :
    (entryOf i (discardWaiting c s)).map Entry.kern = (entryOf i s).map Entry.kern := by
  have g := entryOf_filtered (p := fun x => decide (x ∉ waitingIds c s))
    (by simpa using entries_discardAll false (waitingIds c s) s) i
  rw [if_pos (by simpa using h)] at g
  exact g

theorem discardWaiting_gone {c : CoderCtx} {s : State} {i : Nat} (h : entryOf i s = none) :
    entryOf i (discardWaiting c s) = none := by
  have g := entryOf_filtered (p := fun x => decide (x ∉ waitingIds c s))
    (by simpa using entries_discardAll false (waitingIds c s) s) i
  rw [h] at g
  unfold discardWaiting
  simpa using g

end Sys2Proof.Machine
end

