-- ==== Sys2Proof/Laws/Decoding.lean ====
section
/-! SUPPORT. What a burst of units read does to the line being read (R58), and what a line placed and a block left do to the
state (R57, R89). -/

-- one declaration after the other: run side by side, the proofs of the whole package hold more threads than memory has room for
set_option Elab.async false

namespace Sys2Proof.Machine

theorem Parse.feedAll_cons (p : Parse) (u : Byte) (us : List Byte) : p.feedAll (u :: us) = (p.feed u).feedAll us := rfl

theorem readAll_succ (m : Memory) (a n : Nat) : m.readAll a (n + 1) = m.read a :: m.readAll (a + 1) n := by
  unfold Memory.readAll
  rw [List.range_succ_eq_map, List.map_cons, List.map_map]
  refine congrArg₂ _ rfl (List.map_congr_left fun i _ => ?_)
  simp only [Function.comp]
  congr 1
  omega

theorem parityAll_succ (m : Memory) (a n : Nat) : m.parityAll a (n + 1) = (m.parityOk a && m.parityAll (a + 1) n) := by
  unfold Memory.parityAll
  rw [List.range_succ_eq_map, List.all_cons, List.all_map]
  congr 1
  refine congrArg _ (funext fun i => ?_)
  simp only [Function.comp]
  congr 1
  omega

/-- The mark is behind once a unit has been read. -/
theorem feed_ne_mark (p : Parse) (u : Byte) : p.feed u ≠ .mark := by
  unfold Parse.feed Parse.runRead
  split <;> repeat' (first | split | simp)

/-- A line whose reading ends at its `k`-th unit, or goes on past it as the burst's last, takes `k` units; each that fails parity
marks it, but for the mark unit, which is lost with the line (R58). -/
theorem readUnits_through (m : Memory) : ∀ (k n a : Nat) (r : LineRead), k ≤ n →
    (∀ i < k, (r.parse.feedAll (m.readAll a i)).ended = false) → (r.parse = .mark → 0 < k → m.parityOk a = true) →
    (k = n ∨ (r.parse.feedAll (m.readAll a k)).ended = true) →
      readUnits m n a r = ({ r with parse := r.parse.feedAll (m.readAll a k), parity := r.parity || !m.parityAll a k }, k) := by
  intro k
  induction k with
  | zero =>
    intro n a r _ _ _ h
    have e : ({ r with parse := r.parse.feedAll (m.readAll a 0), parity := r.parity || !m.parityAll a 0 } : LineRead) = r := by
      simp [Memory.readAll, Memory.parityAll, Parse.feedAll]
    rw [e]
    cases n with
    | zero => rfl
    | succ n =>
      have h : r.parse.ended = true := h.resolve_left (by omega)
      unfold readUnits
      rw [if_pos h]
  | succ k ih =>
    intro n a r hk h1 h2 h3
    obtain ⟨n, rfl⟩ : ∃ x, n = x + 1 := ⟨n - 1, by omega⟩
    have h0 : r.parse.ended = false := h1 0 (by omega)
    have hu : r.unit (m.read a) (m.parityOk a) =
        { r with parse := r.parse.feed (m.read a), parity := r.parity || !m.parityOk a } := by
      unfold LineRead.unit
      rw [if_neg]
      rintro ⟨x, y⟩
      rw [h2 x (by omega)] at y
      cases y
    unfold readUnits
    rw [if_neg (by rw [h0]; decide), hu]
    have g := ih n (a + 1) { r with parse := r.parse.feed (m.read a), parity := r.parity || !m.parityOk a } (by omega)
      (fun i hi => by have := h1 (i + 1) (by omega); rwa [readAll_succ, Parse.feedAll_cons] at this)
      (fun x => absurd x (feed_ne_mark _ _))
      (by rcases h3 with h3 | h3
          · exact .inl (by omega)
          · right; rwa [readAll_succ, Parse.feedAll_cons] at h3)
    rw [g, readAll_succ, Parse.feedAll_cons, parityAll_succ]
    simp [Bool.or_assoc]

/-- A mark unit that fails parity is lost with its line, and no further unit is read (R58). -/
theorem readUnits_markLost (m : Memory) (n a : Nat) (r : LineRead) (h : r.parse = .mark) (k : m.parityOk a = false) :
    readUnits m (n + 1) a r = ({ r with parse := .lost, parity := true, markParity := true }, 1) := by
  unfold readUnits LineRead.unit
  rw [if_neg (by rw [h]; decide), if_pos ⟨h, by simp [k]⟩]
  cases n <;> rfl

/-! ## A decoder's burst (R57, R62, R72) -/

/-- A burst by the header of its block: the chain's end, the successor, or units read. -/
theorem decodeBurst_eq {u : State} {ctx : DecoderCtx} {p : Pass} {r : LineRead} {b next fill : Nat}
    (hp : passOf ctx u = some p) (h3 : p.reading = some r) (h4 : p.block = some b) (hh : freshHeader p b r u = ((next, fill), r)) :
    decodeBurst ctx u =
      if min fill 1020 ≤ p.off then
        if next = noBlock then finishLine ctx { p with header := some (next, fill) } { r with parse := .lost } u
        else enterSuccessor ctx { p with header := some (next, fill) } r next u
      else
        let x := readUnits u.dram (min 16 (min fill 1020 - p.off)) (unitAddr b p.off)
          { r with crossed := if r.parse = .mark then [] else r.crossed }
        let t := firstUnitRead ctx { p with header := some (next, fill) } r u
        if x.1.parse.ended then
          finishLine ctx { p with header := some (next, fill), off := p.off + x.2, reading := some x.1 } x.1 t
        else setPass ctx (some { p with header := some (next, fill), off := p.off + x.2, reading := some x.1 }) t := by
  unfold decodeBurst
  rw [hp]
  dsimp only
  rw [h3, h4]
  dsimp only
  rw [hh]
  rfl

/-- The end of a decoder's grant delivers its burst. -/
theorem exec_decodeBurst {lv : Levels} {s : State} {ctx : DecoderCtx}
    (h1 : s.pmc.grant = some { burst := .decode ctx, live := true }) :
    exec (.dramGrantEnd lv) s = .next (settle (decodeBurst ctx { sense lv s with pmc := { s.pmc with grant := none } })) := by
  have hb : endGrant (sense lv s) = decodeBurst ctx { sense lv s with pmc := { s.pmc with grant := none } } := by
    unfold endGrant
    rw [show (sense lv s).pmc.grant = _ from h1]
    rfl
  show Host.Outcome.next (if s.pmc.grant.isSome then _ else _) = _
  rw [if_pos (by rw [h1]; rfl), hb]

/-- The header of a block as the decoder holds or reads it (R62). -/
theorem freshHeader_eq {s : State} {p : Pass} {r : LineRead} {b next fill : Nat}
    (h6 : (p.header = some (next, fill) ∧ p.off < min fill 1020) ∨
      ((∀ n f, p.header = some (n, f) → min f 1020 ≤ p.off) ∧
        ((s.scanCd.block = some b ∧ next = noBlock ∧ fill = s.scanCd.fill)
          ∨ (s.scanCd.block ≠ some b ∧ s.intakeCd.block = some b ∧ next = noBlock ∧ fill = s.intakeCd.fill)
          ∨ (s.scanCd.block ≠ some b ∧ s.intakeCd.block ≠ some b ∧ s.dram.parityAll (blockAddr b) 4 = true
              ∧ s.dram.readAll (blockAddr b) 4 = be16 next ++ be16 fill ∧ next < 65536 ∧ fill < 65536)))) :
   freshHeader p b r s = ((next, fill), r) := by
  have hd : headerOf b s = (next, fill, true) ∨ (p.header = some (next, fill) ∧ p.off < min fill 1020) := by
    rcases h6 with h | ⟨h, h' | h' | h'⟩
    · exact .inr h
    · left; unfold headerOf; rw [if_pos h'.1, h'.2.1, h'.2.2]
    · left; unfold headerOf; rw [if_neg h'.1, if_pos h'.2.1, h'.2.2.1, h'.2.2.2]
    · left; unfold headerOf; rw [if_neg h'.1, if_neg h'.2.1, h'.2.2.1, h'.2.2.2.1]
      have a := h'.2.2.2.2.1
      have c := h'.2.2.2.2.2
      simp only [be16, wordAt, List.cons_append, List.nil_append, Prod.mk.injEq]
      simp [byteAt]
      omega
  rcases h6 with h | h
  · unfold freshHeader; rw [h.1]; dsimp only; rw [if_pos (show p.off < min fill Config.blockUnits from h.2)]
  · have hd : headerOf b s = (next, fill, true) := by
      rcases hd with hd | hd
      · exact hd
      · have := h.1 _ _ hd.1; omega
    unfold freshHeader
    split
    · next n f hx =>
      rw [if_neg (by have := h.1 _ _ hx; simp only [Config.blockUnits]; omega), hd]; simp
    · rw [hd]; simp

/-! ## A block left (R89) -/

/-- The read position has left no block, or the reader does not consume. -/
abbrev Stays (ctx : DecoderCtx) (e : Entry) (crossed : List Nat) : Prop :=
  crossed = [] ∨ ∀ rd, e.reader ctx = some rd → rd.consume = false

/-- A consuming reader has come to block `b` from the page's first, and no context waits for the block it leaves. -/
abbrev Leaves (ctx : DecoderCtx) (e : Entry) (b : Nat) (crossed : List Nat) (s : State) : Prop :=
  crossed = [b] ∧ (∃ rd, e.reader ctx = some rd ∧ rd.consume = true) ∧ 1 < e.blockCount ∧ s.noAsk

/-- A reader moved: its page but for the readers' positions. -/
theorem entryOf_moveReader {ctx : DecoderCtx} {i l b : Nat} {s : State} {e : Entry} (h : entryOf i s = some e) :
   ∃ e', entryOf i (moveReader ctx i l b s) = some e' ∧ e' = { e with printRd := e'.printRd, outRd := e'.outRd } ∧
     (e'.reader ctx).map (fun r => r.consume) = (e.reader ctx).map (fun r => r.consume) := by
  cases ctx
  · refine ⟨_, entryOf_mapEntry (f := fun e =>
      { e with printRd := e.printRd.map fun r => { r with linePos := l, block := b } }) (fun _ => rfl) h, rfl, ?_⟩
    simp [Entry.reader, Function.comp_def]
  · refine ⟨_, entryOf_mapEntry (f := fun e =>
      { e with outRd := e.outRd.map fun r => { r with linePos := l, block := b } }) (fun _ => rfl) h, rfl, ?_⟩
    simp [Entry.reader, Function.comp_def]

theorem moveReader_fields {ctx : DecoderCtx} {i l b : Nat} {s : State} :
    (moveReader ctx i l b s).dram = s.dram ∧ (moveReader ctx i l b s).events = s.events ∧ (moveReader ctx i l b s).lines = s.lines
     ∧ (moveReader ctx i l b s).rings = s.rings ∧ (moveReader ctx i l b s).pmc = s.pmc
     ∧ (s.noAsk → (moveReader ctx i l b s).noAsk) ∧ passOf ctx (moveReader ctx i l b s) = passOf ctx s := by
  cases ctx <;> exact ⟨rfl, rfl, rfl, rfl, rfl, fun h => h, rfl⟩

/-- A reader that does not consume leaves no block. -/
theorem leaveAll_stays {ctx : DecoderCtx} {i l o : Nat} {s : State} {e : Entry} (h : entryOf i s = some e)
    (hc : ∀ rd, e.reader ctx = some rd → rd.consume = false) (bs : List Nat) : leaveAll ctx i l o bs s = s := by
  unfold leaveAll
  induction bs with
  | nil => rfl
  | cons b bs ih =>
    rw [List.foldl_cons]
    have : leaveBlock ctx i b l o s = s := by
      unfold leaveBlock; rw [h]; dsimp only
      cases k : e.reader ctx with
      | none => rfl
      | some rd => simp [hc rd k]
    rw [this, ih]

/-- A consuming reader leaves the page's first block for its successor, with no context waiting. -/
theorem leaveAll_leaves {ctx : DecoderCtx} {i l o b : Nat} {s : State} {e : Entry} {rd : Reader} (h : entryOf i s = some e)
    (hr : e.reader ctx = some rd) (hc : rd.consume = true) (hn : 1 < e.blockCount) (ha : s.noAsk) :
    let t := leaveAll ctx i l o [b] s
    t.pmc.count = s.pmc.count + 1 ∧ t.pmc.tail = e.first
      ∧ entryOf i t = some { e with first := b, blockCount := e.blockCount - 1, headLine := l, headOff := o }
      ∧ t.dram = s.dram ∧ t.events = s.events ∧ t.lines = s.lines ∧ t.rings = s.rings ∧ t.noAsk ∧ passOf ctx t = passOf ctx s := by
  intro t
  have ht : t = mapEntry i (fun e => { e with headLine := l, headOff := o })
          (freeSingle e.first (mapEntry i (fun e => { e with first := b, blockCount := e.blockCount - 1 }) s)) := by
    simp only [t]
    unfold leaveAll leaveBlock
    simp only [List.foldl_cons, List.foldl_nil]
    rw [h]; dsimp only; rw [hr]; dsimp only; rw [if_pos ⟨hc, hn⟩]
  have hf : freeSingle e.first (mapEntry i (fun e => { e with first := b, blockCount := e.blockCount - 1 }) s) =
     mapPmc (·.join e.first e.first 1 noBlock [.setNext e.first noBlock])
       (mapEntry i (fun e => { e with first := b, blockCount := e.blockCount - 1 }) s) := by
    unfold freeSingle; exact serveWaiters_unasked (by exact ha)
  rw [hf] at ht
  have h1 := entryOf_mapEntry (f := fun e => { e with first := b, blockCount := e.blockCount - 1 }) (fun _ => rfl) h
  have h2 := entryOf_mapEntry (i := i) (f := fun e => { e with headLine := l, headOff := o }) (fun _ => rfl)
    (s := mapPmc (·.join e.first e.first 1 noBlock [.setNext e.first noBlock])
      (mapEntry i (fun e => { e with first := b, blockCount := e.blockCount - 1 }) s)) h1
  rw [← ht] at h2
  refine ⟨?_, ?_, h2, ?_, ?_, ?_, ?_, ?_, ?_⟩ <;> rw [ht]
  · show (s.pmc.join ..).count = _; unfold Pmc.join; split
    · next k => simp [k]
    · rfl
  · show (s.pmc.join ..).tail = _; unfold Pmc.join; split <;> rfl
  all_goals first | rfl | exact ha

/-! ## A line placed (R57) -/

theorem placeLine_fields (ctx : DecoderCtx) (p : Pass) (l : Line) (rep o : Bool) (s : State) :
    decoderRing ctx (placeLine ctx p l rep o s) = (decoderRing ctx s).enter
      { dots := l, lineNo := p.linePos, last := isLastLine p.page p.linePos s, rep := rep && ctx = .output }
     ∧ passOf ctx (placeLine ctx p l rep o s) =
         some { p with linePos := p.linePos + 1, prev := some l, outOfStep := o, reading := none }
     ∧ (placeLine ctx p l rep o s).dram = s.dram ∧ (placeLine ctx p l rep o s).lines = s.lines ∧ (placeLine ctx p l rep o s).pmc = s.pmc
     ∧ (placeLine ctx p l rep o s).events = s.events := by
  cases ctx <;> exact ⟨rfl, rfl, rfl, rfl, rfl, rfl⟩

theorem entryOf_placeLine {ctx : DecoderCtx} {p : Pass} {l : Line} {rep o : Bool} {s : State} {e : Entry}
    (h : entryOf p.page s = some e) :
   ∃ e', entryOf p.page (placeLine ctx p l rep o s) = some e' ∧ e' = { e with printRd := e'.printRd, outRd := e'.outRd } ∧
     (e'.reader ctx).map (fun r => r.consume) = (e.reader ctx).map (fun r => r.consume) := by
  unfold placeLine
  exact entryOf_moveReader (by cases ctx <;> exact h)

theorem noAsk_placeLine {ctx : DecoderCtx} {p : Pass} {l : Line} {rep o : Bool} {s : State} (h : s.noAsk) :
    (placeLine ctx p l rep o s).noAsk := by
  cases ctx <;> exact h

/-- A line placed and then the block left, or none: the ring, the pass, the page, the free list. -/
theorem placed_then_left {ctx : DecoderCtx} {p : Pass} {l : Line} {rep o : Bool} {v : State} {e : Entry} {cr : List Nat} {b hl : Nat}
    (h : entryOf p.page v = some e)
    (hs : Stays ctx e cr ∨ Leaves ctx e b cr v) :
    let t := leaveAll ctx p.page hl p.off cr (placeLine ctx p l rep o v)
    decoderRing ctx t = (decoderRing ctx v).enter
        { dots := l, lineNo := p.linePos, last := decide (e.state ≠ .filling ∧ p.linePos + 1 = e.lineCount),
          rep := rep && ctx = .output }
     ∧ passOf ctx t = some { p with linePos := p.linePos + 1, prev := some l, outOfStep := o, reading := none }
     ∧ t.dram = v.dram ∧ t.lines = v.lines ∧ t.events = v.events
     ∧ (Stays ctx e cr → t.pmc = v.pmc)
     ∧ (∃ e', entryOf p.page t = some e' ∧ e'.damaged = e.damaged ∧ e'.lineCount = e.lineCount ∧
        (cr = [] → e'.first = e.first ∧ e'.blockCount = e.blockCount ∧ e'.headLine = e.headLine ∧ e'.headOff = e.headOff) ∧
        (Leaves ctx e b cr v →
          t.pmc.count = v.pmc.count + 1 ∧ t.pmc.tail = e.first ∧ e'.first = b ∧ e'.blockCount = e.blockCount - 1
            ∧ e'.headLine = hl ∧ e'.headOff = p.off)) := by
  intro t
  obtain ⟨r1, r2, r3, r4, r5, r6⟩ := placeLine_fields ctx p l rep o v
  obtain ⟨e1, g1, g2, g3⟩ := entryOf_placeLine (ctx := ctx) (l := l) (rep := rep) (o := o) h
  have hl' : isLastLine p.page p.linePos v = decide (e.state ≠ .filling ∧ p.linePos + 1 = e.lineCount) := by
    unfold isLastLine; rw [h]; simp
  have stay : Stays ctx e cr → t = placeLine ctx p l rep o v := by
    rintro (k | k)
    · simp only [t]; rw [k]; rfl
    · refine leaveAll_stays g1 ?_ _
      intro rd hrd
      rw [hrd] at g3
      cases m : e.reader ctx with
      | none => rw [m] at g3; cases g3
      | some r' => rw [m] at g3; simp at g3; rw [g3]; exact k _ m
  rcases hs with hs | ⟨h1, ⟨rd, h2, h3⟩, h4, h5⟩
  · rw [stay hs, r1, r2, r3, r4, r5, r6, hl']
    refine ⟨rfl, rfl, rfl, rfl, rfl, fun _ => rfl, e1, g1, by rw [g2], by rw [g2],
      fun _ => by rw [g2]; exact ⟨rfl, rfl, rfl, rfl⟩, ?_⟩
    rintro ⟨k1, ⟨rd, k2, k3⟩, -, -⟩
    rcases hs with hs | hs
    · rw [hs] at k1; cases k1
    · have := hs rd k2; rw [this] at k3; cases k3
  · have : ∃ rd', e1.reader ctx = some rd' ∧ rd'.consume = true := by
      rw [h2] at g3
      cases m : e1.reader ctx with
      | none => rw [m] at g3; cases g3
      | some r' => rw [m] at g3; simp at g3; exact ⟨r', rfl, g3.trans h3⟩
    obtain ⟨rd', k2, k3⟩ := this
    have k4 : 1 < e1.blockCount := by rw [g2]; exact h4
    obtain ⟨a1, a2, a3, a4, a5, a6, a7, a8, a9⟩ := leaveAll_leaves (l := hl) (o := p.off) (b := b) g1 k2 k3 k4 (noAsk_placeLine h5)
    have ht : t = leaveAll ctx p.page hl p.off [b] (placeLine ctx p l rep o v) := by simp only [t]; rw [h1]
    rw [ht]
    have a7' : decoderRing ctx (leaveAll ctx p.page hl p.off [b] (placeLine ctx p l rep o v)) =
        decoderRing ctx (placeLine ctx p l rep o v) := by
      cases ctx <;> (unfold decoderRing; rw [a7])
    rw [a7', a9, a4, a6, a5, r1, r2, r3, r4, r6, hl']
    refine ⟨rfl, rfl, rfl, rfl, rfl, ?_, _, a3, by rw [g2], by rw [g2], ?_,
      fun _ => ⟨by rw [a1, r5], by rw [a2, g2], rfl, by rw [g2], rfl, rfl⟩⟩
    · rintro (k | k)
      · rw [h1] at k; cases k
      · have := k rd h2; rw [this] at h3; cases h3
    · intro k; rw [h1] at k; cases k

/-- A line's first unit read from a successor: the block before it left, or none. -/
theorem firstUnitRead_leaves {ctx : DecoderCtx} {q : Pass} {r : LineRead} {u : State} {e : Entry} {b : Nat}
    (h : entryOf q.page u = some e)
   (hm : r.parse = .mark)
    (hs : Stays ctx e r.crossed ∨
      Leaves ctx e b r.crossed u) :
   let v := firstUnitRead ctx q r u
   v.dram = u.dram ∧ v.events = u.events ∧ v.lines = u.lines ∧ v.rings = u.rings ∧ (u.noAsk → v.noAsk) ∧ passOf ctx v = passOf ctx u
    ∧ (Stays ctx e r.crossed → v.pmc = u.pmc)
    ∧ ∃ e', entryOf q.page v = some e' ∧ e'.state = e.state ∧ e'.lineCount = e.lineCount ∧ e'.damaged = e.damaged
       ∧ (Leaves ctx e b r.crossed u →
          v.pmc.count = u.pmc.count + 1 ∧ v.pmc.tail = e.first ∧ e'.first = b
            ∧ e'.blockCount = e.blockCount - 1 ∧ e'.headLine = q.linePos ∧ e'.headOff = 0) := by
  intro v
  by_cases hc : r.crossed = []
  · have hv : v = u := by simp only [v]; unfold firstUnitRead; rw [if_neg (by simp [hc])]
    rw [hv]
    refine ⟨rfl, rfl, rfl, rfl, fun h => h, rfl, fun _ => rfl, e, h, rfl, rfl, rfl, ?_⟩
    rintro ⟨k, -⟩; rw [hc] at k; cases k
  · have hv : v = moveReader ctx q.page q.linePos (q.block.getD noBlock) (leaveAll ctx q.page q.linePos 0 r.crossed u) := by
      simp only [v]; unfold firstUnitRead; rw [if_pos ⟨hm, hc⟩]
    rcases hs with (hs | hs) | ⟨h1, ⟨rd, h2, h3⟩, h4, h5⟩
    · exact absurd hs hc
    · rw [leaveAll_stays h hs] at hv
      obtain ⟨e1, g1, g2, g3⟩ := entryOf_moveReader (ctx := ctx) (l := q.linePos) (b := q.block.getD noBlock) h
      obtain ⟨m1, m2, m3, m4, m5, m6, m7⟩ := @moveReader_fields ctx q.page q.linePos (q.block.getD noBlock) u
      rw [hv]
      refine ⟨m1, m2, m3, m4, m6, m7, fun _ => m5, e1, g1, by rw [g2], by rw [g2], by rw [g2], ?_⟩
      rintro ⟨k1, ⟨rd, k2, k3⟩, -, -⟩
      have := hs rd k2; rw [this] at k3; cases k3
    · rw [h1] at hv
      obtain ⟨a1, a2, a3, a4, a5, a6, a7, a8, a9⟩ := leaveAll_leaves (l := q.linePos) (o := 0) (b := b) h h2 h3 h4 h5
      obtain ⟨e1, g1, g2, g3⟩ := entryOf_moveReader (ctx := ctx) (l := q.linePos) (b := q.block.getD noBlock) a3
      obtain ⟨m1, m2, m3, m4, m5, m6, m7⟩ := @moveReader_fields ctx q.page q.linePos (q.block.getD noBlock)
        (leaveAll ctx q.page q.linePos 0 [b] u)
      rw [hv]
      refine ⟨m1.trans a4, m2.trans a5, m3.trans a6, m4.trans a7, fun _ => m6 a8, m7.trans a9, ?_, e1, g1,
        by rw [g2], by rw [g2], by rw [g2],
        fun _ => ⟨by rw [m5, a1], by rw [m5, a2], by rw [g2], by rw [g2], by rw [g2], by rw [g2]⟩⟩
      rintro (k | k)
      · exact absurd k hc
      · have := k rd h2; rw [this] at h3; cases h3

end Sys2Proof.Machine
end

