-- ==== Sys2Proof/Laws/Keep.lean ====
section
/-! SUPPORT. What keeps the page accounting, operation by operation. -/

-- one declaration after the other: run side by side, the proofs of the whole package hold more threads than memory has room for
set_option Elab.async false

namespace Sys2Proof.Machine

/-! ## What keeps the pages -/

theorem keep_raise (f : Fin 20) (p c r : Nat) (s : State) : Keep s (raise f p c r s) :=
  keep_of (shell_raise ..) (beside_raise ..) fun _ h => core_raise h ..
theorem keep_mapDram (f : Memory → Memory) (s : State) : Keep s (mapDram f s) :=
  keep_of (shell_mapDram ..) (beside_mapDram ..) fun _ h => core_mapDram h ..
theorem keep_pumpAsk (c : CoderCtx) (s : State) : Keep s (pumpAsk c s) :=
  keep_of (shell_pumpAsk ..) (beside_pumpAsk ..) fun _ h => core_pumpAsk h c
theorem keep_idleCoder (c : CoderCtx) (s : State) : Keep s (idleCoder c s) :=
  keep_of (shell_idleCoder ..) (beside_idleCoder ..) fun _ h => (core_idle h c).1
theorem keep_completePage (c : CoderCtx) (t q : Bool) (s : State) : Keep s (completePage c t q s) :=
  keep_of (shell_completePage ..) (beside_completePage ..) fun _ h => core_completePage h c t q
theorem keep_discardPage (i : Nat) (r : Bool) (s : State) : Keep s (discardPage i r s) :=
  keep_of (shell_discardPage ..) (beside_discardPage ..) fun _ h => core_discardPage h i r
theorem keep_discardWritten (c : CoderCtx) (s : State) : Keep s (discardWritten c s) :=
  keep_of (shell_discardWritten ..) (beside_discardWritten ..) fun _ h => core_discardWritten h c
theorem keep_applyPolicy (c : CoderCtx) (p : Policy) (s : State) : Keep s (applyPolicy c p s) :=
  keep_of (shell_applyPolicy ..) (beside_applyPolicy ..) fun _ h => core_applyPolicy h c p
theorem keep_discardWaiting (c : CoderCtx) (s : State) : Keep s (discardWaiting c s) :=
  keep_of (shell_discardWaiting ..) (beside_discardWaiting ..) fun _ h => core_discardWaiting h c
theorem keep_removeReader (c : DecoderCtx) (i : Nat) (s : State) : Keep s (removeReader c i s) :=
  keep_of (shell_removeReader ..) (beside_removeReader ..) fun _ h => core_removeReader h c i
theorem keep_settleEmpty (i : Nat) (s : State) : Keep s (settleEmpty i s) :=
  keep_of (shell_settleEmpty ..) (beside_settleEmpty ..) fun _ h => core_settleEmpty h i
theorem keep_mapEntry (i : Nat) (f : Entry → Entry) (s : State)
    (hf : ∀ e, (f e).id = e.id ∧ (f e).blockCount = e.blockCount ∧ (f e).state = e.state ∧ (f e).writer = e.writer := by
      intro e; exact ⟨rfl, rfl, rfl, rfl⟩) : Keep s (mapEntry i f s) :=
  keep_of (shell_mapEntry ..) (beside_mapEntry i f s fun e => (hf e).1) fun _ h => core_mapEntry h i f hf
theorem keep_moveReader (c : DecoderCtx) (i l b : Nat) (s : State) : Keep s (moveReader c i l b s) := by
  cases c <;> exact keep_mapEntry i _ s
theorem keep_clearReader (c : DecoderCtx) (i : Nat) (s : State) : Keep s (clearReader c i s) := by
  cases c <;> exact keep_mapEntry i _ s
theorem keep_countDamage (i : Nat) (s : State) : Keep s (countDamage i s) := keep_mapEntry i _ s
theorem keep_setPass (c : DecoderCtx) (p : Option Pass) (s : State) : Keep s (setPass c p s) := by
  cases c <;> exact keep_away rfl (fun c => by cases c <;> rfl) rfl rfl rfl rfl (.inl rfl) (fun h => h) rfl
theorem keep_mapPmc {f : Pmc → Pmc} {s : State} (n : (f s.pmc).count = s.pmc.count) (b : (f s.pmc).build = s.pmc.build) :
    Keep s (mapPmc f s) := keep_away rfl (fun c => by cases c <;> rfl) n b rfl rfl (.inl rfl) (fun h => h) rfl
theorem keep_killGrant (f : Burst → Bool) (s : State) : Keep s (killGrant f s) := keep_mapPmc rfl rfl
theorem keep_idleDecoder (c : DecoderCtx) (s : State) : Keep s (idleDecoder c s) := (keep_setPass ..).trans (keep_killGrant ..)
theorem keep_leaveBlock (c : DecoderCtx) (i b l o : Nat) (s : State) : Keep s (leaveBlock c i b l o s) := by
  refine keep_of ?_ (beside_leaveBlock ..) fun _ h => core_leaveBlock h c i b l o
  unfold leaveBlock
  split
  · exact .refl s
  · split
    · exact .refl s
    · split
      · exact ((shell_mapEntry i _ s).trans (shell_freeSingle ..)).trans (shell_mapEntry i _ _)
      · exact .refl s

theorem keep_mapRings (f : Rings → Rings) (s : State) : Keep s (mapRings f s) :=
  keep_away rfl (fun c => by cases c <;> rfl) rfl rfl rfl rfl (.inl rfl) (fun h => h) rfl
theorem keep_mapFront (f : ScanFront → ScanFront) (s : State) : Keep s (mapFront f s) :=
  keep_away rfl (fun c => by cases c <;> rfl) rfl rfl rfl rfl (.inl rfl) (fun h => h) rfl
theorem keep_mapTemp (f : Temperature → Temperature) (s : State) : Keep s (mapTemp f s) :=
  keep_away rfl (fun c => by cases c <;> rfl) rfl rfl rfl rfl (.inl rfl) (fun h => h) rfl
theorem keep_mapPort (f : Port → Port) (s : State) : Keep s (mapPort f s) :=
  keep_away rfl (fun c => by cases c <;> rfl) rfl rfl rfl rfl (.inl rfl) (fun h => h) rfl
theorem keep_mapPower (f : Power → Power) (s : State) : Keep s (mapPower f s) :=
  keep_away rfl (fun c => by cases c <;> rfl) rfl rfl rfl rfl (.inl rfl) (fun h => h) rfl
theorem keep_mapPrtJob (f : PrintJob → PrintJob) (s : State) : Keep s (mapPrtJob f s) :=
  keep_away rfl (fun c => by cases c <;> rfl) rfl rfl rfl rfl (.inl rfl) (fun h => h) rfl
theorem keep_mapIntJob (f : IntakeJob → IntakeJob) (s : State) : Keep s (mapIntJob f s) :=
  keep_away rfl (fun c => by cases c <;> rfl) rfl rfl rfl rfl (.inl rfl) (fun h => h) (by simp [mapIntJob])
theorem keep_prtJob (j : Option PrintJob) (s : State) : Keep s { s with prtJob := j } :=
  keep_away rfl (fun c => by cases c <;> rfl) rfl rfl rfl rfl (.inl rfl) (fun h => h) rfl
theorem keep_outJob (j : Option OutputJob) (s : State) : Keep s { s with outJob := j } :=
  keep_away rfl (fun c => by cases c <;> rfl) rfl rfl rfl rfl (.inl rfl) (fun h => h) rfl
theorem keep_motS (m : Motor) (s : State) : Keep s { s with motS := m } :=
  keep_away rfl (fun c => by cases c <;> rfl) rfl rfl rfl rfl (.inl rfl) (fun h => h) rfl
theorem keep_motP (m : Motor) (s : State) : Keep s { s with motP := m } :=
  keep_away rfl (fun c => by cases c <;> rfl) rfl rfl rfl rfl (.inl rfl) (fun h => h) rfl
theorem keep_mapMotor (ch : Channel) (f : Motor → Motor) (s : State) : Keep s (mapMotor ch f s) := by
  cases ch
  · exact keep_motS ..
  · exact keep_motP ..
/-- The scan's job changed to one not in SEARCH, or in SEARCH as before. -/
theorem keep_scanJob (j : Option ScanJob) (s : State) (h : (∃ k, j = some k ∧ k.phase = .search) → searching s)
    (n : s.scanJob = none → j = none) : Keep s { s with scanJob := j } :=
  keep_away rfl (fun c => by cases c <;> rfl) rfl rfl rfl rfl (.inl rfl) h rfl n
theorem keep_emptyScanRing (s : State) : Keep s (emptyScanRing s) :=
  keep_away rfl (fun c => by cases c <;> rfl) rfl rfl rfl rfl (.inl rfl) (fun h => h) rfl
theorem keep_emptyPrintRing (s : State) : Keep s (emptyPrintRing s) := keep_mapRings ..
theorem keep_emptyOutputRing (s : State) : Keep s (emptyOutputRing s) := keep_mapRings ..
theorem keep_emptyIntakeRing (s : State) : Keep s (emptyIntakeRing s) := keep_mapRings ..
theorem keep_clearIntakeLine (s : State) : Keep s (clearIntakeLine s) := keep_mapPort ..

theorem keep_setActive (i : Fin 14) (img : List Byte) (s : State) (h : i ≠ 0) : Keep s (setActive i img s) := by
  have a : (s.tables.active.set i (some img))[(0 : Fin 14)] = s.tables.active[(0 : Fin 14)] := by
    have : i.val ≠ 0 := fun z => h (Fin.ext z)
    simp [Fin.getElem_fin, Vector.getElem_set_ne _ _ this]
  unfold setActive
  dsimp only
  split
  · exact keep_away rfl (fun c => by cases c <;> rfl) rfl rfl a rfl (.inl rfl) (fun h => h) rfl
  · split
    · exact keep_away rfl (fun c => by cases c <;> rfl) rfl rfl a rfl (.inl rfl) (fun h => h) rfl
    · split
      · exact keep_away rfl (fun c => by cases c <;> rfl) rfl rfl a rfl (.inl rfl) (fun h => h) rfl
      · exact keep_away rfl (fun c => by cases c <;> rfl) rfl rfl a rfl (.inl rfl) (fun h => h) rfl

theorem keep_setPending (i : Fin 14) (o : Option (List Byte)) (s : State) : Keep s (setPending i o s) :=
  keep_away rfl (fun c => by cases c <;> rfl) rfl rfl rfl rfl (.inl rfl) (fun h => h) rfl

theorem keep_applyPending (i : Fin 14) (s : State) (h : i ≠ 0) : Keep s (applyPending i s) := by
  unfold applyPending
  split
  · exact .refl s
  · exact ((keep_setActive _ _ _ h).trans (keep_setPending ..)).trans (keep_raise ..)

theorem keep_applyAll (is : List (Fin 14)) (h : ∀ i ∈ is, i ≠ 0) : ∀ s : State, Keep s (applyAll is s) := by
  unfold applyAll
  induction is with
  | nil => exact .refl
  | cons i is ih =>
    exact fun s => (keep_applyPending i s (h i (by simp))).trans (ih (fun j hj => h j (by simp [hj])) _)

theorem keep_applyMotorTables (s : State) : Keep s (applyMotorTables s) := by
  have h : ∀ (is : List (Fin 14)), (∀ i ∈ is, i ≠ 0) → ∀ u : State,
      Keep u (is.foldl (fun s i => if tableInUse i s then s else applyPending i s) u) := by
    intro is
    induction is with
    | nil => exact fun _ => .refl
    | cons i is ih =>
      exact fun h u => (keep_ite (.refl u) (keep_applyPending i u (h i (by simp)))).trans (ih (fun j hj => h j (by simp [hj])) _)
  exact h _ (by decide) s

theorem keep_release {s : State} (h : ¬ searching s) : Keep s (releasePlace s) := by
  constructor
  · exact fun _ h => h.same rfl (fun c => by cases c <;> rfl) rfl rfl
  · rfl
  · exact Nat.zero_le _
  · exact List.Sublist.refl _
  · exact fun _ => .inl rfl
  · rfl
  · rfl
  · exact .inl rfl
  · exact fun x => absurd x h
  · exact fun x => x
  · exact .inl ⟨rfl, .inl rfl⟩

/-- A context's directory wait ended, or the scan's begun. -/
theorem keep_dirWait (c : CoderCtx) (o : Option Nat) (s : State) (h : c = .scan ∨ o = none) :
    Keep s (mapCoder c (fun d => { d with dirWait := o }) s) := by
  have co : ∀ K, Core none K 0 s → Core none K 0 (mapCoder c (fun d => { d with dirWait := o }) s) := fun K k =>
    core_setCoder k c { coderOf c s with dirWait := o } rfl rfl fun q => (k.free c q).2
  constructor
  · exact co
  · cases c <;> rfl
  · cases c <;> exact le_refl _
  · cases c <;> exact List.Sublist.refl _
  · cases c <;> intro d <;> cases d <;> exact .inl rfl
  · cases c <;> rfl
  · cases c <;> rfl
  · cases c <;> exact .inl rfl
  · cases c <;> exact fun x => ⟨x, rfl⟩
  · cases c <;> exact fun x => x
  · cases c
    · exact .inl ⟨rfl, .inl rfl⟩
    · exact .inl ⟨rfl, .inr (h.resolve_left (by simp))⟩

theorem keep_endDirwait (c : CoderCtx) (s : State) : Keep s (endDirwait c s) := keep_dirWait c none s (.inr rfl)

theorem keep_settleScanPages (w : ScanSettle) (p : Policy) (s : State) : Keep s (settleScanPages w p s) := by
  have k : ∀ w : ScanSettle, Keep s (settleWritten w p s) := by
    intro w
    unfold settleWritten
    split
    · exact keep_applyPolicy ..
    · exact keep_completePage ..
    · exact keep_discardWritten ..
    · exact .refl s
  unfold settleScanPages
  split
  · exact .refl s
  all_goals exact (k _).trans (keep_discardWaiting ..)

theorem keep_scanDecision (r : Nat) (w : ScanSettle) (d : Option Nat) (s : State) : Keep s (scanDecision r w d s) := by
  unfold scanDecision
  split
  · exact .refl s
  · next j hj =>
    dsimp only
    have k0 : Keep s { s with scanJob := some { j with phase := .ending, pause := false, awaitRun := false, endReason := r, docHeld := d.map fun r => (r, if w = .leave then 0 else s.scanCd.page.getD 0) } } :=
      keep_scanJob _ _ (by rintro ⟨k, h1, h2⟩; cases h1; cases h2) (fun x => by rw [hj] at x; cases x)
    have n0 : ¬ searching { s with scanJob := some { j with phase := .ending, pause := false, awaitRun := false, endReason := r, docHeld := d.map fun r => (r, if w = .leave then 0 else s.scanCd.page.getD 0) } } := by
      rintro ⟨k, h1, h2⟩; cases h1; cases h2
    generalize ({ s with scanJob := some { j with phase := .ending, pause := false, awaitRun := false, endReason := r, docHeld := d.map fun r => (r, if w = .leave then 0 else s.scanCd.page.getD 0) } } : State) = u at *
    have k1 := keep_settleScanPages w j.policy u
    have n1 : ¬ searching (settleScanPages w j.policy u) := fun x => n0 (k1.search x).1
    have k2 := (((k0.trans k1).trans (keep_release n1)).trans (keep_endDirwait .scan _))
    have k3 := k2.trans (keep_ite (p := w = .leave) (.refl _) (keep_emptyScanRing _))
    exact k3.trans (keep_motS _ _)

theorem keep_scanFaulted (s : State) : Keep s (scanFaulted s) := by
  unfold scanFaulted
  split
  · exact .refl s
  · split
    · exact (keep_settleScanPages ..).trans (keep_emptyScanRing _)
    · exact keep_scanDecision ..

theorem keep_endScan (j : ScanJob) (s : State) : Keep s (endScan j s) := by
  have g : ∀ (f : ScanFront) (m : Motor) (u : State), Keep u { u with scanJob := none, front := f, motS := m } := fun f m u =>
    keep_away rfl (fun c => by cases c <;> rfl) rfl rfl rfl rfl (.inl rfl) (by rintro ⟨k, h1, _⟩; cases h1) rfl (fun _ => rfl)
  have h := (keep_emptyScanRing s).trans ((g { (emptyScanRing s).front with lamp := false } { (emptyScanRing s).motS with owner := .nobody }
    (emptyScanRing s)).trans (keep_raise evScanEnd j.lastCompleted 1 (scanEndReason j) _))
  unfold endScan
  dsimp only
  split
  · exact h
  · exact h.trans (keep_raise ..)

theorem keep_settleScanEnd (s : State) : Keep s (settleScanEnd s) := by
  unfold settleScanEnd
  split
  · exact .refl s
  · exact keep_ite (keep_endScan ..) (.refl s)

theorem keep_scanJam (p r : Nat) (s : State) : Keep s (scanJam p r s) :=
  ((keep_raise evJam p 1 r s).trans (keep_motS _ _)).trans (keep_scanDecision ..)

theorem keep_issueStep (ch : Channel) (s : State) : Keep s (issueStep ch s) := keep_mapMotor ..

/-! ## The decoders, the print engine, output -/

theorem keep_placeLine (c : DecoderCtx) (p : Pass) (l : Line) (r o : Bool) (s : State) : Keep s (placeLine c p l r o s) :=
  ((keep_mapRings ..).trans (keep_setPass ..)).trans (keep_moveReader ..)

theorem keep_leaveAll (c : DecoderCtx) (i l o : Nat) (bs : List Nat) : ∀ s : State, Keep s (leaveAll c i l o bs s) := by
  unfold leaveAll
  induction bs with
  | nil => exact .refl
  | cons b bs ih => exact fun s => (keep_leaveBlock ..).trans (ih _)

theorem keep_finishLine (c : DecoderCtx) (p : Pass) (r : LineRead) (s : State) : Keep s (finishLine c p r s) := by
  unfold finishLine
  dsimp only
  split
  · exact (keep_placeLine ..).trans (keep_leaveAll ..)
  · have h : Keep s (if r.parity = true then raise evParity p.page 0 (parityReason c) (countDamage p.page s)
        else countDamage p.page s) := by
      split
      · exact (keep_countDamage ..).trans (keep_raise ..)
      · exact keep_countDamage ..
    split
    · exact (h.trans (keep_placeLine ..)).trans (keep_leaveAll ..)
    · exact h.trans (keep_placeLine ..)

theorem keep_decoderStart (c : DecoderCtx) (s : State) : Keep s (decoderStart c s) := by
  unfold decoderStart
  split
  · exact .refl s
  · split
    · split
      · exact (keep_countDamage ..).trans (keep_placeLine ..)
      · exact keep_setPass ..
    · exact .refl s

theorem keep_decodeBurst (c : DecoderCtx) (s : State) : Keep s (decodeBurst c s) := by
  unfold decodeBurst
  split
  · exact .refl s
  · split
    · exact .refl s
    · exact keep_finishLine ..
    · dsimp only
      split
      · split
        · exact keep_finishLine ..
        · unfold enterSuccessor
          dsimp only
          split
          · exact keep_setPass ..
          · exact (keep_setPass ..).trans (keep_moveReader ..)
      · have h : ∀ (q : Pass) (r : LineRead), Keep s (firstUnitRead c q r s) := by
          intro q r
          unfold firstUnitRead
          split
          · exact (keep_leaveAll ..).trans (keep_moveReader ..)
          · exact .refl s
        exact (h _ _).trans (keep_ite (keep_finishLine ..) (keep_setPass ..))

theorem keep_settleOutput (s : State) : Keep s (settleOutput s) := by
  unfold settleOutput
  split
  · exact .refl s
  · exact keep_ite (((keep_outJob ..).trans (keep_removeReader ..)).trans (keep_raise ..)) (.refl s)

theorem keep_settlePass (c : DecoderCtx) (s : State) : Keep s (settlePass c s) := by
  unfold settlePass
  split
  · exact .refl s
  · split
    · split
      · exact (keep_idleDecoder ..).trans (keep_mapPrtJob ..)
      · exact keep_idleDecoder ..
    · exact .refl s

theorem keep_requestP (r : MotorRequest) (s : State) : Keep s (requestP r s).1 := by
  unfold requestP
  split
  · exact .refl s
  · split
    · exact keep_motP ..
    · split
      · exact keep_motP ..
      · exact keep_motP ..

theorem keep_askSteps (k : Stepping) (r : MotorRequest) (n : Nat) (s : State) : Keep s (askSteps k r n s) := by
  unfold askSteps
  extract_lets x
  have h : Keep s x.1 := (keep_mapPrtJob _ s).trans (keep_requestP r _)
  exact keep_ite h (h.trans (keep_mapPrtJob ..))

theorem keep_staleSpellBegins (p : Nat) (s : State) : Keep s (staleSpellBegins p s) := by
  unfold staleSpellBegins
  split
  · exact .refl s
  · exact (keep_mapTemp ..).trans (keep_raise ..)

theorem keep_strobeLine (s : State) : Keep s (strobeLine s) := by
  unfold strobeLine
  split
  · exact .refl s
  · next j hj =>
    have h := keep_staleSpellBegins j.page s
    dsimp only
    split
    · exact h.trans (keep_askSteps ..)
    · exact h.trans (keep_prtJob ..)

theorem keep_copyItems (s : State) : Keep s (copyItems s) := (keep_applyAll _ (by decide) _).trans (keep_mapPrtJob ..)

theorem keep_restartPass (p : Nat) (s : State) : Keep s (restartPass p s) := by
  unfold restartPass
  split
  · exact .refl s
  · exact (keep_moveReader ..).trans (keep_setPass ..)

theorem keep_nextCopy (s : State) : Keep s (nextCopy s) := by
  unfold nextCopy
  split
  · exact .refl s
  · exact (((keep_prtJob ..).trans (keep_emptyPrintRing _)).trans (keep_restartPass ..)).trans (keep_copyItems _)

theorem keep_afterExit (s : State) : Keep s (afterExit s) := by
  unfold afterExit
  extract_lets s1
  have h : Keep s s1 := (keep_mapPrtJob ..).trans (keep_applyMotorTables _)
  split
  · exact h
  · exact h.trans (keep_ite (keep_nextCopy _) (keep_prtJob ..))

theorem keep_pageEnd (s : State) : Keep s (pageEnd s) := by
  unfold pageEnd
  split
  · exact .refl s
  · extract_lets s1
    have h : Keep s s1 := keep_prtJob ..
    exact keep_ite (h.trans (keep_askSteps ..)) (h.trans (keep_afterExit _))

theorem keep_takeSource (n : Nat) : ∀ s : State, Keep s (takeSource n s).1 := by
  induction n with
  | zero => exact .refl
  | succ n ih =>
    intro s
    unfold takeSource
    split
    · exact .refl s
    · split
      · split
        · exact keep_pageEnd s
        · exact keep_prtJob ..
      · extract_lets x a s1
        have h : Keep s s1 := (keep_prtJob ..).trans (keep_mapRings ..)
        split
        · split
          · exact h.trans (keep_pageEnd _)
          · exact h.trans (ih _)
        · exact h

theorem keep_lineStart (s : State) : Keep s (lineStart s) := by
  unfold lineStart
  split
  · exact .refl s
  · split
    · exact keep_mapPrtJob ..
    · split
      · exact (keep_mapPrtJob ..).trans (keep_raise ..)
      · split
        · exact (keep_prtJob ..).trans (keep_raise ..)
        · split
          · exact (keep_prtJob ..).trans (keep_strobeLine _)
          · extract_lets x
            have h : Keep s x.1 := by
              simp only [x]
              split
              · exact keep_takeSource _ s
              · exact .refl s
            exact keep_ite ((h.trans (keep_mapPrtJob ..)).trans (keep_strobeLine _)) h

theorem keep_endPrint (j : PrintJob) (s : State) : Keep s (endPrint j s) :=
  ((((keep_prtJob none s).trans (keep_idleDecoder ..)).trans (keep_emptyPrintRing _)).trans
    (keep_removeReader ..)).trans (keep_raise ..)

theorem keep_endingMove (j : PrintJob) (s : State) : Keep s (endingMove j s) := by
  unfold endingMove
  exact keep_ite (.refl s) (keep_ite ((keep_prtJob ..).trans (keep_askSteps ..))
    (((keep_prtJob ..).trans (keep_applyMotorTables _)).trans (keep_endPrint ..)))

theorem keep_printMove (s : State) : Keep s (printMove s) := by
  unfold printMove
  split
  · exact .refl s
  · split
    · exact keep_lineStart s
    · exact keep_ite (keep_lineStart s) (keep_ite (keep_pageEnd s) (.refl s))
    · exact keep_endingMove ..
    all_goals exact .refl s

theorem keep_settlePrint (s : State) : Keep s (settlePrint s) := by
  have h : ∀ (n : Nat) (u : State), Keep u (printMoves n u) := by
    intro n
    induction n with
    | zero => exact fun u => keep_settlePass .print u
    | succ n ih =>
      intro u
      unfold printMoves
      exact keep_ite (((keep_settlePass .print u).trans (keep_printMove _)).trans (ih _)) (keep_settlePass .print u)
  exact h 400 s

/-! ## The intake's end -/

theorem keep_endIntake (r : Nat) (s : State) : Keep s (endIntake r s) := by
  unfold endIntake
  split
  · exact .refl s
  · next j hj =>
    have k : Keep s (clearIntakeLine (endDirwait .intake (idleCoder .intake (emptyIntakeRing s)))) :=
      (((keep_emptyIntakeRing s).trans (keep_idleCoder ..)).trans (keep_endDirwait ..)).trans (keep_clearIntakeLine _)
    have p : (clearIntakeLine (endDirwait .intake (idleCoder .intake (emptyIntakeRing s)))).intakeCd.page = none ∧
      (clearIntakeLine (endDirwait .intake (idleCoder .intake (emptyIntakeRing s)))).intakeCd.dirWait = none := ⟨rfl, rfl⟩
    dsimp only
    generalize clearIntakeLine (endDirwait .intake (idleCoder .intake (emptyIntakeRing s))) = u at *
    refine (k.trans ?_).trans (keep_raise ..)
    constructor
    · exact fun _ h => h.same rfl (fun c => by cases c <;> rfl) rfl rfl
    · rfl
    · exact le_refl _
    · exact List.Sublist.refl _
    · exact fun _ => .inl rfl
    · rfl
    · rfl
    · exact .inl rfl
    · exact fun x => ⟨x, rfl⟩
    · exact fun x => x
    · exact .inr ⟨p.1, p.2, fun _ => rfl⟩

theorem keep_closePage (s : State) : Keep s (closePage s) := by
  unfold closePage
  split
  · exact .refl s
  · split
    · exact .refl s
    · exact keep_ite (keep_discardPage ..) (keep_completePage ..)

theorem keep_settleIntake (s : State) : Keep s (settleIntake s) := by
  unfold settleIntake
  split
  · exact .refl s
  · exact keep_ite ((keep_closePage s).trans (keep_endIntake ..)) (.refl s)

theorem keep_intakeMemExpiry (s : State) : Keep s (intakeMemExpiry s) := by
  unfold intakeMemExpiry
  split
  · exact .refl s
  · exact (keep_applyPolicy ..).trans (keep_endIntake ..)

theorem keep_memExpire (c : CoderCtx) (s : State) : Keep s (memExpire c s) := by
  unfold memExpire
  split
  · split
    · exact keep_scanDecision ..
    · exact keep_intakeMemExpiry s
  · exact .refl s

theorem keep_dirExpire (c : CoderCtx) (s : State) : Keep s (dirExpire c s) := by
  unfold dirExpire
  split
  · exact keep_ite ((keep_endDirwait ..).trans (keep_scanDecision ..)) (.refl s)
  · exact keep_ite ((keep_endDirwait ..).trans (keep_endIntake ..)) (.refl s)

theorem keep_zeroWaits (s : State) : Keep s (zeroWaits s) := by
  have h : ∀ (c : CoderCtx) (u : State), Keep u (zeroWait c u) := by
    intro c u
    unfold zeroWait
    dsimp only
    exact (keep_ite (keep_memExpire c u) (.refl u)).trans (keep_ite (keep_dirExpire ..) (.refl _))
  exact (h .scan s).trans (h .intake _)

/-! ## The arbiter -/

theorem keep_setIdle (t : Option Nat) (s : State) : Keep s (setIdle t s) := keep_mapPower ..
theorem keep_updateIdle (s : State) : Keep s (updateIdle s) :=
  keep_ite (keep_ite (.refl s) (keep_setIdle ..)) (keep_setIdle ..)
theorem keep_restartIdle (s : State) : Keep s (restartIdle s) := keep_setIdle ..

theorem keep_spillReady (s : State) : Keep s (spillReady s) := by
  unfold spillReady
  split
  · next w hw =>
    refine keep_ite ?_ (.refl s)
    exact keep_away rfl (fun c => by cases c <;> rfl) rfl rfl rfl rfl (.inr ⟨w, _, _, hw, rfl⟩) (fun h => h) rfl
  · exact .refl s

theorem keep_grantBurst (b : Burst) (s : State) : Keep s (grantBurst b s) := keep_mapPmc rfl rfl

theorem keep_arbitrate (s : State) : Keep s (arbitrate s) := by
  unfold arbitrate
  extract_lets s1
  have h : Keep s s1 := keep_spillReady s
  refine keep_ite h ?_
  split
  · exact h.trans (keep_grantBurst ..)
  · split
    · exact h
    · exact h.trans (keep_grantBurst ..)

end Sys2Proof.Machine
end

