-- ==== Sys2Proof/Laws/Motors.lean ====
section
/-! SUPPORT. MotorsSound under the operations: calm changes, COVER, PFAIL, resets, the SLEEP and STANDBY entries, wake and return;
and the count of a motion's steps and the report of its abandonment. -/

-- one declaration after the other: run side by side, the proofs of the whole package hold more threads than memory has room for
set_option Elab.async false

namespace Sys2Proof.Machine

theorem low_of_state {m n : Motor} (h : n.state = m.state) : m.low → n.low := by
  unfold Motor.low; rw [h]; exact fun x => x

theorem moving_of_state {m n : Motor} (h : n.state = m.state) : n.moving = m.moving := by
  unfold Motor.moving; rw [h]

theorem faulted_not_moving {m : Motor} (h : m.state = .fault) : m.moving = false := by simp [Motor.moving, h]

theorem low_not_moving {m : Motor} (h : m.low) : m.moving = false := by
  rcases h with h | h <;> simp [Motor.moving, h]

/-- Calm changes keep the channels sound. -/
theorem calm_sound {s t : State} (h : MotorsSound s) (k : Calm s t) : MotorsSound t := by
  have mv : mayMove t ↔ mayMove s := by unfold mayMove; rw [k.pst, k.boot, k.pfail, k.entry]
  have ft : bothFaulted s → bothFaulted t := fun x => ⟨k.motS.1 x.1, k.motP.1 x.2⟩
  have st : ¬ mayMove s → t.motS.state = s.motS.state ∧ t.motP.state = s.motP.state :=
    fun x => ⟨k.motS.2 (h.still x).1, k.motP.2 (h.still x).2.1⟩
  have lw : ¬ mayMove s → s.motS.low ∧ s.motP.low → t.motS.low ∧ t.motP.low :=
    fun x y => ⟨low_of_state (st x).1 y.1, low_of_state (st x).2 y.2⟩
  constructor
  · rw [k.lines, k.boot]; exact h.resetSeen
  · rw [k.lines, k.boot, k.pfail, k.pst]; exact h.pfailSeen
  · rw [k.lines, k.boot, k.pst, k.ret, k.latch]
    exact fun x => (h.coverSeen x).imp ft (fun y => y)
  · rw [k.pfail, k.pst, k.ret, k.entry]
    exact fun x => ⟨ft (h.warned x).1, (h.warned x).2⟩
  · rw [k.entry]
    intro e he
    have x := h.entering e he
    have nm : ¬ mayMove s := fun y => by simp [y.2.2.2] at he
    constructor
    · rw [k.ret]; exact x.noReturn
    · rw [k.timer]; exact x.noTimer
    · rw [k.boot]; exact x.ready
    · rw [k.pst]; exact x.from_
    · exact fun y => lw nm (x.low y)
    · rw [k.sr]; exact x.refresh
    · rcases k.spill with y | ⟨w, o, d, y, z⟩
      · rw [y]; exact x.engine
      · rw [z]; rfl
    · intro y
      exact x.spilling fun z => y (k.spill.idle z)
  · rw [k.pst, k.boot]
    exact fun x => ⟨(h.away x).1, lw (fun y => x y.1) (h.away x).2⟩
  · rw [k.boot]
    exact fun x => lw (fun y => x y.2.1) (h.booting x)
  · rw [k.ret, k.boot, k.pst]; exact h.coming
  · rw [mv]
    intro x
    have y := h.still x
    have z := st x
    exact ⟨k.scan y.1, k.prt y.2.1, (moving_of_state z.1).trans y.2.2.1, (moving_of_state z.2).trans y.2.2.2⟩
  · rw [k.sr, k.pfail]; exact h.failFor
  · rw [k.pfail, k.entry, k.sr]; exact h.refreshed
  · rw [k.pfail, k.entry, k.boot]
    exact fun x y z => k.spill.idle (h.spilled x y z)
  · rw [k.boot]
    exact fun x => k.spill.idle (h.unspilled x)

/-- The commands waiting are no part of it. -/
theorem MotorsSound.queue {s : State} (h : MotorsSound s) (q : List Instr) : MotorsSound { s with pending := q } :=
  calm_sound h (by constructor <;> first | rfl | exact .inl rfl | exact (fun h => h) | exact MotCalm.refl _ _)

/-- A channel in OFF or FAULT drives nothing. -/
theorem low_outputs {m : Motor} (h : m.low) (tb : List Byte) : m.outputs tb = 0 ∧ m.holdLine = false := by
  rcases h with h | h <;> simp [Motor.outputs, Motor.holdLine, h]

/-- What a command does while the channels may move: anything to the jobs and the channels, but a FAULT stands. -/
structure Works (s t : State) : Prop where
  lines   : t.lines = s.lines
  boot    : t.boot.state = s.boot.state
  pst     : t.power.state = s.power.state
  pfail   : t.power.pfail = s.power.pfail
  entry   : t.power.entry = s.power.entry
  ret     : t.power.returning = s.power.returning
  latch   : t.power.coverLatch = s.power.coverLatch
  sr      : t.pmc.srPending = s.pmc.srPending
  spill   : s.spill = .idle → t.spill = .idle
  fault   : bothFaulted s → bothFaulted t

theorem works_sound {s t : State} (h : MotorsSound s) (m : mayMove s) (k : Works s t) : MotorsSound t := by
  obtain ⟨m1, m2, m3, m4⟩ := m
  have mt : mayMove t := by unfold mayMove; rw [k.pst, k.boot, k.pfail, k.entry]; exact ⟨m1, m2, m3, m4⟩
  have sp : t.spill = .idle := k.spill (h.spilled m3 m4 (.inl m2))
  constructor
  · rw [k.lines, k.boot]; exact h.resetSeen
  · rw [k.lines, k.boot, k.pfail, k.pst]; exact h.pfailSeen
  · rw [k.lines, k.boot, k.pst, k.ret, k.latch]
    exact fun x => (h.coverSeen x).imp k.fault (fun y => y)
  · rw [k.pfail]; exact fun x => absurd m3 x
  · rw [k.entry, m4]; exact nofun
  · rw [k.pst]; exact fun x => absurd m1 x
  · rw [k.boot]; exact fun x => absurd m2 x
  · rw [k.ret, k.boot, k.pst]; exact h.coming
  · exact fun x => absurd mt x
  · rw [k.sr, k.pfail]; exact h.failFor
  · rw [k.pfail, k.entry, k.sr]; exact h.refreshed
  · exact fun _ _ _ => sp
  · exact fun _ => sp

theorem Works.trans {s t u : State} (h : Works s t) (k : Works t u) : Works s u := by
  constructor
  · exact k.lines.trans h.lines
  · exact k.boot.trans h.boot
  · exact k.pst.trans h.pst
  · exact k.pfail.trans h.pfail
  · exact k.entry.trans h.entry
  · exact k.ret.trans h.ret
  · exact k.latch.trans h.latch
  · exact k.sr.trans h.sr
  · exact fun x => k.spill (h.spill x)
  · exact fun x => k.fault (h.fault x)

theorem Calm.works {s t : State} (k : Calm s t) : Works s t :=
  ⟨k.lines, k.boot, k.pst, k.pfail, k.entry, k.ret, k.latch, k.sr, k.spill.idle, fun x => ⟨k.motS.1 x.1, k.motP.1 x.2⟩⟩

/-- Jobs and channels changed with one channel not in FAULT. -/
theorem works_of {s t : State} (lines : t.lines = s.lines) (boot : t.boot = s.boot) (power : t.power = s.power)
    (sr : t.pmc = s.pmc) (spill : t.spill = s.spill) (nf : ¬ bothFaulted s ∨ (t.motS = s.motS ∧ t.motP = s.motP)) :
    Works s t := by
  constructor
  · exact lines
  · rw [boot]
  · rw [power]
  · rw [power]
  · rw [power]
  · rw [power]
  · rw [power]
  · rw [sr]
  · rw [spill]; exact fun h => h
  · intro h
    rcases nf with nf | nf
    · exact absurd h nf
    · unfold bothFaulted; rw [nf.1, nf.2]; exact h

/-- The cold-start state with any lines. -/
theorem cold_sound {t : State} (hb : t.boot.state = .reset) (hr : t.power.state = .run) (hp : t.power.pfail = .inactive)
    (he : t.power.entry = none) (ht : t.power.returning = none) (hS : t.motS.state = .off) (hP : t.motP.state = .off)
    (hsr : t.pmc.srPending = none) (hsp : t.spill = .idle) (hj : t.scanJob = none) (hk : t.prtJob = none) :
    MotorsSound t := by
  have l1 : t.motS.low := .inl hS
  have l2 : t.motP.low := .inl hP
  constructor
  · exact fun _ => hb
  · exact fun _ => .inr (.inr hb)
  · exact fun _ => .inr (.inr (.inl hb))
  · exact fun h => absurd hp h
  · rw [he]; exact nofun
  · exact fun h => absurd hr h
  · exact fun _ => ⟨l1, l2⟩
  · exact fun h => absurd ht h
  · exact fun _ => ⟨hj, hk, low_not_moving l1, low_not_moving l2⟩
  · rw [hsr]; exact nofun
  · exact fun _ _ => hsr
  · exact fun _ _ _ => hsp
  · exact fun _ => hsp

theorem coldStart_sound (s : State) : MotorsSound (coldStart s) := by
  apply cold_sound <;> rfl

theorem powerReturns_sound (lv : Levels) (d : Option PowerUpDram) (s : State) : MotorsSound (powerReturns lv d s) := by
  apply cold_sound <;> rfl

/-- A change of the lines that lowers neither COVER nor raises PFAIL or RESET. -/
theorem lines_sound {s : State} (h : MotorsSound s) (l : Lines) (hr : l.reset = true → s.lines.reset = true)
    (hp : l.pfail = true → s.lines.pfail = true) (hc : s.lines.cover = true → l.cover = true) :
    MotorsSound { s with lines := l } := by
  constructor
  · exact fun x => h.resetSeen (hr x)
  · exact fun x => h.pfailSeen (hp x)
  · intro x
    refine h.coverSeen ?_
    cases y : s.lines.cover
    · rfl
    · exact absurd (hc y) (by simp only at x; simp [x])
  · exact h.warned
  · exact fun e he => { h.entering e he with }
  · exact h.away
  · exact h.booting
  · exact h.coming
  · exact h.still
  · exact h.failFor
  · exact h.refreshed
  · exact h.spilled
  · exact h.unspilled

theorem sense_sound (lv : Levels) {s : State} (h : MotorsSound s) : MotorsSound (sense lv s) :=
  lines_sound h _ (fun x => x) (fun x => x) (fun x => by simp [x])

/-! ## Power states -/

theorem low_of_fault {m : Motor} (h : m.state = .fault) : m.low := .inr h

theorem mayMove_not_faulted {s : State} (h : MotorsSound s) (m : mayMove s) : s.lines.pfail = false := by
  cases x : s.lines.pfail
  · rfl
  · rcases h.pfailSeen x with y | y | y
    · exact absurd m.2.2.1 y
    · rw [m.1] at y; cases y
    · rw [m.2.1] at y; cases y

/-- HOLD goes to OFF: a channel at rest is down after it. -/
theorem powerDown_low {m : Motor} (h : m.moving = false) : m.powerDown.low := by
  unfold Motor.powerDown
  split
  · exact .inl rfl
  · unfold Motor.moving at h
    split at h <;> simp_all [Motor.low]

theorem powerDown_fault {m : Motor} (h : m.state = .fault) : m.powerDown.state = .fault := by
  unfold Motor.powerDown; rw [h]; simpa using h

/-- Entry to DOZE from RUN and READY with nothing in motion (R170). -/
theorem enterDoze_sound (mask : Byte) (timer : Nat) {s : State} (h : MotorsSound s) (m : mayMove s)
    (hr : s.power.returning = none) (hs : s.scanJob = none) (hp : s.prtJob = none) (ms : s.motS.moving = false) (mp : s.motP.moving = false) :
    MotorsSound (enterDoze mask timer s) := by
  obtain ⟨m1, m2, m3, m4⟩ := m
  have lS : (enterDoze mask timer s).motS.low := powerDown_low ms
  have lP : (enterDoze mask timer s).motP.low := powerDown_low mp
  constructor
  · exact h.resetSeen
  · intro x
    rcases h.pfailSeen x with y | y | y
    · exact .inl y
    · rw [m1] at y; cases y
    · exact .inr (.inr y)
  · intro x
    rcases h.coverSeen x with y | y | y | y
    · exact .inl ⟨powerDown_fault y.1, powerDown_fault y.2⟩
    · rw [m1] at y; cases y
    · exact .inr (.inr (.inl y))
    · rw [m1] at y; cases y.1
  · exact fun x => absurd m3 x
  · intro e he
    have : s.power.entry = some e := he
    rw [m4] at this; cases this
  · exact fun _ => ⟨m2, lS, lP⟩
  · exact fun x => absurd m2 x
  · exact fun x => absurd hr x
  · exact fun _ => ⟨hs, hp, low_not_moving lS, low_not_moving lP⟩
  · exact h.failFor
  · exact h.refreshed
  · exact h.spilled
  · exact h.unspilled

/-- A change of the power section that leaves what the channels hang on. -/
theorem power_sound {s : State} (h : MotorsSound s) (p : Power) (h1 : p.state = s.power.state) (h2 : p.pfail = s.power.pfail)
    (h3 : p.entry = s.power.entry) (h4 : p.returning = s.power.returning) (h5 : p.coverLatch = s.power.coverLatch)
    (h6 : s.power.entry ≠ none → p.wakeTimer = s.power.wakeTimer) : MotorsSound { s with power := p } := by
  have mv : mayMove { s with power := p } ↔ mayMove s := by unfold mayMove; simp only [h1, h2, h3]
  constructor
  · exact h.resetSeen
  · simp only [h1, h2]; exact h.pfailSeen
  · intro x
    simp only [h1, h4, h5]
    exact h.coverSeen x
  · simp only [h1, h2, h3, h4]; exact h.warned
  · simp only [h3]
    intro e he
    have x := h.entering e he
    have h7 := h6 (by simp [he])
    constructor
    · simp only [h4]; exact x.noReturn
    · simp only [h7]; exact x.noTimer
    · exact x.ready
    · simp only [h1]; exact x.from_
    · exact x.low
    · exact x.refresh
    · exact x.engine
    · exact x.spilling
  · simp only [h1]; exact h.away
  · exact h.booting
  · simp only [h1, h4]; exact h.coming
  · rw [mv]; exact h.still
  · simp only [h2]; exact h.failFor
  · simp only [h2, h3]; exact h.refreshed
  · simp only [h2, h3]; exact h.spilled
  · exact h.unspilled

theorem beginReturn_sound (r : Nat) {s : State} (h : MotorsSound s) (hb : s.boot.state = .ready)
    (he : s.power.entry = none) (hp : s.power.pfail = .inactive) (hd : s.power.state ≠ .standby)
    (hc : s.power.state = .sleep → s.lines.cover = false → bothFaulted s) :
    MotorsSound (beginReturn r s) := by
  unfold beginReturn
  split
  · exact h
  · constructor
    · exact h.resetSeen
    · exact h.pfailSeen
    · intro x
      rcases h.coverSeen x with y | y | y | y
      · exact .inl y
      · exact absurd y hd
      · exact .inr (.inr (.inl y))
      · exact .inl (hc y.1 x)
    · exact fun x => absurd hp x
    · intro e hx
      have : s.power.entry = some e := hx
      rw [he] at this; cases this
    · exact h.away
    · exact h.booting
    · exact fun _ => ⟨hb, hd⟩
    · exact h.still
    · exact h.failFor
    · exact h.refreshed
    · exact h.spilled
    · exact h.unspilled

theorem cutOff_fault (m : Motor) (c : Causes) : (m.cutOff c).state = .fault := by
  unfold Motor.cutOff
  dsimp only
  split
  · next h => simpa [Motor.faulted] using h
  · rfl

/-! ## Steps counted and abandonment told (R106, R112) -/

/-- The owner of a motion in progress hears at its abandonment of the steps issued and owed. -/
theorem report_moving {m : Motor} (hm : m.moving = true) (ho : m.owner = .scan ∨ m.owner = .print) :
    m.report = some { owner := m.owner, issued := m.issued, owed := m.plan.owed } := by
  unfold Motor.report
  rw [hm]
  rcases ho with h | h <;> simp [h]

/-- With no motion in progress nobody is told anew. -/
theorem report_still {m : Motor} (hm : m.moving = false) : m.report = m.told := by simp [Motor.report, hm]

theorem not_faulted_of_moving {m : Motor} (hm : m.moving = true) : m.faulted = false := by
  unfold Motor.moving at hm
  unfold Motor.faulted
  revert hm
  cases m.state <;> simp

/-- A fault cuts off a motion in progress and tells its owner. -/
theorem cutOff_tells {m : Motor} (c : Causes) (hm : m.moving = true) :
    (m.cutOff c).plan = .idle ∧ (m.cutOff c).owner = .nobody ∧ (m.cutOff c).told = m.report := by
  simp [Motor.cutOff, not_faulted_of_moving hm]

/-- A fault found on a channel with no motion leaves what was told. -/
theorem cutOff_told_still {m : Motor} (c : Causes) (hm : m.moving = false) : (m.cutOff c).told = m.told := by
  unfold Motor.cutOff
  dsimp only
  split
  · rfl
  · exact report_still hm

/-- A step issued is counted once, a channel with none to issue counts none. -/
theorem issue_issued (m : Motor) (ramp : List Byte) (patterns : Nat) :
    (m.issue ramp patterns).issued = if m.stepDue then m.issuedNext else m.issued := by
  unfold Motor.issue Motor.stepDue
  split
  case h_2 flat _ _ h => cases flat <;> simp [h, Plan.owed, Motor.turn]
  all_goals rename_i h; simp [h, Plan.owed, Motor.turn]

/-- Both channels in FAULT: sound whatever moved, where the jobs' place allows it. -/
theorem faulted_sound {s t : State} (h : MotorsSound s) (hf : bothFaulted t) (lines : t.lines = s.lines)
    (boot : t.boot.state = s.boot.state) (pst : t.power.state = s.power.state) (pfail : t.power.pfail = s.power.pfail)
    (entry : t.power.entry = s.power.entry) (ret : t.power.returning = s.power.returning)
    (timer : t.power.wakeTimer = s.power.wakeTimer)
    (sr : t.pmc.srPending = s.pmc.srPending) (spill : t.spill = s.spill)
    (scan : s.scanJob = none → t.scanJob = none) (prt : s.prtJob = none → t.prtJob = none) : MotorsSound t := by
  have mv : mayMove t ↔ mayMove s := by unfold mayMove; rw [pst, boot, pfail, entry]
  have lw : t.motS.low ∧ t.motP.low := ⟨.inr hf.1, .inr hf.2⟩
  constructor
  · rw [lines, boot]; exact h.resetSeen
  · rw [lines, boot, pfail, pst]; exact h.pfailSeen
  · exact fun _ => .inl hf
  · rw [pfail, pst, ret, entry]
    exact fun x => ⟨hf, (h.warned x).2⟩
  · rw [entry]
    intro e he
    have x := h.entering e he
    constructor
    · rw [ret]; exact x.noReturn
    · rw [timer]; exact x.noTimer
    · rw [boot]; exact x.ready
    · rw [pst]; exact x.from_
    · exact fun _ => lw
    · rw [sr]; exact x.refresh
    · rw [spill]; exact x.engine
    · rw [spill]; exact x.spilling
  · rw [pst, boot]; exact fun x => ⟨(h.away x).1, lw⟩
  · exact fun _ => lw
  · rw [ret, boot, pst]; exact h.coming
  · rw [mv]
    exact fun x => ⟨scan (h.still x).1, prt (h.still x).2.1, low_not_moving lw.1, low_not_moving lw.2⟩
  · rw [sr, pfail]; exact h.failFor
  · rw [pfail, entry, sr]; exact h.refreshed
  · rw [pfail, entry, boot, spill]; exact h.spilled
  · rw [boot, spill]; exact h.unspilled

theorem coverFound_sound {s : State} (h : MotorsSound s) : MotorsSound (coverFound s) :=
  faulted_sound h ⟨cutOff_fault _ _, cutOff_fault _ _⟩ rfl rfl rfl rfl rfl rfl rfl rfl rfl (fun x => x) (fun x => x)

theorem calm_readShadow (x : Shadow) (s : State) : Calm s (readShadow x s) := by
  constructor <;> first | rfl | exact .inl rfl | exact (fun h => h) | exact MotCalm.of_eq rfl

theorem takeLatch_sound {s : State} (h : MotorsSound s) :
    MotorsSound (takeLatch s) ∧ (s.power.state = .sleep → s.lines.cover = false → bothFaulted (takeLatch s)) := by
  unfold takeLatch
  split
  · have hf : bothFaulted (coverFound (mapPower (fun p => { p with coverLatch := false }) s)) :=
      ⟨cutOff_fault _ _, cutOff_fault _ _⟩
    exact ⟨faulted_sound h hf rfl rfl rfl rfl rfl rfl rfl rfl rfl (fun x => x) (fun x => x), fun _ _ => hf⟩
  · next hl =>
    refine ⟨h, fun hs hc => ?_⟩
    rcases h.coverSeen hc with y | y | y | y
    · exact y
    · rw [hs] at y; cases y
    · exact absurd y (by rw [(h.away (by rw [hs]; simp)).1]; simp)
    · exact absurd y.2.2 hl

/-- The core leaves SLEEP: sound, and with the cover open both channels are in FAULT (R173). -/
theorem leaveSleep_sound {s : State} (h : MotorsSound s) (he : s.power.entry = none) :
    MotorsSound (leaveSleep s) ∧ (s.power.state = .sleep → s.lines.cover = false → bothFaulted (leaveSleep s)) := by
  have h1 : MotorsSound (mapPower (fun p => { p with wakeTimer := none }) s) :=
    power_sound h _ rfl rfl rfl rfl rfl (fun x => absurd he x)
  have h2 : MotorsSound (mapPmc (fun p => { p with selfRefresh := false, refreshDue := true })
      (mapPower (fun p => { p with wakeTimer := none }) s)) := calm_sound h1 (calm_mapPmc rfl)
  have h3 := takeLatch_sound h2
  have k := calm_readShadow s.power.shadow (takeLatch (mapPmc (fun p => { p with selfRefresh := false, refreshDue := true })
      (mapPower (fun p => { p with wakeTimer := none }) s)))
  exact ⟨calm_sound h3.1 k, fun hs hc => ⟨k.motS.1 (h3.2 hs hc).1, k.motP.1 (h3.2 hs hc).2⟩⟩

theorem takeLatch_power (s : State) : (takeLatch s).power.state = s.power.state ∧ (takeLatch s).power.entry = s.power.entry ∧
    (takeLatch s).power.pfail = s.power.pfail ∧ (takeLatch s).power.returning = s.power.returning ∧
    (takeLatch s).boot = s.boot ∧ (takeLatch s).lines = s.lines ∧ (takeLatch s).scanJob = s.scanJob ∧
    (takeLatch s).prtJob = s.prtJob := by
  unfold takeLatch; split <;> exact ⟨rfl, rfl, rfl, rfl, rfl, rfl, rfl, rfl⟩

theorem leaveSleep_power (s : State) : (leaveSleep s).power.state = s.power.state ∧ (leaveSleep s).power.entry = s.power.entry ∧
    (leaveSleep s).power.pfail = s.power.pfail ∧ (leaveSleep s).power.returning = s.power.returning ∧
    (leaveSleep s).boot = s.boot ∧ (leaveSleep s).lines = s.lines ∧ (leaveSleep s).scanJob = s.scanJob ∧
    (leaveSleep s).prtJob = s.prtJob :=
  takeLatch_power (mapPmc (fun p => { p with selfRefresh := false, refreshDue := true })
      (mapPower (fun p => { p with wakeTimer := none }) s))

/-- A wake event with no entry under way. -/
theorem wakeEvent_sound (r : Nat) {s : State} (h : MotorsSound s) (he : s.power.entry = none) : MotorsSound (wakeEvent r s) := by
  have hp : s.power.state ≠ .run → s.power.pfail = .inactive := by
    intro x
    by_contra y
    exact x (h.warned y).2.1
  unfold wakeEvent
  split
  · exact h
  · next hs =>
    exact beginReturn_sound r h (h.away (by rw [hs]; simp)).1 he (hp (by rw [hs]; simp)) (by rw [hs]; simp)
      (by rw [hs]; simp)
  · next hs =>
    unfold sleepWake
    split
    · exact h
    · have k := leaveSleep_sound h he
      have q := leaveSleep_power s
      refine beginReturn_sound r k.1 ?_ ?_ ?_ ?_ ?_
      · rw [q.2.2.2.2.1]; exact (h.away (by rw [hs]; simp)).1
      · rw [q.2.1]; exact he
      · rw [q.2.2.1]; exact hp (by rw [hs]; simp)
      · rw [q.1, hs]; simp
      · rw [q.2.2.2.2.2.1]; exact fun _ x => k.2 hs x
  · exact coldStart_sound _

theorem wakeRise_sound (b r : Nat) (f : Risen → Risen) {s : State} (h : MotorsSound s) : MotorsSound (wakeRise b r f s) := by
  unfold wakeRise
  split
  · next e he =>
    have x := h.entering e he
    constructor
    · exact h.resetSeen
    · exact h.pfailSeen
    · exact h.coverSeen
    · intro y
      exact absurd (h.warned y).2.2.1 (by simp [he])
    · intro e' he'
      have : some { e with risen := f e.risen } = some e' := he'
      cases this
      exact ⟨x.noReturn, x.noTimer, x.ready, x.from_, x.low, x.refresh, x.engine, x.spilling⟩
    · exact h.away
    · exact h.booting
    · exact h.coming
    · intro _
      exact h.still fun y => by simp [y.2.2.2] at he
    · exact h.failFor
    · intro _ y; cases y
    · intro _ y; cases y
    · exact h.unspilled
  · next he =>
    split
    · exact wakeEvent_sound r h he
    · exact h

theorem ringRises_sound {s : State} (h : MotorsSound s) : MotorsSound (ringRises s) := by
  unfold ringRises
  split
  · exact h
  · exact wakeRise_sound _ _ _ (lines_sound h _ (fun x => x) (fun x => x) (fun x => x))

theorem keyRises_sound {s : State} (h : MotorsSound s) : MotorsSound (keyRises s) := by
  unfold keyRises
  split
  · exact h
  · exact wakeRise_sound _ _ _ (lines_sound h _ (fun x => x) (fun x => x) (fun x => x))

theorem docpRises_sound {s : State} (h : MotorsSound s) : MotorsSound (docpRises s) := by
  unfold docpRises
  split
  · exact h
  · have k := wakeRise_sound 2 3 (fun r => { r with docp := true })
      (lines_sound h { s.lines with docp := true } (fun x => x) (fun x => x) (fun x => x))
    exact calm_sound k (calm_ite (calm_raise ..) (.refl _))

theorem wakeTimerExpires_sound {s : State} (h : MotorsSound s) : MotorsSound (wakeTimerExpires s) := by
  unfold wakeTimerExpires
  split
  · next ht =>
    have he : s.power.entry = none := by
      cases x : s.power.entry
      · rfl
      · next e => rw [(h.entering e x).noTimer] at ht; cases ht
    exact wakeEvent_sound 4 (power_sound h _ rfl rfl rfl rfl rfl (fun x => absurd he x)) he
  · exact h

theorem idleConds_mayMove {s : State} (h : idleConds s = true) : mayMove s ∧ s.power.returning = none ∧ s.scanJob = none ∧ s.prtJob = none ∧
    s.motS.moving = false ∧ s.motP.moving = false := by
  simp only [idleConds, Bool.and_eq_true, decide_eq_true_eq, Option.isNone_iff_eq_none] at h
  obtain ⟨⟨⟨⟨⟨⟨⟨⟨⟨h1, h2⟩, h3⟩, h4⟩, h5⟩, h6⟩, h7⟩, h8⟩, h9⟩, h10⟩ := h
  refine ⟨⟨h1, h2, h10, h9⟩, h8, h3, h4, ?_, ?_⟩
  · unfold Motor.atRest at h6; unfold Motor.moving; split at h6 <;> simp_all
  · unfold Motor.atRest at h7; unfold Motor.moving; split at h7 <;> simp_all

theorem idleExpires_sound {s : State} (h : MotorsSound s) : MotorsSound (idleExpires s) := by
  unfold idleExpires
  split
  · split
    · next hc =>
      have k := idleConds_mayMove hc
      exact enterDoze_sound 7 0 h k.1 k.2.1 k.2.2.1 k.2.2.2.1 k.2.2.2.2.1 k.2.2.2.2.2
    · exact calm_sound h (calm_setIdle ..)
  · exact h

/-! ## COVER, PFAIL, resets -/

theorem calm_printFaulted (n : Nat) (s : State) : Calm s (printFaulted n s) := calm_mapPrtJob ..

theorem coverFalls_sound {s : State} (h : MotorsSound s) : MotorsSound (coverFalls s) := by
  unfold coverFalls
  split
  · next hc =>
    unfold coverOpened
    split
    · next hx =>
      constructor
      · exact h.resetSeen
      · exact h.pfailSeen
      · exact fun _ => hx.elim (fun y => .inr (.inl y)) (fun y => .inr (.inr (.inl y)))
      · exact h.warned
      · exact fun e he => { h.entering e he with }
      · exact h.away
      · exact h.booting
      · exact h.coming
      · exact h.still
      · exact h.failFor
      · exact h.refreshed
      · exact h.spilled
      · exact h.unspilled
    · next hx =>
      split
      · next hy =>
        constructor
        · exact h.resetSeen
        · exact h.pfailSeen
        · exact fun _ => .inr (.inr (.inr ⟨hy.1, hy.2, rfl⟩))
        · exact h.warned
        · intro e he
          have x := h.entering e he
          exact ⟨x.noReturn, x.noTimer, x.ready, x.from_, x.low, x.refresh, x.engine, x.spilling⟩
        · exact h.away
        · exact h.booting
        · exact h.coming
        · exact h.still
        · exact h.failFor
        · exact h.refreshed
        · exact h.spilled
        · exact h.unspilled
      · have hf : MotorsSound (cutOffBoth byCover (raise evCover 0 (movingChannels { s with lines := { s.lines with cover := false } }) 0
            { s with lines := { s.lines with cover := false } })) := by
          have lw : ∀ m : Motor, (m.cutOff byCover).low := fun m => .inr (cutOff_fault m _)
          have bf : bothFaulted (cutOffBoth byCover (raise evCover 0 (movingChannels { s with lines := { s.lines with cover := false } }) 0
            { s with lines := { s.lines with cover := false } })) := ⟨cutOff_fault _ _, cutOff_fault _ _⟩
          constructor
          · exact h.resetSeen
          · exact h.pfailSeen
          · exact fun _ => .inl bf
          · exact fun x => ⟨bf, (h.warned x).2⟩
          · intro e he
            have x := h.entering e he
            exact ⟨x.noReturn, x.noTimer, x.ready, x.from_, fun _ => ⟨lw _, lw _⟩, x.refresh, x.engine, x.spilling⟩
          · exact fun x => ⟨(h.away x).1, lw _, lw _⟩
          · exact fun _ => ⟨lw _, lw _⟩
          · exact h.coming
          · exact fun x => ⟨(h.still x).1, (h.still x).2.1, low_not_moving (lw _), low_not_moving (lw _)⟩
          · exact h.failFor
          · exact h.refreshed
          · exact h.spilled
          · exact h.unspilled
        exact calm_sound hf ((calm_scanFaulted _).trans (calm_printFaulted _ _))
  · exact h

/-- A power-fail warning before READY (R176). -/
theorem holdAtOnce_sound {s : State} (hr : s.lines.reset = true → s.boot.state = .reset) (_hb : s.boot.state ≠ .ready)
    (hs : s.power.state = .run) (he : s.power.entry = none) (ht : s.power.returning = none) (hj : s.scanJob = none)
    (hk : s.prtJob = none) : MotorsSound (holdAtOnce s) := by
  have bf : bothFaulted (holdAtOnce s) := ⟨cutOff_fault _ _, cutOff_fault _ _⟩
  have lw : (holdAtOnce s).motS.low ∧ (holdAtOnce s).motP.low := ⟨.inr bf.1, .inr bf.2⟩
  have p : (holdAtOnce s).lines = s.lines ∧ (holdAtOnce s).boot = s.boot ∧ (holdAtOnce s).power = { s.power with pfail := .hold } ∧
      (holdAtOnce s).spill = .idle ∧ (holdAtOnce s).scanJob = s.scanJob ∧ (holdAtOnce s).prtJob = s.prtJob := by
    simp only [holdAtOnce, killGrant, mapPower, mapPmc, cutOffBoth, and_self]
  generalize holdAtOnce s = t at *
  obtain ⟨p1, p2, p3, p4, p5, p6⟩ := p
  constructor
  · rw [p1, p2]; exact hr
  · rw [p3]; exact fun _ => .inl (by simp)
  · exact fun _ => .inl bf
  · rw [p3]; exact fun _ => ⟨bf, hs, he, ht⟩
  · rw [p3]; intro e hx; dsimp only at hx; rw [he] at hx; cases hx
  · rw [p3]; exact fun x => absurd hs x
  · exact fun _ => lw
  · rw [p3]; exact fun x => absurd ht x
  · exact fun _ => ⟨p5.trans hj, p6.trans hk, low_not_moving lw.1, low_not_moving lw.2⟩
  · rw [p3]; exact fun _ => by simp
  · rw [p3]; exact fun x => by cases x
  · exact fun _ _ _ => p4
  · exact fun _ => p4

theorem shell_beside_fold {f : State → Nat → State} (h : ∀ s i, Calm s (f s i)) (is : List Nat) :
    ∀ s : State, Calm s (is.foldl f s) := by
  induction is with
  | nil => exact .refl
  | cons i is ih => exact fun s => (h s i).trans (ih _)

theorem calm_withdrawWaits (s : State) : Calm s (withdrawWaits s) := by
  constructor <;> first | rfl | exact .inl rfl | exact (fun h => h) | exact MotCalm.refl _ _

theorem calm_completeAtPfail (s : State) (i : Nat) : Calm s (completeAtPfail s i) := by
  unfold completeAtPfail
  exact calm_ite (calm_completePage ..) (calm_ite (calm_completePage ..) ((calm_mapEntry i _ s).trans (calm_settleEmpty ..)))

theorem calm_dropReaders (s : State) (i : Nat) : Calm s (dropReaders s i) := (calm_removeReader ..).trans (calm_removeReader ..)

theorem calm_fillReplies (w : ReplyBody) (st : Status) (a : List Byte) (s : State) : Calm s (fillReplies w st a s) := calm_mapPort ..

theorem calm_dropJobs (s : State) : Calm s (dropJobs s) ∧ (dropJobs s).scanJob = none ∧ (dropJobs s).prtJob = none := by
  have h1 : Calm s (abandonCalibration s) := by
    unfold abandonCalibration
    exact calm_ite ((calm_mapFront ..).trans (calm_fillReplies ..)) (.refl s)
  have h2 := ((((((((((h1.trans (calm_mapFront (fun f => { f with lamp := false }) _)).trans (calm_emptyScanRing _)).trans
    (calm_emptyIntakeRing _)).trans (calm_emptyPrintRing _)).trans (calm_emptyOutputRing _)).trans (calm_clearIntakeLine _)).trans
    (calm_idleCoder .scan _)).trans (calm_idleCoder .intake _)).trans (calm_idleDecoder .print _)).trans
    (calm_idleDecoder .output _))
  unfold dropJobs
  dsimp only
  generalize idleDecoder .output _ = u at *
  refine ⟨h2.trans ?_, rfl, rfl⟩
  constructor <;> first | rfl | exact .inl rfl | exact (fun h => h) | exact MotCalm.refl _ _ | exact fun _ => rfl

theorem endAtPfail_calm (s : State) : Calm s (endAtPfail s) ∧ (endAtPfail s).scanJob = none ∧ (endAtPfail s).prtJob = none := by
  unfold endAtPfail
  dsimp only
  refine ⟨?_, (calm_dropJobs _).2⟩
  exact ((((calm_withdrawWaits s).trans (shell_beside_fold calm_completeAtPfail _ _)).trans
    (shell_beside_fold calm_dropReaders _ _)).trans (calm_releasePlace _)).trans (calm_dropJobs _).1

theorem endAtRestart_calm (s : State) : Calm s (endAtRestart s) ∧ (endAtRestart s).scanJob = none ∧ (endAtRestart s).prtJob = none := by
  unfold endAtRestart
  dsimp only
  refine ⟨?_, (calm_dropJobs _).2⟩
  exact ((((calm_withdrawWaits s).trans (shell_beside_fold (fun s i => calm_discardPage i true s) _ _)).trans
    (shell_beside_fold calm_dropReaders _ _)).trans (calm_releasePlace _)).trans (calm_dropJobs _).1

/-- The state right after the PFAIL sequence has begun (R176). -/
theorem warned_sound {t : State} (hr : t.lines.reset = true → t.boot.state = .reset) (hb : t.boot.state = .ready)
    (bf : bothFaulted t) (hp : t.power.pfail = .sequence) (hs : t.power.state = .run) (he : t.power.entry = none)
    (ht : t.power.returning = none) (hj : t.scanJob = none) (hk : t.prtJob = none) : MotorsSound t := by
  have lw : t.motS.low ∧ t.motP.low := ⟨.inr bf.1, .inr bf.2⟩
  have ne : t.power.pfail ≠ .inactive := by rw [hp]; simp
  constructor
  · exact hr
  · exact fun _ => .inl ne
  · exact fun _ => .inl bf
  · exact fun _ => ⟨bf, hs, he, ht⟩
  · rw [he]; exact nofun
  · exact fun x => absurd hs x
  · exact fun _ => lw
  · exact fun x => absurd ht x
  · exact fun _ => ⟨hj, hk, low_not_moving lw.1, low_not_moving lw.2⟩
  · exact fun _ => ne
  · exact fun x => absurd x ne
  · exact fun x => absurd x ne
  · rw [hb]; exact nofun

theorem pfailSequence_sound {s : State} (hr : s.lines.reset = true → s.boot.state = .reset) (hb : s.boot.state = .ready)
    (hj : ∀ e, s.power.entry = some e → s.scanJob = none ∧ s.prtJob = none) : MotorsSound (pfailSequence s) := by
  unfold pfailSequence
  dsimp only
  split
  · next hx =>
    have jn : s.scanJob = none ∧ s.prtJob = none := by
      have y : ∃ e, s.power.entry = some e := by
        cases x : s.power.entry
        · simp [spillBegun, cutOffBoth, x] at hx
        · exact ⟨_, rfl⟩
      obtain ⟨e, x⟩ := y
      exact hj e x
    have k : ∀ u : State, u.lines = s.lines → u.boot = s.boot → bothFaulted u → u.scanJob = none → u.prtJob = none →
        MotorsSound (pfailPower u) := by
      intro u h1 h2 h3 h4 h5
      refine warned_sound (t := pfailPower u) ?_ ?_ h3 rfl rfl rfl rfl h4 h5
      · show u.lines.reset = true → u.boot.state = .reset
        rw [h1, h2]; exact hr
      · show u.boot.state = .ready
        rw [h2]; exact hb
    have bf : bothFaulted (cutOffBoth byPfail s) := ⟨cutOff_fault _ _, cutOff_fault _ _⟩
    split
    · exact k _ rfl rfl bf jn.1 jn.2
    · exact k _ rfl rfl bf jn.1 jn.2
  · have e := endAtPfail_calm (cutOffBoth byPfail s)
    generalize endAtPfail (cutOffBoth byPfail s) = u at *
    refine warned_sound ?_ ?_ ⟨e.1.motS.1 (cutOff_fault _ _), e.1.motP.1 (cutOff_fault _ _)⟩ rfl rfl rfl rfl e.2.1 e.2.2
    · show u.lines.reset = true → u.boot.state = .reset
      rw [e.1.lines, e.1.boot]; exact hr
    · show u.boot.state = .ready
      rw [e.1.boot]; exact hb

theorem pfailLineRises_sound {s : State} (h : MotorsSound s) : MotorsSound (pfailLineRises s) := by
  unfold pfailLineRises
  split
  · exact h
  · unfold pfailRises
    split
    · next hx =>
      constructor
      · exact h.resetSeen
      · exact fun _ => hx.elim .inl (fun y => .inr (.inl y))
      · exact h.coverSeen
      · exact h.warned
      · exact fun e he => { h.entering e he with }
      · exact h.away
      · exact h.booting
      · exact h.coming
      · exact h.still
      · exact h.failFor
      · exact h.refreshed
      · exact h.spilled
      · exact h.unspilled
    · split
      · next hb =>
        have hb' : s.boot.state ≠ .ready := hb
        have hj := h.still fun x => hb' x.2.1
        refine holdAtOnce_sound h.resetSeen hb ?_ ?_ ?_ hj.1 hj.2.1
        · by_contra y; exact hb' (h.away y).1
        · show s.power.entry = none
          by_contra y
          obtain ⟨e, x⟩ := Option.ne_none_iff_exists'.mp y
          exact hb' (h.entering e x).ready
        · by_contra y; exact hb' (h.coming y).1
      · next hx hb =>
        have hb' : s.boot.state = .ready := by
          by_contra y; exact hb y
        have hj : ∀ e, s.power.entry = some e → s.scanJob = none ∧ s.prtJob = none := fun e he =>
          ⟨(h.still fun y => by simp [y.2.2.2] at he).1, (h.still fun y => by simp [y.2.2.2] at he).2.1⟩
        split
        · have q := leaveSleep_power { s with lines := { s.lines with pfail := true } }
          refine pfailSequence_sound ?_ ?_ ?_
          · rw [q.2.2.2.2.2.1, q.2.2.2.2.1]; exact h.resetSeen
          · rw [q.2.2.2.2.1]; exact hb'
          · rw [q.2.1, q.2.2.2.2.2.2.1, q.2.2.2.2.2.2.2]; exact hj
        · exact pfailSequence_sound h.resetSeen hb' hj

theorem pfailLineFalls_sound {s : State} (h : MotorsSound s) : MotorsSound (pfailLineFalls s) := by
  unfold pfailLineFalls
  split
  · dsimp only
    split
    · exact coldStart_sound _
    · exact lines_sound h _ (fun x => x) nofun (fun x => x)
  · exact h

/-- The boot state RESET ends (R177): the core begins with the cover and the warning as they stand. -/
theorem leaveReset_sound {s : State} (h : MotorsSound s) (hb : s.boot.state = .reset) (hl : s.lines.reset = false)
    (hp : s.power.pfail = .inactive) : MotorsSound (leaveReset s) := by
  have nr : s.boot.state ≠ .ready := by rw [hb]; simp
  have hs : s.power.state = .run := by by_contra y; exact nr (h.away y).1
  have ht : s.power.returning = none := by by_contra y; exact nr (h.coming y).1
  have he : s.power.entry = none := by
    cases x : s.power.entry
    · rfl
    · next e => exact absurd (h.entering e x).ready nr
  have hj := h.still fun x => nr x.2.1
  have lw := h.booting nr
  have key : ∀ u : State, u.lines = s.lines → u.boot.state = .spillcheck → u.power = s.power → u.pmc = s.pmc →
      u.scanJob = none → u.prtJob = none → (s.lines.pfail = false) → (u.motS.low ∧ u.motP.low) →
      (s.lines.cover = false → bothFaulted u) → MotorsSound u := by
    intro u h1 h2 h3 h4 h5 h6 h7 h8 h9
    constructor
    · rw [h1, hl]; exact nofun
    · rw [h1, h7]; exact nofun
    · rw [h1]; exact fun x => .inl (h9 x)
    · rw [h3]; exact fun x => absurd hp x
    · rw [h3, he]; exact nofun
    · rw [h3]; exact fun x => absurd hs x
    · exact fun _ => h8
    · rw [h3]; exact fun x => absurd ht x
    · exact fun _ => ⟨h5, h6, low_not_moving h8.1, low_not_moving h8.2⟩
    · rw [h4, h3]; exact h.failFor
    · rw [h4, h3]; exact h.refreshed
    · rw [h2]; exact fun _ _ x => by simp at x
    · rw [h2]; exact nofun
  have hold : ∀ u : State, u.lines = s.lines → u.boot.state = .spillcheck → u.power = s.power → u.scanJob = none →
      u.prtJob = none → MotorsSound (holdAtOnce u) := by
    intro u h1 h2 h3 h5 h6
    refine holdAtOnce_sound ?_ ?_ ?_ ?_ ?_ h5 h6
    · rw [h1, hl]; exact nofun
    · rw [h2]; simp
    · rw [h3]; exact hs
    · rw [h3]; exact he
    · rw [h3]; exact ht
  unfold leaveReset
  extract_lets sb s1 s2
  have e2 : s2.lines = s.lines ∧ s2.boot.state = .spillcheck ∧ s2.power = s.power ∧ s2.pmc = s.pmc ∧ s2.scanJob = none ∧
      s2.prtJob = none ∧ (s2.motS.low ∧ s2.motP.low) ∧ (s.lines.cover = false → bothFaulted s2) := by
    simp only [s2]
    split
    · next hc => exact ⟨rfl, rfl, rfl, rfl, hj.1, hj.2.1, lw, fun x => absurd hc (by simp [s1, x])⟩
    · exact ⟨rfl, rfl, rfl, rfl, hj.1, hj.2.1, ⟨.inr (cutOff_fault _ _), .inr (cutOff_fault _ _)⟩,
        fun _ => ⟨cutOff_fault _ _, cutOff_fault _ _⟩⟩
  obtain ⟨a1, a2, a3, a4, a5, a6, a7, a8⟩ := e2
  split
  · exact hold s2 a1 a2 a3 a5 a6
  · next hx =>
    refine key s2 a1 a2 a3 a4 a5 a6 ?_ a7 a8
    rw [a1] at hx; simpa using hx

theorem resetReleased_sound {s : State} (h : MotorsSound s) : MotorsSound (resetReleased s) := by
  unfold resetReleased
  split
  · next hr =>
    have k : MotorsSound { s with lines := { s.lines with reset := false } } :=
      lines_sound h _ nofun (fun x => x) (fun x => x)
    unfold resetEnds
    split
    · next hp => exact leaveReset_sound k (h.resetSeen hr) rfl hp
    · exact k
  · exact h

theorem resetStateEnds_sound {s : State} (h : MotorsSound s) : MotorsSound (resetStateEnds s) := by
  unfold resetStateEnds
  split
  · next hx =>
    unfold resetEnds
    split
    · next hp => exact leaveReset_sound h hx.1 (by simpa using hx.2) hp
    · exact h
  · exact h

/-! ## The SLEEP and STANDBY entries -/

/-- No job and nothing moving wherever an entry is under way. -/
theorem entry_still {s : State} (h : MotorsSound s) {e : SleepEntry} (he : s.power.entry = some e) :
    s.scanJob = none ∧ s.prtJob = none ∧ s.motS.moving = false ∧ s.motP.moving = false :=
  h.still fun y => by simp [y.2.2.2] at he

theorem entry_inactive {s : State} (h : MotorsSound s) {e : SleepEntry} (he : s.power.entry = some e) :
    s.power.pfail = .inactive := by
  by_contra y
  rw [(h.warned y).2.2.1] at he; cases he

/-- The state with its entry gone (abandoned or reached) or changed: what must hold of it. -/
theorem entry_gone {s t : State} (h : MotorsSound s) {e : SleepEntry} (he : s.power.entry = some e)
    (lines : t.lines = s.lines) (boot : t.boot.state = s.boot.state) (pst : t.power.state = s.power.state)
    (pfail : t.power.pfail = s.power.pfail) (entry : t.power.entry = none)
    (ret : t.power.returning = s.power.returning) (latch : t.power.coverLatch = s.power.coverLatch)
    (scan : t.scanJob = s.scanJob) (prt : t.prtJob = s.prtJob) (mS : t.motS = s.motS) (mP : t.motP = s.motP)
    (sr : t.pmc.srPending = none) (sp : t.spill = .idle) : MotorsSound t := by
  have x := h.entering e he
  have y := entry_still h he
  constructor
  · rw [lines, boot]; exact h.resetSeen
  · rw [lines, boot, pfail, pst]; exact h.pfailSeen
  · rw [lines, boot, pst, ret, latch]
    unfold bothFaulted
    rw [mS, mP]; exact h.coverSeen
  · rw [pfail]; exact fun z => absurd (entry_inactive h he) z
  · rw [entry]; exact nofun
  · rw [pst, boot, mS, mP]; exact h.away
  · rw [boot, mS, mP]; exact h.booting
  · rw [ret, boot, pst]; exact h.coming
  · rw [scan, prt, mS, mP]; exact fun _ => y
  · rw [sr]; exact nofun
  · exact fun _ _ => sr
  · exact fun _ _ _ => sp
  · exact fun _ => sp

theorem abandonEntry_sound (d : Bool) (k : Nat) {s : State} (h : MotorsSound s) {e : SleepEntry}
    (he : s.power.entry = some e) (sr : s.pmc.srPending = none) (sp : s.spill = .idle) : MotorsSound (abandonEntry d k s) := by
  have x := h.entering e he
  have g : MotorsSound (mapPower (fun p => { p with entry := none }) s) :=
    entry_gone h he rfl rfl rfl rfl rfl rfl rfl rfl rfl rfl rfl sr sp
  unfold abandonEntry
  dsimp only
  split
  · refine beginReturn_sound _ g x.ready rfl (show s.power.pfail = .inactive from entry_inactive h he) ?_ ?_
    · show s.power.state ≠ .standby
      rcases x.from_ with y | y <;> rw [y] <;> simp
    · show s.power.state = .sleep → _
      rcases x.from_ with y | y <;> rw [y] <;> simp
  · exact calm_sound g (calm_raise ..)

/-- The entry goes on with both channels down. -/
theorem entry_next {s t : State} (h : MotorsSound s) {e e' : SleepEntry} (he : s.power.entry = some e)
    (lines : t.lines = s.lines) (boot : t.boot.state = s.boot.state) (pst : t.power.state = s.power.state)
    (pfail : t.power.pfail = s.power.pfail) (entry : t.power.entry = some e')
    (ret : t.power.returning = s.power.returning) (latch : t.power.coverLatch = s.power.coverLatch)
    (timer : t.power.wakeTimer = s.power.wakeTimer)
    (scan : t.scanJob = s.scanJob) (prt : t.prtJob = s.prtJob) (flt : bothFaulted s → bothFaulted t)
    (lw : t.motS.low ∧ t.motP.low)
    (sr : t.pmc.srPending ≠ none → e'.stage = .selfRefresh ∧ t.pmc.srPending ≠ some .pfail) (en : t.spill.ofEntry = true)
    (sp : t.spill ≠ .idle → e'.stage = .spilling ∨ e'.stage = .clearing) : MotorsSound t := by
  have x := h.entering e he
  have y := entry_still h he
  have nr : s.boot.state ≠ .reset := by rw [x.ready]; simp
  constructor
  · rw [lines, boot]; exact h.resetSeen
  · rw [lines, boot, pfail, pst]; exact h.pfailSeen
  · rw [lines, boot, pst, ret, latch]
    exact fun z => (h.coverSeen z).imp flt (fun w => w)
  · rw [pfail]; exact fun z => absurd (entry_inactive h he) z
  · rw [entry]
    intro e2 h2
    cases h2
    constructor
    · rw [ret]; exact x.noReturn
    · rw [timer]; exact x.noTimer
    · rw [boot]; exact x.ready
    · rw [pst]; exact x.from_
    · exact fun _ => lw
    · exact fun z => (sr z).1
    · exact en
    · exact sp
  · rw [pst, boot]; exact fun z => ⟨(h.away z).1, lw⟩
  · exact fun _ => lw
  · rw [ret, boot, pst]; exact h.coming
  · rw [scan, prt]
    exact fun _ => ⟨y.1, y.2.1, low_not_moving lw.1, low_not_moving lw.2⟩
  · exact fun z => absurd z (sr (by rw [z]; simp)).2
  · rw [entry]; exact nofun
  · rw [entry]; exact nofun
  · rw [boot]; exact fun z => absurd z nr

theorem entryGoesOn_sound {s : State} (h : MotorsSound s) : MotorsSound (entryGoesOn s) := by
  unfold entryGoesOn
  split
  · exact h
  · next e he =>
    have x := h.entering e he
    have y := entry_still h he
    split
    · next hs =>
      have sr : s.pmc.srPending = none := by
        by_contra z
        have := x.refresh z
        rw [hs.1] at this; cases this
      have sp : s.spill = .idle := by
        by_contra z
        have := x.spilling z
        rw [hs.1] at this; simp at this
      split
      · exact abandonEntry_sound _ _ h he sr sp
      · unfold passCheck
        extract_lets u
        have f : u.lines = s.lines ∧ u.boot = s.boot ∧ u.pmc = s.pmc ∧ u.spill = s.spill ∧ u.scanJob = s.scanJob ∧
            u.prtJob = s.prtJob ∧ u.motS = s.motS.powerDown ∧ u.motP = s.motP.powerDown ∧ u.power.state = s.power.state ∧
            u.power.pfail = s.power.pfail ∧ u.power.entry = s.power.entry ∧ u.power.returning = s.power.returning ∧
            u.power.coverLatch = s.power.coverLatch ∧ u.power.wakeTimer = s.power.wakeTimer :=
          ⟨rfl, rfl, rfl, rfl, rfl, rfl, rfl, rfl, rfl, rfl, rfl, rfl, rfl, rfl⟩
        clear_value u
        obtain ⟨f1, f2, f3, f4, f5, f6, f7, f8, f9, f10, f11, f12, f13, f14⟩ := f
        have flt : bothFaulted s → bothFaulted u := fun z =>
          ⟨by rw [f7]; exact powerDown_fault z.1, by rw [f8]; exact powerDown_fault z.2⟩
        have lw : u.motS.low ∧ u.motP.low := by rw [f7, f8]; exact ⟨powerDown_low y.2.2.1, powerDown_low y.2.2.2⟩
        have fb : u.boot.state = s.boot.state := by rw [f2]
        have ne : ∀ g : EntryStage, (Option.map (fun e => { e with stage := g }) u.power.entry) = some { e with stage := g } := by
          intro g; rw [f11, he]; rfl
        split
        · exact entry_next (t := setStage .spilling { u with spill := .await .standby }) h he f1 fb f9 f10 (ne _) f12 f13 f14
            f5 f6 flt lw (fun z => absurd (show u.pmc.srPending = none by rw [f3]; exact sr) z) rfl (fun _ => .inl rfl)
        · refine entry_next (t := setStage .selfRefresh (askSelfRefresh .sleep u)) h he f1 fb f9 f10 (ne _) f12 f13 f14
            f5 f6 flt lw (fun _ => ⟨rfl, ?_⟩) ?_ (fun z => absurd (show u.spill = .idle by rw [f4]; exact sp) z)
          · show some SelfRefreshFor.sleep ≠ some .pfail
            simp
          · show u.spill.ofEntry = true
            rw [f4, sp]; rfl
    · exact h

/-! ## The DRAM's bursts -/

theorem abandonDiag_calm (s : State) : Calm s (abandonDiag s) := by
  have h : Calm s { s with diagQ := [] } := by
    constructor <;> first | rfl | exact .inl rfl | exact (fun h => h) | exact MotCalm.refl _ _
  exact h.trans (calm_fillReplies ..)

/-- SLEEP or STANDBY reached (R172, R174). -/
theorem reachPower_sound (st : PowerState) {e : SleepEntry} {t : State} (_hn : st = .sleep ∨ st = .standby)
    (hr : t.lines.reset = false) (hp : t.lines.pfail = false)
    (hc : t.lines.cover = false → bothFaulted t) (hf : t.power.pfail = .inactive) (hb : t.boot.state = .ready)
    (lw : t.motS.low ∧ t.motP.low) (ret : t.power.returning = none) (hj : t.scanJob = none) (hk : t.prtJob = none)
    (sr : t.pmc.srPending = none) (sp : t.spill = .idle) : MotorsSound (reachPower st e t) := by
  constructor
  · show t.lines.reset = true → _
    rw [hr]; exact nofun
  · show t.lines.pfail = true → _
    rw [hp]; exact nofun
  · exact fun x => .inl (hc x)
  · exact fun x => absurd hf x
  · intro e' he'
    cases he'
  · exact fun _ => ⟨hb, lw⟩
  · exact fun _ => lw
  · exact fun x => absurd ret x
  · exact fun _ => ⟨hj, hk, low_not_moving lw.1, low_not_moving lw.2⟩
  · show t.pmc.srPending = some .pfail → _
    rw [sr]; exact nofun
  · exact fun _ _ => sr
  · exact fun _ _ _ => sp
  · exact fun _ => sp

theorem lastRefreshMade_sound {s : State} (h : MotorsSound s) : MotorsSound (lastRefreshMade s) := by
  unfold lastRefreshMade
  split
  · exact h
  · next why hw =>
    unfold enterSelfRefresh
    have c := abandonDiag_calm (mapPmc (fun p => { p with selfRefresh := true, srPending := none, refreshDue := false }) s)
    have k1 : ∀ e, s.power.entry = some e → ∀ st, (st = .sleep ∨ st = .standby) →
        MotorsSound (reachPower st e (abandonDiag (mapPmc (fun p => { p with selfRefresh := true, srPending := none, refreshDue := false }) s))) := by
      intro e he st hst
      have x := h.entering e he
      have y := entry_still h he
      have hstage := x.refresh (by rw [hw]; simp)
      have lw := x.low (by rw [hstage]; simp)
      have hp := entry_inactive h he
      have nr : s.boot.state ≠ .reset := by rw [x.ready]; simp
      have ns : s.power.state ≠ .standby := by rcases x.from_ with z | z <;> rw [z] <;> simp
      have nl : s.power.state ≠ .sleep := by rcases x.from_ with z | z <;> rw [z] <;> simp
      refine reachPower_sound st hst ?_ ?_ ?_ ?_ ?_ ?_ ?_ ?_ ?_ ?_ ?_
      · rw [c.lines]
        cases z : s.lines.reset
        · exact z
        · exact absurd (h.resetSeen z) nr
      · rw [c.lines]
        cases z : s.lines.pfail
        · exact z
        · exact absurd (h.pfailSeen z) (by simp [hp, ns, nr])
      · rw [c.lines]
        intro z
        rcases h.coverSeen z with w | w | w | w
        · exact ⟨c.motS.1 w.1, c.motP.1 w.2⟩
        · exact absurd w ns
        · exact absurd w nr
        · exact absurd w.1 nl
      · rw [c.pfail]; exact hp
      · rw [c.boot]; exact x.ready
      · exact ⟨low_of_state (c.motS.2 y.1) lw.1, low_of_state (c.motP.2 y.2.1) lw.2⟩
      · rw [c.ret]; exact x.noReturn
      · exact c.scan y.1
      · exact c.prt y.2.1
      · rw [c.sr]; rfl
      · refine c.spill.idle ?_
        show s.spill = .idle
        by_contra z
        have := x.spilling z
        rw [hstage] at this; simp at this
    have hent : ∀ {o : Option SleepEntry}, (abandonDiag (mapPmc (fun p => { p with selfRefresh := true, srPending := none, refreshDue := false }) s)).power.entry = o →
        s.power.entry = o := fun z => c.entry.symm.trans z
    have k0 : MotorsSound (mapPmc (fun p => { p with selfRefresh := true, srPending := none, refreshDue := false }) s) := by
      constructor
      · exact h.resetSeen
      · exact h.pfailSeen
      · exact h.coverSeen
      · exact h.warned
      · intro e he
        have x := h.entering e he
        exact ⟨x.noReturn, x.noTimer, x.ready, x.from_, x.low, fun z => absurd rfl z, x.engine, x.spilling⟩
      · exact h.away
      · exact h.booting
      · exact h.coming
      · exact h.still
      · exact nofun
      · exact fun _ _ => rfl
      · exact h.spilled
      · exact h.unspilled
    have kc := calm_sound k0 c
    dsimp only
    generalize hu : abandonDiag (mapPmc (fun p => { p with selfRefresh := true, srPending := none, refreshDue := false }) s) = u at *
    split
    · next e he => exact k1 e (hent he) _ (.inl rfl)
    · next e he => exact k1 e (hent he) _ (.inr rfl)
    · unfold reachHold
      dsimp only
      have ne := h.failFor hw
      have w := h.warned ne
      have bf : bothFaulted u := ⟨c.motS.1 w.1.1, c.motP.1 w.1.2⟩
      split
      · have lw : u.motS.low ∧ u.motP.low := ⟨.inr bf.1, .inr bf.2⟩
        have jn := kc.still fun z => ne (c.pfail ▸ z.2.2.1)
        constructor
        · exact kc.resetSeen
        · exact fun _ => .inl (by simp [mapPower])
        · exact fun _ => .inl bf
        · exact fun _ => ⟨bf, by show u.power.state = _; rw [c.pst]; exact w.2.1, by show u.power.entry = _; rw [c.entry]; exact w.2.2.1,
            by show u.power.returning = _; rw [c.ret]; exact w.2.2.2⟩
        · intro e he
          have : u.power.entry = some e := he
          rw [c.entry] at this
          have z : s.power.entry = some e := this
          rw [w.2.2.1] at z; cases z
        · exact fun x => ⟨(kc.away x).1, lw⟩
        · exact fun _ => lw
        · exact kc.coming
        · exact fun _ => ⟨jn.1, jn.2.1, low_not_moving lw.1, low_not_moving lw.2⟩
        · exact fun _ => by simp [mapPower]
        · exact fun x => by simp [mapPower] at x
        · exact fun x => by simp [mapPower] at x
        · exact kc.unspilled
      · exact coldStart_sound _
    · exact kc
    · exact kc

theorem calm_checkLink (b : Nat) (s : State) : Calm s (checkLink b s) := calm_of (shell_checkLink ..) (beside_checkLink ..)

theorem calm_doUpkeep (op : Upkeep) (s : State) : Calm s (doUpkeep op s) := by
  unfold doUpkeep
  split
  · exact calm_mapDram ..
  · exact calm_mapDram ..
  · dsimp only
    exact (calm_checkLink ..).trans
      (calm_ite (((calm_ite (.refl _) (calm_mapPmc rfl)).trans (calm_pumpAsk ..)).trans (calm_pumpAsk ..)) (.refl _))

theorem calm_doBuild (s : State) : Calm s (doBuild s) := by
  unfold doBuild
  split
  · exact .refl s
  · dsimp only
    exact calm_ite ((calm_mapDram ..).trans (calm_mapPmc rfl))
      ((((calm_mapDram ..).trans (calm_mapPmc rfl)).trans (calm_pumpAsk ..)).trans (calm_pumpAsk ..))

theorem calm_fillReply (w : ReplyBody) (st : Status) (a : List Byte) (s : State) : Calm s (fillReply w st a s) := calm_mapPort ..

theorem calm_diagBurst (s : State) : Calm s (diagBurst s) := by
  have h : ∀ (m : Memory) (q : List DiagAccess), Calm s { s with dram := m, diagQ := q } := by
    intro m q
    constructor <;> first | rfl | exact .inl rfl | exact (fun h => h) | exact MotCalm.refl _ _
  unfold diagBurst
  split
  · exact .refl s
  · exact calm_ite (h _ _) ((h _ _).trans (calm_fillReply ..))

theorem calm_unitsWritten (c : CoderCtx) (n : Nat) (s : State) : Calm s (unitsWritten c n s) := by
  have al : ∀ (w : Bool) (u : State), Calm u (afterLine c w u) := by
    intro w u
    unfold afterLine
    split
    · split
      · exact calm_scanDecision ..
      · exact (calm_completePage ..).trans (calm_endIntake ..)
    · exact calm_ite (calm_completePage ..) (.refl u)
  unfold unitsWritten
  extract_lets s1
  have h : Calm s s1 := calm_mapCoder ..
  exact calm_ite (h.trans ((calm_lineCoded ..).trans (al _ _))) (calm_ite (h.trans (calm_askBlock ..)) h)

/-! ## The spill engine -/

/-- The spill engine's state changed, in a state that holds it free. -/
theorem spill_sound {s : State} (h : MotorsSound s) (x : SpillEngine)
    (he : ∀ e, s.power.entry = some e → x.ofEntry = true ∧ (x ≠ .idle → s.spill ≠ .idle))
    (hi : s.spill = .idle → x = .idle) : MotorsSound { s with spill := x } := by
  constructor
  · exact h.resetSeen
  · exact h.pfailSeen
  · exact h.coverSeen
  · exact h.warned
  · intro e hx
    have y := h.entering e hx
    exact ⟨y.noReturn, y.noTimer, y.ready, y.from_, y.low, y.refresh, (he e hx).1, fun z => y.spilling ((he e hx).2 z)⟩
  · exact h.away
  · exact h.booting
  · exact h.coming
  · exact h.still
  · exact h.failFor
  · exact h.refreshed
  · exact fun a b c => hi (h.spilled a b c)
  · exact fun a => hi (h.unspilled a)

/-- The boot state goes on before READY, or under a power-fail warning: no channel was moving, and RESET is not its state
before or after. -/
theorem boot_sound {s : State} (h : MotorsSound s) (b : Boot) (x : SpillEngine) (h1 : s.boot.state ≠ .reset)
    (h2 : b.state ≠ .reset) (he : s.power.entry = none) (h3 : s.boot.state ≠ .ready ∨ s.power.pfail ≠ .inactive)
    (hx : (b.state = .ready ∨ b.state = .portload ∨ b.state = .romload) → x = .idle) :
    MotorsSound { s with boot := b, spill := x } := by
  have hs : s.power.state = .run := h3.elim (fun z => by by_contra y; exact z (h.away y).1) fun z => (h.warned z).2.1
  have ht : s.power.returning = none :=
    h3.elim (fun z => by by_contra y; exact z (h.coming y).1) fun z => (h.warned z).2.2.2
  have jn := h.still fun y => h3.elim (fun z => z y.2.1) (fun z => z y.2.2.1)
  have lw : s.motS.low ∧ s.motP.low := h3.elim h.booting fun z => ⟨.inr (h.warned z).1.1, .inr (h.warned z).1.2⟩
  constructor
  · exact fun y => absurd (h.resetSeen y) h1
  · exact fun y => (h.pfailSeen y).imp (fun z => z) (fun z => z.imp (fun w => w) (fun w => absurd w h1))
  · intro y
    rcases h.coverSeen y with z | z | z | z
    · exact .inl z
    · exact .inr (.inl z)
    · exact absurd z h1
    · exact .inr (.inr (.inr z))
  · exact h.warned
  · intro e hx
    have : s.power.entry = some e := hx
    rw [he] at this; cases this
  · exact fun y => absurd hs y
  · exact fun _ => lw
  · exact fun y => absurd ht y
  · exact fun _ => jn
  · exact h.failFor
  · exact h.refreshed
  · exact fun _ _ y => hx y
  · exact fun y => absurd y h2

theorem noSpill_sound {s : State} (h : MotorsSound s) (h1 : s.boot.state ≠ .reset) (he : s.power.entry = none)
    (h3 : s.boot.state ≠ .ready ∨ s.power.pfail ≠ .inactive) : MotorsSound (noSpill s) :=
  boot_sound h _ _ h1 (by dsimp only; split <;> simp) he h3 (fun _ => rfl)

theorem calm_noSource (s : State) : Calm s (mapPower (fun p => { p with keptSource := none }) s) := by
  constructor <;> first | rfl | exact .inl rfl | exact (fun h => h) | exact MotCalm.refl _ _

theorem reachReady_sound (r : Nat) {s : State} (h : MotorsSound s) (h1 : s.boot.state ≠ .reset) (he : s.power.entry = none)
    (h3 : s.boot.state ≠ .ready ∨ s.power.pfail ≠ .inactive) (sp : s.spill = .idle) : MotorsSound (reachReady r s) := by
  have k : MotorsSound (mapBoot (fun b => { b with state := .ready, romPos := 0, romSum := 0 }) s) :=
    boot_sound h { s.boot with state := .ready, romPos := 0, romSum := 0 } s.spill h1 (by simp) he h3 (fun _ => sp)
  unfold reachReady
  dsimp only
  split
  · exact calm_sound k (calm_raise ..)
  · exact calm_sound k (((calm_raise evBoot 0 0 r _).trans (calm_noSource _)).trans (calm_raise ..))

theorem calm_restoreSpill (b : List Byte) (s : State) : Calm s (restoreSpill b s) := by
  unfold restoreSpill
  refine Calm.trans ?_ (calm_readShadow _ _)
  simp only [mapPmc, mapPower]
  constructor <;> dsimp only <;> first | rfl | exact .inl rfl | exact (fun h => h) | exact MotCalm.refl _ _

theorem standbySpilled_sound {s : State} (h : MotorsSound s) (hs : s.spill = .idle)
    (hl : ∀ e, s.power.entry = some e → e.stage ≠ .waitReply ∧ s.pmc.srPending = none) : MotorsSound (standbySpilled s) := by
  unfold standbySpilled
  split
  · exact h
  · next e he =>
    have x := h.entering e he
    have lw := x.low (hl e he).1
    have sr := (hl e he).2
    split
    · next k _ =>
      exact entry_next (e' := { e with stage := .clearing, found := k }) h he rfl rfl rfl rfl rfl rfl rfl rfl rfl rfl
        (fun z => z) lw (fun z => absurd sr z) rfl (fun _ => .inr rfl)
    · refine entry_next (t := setStage .selfRefresh (askSelfRefresh .standby s)) (e' := { e with stage := .selfRefresh }) h he
        rfl rfl rfl rfl ?_ rfl rfl rfl rfl rfl (fun z => z) lw (fun _ => ⟨rfl, ?_⟩) ?_ (fun z => absurd hs z)
      · show Option.map _ s.power.entry = _
        rw [he]; rfl
      · show some SelfRefreshFor.standby ≠ some .pfail
        simp
      · show s.spill.ofEntry = true
        rw [hs]; rfl

theorem askPfail_sound {s : State} (h : MotorsSound s) (hp : s.power.pfail ≠ .inactive) :
    MotorsSound (askSelfRefresh .pfail s) := by
  constructor
  · exact h.resetSeen
  · exact h.pfailSeen
  · exact h.coverSeen
  · exact h.warned
  · intro e he
    have : s.power.entry = some e := he
    rw [(h.warned hp).2.2.1] at this; cases this
  · exact h.away
  · exact h.booting
  · exact h.coming
  · exact h.still
  · exact fun _ => hp
  · exact fun x => absurd x hp
  · exact h.spilled
  · exact h.unspilled

theorem spillBurst_sound {s : State} (h : MotorsSound s) : MotorsSound (spillBurst s) := by
  -- a spill engine at work on what no entry needs: no entry, and READY only under a warning
  have out : s.spill.ofEntry = false → s.power.entry = none := by
    intro x
    by_contra y
    obtain ⟨e, he⟩ := Option.ne_none_iff_exists'.mp y
    rw [(h.entering e he).engine] at x; cases x
  have nr : s.spill ≠ .idle → s.boot.state ≠ .reset := fun x y => x (h.unspilled y)
  have b3 : s.spill ≠ .idle → s.power.entry = none → (s.boot.state ≠ .ready ∨ s.power.pfail ≠ .inactive) := by
    intro x y
    by_contra z
    push Not at z
    exact x (h.spilled z.2 y (.inl z.1))
  have st : ∀ e, s.power.entry = some e → s.spill ≠ .idle → e.stage ≠ .waitReply ∧ s.pmc.srPending = none := by
    intro e he x
    have y := h.entering e he
    have z := y.spilling x
    refine ⟨?_, ?_⟩
    · rcases z with z | z <;> rw [z] <;> simp
    · by_contra w
      have := y.refresh w
      rcases z with z | z <;> rw [z] at this <;> cases this
  have md : ∀ f : Memory → Memory, MotorsSound (mapDram f s) := fun f => calm_sound h (calm_mapDram f s)
  unfold spillBurst
  split
  · exact h
  · next z hz =>
    have ne : s.spill ≠ .idle := by rw [hz]; simp
    have e0 := out (by rw [hz]; rfl)
    unfold checkCandidate
    split
    · exact spill_sound h _ (fun e he => by rw [e0] at he; cases he) (fun x => absurd x ne)
    · split
      · exact spill_sound h _ (fun e he => by rw [e0] at he; cases he) (fun x => absurd x ne)
      · exact noSpill_sound h (nr ne) e0 (b3 ne e0)
  · next z g b hz =>
    have ne : s.spill ≠ .idle := by rw [hz]; simp
    have e0 := out (by rw [hz]; rfl)
    unfold readSpill
    dsimp only
    split
    · split
      · exact boot_sound h _ _ (nr ne) (by simp) e0 (b3 ne e0) (by simp)
      · exact noSpill_sound (calm_sound h (calm_raise ..)) (nr ne) e0 (b3 ne e0)
    · exact spill_sound h _ (fun e he => by rw [e0] at he; cases he) (fun x => absurd x ne)
  · next z g hz =>
    have ne : s.spill ≠ .idle := by rw [hz]; simp
    have e0 := out (by rw [hz]; rfl)
    have one : ∀ x : SpillEngine, MotorsSound { s with spill := x } := fun x =>
      spill_sound h x (fun e he => by rw [e0] at he; cases he) (fun x => absurd x ne)
    unfold rereadSpill
    dsimp only
    split
    · exact one _
    · split
      · split
        · have c := calm_restoreSpill (g ++ s.dram.readAll (reserveAddr z + g.length) (spillStep g)) s
          refine spill_sound (calm_sound h c) _ (fun e he => ?_) (fun x => ?_)
          · rw [c.entry, e0] at he; cases he
          · exact absurd x ne
        · exact one _
      · exact one _
  · next z n hz =>
    have ne : s.spill ≠ .idle := by rw [hz]; simp
    have k : MotorsSound { mapDram (·.writeAll (reserveAddr z) false (be16 0)) s with spill := .idle } :=
      spill_sound (md _) _ (fun e he => ⟨rfl, fun x => absurd rfl x⟩) (fun _ => rfl)
    unfold clearMarker
    dsimp only
    split
    · have e0 := out (by rw [hz]; rfl)
      exact reachReady_sound 2 k (nr ne) e0 (b3 ne e0) rfl
    · have e0 := out (by rw [hz]; rfl)
      exact noSpill_sound (calm_sound k (calm_raise ..)) (nr ne) e0 (b3 ne e0)
    · unfold standbyAbandoned
      split
      · exact k
      · next e he => exact abandonEntry_sound _ _ k he (st e he ne).2 rfl
  · exact h
  · next w o d hz =>
    have ne : s.spill ≠ .idle := by rw [hz]; simp
    unfold writeSpill
    dsimp only
    refine spill_sound (md _) _ (fun e he => ⟨?_, fun _ => ne⟩) (fun x => absurd x ne)
    split <;> rfl
  · next w hz =>
    have ne : s.spill ≠ .idle := by rw [hz]; simp
    have k : MotorsSound { mapDram (·.writeAll (reserveAddr (setMemSize s)) false (be16 Config.spillMarker)) s with spill := .idle } :=
      spill_sound (md _) _ (fun e he => ⟨rfl, fun x => absurd rfl x⟩) (fun _ => rfl)
    unfold writeMarker
    dsimp only
    split
    · exact standbySpilled_sound k rfl (fun e he => st e he ne)
    · next hp => exact askPfail_sound k hp

theorem endGrant_sound {s : State} (h : MotorsSound s) : MotorsSound (endGrant s) := by
  unfold endGrant
  split
  · exact h
  · next g _ =>
    have k : MotorsSound (mapPmc (fun p => { p with grant := none }) s) := calm_sound h (calm_mapPmc rfl)
    generalize mapPmc (fun p => { p with grant := none }) s = u at *
    unfold deliver
    split
    · exact k
    · exact lastRefreshMade_sound k
    · exact calm_sound k ((calm_mapPmc rfl).trans (calm_doUpkeep ..))
    · exact calm_sound k (calm_ite (calm_decodeBurst ..) (.refl _))
    · dsimp only
      exact calm_sound k ((calm_mapDram ..).trans (calm_ite (calm_unitsWritten ..) (.refl _)))
    · exact calm_sound k (calm_ite (calm_doBuild ..) (.refl _))
    · split
      · exact spillBurst_sound k
      · exact k
    · exact calm_sound k (calm_ite (calm_diagBurst ..) (.refl _))

end Sys2Proof.Machine
end

