-- ==== Sys2Proof/Laws/Directory.lean ====
section
/-! SUPPORT. PagesSound under the operations: entries created and taken up, jobs begun and ended, the cold starts, the spill. -/

-- one declaration after the other: run side by side, the proofs of the whole package hold more threads than memory has room for
set_option Elab.async false

namespace Sys2Proof.Machine

theorem nBlocks_ge {s : State} (h : (s.tables.active[(0 : Fin 14)]).isSome = true) : Config.reserveBlocks + 1 ≤ nBlocks s := by
  unfold nBlocks
  split
  · next k => rw [k] at h; cases h
  · cases setMemSize s <;> decide

theorem nBlocks_same {s t : State} (h : t.tables.active[(0 : Fin 14)] = s.tables.active[(0 : Fin 14)]) : nBlocks t = nBlocks s := by
  unfold nBlocks setMemSize settingsImage
  rw [h]

theorem SpillMoves.restored {a b : SpillEngine} (h : SpillMoves a b) : b.restored = a.restored := by
  rcases h with rfl | ⟨w, o, d, rfl, rfl⟩ <;> rfl
theorem SpillMoves.restoring {a b : SpillEngine} (h : SpillMoves a b) : b.restoring = a.restoring := by
  rcases h with rfl | ⟨w, o, d, rfl, rfl⟩ <;> rfl
theorem SpillMoves.ofEntry {a b : SpillEngine} (h : SpillMoves a b) : b.ofEntry = a.ofEntry := by
  rcases h with rfl | ⟨w, o, d, rfl, rfl⟩ <;> rfl
theorem not_restored {a : SpillEngine} (h : a.ofEntry = true) : a.restored = false ∧ a.restoring = false := by
  cases a with
  | clearMarker z n => cases n <;> first | exact ⟨rfl, rfl⟩ | cases h
  | restore z b => cases h
  | _ => exact ⟨rfl, rfl⟩

theorem PagesSound.core {s : State} (h : PagesSound s) :
    ∃ K, Core none K 0 s ∧ (s.inForce → K + Config.reserveBlocks = nBlocks s) := by
  have mk : ∀ K, (s.pmc.build = none → s.pmc.count + blockSum none s.dir.entries + 0 = K) → Core none K 0 s := by
    intro K q
    refine ⟨h.dir.2, fun c id x => ⟨by simp, h.writers c id x⟩, h.idle, q, fun x => ?_⟩
    rw [blockSum_none]
    exact h.building x
  by_cases b : s.pmc.build = none
  · refine ⟨s.pmc.count + blockSum none s.dir.entries + 0, mk _ fun _ => rfl, fun f => ?_⟩
    have := h.law f b
    unfold State.blocksSound freeCount at this
    rw [b] at this
    rw [blockSum_none]
    simpa using this
  · refine ⟨nBlocks s - Config.reserveBlocks, mk _ fun x => absurd x b, fun f => ?_⟩
    have := nBlocks_ge (h.settings f)
    omega

theorem PagesSound.of {s : State} {K : Nat} (c : Core none K 0 s) (l : s.inForce → K + Config.reserveBlocks = nBlocks s)
    (room : s.dir.entries.length + s.dir.places ≤ Config.directoryRoom)
    (search : ∀ j, s.scanJob = some j → j.phase = .search → 1 ≤ s.dir.places)
    (int : s.intJob = none → s.intakeCd.page = none ∧ s.intakeCd.dirWait = none)
    (wait : s.intakeCd.dirWait ≠ none → s.intakeCd.page = none)
    (boot : s.boot.state ≠ .ready → s.intJob = none ∧ s.scanJob = none ∧ s.pmc.build = none)
    (empty : s.boot.state ≠ .ready → s.boot.state ≠ .restore → s.dir.entries = [])
    (settings : s.inForce → (s.tables.active[(0 : Fin 14)]).isSome = true)
    (engine : s.boot.state = .ready → s.spill.ofEntry = true)
    (reading : s.spill.ofEntry = false → s.spill.restored = false → s.dir.entries = [])
    (restoring : s.spill.restoring = true → s.boot.state = .restore) : PagesSound s := by
  refine ⟨⟨room, c.ids⟩, fun d i q => (c.coder d i q).2, c.free, search, int, wait, boot, empty, settings, engine, reading,
    restoring, ?_, ?_⟩
  · intro q
    have := c.building q
    rw [blockSum_none] at this
    exact this
  · intro f b
    have x := c.law b
    have y := l f
    rw [blockSum_none] at x
    unfold State.blocksSound freeCount
    rw [b]
    simp only [Option.isSome_none, Bool.false_eq_true, if_false]
    omega

theorem sound_of {s t : State} (h : PagesSound s) (core : ∀ K, Core none K 0 s → Core none K 0 t)
    (build : t.pmc.build = s.pmc.build) (room : t.dir.entries.length + t.dir.places ≤ Config.directoryRoom)
    (active : t.tables.active[(0 : Fin 14)] = s.tables.active[(0 : Fin 14)]) (boot : t.boot.state = s.boot.state)
    (spill : SpillMoves s.spill t.spill) (empty : s.boot.state ≠ .ready → s.dir.entries = [] → t.dir.entries = [])
    (search : ∀ j, t.scanJob = some j → j.phase = .search → 1 ≤ t.dir.places)
    (int : t.intJob = none → t.intakeCd.page = none ∧ t.intakeCd.dirWait = none)
    (wait : t.intakeCd.dirWait ≠ none → t.intakeCd.page = none)
    (job : s.boot.state ≠ .ready → t.intJob = none ∧ t.scanJob = none) : PagesSound t := by
  obtain ⟨K, c, l⟩ := h.core
  have f : t.inForce ↔ s.inForce := by unfold State.inForce; rw [boot, spill.restored]
  refine PagesSound.of (core K c) ?_ room search int wait ?_ ?_ ?_ ?_ ?_ ?_
  · rw [f, nBlocks_same active]; exact l
  · rw [boot, build]; exact fun x => ⟨(job x).1, (job x).2, (h.booting x).2.2⟩
  · rw [boot]; exact fun x y => empty x (h.empty x y)
  · rw [f, active]; exact h.settings
  · rw [boot, spill.ofEntry]; exact h.engine
  · rw [spill.ofEntry, spill.restored]
    intro x y
    refine empty (fun z => ?_) (h.reading x y)
    rw [h.engine z] at x; cases x
  · rw [spill.restoring, boot]; exact h.restoring

theorem sound_keep {s t : State} (h : PagesSound s) (k : Keep s t) : PagesSound t := by
  refine sound_of h k.core k.build ?_ k.active k.boot k.spill ?_ ?_ ?_ ?_ ?_
  · have := k.ids.length_le
    simp only [List.length_map] at this
    have := k.places
    have := h.dir.1
    omega
  · intro _ x
    have := k.ids
    rw [x] at this
    simpa using this
  · intro j x y
    obtain ⟨⟨i, z, w⟩, v⟩ := k.search ⟨j, x, y⟩
    rw [v]; exact h.searching i z w
  · intro x
    rcases k.int with ⟨p, q⟩ | ⟨p, q, _⟩
    · have y := h.intake (none_of_isNone p.symm x)
      refine ⟨(k.pages .intake).elim (fun w => w.trans y.1) (fun w => w), ?_⟩
      exact q.elim (fun w => w.trans y.2) (fun w => w)
    · exact ⟨p, q⟩
  · intro x
    rcases k.int with ⟨p, q⟩ | ⟨p, q, _⟩
    · have := h.waiting fun w => x (q.elim (fun v => v.trans w) (fun v => v))
      exact (k.pages .intake).elim (fun w => w.trans this) (fun w => w)
    · exact p
  · intro x
    have y := h.booting x
    refine ⟨?_, k.scan y.2.1⟩
    rcases k.int with ⟨p, q⟩ | ⟨_, _, q⟩
    · exact none_of_isNone p y.1
    · exact q y.1

/-! ## Entries created and taken up -/

theorem idAfter_range (n : Nat) : 1 ≤ idAfter n ∧ idAfter n ≤ 255 := by unfold idAfter; split <;> omega

/-- The id `k` places after one. -/
def idAt (n k : Nat) : Nat := (n - 1 + k) % 255 + 1

theorem idAt_succ {n : Nat} (h : 1 ≤ n ∧ n ≤ 255) (k : Nat) : idAt n (k + 1) = idAt (idAfter n) k := by
  unfold idAt idAfter
  split
  · have : n = 255 := by omega
    subst this
    omega
  · omega

theorem pickId_used {used : List Nat} (f : Nat) : ∀ (n : Nat), (1 ≤ n ∧ n ≤ 255) → pickId used f n ∈ used →
    ∀ k, k < f + 1 → idAt n k ∈ used := by
  induction f with
  | zero =>
    intro n h m k hk
    have : k = 0 := by omega
    subst this
    have : idAt n 0 = n := by unfold idAt; omega
    rw [this]; exact m
  | succ f ih =>
    intro n h m k hk
    unfold pickId at m
    split at m
    · next c =>
      cases k with
      | zero =>
        have : idAt n 0 = n := by unfold idAt; omega
        rw [this]; simpa using c
      | succ k =>
        rw [idAt_succ h]
        exact ih (idAfter n) (idAfter_range n) m k (by omega)
    · next c => simp [m] at c

/-- With fewer than 33 entries the next id is no entry's (R79). -/
theorem newId_free {s : State} (h : s.dir.entries.length ≤ 32) : newId s ∉ s.dir.entries.map Entry.id := by
  intro m
  unfold newId at m
  have c : ∀ k, k < 33 → idAt (idAfter s.dir.nextId) k ∈ s.dir.entries.map Entry.id := by
    intro k hk
    have m2 : pickId (s.dir.entries.map Entry.id) 254 (idAfter s.dir.nextId) ∈ s.dir.entries.map Entry.id := by
      unfold pickId at m
      split at m
      · exact m
      · next c => simp [m] at c
    exact pickId_used 254 _ (idAfter_range _) m2 k (by omega)
  have d : ((List.range 33).map (idAt (idAfter s.dir.nextId))).Nodup := by
    refine List.Nodup.map_on ?_ List.nodup_range
    intro x hx y hy e
    have := List.mem_range.mp hx
    have := List.mem_range.mp hy
    have := idAfter_range s.dir.nextId
    unfold idAt at e
    omega
  have sub : (List.range 33).map (idAt (idAfter s.dir.nextId)) ⊆ s.dir.entries.map Entry.id := by
    intro x hx
    obtain ⟨k, hk, rfl⟩ := List.mem_map.mp hx
    exact c k (List.mem_range.mp hk)
  have := (List.subperm_of_subset d sub).length_le
  simp at this
  omega

theorem core_createEntry {K : Nat} {s : State} (h : Core none K 0 s) (o : Origin) (r : Resolution) (w : CoderCtx)
    (n : s.dir.entries.length ≤ 32) : Core none K 0 (createEntry o r w s) := by
  have cd : ∀ c, coderOf c (createEntry o r w s) = coderOf c s := by intro c; cases c <;> rfl
  have de : (createEntry o r w s).dir.entries = s.dir.entries ++ [Entry.new (newId s) o r w] := rfl
  have sm : blockSum none (createEntry o r w s).dir.entries = blockSum none s.dir.entries := by
    rw [blockSum_none, blockSum_none, de, List.map_append, List.sum_append]
    simp [Entry.new]
  constructor
  · rw [de, List.map_append]
    have := newId_free n
    refine List.Nodup.append h.ids (by simp) ?_
    intro x hx hy
    simp only [List.map_cons, List.map_nil, List.mem_singleton] at hy
    subst hy
    exact this hx
  · intro c i
    rw [cd, de]
    intro q
    obtain ⟨h1, e, h2, h3⟩ := h.coder c i q
    exact ⟨h1, e, List.mem_append_left _ h2, h3⟩
  · intro c; rw [cd]; exact h.free c
  · rw [sm]; exact h.law
  · rw [sm]; exact h.building

/-- A context without a page takes up a FILLING page of its own. -/
theorem core_takeUp {K : Nat} {s : State} (h : Core none K 0 s) (c : CoderCtx) (hp : (coderOf c s).page = none)
    {e : Entry} (he : e ∈ s.dir.entries) (hs : e.state = .filling) (hw : e.writer = some c) :
    Core none K 0 (mapCoder c (fun d => { d with page := some e.id }) s) := by
  have f := h.free c hp
  have cs : coderOf c (mapCoder c (fun d => { d with page := some e.id }) s) = { coderOf c s with page := some e.id } := by
    cases c <;> rfl
  have co : ∀ d, d ≠ c → coderOf d (mapCoder c (fun d => { d with page := some e.id }) s) = coderOf d s := by
    intro d hd; cases c <;> cases d <;> first | rfl | exact absurd rfl hd
  have ds : (mapCoder c (fun d => { d with page := some e.id }) s).dir = s.dir := by cases c <;> rfl
  have ps : (mapCoder c (fun d => { d with page := some e.id }) s).pmc = s.pmc := by cases c <;> rfl
  constructor
  · rw [ds]; exact h.ids
  · intro d i
    by_cases hd : d = c
    · subst hd
      rw [cs, ds]
      intro q
      injection q with q
      exact ⟨by simp, e, he, q, hs, hw, fun x => absurd f.1 x⟩
    · rw [co d hd, ds]; exact h.coder d i
  · intro d
    by_cases hd : d = c
    · subst hd; rw [cs]; nofun
    · rw [co d hd]; exact h.free d
  · rw [ds, ps]; exact h.law
  · rw [ds, ps]; exact h.building

theorem keep_setCoder (c : CoderCtx) (y : Coder) (s : State) (hp : y.page = (coderOf c s).page)
    (hb : y.block = (coderOf c s).block) (hw : y.dirWait = (coderOf c s).dirWait)
    (ha : y.page = none → (coderOf c s).asking = false ∧ (coderOf c s).st ≠ .memwait ∧ (coderOf c s).todo = [] →
      y.asking = false ∧ y.st ≠ .memwait ∧ y.todo = []) : Keep s (setCoder c y s) :=
  keep_of (shell_setCoder ..) (beside_setCoder c y s (.inl hp) hw) fun _ h =>
    core_setCoder h c y hp hb fun q => ha q (h.free c (hp ▸ q)).2

theorem page_setCoder (c : CoderCtx) (y : Coder) (s : State) : coderOf c (setCoder c y s) = y := by cases c <;> rfl

theorem keep_askBlock (c : CoderCtx) (s : State) (h : (coderOf c s).page ≠ none) : Keep s (askBlock c s) :=
  (keep_setCoder c { coderOf c s with asking := true } s rfl rfl rfl (fun q => absurd q h)).trans (keep_pumpAsk ..)

theorem keep_beginCoding (c : CoderCtx) (s : State) (h : (coderOf c s).page ≠ none) : Keep s (beginCoding c s) := by
  unfold beginCoding
  dsimp only
  have k : ∀ t, Keep s (setCoder c { coderOf c s with st := .coding, todo := t } s) := fun t =>
    keep_setCoder c _ s rfl rfl rfl (fun q => absurd q h)
  split
  · refine (k _).trans (keep_askBlock c _ ?_)
    rw [page_setCoder]; exact h
  · exact k _

theorem waitingPage_of {c : CoderCtx} {s : State} {e : Entry} (h : waitingPage c s = some e) :
    e ∈ s.dir.entries ∧ e.state = .filling ∧ e.writer = some c := by
  refine ⟨List.mem_of_find?_eq_some h, ?_⟩
  have := List.find?_some h
  simp only [waitsFor, Bool.and_eq_true, decide_eq_true_eq] at this
  exact ⟨this.1.1, this.1.2⟩

theorem sound_takeUpScan {s : State} (h : PagesSound s) (hp : s.scanCd.page = none) : PagesSound (takeUpScan s) := by
  unfold takeUpScan
  split
  · exact h
  · next e he =>
    obtain ⟨h1, h2, h3⟩ := waitingPage_of he
    refine sound_keep ?_ (keep_beginCoding .scan _ (by simp [mapCoder, setCoder, coderOf]))
    exact sound_of h (fun K c => core_takeUp c .scan hp h1 h2 h3) rfl h.dir.1 rfl rfl (.inl rfl) (fun _ x => x) h.searching
      h.intake h.waiting fun x => ⟨(h.booting x).1, (h.booting x).2.1⟩

theorem room_of {s : State} (h : hasRoom s = true) : s.dir.entries.length + s.dir.places + 1 ≤ Config.directoryRoom := by
  unfold hasRoom at h
  have : s.dir.entries.length + s.dir.places < Config.directoryRoom := by simpa using h
  omega

/-- A new intake page taken up at once (R80, R157). -/
theorem core_newIntake {K : Nat} {s : State} (c : Core none K 0 s) (r : Resolution) (n : s.dir.entries.length ≤ 32)
    (hp : s.intakeCd.page = none) :
    Core none K 0 (mapCoder .intake (fun c => { c with page := some (newId s) }) (createEntry .intake r .intake s)) :=
  core_takeUp (core_createEntry c .intake r .intake n) .intake hp (e := Entry.new (newId s) .intake r .intake)
    (List.mem_append_right _ (by simp)) rfl rfl

theorem sound_takeUpIntake {s : State} (h : PagesSound s) (hp : s.intakeCd.page = none) (hd : s.intakeCd.dirWait = none) :
    PagesSound (takeUpIntake s) := by
  unfold takeUpIntake
  split
  · exact h
  · next j hj =>
    have hb : s.boot.state = .ready := by
      by_contra x
      have := (h.booting x).1
      rw [hj] at this; cases this
    split
    · next hr =>
      have rm := room_of hr
      have n : s.dir.entries.length ≤ 32 := by have := rm; simp only [Config.directoryRoom] at this; omega
      refine sound_keep ?_ (keep_beginCoding .intake _ (by simp [mapCoder, setCoder, coderOf]))
      refine sound_of h (fun K c => core_newIntake c j.res n hp) rfl ?_ rfl rfl (.inl rfl) (fun x _ => absurd hb x) h.searching
        ?_ ?_ (fun x => absurd hb x)
      · show (s.dir.entries ++ [_]).length + s.dir.places ≤ _
        simp only [List.length_append, List.length_cons, List.length_nil]
        omega
      · intro x
        have : s.intJob = none := x
        rw [hj] at this; cases this
      · exact fun x => absurd hd x
    · unfold enterDirwait
      refine sound_keep ?_ (keep_raise ..)
      refine sound_of h (fun K k => ?_) rfl h.dir.1 rfl rfl (.inl rfl) (fun _ x => x) h.searching ?_ (fun _ => hp) (fun x => absurd hb x)
      · exact core_setCoder k .intake { s.intakeCd with dirWait := some (setMemWait s) } rfl rfl fun q => (k.free .intake q).2
      · intro x
        have : s.intJob = none := x
        rw [hj] at this; cases this

theorem sound_coderStart {s : State} (h : PagesSound s) (c : CoderCtx) : PagesSound (coderStart c s) := by
  unfold coderStart
  split
  · next hx =>
    split
    · next i hi => exact sound_keep h (keep_beginCoding _ s (by rw [hi]; simp))
    · next hi => exact sound_takeUpScan h hi
    · next hi =>
      refine sound_takeUpIntake h hi ?_
      simp only [coderCanStart, Bool.and_eq_true, Bool.or_eq_true] at hx
      simpa [coderOf] using hx.2
  · exact h

/-! ## The scan -/

theorem sound_leadingEdge {s : State} (h : PagesSound s) (hs : ∀ j, s.scanJob = some j → j.phase = .search) :
    PagesSound (leadingEdge s) := by
  unfold leadingEdge
  split
  · exact h
  · next j hj =>
    have hb : s.boot.state = .ready := by
      by_contra x
      have := (h.booting x).2.1
      rw [hj] at this; cases this
    have p := h.searching j hj (hs j hj)
    have rm := h.dir.1
    have n : (releasePlace s).dir.entries.length ≤ 32 := by
      show s.dir.entries.length ≤ 32
      simp only [Config.directoryRoom] at rm; omega
    refine sound_of h (fun K c => ?_) rfl ?_ rfl rfl (.inl rfl) (fun x _ => absurd hb x) ?_ h.intake h.waiting (fun x => absurd hb x)
    · refine Core.same (core_createEntry (s := releasePlace s) (c.same rfl (fun c => by cases c <;> rfl) rfl rfl) j.purpose j.res .scan n)
        rfl (fun c => by cases c <;> rfl) rfl rfl
    · show (s.dir.entries ++ [_]).length + 0 ≤ _
      simp only [List.length_append, List.length_cons, List.length_nil]
      omega
    · intro i x y
      injection x with x
      subst x; cases y

theorem keep_scanSame {s : State} {j k : ScanJob} (h : s.scanJob = some j) (p : k.phase = .search → j.phase = .search) :
    Keep s { s with scanJob := some k } :=
  keep_scanJob _ _ (by rintro ⟨i, h1, h2⟩; cases h1; exact ⟨j, h, p h2⟩) (fun x => by rw [h] at x; cases x)

theorem sound_searchStep {s : State} {j : ScanJob} (h : PagesSound s) (hj : s.scanJob = some j) (hs : j.phase = .search) :
    PagesSound (searchStep j s) := by
  unfold searchStep
  have k : Keep s (issueStep .S { s with scanJob := some { j with searchCount := j.searchCount + 1 } }) :=
    (keep_scanSame (k := { j with searchCount := j.searchCount + 1 }) hj (fun x => x)).trans (keep_issueStep ..)
  dsimp only
  split
  · refine sound_leadingEdge (sound_keep h k) ?_
    intro i hi
    have : some { j with searchCount := j.searchCount + 1 } = some i := hi
    injection this with this
    subst this; exact hs
  · split
    · exact sound_keep h (k.trans (keep_scanJam ..))
    · exact sound_keep h k

theorem keep_pageStart (s : State) : Keep s (pageStart s) :=
  (keep_applyAll _ (by decide) s).trans (keep_mapFront (fun f => { f with errorRow := List.replicate 1728 0 }) _)

theorem sound_closingBoundary {s : State} (h : PagesSound s) : PagesSound (closingBoundary s) := by
  unfold closingBoundary
  split
  · exact h
  · next j hj =>
    split
    · split
      · next hr =>
        refine sound_of h (fun K c => c.same rfl (fun c => by cases c <;> rfl) rfl rfl) rfl ?_ rfl rfl (.inl rfl) (fun _ x => x) ?_
          h.intake h.waiting ?_
        · have := room_of hr
          show s.dir.entries.length + (s.dir.places + 1) ≤ _
          omega
        · intro _ _ _
          show 1 ≤ s.dir.places + 1
          omega
        · intro x
          have := (h.booting x).2.1
          rw [hj] at this; cases this
      · unfold enterDirwait
        refine sound_keep h ?_
        have k : Keep s { s with scanJob := some { j with phase := .dirwait }, motS := s.motS.stop 0 } :=
          (keep_scanSame (k := { j with phase := .dirwait }) hj nofun).trans (keep_motS ..)
        exact (k.trans (keep_dirWait .scan _ _ (.inl rfl))).trans (keep_raise ..)
    · exact sound_keep h ((keep_scanSame (k := { j with phase := .runout }) hj nofun).trans (keep_motS ..))

theorem scanJob_applyPending (i : Fin 14) (s : State) : (applyPending i s).scanJob = s.scanJob := by
  unfold applyPending setActive
  split
  · rfl
  · dsimp only
    split
    · rfl
    · split
      · rfl
      · split <;> rfl

theorem scanJob_applyAll (is : List (Fin 14)) : ∀ s : State, (applyAll is s).scanJob = s.scanJob := by
  unfold applyAll
  induction is with
  | nil => exact fun _ => rfl
  | cons i is ih => exact fun s => (ih _).trans (scanJob_applyPending i s)

theorem scanJob_pageStart (s : State) : (pageStart s).scanJob = s.scanJob := by
  have h := scanJob_applyAll scanTables s
  unfold pageStart
  generalize applyAll scanTables s = u at *
  exact h

theorem sound_boundaryStep {s : State} {j : ScanJob} (f : Bool) (h : PagesSound s) (hj : s.scanJob = some j) :
    PagesSound (boundaryStep f j s) := by
  unfold boundaryStep
  split
  · exact sound_keep h (keep_scanJam ..)
  · extract_lets s1 s2 last stop s3 s4 f5 s5
    have k1 : Keep s s1 ∧ s1.scanJob = some j := by
      simp only [s1]
      split
      · exact ⟨keep_pageStart s, (scanJob_pageStart s).trans hj⟩
      · exact ⟨.refl s, hj⟩
    have k2 : Keep s1 s2 ∧ s2.scanJob = s1.scanJob := ⟨keep_mapRings .., rfl⟩
    have k3 : Keep s2 s3 ∧ s3.scanJob = s2.scanJob := by
      simp only [s3]
      split
      · exact ⟨keep_motS .., rfl⟩
      · exact ⟨.refl _, rfl⟩
    have k4 : Keep s3 s4 ∧ s4.scanJob = s3.scanJob := ⟨keep_issueStep .., rfl⟩
    have k5 : s4.scanJob = some j → Keep s4 s5 := fun z =>
      (keep_scanSame (k := { j with phase := .capture, y := j.y + 1, pause := j.pause || stop }) z nofun).trans (keep_mapFront (fun f => { f with comp := some { y := j.y, last := last }, ditherRow := j.y % 4, ditherCol := 0 }) _)
    have k5 := k5 (k4.2.trans (k3.2.trans (k2.2.trans k1.2)))
    have k5 : Keep s s5 := (((k1.1.trans k2.1).trans k3.1).trans k4.1).trans k5
    split
    · exact sound_closingBoundary (sound_keep h k5)
    · exact sound_keep h k5

theorem sound_pageStep {s : State} {j : ScanJob} (f : Bool) (h : PagesSound s) (hj : s.scanJob = some j) :
    PagesSound (pageStep f j s) := by
  unfold pageStep
  extract_lets n j1 s1
  have k : Keep s s1 := keep_scanSame hj (fun x => x)
  split
  · exact sound_boundaryStep f (sound_keep h k) rfl
  · exact sound_keep h (k.trans (keep_issueStep ..))

theorem sound_scanStep {s : State} (f : Bool) (h : PagesSound s) : PagesSound (scanStep f s) := by
  unfold scanStep
  split
  · exact sound_keep h (keep_issueStep ..)
  · next j hj =>
    split
    · next hp => exact sound_searchStep h hj hp
    · exact sound_pageStep f h hj
    · exact sound_pageStep f h hj
    · exact sound_keep h (keep_issueStep ..)
    · exact sound_keep h (keep_issueStep ..)
    · exact sound_keep h (keep_issueStep ..)

theorem sound_startScanRun {s : State} (f : Bool) (h : PagesSound s) : PagesSound (startScanRun f s) := by
  unfold startScanRun
  split
  · exact h
  · exact sound_scanStep f (sound_keep h (keep_mapMotor ..))

theorem sound_settleScanRestart {s : State} (h : PagesSound s) : PagesSound (settleScanRestart s) := by
  unfold settleScanRestart
  split
  · exact h
  · next j hj =>
    split
    · exact sound_startScanRun true (sound_keep h (keep_scanSame hj (fun x => x)))
    · exact h

theorem sound_scanRoom {s : State} (h : PagesSound s) (hr : hasRoom s = true) : PagesSound (scanRoom s) := by
  unfold scanRoom
  split
  · exact sound_keep h (keep_endDirwait ..)
  · next j hj =>
    have hb : s.boot.state = .ready := by
      by_contra x
      have := (h.booting x).2.1
      rw [hj] at this; cases this
    have rm := room_of hr
    extract_lets d1 s1
    have k1 : PagesSound s1 := by
      refine sound_keep (s := { s with dir := { s.dir with places := s.dir.places + 1 } }) ?_ (keep_endDirwait ..)
      refine sound_of h (fun K c => c.same rfl (fun c => by cases c <;> rfl) rfl rfl) rfl ?_ rfl rfl (.inl rfl) (fun _ x => x)
        (fun _ _ _ => by show 1 ≤ s.dir.places + 1; omega) h.intake h.waiting (fun x => absurd hb x)
      show s.dir.entries.length + (s.dir.places + 1) ≤ _
      omega
    split
    · exact sound_keep k1 (keep_scanDecision ..)
    · refine sound_of k1 (fun K c => c.same rfl (fun c => by cases c <;> rfl) rfl rfl) rfl k1.dir.1 rfl rfl (.inl rfl) (fun _ x => x)
        (fun _ _ _ => by show 1 ≤ s.dir.places + 1; omega) k1.intake k1.waiting (fun x => absurd hb x)

theorem sound_settleRoom {s : State} (h : PagesSound s) : PagesSound (settleRoom s) := by
  unfold settleRoom
  extract_lets s1
  have k1 : PagesSound s1 := by
    simp only [s1]
    split
    · next hx =>
      simp only [Bool.and_eq_true] at hx
      exact sound_scanRoom h hx.2
    · exact h
  clear_value s1
  split
  · next hx =>
    simp only [Bool.and_eq_true] at hx
    refine sound_takeUpIntake (sound_keep k1 (keep_endDirwait ..)) ?_ rfl
    show s1.intakeCd.page = none
    refine k1.waiting ?_
    intro z
    have := hx.1
    rw [z] at this; cases this
  · exact k1

theorem sound_settleJobs {s : State} (h : PagesSound s) : PagesSound (settleJobs s) := by
  refine sound_settleRoom (sound_keep (sound_settleScanRestart h) ?_)
  exact (((((keep_zeroWaits _).trans (keep_settleIntake _)).trans (keep_settlePass ..)).trans (keep_settlePass ..)).trans
    (keep_settlePrint _)).trans (keep_settleOutput _)

theorem sound_settle {s : State} (h : PagesSound s) : PagesSound (settle s) := by
  refine sound_keep (sound_settleScanRestart (sound_settleJobs (sound_settleJobs h))) ?_
  exact (((keep_settleScanEnd _).trans (keep_applyMotorTables _)).trans (keep_updateIdle _)).trans (keep_arbitrate _)

/-! ## Plain changes -/

theorem keep_plain {s t : State} (d : t.dir = s.dir := by rfl) (a : t.scanCd = s.scanCd := by rfl)
    (b : t.intakeCd = s.intakeCd := by rfl) (n : t.pmc.count = s.pmc.count := by rfl) (bd : t.pmc.build = s.pmc.build := by rfl)
    (ac : t.tables.active[(0 : Fin 14)] = s.tables.active[(0 : Fin 14)] := by rfl)
    (bt : t.boot.state = s.boot.state := by rfl) (sp : t.spill = s.spill := by rfl) (sj : t.scanJob = s.scanJob := by rfl)
    (ij : t.intJob.isNone = s.intJob.isNone := by rfl) : Keep s t :=
  keep_away d (fun c => by cases c; exacts [a, b]) n bd ac bt (.inl sp) (by unfold searching; rw [sj]; exact fun x => x) ij
    (by rw [sj]; exact fun x => x)

/-- The commands waiting are no part of the accounting. -/
theorem PagesSound.queue {s : State} (h : PagesSound s) (q : List Instr) : PagesSound { s with pending := q } :=
  sound_keep h keep_plain

theorem keep_fillReply (w : ReplyBody) (st : Status) (a : List Byte) (s : State) : Keep s (fillReply w st a s) := keep_mapPort ..
theorem keep_fillReplies (w : ReplyBody) (st : Status) (a : List Byte) (s : State) : Keep s (fillReplies w st a s) := keep_mapPort ..
theorem keep_pushReply (k sb : Byte) (b : ReplyBody) (s : State) : Keep s (pushReply k sb b s) := keep_mapPort ..
theorem keep_cutOffBoth (c : Causes) (s : State) : Keep s (cutOffBoth c s) := keep_plain
theorem keep_coverFound (s : State) : Keep s (coverFound s) := (keep_raise ..).trans (keep_cutOffBoth ..)
theorem keep_readShadow (x : Shadow) (s : State) : Keep s (readShadow x s) := keep_plain
theorem keep_writeShadow (s : State) : Keep s (writeShadow s) := keep_mapPower ..
theorem keep_powerDownMotors (s : State) : Keep s (powerDownMotors s) := keep_plain
theorem keep_abandonDiag (s : State) : Keep s (abandonDiag s) := keep_plain
theorem keep_sense (lv : Levels) (s : State) : Keep s (sense lv s) := keep_plain
theorem keep_checkLink (b : Nat) (s : State) : Keep s (checkLink b s) :=
  keep_of (shell_checkLink ..) (beside_checkLink ..) fun _ h => core_checkLink h b

/-! ## Bursts -/

theorem keep_doUpkeep (op : Upkeep) (s : State) : Keep s (doUpkeep op s) := by
  unfold doUpkeep
  split
  · exact keep_mapDram ..
  · exact keep_mapDram ..
  · next b =>
    extract_lets u
    have k : Keep s u := keep_checkLink b s
    split
    · exact ((k.trans (keep_ite (.refl u) (keep_mapPmc rfl rfl))).trans (keep_pumpAsk ..)).trans (keep_pumpAsk ..)
    · exact k

theorem sound_doBuild {s : State} (h : PagesSound s) : PagesSound (doBuild s) := by
  unfold doBuild
  split
  · exact h
  · next b hb =>
    have ne : s.pmc.build ≠ none := by rw [hb]; simp
    have bt : s.boot.state = .ready := by
      by_contra x
      exact ne (h.booting x).2.2
    have zero := h.building ne
    have nb := nBlocks_ge (h.settings (.inl bt))
    have cd : ∀ (f : Pmc → Pmc) (c : CoderCtx) (m : Memory → Memory), coderOf c (mapPmc f (mapDram m s)) = coderOf c s := by
      intro f c m; cases c <;> rfl
    have core : ∀ K, Core none K 0 s → ∀ (f : Pmc → Pmc) (m : Memory → Memory), ((f s.pmc).count + blockSum none s.dir.entries = K ∨ (f s.pmc).build ≠ none) →
        ((f s.pmc).build ≠ none → (f s.pmc).count = 0) → Core none K 0 (mapPmc f (mapDram m s)) := by
      intro K c f m x y
      constructor
      · exact c.ids
      · intro d i; rw [cd]; exact c.coder d i
      · intro d; rw [cd]; exact c.free d
      · intro z
        rcases x with x | x
        · exact x
        · exact absurd z x
      · intro z
        exact ⟨y z, (c.building ne).2⟩
    obtain ⟨K, c, l⟩ := h.core
    have l := l (.inl bt)
    have gen : ∀ (f : Pmc → Pmc) (m : Memory → Memory), Core none K 0 (mapPmc f (mapDram m s)) → PagesSound (mapPmc f (mapDram m s)) := by
      intro f m x
      refine PagesSound.of x (fun _ => l) h.dir.1 h.searching h.intake h.waiting (fun z => absurd bt z) h.empty h.settings h.engine h.reading
        h.restoring
    dsimp only
    split
    · exact gen _ _ (core K c _ _ (.inr (by simp)) (fun _ => zero.1))
    · refine sound_keep (gen _ _ (core K c _ _ (.inl ?_) (fun z => absurd rfl z))) ((keep_pumpAsk ..).trans (keep_pumpAsk ..))
      dsimp only
      rw [blockSum_none, zero.2]
      omega

theorem keep_diagBurst (s : State) : Keep s (diagBurst s) := by
  unfold diagBurst
  split
  · exact .refl s
  · dsimp only
    split
    · exact keep_plain
    · exact keep_plain

theorem page_mapCoder (c : CoderCtx) (f : Coder → Coder) (s : State) : coderOf c (mapCoder c f s) = f (coderOf c s) := by
  cases c <;> rfl

theorem keep_freeCodedSlot (c : CoderCtx) (s : State) : Keep s (freeCodedSlot c s) := by
  cases c with
  | scan => exact keep_mapRings (fun r => { r with scan := r.scan.free }) s
  | intake =>
    unfold freeCodedSlot
    dsimp only
    split
    · exact ((keep_mapRings ..).trans (keep_mapRings ..)).trans (keep_raise ..)
    · exact keep_mapRings ..

theorem keep_lineCoded (c : CoderCtx) (s : State) : Keep s (lineCoded c s) := by
  unfold lineCoded
  extract_lets cd x s1 s2
  have k1 : Keep s s1 := keep_mapEntry ..
  have e : coderOf c s1 = coderOf c s := by cases c <;> rfl
  have k2 : Keep s1 s2 := by
    refine keep_setCoder c _ s1 ?_ ?_ ?_ ?_
    · rw [e]
    · rw [e]
    · rw [e]
    · rw [e]
      exact fun _ y => ⟨y.1, nofun, rfl⟩
  exact (k1.trans k2).trans (keep_freeCodedSlot ..)

theorem keep_afterLine (c : CoderCtx) (w : Bool) (s : State) : Keep s (afterLine c w s) := by
  unfold afterLine
  split
  · split
    · exact keep_scanDecision ..
    · exact (keep_completePage ..).trans (keep_endIntake ..)
  · exact keep_ite (keep_completePage ..) (.refl s)

theorem sound_unitsWritten {s : State} (h : PagesSound s) (c : CoderCtx) (n : Nat) : PagesSound (unitsWritten c n s) := by
  unfold unitsWritten
  extract_lets s1
  have k : Keep s s1 := by
    refine keep_setCoder c _ s rfl rfl rfl ?_
    intro _ y
    refine ⟨y.1, y.2.1, ?_⟩
    dsimp only
    rw [y.2.2]; exact List.drop_nil
  have h1 := sound_keep h k
  clear_value s1
  split
  · exact sound_keep h1 ((keep_lineCoded ..).trans (keep_afterLine ..))
  · next hne =>
    split
    · refine sound_keep h1 (keep_askBlock c s1 ?_)
      intro z
      rw [(h1.idle c z).2.2.2] at hne
      exact hne rfl
    · exact h1

/-! ## The spill engine -/

theorem sound_spill {s : State} (h : PagesSound s) {n : SpillEngine} (e : n.ofEntry = true) : PagesSound { s with spill := n } := by
  obtain ⟨K, c, l⟩ := h.core
  have f : State.inForce { s with spill := n } → s.inForce := by
    rintro (x | x)
    · exact .inl x
    · rw [(not_restored e).1] at x; cases x
  refine PagesSound.of (K := K) (c.same rfl (fun c => by cases c <;> rfl) rfl rfl) (fun x => l (f x)) h.dir.1 h.searching h.intake h.waiting
    h.booting h.empty (fun x => h.settings (f x)) (fun _ => e) (fun x => ?_) (fun x => ?_)
  · have : n.ofEntry = false := x
    rw [e] at this; cases this
  · have : n.restoring = true := x
    rw [(not_restored e).2] at this; cases this

/-- Before READY, with no entry: a change of the boot state and the spill engine. -/
theorem sound_before {s : State} (h : PagesSound s) (hb : s.boot.state ≠ .ready) (he : s.dir.entries = []) (b : Boot) (n : SpillEngine)
    (bn : b.state ≠ .ready) (nr : n.restored = false) (rs : n.restoring = true → b.state = .restore) :
    PagesSound { s with boot := b, spill := n } := by
  obtain ⟨K, c, _⟩ := h.core
  have f : ¬ State.inForce { s with boot := b, spill := n } := by
    rintro (x | x)
    · exact bn x
    · have : n.restored = true := x
      rw [nr] at this; cases this
  exact PagesSound.of (K := K) (c.same rfl (fun c => by cases c <;> rfl) rfl rfl) (fun x => absurd x f) h.dir.1 h.searching h.intake h.waiting
    (fun _ => h.booting hb) (fun _ _ => he) (fun x => absurd x f) (fun x => absurd x bn) (fun _ _ => he) rs

theorem sound_noSpill {s : State} (h : PagesSound s) (hb : s.boot.state ≠ .ready) (he : s.dir.entries = []) : PagesSound (noSpill s) := by
  refine sound_before h hb he _ .idle ?_ rfl nofun
  dsimp only
  split <;> simp

theorem sound_reachReady (r : Nat) {s : State} {K : Nat} (c : Core none K 0 s) (l : K + Config.reserveBlocks = nBlocks s)
    (room : s.dir.entries.length + s.dir.places ≤ Config.directoryRoom) (sj : s.scanJob = none)
    (int : s.intakeCd.page = none ∧ s.intakeCd.dirWait = none) (set : (s.tables.active[(0 : Fin 14)]).isSome = true)
    (sp : s.spill = .idle) : PagesSound (reachReady r s) := by
  have k : PagesSound (mapBoot (fun b => { b with state := .ready, romPos := 0, romSum := 0 }) s) := by
    refine PagesSound.of (K := K) (c.same rfl (fun c => by cases c <;> rfl) rfl rfl) (fun _ => l) room ?_ (fun _ => int) (fun x => absurd int.2 x)
      (fun x => absurd rfl x) (fun x => absurd rfl x) (fun _ => set) (fun _ => ?_) (fun x _ => ?_) (fun x => ?_)
    · intro j x
      have : s.scanJob = some j := x
      rw [sj] at this; cases this
    · show s.spill.ofEntry = true
      rw [sp]; rfl
    · have : s.spill.ofEntry = false := x
      rw [sp] at this; cases this
    · have : s.spill.restoring = true := x
      rw [sp] at this; cases this
  unfold reachReady
  extract_lets s1
  have k1 : PagesSound s1 := sound_keep k (keep_raise ..)
  split
  · exact k1
  · exact sound_keep k1 ((keep_mapPower ..).trans (keep_raise ..))

theorem byteAt_ofCode (z : MemSize) : MemSize.ofCode? z.code = some z := by cases z <;> rfl

/-- What a spill that passes R178 holds. -/
theorem verdict_sound {z : MemSize} {b : List Byte} (v : spillVerdict z b false = none) : spillCount b ≤ Config.directoryRoom ∧
    ((spillEntries b).map Entry.id).Nodup ∧
    wordAt b 13 + ((spillEntries b).map Entry.blockCount).sum + Config.reserveBlocks = z.blocks ∧
    spillTable b tSettings ≠ [] ∧ byteAt (spillTable b tSettings) 0 = z.code := by
  have sd : spillSound z b = true := by
    unfold spillVerdict at v
    cases h1 : spillFits b <;> cases h2 : spillSumOk b <;> cases h3 : spillSound z b <;> simp [h1, h2, h3] at v ⊢
  unfold spillSound at sd
  rw [Bool.and_eq_true, Bool.and_eq_true, Bool.and_eq_true, Bool.and_eq_true, Bool.and_eq_true, Bool.and_eq_true, Bool.and_eq_true,
    Bool.and_eq_true, Bool.and_eq_true] at sd
  obtain ⟨⟨⟨⟨⟨⟨⟨⟨⟨_, s2⟩, s3⟩, s4⟩, s5⟩, _⟩, _⟩, _⟩, _⟩, s10⟩ := sd
  unfold tablesSound at s10
  rw [Bool.and_eq_true, Bool.and_eq_true] at s10
  exact ⟨of_decide_eq_true s2, of_decide_eq_true s3, of_decide_eq_true s5, of_decide_eq_true s10.1.2, of_decide_eq_true s10.2⟩

theorem spillActive_settings {b : List Byte} (h : spillTable b tSettings ≠ []) :
    (spillActive b)[(0 : Fin 14)] = some (spillTable b tSettings) := by
  unfold spillActive
  simp only [Fin.getElem_fin, Vector.getElem_ofFn]
  exact if_neg h

theorem nBlocks_of {s : State} {img : List Byte} {z : MemSize} (h : s.tables.active[(0 : Fin 14)] = some img)
    (k : byteAt img 0 = z.code) : nBlocks s = z.blocks := by
  unfold nBlocks setMemSize settingsImage
  rw [h]
  simp only [Option.getD_some, k, byteAt_ofCode]

/-- A spill reinstated where nothing was yet in force. -/
theorem sound_reinstated {s t : State} {z : MemSize} {b : List Byte} (h : PagesSound s) (bt : s.boot.state = .restore)
    (es : s.dir.entries = []) (v : spillVerdict z b false = none) (d : t.dir.entries = spillEntries b) (dp : t.dir.places = 0)
    (cs : t.scanCd = s.scanCd) (ci : t.intakeCd = s.intakeCd) (pc : t.pmc.count = wordAt b 13) (pb : t.pmc.build = s.pmc.build)
    (ta : t.tables.active = spillActive b) (sj : t.scanJob = s.scanJob) (ij : t.intJob = s.intJob) (tb : t.boot = s.boot)
    (sp : t.spill.restored = true) : PagesSound t := by
  obtain ⟨v1, v2, v3, v4, v5⟩ := verdict_sound v
  have nr : s.boot.state ≠ .ready := by rw [bt]; simp
  obtain ⟨b1, b2, b3⟩ := h.booting nr
  have act : t.tables.active[(0 : Fin 14)] = some (spillTable b tSettings) := by rw [ta]; exact spillActive_settings v4
  have pn : ∀ c, (coderOf c s).page = none := by
    intro c
    cases x : (coderOf c s).page
    · rfl
    · obtain ⟨e, m, _⟩ := h.writers c _ x
      rw [es] at m; cases m
  have cd : ∀ c, coderOf c t = coderOf c s := by intro c; cases c; exacts [cs, ci]
  have core : Core none (wordAt b 13 + ((spillEntries b).map Entry.blockCount).sum) 0 t := by
    constructor
    · rw [d]; exact v2
    · intro c i q
      rw [cd, pn c] at q; cases q
    · intro c; rw [cd]; exact h.idle c
    · intro _
      rw [pc, d, blockSum_none]
      omega
    · intro q; rw [pb] at q; exact absurd b3 q
  refine PagesSound.of core (fun _ => by rw [nBlocks_of act v5]; exact v3) ?_ ?_ ?_ ?_ ?_ ?_ ?_ ?_ ?_ ?_
  · rw [d, dp]
    simp only [spillEntries, List.length_map, List.length_range]
    omega
  · intro j x; rw [sj, b2] at x; cases x
  · rw [ci]; exact fun _ => h.intake b1
  · rw [ci]; exact fun x => absurd (h.intake b1).2 x
  · rw [ij, sj, pb]; exact fun _ => ⟨b1, b2, b3⟩
  · rw [tb]; exact fun _ x => absurd bt x
  · intro _; rw [act]; rfl
  · rw [tb]; exact fun x => absurd x nr
  · intro _ x; rw [sp] at x; cases x
  · rw [tb]; exact fun _ => bt

theorem sound_restoreSpill {s : State} {z : MemSize} {b got : List Byte} (h : PagesSound s) (hs : s.spill = .restore z got)
    (v : spillVerdict z b false = none) : PagesSound { restoreSpill b s with spill := .clearMarker z .restored } :=
  sound_reinstated h (h.restoring (by rw [hs]; rfl)) (h.reading (by rw [hs]; rfl) (by rw [hs]; rfl)) v rfl rfl
    (by simp only [restoreSpill, readShadow, mapPower, mapPmc]) (by simp only [restoreSpill, readShadow, mapPower, mapPmc]) rfl rfl rfl
    (by simp only [restoreSpill, readShadow, mapPower, mapPmc]) (by simp only [restoreSpill, readShadow, mapPower, mapPmc])
    (by simp only [restoreSpill, readShadow, mapPower, mapPmc]) rfl

theorem keep_beginReturn (r : Nat) (s : State) : Keep s (beginReturn r s) := keep_ite (.refl s) (keep_mapPower ..)

theorem keep_abandonEntry (b : Bool) (n : Nat) (s : State) : Keep s (abandonEntry b n s) := by
  unfold abandonEntry
  dsimp only
  exact keep_ite ((keep_mapPower ..).trans (keep_beginReturn ..)) ((keep_mapPower ..).trans (keep_raise ..))

theorem keep_standbyAbandoned (s : State) : Keep s (standbyAbandoned s) := by
  unfold standbyAbandoned
  split
  · exact .refl s
  · exact keep_abandonEntry ..

theorem keep_askSelfRefresh (w : SelfRefreshFor) (s : State) : Keep s (askSelfRefresh w s) := keep_mapPmc rfl rfl
theorem keep_setStage (w : EntryStage) (s : State) : Keep s (setStage w s) := keep_mapPower ..

theorem sound_standbySpilled {s : State} (h : PagesSound s) : PagesSound (standbySpilled s) := by
  unfold standbySpilled
  split
  · exact h
  · split
    · exact sound_keep (sound_spill h (n := .clearMarker (setMemSize s) .abandoned) rfl) (keep_mapPower ..)
    · exact sound_keep h ((keep_askSelfRefresh ..).trans (keep_setStage ..))

theorem sound_spillBurst {s : State} (h : PagesSound s) : PagesSound (spillBurst s) := by
  have notReady : s.spill.ofEntry = false → s.boot.state ≠ .ready := by
    intro x y
    rw [h.engine y] at x; cases x
  unfold spillBurst
  split
  · exact h
  · next z hs =>
    have oe : s.spill.ofEntry = false := by rw [hs]; rfl
    have es := h.reading oe (by rw [hs]; rfl)
    have nr := notReady oe
    unfold checkCandidate
    split
    · exact sound_before h nr es s.boot _ nr rfl nofun
    · split
      · exact sound_before h nr es s.boot _ nr rfl nofun
      · exact sound_noSpill h nr es
  · next z got bad hs =>
    have oe : s.spill.ofEntry = false := by rw [hs]; rfl
    have es := h.reading oe (by rw [hs]; rfl)
    have nr := notReady oe
    unfold readSpill
    dsimp only
    split
    · split
      · exact sound_before h nr es _ _ (by simp) rfl (fun _ => rfl)
      · refine sound_noSpill (sound_keep h (keep_raise ..)) nr es
    · exact sound_before h nr es s.boot _ nr rfl nofun
  · next z got hs =>
    have oe : s.spill.ofEntry = false := by rw [hs]; rfl
    have es := h.reading oe (by rw [hs]; rfl)
    have nr := notReady oe
    have bt : s.boot.state = .restore := h.restoring (by rw [hs]; rfl)
    unfold rereadSpill
    dsimp only
    split
    · exact sound_before h nr es s.boot _ nr rfl nofun
    · split
      · split
        · next v => exact sound_restoreSpill h hs v
        · exact sound_before h nr es s.boot _ nr rfl nofun
      · exact sound_before h nr es s.boot _ nr rfl (fun _ => bt)
  · next z nx hs =>
    unfold clearMarker
    extract_lets s0 s1
    cases nx with
    | restored =>
      have rs : s.spill.restored = true := by rw [hs]; rfl
      have bt : s.boot.state = .restore := h.restoring (by rw [hs]; rfl)
      obtain ⟨ij, sj, bd⟩ := h.booting (by rw [bt]; simp)
      obtain ⟨K, c, l⟩ := h.core
      exact sound_reachReady 2 (s := s1) (K := K) (c.same rfl (fun c => by cases c <;> rfl) rfl rfl) (l (.inr rs)) h.dir.1 sj (h.intake ij)
        (h.settings (.inr rs)) rfl
    | lost =>
      have oe : s.spill.ofEntry = false := by rw [hs]; rfl
      have es := h.reading oe (by rw [hs]; rfl)
      have nr := notReady oe
      have k1 : PagesSound s1 := sound_before (sound_keep h (keep_mapDram ..)) nr es s.boot .idle nr rfl nofun
      exact sound_noSpill (sound_keep k1 (keep_raise ..)) nr es
    | abandoned =>
      have k1 : PagesSound s1 := sound_spill (sound_keep h (keep_mapDram ..)) (n := .idle) rfl
      exact sound_keep k1 (keep_standbyAbandoned _)
  · exact h
  · next w o t hs =>
    unfold writeSpill
    extract_lets n s1
    have k1 : PagesSound s1 := sound_keep h (keep_mapDram ..)
    refine sound_spill k1 ?_
    split <;> rfl
  · unfold writeMarker
    extract_lets s0 s1
    have k1 : PagesSound s1 := sound_spill (sound_keep h (keep_mapDram ..)) (n := .idle) rfl
    split
    · exact sound_standbySpilled k1
    · exact sound_keep k1 (keep_askSelfRefresh ..)

/-! ## Cold starts and self-refresh -/

theorem sound_cold (l : Lines) (p : List Instr) (d : Memory) (w : Power) :
    PagesSound { State.reset with lines := l, pending := p, dram := d, power := w } := by
  constructor
  · exact ⟨by show 0 + 0 ≤ 32; omega, List.nodup_nil⟩
  · intro c id h; cases c <;> cases h
  · intro c _; cases c <;> exact ⟨rfl, rfl, nofun, rfl⟩
  · intro j h; cases h
  · exact fun _ => ⟨rfl, rfl⟩
  · exact fun h => absurd rfl h
  · exact fun _ => ⟨rfl, rfl, rfl⟩
  · exact fun _ _ => rfl
  · rintro (h | h) <;> cases h
  · intro h; cases h
  · exact fun _ _ => rfl
  · intro h; cases h
  · exact fun h => absurd rfl h
  · rintro (h | h) <;> cases h

theorem sound_coldStart (s : State) : PagesSound (coldStart s) := sound_cold ..

theorem sound_enterSelfRefresh {s : State} (w : SelfRefreshFor) (h : PagesSound s) : PagesSound (enterSelfRefresh w s) := by
  unfold enterSelfRefresh
  extract_lets s1
  have k1 : PagesSound s1 := sound_keep h ((keep_mapPmc rfl rfl).trans (keep_abandonDiag _))
  split
  · exact sound_keep k1 (keep_mapPower ..)
  · exact sound_keep k1 (keep_mapPower ..)
  · unfold reachHold
    dsimp only
    split
    · exact sound_keep k1 (keep_mapPower ..)
    · exact sound_coldStart _
  · exact k1
  · exact k1

theorem sound_deliver {s : State} (g : Grant) (h : PagesSound s) : PagesSound (deliver g s) := by
  unfold deliver
  split
  · exact h
  · unfold lastRefreshMade
    split
    · exact h
    · exact sound_enterSelfRefresh _ h
  · exact sound_keep h ((keep_mapPmc rfl rfl).trans (keep_doUpkeep ..))
  · split
    · exact sound_keep h (keep_decodeBurst ..)
    · exact h
  · dsimp only
    split
    · exact sound_unitsWritten (sound_keep h (keep_mapDram ..)) _ _
    · exact sound_keep h (keep_mapDram ..)
  · split
    · exact sound_doBuild h
    · exact h
  · split
    · exact sound_spillBurst h
    · exact h
  · split
    · exact sound_keep h (keep_diagBurst _)
    · exact h

theorem sound_endGrant {s : State} (h : PagesSound s) : PagesSound (endGrant s) := by
  unfold endGrant
  split
  · exact h
  · exact sound_deliver _ (sound_keep h (keep_mapPmc rfl rfl))

/-! ## The power states -/

theorem sound_holdAtOnce {s : State} (h : PagesSound s) : PagesSound (holdAtOnce s) := by
  unfold holdAtOnce
  refine sound_keep (sound_spill h (n := .idle) rfl) ?_
  exact (((keep_cutOffBoth ..).trans (keep_mapPmc rfl rfl)).trans (keep_mapPower ..)).trans (keep_killGrant ..)

theorem sound_leaveReset {s : State} (h : PagesSound s) (hb : s.boot.state = .reset) : PagesSound (leaveReset s) := by
  unfold leaveReset
  extract_lets b1 s1 s2
  have nr : s.boot.state ≠ .ready := by rw [hb]; simp
  have k1 : PagesSound s1 := sound_before h nr (h.empty nr (by rw [hb]; simp)) _ _ (by simp) rfl nofun
  have k2 : PagesSound s2 := by
    simp only [s2]
    split
    · exact k1
    · exact sound_keep k1 (keep_coverFound _)
  split
  · exact sound_holdAtOnce k2
  · exact k2

theorem Keep.noWait {s t : State} (k : Keep s t) (h : s.intakeCd.dirWait = none) : t.intakeCd.dirWait = none := by
  rcases k.int with ⟨_, x⟩ | ⟨_, x, _⟩
  · exact x.elim (fun y => y.trans h) (fun y => y)
  · exact x

theorem keep_withdraw (c : CoderCtx) (y : Coder) (s : State) (hp : y.page = (coderOf c s).page) (hb : y.block = (coderOf c s).block)
    (ht : y.todo = (coderOf c s).todo) (ha : y.asking = false) (hs : y.st ≠ .memwait) (hd : y.dirWait = none) : Keep s (setCoder c y s) := by
  have co : ∀ K, Core none K 0 s → Core none K 0 (setCoder c y s) := fun K k =>
    core_setCoder k c y hp hb fun q => ⟨ha, hs, by rw [ht]; exact (k.free c (hp ▸ q)).2.2.2⟩
  constructor
  · exact co
  · cases c <;> rfl
  · cases c <;> exact le_refl _
  · cases c <;> exact List.Sublist.refl _
  · intro d
    by_cases hd : d = c
    · subst hd; rw [page_setCoder]; exact .inl hp
    · cases c <;> cases d <;> first | exact .inl rfl | exact absurd rfl hd
  · cases c <;> rfl
  · cases c <;> rfl
  · cases c <;> exact .inl rfl
  · cases c <;> exact fun x => ⟨x, rfl⟩
  · cases c <;> exact fun x => x
  · cases c
    · exact .inl ⟨rfl, .inl rfl⟩
    · exact .inl ⟨rfl, .inr hd⟩

theorem keep_withdrawWaits (s : State) : Keep s (withdrawWaits s) := by
  have h : ∀ c : Coder, (if c.st = .memwait then CoderState.coding else c.st) ≠ .memwait := by
    intro c
    split
    · simp
    · next x => exact x
  exact (keep_withdraw .scan { s.scanCd with st := if s.scanCd.st = .memwait then .coding else s.scanCd.st, timer := none, dirWait := none, asking := false }
    s rfl rfl rfl rfl (h _) rfl).trans
    (keep_withdraw .intake { s.intakeCd with st := if s.intakeCd.st = .memwait then .coding else s.intakeCd.st, timer := none, dirWait := none, asking := false }
    _ rfl rfl rfl rfl (h _) rfl)

theorem keep_fold {f : State → Nat → State} (hf : ∀ s i, Keep s (f s i)) (is : List Nat) : ∀ s, Keep s (is.foldl f s) := by
  induction is with
  | nil => exact .refl
  | cons i is ih => exact fun s => (hf s i).trans (ih _)

theorem keep_completeAtPfail (s : State) (i : Nat) : Keep s (completeAtPfail s i) := by
  unfold completeAtPfail
  split
  · exact keep_completePage ..
  · next h1 =>
    split
    · exact keep_completePage ..
    · next h2 =>
      refine Keep.trans ?_ (keep_settleEmpty ..)
      refine keep_of (shell_mapEntry ..) (beside_mapEntry i _ s fun _ => rfl) fun _ h => core_mapShun h i _ ?_
      intro c
      cases c
      · exact h1
      · exact h2

theorem keep_dropReaders (s : State) (i : Nat) : Keep s (dropReaders s i) := (keep_removeReader ..).trans (keep_removeReader ..)

theorem keep_abandonCalibration (s : State) : Keep s (abandonCalibration s) := by
  unfold abandonCalibration
  exact keep_ite ((keep_mapFront ..).trans (keep_fillReplies ..)) (.refl s)

theorem sound_dropJobs {s : State} (h : PagesSound s) (hd : s.intakeCd.dirWait = none) : PagesSound (dropJobs (releasePlace s)) := by
  unfold dropJobs
  extract_lets s1 s2 s3
  have k : Keep (releasePlace s) s3 := by
    refine (((((((((((keep_abandonCalibration _).trans (keep_mapFront ..)).trans (keep_emptyScanRing _)).trans (keep_emptyIntakeRing _)).trans
      (keep_emptyPrintRing _)).trans (keep_emptyOutputRing _)).trans (keep_clearIntakeLine _)).trans (keep_idleCoder .scan _)).trans (keep_idleCoder .intake _)).trans
      (keep_idleDecoder .print _)).trans (keep_idleDecoder .output _))
  have pg : s3.intakeCd.page = none := rfl
  clear_value s3
  refine sound_of h (fun K x => (k.core K (x.same rfl (fun c => by cases c <;> rfl) rfl rfl)).same rfl (fun c => by cases c <;> rfl) rfl rfl)
    k.build ?_ k.active k.boot k.spill ?_ (fun j (x : none = some j) => by cases x) (fun _ => ⟨pg, k.noWait hd⟩) (fun x => absurd (k.noWait hd) x) (fun _ => ⟨rfl, rfl⟩)
  · have a := k.ids.length_le
    have b : s3.dir.places ≤ 0 := k.places
    have c := h.dir.1
    simp only [List.length_map] at a
    have a : s3.dir.entries.length ≤ s.dir.entries.length := a
    show s3.dir.entries.length + s3.dir.places ≤ _
    omega
  · intro _ x
    have a := k.ids.length_le
    simp only [List.length_map] at a
    have a : s3.dir.entries.length ≤ s.dir.entries.length := a
    rw [x] at a
    exact List.length_eq_zero_iff.mp (Nat.le_zero.mp a)

theorem sound_endAtPfail {s : State} (h : PagesSound s) : PagesSound (endAtPfail s) := by
  unfold endAtPfail
  extract_lets s1 s2
  have k : Keep s1 ((pageIds s2).foldl dropReaders s2) := (keep_fold keep_completeAtPfail _ _).trans (keep_fold keep_dropReaders _ _)
  exact sound_dropJobs (sound_keep h ((keep_withdrawWaits s).trans k)) (k.noWait rfl)

theorem sound_endAtRestart {s : State} (h : PagesSound s) : PagesSound (endAtRestart s) := by
  unfold endAtRestart
  extract_lets s1 s2
  have k : Keep s1 ((pageIds s2).foldl dropReaders s2) :=
    (keep_fold (fun s i => keep_discardPage i true s) _ _).trans (keep_fold keep_dropReaders _ _)
  exact sound_dropJobs (sound_keep h ((keep_withdrawWaits s).trans k)) (k.noWait rfl)

theorem sound_pfailSequence {s : State} (h : PagesSound s) : PagesSound (pfailSequence s) := by
  unfold pfailSequence
  extract_lets s1 s2 p2
  have k1 : PagesSound s1 := sound_keep h (keep_cutOffBoth ..)
  split
  · refine sound_keep k1 ((keep_ite (keep_askSelfRefresh ..) (.refl _)).trans (keep_mapPower ..))
  · have k2 : PagesSound s2 := sound_keep (sound_endAtPfail k1) (keep_mapPower ..)
    refine sound_keep (sound_spill k2 (n := .await .pfail) rfl) ?_
    have k3 : Keep { s2 with spill := .await .pfail } { s2 with spill := .await .pfail, pmc := { s2.pmc with srPending := none } } := keep_plain
    exact (k3.trans (keep_killGrant ..)).trans (keep_writeShadow _)

theorem keep_takeLatch (s : State) : Keep s (takeLatch s) := keep_ite ((keep_mapPower ..).trans (keep_coverFound _)) (.refl s)

theorem keep_leaveSleep (s : State) : Keep s (leaveSleep s) :=
  (((keep_mapPower ..).trans (keep_mapPmc rfl rfl)).trans (keep_takeLatch _)).trans (keep_readShadow ..)

theorem sound_pfailRises {s : State} (h : PagesSound s) : PagesSound (pfailRises s) := by
  unfold pfailRises
  split
  · exact h
  · split
    · exact sound_holdAtOnce h
    · split
      · exact sound_pfailSequence (sound_keep h (keep_leaveSleep _))
      · exact sound_pfailSequence h

theorem keep_coverOpened (s : State) : Keep s (coverOpened s) := by
  unfold coverOpened
  split
  · exact .refl s
  · split
    · exact keep_mapPower ..
    · exact (((keep_raise ..).trans (keep_cutOffBoth ..)).trans (keep_scanFaulted _)).trans (keep_mapPrtJob ..)

theorem keep_sleepWake (r : Nat) (s : State) : Keep s (sleepWake r s) := keep_ite (.refl s) ((keep_leaveSleep s).trans (keep_beginReturn ..))

theorem sound_wakeEvent {s : State} (r : Nat) (h : PagesSound s) : PagesSound (wakeEvent r s) := by
  unfold wakeEvent
  split
  · exact h
  · exact sound_keep h (keep_beginReturn ..)
  · exact sound_keep h (keep_sleepWake ..)
  · exact sound_coldStart _

theorem sound_wakeRise {s : State} (b r : Nat) (m : Risen → Risen) (h : PagesSound s) : PagesSound (wakeRise b r m s) := by
  unfold wakeRise
  split
  · exact sound_keep h (keep_mapPower ..)
  · split
    · exact sound_wakeEvent _ h
    · exact h

theorem keep_runReached (s : State) : Keep s (runReached s) := by
  unfold runReached
  split
  · exact .refl s
  · dsimp only
    exact keep_ite ((keep_readShadow ..).trans (keep_mapPower ..)) (((keep_readShadow ..).trans (keep_mapPower ..)).trans (keep_raise ..))

theorem keep_enterDoze (m : Byte) (t : Nat) (s : State) : Keep s (enterDoze m t s) :=
  ((keep_powerDownMotors s).trans (keep_writeShadow _)).trans (keep_mapPower ..)

theorem sound_entryGoesOn {s : State} (h : PagesSound s) : PagesSound (entryGoesOn s) := by
  unfold entryGoesOn
  split
  · exact h
  · split
    · split
      · exact sound_keep h (keep_abandonEntry ..)
      · unfold passCheck
        extract_lets s1
        have k1 : PagesSound s1 := sound_keep h (((keep_mapTemp ..).trans (keep_powerDownMotors _)).trans (keep_writeShadow _))
        split
        · exact sound_keep (sound_spill k1 (n := .await .standby) rfl) (keep_setStage ..)
        · exact sound_keep k1 ((keep_askSelfRefresh ..).trans (keep_setStage ..))
    · exact h

theorem keep_restartMotors (s : State) : Keep s (restartMotors s) := by
  unfold restartMotors
  extract_lets s1
  have k1 : Keep s s1 := Keep.trans (t := { s with motS := s.motS.restarted, motP := s.motP.restarted }) keep_plain (keep_applyMotorTables _)
  exact keep_ite k1 (k1.trans (keep_cutOffBoth ..))

theorem sound_orderRestart {s : State} (h : PagesSound s) : PagesSound (orderRestart s).1 := by
  unfold orderRestart
  extract_lets s1 s2
  have k1 : Keep (endAtRestart s) s1 :=
    ((keep_mapFront ..).trans ((keep_abandonDiag _).trans (keep_killGrant ..))).trans (keep_restartMotors _)
  have k2 : PagesSound s2 := sound_keep (sound_endAtRestart h) (k1.trans (keep_mapPower ..))
  show PagesSound (if s2.power.state = .doze then beginReturn 0 s2 else s2)
  split
  · exact sound_keep k2 (keep_beginReturn ..)
  · exact k2

end Sys2Proof.Machine
end

