-- ==== Sys2Proof/Laws/MotorCommands.lean ====
section
/-! SUPPORT. MotorsSound under the orders, the records and the events. -/

-- one declaration after the other: run side by side, the proofs of the whole package hold more threads than memory has room for
set_option Elab.async false

namespace Sys2Proof.Machine

/-! ## The orders -/

theorem calm_pushReply (k sb : Byte) (b : ReplyBody) (s : State) : Calm s (pushReply k sb b s) := calm_mapPort ..

theorem calm_orderCalibrate (s : State) : Calm s (orderCalibrate s).1 := by
  unfold orderCalibrate
  split
  · exact .refl s
  · dsimp only; exact calm_mapFront ..

theorem calm_orderIntake (p : List Byte) (s : State) : Calm s (orderIntake p s).1 := by
  have g : ∀ (o : Option IntakeJob) (u : State), Calm u { u with intJob := o } := by
    intro o u
    constructor <;> first | rfl | exact .inl rfl | exact (fun h => h) | exact MotCalm.refl _ _
  unfold orderIntake
  split
  · split
    · exact .refl s
    · split
      · exact .refl s
      · exact (((calm_createEntry ..).trans (calm_mapCoder ..)).trans (calm_clearIntakeLine _)).trans (g _ _)
  · exact .refl s

theorem calm_orderIntakeEnd (s : State) : Calm s (orderIntakeEnd s).1 := by
  unfold orderIntakeEnd
  split
  · exact calm_mapIntJob ..
  · exact .refl s

theorem calm_outJob (o : Option OutputJob) (s : State) : Calm s { s with outJob := o } := by
  constructor <;> first | rfl | exact .inl rfl | exact (fun h => h) | exact MotCalm.refl _ _

theorem calm_admitReader (c : DecoderCtx) (e : Entry) (b : Bool) (s : State) : Calm s (admitReader c e b s) := by
  unfold admitReader
  exact (calm_mapEntry ..).trans (calm_setPass ..)

theorem calm_orderOutput (p : List Byte) (s : State) : Calm s (orderOutput p s).1 := by
  unfold orderOutput
  split
  · exact .refl s
  · split
    · exact .refl s
    · split
      · exact .refl s
      · split
        · exact .refl s
        · dsimp only; exact (calm_outJob ..).trans (calm_admitReader ..)

theorem calm_orderErase (p : List Byte) (s : State) : Calm s (orderErase p s).1 := by
  unfold orderErase
  split
  · exact .refl s
  · split
    · exact .refl s
    · exact .refl s
    · split
      · exact calm_mapEntry ..
      · exact calm_dropEntry ..

theorem calm_orderStop (p : List Byte) (s : State) : Calm s (orderStop p s).1 := by
  unfold orderStop
  split
  · exact .refl s
  · split
    · unfold orderStopScan
      split
      · split
        · exact .refl s
        · exact calm_scanDecision ..
      · exact .refl s
    · unfold orderStopIntake
      split
      · exact .refl s
      · exact ((calm_endDirwait ..).trans (calm_ite (calm_completePage ..) (calm_discardWritten ..))).trans (calm_endIntake ..)
    · unfold orderStopPrint
      split
      · exact .refl s
      · next j hj =>
        split
        · exact .refl s
        · exact (((calm_prtJob _ (by simp [hj])).trans (calm_idleDecoder ..)).trans (calm_emptyPrintRing _)).trans (calm_removeReader ..)
    · unfold orderStopOutput
      split
      · exact .refl s
      · split
        · exact .refl s
        · exact ((calm_outJob ..).trans (calm_idleDecoder ..)).trans (calm_emptyOutputRing _)
    · exact .refl s

theorem calm_orderTemp (c : Byte) (s : State) : Calm s (orderTemp c s).1 := (calm_mapTemp ..).trans (calm_mapPrtJob ..)

theorem calm_printResume (a : List Byte) (s : State) : Calm s (printResume a s).1 := by
  unfold printResume
  split
  · exact .refl s
  · next j hj =>
    split
    · exact .refl s
    · unfold resumePrint
      extract_lets s1
      have h : Calm s s1 := calm_prtJob _ (by simp [hj])
      exact calm_ite (calm_ite (h.trans (calm_askSteps _ _ _ (by simp [s1]))) (h.trans (calm_afterExit _)))
        (calm_ite (h.trans (calm_askSteps _ _ _ (by simp [s1]))) (h.trans (calm_mapPrtJob ..)))

/-- RESUME of a faulted channel with the cover closed (R114). -/
theorem clear_sound (ch : Channel) {s : State} (h : MotorsSound s) (hc : s.lines.cover = true) (he : s.power.entry = none)
    (hp : s.power.pfail = .inactive) : MotorsSound (mapMotor ch Motor.clear s) := by
  have lw : ∀ m : Motor, m.clear.low := fun _ => .inl rfl
  have key : ∀ t : State, t.lines = s.lines → t.boot = s.boot → t.power = s.power → t.pmc = s.pmc → t.spill = s.spill →
      t.scanJob = s.scanJob → t.prtJob = s.prtJob → (t.motS = s.motS ∨ t.motS.low) → (t.motP = s.motP ∨ t.motP.low) →
      MotorsSound t := by
    intro t h1 h2 h3 h4 h5 h6 h7 h8 h9
    have ls : s.motS.low ∧ s.motP.low → t.motS.low ∧ t.motP.low := fun z =>
      ⟨h8.elim (fun w => w ▸ z.1) (fun w => w), h9.elim (fun w => w ▸ z.2) (fun w => w)⟩
    constructor
    · rw [h1, h2]; exact h.resetSeen
    · rw [h1, h2, h3]; exact h.pfailSeen
    · rw [h1, hc]; exact nofun
    · rw [h3]; exact fun x => absurd hp x
    · rw [h3, he]; exact nofun
    · rw [h3, h2]; exact fun x => ⟨(h.away x).1, ls (h.away x).2⟩
    · rw [h2]; exact fun x => ls (h.booting x)
    · rw [h3, h2]; exact h.coming
    · unfold mayMove
      rw [h3, h2, h6, h7]
      intro x
      have y := h.still x
      exact ⟨y.1, y.2.1, h8.elim (fun w => w ▸ y.2.2.1) low_not_moving, h9.elim (fun w => w ▸ y.2.2.2) low_not_moving⟩
    · rw [h4, h3]; exact h.failFor
    · rw [h4, h3]; exact h.refreshed
    · rw [h3, h2, h5]; exact h.spilled
    · rw [h2, h5]; exact h.unspilled
  cases ch
  · exact key _ rfl rfl rfl rfl rfl rfl rfl (.inr (lw _)) (.inl rfl)
  · exact key _ rfl rfl rfl rfl rfl rfl rfl (.inl rfl) (.inr (lw _))

theorem orderResume_sound (p : List Byte) {s : State} (h : MotorsSound s) (he : s.power.entry = none)
    (hp : s.power.pfail = .inactive) : MotorsSound (orderResume p s).1 := by
  unfold orderResume
  split
  · exact h
  · split
    · split
      · next hc =>
        simp only [Bool.and_eq_true] at hc
        exact clear_sound _ h hc.1 he hp
      · exact h
    · split
      · exact h
      · exact calm_sound h (calm_printResume ..)

theorem startScan_works {j : ScanJob} {s : State} (hf : s.motS.state ≠ .fault) : Works s (beginScan j s) := by
  have k := calm_startScanRun false (s := { s with front := { s.front with lamp := true }, dir := { s.dir with places := s.dir.places + 1 }, scanJob := some j })
    hf (by simp)
  have k0 : Works s { s with front := { s.front with lamp := true }, dir := { s.dir with places := s.dir.places + 1 }, scanJob := some j } :=
    works_of rfl rfl rfl rfl rfl (.inr ⟨rfl, rfl⟩)
  exact k0.trans k.works

theorem orderScan_works (p : List Byte) (s : State) : Works s (orderScan p s).1 := by
  unfold orderScan
  split
  · split
    · exact (Calm.refl s).works
    · next hr =>
      dsimp only
      split
      · exact (Calm.refl s).works
      · dsimp only
        refine startScan_works ?_
        intro hf
        simp [scanRefusal, Motor.atRest, hf] at hr
  · exact (Calm.refl s).works

theorem orderPrint_works (p : List Byte) (s : State) : Works s (orderPrint p s).1 := by
  have r := (Calm.refl s).works
  unfold orderPrint
  split
  · split
    · exact r
    · split
      · exact r
      · split
        · exact r
        · split
          · exact r
          · split
            · exact r
            · refine Works.trans ?_ ((calm_admitReader ..).trans (calm_copyItems _)).works
              exact works_of rfl rfl rfl rfl rfl (.inr ⟨rfl, rfl⟩)
  · exact r

theorem orderMove_works (p : List Byte) (s : State) : Works s (orderMove p s).1 := by
  have r := (Calm.refl s).works
  unfold orderMove
  split
  · next ch rev _ _ =>
    split
    · exact r
    · next hr =>
      split
      · exact r
      · have nf : ¬ bothFaulted s := by
          intro b
          cases ch
          · simp [motorOf, Motor.atRest, b.1] at hr
          · simp [motorOf, Motor.atRest, b.2] at hr
        cases ch
        · exact works_of rfl rfl rfl rfl rfl (.inl nf)
        · exact works_of rfl rfl rfl rfl rfl (.inl nf)
  · exact r

/-- POWER in READY with no entry under way (R169). -/
theorem orderPower_sound (p : List Byte) {s : State} (h : MotorsSound s) (hb : s.boot.state = .ready)
    (he : s.power.entry = none) (hp : s.power.pfail = .inactive) (hd : s.power.state = .run ∨ s.power.state = .doze)
    (ht : s.power.returning = none) :
    MotorsSound (orderPower p s).1 := by
  have busy : ∀ b, ¬ powerBusy b s = true → s.scanJob = none ∧ s.prtJob = none ∧ s.motS.moving = false ∧ s.motP.moving = false := by
    intro b x
    simp only [powerBusy, Bool.not_eq_true, Bool.or_eq_false_iff] at x
    obtain ⟨⟨⟨⟨⟨h1, h2⟩, _⟩, _⟩, h3⟩, h4⟩ := x
    exact ⟨by simpa using h1, by simpa using h2, h3, h4⟩
  have begin_ : ∀ (b : Bool) (m : Byte) (t : Nat), ¬ powerBusy true s = true → MotorsSound (beginEntry b m t s) := by
    intro b m t x
    have y := busy true x
    have sr := h.refreshed hp he
    have sp := h.spilled hp he (.inl hb)
    constructor
    · exact h.resetSeen
    · exact h.pfailSeen
    · exact h.coverSeen
    · exact fun z => absurd hp z
    · intro e hx
      have : some _ = some e := hx
      cases this
      exact ⟨ht, rfl, hb, hd, fun z => absurd rfl z, fun z => absurd sr z, by show s.spill.ofEntry = true; rw [sp]; rfl,
        fun z => absurd sp z⟩
    · exact h.away
    · exact h.booting
    · exact h.coming
    · exact fun _ => y
    · exact h.failFor
    · exact fun _ z => by cases z
    · exact fun _ z => by cases z
    · exact h.unspilled
  unfold orderPower
  dsimp only
  split
  · split
    · exact h
    · next hx =>
      have y := busy false hx
      unfold takeDoze
      split
      · exact power_sound h _ rfl rfl rfl rfl rfl (fun x => absurd he x)
      · next nd =>
        have run : s.power.state = .run := hd.elim (fun x => x) (fun x => absurd x nd)
        exact enterDoze_sound _ _ h ⟨run, hb, hp, he⟩ ht y.1 y.2.1 y.2.2.1 y.2.2.2
  · split
    · exact h
    · next hx => exact begin_ _ _ _ hx
  · split
    · exact h
    · next hx => exact begin_ _ _ _ hx
  · exact h

theorem calm_startBuild (s : State) : Calm s (startBuild s) := calm_mapPmc rfl

theorem orderReady_sound {s : State} (h : MotorsSound s) (he : s.power.entry = none) (hp : s.power.pfail = .inactive) :
    MotorsSound (orderReady s).1 := by
  unfold orderReady
  split
  · next hb =>
    split
    · exact h
    · refine reachReady_sound 1 (calm_sound h (calm_startBuild s)) ?_ he (.inl ?_) (h.spilled hp he (.inr (.inl hb)))
      · show s.boot.state ≠ .reset; rw [hb]; simp
      · show s.boot.state ≠ .ready; rw [hb]; simp
  · exact h

theorem calm_restartDiag (s : State) : Calm s (restartDiag s) := (abandonDiag_calm s).trans (calm_killGrant ..)

theorem orderRestart_sound {s : State} (h : MotorsSound s) (hb : s.boot.state = .ready) (he : s.power.entry = none)
    (hp : s.power.pfail = .inactive) (hd : s.power.state = .run ∨ s.power.state = .doze) : MotorsSound (orderRestart s).1 := by
  have c := ((endAtRestart_calm s).1.trans (calm_mapFront (fun f => { f with errorRow := List.replicate 1728 0, ditherRow := 0, ditherCol := 0, comp := none }) _)).trans (calm_restartDiag _)
  have j := (endAtRestart_calm s).2
  unfold orderRestart
  extract_lets s1 s2
  have e0 : restartDiag (restartFront (endAtRestart s)) = restartDiag (restartFront (endAtRestart s)) := rfl
  have jn : (restartDiag (restartFront (endAtRestart s))).scanJob = none ∧ (restartDiag (restartFront (endAtRestart s))).prtJob = none := j
  have cc : Calm s (restartDiag (restartFront (endAtRestart s))) := c
  have k1 : MotorsSound s1 ∧ Calm s1 s1 ∧ s1.power.entry = none ∧ s1.power.pfail = .inactive ∧ s1.power.state = s.power.state ∧ s1.boot.state = .ready := by
    simp only [s1]
    generalize restartDiag (restartFront (endAtRestart s)) = u at *
    have hu := calm_sound h cc
    have pe : u.power.entry = none := cc.entry.trans he
    have pp : u.power.pfail = .inactive := cc.pfail.trans hp
    have pb : u.boot.state = .ready := cc.boot.trans hb
    have ps : u.power.state = .run ∨ u.power.state = .doze := by rw [cc.pst]; exact hd
    unfold restartMotors
    extract_lets v
    have cm : Calm { u with motS := u.motS.restarted, motP := u.motP.restarted } v := calm_applyMotorTables _
    have oS : v.motS.state = .off := cm.motS.2 jn.1
    have oP : v.motP.state = .off := cm.motP.2 jn.2
    have vl : v.lines = u.lines := cm.lines
    have vb : v.boot.state = u.boot.state := cm.boot
    have vs : v.power.state = u.power.state := cm.pst
    have vp : v.power.pfail = u.power.pfail := cm.pfail
    have ve : v.power.entry = u.power.entry := cm.entry
    have vr : v.power.returning = u.power.returning := cm.ret
    have vsr : v.pmc.srPending = u.pmc.srPending := cm.sr
    have vsp : SpillMoves u.spill v.spill := cm.spill
    have vj : v.scanJob = none := cm.scan jn.1
    have vk : v.prtJob = none := cm.prt jn.2
    have gen : ∀ w : State, w.lines = v.lines → w.boot = v.boot → w.power = v.power → w.pmc = v.pmc → w.spill = v.spill →
        w.scanJob = none → w.prtJob = none → w.motS.low → w.motP.low → (v.lines.cover = false → bothFaulted w) →
        MotorsSound w := by
      intro w w1 w2 w3 w4 w5 w6 w7 w8 w9 w10
      constructor
      · rw [w1, w2, vl, vb]; exact hu.resetSeen
      · rw [w1, w2, w3, vl, vb, vs, vp]; exact hu.pfailSeen
      · rw [w1]; exact fun x => .inl (w10 x)
      · rw [w3, vp, pp]; exact fun x => absurd rfl x
      · rw [w3, ve, pe]; exact nofun
      · rw [w3, w2, vs, vb]; exact fun x => ⟨(hu.away x).1, w8, w9⟩
      · exact fun _ => ⟨w8, w9⟩
      · rw [w3, w2, vr, vb, vs]; exact hu.coming
      · exact fun _ => ⟨w6, w7, low_not_moving w8, low_not_moving w9⟩
      · rw [w4, w3, vsr, vp]; exact hu.failFor
      · rw [w4, w3, vsr, vp, ve]; exact hu.refreshed
      · rw [w3, w2, w5, vp, ve, vb]; exact fun x y z => vsp.idle (hu.spilled x y z)
      · rw [w2, w5, vb]; exact fun x => vsp.idle (hu.unspilled x)
    split
    · next hc =>
      refine ⟨gen v rfl rfl rfl rfl rfl vj vk (.inl oS) (.inl oP) (fun x => by rw [hc] at x; cases x), .refl _, ?_, ?_, ?_, ?_⟩
      · rw [ve]; exact pe
      · rw [vp]; exact pp
      · rw [vs]; exact cc.pst
      · rw [vb]; exact pb
    · refine ⟨gen (cutOffBoth byCover v) rfl rfl rfl rfl rfl vj vk (.inr (cutOff_fault _ _)) (.inr (cutOff_fault _ _))
        (fun _ => ⟨cutOff_fault _ _, cutOff_fault _ _⟩), .refl _, ?_, ?_, ?_, ?_⟩
      · show v.power.entry = none; rw [ve]; exact pe
      · show v.power.pfail = .inactive; rw [vp]; exact pp
      · show v.power.state = _; rw [vs]; exact cc.pst
      · show v.boot.state = _; rw [vb]; exact pb
  clear_value s1
  obtain ⟨a1, -, a2, a3, a4, a5⟩ := k1
  have k2 : MotorsSound s2 := power_sound a1 _ rfl rfl rfl rfl rfl (fun x => absurd a2 x)
  show MotorsSound (if s2.power.state = .doze then beginReturn 0 s2 else s2)
  split
  · next hx =>
    refine beginReturn_sound 0 k2 a5 a2 a3 ?_ ?_
    · rw [hx]; simp
    · rw [hx]; simp
  · exact k2

/-! ## Records -/

theorem calm_maskAll (n : Nat) (s : State) : Calm s { s with events := s.events.maskAll n } := by
  constructor <;> first | rfl | exact .inl rfl | exact (fun h => h) | exact MotCalm.refl _ _

theorem calm_replaceActive (i : Fin 14) (img : List Byte) (s : State) : Calm s (replaceActive i img s) :=
  (calm_setActive ..).trans (calm_setPending ..)

theorem calm_setAssembly (a : Option Assembly) (s : State) : Calm s (setAssembly a s) := by
  constructor <;> first | rfl | exact .inl rfl | exact (fun h => h) | exact MotCalm.refl _ _

theorem calm_loadSegment (i : Fin 14) (g f : Nat) (b : List Byte) (s : State) : Calm s (loadSegment i g f b s).1 := by
  have inst : ∀ (x : List Byte) (u : State), Calm u (completeImage i x u).1 := by
    intro x u
    unfold completeImage
    split
    · exact .refl u
    · split
      · exact .refl u
      · split
        · exact .refl u
        · have two : Calm u (installImage i (clampTable i x).image u).1 := by
            unfold installImage
            split
            · dsimp only
              unfold installSettings
              extract_lets r s1 s2
              have k : Calm u s2 := (calm_replaceActive ..).trans (calm_maskAll ..)
              exact calm_ite (k.trans (calm_startBuild _)) k
            · split
              · dsimp only; exact calm_setPending ..
              · dsimp only; exact calm_replaceActive ..
          exact two
  have gath : ∀ (n : Nat) (fin : Bool) (x : List Byte) (u : State), Calm u (gather i n fin x u).1 := by
    intro n fin x u
    unfold gather
    split
    · dsimp only; exact calm_setAssembly ..
    · split
      · exact (calm_setAssembly ..).trans (inst _ _)
      · dsimp only; exact calm_setAssembly ..
  unfold loadSegment
  split
  · exact .refl s
  · split
    · exact gath _ _ _ s
    · split
      · exact .refl s
      · split
        · exact gath _ _ _ s
        · exact .refl s

theorem calm_actLoad (sub : Byte) (p : List Byte) (s : State) : Calm s (actLoad sub p s).1 := by
  unfold actLoad
  split
  · exact calm_loadSegment ..
  · exact .refl s

theorem calm_events (e : Events) (s : State) : Calm s { s with events := e } := by
  constructor <;> first | rfl | exact .inl rfl | exact (fun h => h) | exact MotCalm.refl _ _

theorem calm_orderEvack (p : List Byte) (s : State) : Calm s (orderEvack p s).1 := by
  unfold orderEvack
  split
  · exact .refl s
  · dsimp only; exact calm_events ..

theorem calm_writeItem (m i : Nat) (img : List Byte) (s : State) : Calm s (writeItem m i img s).1 := by
  unfold writeItem
  split
  · dsimp only; exact calm_mapFront ..
  · split
    · exact .refl s
    · unfold writeCopy
      split
      · exact .refl s
      · split
        · exact .refl s
        · dsimp only
          unfold putCopy
          split
          · exact calm_setPending ..
          · dsimp only
            split <;> constructor <;> first | rfl | exact .inl rfl | exact (fun h => h) | exact MotCalm.refl _ _
  · dsimp only; exact calm_mapRings ..

theorem calm_actDiag (sub : Byte) (p : List Byte) (s : State) : Calm s (actDiag sub p s).1 := by
  have q : ∀ a : DiagAccess, Calm s (queueDiag a s) := by
    intro a
    constructor <;> first | rfl | exact .inl rfl | exact (fun h => h) | exact MotCalm.refl _ _
  unfold actDiag orderDiag
  split
  · exact .refl s
  · unfold takeDiag
    split
    · dsimp only; exact q _
    · dsimp only; exact q _
    · exact .refl s
    · dsimp only
      split
      · exact calm_writeItem ..
      · exact calm_writeItem ..

theorem calm_acceptLine (l : Bool) (p : List Byte) (s : State) : Calm s (acceptLine l p s) := by
  constructor <;> first | rfl | exact .inl rfl | exact (fun h => h) | exact MotCalm.refl _ _

theorem actOrder_sound (code : Nat) (p : List Byte) {s : State} (h : MotorsSound s) (hb : s.boot.state = .ready)
    (he : s.power.entry = none) (hp : s.power.pfail = .inactive)
    (hd : s.power.state = .run ∨ (s.power.state = .doze ∧ code ≠ 1 ∧ code ≠ 2 ∧ code ≠ 6 ∧ code ≠ 10))
    (ht : s.power.returning = none) : MotorsSound (actOrder code p s).1 := by
  have rd : s.power.state = .run ∨ s.power.state = .doze := hd.imp (fun x => x) (fun x => x.1)
  have w : ∀ t : State, (s.power.state = .run) → Works s t → MotorsSound t := fun t x k => works_sound h ⟨x, hb, hp, he⟩ k
  unfold actOrder
  split
  · exact calm_sound h (calm_orderCalibrate s)
  · exact w _ (hd.elim (fun x => x) (fun x => absurd rfl x.2.2.1)) (orderScan_works p s)
  · exact calm_sound h (calm_orderIntake p s)
  · exact calm_sound h (calm_orderIntakeEnd s)
  · exact calm_sound h (calm_orderOutput p s)
  · exact w _ (hd.elim (fun x => x) (fun x => absurd rfl x.2.2.2.1)) (orderPrint_works p s)
  · exact calm_sound h (calm_orderErase p s)
  · exact calm_sound h (calm_orderStop p s)
  · exact orderResume_sound p h he hp
  · exact w _ (hd.elim (fun x => x) (fun x => absurd rfl x.2.2.2.2)) (orderMove_works p s)
  · exact calm_sound h (calm_orderTemp _ s)
  · exact orderPower_sound p h hb he hp rd ht
  · exact orderReady_sound h he hp
  · exact orderRestart_sound h hb he hp rd
  · exact h

/-- A record dispatched where records are dispatched: no entry and no return under way, no warning (R3). -/
theorem dispatch_sound (r : Record) {s : State} (h : MotorsSound s) (hb : s.boot.state = .portload ∨ s.boot.state = .ready)
    (he : s.power.entry = none) (hp : s.power.pfail = .inactive)
    (hd : s.power.state = .run ∨ (s.power.state = .doze ∧ needsRun r = false)) (ht : s.power.returning = none) :
    MotorsSound (dispatch r s) := by
  unfold dispatch
  refine calm_sound ?_ (calm_restartIdle _)
  have c : Calm s (mapPort (fun p => { p with inbound := .receiving [] }) s) := calm_mapPort ..
  have hu := calm_sound h c
  have ub := c.boot
  have ue := c.entry.trans he
  have up := c.pfail.trans hp
  have us := c.pst
  have ut := c.ret.trans ht
  generalize mapPort (fun p => { p with inbound := .receiving [] }) s = u at *
  unfold act
  split
  · exact calm_sound hu (calm_pushReply ..)
  · next hpl =>
    split
    · unfold actLine
      split
      · exact calm_sound hu (calm_pushReply ..)
      · exact calm_sound hu (calm_acceptLine ..)
    · split
      · exact calm_sound hu (((calm_actLoad ..).trans (calm_pushReply ..)).trans (calm_arbitrate _))
      · split
        · exact calm_sound hu (calm_pushReply ..)
        · split
          · exact calm_sound hu ((calm_orderEvack ..).trans (calm_pushReply ..))
          · split
            · exact calm_sound hu (((calm_actDiag ..).trans (calm_pushReply ..)).trans (calm_arbitrate _))
            · split
              · next hk =>
                refine calm_sound (calm_sound ?_ (calm_pushReply ..)) (calm_settle _)
                rcases hb with hb | hb
                · have pt : portloadTakes r = true := by
                    by_contra x
                    exact hpl ⟨ub.trans hb, by simpa using x⟩
                  have hs : r.sub = 0x0D := by
                    simp only [portloadTakes, Bool.or_eq_true, decide_eq_true_eq, Bool.and_eq_true] at pt
                    rcases pt with (x | x) | x
                    · contradiction
                    · contradiction
                    · exact x.2
                  rw [hs]
                  exact orderReady_sound hu ue up
                · refine actOrder_sound _ _ hu (ub.trans hb) ue up ?_ ut
                  rw [us]
                  refine hd.imp (fun x => x) (fun x => ⟨x.1, ?_⟩)
                  have y := x.2
                  simp only [needsRun, hk, decide_true, Bool.true_and, Bool.or_eq_false_iff, decide_eq_false_iff_not] at y
                  refine ⟨fun z => y.1.1.1 ?_, fun z => y.1.1.2 ?_, fun z => y.1.2 ?_, fun z => y.2 ?_⟩ <;>
                    exact BitVec.eq_of_toNat_eq z
              · exact calm_sound hu (calm_pushReply ..)

/-- What the RDY line high says of the channels (R1). -/
theorem rdy_open {s : State} (h : rdy s = true) : s.power.returning = none ∧ s.power.entry = none ∧
    (s.power.state = .run ∨ s.power.state = .doze) ∧ s.power.pfail = .inactive ∧
    (s.boot.state = .portload ∨ s.boot.state = .ready) := by
  simp only [rdy, Bool.and_eq_true, Option.isNone_iff_eq_none, decide_eq_true_eq, Bool.or_eq_true] at h
  obtain ⟨⟨⟨⟨⟨⟨_, _⟩, h3⟩, h4⟩, h5⟩, h6⟩, h7⟩ := h
  exact ⟨h3, h4, h5, h6, h7⟩

theorem calm_inbound (i : Inbound) (s : State) : Calm s (setInbound i s) := calm_mapPort ..

theorem calm_drained (k sb : Byte) (st : Status) (s : State) : Calm s (drained k sb st s) :=
  (calm_inbound ..).trans (calm_pushReply ..)

theorem completeRecord_sound (r : Record) {s : State} (h : MotorsSound s) (k : rdy s = true) :
    MotorsSound (completeRecord r s) := by
  obtain ⟨h1, h2, h3, h4, h5⟩ := rdy_open k
  unfold completeRecord
  split
  · next hx =>
    have c : Calm s (mapPort (fun p => { p with inbound := .held r }) s) := calm_mapPort ..
    have hb : s.boot.state = .ready := (h.away (by rw [hx.2]; simp)).1
    refine beginReturn_sound 0 (calm_sound h c) (c.boot.trans hb) (c.entry.trans h2) (c.pfail.trans h4) ?_ ?_
    · rw [c.pst, hx.2]; simp
    · rw [c.pst, hx.2]; simp
  · next hx =>
    refine dispatch_sound r h h5 h2 h4 ?_ h1
    rcases h3 with x | x
    · exact .inl x
    · refine .inr ⟨x, ?_⟩
      cases y : needsRun r
      · rfl
      · exact absurd ⟨y, x⟩ hx

theorem takeByte_sound (d : Byte) {s : State} (h : MotorsSound s) (k : rdy s = true) : MotorsSound (takeByte d s) := by
  have si : ∀ i, MotorsSound (setInbound i s) := fun i => calm_sound h (calm_inbound ..)
  unfold takeByte
  split
  · unfold appendByte
    split
    · exact si _
    · split
      · unfold headerTaken
        split
        · split
          · exact calm_sound h (calm_drained ..)
          · exact si _
        · split
          · exact completeRecord_sound _ h k
          · exact si _
      · split
        · exact si _
        · exact completeRecord_sound _ h k
  · split
    · exact calm_sound h (calm_drained ..)
    · exact si _
  · exact h

theorem strobe_sound (b : Bool) (d : Byte) {s : State} (h : MotorsSound s) : MotorsSound (strobe b d s) := by
  unfold strobe
  split
  · next hs =>
    have e0 : s.power.entry = none := by
      cases x : s.power.entry
      · rfl
      · next e => rcases (h.entering e x).from_ with y | y <;> rw [hs] at y <;> cases y
    have := wakeEvent_sound 5 h e0
    simp only [wakeEvent, hs] at this
    exact calm_sound this (calm_arbitrate _)
  · split
    · next k => exact takeByte_sound d h k
    · split
      · unfold holdTogether
        split
        · split
          · split
            · exact calm_sound h (calm_inbound ..)
            · exact h
          · exact h
        · exact h
        · exact h
      · exact h

theorem writeRecord_sound (r : Record) {s : State} (h : MotorsSound s) : MotorsSound (writeRecord r s) := by
  unfold writeRecord
  split
  · next hx =>
    split
    · exact calm_sound h (calm_drained ..)
    · exact completeRecord_sound r h hx.1
  · have f : ∀ (ds : List Byte) (u : State), MotorsSound u → MotorsSound (ds.foldl (fun s d => strobe false d s) u) := by
      intro ds
      induction ds with
      | nil => exact fun _ x => x
      | cons d ds ih => exact fun u x => ih _ (strobe_sound false d x)
    exact f _ s h

theorem readStrobe_sound {s : State} (h : MotorsSound s) : MotorsSound (readStrobe s) := by
  have dr : ∀ c : OutCourse, MotorsSound (driveByte c s) := by
    intro c
    unfold driveByte
    split
    · exact h
    · unfold outboundEnd
      split
      · exact calm_sound h ((calm_mapPort ..).trans (calm_mapPort ..))
      · exact calm_sound h ((calm_mapPort ..).trans (calm_events ..))
      · exact calm_sound h (((calm_mapPort ..).trans (calm_mapRings ..)).trans (calm_settle _))
    · exact calm_sound h (calm_mapPort ..)
  unfold readStrobe
  split
  · split
    · exact dr _
    · split
      · exact dr _
      · exact h
  · exact calm_sound h (calm_mapPort ..)

/-! ## RUN reached -/

theorem runReached_sound {s : State} (h : MotorsSound s) : MotorsSound (runReached s) ∧
    (s.power.returning ≠ none → (runReached s).power.returning = none ∧ (runReached s).power.state = .run ∧
      (runReached s).power.entry = none ∧ (runReached s).power.pfail = .inactive ∧ (runReached s).boot.state = .ready) := by
  unfold runReached
  split
  · next hr => exact ⟨h, fun x => absurd hr x⟩
  · next r hr =>
    have ne : s.power.returning ≠ none := by rw [hr]; simp
    have hb := (h.coming ne).1
    have e0 : s.power.entry = none := by
      cases x : s.power.entry
      · rfl
      · next e => exact absurd (h.entering e x).noReturn ne
    have hp : s.power.pfail = .inactive := by
      by_contra x
      exact ne (h.warned x).2.2.2
    have k : MotorsSound (mapPower (fun p => { p with state := .run, returning := none, wakeTimer := none }) (readShadow s.power.shadow s)) := by
      have hc := calm_sound h (calm_readShadow s.power.shadow s)
      have mm : ∀ t : State, mapPower (fun p => { p with state := .run, returning := none, wakeTimer := none }) t = t ∨ True := fun _ => .inr trivial
      constructor
      · exact hc.resetSeen
      · intro x
        rcases hc.pfailSeen x with y | y | y
        · exact .inl y
        · exact absurd y (h.coming ne).2
        · exact .inr (.inr y)
      · intro x
        rcases hc.coverSeen x with y | y | y | y
        · exact .inl y
        · exact absurd y (h.coming ne).2
        · exact .inr (.inr (.inl y))
        · exact absurd y.2.1 ne
      · exact fun x => absurd hp x
      · intro e x
        have : s.power.entry = some e := x
        rw [e0] at this; cases this
      · exact fun x => absurd rfl x
      · exact hc.booting
      · exact fun x => absurd rfl x
      · exact fun x => absurd ⟨rfl, hb, hp, e0⟩ x
      · exact hc.failFor
      · exact hc.refreshed
      · exact hc.spilled
      · exact hc.unspilled
    dsimp only
    split
    · exact ⟨k, fun _ => ⟨rfl, rfl, e0, hp, hb⟩⟩
    · exact ⟨calm_sound k (calm_raise ..), fun _ => ⟨rfl, rfl, e0, hp, hb⟩⟩

theorem dispatchHeld_sound {s : State} (h : MotorsSound s) (hs : s.power.state = .run) (hb : s.boot.state = .ready)
    (he : s.power.entry = none) (hp : s.power.pfail = .inactive) (ht : s.power.returning = none) :
    MotorsSound (dispatchHeld s) := by
  unfold dispatchHeld
  split
  · exact dispatch_sound _ h (.inr hb) he hp (.inl hs) ht
  · exact h
  · exact h

/-! ## Motor events, readouts, ROM -/

theorem moving_mayMove {s : State} (h : MotorsSound s) (ch : Channel) (m : (motorOf ch s).moving = true) : mayMove s := by
  by_contra x
  have y := h.still x
  cases ch
  · have : s.motS.moving = true := m
    rw [y.2.2.1] at this; cases this
  · have : s.motP.moving = true := m
    rw [y.2.2.2] at this; cases this

theorem moving_not_both {s : State} (ch : Channel) (m : (motorOf ch s).moving = true) : ¬ bothFaulted s := by
  intro b
  cases ch
  · have : s.motS.moving = true := m
    rw [faulted_not_moving b.1] at this; cases this
  · have : s.motP.moving = true := m
    rw [faulted_not_moving b.2] at this; cases this

theorem stepFalls_sound (ch : Channel) {s : State} (h : MotorsSound s) : MotorsSound (stepFalls ch s) := by
  unfold stepFalls
  split
  · next hx =>
    simp only [Bool.and_eq_true] at hx
    have mm := moving_mayMove h ch hx.1
    have nb := moving_not_both ch hx.1
    have iss : ∀ c : Channel, MotorsSound (issueStep c s) := by
      intro c
      cases c <;> exact works_sound h mm (works_of rfl rfl rfl rfl rfl (.inl nb))
    split
    · split
      · exact h
      · have hf : s.motS.state ≠ .fault := moving_fault hx.1
        unfold scanStep
        split
        · exact iss _
        · next j hj =>
          have c := calm_scanStep false hf (s := s) (by rw [hj]; simp)
          unfold scanStep at c
          rw [hj] at c
          exact works_sound h mm c.works
    · exact iss _
  · exact h

theorem calm_lineDone (j : PrintJob) {s : State} (hj : s.prtJob ≠ none) : Calm s (lineDone j s) := by
  have set : ∀ k : PrintJob, Calm s { s with prtJob := some k } := fun k => calm_prtJob _ (fun x => absurd x hj)
  unfold lineDone
  dsimp only
  exact calm_ite (set _) (calm_ite ((set _).trans (calm_pageEnd _)) (set _))

theorem calm_printRest (s : State) : Calm s (printRest s) := by
  unfold printRest
  split
  · exact .refl s
  · next j hj =>
    split
    · exact .refl s
    · exact calm_lineDone j (by rw [hj]; simp)
    · exact calm_prtJob _ (by rw [hj]; simp)
    · extract_lets s1
      have k : Calm s s1 := calm_prtJob _ (by rw [hj]; simp)
      exact calm_ite k (k.trans (calm_afterExit _))

theorem motionEnds_sound (ch : Channel) {s : State} (h : MotorsSound s) : MotorsSound (motionEnds ch s) := by
  unfold motionEnds
  split
  · next hx =>
    simp only [Motor.spent, Bool.and_eq_true] at hx
    have mm := moving_mayMove h ch hx.1
    have nb := moving_not_both ch hx.1
    have rs : ∀ c : Channel, Works s (restChannel c s) := by
      intro c
      cases c <;> exact works_of rfl rfl rfl rfl rfl (.inl nb)
    split
    · exact works_sound h mm (rs .S)
    · exact works_sound h mm ((rs .P).trans (calm_printRest _).works)
    · refine works_sound h mm ((rs .P).trans ?_)
      unfold takeWaiting
      split
      · exact (Calm.refl _).works
      · have nb2 : ¬ bothFaulted (restChannel .P s) := by
          intro b
          have : (restChannel .P s).motP.state = .hold := rfl
          rw [b.2] at this; cases this
        unfold requestP
        split
        · exact works_of rfl rfl rfl rfl rfl (.inl nb2)
        · split
          · exact works_of rfl rfl rfl rfl rfl (.inl nb2)
          · split
            · exact works_of rfl rfl rfl rfl rfl (.inl nb2)
            · exact works_of rfl rfl rfl rfl rfl (.inl nb2)
  · exact h

theorem holdExpires_sound (ch : Channel) {s : State} (h : MotorsSound s) : MotorsSound (holdExpires ch s) := by
  unfold holdExpires
  split
  · next hx =>
    have nb : ¬ bothFaulted s := by
      intro b
      cases ch
      · have : s.motS.state = .hold := hx.1
        rw [b.1] at this; cases this
      · have : s.motP.state = .hold := hx.1
        rw [b.2] at this; cases this
    have nl : ¬ (s.motS.low ∧ s.motP.low) := by
      intro b
      cases ch
      · have : s.motS.state = .hold := hx.1
        rcases b.1 with y | y <;> rw [this] at y <;> cases y
      · have : s.motP.state = .hold := hx.1
        rcases b.2 with y | y <;> rw [this] at y <;> cases y
    have run : s.power.state = .run := by
      by_contra y
      exact nl (h.away y).2
    have bt : s.boot.state = .ready := by
      by_contra y
      exact nl (h.booting y)
    have hp : s.power.pfail = .inactive := by
      by_contra y
      exact nb (h.warned y).1
    have key : ∀ t : State, t.lines = s.lines → t.boot = s.boot → t.power = s.power → t.pmc = s.pmc → t.spill = s.spill →
        t.scanJob = s.scanJob → t.prtJob = s.prtJob → (t.motS = s.motS ∨ t.motS.moving = false) →
        (t.motP = s.motP ∨ t.motP.moving = false) → MotorsSound t := by
      intro t h1 h2 h3 h4 h5 h6 h7 h8 h9
      constructor
      · rw [h1, h2]; exact h.resetSeen
      · rw [h1, h2, h3]; exact h.pfailSeen
      · rw [h1, h2, h3]
        intro x
        rcases h.coverSeen x with y | y | y | y
        · exact absurd y nb
        · exact .inr (.inl y)
        · exact .inr (.inr (.inl y))
        · exact .inr (.inr (.inr y))
      · rw [h3]; exact fun x => absurd hp x
      · rw [h3]
        intro e he
        have x := h.entering e he
        constructor
        · rw [h3]; exact x.noReturn
        · rw [h3]; exact x.noTimer
        · rw [h2]; exact x.ready
        · rw [h3]; exact x.from_
        · exact fun y => absurd (x.low y) nl
        · rw [h4]; exact x.refresh
        · rw [h5]; exact x.engine
        · rw [h5]; exact x.spilling
      · rw [h3]; exact fun x => absurd run x
      · rw [h2]; exact fun x => absurd bt x
      · rw [h3, h2]; exact h.coming
      · unfold mayMove
        rw [h3, h2, h6, h7]
        intro x
        have y := h.still x
        exact ⟨y.1, y.2.1, h8.elim (fun w => w ▸ y.2.2.1) (fun w => w), h9.elim (fun w => w ▸ y.2.2.2) (fun w => w)⟩
      · rw [h4, h3]; exact h.failFor
      · rw [h4, h3]; exact h.refreshed
      · rw [h3, h2, h5]; exact h.spilled
      · rw [h2, h5]; exact h.unspilled
    cases ch
    · exact key _ rfl rfl rfl rfl rfl rfl rfl (.inr rfl) (.inl rfl)
    · exact key _ rfl rfl rfl rfl rfl rfl rfl (.inl rfl) (.inr rfl)
  · exact h

theorem calm_readoutEnds (v : Vector Byte 1760) (s : State) : Calm s (readoutEnds v s) := by
  unfold readoutEnds
  split
  · unfold calibrationLine
    dsimp only
    split
    · exact calm_ite (calm_mapFront ..) (calm_mapFront ..)
    · exact .refl s
    · refine calm_ite (calm_mapFront ..) ?_
      unfold endCalibration
      exact (((calm_mapFront ..).trans (calm_replaceActive ..)).trans (calm_fillReply ..)).trans (calm_raise ..)
  · unfold lineRead
    split
    · constructor <;> first | rfl | exact .inl rfl | exact (fun h => h) | exact MotCalm.refl _ _
    · exact .refl s

theorem calm_lampWarm (s : State) : Calm s (lampWarm s) := by
  unfold lampWarm
  split
  · exact .refl s
  · exact calm_ite (calm_mapFront ..) (.refl s)

theorem calm_headEvent (f : Strobe → Strobe) (s : State) : Calm s (headEvent f s) := by
  unfold headEvent
  split
  · exact .refl s
  · next j hj =>
    split
    · exact .refl s
    · unfold strobesMoved
      exact calm_ite ((calm_mapPrtJob ..).trans (calm_askSteps _ _ _ (by simp [mapPrtJob, hj]))) (calm_mapPrtJob ..)

theorem calm_tempExpired (s : State) : Calm s (tempExpired s) := by
  unfold tempExpired
  split
  · exact .refl s
  · extract_lets s1
    have k : Calm s s1 := calm_mapTemp ..
    split
    · exact k
    · exact calm_ite (k.trans (calm_staleSpellBegins ..)) k

theorem romRecord_sound (k sb : Byte) (n : Nat) (p : List Byte) {s : State} (h : MotorsSound s) (hb : s.boot.state = .romload)
    (hp : s.power.pfail = .inactive) : MotorsSound (romRecord k sb n p s) := by
  have main : ∀ u : State, Calm s u → MotorsSound u ∧ u.boot.state = .romload ∧ u.power.entry = none ∧ u.power.pfail = .inactive := by
    intro u c
    have hu := calm_sound h c
    have ub := c.boot.trans hb
    refine ⟨hu, ub, ?_, c.pfail.trans hp⟩
    cases x : u.power.entry
    · rfl
    · next e => rw [(hu.entering e x).ready] at ub; cases ub
  have bad : ∀ u : State, Calm s u → MotorsSound (romBad u) := by
    intro u c
    obtain ⟨hu, ub, ue, up⟩ := main u c
    have sp := hu.spilled up ue (.inr (.inr ub))
    refine calm_sound ?_ (calm_raise ..)
    exact boot_sound hu { u.boot with state := .portload, romPos := 0, romSum := 0 } u.spill (by rw [ub]; simp) (by simp) ue
      (.inl (by rw [ub]; simp)) (fun _ => sp)
  unfold romRecord
  extract_lets pos body x
  split
  · exact bad s (.refl s)
  · split
    · unfold romEnd
      split
      · obtain ⟨hu, ub, ue, up⟩ := main _ (calm_startBuild s)
        exact reachReady_sound 0 hu (by rw [ub]; simp) ue (.inl (by rw [ub]; simp)) (hu.spilled up ue (.inr (.inr ub)))
      · exact bad s (.refl s)
    · split
      · exact bad s (.refl s)
      · have c : Calm s x.1 := by
          simp only [x, romLoad]
          split
          · exact calm_loadSegment ..
          · exact .refl s
        split
        · exact bad _ c
        · obtain ⟨hu, ub, ue, up⟩ := main _ c
          exact boot_sound hu { x.1.boot with romPos := pos, romSum := _ } x.1.spill (by rw [ub]; simp) (by
            show x.1.boot.state ≠ .reset
            rw [ub]; simp) ue (.inl (by rw [ub]; simp)) (fun _ => hu.spilled up ue (.inr (.inr ub)))

end Sys2Proof.Machine
end

