-- ==== Sys2Proof/Laws/DirectoryCommands.lean ====
section
/-! SUPPORT. PagesSound under the tables, the orders and the records. -/

-- one declaration after the other: run side by side, the proofs of the whole package hold more threads than memory has room for
set_option Elab.async false

namespace Sys2Proof.Machine

/-! ## Tables -/

theorem patchAt_head {a : Byte} {t : List Byte} {i : Nat} (h : 1 ≤ i) (d : List Byte) : ∃ u, patchAt (a :: t) i d = a :: u := by
  obtain ⟨k, rfl⟩ : ∃ k, i = k + 1 := ⟨i - 1, by omega⟩
  exact ⟨_, rfl⟩

/-- Clamping leaves the first byte of a SETTINGS image. -/
theorem clamp_settings {a : Byte} {t : List Byte} : ∃ u, (clampTable tSettings (a :: t)).image = a :: u := by
  have put : ∀ (c : Clamped) (o w x y : Nat), 1 ≤ o → (∃ u, c.image = a :: u) → ∃ u, (c.put o w x y).image = a :: u := by
    rintro c o w x y ho ⟨u, hu⟩
    unfold Clamped.put
    split
    · exact ⟨u, hu⟩
    · dsimp only
      unfold writeField
      rw [hu]
      exact patchAt_head ho _
  have fold : ∀ (fs : List NumField) (c : Clamped), (∀ f ∈ fs, 1 ≤ f.off) → (∃ u, c.image = a :: u) →
      ∃ u, (fs.foldl Clamped.field c).image = a :: u := by
    intro fs
    induction fs with
    | nil => exact fun _ _ x => x
    | cons f fs ih => exact fun c g x => ih _ (fun k hk => g k (by simp [hk])) (put _ _ _ _ _ (g f (by simp)) x)
  unfold clampTable
  rw [if_neg (by decide)]
  exact fold _ _ (by simp [tableFields, tSettings]) ⟨t, rfl⟩

theorem active_set (i : Fin 14) (img : List Byte) (s : State) : (setActive i img s).tables.active = s.tables.active.set i (some img) := by
  unfold setActive
  dsimp only
  split
  · rfl
  · split
    · rfl
    · split <;> rfl

/-- Another SETTINGS image, of the same memory size where one is in force. -/
theorem sound_settings {s t : State} (h : PagesSound s) (hb : s.boot.state ≠ .restore) (d : t.dir = s.dir) (a : t.scanCd = s.scanCd)
    (b : t.intakeCd = s.intakeCd) (p : t.pmc = s.pmc) (bt : t.boot = s.boot) (sp : t.spill = s.spill) (sj : t.scanJob = s.scanJob)
    (ij : t.intJob = s.intJob) (ac : (t.tables.active[(0 : Fin 14)]).isSome = true) (nb : s.boot.state = .ready → nBlocks t = nBlocks s) :
    PagesSound t := by
  obtain ⟨K, c, l⟩ := h.core
  have f : t.inForce → s.boot.state = .ready := by
    unfold State.inForce
    rw [bt, sp]
    rintro (x | x)
    · exact x
    · refine absurd (h.restoring ?_) hb
      revert x
      cases s.spill <;> first | exact fun x => x | exact nofun
  refine PagesSound.of (K := K) (c.same (by rw [d]) (fun c => by cases c; exacts [a, b]) (by rw [p]) (by rw [p])) ?_ ?_ ?_ ?_ ?_ ?_ ?_ ?_ ?_ ?_ ?_
  · intro x
    rw [nb (f x)]; exact l (.inl (f x))
  · rw [d]; exact h.dir.1
  · rw [sj, d]; exact h.searching
  · rw [ij, b]; exact h.intake
  · rw [b]; exact h.waiting
  · rw [bt, ij, sj, p]; exact h.booting
  · rw [bt, d]; exact h.empty
  · exact fun _ => ac
  · rw [bt, sp]; exact h.engine
  · rw [sp, d]; exact h.reading
  · rw [sp, bt]; exact h.restoring

theorem core_startBuild {K : Nat} {s : State} (c : Core none K 0 s) (es : s.dir.entries = []) (L : Nat) : Core none L 0 (startBuild s) := by
  have cd : ∀ c, coderOf c (startBuild s) = coderOf c s := by intro c; cases c <;> rfl
  constructor
  · exact c.ids
  · intro d i; rw [cd]; exact c.coder d i
  · intro d; rw [cd]; exact c.free d
  · exact nofun
  · intro _
    refine ⟨rfl, ?_⟩
    show blockSum none s.dir.entries + 0 = 0
    rw [es]; rfl

theorem nBlocks_byte {s t : State} {x y : List Byte} (h : s.tables.active[(0 : Fin 14)] = some x) (k : t.tables.active[(0 : Fin 14)] = some y)
    (e : byteAt y 0 = byteAt x 0) : nBlocks t = nBlocks s := by
  unfold nBlocks setMemSize settingsImage
  rw [h, k]
  simp only [Option.getD_some, e]

theorem sound_completeImage (i : Fin 14) (img : List Byte) {s : State} (h : PagesSound s) (hb : s.boot.state ≠ .restore) :
    PagesSound (completeImage i img s).1 := by
  unfold completeImage
  split
  · exact h
  · next hl =>
    split
    · exact h
    · split
      · exact h
      · next hr =>
        show PagesSound (installImage i (clampTable i img).image s).1
        unfold installImage
        split
        · next hi =>
          subst hi
          have len : img.length = 30 := by simpa [tableLengthOk, tSettings] using hl
          obtain ⟨a, t, rfl⟩ : ∃ a t, img = a :: t := by
            cases img with
            | nil => cases len
            | cons a t => exact ⟨a, t, rfl⟩
          obtain ⟨u, hu⟩ := clamp_settings (a := a) (t := t)
          rw [hu]
          have b0 : byteAt (a :: u) 0 = byteAt (a :: t) 0 := rfl
          unfold installSettings
          extract_lets rs s1 s2
          have act : s2.tables.active[(0 : Fin 14)] = some (a :: u) := by
            show (setActive tSettings (a :: u) s).tables.active[(0 : Fin 14)] = _
            rw [active_set]
            exact Vector.getElem_set_self ..
          have e : s2.dir = s.dir ∧ s2.scanCd = s.scanCd ∧ s2.intakeCd = s.intakeCd ∧ s2.pmc = s.pmc ∧ s2.boot = s.boot ∧
              s2.spill = s.spill ∧ s2.scanJob = s.scanJob ∧ s2.intJob = s.intJob := ⟨rfl, rfl, rfl, rfl, rfl, rfl, rfl, rfl⟩
          clear_value s2
          obtain ⟨e1, e2, e3, e4, e5, e6, e7, e8⟩ := e
          split
          · next hx =>
            have es : s.dir.entries = [] := by
              by_contra x
              unfold installRefusal at hr
              rw [if_pos rfl] at hr
              split at hr
              · cases hr
              · rw [if_pos ⟨hx.1, hx.2, x⟩] at hr; cases hr
            obtain ⟨K, c, l⟩ := h.core
            have c2 : Core none K 0 s2 := c.same (by rw [e1]) (fun c => by cases c; exacts [e2, e3]) (by rw [e4]) (by rw [e4])
            have nb := nBlocks_ge (s := startBuild s2) (by show (s2.tables.active[(0 : Fin 14)]).isSome = true; rw [act]; rfl)
            refine PagesSound.of (core_startBuild c2 (by rw [e1]; exact es) (nBlocks (startBuild s2) - Config.reserveBlocks)) (fun _ => by show _ + _ = nBlocks (startBuild s2); omega) ?_ ?_ ?_ ?_ ?_ ?_ ?_ ?_ ?_ ?_
            · show s2.dir.entries.length + s2.dir.places ≤ _
              rw [e1]; exact h.dir.1
            · show ∀ j, s2.scanJob = some j → j.phase = .search → 1 ≤ s2.dir.places
              rw [e7, e1]; exact h.searching
            · show s2.intJob = none → s2.intakeCd.page = none ∧ s2.intakeCd.dirWait = none
              rw [e8, e3]; exact h.intake
            · show s2.intakeCd.dirWait ≠ none → s2.intakeCd.page = none
              rw [e3]; exact h.waiting
            · show s2.boot.state ≠ .ready → _
              rw [e5]; exact fun x => absurd hx.1 x
            · show s2.boot.state ≠ .ready → _
              rw [e5]; exact fun x => absurd hx.1 x
            · intro _
              show (s2.tables.active[(0 : Fin 14)]).isSome = true
              rw [act]; rfl
            · show s2.boot.state = .ready → s2.spill.ofEntry = true
              rw [e5, e6]; exact h.engine
            · show s2.spill.ofEntry = false → s2.spill.restored = false → s2.dir.entries = []
              rw [e6, e1]; exact h.reading
            · show s2.spill.restoring = true → s2.boot.state = .restore
              rw [e6, e5]; exact h.restoring
          · next hx =>
            refine sound_settings h hb e1 e2 e3 e4 e5 e6 e7 e8 (by rw [act]; rfl) fun rd => ?_
            have is := h.settings (.inl rd)
            obtain ⟨x, hx2⟩ := Option.isSome_iff_exists.mp is
            refine nBlocks_byte hx2 act ?_
            by_contra ne
            refine hx ⟨rd, ?_⟩
            unfold settingsImage
            rw [show s.tables.active[(0 : Fin 14)] = some x from hx2]; exact ne
        · next hi =>
          have hi0 : i ≠ 0 := hi
          split
          · exact sound_keep h (keep_setPending ..)
          · exact sound_keep h ((keep_setActive _ _ _ hi0).trans (keep_setPending ..))

theorem keep_setAssembly (a : Option Assembly) (s : State) : Keep s (setAssembly a s) := keep_plain

theorem boot_loadSegment (i : Fin 14) (g f : Nat) (b : List Byte) (s : State) :
    (loadSegment i g f b s).1.boot.state = s.boot.state := (calm_loadSegment i g f b s).boot

theorem sound_loadSegment (i : Fin 14) (g f : Nat) (b : List Byte) {s : State} (h : PagesSound s) (hb : s.boot.state ≠ .restore) :
    PagesSound (loadSegment i g f b s).1 := by
  have k : ∀ a, PagesSound (setAssembly a s) := fun a => sound_keep h (keep_setAssembly ..)
  have gath : ∀ (n : Nat) (fin : Bool) (x : List Byte), PagesSound (gather i n fin x s).1 := by
    intro n fin x
    unfold gather
    split
    · exact k _
    · split
      · exact sound_completeImage i x (k none) hb
      · exact k _
  unfold loadSegment
  split
  · exact h
  · split
    · exact gath ..
    · split
      · exact h
      · split
        · exact gath ..
        · exact h

/-! ## Orders -/

theorem sound_orderIntake (p : List Byte) {s : State} (h : PagesSound s) (hb : s.boot.state = .ready) : PagesSound (orderIntake p s).1 := by
  unfold orderIntake
  split
  · next res pol _ _ =>
    split
    · exact h
    · next hj =>
      split
      · exact h
      · next hr =>
        have hj : s.intJob = none := by simpa using hj
        have rm := room_of (s := s) (by simpa using hr)
        have n : s.dir.entries.length ≤ 32 := by have := rm; simp only [Config.directoryRoom] at this; omega
        have pg := h.intake hj
        refine sound_of h (fun K c => (core_newIntake c res n pg.1).same rfl (fun c => by cases c <;> rfl) rfl rfl) rfl ?_ rfl rfl (.inl rfl)
          (fun x _ => absurd hb x) h.searching nofun (fun x => absurd pg.2 x) (fun x => absurd hb x)
        show (s.dir.entries ++ [_]).length + s.dir.places ≤ _
        simp only [List.length_append, List.length_cons, List.length_nil]
        omega
  · exact h

theorem keep_orderIntakeEnd (s : State) : Keep s (orderIntakeEnd s).1 := by
  unfold orderIntakeEnd
  split
  · exact keep_mapIntJob ..
  · exact .refl s

theorem keep_admitReader (c : DecoderCtx) (e : Entry) (b : Bool) (s : State) : Keep s (admitReader c e b s) := by
  cases c <;> exact (keep_mapEntry ..).trans (keep_setPass ..)

theorem keep_orderOutput (p : List Byte) (s : State) : Keep s (orderOutput p s).1 := by
  unfold orderOutput
  split
  · exact .refl s
  · split
    · exact .refl s
    · split
      · exact .refl s
      · split
        · exact .refl s
        · dsimp only; exact (keep_outJob ..).trans (keep_admitReader ..)

theorem sound_orderErase (p : List Byte) {s : State} (h : PagesSound s) : PagesSound (orderErase p s).1 := by
  unfold orderErase
  split
  · exact h
  · next e he =>
    have m := entryOf_mem he
    split
    · exact h
    · exact h
    · next hs =>
      have sh : ∀ K, Core none K 0 s → Shun e.id s := fun K c => shun_of_state c m.1 (by rw [hs]; simp)
      split
      · refine sound_keep h ?_
        exact keep_of (shell_mapEntry ..) (beside_mapEntry _ _ s fun _ => rfl) fun K c => core_mapShun c e.id _ (sh K c)
      · refine sound_keep h ?_
        exact keep_of (shell_dropEntry ..) (beside_dropEntry ..) fun K c => core_dropEntry c ⟨e, m.1, rfl, rfl⟩ (sh K c) none

theorem keep_orderStop (p : List Byte) (s : State) : Keep s (orderStop p s).1 := by
  unfold orderStop
  split
  · exact .refl s
  · split
    · unfold orderStopScan
      split
      · split
        · exact .refl s
        · exact keep_scanDecision ..
      · exact .refl s
    · unfold orderStopIntake
      split
      · exact .refl s
      · exact ((keep_endDirwait ..).trans (keep_ite (keep_completePage ..) (keep_discardWritten ..))).trans (keep_endIntake ..)
    · unfold orderStopPrint
      split
      · exact .refl s
      · split
        · exact .refl s
        · exact (((keep_prtJob ..).trans (keep_idleDecoder ..)).trans (keep_emptyPrintRing _)).trans (keep_removeReader ..)
    · unfold orderStopOutput
      split
      · exact .refl s
      · split
        · exact .refl s
        · exact ((keep_outJob ..).trans (keep_idleDecoder ..)).trans (keep_emptyOutputRing _)
    · exact .refl s

theorem keep_orderTemp (c : Byte) (s : State) : Keep s (orderTemp c s).1 := (keep_mapTemp ..).trans (keep_mapPrtJob ..)

theorem keep_orderResume (p : List Byte) (s : State) : Keep s (orderResume p s).1 := by
  unfold orderResume
  split
  · exact .refl s
  · split
    · split
      · exact keep_mapMotor ..
      · exact .refl s
    · split
      · exact .refl s
      · unfold printResume
        split
        · exact .refl s
        · split
          · exact .refl s
          · unfold resumePrint
            extract_lets s1
            have k : Keep s s1 := keep_prtJob ..
            exact keep_ite (keep_ite (k.trans (keep_askSteps ..)) (k.trans (keep_afterExit _)))
              (keep_ite (k.trans (keep_askSteps ..)) (k.trans (keep_mapPrtJob ..)))

theorem sound_orderScan (p : List Byte) {s : State} (h : PagesSound s) (hb : s.boot.state = .ready) : PagesSound (orderScan p s).1 := by
  unfold orderScan
  split
  · split
    · exact h
    · next hr =>
      dsimp only
      split
      · exact h
      · dsimp only
        have rm : s.dir.entries.length + s.dir.places + 1 ≤ Config.directoryRoom := by
          refine room_of ?_
          by_contra x
          unfold scanRefusal at hr
          split at hr
          · cases hr
          · split at hr
            · cases hr
            · split at hr
              · cases hr
              · rw [if_pos (by simpa using x)] at hr; cases hr
        unfold beginScan
        refine sound_startScanRun false ?_
        refine sound_of h (fun K c => c.same rfl (fun c => by cases c <;> rfl) rfl rfl) rfl ?_ rfl rfl (.inl rfl) (fun _ x => x)
          (fun _ _ _ => by show 1 ≤ s.dir.places + 1; omega) h.intake h.waiting (fun x => absurd hb x)
        show s.dir.entries.length + (s.dir.places + 1) ≤ _
        omega
  · exact h

theorem keep_orderPrint (p : List Byte) (s : State) : Keep s (orderPrint p s).1 := by
  unfold orderPrint
  split
  · split
    · exact .refl s
    · split
      · exact .refl s
      · split
        · exact .refl s
        · split
          · exact .refl s
          · split
            · exact .refl s
            · exact ((keep_prtJob ..).trans (keep_admitReader ..)).trans (keep_copyItems _)
  · exact .refl s

theorem keep_orderMove (p : List Byte) (s : State) : Keep s (orderMove p s).1 := by
  unfold orderMove
  split
  · split
    · exact .refl s
    · split
      · exact .refl s
      · exact (keep_mapMotor ..).trans (keep_issueStep ..)
  · exact .refl s

theorem keep_orderPower (p : List Byte) (s : State) : Keep s (orderPower p s).1 := by
  unfold orderPower
  dsimp only
  split
  · split
    · exact .refl s
    · dsimp only
      unfold takeDoze
      exact keep_ite (keep_mapPower ..) (keep_enterDoze ..)
  · split
    · exact .refl s
    · dsimp only; exact keep_mapPower ..
  · split
    · exact .refl s
    · dsimp only; exact keep_mapPower ..
  · exact .refl s

/-- READY reached from PORTLOAD or ROMLOAD: the list is built afresh. -/
theorem sound_buildReady (r : Nat) {s : State} (h : PagesSound s) (hb : s.boot.state ≠ .ready) (hr : s.boot.state ≠ .restore)
    (ac : (s.tables.active[(0 : Fin 14)]).isSome = true) (sp : s.spill = .idle) : PagesSound (reachReady r (startBuild s)) := by
  obtain ⟨ij, sj, _⟩ := h.booting hb
  obtain ⟨K, c, _⟩ := h.core
  have nb := nBlocks_ge (s := startBuild s) ac
  exact sound_reachReady r (core_startBuild c (h.empty hb hr) (nBlocks (startBuild s) - Config.reserveBlocks)) (by omega) h.dir.1 sj (h.intake ij) ac sp

theorem sound_orderReady {s : State} (h : PagesSound s) (sp : s.boot.state = .portload → s.spill = .idle) : PagesSound (orderReady s).1 := by
  unfold orderReady
  split
  · next hb =>
    split
    · exact h
    · next ac =>
      refine sound_buildReady 1 h (by rw [hb]; simp) (by rw [hb]; simp) ?_ (sp hb)
      cases x : s.tables.active[(0 : Fin 14)]
      · exact absurd (show (activeOf tSettings s).isNone = true by show (s.tables.active[(0 : Fin 14)]).isNone = true; rw [x]; rfl) ac
      · rfl
  · exact h

theorem sound_actOrder (code : Nat) (p : List Byte) {s : State} (h : PagesSound s) (hb : s.boot.state = .ready) :
    PagesSound (actOrder code p s).1 := by
  have k : ∀ {t}, Keep s t → PagesSound t := sound_keep h
  unfold actOrder
  split
  · unfold orderCalibrate
    split
    · exact h
    · dsimp only; exact k (keep_mapFront ..)
  · exact sound_orderScan p h hb
  · exact sound_orderIntake p h hb
  · exact k (keep_orderIntakeEnd s)
  · exact k (keep_orderOutput p s)
  · exact k (keep_orderPrint p s)
  · exact sound_orderErase p h
  · exact k (keep_orderStop p s)
  · exact k (keep_orderResume p s)
  · exact k (keep_orderMove p s)
  · exact k (keep_orderTemp _ s)
  · exact k (keep_orderPower p s)
  · exact sound_orderReady h (fun x => by rw [hb] at x; cases x)
  · exact sound_orderRestart h
  · exact h

theorem tableItem_settings {m : Nat} {t : Bool × Fin 14} (h : tableItem? m = some t) (k : t.2 = 0) : m % 256 = 0 := by
  unfold tableItem? at h
  split at h
  · split at h
    · injection h with h
      subst h
      exact congrArg Fin.val k
    · split at h
      · injection h with h
        subst h
        exact congrArg Fin.val k
      · cases h
  · cases h

theorem keep_writeItem (m i : Nat) (img : List Byte) (s : State) (h : m = 6 → i % 256 ≠ 0) : Keep s (writeItem m i img s).1 := by
  unfold writeItem
  split
  · dsimp only; exact keep_mapFront ..
  · split
    · exact .refl s
    · next t ht =>
      have ne : t.2 ≠ 0 := fun x => h rfl (tableItem_settings ht x)
      unfold writeCopy
      split
      · exact .refl s
      · split
        · exact .refl s
        · show Keep s (putCopy t.1 t.2 _ s)
          unfold putCopy
          split
          · exact keep_setPending ..
          · have a : ∀ x, (s.tables.active.set t.2 x)[(0 : Fin 14)] = s.tables.active[(0 : Fin 14)] := by
              intro x
              have : t.2.val ≠ 0 := fun z => ne (Fin.ext z)
              simp [Fin.getElem_fin, Vector.getElem_set_ne _ _ this]
            dsimp only
            split
            · exact keep_plain (ac := a _)
            · exact keep_plain (ac := a _)
  · dsimp only; exact keep_mapRings ..

theorem keep_actDiag (sub : Byte) (p : List Byte) (s : State) : Keep s (actDiag sub p s).1 := by
  unfold actDiag orderDiag
  split
  · exact .refl s
  · next hr =>
    unfold takeDiag
    split
    · exact keep_plain
    · exact keep_plain
    · exact .refl s
    · next m a sd d hm _ =>
      have k : Keep s (writeItem (byteAt p 0) (wordAt p 1) (patchAt (itemBytes (byteAt p 0) (wordAt p 1) s) (wordAt p 3) d) s).1 := by
        refine keep_writeItem _ _ _ _ fun m6 z => ?_
        unfold diagRefusal at hr
        split at hr
        · cases hr
        · split at hr
          · cases hr
          · split at hr
            · cases hr
            · next ob =>
              rw [hm] at ob
              simp [diagOutOfBounds, m6, z] at ob
      dsimp only
      split
      · exact k
      · exact k

theorem keep_orderEvack (p : List Byte) (s : State) : Keep s (orderEvack p s).1 := by
  unfold orderEvack
  split
  · exact .refl s
  · dsimp only; exact keep_plain

theorem sound_actLoad (sub : Byte) (p : List Byte) {s : State} (h : PagesSound s) (hb : s.boot.state ≠ .restore) :
    PagesSound (actLoad sub p s).1 := by
  unfold actLoad
  split
  · exact sound_loadSegment _ _ _ _ h hb
  · exact h

theorem sound_dispatch (r : Record) {s : State} (h : PagesSound s) (hb : s.boot.state = .portload ∨ s.boot.state = .ready)
    (sp : s.boot.state = .portload → s.spill = .idle) : PagesSound (dispatch r s) := by
  unfold dispatch
  refine sound_keep ?_ (keep_restartIdle _)
  have hu := sound_keep h (keep_mapPort (fun p => { p with inbound := .receiving [] }) s)
  have ub : (mapPort (fun p => { p with inbound := .receiving [] }) s).boot = s.boot := rfl
  have us : (mapPort (fun p => { p with inbound := .receiving [] }) s).spill = s.spill := rfl
  generalize mapPort (fun p => { p with inbound := .receiving [] }) s = u at *
  rw [← ub, ← us] at sp
  rw [← ub] at hb
  have nr : u.boot.state ≠ .restore := by rcases hb with x | x <;> rw [x] <;> simp
  have ans : ∀ {v : State} (b : ReplyBody), PagesSound v → PagesSound (answer r (v, b)) := fun _ x => sound_keep x (keep_pushReply ..)
  unfold act
  split
  · exact ans _ hu
  · next hpl =>
    split
    · unfold actLine
      split
      · exact ans _ hu
      · exact sound_keep hu keep_plain
    · split
      · refine sound_keep ?_ (keep_arbitrate _)
        exact ans _ (sound_actLoad _ _ hu nr)
      · split
        · exact ans _ hu
        · split
          · exact ans _ (sound_keep hu (keep_orderEvack ..))
          · split
            · exact sound_keep (ans _ (sound_keep hu (keep_actDiag ..))) (keep_arbitrate _)
            · split
              · next hk =>
                refine sound_settle (ans _ ?_)
                rcases hb with hb | hb
                · have pt : portloadTakes r = true := by
                    by_contra x
                    exact hpl ⟨hb, by simpa using x⟩
                  have hs : r.sub = 0x0D := by
                    simp only [portloadTakes, Bool.or_eq_true, decide_eq_true_eq, Bool.and_eq_true] at pt
                    rcases pt with (x | x) | x
                    · contradiction
                    · contradiction
                    · exact x.2
                  rw [hs]
                  exact sound_orderReady hu sp
                · exact sound_actOrder _ _ hu hb
              · exact ans _ hu

/-- The conditions a record is dispatched under, as RDY high and sound channels give them. -/
def spillAtRest (s : State) : Prop := s.boot.state = .portload → s.spill = .idle

theorem spillAtRest_of {s : State} (m : MotorsSound s) (p : s.power.pfail = .inactive) (e : s.power.entry = none) : spillAtRest s :=
  fun x => m.spilled p e (.inr (.inl x))

theorem sound_completeRecord (r : Record) {s : State} (m : MotorsSound s) (h : PagesSound s) (k : rdy s = true) :
    PagesSound (completeRecord r s) := by
  obtain ⟨h1, h2, h3, h4, h5⟩ := rdy_open k
  unfold completeRecord
  split
  · exact sound_keep h ((keep_mapPort ..).trans (keep_beginReturn ..))
  · exact sound_dispatch r h h5 (spillAtRest_of m h4 h2)

theorem sound_takeByte (d : Byte) {s : State} (m : MotorsSound s) (h : PagesSound s) (k : rdy s = true) : PagesSound (takeByte d s) := by
  have si : ∀ i, PagesSound (setInbound i s) := fun i => sound_keep h (keep_mapPort ..)
  have dr : ∀ k sb st, PagesSound (drained k sb st s) := fun _ _ _ => sound_keep (si _) (keep_pushReply ..)
  unfold takeByte
  split
  · unfold appendByte
    split
    · exact si _
    · split
      · unfold headerTaken
        split
        · split
          · exact dr ..
          · exact si _
        · split
          · exact sound_completeRecord _ m h k
          · exact si _
      · split
        · exact si _
        · exact sound_completeRecord _ m h k
  · split
    · exact dr ..
    · exact si _
  · exact h

theorem sound_strobe (b : Bool) (d : Byte) {s : State} (m : MotorsSound s) (h : PagesSound s) : PagesSound (strobe b d s) := by
  unfold strobe
  split
  · exact sound_keep h ((keep_sleepWake ..).trans (keep_arbitrate _))
  · split
    · next k => exact sound_takeByte d m h k
    · split
      · unfold holdTogether
        split
        · split
          · split
            · exact sound_keep h (keep_mapPort ..)
            · exact h
          · exact h
        · exact h
        · exact h
      · exact h

theorem sound_writeRecord (r : Record) {s : State} (m : MotorsSound s) (h : PagesSound s) : PagesSound (writeRecord r s) := by
  unfold writeRecord
  split
  · next hx =>
    split
    · exact sound_keep h ((keep_mapPort ..).trans (keep_pushReply ..))
    · exact sound_completeRecord r m h hx.1
  · have f : ∀ (ds : List Byte) (u : State), MotorsSound u → PagesSound u → PagesSound (ds.foldl (fun s d => strobe false d s) u) := by
      intro ds
      induction ds with
      | nil => exact fun _ _ x => x
      | cons d ds ih => exact fun u a x => ih _ (strobe_sound false d a) (sound_strobe false d a x)
    exact f _ s m h

theorem sound_readStrobe {s : State} (h : PagesSound s) : PagesSound (readStrobe s) := by
  have dr : ∀ c : OutCourse, PagesSound (driveByte c s) := by
    intro c
    unfold driveByte
    split
    · exact h
    · unfold outboundEnd
      split
      · exact sound_keep h ((keep_mapPort ..).trans (keep_mapPort ..))
      · exact sound_keep h keep_plain
      · exact sound_settle (sound_keep h ((keep_mapPort ..).trans (keep_mapRings ..)))
    · exact sound_keep h (keep_mapPort ..)
  unfold readStrobe
  split
  · split
    · exact dr _
    · split
      · exact dr _
      · exact h
  · exact sound_keep h (keep_mapPort ..)

/-! ## Events -/

theorem sound_dispatchHeld {s : State} (h : PagesSound s) (hb : s.boot.state = .ready) : PagesSound (dispatchHeld s) := by
  unfold dispatchHeld
  split
  · exact sound_dispatch _ h (.inr hb) (fun x => by rw [hb] at x; cases x)
  · exact h
  · exact h

theorem keep_replaceActive (i : Fin 14) (img : List Byte) (s : State) (h : i ≠ 0) : Keep s (replaceActive i img s) :=
  (keep_setActive _ _ _ h).trans (keep_setPending ..)

theorem keep_readoutEnds (v : Vector Byte 1760) (s : State) : Keep s (readoutEnds v s) := by
  unfold readoutEnds
  split
  · unfold calibrationLine
    dsimp only
    split
    · exact keep_ite (keep_mapFront ..) (keep_mapFront ..)
    · exact .refl s
    · refine keep_ite (keep_mapFront ..) ?_
      unfold endCalibration
      exact (((keep_mapFront ..).trans (keep_replaceActive _ _ _ (by decide))).trans (keep_fillReply ..)).trans (keep_raise ..)
  · unfold lineRead
    split
    · exact keep_plain
    · exact .refl s

theorem keep_lampWarm (s : State) : Keep s (lampWarm s) := by
  unfold lampWarm
  split
  · exact .refl s
  · exact keep_ite (keep_mapFront ..) (.refl s)

theorem sound_stepFalls (ch : Channel) {s : State} (h : PagesSound s) : PagesSound (stepFalls ch s) := by
  unfold stepFalls
  split
  · split
    · split
      · exact h
      · exact sound_scanStep false h
    · exact sound_keep h (keep_issueStep ..)
  · exact h

theorem keep_printRest (s : State) : Keep s (printRest s) := by
  unfold printRest
  split
  · exact .refl s
  · next j hj =>
    split
    · exact .refl s
    · unfold lineDone
      dsimp only
      exact keep_ite (keep_prtJob ..) (keep_ite ((keep_prtJob ..).trans (keep_pageEnd _)) (keep_prtJob ..))
    · exact keep_prtJob ..
    · extract_lets s1
      have k : Keep s s1 := keep_prtJob ..
      exact keep_ite k (k.trans (keep_afterExit _))

theorem keep_motionEnds (ch : Channel) (s : State) : Keep s (motionEnds ch s) := by
  unfold motionEnds
  split
  · split
    · exact keep_mapMotor ..
    · exact (keep_mapMotor ..).trans (keep_printRest _)
    · refine Keep.trans (t := restChannel .P s) (keep_mapMotor ..) ?_
      unfold takeWaiting
      split
      · exact .refl _
      · exact (keep_motP ..).trans (keep_requestP ..)
  · exact .refl s

theorem keep_headEvent (f : Strobe → Strobe) (s : State) : Keep s (headEvent f s) := by
  unfold headEvent
  split
  · exact .refl s
  · split
    · exact .refl s
    · unfold strobesMoved
      exact keep_ite ((keep_mapPrtJob ..).trans (keep_askSteps ..)) (keep_mapPrtJob ..)

theorem keep_tempExpired (s : State) : Keep s (tempExpired s) := by
  unfold tempExpired
  split
  · exact .refl s
  · extract_lets s1
    have k : Keep s s1 := keep_mapTemp ..
    split
    · exact k
    · exact keep_ite (k.trans (keep_staleSpellBegins ..)) k

theorem sound_romBad {s : State} (h : PagesSound s) (hb : s.boot.state = .romload) : PagesSound (romBad s) := by
  have nr : s.boot.state ≠ .ready := by rw [hb]; simp
  have ns : ¬ s.spill.restoring = true := fun x => by
    have := h.restoring x
    rw [hb] at this; cases this
  refine sound_keep (sound_before h nr (h.empty nr (by rw [hb]; simp)) { s.boot with state := .portload, romPos := 0, romSum := 0 } s.spill (by simp) ?_
    (fun x => absurd x ns)) (keep_raise ..)
  revert ns
  cases s.spill <;> first | exact fun _ => rfl | (intro x; exact Bool.eq_false_iff.mpr x)

theorem sound_romRecord (k sb : Byte) (n : Nat) (p : List Byte) {s : State} (h : PagesSound s) (hb : s.boot.state = .romload)
    (sp : s.spill = .idle) : PagesSound (romRecord k sb n p s) := by
  unfold romRecord
  extract_lets pos body x
  split
  · exact sound_romBad h hb
  · split
    · unfold romEnd
      split
      · next hx => exact sound_buildReady 0 h (by rw [hb]; simp) (by rw [hb]; simp) hx.2.2.2 sp
      · exact sound_romBad h hb
    · split
      · exact sound_romBad h hb
      · have c : PagesSound x.1 ∧ x.1.boot.state = s.boot.state := by
          simp only [x, romLoad]
          split
          · exact ⟨sound_loadSegment _ _ _ _ h (by rw [hb]; simp), boot_loadSegment ..⟩
          · exact ⟨h, rfl⟩
        split
        · exact sound_romBad c.1 (by rw [c.2]; exact hb)
        · exact sound_keep c.1 keep_plain

end Sys2Proof.Machine
end

