-- ==== Sys2Proof/Laws/Heat.lean ====
section
/-! SUPPORT. The head's phases (R147, R148): which dots a phase drives, and the pulse of each of its groups. -/

-- one declaration after the other: run side by side, the proofs of the whole package hold more threads than memory has room for
set_option Elab.async false

namespace Sys2Proof.Machine

/-! ## A line from its positions -/

/-- Adding a power of two whose bit is clear sets that bit and no other. -/
theorem testBit_add_clear {n k : Nat} (h : n.testBit k = false) (i : Nat) :
    (n + 2 ^ k).testBit i = (n.testBit i || decide (i = k)) := by
  have hr : n % 2 ^ k < 2 ^ k := Nat.mod_lt _ (by positivity)
  have hq : n = 2 ^ k * (n / 2 ^ k) + n % 2 ^ k := (Nat.div_add_mod ..).symm
  have he : n / 2 ^ k % 2 = 0 := by
    have := h
    rw [Nat.testBit_eq_decide_div_mod_eq] at this
    simp at this; omega
  have hs : n + 2 ^ k = 2 ^ k * (n / 2 ^ k + 1) + n % 2 ^ k := by rw [Nat.mul_add, Nat.mul_one]; omega
  rw [hs]
  conv_rhs => rw [hq]
  rw [Nat.testBit_two_pow_mul_add _ hr, Nat.testBit_two_pow_mul_add _ hr]
  split
  · next hi => simp [show i ≠ k by omega]
  · next hi =>
    obtain ⟨q, hq2⟩ : ∃ q, n / 2 ^ k = 2 * q := ⟨n / 2 ^ k / 2, by omega⟩
    rw [hq2]
    rcases Nat.eq_zero_or_pos (i - k) with h0 | h0
    · simp [show i = k by omega]
    · obtain ⟨j, hj⟩ : ∃ j, i - k = j + 1 := ⟨i - k - 1, by omega⟩
      rw [hj, Nat.testBit_succ, Nat.testBit_succ, show (2 * q + 1) / 2 = 2 * q / 2 by omega]
      simp [show i ≠ k by omega]

/-- The number of a line with the listed dots black, bit by bit. -/
theorem testBit_positions (ps : List Nat) (h : ps.Nodup) (b : ∀ j ∈ ps, j < 1728) (n i : Nat)
    (hn : ∀ j ∈ ps, n.testBit (1727 - j) = false) :
    (ps.foldl (fun n j => n + 2 ^ (1727 - j)) n).testBit i = (n.testBit i || decide (∃ j ∈ ps, i = 1727 - j)) := by
  induction ps generalizing n with
  | nil => simp
  | cons p ps ih =>
    obtain ⟨hp, hs⟩ := List.nodup_cons.1 h
    have hb : p < 1728 := b p (by simp)
    have h0 : n.testBit (1727 - p) = false := hn p (by simp)
    have add : ∀ i, (n + 2 ^ (1727 - p)).testBit i = (n.testBit i || decide (i = 1727 - p)) :=
      testBit_add_clear h0
    rw [List.foldl_cons, ih hs (fun j hj => b j (by simp [hj]))]
    · rw [add]
      by_cases hk : i = 1727 - p <;> simp [hk]
    · intro j hj
      rw [add, hn j (by simp [hj])]
      have : j < 1728 := b j (by simp [hj])
      simp only [Bool.false_or, decide_eq_false_iff_not]
      intro e
      exact hp (by rwa [show p = j by omega])

/-- The line of listed dots is black at exactly those. -/
theorem dotOf_lineOfPositions (ps : List Nat) (h : ps.Nodup) (b : ∀ j ∈ ps, j < 1728) (j : Nat) :
    dotOf (lineOfPositions ps) j = decide (j ∈ ps) := by
  unfold dotOf lineOfPositions BitVec.getMsbD
  by_cases hj : j < 1728
  · have hz : (1728 - 1 - j) < 1728 := by omega
    simp only [hj, decide_true, Bool.true_and, BitVec.getLsbD_ofNat, hz]
    rw [testBit_positions ps h b 0 _ (by simp)]
    simp only [Nat.zero_testBit, Bool.false_or, decide_eq_decide]
    constructor
    · rintro ⟨k, hk, e⟩
      have := b k hk
      rwa [show j = k by omega]
    · intro hk; exact ⟨j, hk, by omega⟩
  · simp only [hj, decide_false, Bool.false_and]
    exact (decide_eq_false (fun k => hj (b j k))).symm

/-! ## Groups and batches -/

theorem mem_groupDots (l : Line) (g j : Nat) : j ∈ groupDots l g ↔ j / 432 = g ∧ dotOf l j = true := by
  simp only [groupDots, List.mem_filter, List.mem_map, List.mem_range]
  constructor
  · rintro ⟨⟨k, hk, rfl⟩, hd⟩; exact ⟨by omega, hd⟩
  · rintro ⟨rfl, hd⟩; exact ⟨⟨j % 432, by omega, by omega⟩, hd⟩

theorem groupDots_nodup (l : Line) (g : Nat) : (groupDots l g).Nodup :=
  (List.Nodup.map (fun a b h => by simpa using h) List.nodup_range).filter _

theorem batch_sublist (l : Line) (lim g p : Nat) : (batch l lim g p).Sublist (groupDots l g) :=
  (List.take_sublist ..).trans (List.drop_sublist ..)

/-- A batch holds DOTLIM dots at most. -/
theorem batch_length (l : Line) (lim g p : Nat) : (batch l lim g p).length ≤ lim := by
  simp [batch]

/-- A dot of the part lies in no group but one of the four. -/
theorem group_of_dot {l : Line} {d : Nat} (h : dotOf l d = true) : d / 432 < 4 := by
  by_cases hd : d < 1728
  · omega
  · unfold dotOf BitVec.getMsbD at h
    simp [hd] at h

/-- Every dot of a list without repeats lies in exactly one of its stretches of `lim`. -/
theorem mem_stretch {a : List Nat} (hn : a.Nodup) {lim : Nat} (hl : 0 < lim) {d : Nat} (p : Nat) :
    d ∈ (a.drop (p * lim)).take lim ↔ d ∈ a ∧ a.idxOf d / lim = p := by
  constructor
  · intro h
    obtain ⟨i, hi, e⟩ := List.mem_iff_getElem.1 h
    simp only [List.length_take, List.length_drop] at hi
    rw [List.getElem_take, List.getElem_drop] at e
    have hlt : p * lim + i < a.length := by omega
    refine ⟨e ▸ List.getElem_mem _, ?_⟩
    rw [← e, hn.idxOf_getElem _ hlt, Nat.div_eq_iff hl]
    constructor <;> omega
  · rintro ⟨h, e⟩
    have hlt := List.idxOf_lt_length_iff.2 h
    rw [Nat.div_eq_iff hl] at e
    refine List.mem_iff_getElem.2 ⟨a.idxOf d - p * lim, ?_, ?_⟩
    · simp only [List.length_take, List.length_drop]; omega
    · rw [List.getElem_take, List.getElem_drop]
      rw [show a[p * lim + (a.idxOf d - p * lim)] = a[a.idxOf d] by congr 1; omega]
      exact List.getElem_idxOf hlt

/-- A black dot's place in its group's list is the number of black dots of the group to its left. -/
theorem idxOf_groupDots {l : Line} {d : Nat} (h : dotOf l d = true) :
    (groupDots l (d / 432)).idxOf d = ((List.range d).filter fun k => decide (k / 432 = d / 432) && dotOf l k).length := by
  obtain ⟨a, i, hi, hd, ha⟩ : ∃ a i, i < 432 ∧ d = a + i ∧ a = 432 * (d / 432) := ⟨432 * (d / 432), d % 432, by omega, by omega, rfl⟩
  have hg : d / 432 = a / 432 := by omega
  have front : ((List.range d).filter fun k => decide (k / 432 = d / 432) && dotOf l k)
      = ((List.range i).map (a + ·)).filter (dotOf l) := by
    have h1 : (List.range a).filter (fun k => decide (k / 432 = d / 432) && dotOf l k) = [] := by
      rw [List.filter_eq_nil_iff]
      intro k hk
      have : k < a := List.mem_range.1 hk
      have : k / 432 ≠ d / 432 := by omega
      simp [this]
    have h2 : ((List.range i).map (a + ·)).filter (fun k => decide (k / 432 = d / 432) && dotOf l k)
        = ((List.range i).map (a + ·)).filter (dotOf l) := by
      apply List.filter_congr
      intro k hk
      obtain ⟨m, hm, rfl⟩ := List.mem_map.1 hk
      have : m < i := List.mem_range.1 hm
      have : (a + m) / 432 = d / 432 := by omega
      simp [this]
    rw [show List.range d = List.range a ++ (List.range i).map (a + ·) by rw [hd]; exact List.range_add]
    rw [List.filter_append, h1, h2, List.nil_append]
  have whole : groupDots l (d / 432) = ((List.range i).map (a + ·)).filter (dotOf l)
      ++ d :: (((List.range (432 - i - 1)).map fun k => a + i + 1 + k).filter (dotOf l)) := by
    have : List.range 432 = List.range i ++ i :: (List.range (432 - i - 1)).map fun k => i + 1 + k := by
      conv_lhs => rw [show 432 = i + 1 + (432 - i - 1) by omega, List.range_add, List.range_succ]
      simp
    unfold groupDots
    rw [← ha, this, List.map_append, List.map_cons, ← hd, List.filter_append, List.filter_cons, if_pos h, List.map_map]
    congr 4
    funext k; simp only [Function.comp]; omega
  have hn := groupDots_nodup l (d / 432)
  rw [whole] at hn ⊢
  rw [front, List.idxOf_append_of_notMem]
  · simp
  · intro hk
    exact (List.disjoint_of_nodup_append hn hk (by simp)).elim

/-! ## Phases -/

theorem phase_positions_nodup (l : Line) (lim p : Nat) : ((List.range 4).flatMap fun g => batch l lim g p).Nodup := by
  rw [List.nodup_flatMap]
  refine ⟨fun g _ => (batch_sublist ..).nodup (groupDots_nodup l g), ?_⟩
  refine List.nodup_range.imp ?_
  intro a b hab x hx hy
  have h1 := (mem_groupDots l a x).1 ((batch_sublist ..).subset hx)
  have h2 := (mem_groupDots l b x).1 ((batch_sublist ..).subset hy)
  exact hab (h1.1.symm.trans h2.1)

/-- A phase drives a dot that is in its batch of the dot's group, and no other (R147). -/
theorem dotOf_headPhase (l : Line) {lim : Nat} (hl : 0 < lim) (pulse : Nat → Nat) (p d : Nat) :
    dotOf (headPhase l lim pulse p).dots d = (dotOf l d && decide ((groupDots l (d / 432)).idxOf d / lim = p)) := by
  have hb : ∀ j ∈ (List.range 4).flatMap fun g => batch l lim g p, j < 1728 := by
    intro j hj
    obtain ⟨g, hg, hj⟩ := List.mem_flatMap.1 hj
    have := (mem_groupDots l g j).1 ((batch_sublist ..).subset hj)
    have := group_of_dot this.2
    omega
  rw [headPhase, dotOf_lineOfPositions _ (phase_positions_nodup l lim p) hb]
  have key : d ∈ ((List.range 4).flatMap fun g => batch l lim g p) ↔
      dotOf l d = true ∧ (groupDots l (d / 432)).idxOf d / lim = p := by
    rw [List.mem_flatMap]
    constructor
    · rintro ⟨g, -, h⟩
      obtain ⟨h1, h2⟩ := (mem_stretch (groupDots_nodup l g) hl p).1 h
      obtain ⟨rfl, h3⟩ := (mem_groupDots l g d).1 h1
      exact ⟨h3, h2⟩
    · rintro ⟨h1, h2⟩
      refine ⟨d / 432, List.mem_range.2 (group_of_dot h1), ?_⟩
      exact (mem_stretch (groupDots_nodup l _) hl p).2 ⟨(mem_groupDots l _ d).2 ⟨rfl, h1⟩, h2⟩
  simp only [key, Bool.decide_and, Bool.decide_eq_true]

/-- The longest of some pulses: none for no dot, else one of them that none exceeds. -/
theorem longestPulse_cases (pulse : Nat → Nat) (ds : List Nat) :
    (ds = [] → longestPulse pulse ds = none)
      ∧ (ds ≠ [] → ∃ n, longestPulse pulse ds = some n ∧ (∀ d ∈ ds, pulse d ≤ n) ∧ ∃ d ∈ ds, pulse d = n) := by
  refine ⟨fun h => by rw [h]; rfl, fun h => ?_⟩
  obtain ⟨d, ds, rfl⟩ := List.exists_cons_of_ne_nil h
  have key : ∀ (ds : List Nat) (m : Nat), m ≤ ds.foldl (fun m j => max m (pulse j)) m
      ∧ (∀ d ∈ ds, pulse d ≤ ds.foldl (fun m j => max m (pulse j)) m)
      ∧ (ds.foldl (fun m j => max m (pulse j)) m = m ∨ ∃ d ∈ ds, pulse d = ds.foldl (fun m j => max m (pulse j)) m) := by
    intro ds
    induction ds with
    | nil => intro m; simp
    | cons e es ih =>
      intro m
      obtain ⟨a, b, c⟩ := ih (max m (pulse e))
      rw [List.foldl_cons]
      refine ⟨le_trans (le_max_left ..) a, ?_, ?_⟩
      · intro x hx
        rcases List.mem_cons.1 hx with rfl | hx
        · exact le_trans (le_max_right ..) a
        · exact b x hx
      · rcases c with c | ⟨x, hx, c⟩
        · rcases le_total m (pulse e) with q | q
          · exact .inr ⟨e, by simp, by rw [c, max_eq_right q]⟩
          · exact .inl (by rw [c, max_eq_left q])
        · exact .inr ⟨x, by simp [hx], c⟩
  obtain ⟨a, b, c⟩ := key ds (pulse d)
  refine ⟨_, rfl, ?_, ?_⟩
  · intro x hx
    rcases List.mem_cons.1 hx with rfl | hx
    · exact a
    · exact b x hx
  · rcases c with c | ⟨x, hx, c⟩
    · exact ⟨d, by simp, c.symm⟩
    · exact ⟨x, by simp [hx], c⟩

/-- The number of phases: enough for every group's batches, and as many as one of them has (R147). -/
theorem phaseTotal_cases (l : Line) (lim : Nat) :
    (∀ g, g < 4 → ceilDiv (groupDots l g).length lim ≤ phaseTotal l lim)
      ∧ (phaseTotal l lim = 0 ∨ ∃ g, g < 4 ∧ phaseTotal l lim = ceilDiv (groupDots l g).length lim) := by
  have e : phaseTotal l lim = max (max (max (max 0 (ceilDiv (groupDots l 0).length lim)) (ceilDiv (groupDots l 1).length lim))
      (ceilDiv (groupDots l 2).length lim)) (ceilDiv (groupDots l 3).length lim) := rfl
  constructor
  · intro g hg
    rw [e]
    interval_cases g <;> omega
  · rw [e]
    have h0 : 0 < 4 ∧ 1 < 4 ∧ 2 < 4 ∧ 3 < 4 := by decide
    rcases le_total (max (max (max 0 (ceilDiv (groupDots l 0).length lim)) (ceilDiv (groupDots l 1).length lim))
      (ceilDiv (groupDots l 2).length lim)) (ceilDiv (groupDots l 3).length lim) with h | h
    · exact .inr ⟨3, h0.2.2.2, max_eq_right h⟩
    · rw [max_eq_left h]
      rcases le_total (max (max 0 (ceilDiv (groupDots l 0).length lim)) (ceilDiv (groupDots l 1).length lim))
        (ceilDiv (groupDots l 2).length lim) with h | h
      · exact .inr ⟨2, h0.2.2.1, max_eq_right h⟩
      · rw [max_eq_left h]
        rcases le_total (max 0 (ceilDiv (groupDots l 0).length lim)) (ceilDiv (groupDots l 1).length lim) with h | h
        · exact .inr ⟨1, h0.2.1, max_eq_right h⟩
        · rw [max_eq_left h, Nat.zero_max]; exact .inr ⟨0, h0.1, rfl⟩

end Sys2Proof.Machine
end

