-- ==== Sys2Proof/Laws/Memory.lean ====
section
/-! SUPPORT. The page DRAM: what a write changes, and that every operation keeps the canonical form. -/

-- one declaration after the other: run side by side, the proofs of the whole package hold more threads than memory has room for
set_option Elab.async false

namespace Sys2Proof.Machine

/-- Strictly rising, as a pairwise relation. -/
theorem rising_iff (l : List Nat) : rising l = true ↔ l.Pairwise (· < ·) := by
  induction l with
  | nil => simp [rising]
  | cons x t ih =>
    cases t with
    | nil => simp [rising]
    | cons y u =>
      simp only [rising, Bool.and_eq_true, decide_eq_true_eq, ih, List.pairwise_cons]
      constructor
      · rintro ⟨hxy, hy, hu⟩
        refine ⟨fun a ha => ?_, hy, hu⟩
        rcases List.mem_cons.mp ha with rfl | ha
        · exact hxy
        · exact lt_trans hxy (hy a ha)
      · rintro ⟨h, hy, hu⟩
        exact ⟨h y (by simp), hy, hu⟩

theorem lookupCell_putCell (l : List Host.Cell) (h : rising (l.map Prod.fst) = true) (a x : Nat) (b : Byte) :
    lookupCell (putCell l a b) x = if x = a then b else lookupCell l x := by
  have absent : ∀ (t : List Host.Cell) (y : Nat), (∀ c ∈ t, c.1 ≠ y) → lookupCell t y = unlistedByte := by
    intro t y
    induction t with
    | nil => intro _; rfl
    | cons c u ih =>
      intro hc
      have h1 : ¬ y = c.1 := fun e => hc c (by simp) e.symm
      rw [show c = (c.1, c.2) from rfl, lookupCell, if_neg h1]
      exact ih fun d hd => hc d (by simp [hd])
  induction l with
  | nil =>
    by_cases hb : b = unlistedByte
    · simp [putCell, hb, lookupCell]
    · simp [putCell, hb, lookupCell]
  | cons c t ih =>
    obtain ⟨y, v⟩ := c
    rw [rising_iff] at h
    simp only [List.map_cons, List.pairwise_cons] at h
    have ht := (rising_iff (t.map Prod.fst)).mpr h.2
    have hlt : ∀ d ∈ t, y < d.1 := fun d hd => h.1 d.1 (List.mem_map_of_mem hd)
    simp only [putCell]
    by_cases h1 : a < y
    · have hx : ∀ d ∈ ((y, v) :: t : List Host.Cell), d.1 ≠ a := by
        intro d hd
        rcases List.mem_cons.mp hd with rfl | hd
        · exact fun e => by simp at e; omega
        · exact fun e => by have := hlt d hd; omega
      by_cases hb : b = unlistedByte
      · rw [if_pos h1, if_pos hb]
        by_cases hxa : x = a
        · rw [if_pos hxa, hxa, absent _ a hx, hb]
        · rw [if_neg hxa]
      · simp [h1, hb, lookupCell]
    · by_cases h2 : a = y
      · subst h2
        by_cases hb : b = unlistedByte
        · rw [if_neg h1, if_pos rfl, if_pos hb]
          by_cases hxa : x = a
          · rw [if_pos hxa, hxa, hb]
            exact absent t a fun d hd => by have := hlt d hd; omega
          · simp [lookupCell, hxa]
        · by_cases hxa : x = a <;> simp [lookupCell, hxa, hb]
      · by_cases hxy : x = y
        · subst hxy
          simp [h1, h2, lookupCell, show ¬ x = a from fun e => h2 e.symm]
        · simp [h1, h2, lookupCell, hxy, ih ht]

theorem mem_putCell (l : List Host.Cell) (a : Nat) (b : Byte) (c : Host.Cell) (h : c ∈ putCell l a b) :
    c = (a, b) ∧ b ≠ unlistedByte ∨ c ∈ l := by
  induction l with
  | nil =>
    by_cases hb : b = unlistedByte <;> simp_all [putCell]
  | cons d t ih =>
    obtain ⟨y, v⟩ := d
    simp only [putCell] at h
    split at h
    · split at h
      · exact .inr h
      · rename_i hb
        rcases List.mem_cons.mp h with rfl | h
        · exact .inl ⟨rfl, hb⟩
        · exact .inr h
    · split at h
      · split at h
        · exact .inr (List.mem_cons_of_mem _ h)
        · rename_i hb
          rcases List.mem_cons.mp h with rfl | h
          · exact .inl ⟨rfl, hb⟩
          · exact .inr (List.mem_cons_of_mem _ h)
      · rcases List.mem_cons.mp h with rfl | h
        · exact .inr (by simp)
        · exact (ih h).imp id (List.mem_cons_of_mem _)

theorem putCell_rising (l : List Host.Cell) (a : Nat) (b : Byte) (h : rising (l.map Prod.fst) = true) :
    rising ((putCell l a b).map Prod.fst) = true := by
  induction l with
  | nil => by_cases hb : b = unlistedByte <;> simp [putCell, hb, rising]
  | cons d t ih =>
    obtain ⟨y, v⟩ := d
    have h' := h
    rw [rising_iff] at h
    simp only [List.map_cons, List.pairwise_cons] at h
    have ht := (rising_iff (t.map Prod.fst)).mpr h.2
    simp only [putCell]
    split
    · rename_i hay
      split
      · exact h'
      · rw [rising_iff]
        simp only [List.map_cons, List.pairwise_cons]
        refine ⟨fun z hz => ?_, h⟩
        rcases List.mem_cons.mp hz with rfl | hz
        · exact hay
        · exact lt_trans hay (h.1 z hz)
    · split
      · rename_i hay
        split
        · exact ht
        · rw [rising_iff, hay]
          exact List.pairwise_cons.mpr h
      · rename_i h1 h2
        rw [rising_iff]
        simp only [List.map_cons, List.pairwise_cons]
        refine ⟨fun z hz => ?_, (rising_iff _).mp (ih ht)⟩
        obtain ⟨c, hc, rfl⟩ := List.mem_map.mp hz
        rcases mem_putCell t a b c hc with ⟨rfl, _⟩ | hc
        · simp only; omega
        · exact h.1 c.1 (List.mem_map_of_mem hc)

theorem mem_putMark (l : List Nat) (a z : Nat) (m : Bool) (h : z ∈ putMark l a m) : z = a ∨ z ∈ l := by
  induction l with
  | nil => cases m <;> simp_all [putMark]
  | cons x t ih =>
    simp only [putMark] at h
    split at h
    · cases m <;> simp_all
    · split at h
      · cases m <;> simp_all
      · rcases List.mem_cons.mp h with rfl | h
        · exact .inr (by simp)
        · exact (ih h).imp id (List.mem_cons_of_mem _)

theorem putMark_rising (l : List Nat) (a : Nat) (m : Bool) (h : rising l = true) : rising (putMark l a m) = true := by
  induction l with
  | nil => cases m <;> rfl
  | cons x t ih =>
    have h' := h
    rw [rising_iff, List.pairwise_cons] at h
    have ht := (rising_iff t).mpr h.2
    simp only [putMark]
    split
    · rename_i hax
      cases m
      · simpa using h'
      · rw [if_pos rfl, rising_iff, List.pairwise_cons]
        refine ⟨fun z hz => ?_, List.pairwise_cons.mpr h⟩
        rcases List.mem_cons.mp hz with rfl | hz
        · exact hax
        · exact lt_trans hax (h.1 z hz)
    · split
      · rename_i hax
        cases m
        · simpa using ht
        · simpa [hax] using h'
      · rename_i h1 h2
        rw [rising_iff, List.pairwise_cons]
        refine ⟨fun z hz => ?_, (rising_iff _).mp (ih ht)⟩
        rcases mem_putMark t a z m hz with rfl | hz
        · omega
        · exact h.1 z hz

/-- The canonical form, taken apart. -/
theorem Memory.wf_iff (m : Memory) :
    m.wf = true ↔ rising (m.cells.map Prod.fst) = true ∧ (∀ c ∈ m.cells, c.2 ≠ unlistedByte)
      ∧ rising m.badParity = true := by
  simp [Memory.wf, and_assoc]

/-- A write keeps the canonical form. -/
theorem Memory.write_wf (m : Memory) (a : Nat) (b : Byte) (sd : Bool) (h : m.wf = true) : (m.write a b sd).wf = true := by
  rw [Memory.wf_iff] at h ⊢
  refine ⟨putCell_rising _ _ _ h.1, fun c hc => ?_, putMark_rising _ _ _ h.2.2⟩
  rcases mem_putCell _ _ _ c hc with ⟨rfl, hb⟩ | hc
  · exact hb
  · exact h.2.1 c hc

/-- A run of writes keeps the canonical form. -/
theorem Memory.writeAll_wf (bs : List Byte) : ∀ (m : Memory) (a : Nat) (sd : Bool), m.wf = true →
    (m.writeAll a sd bs).wf = true := by
  induction bs with
  | nil => intro m a sd h; exact h
  | cons b bs ih => intro m a sd h; exact ih _ _ _ (Memory.write_wf m a b sd h)

/-- The contents given at power-up are in the canonical form. -/
theorem Memory.powerUp_wf (m : Memory) (d : PowerUpDram) : (m.powerUp d).wf = true := by
  have keep : ∀ (l : List (Nat × Byte)) (m : Memory), m.wf = true →
      (l.foldl (fun m c => m.write c.1 c.2 false) m).wf = true := by
    intro l
    induction l with
    | nil => intro m h; exact h
    | cons c t ih => intro m h; exact ih _ (Memory.write_wf m c.1 c.2 false h)
  have keep' : ∀ (l : List Nat) (m : Memory), m.wf = true →
      (l.foldl (fun m a => m.write a (m.read a) true) m).wf = true := by
    intro l
    induction l with
    | nil => intro m h; exact h
    | cons c t ih => intro m h; exact ih _ (Memory.write_wf m c _ true h)
  exact keep' _ _ (keep _ _ rfl)

/-- The DRAM of the reset state is in the canonical form. -/
theorem State.reset_dram_wf : State.reset.dram.wf = true := rfl

/-- A write keeps the fitted size, so addresses land where they did. -/
@[simp] theorem Memory.write_fitted (m : Memory) (a : Nat) (b : Byte) (sd : Bool) : (m.write a b sd).fitted = m.fitted := rfl

@[simp] theorem Memory.write_place (m : Memory) (a x : Nat) (b : Byte) (sd : Bool) :
    (m.write a b sd).place x = m.place x := rfl

/-- Reading after a write: the byte written at its own place, what stood there anywhere else. -/
theorem Memory.read_write (m : Memory) (h : m.wf = true) (a x : Nat) (b : Byte) (sd : Bool) :
    (m.write a b sd).read x = if m.place x = m.place a then b else m.read x :=
  lookupCell_putCell m.cells ((Memory.wf_iff m).mp h).1 (m.place a) (m.place x) b

/-- A run of writes leaves every byte outside it as it was. -/
theorem Memory.read_writeAll_outside (bs : List Byte) : ∀ (m : Memory) (a x : Nat) (sd : Bool), m.wf = true →
    (∀ i < bs.length, m.place x ≠ m.place (a + i)) → (m.writeAll a sd bs).read x = m.read x := by
  induction bs with
  | nil => intro m a x sd _ _; rfl
  | cons b bs ih =>
    intro m a x sd h hx
    have h1 := ih (m.write a b sd) (a + 1) x sd (Memory.write_wf m a b sd h) fun i hi => by
      have := hx (i + 1) (by simp; omega)
      simpa [Nat.add_assoc, Nat.add_comm 1] using this
    rw [Memory.writeAll, h1, Memory.read_write m h, if_neg]
    simpa using hx 0 (by simp)

end Sys2Proof.Machine
end

