-- ==== Sys2Proof/Laws/ScanRing.lean ====
section
/-! SUPPORT. What leaves the law of the Scan Ring alone, operation by operation. -/

-- one declaration after the other: run side by side, the proofs of the whole package hold more threads than memory has room for
set_option Elab.async false

namespace Sys2Proof.Machine

/-! ## What leaves the law alone -/

/-- A channel not moving for the scan, or moving as before. -/
def MotSame (m n : Motor) : Prop :=
  n.moving = false ∨ n.owner ≠ .scan ∨ (n.plan = m.plan ∧ n.state = m.state ∧ n.rampIndex = m.rampIndex ∧ n.owner = m.owner)

/-- A change that leaves the Scan Ring as it is, but for lines coded, and the scan and its channel too. -/
structure Away (s t : State) : Prop where
  occ  : t.rings.scan.occ ≤ s.rings.scan.occ
  res  : t.rings.scanReserved = s.rings.scanReserved
  comp : t.front.comp = s.front.comp
  job  : t.scanJob.map (fun j => { j with lastCompleted := 0 }) = s.scanJob.map (fun j => { j with lastCompleted := 0 })
  mot  : MotSame s.motS t.motS
  wait : s.scanCd.dirWait = none → t.scanCd.dirWait = none
  act  : s.scanJob = none ∨ t.tables.active[(0 : Fin 14)] = s.tables.active[(0 : Fin 14)]

theorem MotSame.refl (m : Motor) : MotSame m m := .inr (.inr ⟨rfl, rfl, rfl, rfl⟩)

theorem MotSame.trans {m n p : Motor} (h : MotSame m n) (k : MotSame n p) : MotSame m p := by
  rcases k with k | k | ⟨k1, k2, k3, k4⟩
  · exact .inl k
  · exact .inr (.inl k)
  · rcases h with h | h | ⟨h1, h2, h3, h4⟩
    · exact .inl ((moving_of_state k2).trans h)
    · exact .inr (.inl (by rw [k4]; exact h))
    · exact .inr (.inr ⟨k1.trans h1, k2.trans h2, k3.trans h3, k4.trans h4⟩)

theorem Away.refl (s : State) : Away s s := ⟨le_refl _, rfl, rfl, rfl, .refl _, fun x => x, .inr rfl⟩

theorem map_none {s t : State}
    (h : t.scanJob.map (fun j => { j with lastCompleted := 0 }) = s.scanJob.map (fun j => { j with lastCompleted := 0 })) :
    s.scanJob = none ↔ t.scanJob = none := by
  cases x : s.scanJob <;> cases y : t.scanJob <;> rw [x, y] at h <;> simp at h ⊢

theorem Away.trans {s t u : State} (h : Away s t) (k : Away t u) : Away s u := by
  refine ⟨le_trans k.occ h.occ, k.res.trans h.res, k.comp.trans h.comp, k.job.trans h.job, h.mot.trans k.mot, fun x => k.wait (h.wait x), ?_⟩
  rcases h.act with x | x
  · exact .inl x
  · rcases k.act with y | y
    · exact .inl ((map_none h.job).mpr y)
    · exact .inr (y.trans x)

theorem away_ite {s t u : State} {p : Prop} [Decidable p] (h : Away s t) (k : Away s u) : Away s (if p then t else u) := by
  split
  · exact h
  · exact k

theorem settings_same {s t : State} (h : t.tables.active[(0 : Fin 14)] = s.tables.active[(0 : Fin 14)]) :
    setLead t = setLead s ∧ setRh t = setRh s := by
  unfold setLead setRh settingsImage
  rw [h]
  exact ⟨rfl, rfl⟩

theorem scanFree_mono {s t : State} (h : t.rings.scan.occ ≤ s.rings.scan.occ) (k : t.rings.scanReserved = s.rings.scanReserved) :
    scanFree s ≤ scanFree t := by unfold scanFree; omega

/-- What changes with the last completed page alone. -/
theorem job_same {s t : State} {j : ScanJob}
    (h : t.scanJob.map (fun j => { j with lastCompleted := 0 }) = s.scanJob.map (fun j => { j with lastCompleted := 0 }))
    (k : t.scanJob = some j) : ∃ i, s.scanJob = some i ∧ j = { i with lastCompleted := j.lastCompleted } := by
  rw [k] at h
  cases x : s.scanJob
  · rw [x] at h; cases h
  · next i =>
    rw [x] at h
    refine ⟨i, rfl, ?_⟩
    simp only [Option.map_some, Option.some.injEq] at h
    cases i; cases j
    simp only [ScanJob.mk.injEq] at h ⊢
    obtain ⟨h1, h2, h3, h4, h5, h6, h7, h8, h9, h10, h11, h12, h13, h14, h15, h16, h17, h18, h19⟩ := h
    exact ⟨h1, h2, h3, h4, h5, h6, h7, h8, h9, h10, h11, h12, h13, h14, h15, h16, trivial, h18, h19⟩

theorem base_away {s t : State} (h : RingBase s) (k : Away s t) : RingBase t := by
  have se : s.scanJob ≠ none → setLead t = setLead s ∧ setRh t = setRh s := fun x => settings_same (k.act.resolve_left x)
  constructor
  · rw [k.res, k.comp]; exact h.one
  · intro x
    have y := h.idle ((map_none k.job).mpr x)
    rw [k.comp]
    exact ⟨Nat.le_zero.mp (y.1 ▸ k.occ), y.2⟩
  · intro j x
    obtain ⟨i, y, z⟩ := job_same k.job x
    rw [z, (se (by rw [y]; simp)).2]; exact h.fig i y
  · intro j x
    obtain ⟨i, y, z⟩ := job_same k.job x
    obtain ⟨e1, e2⟩ := se (by rw [y]; simp)
    intro w
    have := h.bound i y (by unfold ScanJob.roomy at w ⊢; rw [e1, e2, z] at w; exact w)
    have := k.occ
    rw [k.res]; omega

theorem ring_away {s t : State} (h : RingSound s) (k : Away s t) : RingSound t := by
  have se : s.scanJob ≠ none → setLead t = setLead s ∧ setRh t = setRh s := fun x => settings_same (k.act.resolve_left x)
  refine ⟨base_away h.toRingBase k, ?_, ?_, ?_⟩
  · intro w
    obtain ⟨i, y, z⟩ := h.waits fun v => w (k.wait v)
    have := k.job
    rw [y] at this
    cases x : t.scanJob with
    | none => rw [x] at this; cases this
    | some j =>
      obtain ⟨i', y', e⟩ := job_same k.job x
      rw [y] at y'; cases y'
      exact ⟨j, rfl, by rw [e]; exact z⟩
  · intro j x
    obtain ⟨i, y, z⟩ := job_same k.job x
    rw [z, (se (by rw [y]; simp)).1]; exact h.next i y
  · intro j x
    obtain ⟨i, y, z⟩ := job_same k.job x
    obtain ⟨e1, e2⟩ := se (by rw [y]; simp)
    intro w f mv ow
    rcases k.mot with m | m | ⟨m1, m2, m3, m4⟩
    · rw [m] at mv; cases mv
    · exact absurd ow m
    · have r := h.room i y (by unfold ScanJob.roomy at w ⊢; rw [e1, e2, z] at w; exact w) (by rw [z] at f; exact f)
        (by rw [← moving_of_state m2]; exact mv) (by rw [← m4]; exact ow)
      have fr := scanFree_mono k.occ k.res
      unfold runRoom at r ⊢
      rw [m1, m2, m3, e1, z]
      split
      · trivial
      · next hp =>
        rw [hp] at r
        obtain ⟨r1, r2, r3, r4, r5⟩ := r
        exact ⟨r1, r2, r3, le_trans r4 fr, r5⟩
      · next hp =>
        rw [hp] at r
        exact ⟨r.1, le_trans r.2 fr⟩
      · next hp => rw [hp] at r; exact r

theorem away_of {s t : State} (h : Shell s t) (k : Beside s t) : Away s t := by
  refine ⟨by rw [k.scan], k.room, by rw [h.front], k.scanJob, ?_, fun x => (k.waits .scan).trans x, .inr (by rw [h.tables])⟩
  rw [h.motS]; exact .refl _

theorem away_plain {s t : State} (a : t.rings.scan = s.rings.scan := by rfl) (b : t.rings.scanReserved = s.rings.scanReserved := by rfl)
    (c : t.front.comp = s.front.comp := by rfl) (d : t.scanJob = s.scanJob := by rfl) (e : t.motS = s.motS := by rfl)
    (f : t.tables.active[(0 : Fin 14)] = s.tables.active[(0 : Fin 14)] := by rfl)
    (g : t.scanCd.dirWait = s.scanCd.dirWait := by rfl) : Away s t := by
  refine ⟨by rw [a], b, c, by rw [d], ?_, fun x => g.trans x, .inr f⟩
  rw [e]; exact .refl _

/-- The ring empty and the job, if any, past its lines. -/
theorem ring_emptied {s : State} (o : s.rings.scan.occ = 0) (r : s.rings.scanReserved = 0) (c : s.front.comp = none)
    (j : ∀ j, s.scanJob = some j → j.feeds = false ∧ ∃ k ≤ j.slewReq, j.fig = figuresOf k j.res.steps (setRh s))
    (w : s.scanCd.dirWait ≠ none → ∃ j, s.scanJob = some j ∧ j.phase = .dirwait) : RingSound s := by
  refine ⟨⟨?_, ?_, ?_, ?_⟩, w, ?_, ?_⟩
  · rw [r, c]; rfl
  · exact fun _ => ⟨o, c⟩
  · exact fun i x => (j i x).2
  · intro i x _; rw [o, r]; exact Nat.zero_le _
  · intro i x y
    have := (j i x).1
    unfold ScanJob.feeds at this
    rcases y with y | y <;> rw [y] at this <;> cases this
  · intro i x _ f; rw [(j i x).1] at f; cases f

/-! ## What is away from the Scan Ring -/

theorem away_mapEntry (i : Nat) (f : Entry → Entry) (s : State) (hf : ∀ e, (f e).id = e.id := by intro e; exact rfl) :
    Away s (mapEntry i f s) := away_of (shell_mapEntry ..) (beside_mapEntry i f s hf)
theorem away_mapDir (f : Directory → Directory) (s : State) : Away s (mapDir f s) := away_plain
theorem away_setCoder (c : CoderCtx) (y : Coder) (s : State)
    (w : y.dirWait = (coderOf c s).dirWait ∨ y.dirWait = none := by first | exact .inl rfl | exact .inr rfl) : Away s (setCoder c y s) := by
  cases c
  · exact ⟨le_refl _, rfl, rfl, rfl, .refl _, fun x => w.elim (fun y => y.trans x) (fun y => y), .inr rfl⟩
  · exact away_plain
theorem away_mapCoder (c : CoderCtx) (f : Coder → Coder) (s : State)
    (w : (f (coderOf c s)).dirWait = (coderOf c s).dirWait ∨ (f (coderOf c s)).dirWait = none := by first | exact .inl rfl | exact .inr rfl) :
    Away s (mapCoder c f s) := away_setCoder _ _ _ w
theorem away_mapRings (f : Rings → Rings) (s : State) (a : (f s.rings).scan = s.rings.scan := by rfl)
    (b : (f s.rings).scanReserved = s.rings.scanReserved := by rfl) : Away s (mapRings f s) := away_plain a b
theorem away_mapFront (f : ScanFront → ScanFront) (s : State) (a : (f s.front).comp = s.front.comp := by rfl) :
    Away s (mapFront f s) := away_plain rfl rfl a

theorem away_setActive (i : Fin 14) (img : List Byte) (s : State) (h : i ≠ 0) : Away s (setActive i img s) := by
  have a : (s.tables.active.set i (some img))[(0 : Fin 14)] = s.tables.active[(0 : Fin 14)] := by
    have : i.val ≠ 0 := fun z => h (Fin.ext z)
    simp [Fin.getElem_fin, Vector.getElem_set_ne _ _ this]
  unfold setActive
  dsimp only
  split
  · exact away_plain rfl rfl rfl rfl rfl a
  · split
    · exact ⟨le_refl _, rfl, rfl, rfl, .inr (.inr ⟨rfl, rfl, rfl, rfl⟩), fun x => x, .inr a⟩
    · split
      · exact away_plain rfl rfl rfl rfl rfl a
      · exact away_plain rfl rfl rfl rfl rfl a

theorem away_setPending (i : Fin 14) (o : Option (List Byte)) (s : State) : Away s (setPending i o s) := away_plain

theorem away_applyPending (i : Fin 14) (s : State) (h : i ≠ 0) : Away s (applyPending i s) := by
  unfold applyPending
  split
  · exact .refl s
  · exact ((away_setActive _ _ _ h).trans (away_setPending ..)).trans (away_of (shell_raise ..) (beside_raise ..))

theorem away_applyAll (is : List (Fin 14)) (h : ∀ i ∈ is, i ≠ 0) : ∀ s : State, Away s (applyAll is s) := by
  unfold applyAll
  induction is with
  | nil => exact .refl
  | cons i is ih =>
    exact fun s => (away_applyPending i s (h i (by simp))).trans (ih (fun j hj => h j (by simp [hj])) _)

theorem away_applyMotorTables (s : State) : Away s (applyMotorTables s) := by
  have h : ∀ (is : List (Fin 14)), (∀ i ∈ is, i ≠ 0) → ∀ u : State,
      Away u (is.foldl (fun s i => if tableInUse i s then s else applyPending i s) u) := by
    intro is
    induction is with
    | nil => exact fun _ => .refl
    | cons i is ih =>
      exact fun h u => (away_ite (.refl u) (away_applyPending i u (h i (by simp)))).trans (ih (fun j hj => h j (by simp [hj])) _)
  exact h _ (by decide) s

theorem away_raise (f : Fin 20) (p c r : Nat) (s : State) : Away s (raise f p c r s) :=
  away_of (shell_raise ..) (beside_raise ..)
theorem away_mapDram (f : Memory → Memory) (s : State) : Away s (mapDram f s) :=
  away_of (shell_mapDram ..) (beside_mapDram ..)
theorem away_pumpAsk (c : CoderCtx) (s : State) : Away s (pumpAsk c s) :=
  away_of (shell_pumpAsk ..) (beside_pumpAsk ..)
theorem away_idleCoder (c : CoderCtx) (s : State) : Away s (idleCoder c s) :=
  away_of (shell_idleCoder ..) (beside_idleCoder ..)
theorem away_completePage (c : CoderCtx) (t q : Bool) (s : State) : Away s (completePage c t q s) :=
  away_of (shell_completePage ..) (beside_completePage ..)
theorem away_discardPage (i : Nat) (r : Bool) (s : State) : Away s (discardPage i r s) :=
  away_of (shell_discardPage ..) (beside_discardPage ..)
theorem away_discardWritten (c : CoderCtx) (s : State) : Away s (discardWritten c s) :=
  away_of (shell_discardWritten ..) (beside_discardWritten ..)
theorem away_applyPolicy (c : CoderCtx) (p : Policy) (s : State) : Away s (applyPolicy c p s) :=
  away_of (shell_applyPolicy ..) (beside_applyPolicy ..)
theorem away_discardWaiting (c : CoderCtx) (s : State) : Away s (discardWaiting c s) :=
  away_of (shell_discardWaiting ..) (beside_discardWaiting ..)
theorem away_removeReader (c : DecoderCtx) (i : Nat) (s : State) : Away s (removeReader c i s) :=
  away_of (shell_removeReader ..) (beside_removeReader ..)
theorem away_settleEmpty (i : Nat) (s : State) : Away s (settleEmpty i s) :=
  away_of (shell_settleEmpty ..) (beside_settleEmpty ..)
theorem away_moveReader (c : DecoderCtx) (i l b : Nat) (s : State) : Away s (moveReader c i l b s) := by
  cases c <;> exact away_mapEntry i _ s
theorem away_clearReader (c : DecoderCtx) (i : Nat) (s : State) : Away s (clearReader c i s) := by
  cases c <;> exact away_mapEntry i _ s
theorem away_countDamage (i : Nat) (s : State) : Away s (countDamage i s) := away_mapEntry i _ s
theorem away_setPass (c : DecoderCtx) (p : Option Pass) (s : State) : Away s (setPass c p s) := by
  cases c <;> exact away_plain
theorem away_mapPmc (f : Pmc → Pmc) (s : State) : Away s (mapPmc f s) := away_plain
theorem away_killGrant (f : Burst → Bool) (s : State) : Away s (killGrant f s) := away_mapPmc ..
theorem away_idleDecoder (c : DecoderCtx) (s : State) : Away s (idleDecoder c s) := (away_setPass ..).trans (away_killGrant ..)
theorem away_leaveBlock (c : DecoderCtx) (i b l o : Nat) (s : State) : Away s (leaveBlock c i b l o s) := by
  refine away_of ?_ (beside_leaveBlock ..)
  unfold leaveBlock
  split
  · exact .refl s
  · split
    · exact .refl s
    · split
      · exact ((shell_mapEntry i _ s).trans (shell_freeSingle ..)).trans (shell_mapEntry i _ _)
      · exact .refl s

theorem away_mapTemp (f : Temperature → Temperature) (s : State) : Away s (mapTemp f s) :=
  away_plain
theorem away_mapPort (f : Port → Port) (s : State) : Away s (mapPort f s) :=
  away_plain
theorem away_mapPower (f : Power → Power) (s : State) : Away s (mapPower f s) :=
  away_plain
theorem away_mapPrtJob (f : PrintJob → PrintJob) (s : State) : Away s (mapPrtJob f s) :=
  away_plain
theorem away_mapIntJob (f : IntakeJob → IntakeJob) (s : State) : Away s (mapIntJob f s) :=
  away_plain
theorem away_prtJob (j : Option PrintJob) (s : State) : Away s { s with prtJob := j } :=
  away_plain
theorem away_outJob (j : Option OutputJob) (s : State) : Away s { s with outJob := j } :=
  away_plain
theorem away_motP (m : Motor) (s : State) : Away s { s with motP := m } :=
  away_plain
theorem away_emptyPrintRing (s : State) : Away s (emptyPrintRing s) := away_mapRings _ _
theorem away_emptyOutputRing (s : State) : Away s (emptyOutputRing s) := away_mapRings _ _
theorem away_emptyIntakeRing (s : State) : Away s (emptyIntakeRing s) := away_mapRings _ _
theorem away_clearIntakeLine (s : State) : Away s (clearIntakeLine s) := away_mapPort ..

theorem away_endDirwait (c : CoderCtx) (s : State) : Away s (endDirwait c s) := away_mapCoder _ _ _

theorem away_settleScanPages (w : ScanSettle) (p : Policy) (s : State) : Away s (settleScanPages w p s) := by
  have k : ∀ w : ScanSettle, Away s (settleWritten w p s) := by
    intro w
    unfold settleWritten
    split
    · exact away_applyPolicy ..
    · exact away_completePage ..
    · exact away_discardWritten ..
    · exact .refl s
  unfold settleScanPages
  split
  · exact .refl s
  all_goals exact (k _).trans (away_discardWaiting ..)

/-! ## The decoders, the print engine, output -/

theorem away_enterRing (c : DecoderCtx) (x : Slot) (s : State) : Away s (enterRing c x s) := by
  cases c <;> exact away_mapRings _ _

theorem away_placeLine (c : DecoderCtx) (p : Pass) (l : Line) (r o : Bool) (s : State) : Away s (placeLine c p l r o s) :=
  ((away_enterRing ..).trans (away_setPass ..)).trans (away_moveReader ..)

theorem away_leaveAll (c : DecoderCtx) (i l o : Nat) (bs : List Nat) : ∀ s : State, Away s (leaveAll c i l o bs s) := by
  unfold leaveAll
  induction bs with
  | nil => exact .refl
  | cons b bs ih => exact fun s => (away_leaveBlock ..).trans (ih _)

theorem away_finishLine (c : DecoderCtx) (p : Pass) (r : LineRead) (s : State) : Away s (finishLine c p r s) := by
  unfold finishLine
  dsimp only
  split
  · exact (away_placeLine ..).trans (away_leaveAll ..)
  · have h : Away s (if r.parity = true then raise evParity p.page 0 (parityReason c) (countDamage p.page s)
        else countDamage p.page s) := by
      split
      · exact (away_countDamage ..).trans (away_raise ..)
      · exact away_countDamage ..
    split
    · exact (h.trans (away_placeLine ..)).trans (away_leaveAll ..)
    · exact h.trans (away_placeLine ..)

theorem away_decoderStart (c : DecoderCtx) (s : State) : Away s (decoderStart c s) := by
  unfold decoderStart
  split
  · exact .refl s
  · split
    · split
      · exact (away_countDamage ..).trans (away_placeLine ..)
      · exact away_setPass ..
    · exact .refl s

theorem away_decodeBurst (c : DecoderCtx) (s : State) : Away s (decodeBurst c s) := by
  unfold decodeBurst
  split
  · exact .refl s
  · split
    · exact .refl s
    · exact away_finishLine ..
    · dsimp only
      split
      · split
        · exact away_finishLine ..
        · unfold enterSuccessor
          dsimp only
          split
          · exact away_setPass ..
          · exact (away_setPass ..).trans (away_moveReader ..)
      · have h : ∀ (q : Pass) (r : LineRead), Away s (firstUnitRead c q r s) := by
          intro q r
          unfold firstUnitRead
          split
          · exact (away_leaveAll ..).trans (away_moveReader ..)
          · exact .refl s
        exact (h _ _).trans (away_ite (away_finishLine ..) (away_setPass ..))

theorem away_settleOutput (s : State) : Away s (settleOutput s) := by
  unfold settleOutput
  split
  · exact .refl s
  · exact away_ite (((away_outJob ..).trans (away_removeReader ..)).trans (away_raise ..)) (.refl s)

theorem away_settlePass (c : DecoderCtx) (s : State) : Away s (settlePass c s) := by
  unfold settlePass
  split
  · exact .refl s
  · split
    · split
      · exact (away_idleDecoder ..).trans (away_mapPrtJob ..)
      · exact away_idleDecoder ..
    · exact .refl s

theorem away_requestP (r : MotorRequest) (s : State) : Away s (requestP r s).1 := by
  unfold requestP
  split
  · exact .refl s
  · split
    · exact away_motP ..
    · split
      · exact away_motP ..
      · exact away_motP ..

theorem away_askSteps (k : Stepping) (r : MotorRequest) (n : Nat) (s : State) : Away s (askSteps k r n s) := by
  unfold askSteps
  extract_lets x
  have h : Away s x.1 := (away_mapPrtJob _ s).trans (away_requestP r _)
  exact away_ite h (h.trans (away_mapPrtJob ..))

theorem away_staleSpellBegins (p : Nat) (s : State) : Away s (staleSpellBegins p s) := by
  unfold staleSpellBegins
  split
  · exact .refl s
  · exact (away_mapTemp ..).trans (away_raise ..)

theorem away_strobeLine (s : State) : Away s (strobeLine s) := by
  unfold strobeLine
  split
  · exact .refl s
  · next j hj =>
    have h := away_staleSpellBegins j.page s
    dsimp only
    split
    · exact h.trans (away_askSteps ..)
    · exact h.trans (away_prtJob ..)

theorem away_copyItems (s : State) : Away s (copyItems s) := (away_applyAll _ (by decide) _).trans (away_mapPrtJob ..)

theorem away_restartPass (p : Nat) (s : State) : Away s (restartPass p s) := by
  unfold restartPass
  split
  · exact .refl s
  · exact (away_moveReader ..).trans (away_setPass ..)

theorem away_nextCopy (s : State) : Away s (nextCopy s) := by
  unfold nextCopy
  split
  · exact .refl s
  · exact (((away_prtJob ..).trans (away_emptyPrintRing _)).trans (away_restartPass ..)).trans (away_copyItems _)

theorem away_afterExit (s : State) : Away s (afterExit s) := by
  unfold afterExit
  extract_lets s1
  have h : Away s s1 := (away_mapPrtJob ..).trans (away_applyMotorTables _)
  split
  · exact h
  · exact h.trans (away_ite (away_nextCopy _) (away_prtJob ..))

theorem away_pageEnd (s : State) : Away s (pageEnd s) := by
  unfold pageEnd
  split
  · exact .refl s
  · extract_lets s1
    have h : Away s s1 := away_prtJob ..
    exact away_ite (h.trans (away_askSteps ..)) (h.trans (away_afterExit _))

theorem away_takeSource (n : Nat) : ∀ s : State, Away s (takeSource n s).1 := by
  induction n with
  | zero => exact .refl
  | succ n ih =>
    intro s
    unfold takeSource
    split
    · exact .refl s
    · split
      · split
        · exact away_pageEnd s
        · exact away_prtJob ..
      · extract_lets x a s1
        have h : Away s s1 := (away_prtJob ..).trans (away_mapRings _ _)
        split
        · split
          · exact h.trans (away_pageEnd _)
          · exact h.trans (ih _)
        · exact h

theorem away_lineStart (s : State) : Away s (lineStart s) := by
  unfold lineStart
  split
  · exact .refl s
  · split
    · exact away_mapPrtJob ..
    · split
      · exact (away_mapPrtJob ..).trans (away_raise ..)
      · split
        · exact (away_prtJob ..).trans (away_raise ..)
        · split
          · exact (away_prtJob ..).trans (away_strobeLine _)
          · extract_lets x
            have h : Away s x.1 := by
              simp only [x]
              split
              · exact away_takeSource _ s
              · exact .refl s
            exact away_ite ((h.trans (away_mapPrtJob ..)).trans (away_strobeLine _)) h

theorem away_endPrint (j : PrintJob) (s : State) : Away s (endPrint j s) :=
  ((((away_prtJob none s).trans (away_idleDecoder ..)).trans (away_emptyPrintRing _)).trans
    (away_removeReader ..)).trans (away_raise ..)

theorem away_endingMove (j : PrintJob) (s : State) : Away s (endingMove j s) := by
  unfold endingMove
  exact away_ite (.refl s) (away_ite ((away_prtJob ..).trans (away_askSteps ..))
    (((away_prtJob ..).trans (away_applyMotorTables _)).trans (away_endPrint ..)))

theorem away_printMove (s : State) : Away s (printMove s) := by
  unfold printMove
  split
  · exact .refl s
  · split
    · exact away_lineStart s
    · exact away_ite (away_lineStart s) (away_ite (away_pageEnd s) (.refl s))
    · exact away_endingMove ..
    all_goals exact .refl s

theorem away_settlePrint (s : State) : Away s (settlePrint s) := by
  have h : ∀ (n : Nat) (u : State), Away u (printMoves n u) := by
    intro n
    induction n with
    | zero => exact fun u => away_settlePass .print u
    | succ n ih =>
      intro u
      unfold printMoves
      exact away_ite (((away_settlePass .print u).trans (away_printMove _)).trans (ih _)) (away_settlePass .print u)
  exact h 400 s

/-! ## The intake's end -/

theorem away_endIntake (r : Nat) (s : State) : Away s (endIntake r s) := by
  unfold endIntake
  split
  · exact .refl s
  · have k : Away s (clearIntakeLine (endDirwait .intake (idleCoder .intake (emptyIntakeRing s)))) :=
      (((away_emptyIntakeRing s).trans (away_idleCoder ..)).trans (away_endDirwait ..)).trans (away_clearIntakeLine _)
    dsimp only
    exact (k.trans away_plain).trans (away_raise ..)

theorem away_issueP (s : State) : Away s (issueStep .P s) := away_plain

theorem away_closePage (s : State) : Away s (closePage s) := by
  unfold closePage
  split
  · exact .refl s
  · split
    · exact .refl s
    · exact away_ite (away_discardPage ..) (away_completePage ..)

theorem away_settleIntake (s : State) : Away s (settleIntake s) := by
  unfold settleIntake
  split
  · exact .refl s
  · exact away_ite ((away_closePage s).trans (away_endIntake ..)) (.refl s)

theorem away_intakeMemExpiry (s : State) : Away s (intakeMemExpiry s) := by
  unfold intakeMemExpiry
  split
  · exact .refl s
  · exact (away_applyPolicy ..).trans (away_endIntake ..)

/-! ## The arbiter -/

theorem away_setIdle (t : Option Nat) (s : State) : Away s (setIdle t s) := away_mapPower ..
theorem away_updateIdle (s : State) : Away s (updateIdle s) :=
  away_ite (away_ite (.refl s) (away_setIdle ..)) (away_setIdle ..)
theorem away_restartIdle (s : State) : Away s (restartIdle s) := away_setIdle ..

theorem away_spillReady (s : State) : Away s (spillReady s) := by
  unfold spillReady
  split
  · next w hw =>
    refine away_ite ?_ (.refl s)
    exact away_plain
  · exact .refl s

theorem away_grantBurst (b : Burst) (s : State) : Away s (grantBurst b s) := away_mapPmc ..

theorem away_arbitrate (s : State) : Away s (arbitrate s) := by
  unfold arbitrate
  extract_lets s1
  have h : Away s s1 := away_spillReady s
  refine away_ite h ?_
  split
  · exact h.trans (away_grantBurst ..)
  · split
    · exact h
    · exact h.trans (away_grantBurst ..)

end Sys2Proof.Machine
end

