-- ==== Sys2Proof/Laws/ScanRun.lean ====
section
/-! SUPPORT. RingSound under the scan: the room a run has step by step (R120, R126), boundaries, endings, restarts, the directory wait. -/

-- one declaration after the other: run side by side, the proofs of the whole package hold more threads than memory has room for
set_option Elab.async false

namespace Sys2Proof.Machine

/-! ## Lines within the steps of a run -/

theorem linesWithin_step {m d r : Nat} (hd : 1 ≤ d) (hr : 1 ≤ r) : linesWithin m (d - 1) (r - 1) = linesWithin m d r := by
  unfold linesWithin
  have e : r - 1 - (d - 1) = r - d := by omega
  have c : (r - 1 < d - 1) = (r < d) := by apply propext; omega
  rw [e]
  simp only [c]

theorem linesWithin_anti {m d e r : Nat} (h : d ≤ e) : linesWithin m e r ≤ linesWithin m d r := by
  unfold linesWithin
  split
  · exact Nat.zero_le _
  · next x =>
    rw [if_neg (by omega)]
    exact Nat.succ_le_succ (Nat.div_le_div_right (by omega))

theorem linesWithin_mono {m d r q : Nat} (h : r ≤ q) : linesWithin m d r ≤ linesWithin m d q := by
  unfold linesWithin
  split
  · exact Nat.zero_le _
  · next x =>
    rw [if_neg (by omega)]
    exact Nat.succ_le_succ (Nat.div_le_div_right (by omega))

/-- After a boundary's own step. -/
theorem linesWithin_boundary {m r F : Nat} (hm : 1 ≤ m) (hr : 1 ≤ r) (h : linesWithin m 1 r ≤ F) : linesWithin m m (r - 1) ≤ F - 1 := by
  unfold linesWithin at h ⊢
  rw [if_neg (by omega)] at h
  split
  · exact Nat.zero_le _
  · next x =>
    have : (r - 1 - m) / m + 1 = (r - 1) / m := by
      rw [← Nat.add_div_right _ (by omega : 0 < m)]
      congr 1; omega
    omega

theorem span_pos (m k : Nat) : 1 ≤ stopSpan m k := le_max_left _ _
theorem span_ge {m k : Nat} (hm : 1 ≤ m) : k ≤ stopSpan m k * m := by
  have h : ceilDiv k m ≤ stopSpan m k := le_max_right _ _
  have : k ≤ ceilDiv k m * m := by
    unfold ceilDiv
    have := Nat.div_add_mod (k + m - 1) m
    have := Nat.mod_lt (k + m - 1) (by omega : 0 < m)
    rw [Nat.mul_comm]
    omega
  exact le_trans this (Nat.mul_le_mul_right _ h)

/-- The lines of a stop decided in SLEW (R126). -/
theorem linesWithin_slew {m j : Nat} (hm : 1 ≤ m) (_hj : 1 ≤ j) : linesWithin m m (j * m - 1) ≤ j - 1 := by
  unfold linesWithin
  split
  · exact Nat.zero_le _
  · next x =>
    have : (j * m - 1 - m) / m < j - 1 := by
      rw [Nat.div_lt_iff_lt_mul (by omega)]
      have : (j - 1) * m = j * m - m := by rw [Nat.sub_mul, Nat.one_mul]
      omega
    omega

/-- The lines of a stop decided below S' (R126). -/
theorem linesWithin_accel {m k i : Nat} (hm : 1 ≤ m) (hi : i < k) : linesWithin m m (i - 1) ≤ stopSpan m k - 1 := by
  unfold linesWithin
  split
  · exact Nat.zero_le _
  · next x =>
    have a : (i - 1 - m) / m + 1 = (i - 1) / m := by
      rw [← Nat.add_div_right _ (by omega : 0 < m)]
      congr 1; omega
    have b : (i - 1) / m ≤ (k - 1) / m := Nat.div_le_div_right (by omega)
    have c : ceilDiv k m = (k - 1) / m + 1 := by
      unfold ceilDiv
      rw [← Nat.add_div_right _ (by omega : 0 < m)]
      congr 1; omega
    have d : ceilDiv k m ≤ stopSpan m k := le_max_right _ _
    omega

/-- The lines of a stop with q = 0 a line apart from the next boundary. -/
theorem linesWithin_close {m k i d : Nat} (hm : 1 ≤ m) (hd : m ≤ d) (hi : i ≤ k) : linesWithin m d i ≤ stopSpan m k := by
  refine le_trans (linesWithin_anti hd) (le_trans (linesWithin_mono hi) ?_)
  unfold linesWithin
  split
  · exact Nat.zero_le _
  · next x =>
    have a : (k - m) / m + 1 = k / m := by
      rw [← Nat.add_div_right _ (by omega : 0 < m)]
      congr 1; omega
    have c : k / m ≤ ceilDiv k m := by unfold ceilDiv; exact Nat.div_le_div_right (by omega)
    have d : ceilDiv k m ≤ stopSpan m k := le_max_right _ _
    omega

/-! ## A channel's plan -/

/-- The room a plan needs: `d` steps to the next boundary, `F` free slots. -/
def planRoom (f : Figures) (wait : Bool) (d F : Nat) (m : Motor) : Prop :=
  match m.plan with
  | .idle => True
  | .run _ up none _ st => st = false ∧ m.state ≠ .decel ∧ m.rampIndex + up ≤ f.slewUse ∧ f.margin + 1 ≤ F ∧ wait = false
  | .run _ up (some g) down st => st = true ∧ linesWithin f.m d (up + g + down) ≤ F
  | .burst _ _ => False

/-- Is the channel in ACCEL or SLEW, wherever its run has no end yet? -/
def Motor.unended (m : Motor) : Prop :=
  match m.plan with
  | .run _ _ none _ _ => m.state = .accel ∨ m.state = .slew
  | .run _ _ (some _) _ _ | .idle | .burst _ _ => True

theorem runRoom_iff (j : ScanJob) (s : State) :
    runRoom j s ↔ planRoom j.fig (decide (j.phase = .dirwait)) (j.toBoundary (setLead s)) (scanFree s) s.motS ∧ s.motS.unended := by
  unfold runRoom planRoom Motor.unended
  cases s.motS.plan with
  | idle => simp
  | burst l i => simp
  | run rev up fl down st =>
    cases fl with
    | some g => simp
    | none =>
      simp only [decide_eq_false_iff_not]
      constructor
      · rintro ⟨h1, h2, h3, h4, h5⟩
        exact ⟨⟨h1, by rcases h2 with x | x <;> rw [x] <;> simp, h3, h4, h5⟩, h2⟩
      · rintro ⟨⟨h1, h2, h3, h4, h5⟩, h6⟩
        exact ⟨h1, h6, h3, h4, h5⟩

theorem planRoom_mono {f : Figures} {w : Bool} {d e F G : Nat} {m : Motor} (hd : d ≤ e) (hF : F ≤ G) (h : planRoom f w d F m) :
    planRoom f w e G m := by
  unfold planRoom at h ⊢
  split
  · trivial
  · next x => rw [x] at h; exact ⟨h.1, h.2.1, h.2.2.1, le_trans h.2.2.2.1 hF, h.2.2.2.2⟩
  · next x => rw [x] at h; exact ⟨h.1, le_trans (linesWithin_anti hd) (le_trans h.2 hF)⟩
  · next x => rw [x] at h; exact h

/-- A step issued: one step nearer to the boundary. -/
theorem planRoom_issue {f : Figures} {w : Bool} {d F : Nat} {m : Motor} (ramp : List Byte) (n : Nat) (hd : 1 ≤ d) (hs : m.stepDue = true)
    (h : planRoom f w d F m) : planRoom f w (d - 1) F (m.issue ramp n) ∧ (m.issue ramp n).unended := by
  unfold planRoom at h
  unfold Motor.stepDue at hs
  cases hp : m.plan with
  | idle => rw [hp] at hs; simp [Plan.owed] at hs
  | burst l i => rw [hp] at h; exact h.elim
  | run rev up fl down st =>
    rw [hp] at h hs
    cases fl with
    | none =>
      obtain ⟨h1, h2, h3, h4, h5⟩ := h
      cases up with
      | zero =>
        unfold Motor.issue planRoom Motor.unended
        rw [hp]
        exact ⟨⟨h1, by simp, h3, h4, h5⟩, .inr rfl⟩
      | succ up =>
        unfold Motor.issue planRoom Motor.unended
        rw [hp]
        refine ⟨⟨h1, by simp, ?_, h4, h5⟩, .inl rfl⟩
        try dsimp only
        omega
    | some g =>
      obtain ⟨h1, h2⟩ := h
      have hr : 1 ≤ up + g + down := by
        simp only [Plan.owed, ne_eq, Option.some.injEq, decide_eq_true_eq] at hs
        omega
      have key : linesWithin f.m (d - 1) (up + g + down - 1) ≤ F := by rw [linesWithin_step hd hr]; exact h2
      unfold Motor.issue planRoom Motor.unended
      rw [hp]
      cases up with
      | succ up =>
        refine ⟨⟨h1, ?_⟩, trivial⟩
        try dsimp only
        rw [show up + g + down = up + 1 + g + down - 1 by omega]; exact key
      | zero =>
        cases g with
        | succ g =>
          refine ⟨⟨h1, ?_⟩, trivial⟩
          try dsimp only
          rw [show 0 + g + down = 0 + (g + 1) + down - 1 by omega]; exact key
        | zero =>
          cases down with
          | succ down =>
            refine ⟨⟨h1, ?_⟩, trivial⟩
            try dsimp only
            rw [show 0 + 0 + down = 0 + 0 + (down + 1) - 1 by omega]; exact key
          | zero => omega

/-- The first step of an unbounded run. -/
theorem planRoom_begin {f : Figures} {w : Bool} {d F : Nat} (m : Motor) (c : Nat) (o : Owner) (req : Nat) (hm : m.atRest = true)
    (hF : f.margin + 1 ≤ F) (hw : w = false) : planRoom f w d F (m.beginRun c o false req f.slewUse none) := by
  unfold planRoom Motor.beginRun
  refine ⟨rfl, ?_, ?_, hF, hw⟩
  · show m.state ≠ .decel
    intro x
    simp [Motor.atRest, x] at hm
  · show 0 + min f.slewUse (c - 1) ≤ f.slewUse
    omega

theorem stepDue_begin (m : Motor) (c : Nat) (o : Owner) (req use : Nat) : (m.beginRun c o false req use none).stepDue = true := by
  simp [Motor.beginRun, Motor.stepDue, Plan.owed]

/-- A boundary's step, the stop decided at it first (R125, R126). -/
theorem planRoom_boundary {k mm rh F : Nat} {m : Motor} {first : Bool} (ramp : List Byte) (n q : Nat) (hm : 1 ≤ mm)
    (hq : q = if m.rampIndex = k then stopSpan mm k * mm - k else 0) (hs : m.stepDue = true)
    (h : planRoom (figuresOf k mm rh) false 1 F m) (hf : first = true → (figuresOf k mm rh).margin + 2 ≤ F) (hu : first = false → m.unended) :
    planRoom (figuresOf k mm rh) false mm (F - 1)
      ((if (!first && decide (F - 1 ≤ (figuresOf k mm rh).margin) && !m.stopping) = true then m.stop q else m).issue ramp n) ∧
    ((if (!first && decide (F - 1 ≤ (figuresOf k mm rh).margin) && !m.stopping) = true then m.stop q else m).issue ramp n).unended := by
  have hmar : (figuresOf k mm rh).margin = stopSpan mm k - 1 := rfl
  have hfm : (figuresOf k mm rh).m = mm := rfl
  have hsl : (figuresOf k mm rh).slewUse = k := rfl
  have sp := span_pos mm k
  have sg := span_ge (k := k) hm
  have h0 := h
  unfold planRoom at h
  cases hp : m.plan with
  | idle => unfold Motor.stepDue at hs; rw [hp] at hs; simp [Plan.owed] at hs
  | burst l i => rw [hp] at h; exact h.elim
  | run rev up fl down st =>
    rw [hp] at h
    cases fl with
    | some g =>
      obtain ⟨h1, h2⟩ := h
      subst h1
      have ns : m.stopping = true := by unfold Motor.stopping; rw [hp]; rfl
      rw [ns]
      simp only [Bool.not_true, Bool.and_false, Bool.false_eq_true, if_false]
      have hr : 1 ≤ up + g + down := by
        unfold Motor.stepDue at hs
        rw [hp] at hs
        simp only [Plan.owed, ne_eq, Option.some.injEq, decide_eq_true_eq] at hs
        omega
      have key : linesWithin (figuresOf k mm rh).m mm (up + g + down - 1) ≤ F - 1 := linesWithin_boundary hm hr h2
      unfold Motor.issue planRoom Motor.unended
      rw [hp]
      cases up with
      | succ up =>
        refine ⟨⟨rfl, ?_⟩, trivial⟩
        try dsimp only
        rw [show up + g + down = up + 1 + g + down - 1 by omega]; exact key
      | zero =>
        cases g with
        | succ g =>
          refine ⟨⟨rfl, ?_⟩, trivial⟩
          try dsimp only
          rw [show 0 + g + down = 0 + (g + 1) + down - 1 by omega]; exact key
        | zero =>
          cases down with
          | succ down =>
            refine ⟨⟨rfl, ?_⟩, trivial⟩
            try dsimp only
            rw [show 0 + 0 + down = 0 + 0 + (down + 1) - 1 by omega]; exact key
          | zero => omega
    | none =>
      obtain ⟨h1, h2, h3, h4, h5⟩ := h
      subst h1
      have ns : m.stopping = false := by unfold Motor.stopping; rw [hp]; simpa using h2
      rw [ns]
      simp only [Bool.not_false, Bool.and_true]
      by_cases hx : (!first && decide (F - 1 ≤ (figuresOf k mm rh).margin)) = true
      · rw [if_pos hx]
        have hst := hu (by revert hx; cases first <;> simp)
        unfold Motor.unended at hst
        rw [hp] at hst
        have st : m.stop q = { m with plan := .run rev (min up q) (some (q - min up q)) (m.rampIndex + min up q) true } := by
          unfold Motor.stop
          rw [hp]
          exact if_pos ⟨hst, rfl⟩
        rw [st]
        rw [hsl] at h3
        by_cases hk : m.rampIndex = k
        · rw [if_pos hk] at hq
          have u0 : up = 0 := by omega
          subst u0
          have tot : q + k = stopSpan mm k * mm := by omega
          have key := linesWithin_slew (m := mm) hm sp
          have pos : 1 ≤ stopSpan mm k * mm := Nat.mul_pos sp hm
          unfold Motor.issue planRoom Motor.unended
          simp only [Nat.zero_min, Nat.sub_zero, Nat.add_zero]
          cases q with
          | succ q =>
            refine ⟨⟨rfl, ?_⟩, trivial⟩
            try dsimp only
            rw [hfm, hk, show 0 + q + k = stopSpan mm k * mm - 1 by omega]
            omega
          | zero =>
            cases hd : m.rampIndex with
            | zero => omega
            | succ i =>
              refine ⟨⟨rfl, ?_⟩, trivial⟩
              try dsimp only
              rw [hfm, show 0 + 0 + i = stopSpan mm k * mm - 1 by omega]
              omega
        · rw [if_neg hk] at hq
          subst hq
          have key := linesWithin_accel (m := mm) (k := k) (i := m.rampIndex) hm (by omega)
          unfold Motor.issue planRoom Motor.unended
          simp only [Nat.min_zero, Nat.sub_zero, Nat.add_zero]
          cases hd : m.rampIndex with
          | zero =>
            refine ⟨⟨rfl, ?_⟩, trivial⟩
            show linesWithin mm mm (0 + 0 + 0) ≤ F - 1
            unfold linesWithin
            rw [if_pos (by omega)]
            exact Nat.zero_le _
          | succ i =>
            refine ⟨⟨rfl, ?_⟩, trivial⟩
            try dsimp only
            rw [hd] at key
            rw [hfm, show 0 + 0 + i = i + 1 - 1 by omega]
            omega
      · rw [if_neg hx]
        have big : (figuresOf k mm rh).margin + 1 ≤ F - 1 := by
          cases first
          · simp only [Bool.not_false, Bool.true_and, decide_eq_true_eq] at hx
            omega
          · have := hf rfl
            omega
        have := planRoom_issue (f := figuresOf k mm rh) (w := false) (d := 1) (F := F - 1) ramp n (le_refl _) hs (by
          unfold planRoom
          rw [hp]
          exact ⟨rfl, h2, h3, big, rfl⟩)
        exact ⟨planRoom_mono (Nat.zero_le _) (le_refl _) this.1, this.2⟩

/-- The stop of a closing boundary that finds no room (R130). -/
theorem planRoom_close {k mm rh d F : Nat} {m : Motor} (hm : 1 ≤ mm) (hd : mm ≤ d) (h : planRoom (figuresOf k mm rh) false mm F m)
    (hu : m.unended) : planRoom (figuresOf k mm rh) true d F (m.stop 0) ∧ (m.stop 0).unended := by
  unfold planRoom at h
  unfold Motor.unended at hu
  cases hp : m.plan with
  | idle => unfold Motor.stop planRoom Motor.unended; simp only [hp]; exact ⟨trivial, trivial⟩
  | burst l i => rw [hp] at h; exact h.elim
  | run rev up fl down st =>
    rw [hp] at h hu
    cases fl with
    | some g =>
      obtain ⟨h1, h2⟩ := h
      subst h1
      have : m.stop 0 = m := by unfold Motor.stop; rw [hp]
      rw [this]
      unfold planRoom Motor.unended
      rw [hp]
      exact ⟨⟨by trivial, le_trans (linesWithin_anti hd) h2⟩, trivial⟩
    | none =>
      obtain ⟨h1, h2, h3, h4, h5⟩ := h
      subst h1
      have : m.stop 0 = { m with plan := .run rev (min up 0) (some (0 - min up 0)) (m.rampIndex + min up 0) true } := by
        unfold Motor.stop
        rw [hp]
        exact if_pos ⟨hu, rfl⟩
      rw [this]
      unfold planRoom Motor.unended
      simp only [Nat.min_zero, Nat.sub_zero, Nat.add_zero]
      refine ⟨⟨trivial, ?_⟩, trivial⟩
      have sl : (figuresOf k mm rh).slewUse = k := rfl
      have mr : (figuresOf k mm rh).margin = stopSpan mm k - 1 := rfl
      have sp := span_pos mm k
      have := linesWithin_close (m := mm) (k := k) (i := 0 + m.rampIndex) (d := d) hm hd (by omega)
      show linesWithin mm d (0 + m.rampIndex) ≤ F
      omega

/-! ## The scan's own operations -/

/-- No line is to come: no job, or one past its lines. -/
def Past (s : State) : Prop := ∀ j, s.scanJob = some j → j.feeds = false

theorem past_away {s t : State} (h : Past s) (k : Away s t) : Past t := by
  intro j x
  obtain ⟨i, y, z⟩ := job_same k.job x
  have := h i y
  rw [z]; exact this

theorem past_next {s : State} (p : Past s) {j : ScanJob} (x : s.scanJob = some j) (y : j.phase = .lead ∨ j.phase = .capture) : False := by
  have := p j x
  unfold ScanJob.feeds at this
  rcases y with y | y <;> rw [y] at this <;> cases this

theorem past_ring {s : State} (h : RingBase s) (p : Past s)
    (w : s.scanCd.dirWait ≠ none → ∃ j, s.scanJob = some j ∧ j.phase = .dirwait) : RingSound s :=
  ⟨h, w, fun _ x y => (past_next p x y).elim, fun j x _ f => by rw [p j x] at f; cases f⟩

/-- The channel changed. -/
theorem base_motS {s : State} (h : RingBase s) (m : Motor) : RingBase { s with motS := m } :=
  ⟨h.one, h.idle, h.fig, h.bound⟩

theorem ring_empty {s : State} (h : RingBase s) (p : Past s)
    (w : s.scanCd.dirWait ≠ none → ∃ j, s.scanJob = some j ∧ j.phase = .dirwait) : RingSound (emptyScanRing s) :=
  ring_emptied rfl rfl rfl (fun j x => ⟨p j x, h.fig j x⟩) w

/-- A job past its lines. -/
theorem base_past {s : State} (h : RingBase s) {j k : ScanJob} (hj : s.scanJob = some j) (f : k.fig = j.fig)
    (q : k.slewReq = j.slewReq) (r : k.res = j.res) (p : k.feeds = false) :
    RingBase { s with scanJob := some k } ∧ Past { s with scanJob := some k } := by
  have pp : Past { s with scanJob := some k } := fun i x => by cases x; exact p
  refine ⟨⟨h.one, (fun x => by cases x), ?_, ?_⟩, pp⟩
  · intro i x
    cases x
    rw [f, q, r]; exact h.fig j hj
  · intro i x w
    cases x
    refine h.bound j hj ?_
    unfold ScanJob.roomy at w ⊢
    rw [← q, ← r]; exact w

theorem away_releasePlace (s : State) : Away s (releasePlace s) := away_mapDir ..

theorem ring_scanDecision {s : State} (h : RingBase s) (r : Nat) (w : ScanSettle) (d : Option Nat) (x : s.scanJob ≠ none) :
    RingSound (scanDecision r w d s) := by
  unfold scanDecision
  split
  · next y => exact absurd y x
  · next j hj =>
    dsimp only
    obtain ⟨b, p⟩ := base_past (k := { j with phase := .ending, pause := false, awaitRun := false, endReason := r, docHeld := d.map fun r => (r, if w = .leave then 0 else s.scanCd.page.getD 0) }) h hj rfl rfl rfl rfl
    generalize ({ s with scanJob := some { j with phase := .ending, pause := false, awaitRun := false, endReason := r, docHeld := d.map fun r => (r, if w = .leave then 0 else s.scanCd.page.getD 0) } } : State) = u at *
    have a : Away u (endDirwait .scan (releasePlace (settleScanPages w j.policy u))) :=
      ((away_settleScanPages ..).trans (away_releasePlace _)).trans (away_endDirwait ..)
    have b2 := base_away b a
    have p2 := past_away p a
    have n : (endDirwait .scan (releasePlace (settleScanPages w j.policy u))).scanCd.dirWait = none := rfl
    have w2 : (endDirwait .scan (releasePlace (settleScanPages w j.policy u))).scanCd.dirWait ≠ none → ∃ j',
      (endDirwait .scan (releasePlace (settleScanPages w j.policy u))).scanJob = some j' ∧ j'.phase = .dirwait := fun x => absurd n x
    clear n
    generalize endDirwait .scan (releasePlace (settleScanPages w j.policy u)) = v at *
    split
    · exact past_ring (base_motS b2 _) p2 w2
    · exact past_ring (base_motS (ring_empty b2 p2 w2).toRingBase _) p2 w2

theorem ring_scanDecision' {s : State} (h : RingSound s) (r : Nat) (w : ScanSettle) (d : Option Nat) :
    RingSound (scanDecision r w d s) := by
  by_cases x : s.scanJob = none
  · unfold scanDecision; rw [x]; exact h
  · exact ring_scanDecision h.toRingBase r w d x

theorem ring_scanFaulted {s : State} (h : RingSound s) : RingSound (scanFaulted s) := by
  unfold scanFaulted
  split
  · exact h
  · next j hj =>
    split
    · next e =>
      have p : Past s := fun i x => by
        rw [hj] at x; cases x
        unfold ScanJob.feeds; rw [e]
      have a := away_settleScanPages .policy j.policy s
      refine ring_empty (base_away h.toRingBase a) (past_away p a) fun x => absurd (a.wait ?_) x
      by_contra y
      obtain ⟨i, hi, z⟩ := h.waits y
      rw [hj] at hi; cases hi
      rw [e] at z; cases z
    · exact ring_scanDecision' h ..

theorem ring_endScan {s : State} (j : ScanJob) (wn : s.scanCd.dirWait = none) : RingSound (endScan j s) := by
  unfold endScan
  dsimp only
  have b : ∀ (f : ScanFront) (m : Motor), f.comp = none →
      RingSound { (emptyScanRing s) with scanJob := none, front := f, motS := m } := by
    intro f m c
    exact ring_emptied rfl rfl c (fun j x => by cases x) (fun x => absurd wn x)
  split
  · exact ring_away (b _ _ rfl) (away_raise ..)
  · exact ring_away (b _ _ rfl) ((away_raise ..).trans (away_raise ..))

theorem ring_settleScanEnd {s : State} (h : RingSound s) : RingSound (settleScanEnd s) := by
  unfold settleScanEnd
  split
  · exact h
  · next j hj =>
    split
    · next hd =>
      refine ring_endScan _ ?_
      by_contra x
      obtain ⟨i, hi, z⟩ := h.waits x
      rw [hj] at hi; cases hi
      unfold scanEndDue at hd
      rw [z] at hd; cases hd
    · exact h

/-! ## A step of the run -/

theorem steps_pos (r : Resolution) : 1 ≤ r.steps := by cases r <;> decide

theorem issue_owner (m : Motor) (ramp : List Byte) (n : Nat) : (m.issue ramp n).owner = m.owner := by
  unfold Motor.issue; split <;> rfl

theorem stop_owner (m : Motor) (q : Nat) : (m.stop q).owner = m.owner := by
  unfold Motor.stop
  split
  · split <;> rfl
  all_goals rfl

/-- The room a step that falls due finds, the next boundary `d` steps on. -/
def Due (j : ScanJob) (d : Nat) (w : Bool) (s : State) : Prop :=
  j.roomy s → s.motS.owner = .scan → s.motS.stepDue = true ∧ planRoom j.fig w d (scanFree s) s.motS

/-- The room a step leaves, the next boundary `d` steps on. -/
def Given (j : ScanJob) (d : Nat) (w : Bool) (s : State) : Prop :=
  j.roomy s → s.motS.owner = .scan → planRoom j.fig w d (scanFree s) s.motS ∧ s.motS.unended

theorem given_issue {j : ScanJob} {d : Nat} {w : Bool} {s : State} (h : Due j d w s) (hd : 1 ≤ d) :
    Given j (d - 1) w (issueStep .S s) := by
  intro r o
  obtain ⟨sd, p⟩ := h r ((issue_owner ..).symm.trans o)
  exact planRoom_issue _ _ hd sd p

theorem ring_given {j : ScanJob} {d : Nat} {w : Bool} {s : State} (h : RingBase s) (hj : s.scanJob = some j)
    (nx : j.phase = .lead ∨ j.phase = .capture → j.stepCount < setLead s + 1 + j.y * j.fig.m)
    (hd : d ≤ j.toBoundary (setLead s)) (hw : decide (j.phase = .dirwait) = w) (g : Given j d w s)
    (wt : s.scanCd.dirWait ≠ none → j.phase = .dirwait) : RingSound s := by
  refine ⟨h, fun x => ⟨j, hj, wt x⟩, ?_, ?_⟩
  · intro i x; rw [hj] at x; cases x; exact nx
  · intro i x r _ _ o
    rw [hj] at x; cases x
    obtain ⟨p, u⟩ := g r o
    rw [runRoom_iff, hw]
    exact ⟨planRoom_mono hd (le_refl _) p, u⟩

/-- The job changed, its figures standing. -/
theorem base_job {s : State} (h : RingBase s) {j k : ScanJob} (hj : s.scanJob = some j) (f : k.fig = j.fig := by rfl)
    (q : k.slewReq = j.slewReq := by rfl) (r : k.res = j.res := by rfl) : RingBase { s with scanJob := some k } := by
  refine ⟨h.one, (fun x => by cases x), ?_, ?_⟩
  · intro i x
    cases x
    rw [f, q, r]; exact h.fig j hj
  · intro i x w
    cases x
    refine h.bound j hj ?_
    unfold ScanJob.roomy at w ⊢
    rw [← q, ← r]; exact w

theorem RingBase.steps {s : State} (h : RingBase s) {j : ScanJob} (hj : s.scanJob = some j) : j.fig.m = j.res.steps := by
  obtain ⟨k, _, e⟩ := h.fig j hj
  rw [e]; rfl

theorem ring_leadingEdge {s : State} {j : ScanJob} (h : RingBase s) (hj : s.scanJob = some j) (g : Given j (setLead s + 1) false s)
    (wn : s.scanCd.dirWait = none) :
    RingSound (leadingEdge s) := by
  unfold leadingEdge
  rw [hj]
  dsimp only
  have b : RingBase (createEntry j.purpose j.res .scan (releasePlace s)) :=
    base_away h ((away_releasePlace s).trans (away_mapDir ..))
  have e : (createEntry j.purpose j.res .scan (releasePlace s)).scanJob = some j := hj
  refine ring_given (d := setLead s + 1) (w := false) (base_job b e) rfl ?_ ?_ rfl g (fun x => absurd wn x)
  · intro _
    show 0 < setLead s + 1 + 0 * _
    omega
  · show setLead s + 1 ≤ setLead s + 1 + 0 * _ - 0
    omega

theorem ring_scanJam {s : State} (h : RingBase s) (p r : Nat) (x : s.scanJob ≠ none) : RingSound (scanJam p r s) := by
  unfold scanJam
  have b := base_away h (away_raise evJam p 1 r s)
  refine ring_scanDecision (base_motS b _) 3 .policy none ?_
  intro y
  have e : (raise evJam p 1 r s).scanJob = s.scanJob := rfl
  exact x (e.symm.trans y)

theorem ring_searchStep {s : State} {j : ScanJob} (h : RingBase s) (hj : s.scanJob = some j) (hp : j.phase = .search)
    (g : Due j (setLead s + 2) false s) (wn : s.scanCd.dirWait = none) : RingSound (searchStep j s) := by
  unfold searchStep
  have b : RingBase (issueStep .S { s with scanJob := some { j with searchCount := j.searchCount + 1 } }) :=
    base_motS (base_job h hj) _
  have gv : Given { j with searchCount := j.searchCount + 1 } (setLead s + 2 - 1) false
      (issueStep .S { s with scanJob := some { j with searchCount := j.searchCount + 1 } }) :=
    given_issue (fun r o => g r o) (by omega)
  dsimp only
  split
  · exact ring_leadingEdge b rfl gv wn
  · split
    · refine ring_scanJam b _ _ ?_
      show some _ ≠ none
      simp
    · refine ring_given b rfl ?_ ?_ ?_ gv (fun x => absurd wn x)
      · rintro (y | y) <;> (have y : j.phase = _ := y; rw [hp] at y; cases y)
      · unfold ScanJob.toBoundary
        show _ ≤ (match j.phase with | .lead | .capture => _ | .search | .dirwait | .runout | .ending => _)
        rw [hp]
        show setLead s + 2 - 1 ≤ setLead s + 2
        omega
      · show decide (j.phase = .dirwait) = false
        rw [hp]; rfl

theorem planRoom_slot {f : Figures} {w : Bool} {F : Nat} {m : Motor} (h : planRoom f w 1 F m) (sd : m.stepDue = true) : 1 ≤ F := by
  unfold planRoom at h
  unfold Motor.stepDue at sd
  split at h
  · next x => rw [x] at sd; simp [Plan.owed] at sd
  · omega
  · next u g d st x =>
    rw [x] at sd
    simp only [Plan.owed, ne_eq, Option.some.injEq, decide_eq_true_eq] at sd
    have := h.2
    unfold linesWithin at this
    rw [if_neg (by omega)] at this
    exact le_trans (Nat.le_add_left 1 _) this
  · exact h.elim

/-- What a page's tables leave: channel S, the job, the line in course, the rings, the settings. -/
def SameRun (t s : State) : Prop :=
  t.motS = s.motS ∧ t.scanJob = s.scanJob ∧ t.front.comp = s.front.comp ∧ t.rings = s.rings ∧ t.scanCd = s.scanCd
    ∧ t.tables.active[(0 : Fin 14)] = s.tables.active[(0 : Fin 14)]

theorem sameRun_setActive (i : Fin 14) (img : List Byte) (u : State) (h0 : i ≠ 0) (h1 : i ≠ tSphase) : SameRun (setActive i img u) u := by
  have a : (u.tables.active.set i (some img))[(0 : Fin 14)] = u.tables.active[(0 : Fin 14)] := by
    have : i.val ≠ 0 := fun z => h0 (Fin.ext z)
    simp [Fin.getElem_fin, Vector.getElem_set_ne _ _ this]
  unfold setActive
  dsimp only
  split
  · exact ⟨rfl, rfl, rfl, rfl, rfl, a⟩
  · split
    · exact ⟨rfl, rfl, rfl, rfl, rfl, a⟩
    · exact ⟨rfl, rfl, rfl, rfl, rfl, a⟩

theorem sameRun_applyPending (i : Fin 14) (u : State) (h0 : i ≠ 0) (h1 : i ≠ tSphase) : SameRun (applyPending i u) u := by
  unfold applyPending
  split
  · exact ⟨rfl, rfl, rfl, rfl, rfl, rfl⟩
  · exact sameRun_setActive i _ u h0 h1

theorem pageStart_same (s : State) : SameRun (pageStart s) s := by
  have all : ∀ (is : List (Fin 14)), (∀ i ∈ is, i ≠ 0 ∧ i ≠ tSphase) → ∀ u : State, SameRun (applyAll is u) u := by
    intro is
    unfold applyAll
    induction is with
    | nil => exact fun _ _ => ⟨rfl, rfl, rfl, rfl, rfl, rfl⟩
    | cons i is ih =>
      intro h u
      obtain ⟨a1, a2, a3, a4, a6, a5⟩ := sameRun_applyPending i u (h i (by simp)).1 (h i (by simp)).2
      obtain ⟨b1, b2, b3, b4, b6, b5⟩ := ih (fun j hj => h j (by simp [hj])) (applyPending i u)
      exact ⟨b1.trans a1, b2.trans a2, b3.trans a3, b4.trans a4, b6.trans a6, b5.trans a5⟩
  obtain ⟨a1, a2, a3, a4, a6, a5⟩ := all scanTables (by decide) s
  unfold pageStart
  generalize applyAll scanTables s = u at *
  exact ⟨a1, a2, a3, a4, a6, a5⟩

theorem ring_closingBoundary {s : State} {j : ScanJob} (h : RingBase s) (hj : s.scanJob = some j)
    (g : Given j j.fig.m false s) (wn : s.scanCd.dirWait = none) : RingSound (closingBoundary s) := by
  unfold closingBoundary
  rw [hj]
  dsimp only
  have hm := h.steps hj
  split
  · split
    · refine ring_given (d := setLead s + 2) (w := false) (base_away (base_job (k := { j with phase := .search, searchCount := 0 }) h hj)
        (away_mapDir (fun d => { d with places := d.places + 1 }) _)) rfl ?_ ?_ rfl ?_ (fun x => absurd wn x)
      · rintro (y | y) <;> cases y
      · exact le_refl _
      · intro r o
        obtain ⟨p, u⟩ := g r o
        have : j.fig.m ≤ setLead s + 2 := by rw [hm]; exact r.2.2
        exact ⟨planRoom_mono this (le_refl _) p, u⟩
    · unfold enterDirwait
      have b : RingBase { s with scanJob := some { j with phase := .dirwait }, motS := s.motS.stop 0 } :=
        base_motS (base_job h hj) _
      have rs : RingSound { s with scanJob := some { j with phase := .dirwait }, motS := s.motS.stop 0 } := by
        refine ring_given (d := setLead s + 2) (w := true) b rfl ?_ ?_ rfl ?_ (fun _ => rfl)
        · rintro (y | y) <;> cases y
        · exact le_refl _
        · intro r o
          obtain ⟨p, u⟩ := g r ((stop_owner ..).symm.trans o)
          obtain ⟨k, _, e⟩ := h.fig j hj
          have : j.fig.m ≤ setLead s + 2 := by rw [hm]; exact r.2.2
          have e2 : j.fig.m = j.res.steps := hm
          rw [e2] at p this
          rw [e] at p
          show planRoom j.fig true _ _ _ ∧ _
          rw [e]
          exact planRoom_close (steps_pos _) this p u
      have rw' : RingSound (mapCoder .scan (fun c => { c with dirWait := some (setMemWait { s with scanJob := some { j with phase := .dirwait }, motS := s.motS.stop 0 }) })
          { s with scanJob := some { j with phase := .dirwait }, motS := s.motS.stop 0 }) :=
        ⟨⟨rs.one, rs.idle, rs.fig, rs.bound⟩, (fun _ => ⟨_, rfl, rfl⟩), rs.next, rs.room⟩
      exact ring_away rw' (away_raise ..)
  · obtain ⟨b, p⟩ := base_past (k := { j with phase := .runout }) h hj rfl rfl rfl rfl
    exact past_ring (base_motS b _) p (fun x => absurd wn x)

theorem ring_boundaryStep {s : State} {j : ScanJob} (first : Bool) (h : RingBase s) (hj : s.scanJob = some j)
    (co : s.front.comp = none) (hn : j.stepCount = setLead s + 1 + j.y * j.fig.m) (g : Due j 1 false s)
    (gf : j.roomy s → s.motS.owner = .scan → (first = true → j.fig.margin + 2 ≤ scanFree s) ∧ (first = false → s.motS.unended))
    (ow : j.roomy s → s.motS.owner = .scan) (wn : s.scanCd.dirWait = none) : RingSound (boundaryStep first j s) := by
  unfold boundaryStep
  split
  · exact ring_scanJam h _ _ (by rw [hj]; simp)
  · extract_lets s1 s2 last stop s3 s4 f5 s5
    have k1 : RingBase s1 ∧ s1.motS = s.motS ∧ s1.scanJob = some j ∧ s1.front.comp = none ∧ s1.rings = s.rings ∧ s1.scanCd = s.scanCd ∧
        s1.tables.active[(0 : Fin 14)] = s.tables.active[(0 : Fin 14)] := by
      simp only [s1]
      split
      · obtain ⟨a1, a2, a3, a4, a6, a5⟩ := pageStart_same s
        refine ⟨base_away h ?_, a1, a2.trans hj, a3.trans co, a4, a6, a5⟩
        exact away_plain (by rw [a4]) (by rw [a4]) a3 a2 a1 a5 (by rw [a6])
      · exact ⟨h, rfl, hj, co, rfl, rfl, rfl⟩
    obtain ⟨b1, m1, j1, c1, r1, d1, t1⟩ := k1
    obtain ⟨l1, rh1⟩ := settings_same t1
    have F1 : scanFree s1 = scanFree s := by unfold scanFree; rw [r1]
    clear_value s1
    have ro1 : j.roomy s1 ↔ j.roomy s := by unfold ScanJob.roomy; rw [l1, rh1]
    have F2 : scanFree s2 = scanFree s - 1 := by
      rw [← F1]
      show Config.scanRingSlots - s1.rings.scan.occ - (s1.rings.scanReserved + 1) = Config.scanRingSlots - s1.rings.scan.occ - s1.rings.scanReserved - 1
      omega
    have res1 : s1.rings.scanReserved = 0 := by have := b1.one; rw [c1] at this; exact this
    obtain ⟨k, hk, e⟩ := h.fig j hj
    have em : j.fig.m = j.res.steps := h.steps hj
    -- the state after the step
    have mot3 : s3.motS = if stop = true then s.motS.stop (boundaryStop j s.motS) else s.motS := by
      simp only [s3]
      split
      · show s1.motS.stop (boundaryStop j s1.motS) = _
        rw [m1]
      · exact m1
    have st : stop = (!first && decide (scanFree s - 1 ≤ j.fig.margin) && !s.motS.stopping) := by
      simp only [stop]
      rw [F2]
      show (!first && decide _ && !s1.motS.stopping) = _
      rw [m1]
    have rest3 : s3.rings = s2.rings ∧ s3.tables = s1.tables ∧ s3.scanCd = s1.scanCd := by
      simp only [s3]; split <;> exact ⟨rfl, rfl, rfl⟩
    have w5 : s5.scanCd.dirWait = none := by
      show s3.scanCd.dirWait = none
      rw [rest3.2.2, d1]; exact wn
    have mot5 : s5.motS = s3.motS.issue (rampTable .S s3) (phaseCount (phaseTable .S s3)) := rfl
    have r5 : s5.rings = s2.rings := rest3.1
    have t5 : s5.tables = s1.tables := rest3.2.1
    have l5 : setLead s5 = setLead s := by rw [← l1]; unfold setLead settingsImage; rw [t5]
    have rh5 : setRh s5 = setRh s := by rw [← rh1]; unfold setRh settingsImage; rw [t5]
    have F5 : scanFree s5 = scanFree s - 1 := by rw [← F2]; unfold scanFree; rw [r5]
    have bd : j.roomy s → s.rings.scan.occ + s.rings.scanReserved + 1 ≤ Config.scanRingSlots := by
      intro r
      obtain ⟨sd, p⟩ := g r (ow r)
      have := planRoom_slot p sd
      unfold scanFree at this
      omega
    have b5 : RingBase s5 := by
      refine ⟨?_, (fun x => by cases x), ?_, ?_⟩
      · rw [r5]
        show s1.rings.scanReserved + 1 = 1
        rw [res1]
      · intro i x
        cases x
        exact ⟨k, hk, by rw [rh5]; exact e⟩
      · intro i x r
        cases x
        have r0 : j.roomy s := by
          unfold ScanJob.roomy at r ⊢
          rw [l5, rh5] at r; exact r
        have := bd r0
        rw [r5]
        show s1.rings.scan.occ + (s1.rings.scanReserved + 1) ≤ _
        rw [r1]; omega
    have g5 : Given { j with phase := .capture, y := j.y + 1, pause := j.pause || stop } j.fig.m false s5 := by
      intro r o
      have r0 : j.roomy s := by
        unfold ScanJob.roomy at r ⊢
        rw [l5, rh5] at r; exact r
      obtain ⟨sd, p⟩ := g r0 (ow r0)
      obtain ⟨gf1, gf2⟩ := gf r0 (ow r0)
      show planRoom j.fig false j.fig.m (scanFree s5) s5.motS ∧ s5.motS.unended
      rw [F5, mot5, mot3, st, em]
      rw [e] at p gf1 ⊢
      refine planRoom_boundary _ _ (boundaryStop j s.motS) (steps_pos _) ?_ sd p gf1 gf2
      unfold boundaryStop
      rw [e]; rfl
    have j5 : s5.scanJob = some { j with phase := .capture, y := j.y + 1, pause := j.pause || stop } := rfl
    clear_value s5
    split
    · exact ring_closingBoundary b5 j5 g5 w5
    · refine ring_given b5 j5 ?_ ?_ rfl g5 (fun x => absurd w5 x)
      · intro _
        show j.stepCount < setLead s5 + 1 + (j.y + 1) * j.fig.m
        have := steps_pos j.res
        rw [l5, hn, Nat.add_mul, Nat.one_mul]
        omega
      · show j.fig.m ≤ setLead s5 + 1 + (j.y + 1) * j.fig.m - j.stepCount
        rw [l5, hn, Nat.add_mul, Nat.one_mul]
        omega

/-- No job waits for a place but in the directory wait. -/
theorem RingSound.noWait {s : State} (h : RingSound s) {j : ScanJob} (hj : s.scanJob = some j) (hp : j.phase ≠ .dirwait) :
    s.scanCd.dirWait = none := by
  by_contra x
  obtain ⟨i, hi, z⟩ := h.waits x
  rw [hj] at hi; cases hi
  exact hp z

theorem RingSound.noneWaits {s : State} (h : RingSound s) (hj : s.scanJob = none) : s.scanCd.dirWait = none := by
  by_contra x
  obtain ⟨i, hi, _⟩ := h.waits x
  rw [hj] at hi; cases hi

/-- What stands where a step falls due under the scan's job. -/
structure StepsNow (first : Bool) (s : State) : Prop where
  shut  : lineOpen s = false
  owner : s.motS.owner = .scan
  due   : ∀ j, s.scanJob = some j → j.feeds = true → Due j (j.toBoundary (setLead s)) (decide (j.phase = .dirwait)) s
  begun : ∀ j, s.scanJob = some j → j.phase = .lead ∨ j.phase = .capture → j.roomy s →
    (first = true → j.fig.margin + 2 ≤ scanFree s) ∧ (first = false → s.motS.unended)

theorem ring_pageStep {s : State} {j : ScanJob} {first : Bool} (h : RingSound s) (k : StepsNow first s) (hj : s.scanJob = some j)
    (hp : j.phase = .lead ∨ j.phase = .capture) : RingSound (pageStep first j s) := by
  have nx := h.next j hj hp
  have nd : j.phase ≠ .dirwait := by rcases hp with x | x <;> rw [x] <;> decide
  have wn := h.noWait hj nd
  have fd : j.feeds = true := by unfold ScanJob.feeds; rcases hp with x | x <;> rw [x]
  have tb : j.toBoundary (setLead s) = setLead s + 1 + j.y * j.fig.m - j.stepCount := by
    unfold ScanJob.toBoundary; rcases hp with x | x <;> rw [x]
  have du := k.due j hj fd
  rw [tb, decide_eq_false nd] at du
  unfold pageStep
  extract_lets n j1 s1
  have b1 : RingBase s1 := base_job h.toRingBase hj
  have tb1 : j1.toBoundary (setLead s) = setLead s + 1 + j.y * j.fig.m - (j.stepCount + 1) := by
    show (match j.phase with | .lead | .capture => _ | .search | .dirwait | .runout | .ending => _) = _
    rcases hp with x | x <;> rw [x]
  split
  · next hn =>
    have hn : j.stepCount + 1 = setLead s + 1 + j.y * j.fig.m := hn
    refine ring_boundaryStep first b1 rfl ?_ hn ?_ (fun r _ => k.begun j hj hp r) (fun _ => k.owner) wn
    · have sh := k.shut
      unfold lineOpen at sh
      rw [hj] at sh
      have bn : boundaryNext j s = true := by
        unfold boundaryNext
        rcases hp with x | x <;> rw [x] <;> simp [hn]
      simp only [Option.any_some, bn, Bool.and_true] at sh
      show s.front.comp = none
      cases x : s.front.comp
      · rfl
      · rw [x] at sh; cases sh
    · intro r o
      have d := du r o
      rw [show setLead s + 1 + j.y * j.fig.m - j.stepCount = 1 by omega] at d
      exact d
  · next hn =>
    have hn : ¬ j.stepCount + 1 = setLead s + 1 + j.y * j.fig.m := hn
    have g : Given j1 (setLead s + 1 + j.y * j.fig.m - j.stepCount - 1) false (issueStep .S s1) :=
      given_issue (fun r o => du r o) (by omega)
    refine ring_given (base_motS b1 _) rfl ?_ ?_ (decide_eq_false nd) g (fun x => absurd wn x)
    · intro _
      show j.stepCount + 1 < setLead s + 1 + j.y * j.fig.m
      omega
    · show _ ≤ j1.toBoundary (setLead s)
      rw [tb1]; omega

theorem ring_scanStep {s : State} {first : Bool} (h : RingSound s) (k : StepsNow first s) : RingSound (scanStep first s) := by
  have still : ∀ j, s.scanJob = some j → j.feeds = false → RingSound (issueStep .S s) := by
    intro j hj hf
    refine past_ring (base_motS h.toRingBase _) (fun i x => ?_) h.waits
    have x : s.scanJob = some i := x
    rw [hj] at x; cases x; exact hf
  unfold scanStep
  split
  · next hj =>
    refine past_ring (base_motS h.toRingBase _) (fun i x => ?_) h.waits
    have x : s.scanJob = some i := x
    rw [hj] at x; cases x
  · next j hj =>
    have f : ∀ p, j.phase = p → j.feeds = (match p with | .search | .lead | .capture | .dirwait => true | .runout | .ending => false) := by
      rintro p rfl; rfl
    split
    · next hp =>
      refine ring_searchStep h.toRingBase hj hp ?_ (h.noWait hj (by rw [hp]; decide))
      have := k.due j hj (f _ hp)
      rw [show j.toBoundary (setLead s) = setLead s + 2 by unfold ScanJob.toBoundary; rw [hp],
        decide_eq_false (by rw [hp]; decide)] at this
      exact this
    · next hp => exact ring_pageStep h k hj (.inl hp)
    · next hp => exact ring_pageStep h k hj (.inr hp)
    · next hp =>
      have d := k.due j hj (f _ hp)
      have tb : j.toBoundary (setLead s) = setLead s + 2 := by unfold ScanJob.toBoundary; rw [hp]
      rw [tb] at d
      refine ring_given (d := setLead s + 2 - 1) (base_motS h.toRingBase _) hj ?_ ?_ rfl (given_issue d (by omega)) (fun _ => hp)
      · rintro (x | x) <;> rw [hp] at x <;> cases x
      · show _ ≤ j.toBoundary (setLead s)
        rw [tb]; omega
    · next hp => exact still j hj (f _ hp)
    · next hp => exact still j hj (f _ hp)

/-! ## Runs begun -/

/-- A job whose count of steps, phase and figures stand. -/
theorem ring_job {s : State} (h : RingSound s) {j k : ScanJob} (hj : s.scanJob = some j) (f : k.fig = j.fig := by rfl)
    (q : k.slewReq = j.slewReq := by rfl) (r : k.res = j.res := by rfl) (p : k.phase = j.phase := by rfl)
    (n : k.stepCount = j.stepCount := by rfl) (y : k.y = j.y := by rfl) : RingSound { s with scanJob := some k } := by
  have tb : k.toBoundary (setLead s) = j.toBoundary (setLead s) := by unfold ScanJob.toBoundary; rw [p, n, y, f]
  refine ⟨base_job h.toRingBase hj f q r, ?_, ?_, ?_⟩
  · intro w
    obtain ⟨i, hi, z⟩ := h.waits w
    rw [hj] at hi; cases hi
    exact ⟨k, rfl, p.trans z⟩
  · intro i x z
    cases x
    rw [p] at z
    rw [n, y, f]; exact h.next j hj z
  · intro i x w fd mv ow
    cases x
    have := h.room j hj (by unfold ScanJob.roomy at w ⊢; rw [← q, ← r]; exact w) (by unfold ScanJob.feeds at fd ⊢; rw [← p]; exact fd) mv ow
    rw [runRoom_iff] at this ⊢
    rw [f, p]
    show planRoom j.fig _ (k.toBoundary (setLead s)) _ _ ∧ _
    rw [tb]; exact this

theorem rest_still {m : Motor} (h : m.atRest = true) : m.moving = false := by
  unfold Motor.atRest at h
  unfold Motor.moving
  cases x : m.state <;> rw [x] at h <;> simp at h ⊢

theorem ring_startScanRun {s : State} {restart : Bool} (h : RingSound s) (hr : s.motS.atRest = true) (sh : lineOpen s = false)
    (hp : ∀ j, s.scanJob = some j → j.phase = .search ∨ (restart = true ∧ (j.phase = .lead ∨ j.phase = .capture)))
    (hF : ∀ j, s.scanJob = some j → j.roomy s → j.fig.margin + 2 ≤ scanFree s) : RingSound (startScanRun restart s) := by
  unfold startScanRun
  split
  · exact h
  · next j hj =>
    have st : (s.motS.beginRun (rampCount (rampTable .S s)) .scan false j.slewReq j.fig.slewUse none).moving = false := rest_still hr
    refine ring_scanStep (first := restart) (ring_away h ⟨le_refl _, rfl, rfl, rfl, .inl st, fun x => x, .inr rfl⟩) ⟨sh, rfl, ?_, ?_⟩
    · intro i hi _ r _
      have hi : s.scanJob = some i := hi
      rw [hj] at hi; cases hi
      refine ⟨stepDue_begin .., ?_⟩
      have hF := hF j hj r
      refine planRoom_begin _ _ _ _ hr ?_ (decide_eq_false ?_)
      · show j.fig.margin + 1 ≤ scanFree s
        omega
      · rcases hp j hj with x | ⟨_, x | x⟩ <;> rw [x] <;> decide
    · intro i hi ph r
      have hi : s.scanJob = some i := hi
      rw [hj] at hi; cases hi
      rcases hp j hj with x | ⟨x, _⟩
      · rcases ph with y | y <;> rw [x] at y <;> cases y
      · exact ⟨fun _ => hF j hj r, fun y => by rw [x] at y; cases y⟩

/-- The margin under settings that keep the law. -/
theorem roomy_margin {s : State} {j : ScanJob} (h : RingBase s) (hj : s.scanJob = some j) (r : j.roomy s) :
    j.fig.margin ≤ 14 ∧ j.fig.margin + 2 ≤ j.fig.restart := by
  obtain ⟨k, hk, e⟩ := h.fig j hj
  have m := steps_pos j.res
  obtain ⟨r1, r2, _⟩ := r
  have sp : stopSpan j.res.steps k ≤ 15 := by
    refine max_le (by omega) ?_
    unfold ceilDiv
    have : k + j.res.steps - 1 < 16 * j.res.steps := by omega
    have := (Nat.div_lt_iff_lt_mul (by omega : 0 < j.res.steps)).mpr this
    omega
  have pos := span_pos j.res.steps k
  rw [e]
  show stopSpan j.res.steps k - 1 ≤ 14 ∧ stopSpan j.res.steps k - 1 + 2 ≤ max 2 (stopSpan j.res.steps k - 1 + min (setRh s) (16 - (stopSpan j.res.steps k - 1)))
  omega

theorem ring_settleScanRestart {s : State} (h : RingSound s) : RingSound (settleScanRestart s) := by
  unfold settleScanRestart
  split
  · exact h
  · next j hj =>
    split
    · next hd =>
      unfold scanRestartDue at hd
      simp only [Bool.and_eq_true, Bool.or_eq_true, decide_eq_true_eq, Bool.not_eq_true'] at hd
      obtain ⟨⟨⟨⟨h1, h2⟩, h3⟩, h4⟩, h5⟩ := hd
      have hs : RingSound { s with scanJob := some { j with pause := false, awaitRun := false } } := ring_job h hj
      refine ring_startScanRun hs h3 ?_ ?_ ?_
      · unfold lineOpen at h5 ⊢
        rw [hj] at h5
        exact h5
      · intro i hi
        cases hi
        rcases h1 with (x | x) | x
        · exact .inl x
        · exact .inr ⟨rfl, .inl x⟩
        · exact .inr ⟨rfl, .inr x⟩
      · intro i hi r
        have hb := hs.toRingBase
        have := (roomy_margin hb hi r).2
        cases hi
        show j.fig.margin + 2 ≤ scanFree s
        have : j.fig.margin + 2 ≤ j.fig.restart := this
        omega
    · exact h

theorem scanFigures_of {res : Resolution} {want : Nat} {s : State} {f : Figures} (h : scanFigures res want s = some f) :
    ∃ k ≤ want, f = figuresOf k res.steps (setRh s) := by
  unfold scanFigures at h
  obtain ⟨k, hk, e⟩ := Option.map_eq_some_iff.mp h
  refine ⟨k, ?_, e.symm⟩
  unfold slewClamp at hk
  have := List.mem_of_getLast? hk
  simp only [List.mem_filter, List.mem_range] at this
  omega

theorem ring_beginScan {s : State} (h : RingSound s) (j : ScanJob) (hn : s.scanJob = none) (hr : s.motS.atRest = true)
    (hp : j.phase = .search) (hf : ∃ k ≤ j.slewReq, j.fig = figuresOf k j.res.steps (setRh s)) : RingSound (beginScan j s) := by
  unfold beginScan
  have wn := h.noneWaits hn
  obtain ⟨o, c⟩ := h.idle hn
  have res : s.rings.scanReserved = 0 := by have := h.one; rw [c] at this; exact this
  have b : RingSound { s with front := { s.front with lamp := true }, dir := { s.dir with places := s.dir.places + 1 }, scanJob := some j } := by
    refine ⟨⟨h.one, (fun x => by cases x), (fun i x => by cases x; exact hf), ?_⟩, fun x => absurd wn x, ?_, ?_⟩
    · intro i x _
      cases x
      show s.rings.scan.occ + s.rings.scanReserved ≤ _
      rw [o, res]; exact Nat.zero_le _
    · intro i x y
      cases x
      rcases y with y | y <;> rw [hp] at y <;> cases y
    · intro i x _ _ mv _
      have : s.motS.moving = false := rest_still hr
      rw [show ({ s with front := { s.front with lamp := true }, dir := { s.dir with places := s.dir.places + 1 }, scanJob := some j } : State).motS.moving = s.motS.moving from rfl, this] at mv
      cases mv
  refine ring_startScanRun b hr ?_ (fun i x => by cases x; exact .inl hp) ?_
  · unfold lineOpen
    show (s.front.comp.isSome && _) = false
    rw [c]; rfl
  · intro i x r
    have := (roomy_margin b.toRingBase x r).1
    unfold scanFree
    show i.fig.margin + 2 ≤ Config.scanRingSlots - s.rings.scan.occ - s.rings.scanReserved
    rw [o, res]
    show i.fig.margin + 2 ≤ 16
    omega

/-! ## The directory wait -/

theorem ring_scanRoom {s : State} (h : RingSound s) (hw : s.scanCd.dirWait ≠ none) : RingSound (scanRoom s) := by
  unfold scanRoom
  split
  · exact ring_away h (away_endDirwait ..)
  · next j hj =>
    have hp : j.phase = .dirwait := by
      obtain ⟨i, hi, z⟩ := h.waits hw
      rw [hj] at hi; cases hi; exact z
    extract_lets d1 s1
    have a1 : Away s s1 := Away.trans (t := { s with dir := { s.dir with places := s.dir.places + 1 } }) (away_mapDir (fun d => { d with places := d.places + 1 }) s) (away_endDirwait ..)
    have k1 : RingSound s1 := ring_away h a1
    have j1 : s1.scanJob = some j := hj
    have w1 : s1.scanCd.dirWait = none := rfl
    have f1 : scanFigures j.res j.slewReq s1 = scanFigures j.res j.slewReq s := rfl
    split
    · exact ring_scanDecision' k1 ..
    · next f hf =>
      obtain ⟨k, hk, e⟩ := scanFigures_of hf
      refine ⟨⟨k1.one, (fun x => by cases x), ?_, ?_⟩, fun x => absurd w1 x, ?_, ?_⟩
      · intro i x
        cases x
        exact ⟨k, hk, e⟩
      · intro i x r
        cases x
        exact k1.bound j j1 r
      · intro i x y
        cases x
        rcases y with y | y <;> cases y
      · intro i x r _ mv ow
        cases x
        have fd : j.feeds = true := by unfold ScanJob.feeds; rw [hp]
        have := k1.room j j1 r fd mv ow
        have em := k1.toRingBase.steps j1
        have ef : f.m = j.fig.m := by rw [em, e]; rfl
        rw [runRoom_iff] at this ⊢
        obtain ⟨p, u⟩ := this
        refine ⟨?_, u⟩
        rw [show j.toBoundary (setLead s1) = setLead s1 + 2 by unfold ScanJob.toBoundary; rw [hp], decide_eq_true hp] at p
        show planRoom f false (setLead s1 + 2) (scanFree s1) s1.motS
        unfold planRoom at p ⊢
        split
        · trivial
        · next x => rw [x] at p; have := p.2.2.2.2; cases this
        · next x => rw [x] at p; rw [ef]; exact p
        · next x => rw [x] at p; exact p

end Sys2Proof.Machine
end

