-- ==== Sys2Proof/Laws/ScanRingCommands.lean ====
section
/-! SUPPORT. RingSound under the bursts, the power states, the orders, the records and the events. -/

-- one declaration after the other: run side by side, the proofs of the whole package hold more threads than memory has room for
set_option Elab.async false

namespace Sys2Proof.Machine

theorem ring_ite {s t : State} {p : Prop} [Decidable p] (h : RingSound s) (k : RingSound t) : RingSound (if p then s else t) := by
  split
  · exact h
  · exact k

/-! ## The coders -/

theorem away_askBlock (c : CoderCtx) (s : State) : Away s (askBlock c s) := (away_mapCoder ..).trans (away_pumpAsk ..)

theorem away_beginCoding (c : CoderCtx) (s : State) : Away s (beginCoding c s) := by
  unfold beginCoding
  dsimp only
  split
  · exact (away_setCoder ..).trans (away_askBlock ..)
  · exact away_setCoder ..

theorem away_takeUpScan (s : State) : Away s (takeUpScan s) := by
  unfold takeUpScan
  split
  · exact .refl s
  · exact (away_mapCoder ..).trans (away_beginCoding ..)

theorem away_takeUpIntake (s : State) : Away s (takeUpIntake s) := by
  unfold takeUpIntake
  split
  · exact .refl s
  · split
    · exact ((away_mapDir ..).trans (away_mapCoder ..)).trans (away_beginCoding ..)
    · unfold enterDirwait
      exact Away.trans (t := mapCoder .intake (fun c => { c with dirWait := some (setMemWait s) }) s) away_plain (away_raise ..)

theorem away_coderStart (c : CoderCtx) (s : State) : Away s (coderStart c s) := by
  unfold coderStart
  split
  · split
    · exact away_beginCoding ..
    · exact away_takeUpScan s
    · exact away_takeUpIntake s
  · exact .refl s

theorem away_diagBurst (s : State) : Away s (diagBurst s) := by
  unfold diagBurst
  split
  · exact .refl s
  · dsimp only
    split
    · exact away_plain
    · exact away_plain

theorem away_freeCodedSlot (c : CoderCtx) (s : State) : Away s (freeCodedSlot c s) := by
  cases c with
  | scan => exact ⟨Nat.sub_le _ _, rfl, rfl, rfl, .refl _, fun x => x, .inr rfl⟩
  | intake =>
    unfold freeCodedSlot
    dsimp only
    split
    · exact ((away_mapRings _ _).trans (away_mapRings _ _)).trans (away_raise ..)
    · exact away_mapRings _ _

theorem away_lineCoded (c : CoderCtx) (s : State) : Away s (lineCoded c s) := by
  unfold lineCoded
  extract_lets cd x s1 s2
  have k1 : Away s s1 := away_mapEntry ..
  have e : coderOf c s1 = coderOf c s := by cases c <;> rfl
  have k2 : Away s1 s2 := away_setCoder c _ s1 (.inl (by rw [e]))
  exact (k1.trans k2).trans (away_freeCodedSlot ..)

theorem ring_afterLine (c : CoderCtx) (w : Bool) {s : State} (h : RingSound s) : RingSound (afterLine c w s) := by
  unfold afterLine
  split
  · split
    · exact ring_scanDecision' h ..
    · exact ring_away h ((away_completePage ..).trans (away_endIntake ..))
  · exact ring_away h (away_ite (away_completePage ..) (.refl s))

theorem ring_unitsWritten {s : State} (h : RingSound s) (c : CoderCtx) (n : Nat) : RingSound (unitsWritten c n s) := by
  unfold unitsWritten
  extract_lets s1
  have h1 : RingSound s1 := ring_away h (away_setCoder ..)
  clear_value s1
  split
  · exact ring_afterLine _ _ (ring_away h1 (away_lineCoded ..))
  · split
    · exact ring_away h1 (away_askBlock ..)
    · exact h1

/-! ## What follows at once -/

theorem ring_memExpire (c : CoderCtx) {s : State} (h : RingSound s) : RingSound (memExpire c s) := by
  unfold memExpire
  split
  · split
    · exact ring_scanDecision' h ..
    · exact ring_away h (away_intakeMemExpiry s)
  · exact h

theorem ring_dirExpire (c : CoderCtx) {s : State} (h : RingSound s) : RingSound (dirExpire c s) := by
  unfold dirExpire
  split
  · unfold scanDirExpiry
    split
    · exact ring_scanDecision' (ring_away h (away_endDirwait ..)) ..
    · exact h
  · exact ring_away h (away_ite ((away_endDirwait ..).trans (away_endIntake ..)) (.refl s))

theorem ring_zeroWaits {s : State} (h : RingSound s) : RingSound (zeroWaits s) := by
  have f : ∀ (c : CoderCtx) (u : State), RingSound u → RingSound (zeroWait c u) := by
    intro c u k
    unfold zeroWait
    dsimp only
    have k1 := ring_ite (p := (coderOf c u).timer = some 0) (ring_memExpire c k) k
    exact ring_ite (ring_dirExpire c k1) k1
  exact f .intake _ (f .scan s h)

theorem ring_settleRoom {s : State} (h : RingSound s) : RingSound (settleRoom s) := by
  unfold settleRoom
  extract_lets s1
  have k1 : RingSound s1 := by
    simp only [s1]
    split
    · next hx =>
      simp only [Bool.and_eq_true] at hx
      refine ring_scanRoom h fun z => ?_
      have := hx.1
      rw [z] at this; cases this
    · exact h
  clear_value s1
  split
  · exact ring_away k1 ((away_endDirwait ..).trans (away_takeUpIntake _))
  · exact k1

theorem ring_settleJobs {s : State} (h : RingSound s) : RingSound (settleJobs s) :=
  ring_settleRoom (ring_away (ring_zeroWaits (ring_settleScanRestart h))
    (((((away_settleIntake _).trans (away_settlePass ..)).trans (away_settlePass ..)).trans (away_settlePrint _)).trans
      (away_settleOutput _)))

theorem ring_settle {s : State} (h : RingSound s) : RingSound (settle s) :=
  ring_away (ring_settleScanEnd (ring_settleScanRestart (ring_settleJobs (ring_settleJobs h))))
    (((away_applyMotorTables _).trans (away_updateIdle _)).trans (away_arbitrate _))

/-! ## Plain changes -/

/-- A change of channel S that leaves it still, or its run as it was. -/
theorem away_motS {s : State} (m : Motor) (h : MotSame s.motS m) : Away s { s with motS := m } :=
  ⟨le_refl _, rfl, rfl, rfl, h, fun x => x, .inr rfl⟩

theorem cutOff_still (m : Motor) (c : Causes) : (m.cutOff c).moving = false := by
  unfold Motor.cutOff
  dsimp only
  split
  · next h =>
    unfold Motor.faulted at h
    simp only [decide_eq_true_eq] at h
    unfold Motor.moving
    dsimp only
    rw [h]
  · rfl

/-- The commands waiting are no part of it. -/
theorem RingSound.queue {s : State} (h : RingSound s) (q : List Instr) : RingSound { s with pending := q } := ring_away h away_plain

theorem away_fillReply (w : ReplyBody) (st : Status) (a : List Byte) (s : State) : Away s (fillReply w st a s) := away_mapPort ..
theorem away_fillReplies (w : ReplyBody) (st : Status) (a : List Byte) (s : State) : Away s (fillReplies w st a s) := away_mapPort ..
theorem away_pushReply (k sb : Byte) (b : ReplyBody) (s : State) : Away s (pushReply k sb b s) := away_mapPort ..
theorem away_cutOffBoth (c : Causes) (s : State) : Away s (cutOffBoth c s) :=
  ⟨le_refl _, rfl, rfl, rfl, .inl (cutOff_still ..), fun x => x, .inr rfl⟩
theorem away_coverFound (s : State) : Away s (coverFound s) := (away_raise ..).trans (away_cutOffBoth ..)
theorem away_readShadow (x : Shadow) (s : State) : Away s (readShadow x s) :=
  ⟨le_refl _, rfl, rfl, rfl, .inr (.inr ⟨rfl, rfl, rfl, rfl⟩), fun x => x, .inr rfl⟩
theorem away_writeShadow (s : State) : Away s (writeShadow s) := away_mapPower ..
theorem same_powerDown (m : Motor) : MotSame m m.powerDown := by
  unfold Motor.powerDown
  split
  · exact .inl rfl
  · exact .refl m
theorem away_powerDownMotors (s : State) : Away s (powerDownMotors s) :=
  ⟨le_refl _, rfl, rfl, rfl, same_powerDown _, fun x => x, .inr rfl⟩
theorem away_abandonDiag (s : State) : Away s (abandonDiag s) := away_plain
theorem away_sense (lv : Levels) (s : State) : Away s (sense lv s) := away_plain
theorem away_checkLink (b : Nat) (s : State) : Away s (checkLink b s) := away_of (shell_checkLink ..) (beside_checkLink ..)

/-! ## Bursts -/

theorem away_doUpkeep (op : Upkeep) (s : State) : Away s (doUpkeep op s) := by
  unfold doUpkeep
  split
  · exact away_mapDram ..
  · exact away_mapDram ..
  · next b =>
    extract_lets u
    have k : Away s u := away_checkLink b s
    split
    · exact ((k.trans (away_ite (.refl u) (away_mapPmc ..))).trans (away_pumpAsk ..)).trans (away_pumpAsk ..)
    · exact k

theorem away_doBuild (s : State) : Away s (doBuild s) := by
  unfold doBuild
  split
  · exact .refl s
  · dsimp only
    split
    · exact (away_mapDram ..).trans (away_mapPmc ..)
    · exact (((away_mapDram ..).trans (away_mapPmc ..)).trans (away_pumpAsk ..)).trans (away_pumpAsk ..)

/-! ## The spill engine -/

theorem away_spill (n : SpillEngine) (s : State) : Away s { s with spill := n } := away_plain
theorem away_mapBoot (f : Boot → Boot) (s : State) : Away s (mapBoot f s) := away_plain
theorem away_noSpill (s : State) : Away s (noSpill s) := away_plain

theorem away_reachReady (r : Nat) (s : State) : Away s (reachReady r s) := by
  unfold reachReady
  extract_lets s1
  have k1 : Away s s1 := (away_mapBoot ..).trans (away_raise ..)
  split
  · exact k1
  · exact k1.trans ((away_mapPower ..).trans (away_raise ..))

theorem ring_restoreSpill {s : State} {z : MemSize} {b : List Byte} (h : RingSound s) (hj : s.scanJob = none) :
    RingSound { restoreSpill b s with spill := .clearMarker z .restored } := by
  refine ring_away h ⟨le_refl _, rfl, rfl, ?_, ?_, ?_, .inl hj⟩
  · simp only [restoreSpill, readShadow, mapPower, mapPmc]
  · exact .inr (.inr ⟨rfl, rfl, rfl, rfl⟩)
  · simp only [restoreSpill, readShadow, mapPower, mapPmc]; exact fun x => x

theorem away_beginReturn (r : Nat) (s : State) : Away s (beginReturn r s) := away_ite (.refl s) (away_mapPower ..)

theorem away_abandonEntry (b : Bool) (n : Nat) (s : State) : Away s (abandonEntry b n s) := by
  unfold abandonEntry
  dsimp only
  exact away_ite ((away_mapPower ..).trans (away_beginReturn ..)) ((away_mapPower ..).trans (away_raise ..))

theorem away_standbyAbandoned (s : State) : Away s (standbyAbandoned s) := by
  unfold standbyAbandoned
  split
  · exact .refl s
  · exact away_abandonEntry ..

theorem away_askSelfRefresh (w : SelfRefreshFor) (s : State) : Away s (askSelfRefresh w s) := away_mapPmc ..
theorem away_setStage (w : EntryStage) (s : State) : Away s (setStage w s) := away_mapPower ..

theorem away_standbySpilled (s : State) : Away s (standbySpilled s) := by
  unfold standbySpilled
  split
  · exact .refl s
  · split
    · exact (away_spill ..).trans (away_mapPower ..)
    · exact (away_askSelfRefresh ..).trans (away_setStage ..)

theorem ring_spillBurst {s : State} (p : PagesSound s) (h : RingSound s) : RingSound (spillBurst s) := by
  have k : ∀ {t}, Away s t → RingSound t := ring_away h
  unfold spillBurst
  split
  · exact h
  · unfold checkCandidate
    split
    · exact k (away_spill ..)
    · split
      · exact k (away_spill ..)
      · exact k (away_noSpill s)
  · unfold readSpill
    dsimp only
    split
    · split
      · exact k away_plain
      · exact k ((away_raise ..).trans (away_noSpill _))
    · exact k (away_spill ..)
  · next z got hs =>
    have bt : s.boot.state = .restore := p.restoring (by rw [hs]; rfl)
    have sj := (p.booting (by rw [bt]; simp)).2.1
    unfold rereadSpill
    dsimp only
    split
    · exact k (away_spill ..)
    · split
      · split
        · exact ring_restoreSpill h sj
        · exact k (away_spill ..)
      · exact k (away_spill ..)
  · next z nx hs =>
    unfold clearMarker
    extract_lets s0 s1
    have k1 : Away s s1 := (away_mapDram ..).trans (away_spill ..)
    cases nx with
    | restored => exact k (k1.trans (away_reachReady ..))
    | lost => exact k ((k1.trans (away_raise ..)).trans (away_noSpill _))
    | abandoned => exact k (k1.trans (away_standbyAbandoned _))
  · exact h
  · unfold writeSpill
    extract_lets n s1
    have k1 : Away s s1 := away_mapDram ..
    exact k (k1.trans (away_spill ..))
  · unfold writeMarker
    extract_lets s0 s1
    have k1 : Away s s1 := (away_mapDram ..).trans (away_spill ..)
    split
    · exact k (k1.trans (away_standbySpilled _))
    · exact k (k1.trans (away_askSelfRefresh ..))

/-! ## Cold starts and self-refresh -/

theorem ring_cold (l : Lines) (p : List Instr) (d : Memory) (w : Power) :
    RingSound { State.reset with lines := l, pending := p, dram := d, power := w } :=
  ring_emptied rfl rfl rfl (fun j x => by cases x) (fun x => absurd rfl x)

theorem ring_coldStart (s : State) : RingSound (coldStart s) := ring_cold ..

theorem ring_enterSelfRefresh {s : State} (w : SelfRefreshFor) (h : RingSound s) : RingSound (enterSelfRefresh w s) := by
  unfold enterSelfRefresh
  extract_lets s1
  have k1 : RingSound s1 := ring_away h ((away_mapPmc ..).trans (away_abandonDiag _))
  split
  · exact ring_away k1 (away_mapPower ..)
  · exact ring_away k1 (away_mapPower ..)
  · unfold reachHold
    dsimp only
    split
    · exact ring_away k1 (away_mapPower ..)
    · exact ring_coldStart _
  · exact k1
  · exact k1

theorem ring_deliver {s : State} (g : Grant) (p : PagesSound s) (h : RingSound s) : RingSound (deliver g s) := by
  unfold deliver
  split
  · exact h
  · unfold lastRefreshMade
    split
    · exact h
    · exact ring_enterSelfRefresh _ h
  · exact ring_away h ((away_mapPmc ..).trans (away_doUpkeep ..))
  · split
    · exact ring_away h (away_decodeBurst ..)
    · exact h
  · dsimp only
    split
    · exact ring_unitsWritten (ring_away h (away_mapDram ..)) _ _
    · exact ring_away h (away_mapDram ..)
  · split
    · exact ring_away h (away_doBuild s)
    · exact h
  · split
    · exact ring_spillBurst p h
    · exact h
  · split
    · exact ring_away h (away_diagBurst _)
    · exact h

theorem ring_endGrant {s : State} (p : PagesSound s) (h : RingSound s) : RingSound (endGrant s) := by
  unfold endGrant
  split
  · exact h
  · exact ring_deliver _ (sound_keep p (keep_mapPmc rfl rfl)) (ring_away h (away_mapPmc ..))

/-! ## The power states -/

theorem away_holdAtOnce (s : State) : Away s (holdAtOnce s) := by
  unfold holdAtOnce
  exact ((((away_spill ..).trans (away_cutOffBoth ..)).trans (away_mapPmc ..)).trans (away_mapPower ..)).trans (away_killGrant ..)

theorem away_leaveReset (s : State) : Away s (leaveReset s) := by
  unfold leaveReset
  extract_lets b1 s1 s2
  have k1 : Away s s1 := away_plain
  have k2 : Away s s2 := by
    simp only [s2]
    split
    · exact k1
    · exact k1.trans (away_coverFound _)
  split
  · exact k2.trans (away_holdAtOnce _)
  · exact k2

theorem away_withdrawWaits (s : State) : Away s (withdrawWaits s) := by
  exact ⟨le_refl _, rfl, rfl, rfl, .refl _, fun _ => rfl, .inr rfl⟩

theorem away_fold {f : State → Nat → State} (hf : ∀ s i, Away s (f s i)) (is : List Nat) : ∀ s, Away s (is.foldl f s) := by
  induction is with
  | nil => exact .refl
  | cons i is ih => exact fun s => (hf s i).trans (ih _)

theorem away_completeAtPfail (s : State) (i : Nat) : Away s (completeAtPfail s i) := by
  unfold completeAtPfail
  split
  · exact away_completePage ..
  · split
    · exact away_completePage ..
    · exact (away_mapEntry ..).trans (away_settleEmpty ..)

theorem away_dropReaders (s : State) (i : Nat) : Away s (dropReaders s i) := (away_removeReader ..).trans (away_removeReader ..)

/-- The jobs gone and the rings emptied. -/
theorem ring_dropJobs {s : State} (h : s.scanCd.dirWait = none) : RingSound (dropJobs s) := by
  unfold dropJobs
  extract_lets s1 s2 s3
  have k : Away (emptyScanRing s1) s3 := by
    refine (((((((away_emptyIntakeRing _).trans (away_emptyPrintRing _)).trans (away_emptyOutputRing _)).trans
      (away_clearIntakeLine _)).trans (away_idleCoder .scan _)).trans (away_idleCoder .intake _)).trans
      (away_idleDecoder .print _)).trans (away_idleDecoder .output _)
  have w : s1.scanCd.dirWait = none := by
    have a : Away s s1 := by
      refine Away.trans (t := abandonCalibration s) ?_ (away_mapFront ..)
      unfold abandonCalibration
      exact away_ite ((away_mapFront ..).trans (away_fillReplies ..)) (.refl s)
    exact a.wait h
  clear_value s1
  have oc := k.occ
  have rs := k.res
  have cm := k.comp
  have wt := k.wait w
  clear_value s3
  exact ring_emptied (Nat.le_zero.mp oc) rs cm (fun j x => by cases x) (fun x => absurd wt x)

theorem ring_endAtPfail (s : State) : RingSound (endAtPfail s) := by
  unfold endAtPfail
  extract_lets s1 s2
  have k : Away s1 ((pageIds s2).foldl dropReaders s2) := (away_fold away_completeAtPfail _ _).trans (away_fold away_dropReaders _ _)
  exact ring_dropJobs (k.wait rfl)

theorem ring_endAtRestart (s : State) : RingSound (endAtRestart s) := by
  unfold endAtRestart
  extract_lets s1 s2
  have k : Away s1 ((pageIds s2).foldl dropReaders s2) :=
    (away_fold (fun s i => away_discardPage i true s) _ _).trans (away_fold away_dropReaders _ _)
  exact ring_dropJobs (k.wait rfl)

theorem ring_pfailSequence {s : State} (h : RingSound s) : RingSound (pfailSequence s) := by
  unfold pfailSequence
  extract_lets s1 s2 p2
  have k1 : RingSound s1 := ring_away h (away_cutOffBoth ..)
  split
  · exact ring_away k1 ((away_ite (away_askSelfRefresh ..) (.refl _)).trans (away_mapPower ..))
  · have k2 : RingSound s2 := ring_away (ring_endAtPfail _) (away_mapPower ..)
    have k3 : Away s2 { s2 with spill := .await .pfail, pmc := { s2.pmc with srPending := none } } := away_plain
    exact ring_away k2 ((k3.trans (away_killGrant ..)).trans (away_writeShadow _))

theorem away_takeLatch (s : State) : Away s (takeLatch s) := away_ite ((away_mapPower ..).trans (away_coverFound _)) (.refl s)

theorem away_leaveSleep (s : State) : Away s (leaveSleep s) :=
  (((away_mapPower ..).trans (away_mapPmc ..)).trans (away_takeLatch _)).trans (away_readShadow ..)

theorem ring_pfailRises {s : State} (h : RingSound s) : RingSound (pfailRises s) := by
  unfold pfailRises
  split
  · exact h
  · split
    · exact ring_away h (away_holdAtOnce _)
    · split
      · exact ring_pfailSequence (ring_away h (away_leaveSleep _))
      · exact ring_pfailSequence h

theorem ring_coverOpened {s : State} (h : RingSound s) : RingSound (coverOpened s) := by
  unfold coverOpened
  split
  · exact h
  · split
    · exact ring_away h (away_mapPower ..)
    · exact ring_away (ring_scanFaulted (ring_away h ((away_raise ..).trans (away_cutOffBoth ..)))) (away_mapPrtJob ..)

theorem away_sleepWake (r : Nat) (s : State) : Away s (sleepWake r s) := away_ite (.refl s) ((away_leaveSleep s).trans (away_beginReturn ..))

theorem ring_wakeEvent {s : State} (r : Nat) (h : RingSound s) : RingSound (wakeEvent r s) := by
  unfold wakeEvent
  split
  · exact h
  · exact ring_away h (away_beginReturn ..)
  · exact ring_away h (away_sleepWake ..)
  · exact ring_coldStart _

theorem ring_wakeRise {s : State} (b r : Nat) (m : Risen → Risen) (h : RingSound s) : RingSound (wakeRise b r m s) := by
  unfold wakeRise
  split
  · exact ring_away h (away_mapPower ..)
  · split
    · exact ring_wakeEvent _ h
    · exact h

theorem away_runReached (s : State) : Away s (runReached s) := by
  unfold runReached
  split
  · exact .refl s
  · dsimp only
    exact away_ite ((away_readShadow ..).trans (away_mapPower ..)) (((away_readShadow ..).trans (away_mapPower ..)).trans (away_raise ..))

theorem away_enterDoze (m : Byte) (t : Nat) (s : State) : Away s (enterDoze m t s) :=
  ((away_powerDownMotors s).trans (away_writeShadow _)).trans (away_mapPower ..)

theorem away_entryGoesOn (s : State) : Away s (entryGoesOn s) := by
  unfold entryGoesOn
  split
  · exact .refl s
  · split
    · split
      · exact away_abandonEntry ..
      · unfold passCheck
        extract_lets s1
        have k1 : Away s s1 := ((away_mapTemp ..).trans (away_powerDownMotors _)).trans (away_writeShadow _)
        split
        · exact (k1.trans (away_spill ..)).trans (away_setStage ..)
        · exact k1.trans ((away_askSelfRefresh ..).trans (away_setStage ..))
    · exact .refl s

theorem away_restartMotors (s : State) : Away s (restartMotors s) := by
  unfold restartMotors
  extract_lets s1
  have k1 : Away s s1 := Away.trans (t := { s with motS := s.motS.restarted, motP := s.motP.restarted })
    ⟨le_refl _, rfl, rfl, rfl, .inl rfl, fun x => x, .inr rfl⟩ (away_applyMotorTables _)
  exact away_ite k1 (k1.trans (away_cutOffBoth ..))

theorem ring_orderRestart (s : State) : RingSound (orderRestart s).1 := by
  unfold orderRestart
  extract_lets s1 s2
  have k1 : Away (endAtRestart s) s1 :=
    ((away_mapFront ..).trans ((away_abandonDiag _).trans (away_killGrant ..))).trans (away_restartMotors _)
  have k2 : RingSound s2 := ring_away (ring_endAtRestart s) (k1.trans (away_mapPower ..))
  show RingSound (if s2.power.state = .doze then beginReturn 0 s2 else s2)
  split
  · exact ring_away k2 (away_beginReturn ..)
  · exact k2

/-! ## Tables -/

theorem ring_completeImage (i : Fin 14) (img : List Byte) {s : State} (h : RingSound s) : RingSound (completeImage i img s).1 := by
  unfold completeImage
  split
  · exact h
  · split
    · exact h
    · split
      · exact h
      · next hr =>
        show RingSound (installImage i (clampTable i img).image s).1
        unfold installImage
        split
        · next hi =>
          subst hi
          have sj : s.scanJob = none := by
            unfold installRefusal at hr
            rw [if_pos rfl] at hr
            split at hr
            · cases hr
            · next x =>
              cases y : s.scanJob
              · rfl
              · rw [y] at x; simp at x
          generalize (clampTable tSettings img).image = im
          unfold installSettings
          extract_lets rs s1 s2
          have a : Away s s2 := ⟨le_refl _, rfl, rfl, rfl, .inr (.inr ⟨rfl, rfl, rfl, rfl⟩), fun x => x, .inl sj⟩
          clear_value s2
          split
          · exact ring_away h (a.trans away_plain)
          · exact ring_away h a
        · next hi =>
          have hi0 : i ≠ 0 := hi
          split
          · exact ring_away h (away_setPending ..)
          · exact ring_away h ((away_setActive _ _ _ hi0).trans (away_setPending ..))

theorem away_setAssembly (a : Option Assembly) (s : State) : Away s (setAssembly a s) := away_plain

theorem ring_loadSegment (i : Fin 14) (g f : Nat) (b : List Byte) {s : State} (h : RingSound s) : RingSound (loadSegment i g f b s).1 := by
  have k : ∀ a, RingSound (setAssembly a s) := fun a => ring_away h (away_setAssembly ..)
  have gath : ∀ (n : Nat) (fin : Bool) (x : List Byte), RingSound (gather i n fin x s).1 := by
    intro n fin x
    unfold gather
    split
    · exact k _
    · split
      · exact ring_completeImage i x (k none)
      · exact k _
  unfold loadSegment
  split
  · exact h
  · split
    · exact gath ..
    · split
      · exact h
      · split
        · exact gath ..
        · exact h

/-! ## Orders -/

theorem away_orderIntake (p : List Byte) (s : State) : Away s (orderIntake p s).1 := by
  unfold orderIntake
  split
  · split
    · exact .refl s
    · split
      · exact .refl s
      · dsimp only; exact away_plain
  · exact .refl s

theorem away_orderIntakeEnd (s : State) : Away s (orderIntakeEnd s).1 := by
  unfold orderIntakeEnd
  split
  · exact away_mapIntJob ..
  · exact .refl s

theorem away_admitReader (c : DecoderCtx) (e : Entry) (b : Bool) (s : State) : Away s (admitReader c e b s) := by
  cases c <;> exact (away_mapEntry ..).trans (away_setPass ..)

theorem away_orderOutput (p : List Byte) (s : State) : Away s (orderOutput p s).1 := by
  unfold orderOutput
  split
  · exact .refl s
  · split
    · exact .refl s
    · split
      · exact .refl s
      · split
        · exact .refl s
        · dsimp only; exact (away_outJob ..).trans (away_admitReader ..)

theorem away_orderErase (p : List Byte) (s : State) : Away s (orderErase p s).1 := by
  unfold orderErase
  split
  · exact .refl s
  · split
    · exact .refl s
    · exact .refl s
    · split
      · exact away_mapEntry ..
      · exact away_of (shell_dropEntry ..) (beside_dropEntry ..)

theorem ring_orderStop (p : List Byte) {s : State} (h : RingSound s) : RingSound (orderStop p s).1 := by
  unfold orderStop
  split
  · exact h
  · split
    · unfold orderStopScan
      split
      · split
        · exact h
        · exact ring_scanDecision' h ..
      · exact h
    · refine ring_away h ?_
      unfold orderStopIntake
      split
      · exact .refl s
      · exact ((away_endDirwait ..).trans (away_ite (away_completePage ..) (away_discardWritten ..))).trans (away_endIntake ..)
    · refine ring_away h ?_
      unfold orderStopPrint
      split
      · exact .refl s
      · split
        · exact .refl s
        · exact (((away_prtJob ..).trans (away_idleDecoder ..)).trans (away_emptyPrintRing _)).trans (away_removeReader ..)
    · refine ring_away h ?_
      unfold orderStopOutput
      split
      · exact .refl s
      · split
        · exact .refl s
        · exact ((away_outJob ..).trans (away_idleDecoder ..)).trans (away_emptyOutputRing _)
    · exact h

theorem away_orderTemp (c : Byte) (s : State) : Away s (orderTemp c s).1 := (away_mapTemp ..).trans (away_mapPrtJob ..)

theorem away_mapMotor (ch : Channel) (f : Motor → Motor) (s : State) (h : MotSame s.motS (f s.motS)) : Away s (mapMotor ch f s) := by
  cases ch
  · exact away_motS _ h
  · exact away_motP ..

theorem away_orderResume (p : List Byte) (s : State) : Away s (orderResume p s).1 := by
  unfold orderResume
  split
  · exact .refl s
  · split
    · split
      · exact away_mapMotor _ _ _ (.inl rfl)
      · exact .refl s
    · split
      · exact .refl s
      · unfold printResume
        split
        · exact .refl s
        · split
          · exact .refl s
          · unfold resumePrint
            extract_lets s1
            have k : Away s s1 := away_prtJob ..
            exact away_ite (away_ite (k.trans (away_askSteps ..)) (k.trans (away_afterExit _)))
              (away_ite (k.trans (away_askSteps ..)) (k.trans (away_mapPrtJob ..)))

theorem ring_orderScan (p : List Byte) {s : State} (h : RingSound s) : RingSound (orderScan p s).1 := by
  unfold orderScan
  split
  · split
    · exact h
    · next hr =>
      dsimp only
      split
      · exact h
      · next f hf =>
        dsimp only
        have fr : s.scanJob = none ∧ s.motS.atRest = true := by
          unfold scanRefusal at hr
          split at hr
          · cases hr
          · next x =>
            simp only [Bool.or_eq_true, not_or, Bool.not_eq_true', Bool.not_eq_true, Option.isSome_eq_false_iff, Option.isNone_iff_eq_none,
              Bool.not_eq_false] at x
            exact ⟨x.1.1, by simpa using x.2⟩
        obtain ⟨k, hk, e⟩ := scanFigures_of hf
        exact ring_beginScan h _ fr.1 fr.2 rfl ⟨k, hk, e⟩
  · exact h

theorem away_orderPrint (p : List Byte) (s : State) : Away s (orderPrint p s).1 := by
  unfold orderPrint
  split
  · split
    · exact .refl s
    · split
      · exact .refl s
      · split
        · exact .refl s
        · split
          · exact .refl s
          · split
            · exact .refl s
            · exact ((away_prtJob ..).trans (away_admitReader ..)).trans (away_copyItems _)
  · exact .refl s

theorem away_orderMove (p : List Byte) (s : State) : Away s (orderMove p s).1 := by
  unfold orderMove
  split
  · split
    · exact .refl s
    · split
      · exact .refl s
      · next ch _ _ _ _ _ =>
        show Away s (takeRun ch .move _ _ _ _ s)
        unfold takeRun
        cases ch
        · refine away_motS _ (.inr (.inl ?_))
          rw [issue_owner]
          show Owner.move ≠ .scan
          simp
        · exact away_plain
  · exact .refl s

theorem away_orderPower (p : List Byte) (s : State) : Away s (orderPower p s).1 := by
  unfold orderPower
  dsimp only
  split
  · split
    · exact .refl s
    · dsimp only
      unfold takeDoze
      exact away_ite (away_mapPower ..) (away_enterDoze ..)
  · split
    · exact .refl s
    · dsimp only; exact away_mapPower ..
  · split
    · exact .refl s
    · dsimp only; exact away_mapPower ..
  · exact .refl s

theorem away_orderReady (s : State) : Away s (orderReady s).1 := by
  unfold orderReady
  split
  · split
    · exact .refl s
    · exact Away.trans (t := startBuild s) away_plain (away_reachReady ..)
  · exact .refl s

theorem ring_actOrder (code : Nat) (p : List Byte) {s : State} (h : RingSound s) : RingSound (actOrder code p s).1 := by
  have k : ∀ {t}, Away s t → RingSound t := ring_away h
  unfold actOrder
  split
  · unfold orderCalibrate
    split
    · exact h
    · dsimp only; exact k (away_mapFront ..)
  · exact ring_orderScan p h
  · exact k (away_orderIntake p s)
  · exact k (away_orderIntakeEnd s)
  · exact k (away_orderOutput p s)
  · exact k (away_orderPrint p s)
  · exact k (away_orderErase p s)
  · exact ring_orderStop p h
  · exact k (away_orderResume p s)
  · exact k (away_orderMove p s)
  · exact k (away_orderTemp _ s)
  · exact k (away_orderPower p s)
  · exact k (away_orderReady s)
  · exact ring_orderRestart s
  · exact h

theorem away_setRing (m i : Nat) (x : Slot) (s : State) :
    Away s (setRing m { ringOf m s with slots := (ringOf m s).slots.set i x } s) := by
  unfold setRing
  split
  · exact ⟨le_refl _, rfl, rfl, rfl, .refl _, fun x => x, .inr rfl⟩
  · exact away_mapRings _ _
  · exact away_mapRings _ _
  · exact away_mapRings _ _

theorem away_writeItem (m i : Nat) (img : List Byte) (s : State) (h : m = 6 → i % 256 ≠ 0) : Away s (writeItem m i img s).1 := by
  unfold writeItem
  split
  · dsimp only; exact away_mapFront ..
  · split
    · exact .refl s
    · next t ht =>
      have ne : t.2 ≠ 0 := fun x => h rfl (tableItem_settings ht x)
      unfold writeCopy
      split
      · exact .refl s
      · split
        · exact .refl s
        · show Away s (putCopy t.1 t.2 _ s)
          unfold putCopy
          split
          · exact away_setPending ..
          · have a : ∀ x, (s.tables.active.set t.2 x)[(0 : Fin 14)] = s.tables.active[(0 : Fin 14)] := by
              intro x
              have : t.2.val ≠ 0 := fun z => ne (Fin.ext z)
              simp [Fin.getElem_fin, Vector.getElem_set_ne _ _ this]
            dsimp only
            split
            · exact away_plain (f := a _)
            · exact away_plain (f := a _)
  · dsimp only; exact away_setRing ..

theorem away_actDiag (sub : Byte) (p : List Byte) (s : State) : Away s (actDiag sub p s).1 := by
  unfold actDiag orderDiag
  split
  · exact .refl s
  · next hr =>
    unfold takeDiag
    split
    · exact away_plain
    · exact away_plain
    · exact .refl s
    · next m a sd d hm _ =>
      have k : Away s (writeItem (byteAt p 0) (wordAt p 1) (patchAt (itemBytes (byteAt p 0) (wordAt p 1) s) (wordAt p 3) d) s).1 := by
        refine away_writeItem _ _ _ _ fun m6 z => ?_
        unfold diagRefusal at hr
        split at hr
        · cases hr
        · split at hr
          · cases hr
          · split at hr
            · cases hr
            · next ob =>
              rw [hm] at ob
              simp [diagOutOfBounds, m6, z] at ob
      dsimp only
      split
      · exact k
      · exact k

theorem away_orderEvack (p : List Byte) (s : State) : Away s (orderEvack p s).1 := by
  unfold orderEvack
  split
  · exact .refl s
  · dsimp only; exact away_plain

theorem ring_actLoad (sub : Byte) (p : List Byte) {s : State} (h : RingSound s) : RingSound (actLoad sub p s).1 := by
  unfold actLoad
  split
  · exact ring_loadSegment _ _ _ _ h
  · exact h

theorem ring_dispatch (r : Record) {s : State} (h : RingSound s) : RingSound (dispatch r s) := by
  unfold dispatch
  refine ring_away ?_ (away_restartIdle _)
  have hu := ring_away h (away_mapPort (fun p => { p with inbound := .receiving [] }) s)
  generalize mapPort (fun p => { p with inbound := .receiving [] }) s = u at *
  have ans : ∀ {v : State} (b : ReplyBody), RingSound v → RingSound (answer r (v, b)) := fun _ x => ring_away x (away_pushReply ..)
  unfold act
  split
  · exact ans _ hu
  · split
    · unfold actLine
      split
      · exact ans _ hu
      · exact ring_away hu away_plain
    · split
      · refine ring_away ?_ (away_arbitrate _)
        exact ans _ (ring_actLoad _ _ hu)
      · split
        · exact ans _ hu
        · split
          · exact ans _ (ring_away hu (away_orderEvack ..))
          · split
            · exact ring_away (ans _ (ring_away hu (away_actDiag ..))) (away_arbitrate _)
            · split
              · exact ring_settle (ans _ (ring_actOrder _ _ hu))
              · exact ans _ hu

theorem ring_completeRecord (r : Record) {s : State} (h : RingSound s) : RingSound (completeRecord r s) := by
  unfold completeRecord
  split
  · exact ring_away h ((away_mapPort ..).trans (away_beginReturn ..))
  · exact ring_dispatch r h

theorem ring_takeByte (d : Byte) {s : State} (h : RingSound s) : RingSound (takeByte d s) := by
  have si : ∀ i, RingSound (setInbound i s) := fun i => ring_away h (away_mapPort ..)
  have dr : ∀ k sb st, RingSound (drained k sb st s) := fun _ _ _ => ring_away (si _) (away_pushReply ..)
  unfold takeByte
  split
  · unfold appendByte
    split
    · exact si _
    · split
      · unfold headerTaken
        split
        · split
          · exact dr ..
          · exact si _
        · split
          · exact ring_completeRecord _ h
          · exact si _
      · split
        · exact si _
        · exact ring_completeRecord _ h
  · split
    · exact dr ..
    · exact si _
  · exact h

theorem ring_strobe (b : Bool) (d : Byte) {s : State} (h : RingSound s) : RingSound (strobe b d s) := by
  unfold strobe
  split
  · exact ring_away h ((away_sleepWake ..).trans (away_arbitrate _))
  · split
    · exact ring_takeByte d h
    · split
      · unfold holdTogether
        split
        · split
          · split
            · exact ring_away h (away_mapPort ..)
            · exact h
          · exact h
        · exact h
        · exact h
      · exact h

theorem ring_writeRecord (r : Record) {s : State} (h : RingSound s) : RingSound (writeRecord r s) := by
  unfold writeRecord
  split
  · split
    · exact ring_away h ((away_mapPort ..).trans (away_pushReply ..))
    · exact ring_completeRecord r h
  · have f : ∀ (ds : List Byte) (u : State), RingSound u → RingSound (ds.foldl (fun s d => strobe false d s) u) := by
      intro ds
      induction ds with
      | nil => exact fun _ x => x
      | cons d ds ih => exact fun u x => ih _ (ring_strobe false d x)
    exact f _ s h

theorem ring_readStrobe {s : State} (h : RingSound s) : RingSound (readStrobe s) := by
  have dr : ∀ c : OutCourse, RingSound (driveByte c s) := by
    intro c
    unfold driveByte
    split
    · exact h
    · unfold outboundEnd
      split
      · exact ring_away h ((away_mapPort ..).trans (away_mapPort ..))
      · exact ring_away h away_plain
      · exact ring_settle (ring_away h ((away_mapPort ..).trans (away_mapRings _ _)))
    · exact ring_away h (away_mapPort ..)
  unfold readStrobe
  split
  · split
    · exact dr _
    · split
      · exact dr _
      · exact h
  · exact ring_away h (away_mapPort ..)

/-! ## Events -/

theorem ring_dispatchHeld {s : State} (h : RingSound s) : RingSound (dispatchHeld s) := by
  unfold dispatchHeld
  split
  · exact ring_dispatch _ h
  · exact h
  · exact h

theorem ring_lineRead (v : Vector Byte 1760) {s : State} (h : RingSound s) : RingSound (lineRead v s) := by
  unfold lineRead
  split
  · next c j hc hj =>
    have res : s.rings.scanReserved = 1 := by have := h.one; rw [hc] at this; exact this
    extract_lets r
    clear_value r
    have fr : ∀ (x : Slot) (f : ScanFront),
        scanFree { s with rings := ({ s.rings with scan := s.rings.scan.fillReserved x, scanReserved := s.rings.scanReserved - 1 } : Rings), front := f }
          = scanFree s := by
      intro x f
      unfold scanFree Ring.fillReserved
      dsimp only
      rw [res]
      omega
    refine ⟨⟨?_, ?_, h.fig, ?_⟩, h.waits, h.next, ?_⟩
    · show s.rings.scanReserved - 1 = 0
      omega
    · intro x
      have x : s.scanJob = none := x
      rw [hj] at x; cases x
    · intro i x w
      have := h.bound i x w
      show s.rings.scan.occ + 1 + (s.rings.scanReserved - 1) ≤ _
      omega
    · intro i x w f mv ow
      have := h.room i x w f mv ow
      rw [runRoom_iff] at this ⊢
      rw [fr]; exact this
  · exact h

theorem away_replaceActive (i : Fin 14) (img : List Byte) (s : State) (h : i ≠ 0) : Away s (replaceActive i img s) :=
  (away_setActive _ _ _ h).trans (away_setPending ..)

theorem ring_readoutEnds (v : Vector Byte 1760) {s : State} (h : RingSound s) : RingSound (readoutEnds v s) := by
  unfold readoutEnds
  split
  · refine ring_away h ?_
    unfold calibrationLine
    dsimp only
    split
    · exact away_ite (away_mapFront ..) (away_mapFront ..)
    · exact .refl s
    · refine away_ite (away_mapFront ..) ?_
      unfold endCalibration
      exact (((away_mapFront ..).trans (away_replaceActive _ _ _ (by decide))).trans (away_fillReply ..)).trans (away_raise ..)
  · exact ring_lineRead v h

theorem away_lampWarm (s : State) : Away s (lampWarm s) := by
  unfold lampWarm
  split
  · exact .refl s
  · exact away_ite (away_mapFront ..) (.refl s)

theorem ring_stepFalls (ch : Channel) {s : State} (h : RingSound s) : RingSound (stepFalls ch s) := by
  unfold stepFalls
  cases ch with
  | P =>
    split
    · exact ring_away h (away_issueP s)
    · exact h
  | S =>
    split
    · next hx =>
      rw [Bool.and_eq_true] at hx
      have hx : s.motS.moving = true ∧ s.motS.stepDue = true := hx
      split
      · next ho =>
        split
        · exact h
        · next hl =>
          refine ring_scanStep h ⟨by simpa using hl, ho, ?_, ?_⟩
          · intro j hj f r o
            have := h.room j hj r f hx.1 o
            rw [runRoom_iff] at this
            exact ⟨hx.2, this.1⟩
          · intro j hj hp r
            have fd : j.feeds = true := by unfold ScanJob.feeds; rcases hp with x | x <;> rw [x]
            have := h.room j hj r fd hx.1 ho
            rw [runRoom_iff] at this
            exact ⟨(fun x => by cases x), fun _ => this.2⟩
      · next hn =>
        refine ring_away h (away_motS _ (.inr (.inl ?_)))
        show (Motor.issue s.motS (rampTable .S s) (phaseCount (phaseTable .S s))).owner ≠ _
        rw [issue_owner]
        exact fun x => hn rfl x
    · exact h

theorem away_printRest (s : State) : Away s (printRest s) := by
  unfold printRest
  split
  · exact .refl s
  · split
    · exact .refl s
    · unfold lineDone
      dsimp only
      exact away_ite (away_prtJob ..) (away_ite ((away_prtJob ..).trans (away_pageEnd _)) (away_prtJob ..))
    · exact away_prtJob ..
    · extract_lets s1
      have k : Away s s1 := away_prtJob ..
      exact away_ite k (k.trans (away_afterExit _))

theorem away_motionEnds (ch : Channel) (s : State) : Away s (motionEnds ch s) := by
  have rest : Away s (restChannel .P s) := away_plain
  unfold motionEnds
  split
  · split
    · exact away_motS _ (.inl rfl)
    · exact rest.trans (away_printRest _)
    · refine rest.trans ?_
      unfold takeWaiting
      split
      · exact .refl _
      · exact (away_motP ..).trans (away_requestP ..)
  · exact .refl s

theorem away_headEvent (f : Strobe → Strobe) (s : State) : Away s (headEvent f s) := by
  unfold headEvent
  split
  · exact .refl s
  · split
    · exact .refl s
    · unfold strobesMoved
      exact away_ite ((away_mapPrtJob ..).trans (away_askSteps ..)) (away_mapPrtJob ..)

theorem away_tempExpired (s : State) : Away s (tempExpired s) := by
  unfold tempExpired
  split
  · exact .refl s
  · extract_lets s1
    have k : Away s s1 := away_mapTemp ..
    split
    · exact k
    · exact away_ite (k.trans (away_staleSpellBegins ..)) k

theorem away_romBad (s : State) : Away s (romBad s) :=
  Away.trans (t := { s with boot := { s.boot with state := .portload, romPos := 0, romSum := 0 } }) away_plain (away_raise ..)

theorem ring_romRecord (k sb : Byte) (n : Nat) (p : List Byte) {s : State} (h : RingSound s) : RingSound (romRecord k sb n p s) := by
  unfold romRecord
  extract_lets pos body x
  split
  · exact ring_away h (away_romBad s)
  · split
    · unfold romEnd
      split
      · exact ring_away h (Away.trans (t := startBuild s) away_plain (away_reachReady ..))
      · exact ring_away h (away_romBad s)
    · split
      · exact ring_away h (away_romBad s)
      · have c : RingSound x.1 := by
          simp only [x, romLoad]
          split
          · exact ring_loadSegment _ _ _ _ h
          · exact h
        split
        · exact ring_away c (away_romBad _)
        · exact ring_away c away_plain

end Sys2Proof.Machine
end

