-- ==== Sys2Proof/WellFormed.lean ====
section
/-! DEFINITION. Which commands are ones the outside can send: payloads a record header can state (R2), readout and ROM
operands of the right shape. -/

namespace Sys2Proof

/-- A payload whose length the two length bytes of a header can state (R2). -/
def payloadStatable (n : Nat) : Bool := n ≤ 65535

/-- The DRAM contents given at power-on lie within the largest memory (R61), each address listed once in rising order. -/
def PowerUpDram.wf (d : PowerUpDram) : Bool :=
  d.cells.all (fun c => c.1 < 4194304) && d.badParity.all (fun a => a < 4194304)

/-- Well-formed commands. -/
def Instr.wf : Instr → Bool
  | .line _ payload => payloadStatable payload.length
  | .load _ _ _ image => payloadStatable (image.length + 2)
  | .evack flags => payloadStatable flags.length
  | .diagWrite _ _ _ data => payloadStatable (data.length + 5)
  | .diagWriteSeeded _ _ _ data => payloadStatable (data.length + 5)
  | .powerOn _ (some d) => d.wf
  | .romRecord _ _ len payload => payload.length ≤ len.toNat
  | .wstbStrobe _ _ _ | .rstbStrobe _ | .calibrate | .scan _ _ _ _ _ _ _ _ | .intake _ _ | .intakeEnd | .output _ _
  | .print _ _ _ _ _ _ | .erase _ | .stopScan _ | .stopIntake _ | .stopPrint _ | .stopOutput _ | .resume _ _
  | .move _ _ _ _ | .temp _ _ | .powerDoze _ _ | .powerSleep _ _ | .powerStandby _ _ | .sleepEntry _ | .ready | .restart
  | .queryStatus | .queryPage _ | .queryDir | .queryTable _ _ _ | .queryMem | .diagRead _ _ _ _ | .dramGrantEnd _
  | .refreshDue | .coderLineStart _ | .memwaitExpiry _ | .dirwaitExpiry _ | .decoderLineStart _ | .readoutEnd _
  | .lampwarmExpiry | .motorStep _ _ | .motionEnd _ _ | .holdTimerExpiry _ | .headShiftEnd | .strobeEnd | .gapEnd
  | .tempAgeExpiry | .idleTimerExpiry | .wakeTimerExpiry | .ringRise | .keyRise | .docpRise | .runReached _ | .coverOpen
  | .pfailRise | .pfailFall | .powerOn _ none | .resetAssert | .resetRelease _ | .resetStateEnd _ => true

end Sys2Proof
end

