-- ==== Sys2Proof/Tests/Slice0.lean ====
section
/-! SUPPORT. Tests: ill-formed terms refused, the spec's worked figures, and for every statement with hypotheses a state
and operands that meet them. -/

-- one declaration after the other: run side by side, the proofs of the whole package hold more threads than memory has room for
set_option Elab.async false

namespace Sys2Proof.Tests
open Sys2Proof.Machine

/-! ## Ill-formed terms are refused -/

theorem test_wf_line : Instr.wf (.line 0 (List.replicate 65536 0)) = false := by
  simp only [Instr.wf, payloadStatable, List.length_replicate]; decide
theorem test_wf_load : Instr.wf (.load 0 0 1 (List.replicate 65534 0)) = false := by
  simp only [Instr.wf, payloadStatable, List.length_replicate]; decide
theorem test_wf_evack : Instr.wf (.evack (List.replicate 65536 0)) = false := by
  simp only [Instr.wf, payloadStatable, List.length_replicate]; decide
theorem test_wf_diag : Instr.wf (.diagWrite 0 0 0 (List.replicate 65531 0)) = false := by
  simp only [Instr.wf, payloadStatable, List.length_replicate]; decide
theorem test_wf_seeded : Instr.wf (.diagWriteSeeded 0 0 0 (List.replicate 65531 0)) = false := by
  simp only [Instr.wf, payloadStatable, List.length_replicate]; decide
theorem test_wf_dram (lv : Levels) : Instr.wf (.powerOn lv (some { cells := [(4194304, 1)], badParity := [] })) = false := rfl
theorem test_wf_parity (lv : Levels) : Instr.wf (.powerOn lv (some { cells := [], badParity := [4194304] })) = false := rfl
theorem test_wf_rom : Instr.wf (.romRecord 0x7F 0 2 [0, 0, 0]) = false := by decide

/-- The table gives bits to no row, so no word spells a command, and none is put in the queue. -/
theorem test_no_words (n w : Nat) (s : State) : decodeTableWord n w = none ∧ s.withFetchWord n w = s := ⟨rfl, rfl⟩

/-! ## Worked figures of the spec -/

/-- R27's table: pixels 700 to 705, moved to the front. -/
theorem test_shading :
    shadeLine [20, 220, 20, 220, 18, 214, 60, 64, 70, 70, 21, 221] [3, 4] [141, 12, 230, 90, 10, 121]
      = [154, 0, 255, 255, 255, 128] := by decide
/-- R27: a run of defective pixels from pixel 0 takes 255. -/
theorem test_shading_first : shadeLine [60, 64, 20, 220] [0] [10, 12] = [255, 0] := by decide
/-- R24's table. -/
theorem test_width : outWidth 50 = 864 ∧ sourcePixel 50 863 = 1726 ∧ outWidth 70 = 1209 ∧ sourcePixel 70 1000 = 1428
    ∧ outWidth 200 = 1728 ∧ sourcePixel 200 1727 = 863 := by decide
/-- R33's matrix: line 41, dot 502 has 240 and dot 503 has 112. -/
theorem test_dither :
    byteAt [16, 144, 48, 176, 208, 80, 240, 112, 64, 192, 32, 160, 255, 128, 224, 96] (4 * (41 % 4) + 502 % 4) = 240
      ∧ byteAt [16, 144, 48, 176, 208, 80, 240, 112, 64, 192, 32, 160, 255, 128, 224, 96] (4 * (41 % 4) + 503 % 4) = 112 := by
  decide
/-- R42, R41: eight samples summing to 4 round up to 1, to 3 down to 0. -/
theorem test_mean : meanLevel 4 = 1 ∧ meanLevel 3 = 0 ∧ meanLevel 2040 = 255 := by decide
/-- R99: 5000, 3500, 3600, 2500, 2000, 1600, 1400, 1500: two clamped, the first at offset 5. -/
theorem test_ramp_clamp :
    clampTable tSramp ([8] ++ [5000, 3500, 3600, 2500, 2000, 1600, 1400, 1500].flatMap be16)
      = { image := [8] ++ [5000, 3500, 3500, 2500, 2000, 1600, 1400, 1400].flatMap be16, count := 2, first := 5 } := by
  decide

/-- R126 on R127's figures (S' = 5, m = 2, j = 3): a stop at a boundary takes q = 1 at index 5 and q = 0 at index 2. -/
theorem test_boundary_stop (j : ScanJob) (m : Motor) (hf : j.fig.slewUse = 5 ∧ j.fig.m = 2 ∧ j.fig.j = 3) :
    (m.rampIndex = 5 → boundaryStop j m = 1) ∧ (m.rampIndex = 2 → boundaryStop j m = 0) := by
  simp +contextual [boundaryStop, hf]

/-- R120's ramp. -/
def ramp120 : List Byte := [12] ++ [4000, 3000, 2400, 2000, 1700, 1500, 1300, 1150, 1000, 900, 800, 700].flatMap be16

/-- R120's table of slew indices: FINE, SUPER and STD at 1 MHz, SUPER at 0.5 MHz; and the figures of the first. -/
theorem test_slew_clamp : slewClamp ramp120 1760 2 11 = some 9 ∧ slewClamp ramp120 1760 1 11 = some 3
    ∧ slewClamp ramp120 1760 4 11 = some 11 ∧ slewClamp ramp120 3520 1 11 = some 0
    ∧ figuresOf 9 2 3 = { slewUse := 9, m := 2, j := 5, margin := 4, restart := 7 } := by decide
/-- R105: a burst of 3 steps of a PRAMP 5000, 3500, 3500, 2500 uses entries 0, 1 and 2. -/
theorem test_burst :
    let r : List Byte := [4] ++ [5000, 3500, 3500, 2500].flatMap be16
    let m := Motor.reset.beginBurst .print 3
    (m.issue r 8).interval = 5000 ∧ ((m.issue r 8).issue r 8).interval = 3500
      ∧ (((m.issue r 8).issue r 8).issue r 8).plan.owed = some 0 := by decide
/-- The cover opened during a paper burst (06, worked example): a burst of 4 steps cut off after 2 is told as 2 issued, 2 owed; a
RESTART tells of an unbounded run the steps issued and no number owed (R106). -/
theorem test_abandonment_told :
    let r : List Byte := [4] ++ [5000, 3500, 3500, 2500].flatMap be16
    let m := Motor.reset.beginBurst .print 4
    let u := Motor.reset.beginRun 4 .scan false 3 3 none
    (((m.issue r 8).issue r 8).cutOff byCover).told = some { owner := .print, issued := 2, owed := some 2 }
      ∧ (((u.issue r 8).issue r 8).restarted).told = some { owner := .scan, issued := 2, owed := none } := by decide
/-- R79: next page id 254 with ids 254, 1 and 7 held gives 255, then 2. -/
theorem test_page_ids : pickId [254, 1, 7] 255 254 = 255 ∧ pickId [254, 1, 7, 255] 255 1 = 2 := by decide
/-- R140's table. -/
theorem test_fit : fitRatio 2000 1100 .std = 90 ∧ fitRatio 2000 4400 .super = 90 ∧ fitRatio 2000 2300 .fine = 86
    ∧ fitRatio 2000 5000 .fine = 50 ∧ effRatio 90 .super = 45 := by decide
/-- R144: factor 288 on bases 900, 760, 640, 520; PMAX 1000 limits the first. -/
theorem test_heat :
    let h : List Byte := [900, 760, 640, 520].flatMap be16
    pulseOf h 4000 288 0 = 1012 ∧ pulseOf h 4000 288 1 = 855 ∧ pulseOf h 4000 288 2 = 720 ∧ pulseOf h 4000 288 3 = 585
      ∧ pulseOf h 1000 288 0 = 1000 := by decide
/-- R61, R178: where the reserve of each memory size begins. -/
theorem test_reserves : reserveAddr .m4 = 4177920 ∧ reserveAddr .m2 = 2080768 ∧ reserveAddr .m1 = 1032192
    ∧ reserveAddr .k512 = 507904 := by decide
/-- R102: at the end of a table of 8 patterns the phase index wraps, both ways. -/
theorem test_phase : nextPhase false 8 7 = 0 ∧ nextPhase true 8 0 = 7 := by decide

/-! ## States the statements' premises hold in -/

/-- A SETTINGS image: 512 KiB, pixel clock 0, paper length 2000. -/
def settings : List Byte :=
  [0, 0, 4, 0x07, 0xD0, 5, 0, 10, 50, 200, 0, 100, 0, 100, 0x03, 0xE8, 0x07, 0xD0, 8, 0, 108, 10, 0x03, 0xE8, 1, 0, 100, 0,
    0, 0]

/-- A table of one ramp entry of 5000 µs. -/
def ramp1 : List Byte := 1 :: be16 5000

/-- READY, every table present. -/
def sReady : State :=
  { State.reset with
    boot := { Boot.reset with state := .ready }, pmc := { Pmc.reset with grant := none },
    tables := { Tables.reset with
      active := #v[some settings, some [], some [], some [], some [], some [], some [0], some [], some ramp1, some [1, 5],
                   some ramp1, some [1, 5], some [], some []] } }

/-- The same in DOZE. -/
def sDoze : State := { sReady with power := { Power.reset with state := .doze, mask := 7, wakeTimer := some 1 } }

theorem open_of {s : State} (h : rdy s = true) (h2 : s.port.inbound = .receiving []) (h3 : s.boot.state = .ready) : portOpen s :=
  ⟨h, h2, h3⟩
theorem test_open : portOpen sReady := open_of (by decide) rfl rfl
theorem test_open_doze : portOpen sDoze := open_of (by decide) rfl rfl

def lv0 : Levels :=
  { docp := true, doce := false, papr := true, cover := true, ring := false, key := false, bootsrc := false }

def inb (i : Inbound) (s : State) : State := { s with port := { s.port with inbound := i } }
def course (c : OutCourse) (s : State) : State := { s with port := { s.port with course := some c } }

/-- A COMPLETE page of three lines in one block. -/
def page1 : Entry :=
  { Entry.new 1 .intake .std .intake with state := .complete, lineCount := 3, blockCount := 1, first := 2, last := 2,
                                          writer := none }
def withPage (e : Entry) (s : State) : State := { s with dir := { entries := [e], places := 0, nextId := 2 } }
def sJob : ScanJob := ScanJob.start .scanTx .std 100 false .discard 1 0 (figuresOf 0 4 8)
def pJob : PrintJob := PrintJob.start 1 1 100 false
def iJob (st : IntakeState) : IntakeJob := { state := st, res := .std, policy := .discard, lastCompleted := 0 }
def oJob : OutputJob := { state := .opened, page := 1, consume := false, reason := 0 }
def withScan (j : ScanJob) (s : State) : State := { s with scanJob := some j }
def withPrint (j : PrintJob) (s : State) : State := { s with prtJob := some j }
def withIntake (st : IntakeState) (s : State) : State := { s with intJob := some (iJob st) }
def withCal (c : CalStage) (s : State) : State :=
  { s with front := { s.front with cal := some { stage := c, sums := [], black := [] } } }
def withGrant (b : Burst) (s : State) : State := { s with pmc := { s.pmc with grant := some { burst := b, live := true } } }
def faultS (s : State) : State := { s with motS := { Motor.reset with state := .fault } }

/-! ## One step each -/

/-- A fact about the next state of an outcome. -/
def after (o : Host.Outcome State Fault Refusal) (p : State → Bool) : Bool :=
  match o with
  | .next t => p t
  | .fault _ => false
  | .refused _ => false

/-- R8: a read strobe with ATTN low drives FFh. -/
theorem test_read_idle : after (exec (.rstbStrobe true) State.reset) (fun t => t.port.dataOut = 0xFF) = true := by decide +kernel
/-- R16: STATUS in READY: boot state 6, power state RUN, no job, both channels OFF, no block, no page. -/
theorem test_status :
    statusAnswer sReady = [6, 0, 0, 0, 0, 0, 0, 0, 0, 0, 0, 0, 0, 0, 0, 0, 0, 0, 0, 0, 0, 0, 0, 0, 0] := by decide +kernel
/-- R102, R110: a MOVE of channel P by one step forward raises its step position to 1 and answers OK. -/
theorem test_move_one :
    after (exec (.move 1 0 1 0) sReady) (fun t => t.motP.pos = 1 && t.motP.plan.owed = some 0 && t.motS.pos = 0
      && t.port.replies = [{ kind := 0x30, sub := 0x0A, body := .filled .ok [1, 0, 0, 1, 0] }]) = true := by decide +kernel
/-- R102: a reverse step from 0 gives −1. -/
theorem test_move_back : after (exec (.move 1 1 1 0) sReady) (fun t => t.motP.pos = -1) = true := by decide +kernel
/-- R80, R157: INTAKE makes page 1. -/
theorem test_intake :
    after (exec (.intake 0 0) sReady) (fun t => t.dir.entries.map (·.id) = [1] && t.dir.nextId = 2
      && t.port.replies = [{ kind := 0x30, sub := 3, body := .filled .ok [0, 0, 1] }]) = true := by decide +kernel
/-- R74, R178: on leaving RESET the search begins at 4 MiB, and its read is granted once the cold start's refresh cycle ends. -/
theorem test_leave_reset :
    after (exec (.resetStateEnd lv0) State.reset) (fun t => t.boot.state = .spillcheck && t.spill = .check .m4
      && t.pmc.grant = some { burst := .refresh, live := true }
      && after (exec (.dramGrantEnd lv0) t) (fun u => u.spill = .check .m4
          && u.pmc.grant = some { burst := .spill, live := true })) = true := by decide +kernel
/-- R6: an unknown order code is refused KIND. -/
theorem test_bad_header : headerCheck kOrder 0x0F 0 = some .kind ∧ headerCheck kOrder 0x02 6 = some .length := by decide

/-! ## Every statement's premises are met -/

theorem witness_StepRunsFrontCommand :
    ({ sReady with pending := [.queryDir] } : State).pending = [.queryDir] ∧ State.reset.pending = [] := by decide
theorem witness_StrobesTakeAndDriveBytes :
    let dz := inb (.receiving [0x30, 1, 0]) { sDoze with power := { sDoze.power with returning := some 1 } }
    let ev := raise evBoot 0 0 1 sReady
    let ln := { sReady with rings := { sReady.rings with output := sReady.rings.output.enter Slot.blank } }
    (State.reset.power.state ≠ .sleep ∧ rdy State.reset = false ∧ wakeReturns State.reset = false)
      ∧ (wakeReturns dz = true ∧ dz.port.inbound = .receiving [0x30, 1, 0]
        ∧ runOrder? ([0x30, 1, 0] ++ [0]) = some { kind := 0x30, sub := 1, payload := [] })
      ∧ (rdy (inb (.receiving [0x40, 1]) sReady) = true ∧ ([0x40, 1] : List Byte).length < 3)
      ∧ (attn State.reset = false ∧ attn (course { source := .line, rest := [1, 2] } sReady) = true)
      ∧ (attn (pushReply 0x30 7 (.filled .ok [1]) sReady) = true ∧ sReady.port.course = none)
      ∧ (attn ev = true ∧ replyReady ev = false ∧ ev.events.queue = [evBoot])
      ∧ (attn ln = true ∧ replyReady ln = false ∧ ln.events.queue = [])
      ∧ attn (course { source := .reply, rest := [7] } sReady) = true
      ∧ attn (course { source := .event, rest := [7] } sReady) = true
      ∧ attn (course { source := .line, rest := [7] } sReady) = true := by decide
theorem witness_RecordsAreTheirStrobes :
    rdy sReady = true ∧ sReady.port.inbound = .receiving [] ∧ headerCheck kQuery 2 1 = none ∧ headerCheck kQuery 1 0 = none
      ∧ headerCheck kQuery 1 65535 = some .length ∧ headerCheck 0x70 0 0 = some .kind := by decide
theorem witness_RepliesNeverOverflow : State.reset.repliesSound ∧ step State.reset = .next State.reset :=
  ⟨⟨by decide, by decide⟩, rfl⟩
theorem witness_EventQueueStaysSound : State.reset.queueSound ∧ State.reset.queueReported ∧ step State.reset = .next State.reset :=
  ⟨by unfold State.queueSound; decide, by unfold State.queueReported; decide, rfl⟩
theorem witness_DramStaysCanonical : State.reset.dramSound ∧ step State.reset = .next State.reset := ⟨rfl, rfl⟩
theorem witness_MotorOutputsStayLow : MotorsSound State.reset ∧ step State.reset = .next State.reset :=
  ⟨⟨nofun, nofun, nofun, fun h => absurd rfl h, nofun, fun h => absurd rfl h, fun _ => ⟨.inl rfl, .inl rfl⟩,
    fun h => absurd rfl h, fun _ => ⟨rfl, rfl, rfl, rfl⟩, nofun, fun _ _ => rfl, fun _ _ _ => rfl, fun _ => rfl⟩, rfl⟩
theorem witness_DirectoryAndBlocksStaySound :
    MotorsSound State.reset ∧ PagesSound State.reset ∧ step State.reset = .next State.reset :=
  ⟨witness_MotorOutputsStayLow.1, sound_cold .., rfl⟩
theorem witness_ScanRingKeepsItsBound : PagesSound State.reset ∧ RingSound State.reset ∧ step State.reset = .next State.reset
    ∧ (2 ≤ setRh sReady ∧ sJob.slewReq ≤ 15 * sJob.res.steps ∧ sJob.res.steps ≤ setLead sReady + 2) :=
  ⟨sound_cold .., ring_cold .., rfl, by decide⟩
theorem witness_LineEntersRingOrIsRefused :
    let s := withIntake .opened sReady
    let full := { s with rings := { s.rings with intake := { s.rings.intake with occ := 8 } } }
    (portOpen s ∧ (1 : Byte).toNat ≤ 1 ∧ (List.replicate 216 (0 : Byte)).length ≤ 216 ∧ s.intJob = some (iJob .opened)
        ∧ (iJob .opened).state = .opened ∧ s.rings.intake.full = false
        ∧ (List.replicate 216 (0 : Byte) = [] → s.port.intakeLineNo ≠ 0))
      ∧ (portOpen sReady ∧ ∀ j, sReady.intJob = some j → j.state = .closing)
      ∧ (portOpen full ∧ full.intJob = some (iJob .opened) ∧ full.rings.intake.full = true)
      ∧ s.port.intakeLineNo = 0 :=
  ⟨⟨open_of (by decide) rfl rfl, by decide, by rw [List.length_replicate], rfl, rfl, by decide, by decide +kernel⟩,
    ⟨test_open, fun _ h => nomatch h⟩, ⟨open_of (by decide) rfl rfl, rfl, by decide⟩, rfl⟩
theorem witness_LoadGathersAndInstallsImage :
    let more := setAssembly (some { table := 13, next := 1, bytes := List.replicate 12288 0 }) sReady
    let paged := withPage page1 sReady
    (portOpen sReady ∧ (List.replicate 2046 (0 : Byte)).length ≤ 2046 ∧ 2 ≤ (2 : Byte).toNat ∧ sReady.tables.assembly = none)
      ∧ (portOpen more ∧ ∃ a, more.tables.assembly = some a ∧ a.table = 13 ∧ a.next = (1 : Byte).toNat
        ∧ 12288 < (a.bytes ++ [0]).length)
      ∧ (tableLengthOk 13 (List.replicate 31 0) = false ∧ tableLengthOk 5 (List.replicate 32 3) = true
        ∧ tableEnumsOk 5 (List.replicate 32 3) = false)
      ∧ (tableLengthOk 13 (List.replicate 32 0) = true ∧ tableEnumsOk 13 (List.replicate 32 0) = true)
      ∧ (portOpen (withCal (.dark 0) sReady) ∧ (withCal (.dark 0) sReady).front.cal ≠ none)
      ∧ (tableLengthOk 0 settings = true ∧ tableEnumsOk 0 (1 :: settings.tail) = true ∧ (withIntake .opened sReady).intJob ≠ none)
      ∧ portOpen paged ∧ paged.motS.atRest = true ∧ paged.motP.atRest = true
      ∧ byteAt (1 :: settings.tail) 0 ≠ byteAt (settingsImage paged) 0 ∧ paged.dir.entries ≠ [] :=
  ⟨⟨test_open, by rw [List.length_replicate], by decide, rfl⟩,
    ⟨open_of (by decide) rfl rfl, _, rfl, rfl, rfl, by simp only [List.length_append, List.length_replicate]; decide⟩,
    by decide, by decide, ⟨open_of (by decide) rfl rfl, nofun⟩, ⟨by decide, by decide, nofun⟩, open_of (by decide) rfl rfl, rfl,
    rfl, by decide, nofun⟩
theorem witness_SettingsTakesMasksAndSize :
    portOpen sReady ∧ sReady.scanJob = none ∧ sReady.intJob = none ∧ sReady.prtJob = none ∧ sReady.outJob = none
      ∧ sReady.front.cal = none ∧ sReady.motS.atRest = true ∧ sReady.motP.atRest = true ∧ tableLengthOk 0 settings = true
      ∧ tableEnumsOk 0 settings = true ∧ byteAt settings 0 = byteAt (settingsImage sReady) 0 ∧ sReady.dir.entries = [] :=
  ⟨test_open, rfl, rfl, rfl, rfl, rfl, rfl, rfl, by decide, by decide, by decide, rfl⟩
theorem witness_PendingTablesTakeEffect :
    let s := setPending tSphase (some [1, 5]) (setPending tSramp (some ramp1) sReady)
    let t := { s with motS := ({ Motor.reset with state := .slew, plan := .run false 0 (some 1) 0 false } : Motor).issue ramp1 1 }
    (s.tables.pending[tSramp] = some ramp1 ∧ sReady.tables.pending[tSramp] = none)
      ∧ (tSramp ∈ [tSramp, tSphase, tPramp, tPphase] ∧ tableInUse tSramp s = false ∧ s.tables.pending[tSramp] ≠ none)
      ∧ t.motS.spent = true ∧ t.scanJob = none ∧ t.intJob = none ∧ t.prtJob = none ∧ t.outJob = none ∧ t.printDec = none
      ∧ t.outDec = none ∧ t.scanCd.timer = none ∧ t.scanCd.dirWait = none ∧ t.intakeCd.timer = none
      ∧ t.intakeCd.dirWait = none ∧ t.tables.pending[tSphase] ≠ none := by decide
theorem witness_QueriesAnswerFromState :
    rdy sReady = true ∧ sReady.port.inbound = .receiving [] ∧ copyOf false 0 sReady = some settings
      ∧ 2040 * (0 : Byte).toNat < settings.length ∧ (14 ≤ (14 : Byte).toNat ∧ 2 ≤ (2 : Byte).toNat)
      ∧ copyOf true 13 sReady = none ∧ settings.length ≤ 2040 * (1 : Byte).toNat
      ∧ (List.replicate 2040 (0 : Byte)).length ≤ 2040 * (1 : Byte).toNat := by decide +kernel
/-- R16: TABLE of a pending copy that is absent is NOTABLE. -/
theorem test_table_absent :
    after (exec (.queryTable 13 1 0) sReady) (fun t =>
      t.port.replies = [{ kind := kQuery, sub := 4, body := .filled .notable [] }]) = true := by decide +kernel
theorem witness_FlagsAreRaisedAndAcknowledged :
    portOpen sReady ∧ ([0, 19] : List (Fin 20)) ≠ [] ∧ (List.finRange 20).length ≤ 20
      ∧ ∃ b ∈ ([0, 20] : List Byte), 20 ≤ b.toNat :=
  ⟨test_open, by decide, by decide, by decide⟩
theorem witness_CalibrationStartsAndEnds :
    portOpen sReady ∧ sReady.power.state = .run ∧ sReady.front.cal = none ∧ sReady.scanJob = none ∧ sReady.motS.atRest = true
      ∧ (withCal (.dark 6) sReady).front.cal.map (·.stage) = some (.dark 6) ∧ 6 < 7
      ∧ (withCal (.dark 7) sReady).front.cal.map (·.stage) = some (.dark 7)
      ∧ (withCal (.white 6) sReady).front.cal.map (·.stage) = some (.white 6)
      ∧ (withCal (.white 7) sReady).front.cal.map (·.stage) = some (.white 7) :=
  ⟨test_open, rfl, rfl, rfl, rfl, rfl, by decide, rfl, rfl, rfl⟩
theorem witness_DozeHoldsOrdersAndWakes :
    let back := { sDoze with power := { sDoze.power with returning := some 2 } }
    let bare := { sDoze with power := { sDoze.power with mask := 0 } }
    let due := { sDoze with pmc := { sDoze.pmc with refreshDue := true } }
    (portOpen sDoze ∧ sDoze.power.state = .doze)
      ∧ (sDoze.power.entry = none ∧ sDoze.lines.ring = false ∧ sDoze.lines.key = false ∧ sDoze.lines.docp = false
        ∧ sDoze.power.wakeTimer = some 1 ∧ sDoze.power.returning = none ∧ back.power.returning = some 2
        ∧ sDoze.power.mask.getLsbD 0 = true ∧ sDoze.power.mask.getLsbD 1 = true ∧ sDoze.power.mask.getLsbD 2 = true
        ∧ bare.power.mask.getLsbD 0 = false ∧ sDoze.scanJob = none ∧ sDoze.boot.state ≠ .reset)
      ∧ (∀ why, sDoze.spill ≠ .await why)
      ∧ (withGrant .refresh sDoze).pmc.grant.isSome = true ∧ { sDoze.pmc with selfRefresh := true }.selfRefresh = true
      ∧ (sDoze.pmc.grant = none ∧ sDoze.pmc.selfRefresh = false ∧ sDoze.pmc.srPending = none)
      ∧ nextBurst sDoze = none ∧ nextBurst due = some .refresh :=
  ⟨⟨test_open_doze, rfl⟩, by decide, nofun, rfl, rfl, ⟨rfl, rfl, rfl⟩, by decide, by decide⟩
theorem witness_ScanIsCheckedAndStarts :
    let s := { sReady with lines := { sReady.lines with docp := true } }
    let bare := setActive 0 settings { s with tables := Tables.reset }
    let full := { s with dir := { s.dir with places := 32 } }
    (portOpen s ∧ s.power.state = .run ∧ Origin.scanTx ≠ .intake ∧ s.scanJob = none ∧ s.front.cal = none
        ∧ s.motS.atRest = true ∧ (sense lv0 s).lines.docp = true ∧ lv0.doce = false
        ∧ (∀ id ∈ scanNeeds, (s.tables.active[id]).isSome = true) ∧ s.dir.entries.length + s.dir.places < 32
        ∧ 2 ≤ setJamSteps s ∧ scanFigures .std (min 31 (255 : Byte).toNat) s = some (figuresOf 0 4 8))
      ∧ ((withScan sJob sReady).scanJob ≠ none ∧ (withCal (.dark 0) sReady).front.cal ≠ none
        ∧ (faultS sReady).motS.atRest = false)
      ∧ (portOpen sReady ∧ (sense lv0 sReady).lines.docp = false)
      ∧ (portOpen bare ∧ (sense lv0 bare).lines.docp = true ∧ ∃ id ∈ scanNeeds, bare.tables.active[id] = none)
      ∧ portOpen full ∧ (sense lv0 full).lines.docp = true ∧ (∀ id ∈ scanNeeds, (full.tables.active[id]).isSome = true)
      ∧ 32 ≤ full.dir.entries.length + full.dir.places :=
  ⟨⟨open_of (by decide) rfl rfl, rfl, by decide, rfl, rfl, rfl, rfl, rfl, by decide, by decide, by decide, by decide⟩,
    ⟨nofun, nofun, rfl⟩, ⟨test_open, rfl⟩, ⟨open_of (by decide) rfl rfl, rfl, by decide⟩, open_of (by decide) rfl rfl, rfl,
    by decide, by decide⟩
/-- A page being scanned, of three stored lines or none. -/
def pageS (n : Nat) : Entry := { page1 with state := .filling, writer := some .scan, lineCount := n }
def sWriting (n : Nat) : State :=
  withScan sJob { withPage (pageS n) sReady with scanCd := { Coder.reset with page := some 1, block := some 2, lastEnd := some (2, 9) } }

theorem witness_StopScanTakesEndingDecision :
    portOpen (sWriting 3) ∧ (sWriting 3).front.cal = none ∧ (sWriting 3).scanJob = some sJob ∧ sJob.phase ≠ .ending
      ∧ (sWriting 3).noAsk ∧ (sWriting 3).scanCd.page = some 1 ∧ entryOf 1 (sWriting 3) = some (pageS 3)
      ∧ (pageS 3).headLine ≠ (pageS 3).lineCount
      ∧ (portOpen (sWriting 0) ∧ (sWriting 0).scanJob = some sJob ∧ entryOf 1 (sWriting 0) = some (pageS 0)
        ∧ (pageS 0).headLine = (pageS 0).lineCount ∧ (pageS 0).printRd = none ∧ (pageS 0).outRd = none) :=
  ⟨open_of (by decide) rfl rfl, rfl, rfl, by decide, by unfold State.noAsk; decide, rfl, by decide, by decide,
    open_of (by decide) rfl rfl, rfl, by decide, by decide, rfl, rfl⟩
/-- R83, R84, R129: STOP with keep-partial of a page whose line 0 is part coded completes it truncated, with SCAN_PAGE reason 1,
and the page, with no stored line and no reader, leaves the directory. -/
theorem test_stop_in_line_0 :
    let s := { sWriting 0 with scanCd := { (sWriting 0).scanCd with lastEnd := none } }
    after (exec (.stopScan 1) s) (fun t => t.dir.entries.isEmpty && (t.events.flags[evScanPage]).set
      && (t.events.flags[evScanPage]).page = 1 && (t.events.flags[evScanPage]).reason = 1) = true := by decide +kernel

/-- Channel S in SLEW under a scan job. -/
def sRun (j : ScanJob) : State :=
  withScan j { sReady with motS := { Motor.reset with state := .slew, plan := .run false 0 none 0 false, owner := .scan } }

theorem witness_ScanRunSteps :
    let cap := { sJob with phase := .capture, stepCount := 100 }
    let held := { sRun cap with front := { sReady.front with comp := some { y := 0, last := false } } }
    let rest := withScan { sJob with pause := true } sReady
    let tight := { rest with rings := { rest.rings with scan := { rest.rings.scan with occ := 16 } } }
    let paused := withScan { cap with pause := true } { sReady with lines := { sReady.lines with doce := true } }
    let reading := { paused with front := { sReady.front with comp := some { y := 0, last := false } } }
    let long := { cap with stepCount := 8100, y := 2000 }
    ((sRun sJob).scanJob = some sJob ∧ (sRun sJob).motS.owner = .scan ∧ (sRun sJob).motS.moving = true
        ∧ (sRun sJob).motS.stepDue = true)
      ∧ lineOpen held = true
      ∧ (sJob.phase = .search ∧ lv0.doce = false ∧ sJob.searchCount + 1 < setJamSteps (sRun sJob)
        ∧ setJamSteps (sRun sJob) ≤ 999 + 1 ∧ 998 + 1 < setJamSteps (sRun sJob))
      ∧ (cap.phase = .capture ∧ decide (cap.stepCount + 1 = setLead (sRun cap) + 1 + cap.y * cap.fig.m) = true
        ∧ decide (99 + 1 = setLead (sRun cap) + 1 + cap.y * cap.fig.m) = false)
      ∧ rest.scanJob = some { sJob with pause := true } ∧ rest.motS.atRest = true ∧ sJob.fig.restart ≤ scanFree rest
      ∧ rest.lines.doce = false ∧ scanFree tight < sJob.fig.restart
      ∧ (paused.scanJob = some { cap with pause := true } ∧ paused.motS.atRest = true ∧ cap.fig.restart ≤ scanFree paused
        ∧ paused.lines.doce = true ∧ paused.front.comp = none ∧ reading.front.comp ≠ none ∧ cap.y ≠ setMaxLines paused
        ∧ decide (cap.stepCount + 1 = setLead paused + 1 + cap.y * cap.fig.m) = true
        ∧ decide (99 + 1 = setLead paused + 1 + cap.y * cap.fig.m) = false)
      ∧ (decide (long.stepCount + 1 = setLead paused + 1 + long.y * long.fig.m) = true ∧ long.y = setMaxLines paused) := by
  decide
theorem witness_ScanLineBoundaries :
    let cap := { sJob with phase := .capture, stepCount := 100 }
    let long := { cap with stepCount := 8100, y := 2000 }
    let s := { sRun cap with lines := { sReady.lines with docp := true } }
    let full := { s with dir := { s.dir with places := 32 } }
    (s.scanJob = some cap ∧ s.motS.owner = .scan ∧ s.motS.moving = true ∧ s.motS.stepDue = true ∧ cap.phase = .capture
        ∧ s.front.comp = none ∧ cap.stepCount + 1 = setLead s + 1 + cap.y * cap.fig.m ∧ cap.y ≠ setMaxLines s)
      ∧ (long.stepCount + 1 = setLead s + 1 + long.y * long.fig.m ∧ long.y = setMaxLines s)
      ∧ (0 + setTail s < 101 + cap.fig.m ∧ ¬ 5 + setTail s < 101 + cap.fig.m)
      ∧ ((sense lv0 s).lines.docp = true ∧ cap.pageCount < cap.pageLimit ∧ s.dir.entries.length + s.dir.places < 32)
      ∧ 32 ≤ full.dir.entries.length + full.dir.places ∧ (sense lv0 (sRun cap)).lines.docp = false := by decide
theorem witness_ReadoutFillsReservedSlot :
    let s := withScan sJob { sReady with front := { sReady.front with comp := some { y := 0, last := true } } }
    s.front.cal = none ∧ s.front.comp = some { y := 0, last := true } ∧ s.scanJob = some sJob := ⟨rfl, rfl, rfl⟩

/-- A line of one mode record at zoom 100. -/
def inputs (mode : List Byte) : LineInputs :=
  { zoom := 100, stampOn := false, y := 0, corrected := [], toneA := [7], toneB := [], dither := [], modes := mode,
    zones := [1, 0, 0, 0, 5, 0, 0, 0, 9, 3], stamp := [], errorRow := [] }

theorem witness_FixedThresholdDecidesDot :
    1727 < outWidth (inputs [0, 255]).zoom ∧ ((inputs [0, 255]).modeAt 1727).method = 0
      ∧ ((inputs [0, 255]).modeAt 1727).threshold = 255 ∧ ((inputs [0, 0]).modeAt 1727).threshold = 0 := by decide
theorem witness_DiffusionDecidesAndSharesError :
    1726 + 1 < outWidth (inputs [2]).zoom ∧ 2 ≤ ((inputs [2]).modeAt 1726).method := by decide
theorem witness_HighestZoneGivesMode :
    0 < byteAt (inputs []).zones 0 ∧ zoneHolds (inputs []).zones 0 5 9 = true ∧ zoneHolds (inputs []).zones 0 6 9 = false
      ∧ 1727 < outWidth 100 ∧ outWidth 99 ≤ 1727 ∧ sourcePixel 200 0 = sourcePixel 200 1 := by decide
theorem witness_ErrorRowStaysInRange : outWidth 50 ≤ 864 := by decide
theorem witness_LineCodeRoundTrip : 1 < (codeLine none whiteLine).length := by decide +kernel
theorem witness_LineFormAndLength : 1 + (lineRunUnits whiteLine).length ≤ 217 ∧ (none : Option Line) ≠ some whiteLine
    ∧ 217 < 1 + (lineRunUnits (lineOfDots ((List.range 1728).map (· % 2 = 1)))).length := by decide +kernel

/-- The scan context in the middle of a page, one line in its ring. -/
def sCoding : State :=
  { sReady with scanCd := { Coder.reset with page := some 1, block := some 2, wpos := 1019 },
                rings := { sReady.rings with scan := sReady.rings.scan.enter Slot.blank } }

/-- A print pass over page 1. -/
def sPass (lost : Bool) : State := setPass .print (some { passStart page1 with outOfStep := lost }) (withPage page1 sReady)

theorem witness_ContextsBeginLines :
    let ask (b : Option Nat) (w : Nat) : State :=
      { withPage (pageS 3) sReady with scanCd := { Coder.reset with page := some 1, block := b, wpos := w },
                                       rings := { sReady.rings with scan := sReady.rings.scan.enter Slot.blank } }
    let list (n : Nat) (known reading : Bool) : State :=
      { ask (some 2) 1020 with pmc := { sReady.pmc with
        count := n, linkKnown := known, head := 5,
        grant := if reading then some { burst := .upkeep (.readLink 5), live := true } else none } }
    let paged (es : List Entry) : State :=
      { ask none 0 with scanCd := Coder.reset, dir := { entries := es, places := 0, nextId := 3 } }
    let feeds (places : Nat) : State :=
      withIntake .opened { sReady with rings := { sReady.rings with intake := sReady.rings.intake.enter Slot.blank },
                                       dir := { sReady.dir with places := places } }
    let other : Entry := { page1 with id := 2 }
    ((coderOf .scan sCoding).st = .idle ∧ 0 < (coderRing .scan sCoding).occ ∧ (coderOf .scan sCoding).dirWait = none
        ∧ (coderOf .scan sCoding).page = some 1 ∧ (coderOf .scan sCoding).block = some 2 ∧ (coderOf .scan sCoding).wpos = 1019)
      ∧ ((ask none 0).scanCd.block = none ∧ (ask (some 2) 1020).scanCd.wpos = 1020 ∧ (ask none 0).scanCd.st = .idle
        ∧ 0 < (ask none 0).rings.scan.occ ∧ (ask none 0).scanCd.page = some 1 ∧ (ask none 0).pmc.build = none
        ∧ (ask none 0).pmc.count = 0 ∧ entryOf 1 (ask none 0) = some (pageS 3))
      ∧ ((list 1 false false).pmc.linkKnown = false ∧ (list 1 true true).pmc.readingLink = true
        ∧ { sReady.pmc with build := some 0 }.build ≠ none)
      ∧ ((list 1 true false).pmc.build = none ∧ 0 < (list 1 true false).pmc.count ∧ (list 1 true false).pmc.linkKnown = true
        ∧ (list 1 true false).pmc.readingLink = false)
      ∧ ((paged [other, pageS 0]).scanCd.st = .idle ∧ 0 < (paged [other, pageS 0]).rings.scan.occ
        ∧ (paged [other, pageS 0]).scanCd.page = none
        ∧ (paged [other, pageS 0]).dir.entries = [other] ++ pageS 0 :: [] ∧ (pageS 0).state = .filling
        ∧ (pageS 0).writer = some .scan ∧ (∀ x ∈ [other], ¬(x.state = .filling ∧ x.writer = some .scan))
        ∧ ∀ x ∈ (paged [other]).dir.entries, ¬(x.state = .filling ∧ x.writer = some .scan))
      ∧ ((feeds 31).intakeCd.st = .idle ∧ 0 < (feeds 31).rings.intake.occ ∧ (feeds 31).intakeCd.page = none
        ∧ (feeds 31).intakeCd.dirWait = none ∧ (feeds 31).intJob = some (iJob .opened)
        ∧ (feeds 31).dir.entries.length + (feeds 31).dir.places < 32
        ∧ 32 ≤ (feeds 32).dir.entries.length + (feeds 32).dir.places)
      ∧ (passOf .print (sPass true) = some { passStart page1 with outOfStep := true } ∧ (passStart page1).reading = none
        ∧ (decoderRing .print (sPass true)).full = false ∧ entryOf 1 (sPass true) = some page1
        ∧ (passStart page1).linePos < page1.lineCount ∧ passOf .print (sPass false) = some (passStart page1)) := by decide
theorem witness_DramReadsBackWithParity : Memory.reset.wf = true := rfl
theorem witness_CoderBurstsAndRefresh :
    let code (us todo : List Byte) (w : Nat) : State := withGrant (.code .scan 9 us)
      { withPage (pageS 3) sReady with
        scanCd := { Coder.reset with st := .coding, todo := todo, wpos := w, block := some 2, page := some 1 } }
    let listed := { code [1, 2] [1, 2, 3] 1018 with pmc := { sReady.pmc with count := 1, head := 5 } }
    let lastOf := { code [1, 2] [1, 2] 9 with
      rings := { sReady.rings with scan := sReady.rings.scan.enter { Slot.blank with last := true } } }
    ((withGrant .refresh sReady).pmc.grant = some { burst := .refresh, live := true } ∧ sReady.pmc.selfRefresh = false
        ∧ sReady.pmc.srPending = none ∧ sReady.spill = .idle ∧ sReady.pmc.grant = none)
      ∧ ((code [1, 2] [1, 2, 3] 1017).pmc.grant = some { burst := .code .scan 9 [1, 2], live := true } ∧ 2 < 3 ∧ 1017 + 2 < 1020)
      ∧ (1018 + 2 = 1020 ∧ (code [1, 2] [1, 2, 3] 1018).pmc.build = none ∧ (code [1, 2] [1, 2, 3] 1018).pmc.count = 0
        ∧ 0 < listed.pmc.count ∧ listed.pmc.linkKnown = true)
      ∧ (((coderRing .scan (code [1, 2] [1, 2] 9)).slot 0).last = false
        ∧ entryOf 1 (code [1, 2] [1, 2] 9) = some (pageS 3) ∧ (pageS 3).lineCount + 1 < 65535)
      ∧ ((coderRing .scan lastOf).slot (coderRing .scan lastOf).head).last = true
      ∧ (pageS 3).headLine ≤ (pageS 3).lineCount ∧ lastOf.scanCd.asking = false ∧ lastOf.scanCd.st ≠ .memwait := by decide

/-- The output context reading the first line of page 1, block 2 holding the bytes given. -/
def sReading (bytes : List Byte) (h : Nat × Nat) (off : Nat) (r : LineRead) : State :=
  { setPass .output (some { passStart page1 with off := off, header := some h, reading := some r })
      (withPage page1 (withGrant (.decode .output) sReady)) with dram := Memory.reset.writeAll (unitAddr 2 0) false bytes }
def fresh : LineRead := { parse := .mark, parity := false, markParity := false, crossed := [] }

theorem witness_DecoderBurstsReadLines :
    let s := sReading [2, 0x86, 0xC0] (9, 3) 0 fresh
    let bad := { s with dram := s.dram.write (unitAddr 2 1) 0x86 true }
    let lost := { s with dram := s.dram.write (unitAddr 2 0) 2 true }
    (s.pmc.grant = some { burst := .decode .output, live := true } ∧ (passOf .output s).map (·.block) = some (some 2)
        ∧ (passOf .output s).map (·.reading) = some (some fresh) ∧ entryOf 1 s = some page1 ∧ 0 < min 3 1020)
      ∧ (codeLine none whiteLine = s.dram.readAll (unitAddr 2 0) 3 ∧ 0 + 3 ≤ min 3 1020
        ∧ s.dram.parityAll (unitAddr 2 0) 3 = true)
      ∧ (bad.dram.parityAll (unitAddr 2 0) 3 = false ∧ bad.dram.parityOk (unitAddr 2 0) = true)
      ∧ lost.dram.parityOk (unitAddr 2 0) = false
      ∧ (fresh.parse.ended = false ∧ (fresh.parse.feedAll (s.dram.readAll (unitAddr 2 0) 2)).ended = false)
      ∧ min 3 1020 ≤ 3 ∧ 9 ≠ noBlock := by decide +kernel
/-- A line begun in a burst before, units that make no line, and a REPEAT with no previous line. -/
theorem witness_DecoderBurstsReadLines_goesOn :
    let on : LineRead := { fresh with parse := .runs false 0 0 none 0 }
    let s := sReading [2, 0x86, 0xC0] (9, 3) 1 on
    let bad := sReading [9] (9, 1) 0 fresh
    let again := sReading [1] (9, 1) 0 fresh
    (on.parse = Parse.mark.feedAll [2] ∧ on.markParity = false ∧ codeLine none whiteLine = [2] ++ s.dram.readAll (unitAddr 2 1) 2
        ∧ 1 + 2 ≤ min 3 1020 ∧ on.crossed = [] ∧ on.parity = false ∧ s.dram.parityAll (unitAddr 2 1) 2 = true
        ∧ { on with parity := true }.parity = true)
      ∧ (fresh.parse.feedAll (bad.dram.readAll (unitAddr 2 0) 0)).ended = false
      ∧ fresh.parse.feedAll (bad.dram.readAll (unitAddr 2 0) 1) = .lost
      ∧ fresh.parse.feedAll (again.dram.readAll (unitAddr 2 0) 1) = .done none
      ∧ (passOf .output again).map (·.prev) = some none ∧ again.dram.parityOk (unitAddr 2 0) = true := by decide +kernel
/-- R57, R89: a line begun in block 1 and ended in block 2 is placed; the consuming reader then leaves block 1, the head line 1
at unit 2 of block 2. -/
theorem test_line_ends_in_a_later_block :
    let e := { page1 with blockCount := 2, first := 1, outRd := some (readerStart page1 true) }
    let r : LineRead := { fresh with parse := .runs false 0 0 none 0, crossed := [2] }
    let s := { sReading [0x86, 0xC0] (9, 2) 0 r with dir := { entries := [e], places := 0, nextId := 2 } }
    (r.crossed = [2] ∧ e.reader .output = some (readerStart page1 true) ∧ (readerStart page1 true).consume = true
        ∧ 1 < e.blockCount ∧ s.intakeCd.asking = false)
      ∧ after (exec (.dramGrantEnd lv0) s) (fun t => t.rings.output.occ = 1 && t.pmc.count = 1
          && (t.outDec.map (·.prev)) = some (some whiteLine)
          && t.dir.entries.map (fun e => (e.first, e.blockCount, e.headLine, e.headOff)) = [(2, 1, 1, 2)]) = true := by
  decide +kernel
theorem witness_DecoderBurstsReadLines_consume :
    let e := { page1 with blockCount := 2, first := 1, outRd := some (readerStart page1 true) }
    e.reader .output = some (readerStart page1 true) ∧ (readerStart page1 true).consume = true ∧ 1 < e.blockCount
      ∧ ({ fresh with crossed := [2] } : LineRead).parse = .mark ∧ sReady.scanCd.block ≠ some 2 ∧ sReady.intakeCd.block ≠ some 2 := by
  decide
theorem witness_FreeListBuildsAndJoins :
    let s := { sReady with pmc := { sReady.pmc with build := some 495 } }
    let r := withGrant (.upkeep (.readLink 5)) { sReady with pmc := { sReady.pmc with head := 5, linkKnown := false, count := 1 } }
    (s.tables.active[tSettings] ≠ none ∧ s.pmc.build = some (nBlocks s - 17) ∧ 494 < nBlocks s - 17
        ∧ s.scanCd.asking = false ∧ s.intakeCd.asking = false ∧ s.scanCd.st ≠ .memwait ∧ s.intakeCd.st ≠ .memwait ∧ 0 < 1)
      ∧ r.pmc.grant = some { burst := .upkeep (.readLink 5), live := true } ∧ r.pmc.head = 5 ∧ r.pmc.linkKnown = false := by
  decide
theorem witness_NewPageIdIsFree : sReady.dir.entries.length < 255 ∧ 1 ≤ sReady.dir.nextId ∧ sReady.dir.nextId ≤ 255 := by
  decide
/-- An intake page of `n` stored lines of which `h` are consumed, its job as given, the context at rest. -/
def sIntake (st : IntakeState) (n h : Nat) : State :=
  withIntake st { withPage { page1 with state := .filling, writer := some .intake, lineCount := n, headLine := h } sReady with
    intakeCd := { Coder.reset with page := some 1, block := some 2, lastEnd := some (2, 9) } }

theorem witness_IntakeOpensEndsAndStops :
    let c (n h : Nat) : State := sIntake .closing n h
    let e (n h : Nat) : Entry := { page1 with state := .filling, writer := some .intake, lineCount := n, headLine := h }
    (portOpen sReady ∧ sReady.intJob = none
        ∧ sReady.dir.entries.length + ({ sReady.dir with places := 31 } : Directory).places < 32)
      ∧ (portOpen (withIntake .opened sReady) ∧ (withIntake .opened sReady).intJob = some (iJob .opened)
        ∧ (iJob .opened).state = .opened ∧ portOpen (withIntake .closing sReady)
        ∧ (withIntake .closing sReady).intJob = some (iJob .closing) ∧ (withIntake .opened sReady).noAsk)
      ∧ ((c 3 0).intJob = some (iJob .closing) ∧ (iJob .closing).state = .closing ∧ (c 3 0).rings.intake.occ = 0
        ∧ (c 3 0).intakeCd.st = .idle ∧ ((c 3 0).events.flags[evIntakeEnd]).set = false ∧ (c 3 0).intakeCd.page = some 1
        ∧ (c 3 0).intakeCd.block = some 2 ∧ (c 3 0).intakeCd.lastEnd = some (2, 9))
      ∧ (entryOf 1 (c 0 0) = some (e 0 0) ∧ (e 0 0).lineCount = 0)
      ∧ (entryOf 1 (c 3 0) = some (e 3 0) ∧ (e 3 0).lineCount ≠ 0 ∧ (e 3 0).headLine ≠ (e 3 0).lineCount)
      ∧ (entryOf 1 (c 3 3) = some (e 3 3) ∧ (e 3 3).headLine = (e 3 3).lineCount ∧ (e 3 3).printRd = none
        ∧ (e 3 3).outRd = none)
      ∧ ((c 3 0).scanJob = none ∧ (c 3 0).prtJob = none ∧ (c 3 0).printDec = none ∧ (c 3 0).outJob = none
        ∧ (c 3 0).outDec = none ∧ (c 3 0).scanCd.dirWait = none ∧ (c 3 0).intakeCd.dirWait = none)
      ∧ (c 3 0).noAsk :=
  ⟨⟨test_open, rfl, by decide⟩,
    ⟨open_of (by decide) rfl rfl, rfl, rfl, open_of (by decide) rfl rfl, rfl, by unfold State.noAsk; decide⟩, by decide,
    by decide, by decide, by decide, ⟨rfl, rfl, rfl, rfl, rfl, rfl, rfl⟩, by unfold State.noAsk; decide⟩
/-- R162: a CLOSING job with its ring empty and its context idle completes its page of three lines, not truncated. -/
theorem test_intake_ends :
    let t := settle (sIntake .closing 3 0)
    (t.intJob.isNone && (t.events.flags[evIntakeEnd]).page = 1 && (t.events.flags[evIntakeEnd]).reason = 0
      && t.dir.entries.map (fun e => (e.state, e.truncated)) = [(.complete, false)])
        = true := by decide +kernel
theorem witness_OutputStartsStopsAndEnds :
    let read (consume : Bool) (n : Nat) : Entry := { page1 with outRd := some { readerStart page1 consume with linePos := n } }
    let at' (n : Nat) (e : Entry) : State := { withPage e sReady with outDec := some { passStart page1 with linePos := n } }
    let last (e : Entry) : State := { withPage e sReady with outJob := some { oJob with state := .closing, reason := 1 } }
    let erase : Entry := { read false 3 with state := .erasing }
    let gone (e : Entry) : Prop :=
      (e.state = .erasing ∧ e.printRd = none) ∨ e.state = .complete ∧ e.headLine = e.lineCount ∧ e.printRd = none
    (portOpen (withPage page1 sReady) ∧ (withPage page1 sReady).outJob = none
        ∧ entryOf (1 : Byte).toNat (withPage page1 sReady) = some page1 ∧ page1.state = .complete ∧ page1.printRd = none
        ∧ page1.outRd = none ∧ portOpen { sReady with outJob := some oJob } ∧ oJob.state = .opened)
      ∧ ((at' 3 page1).outDec = some { passStart page1 with linePos := 3 } ∧ (passStart page1).reading = none
        ∧ entryOf 1 (at' 3 page1) = some page1 ∧ page1.state ≠ .filling ∧ page1.lineCount ≤ 3
        ∧ (at' 2 page1).outDec = some { passStart page1 with linePos := 2 } ∧ ¬page1.lineCount ≤ 2)
      ∧ ((last page1).outJob = some { oJob with state := .closing, reason := 1 } ∧ (last page1).outDec = none
        ∧ (last page1).rings.output.occ = 0 ∧ ((last page1).events.flags[evOutputEnd]).set = false
        ∧ 0 < (sReady.rings.output.enter Slot.blank).occ ∧ (at' 2 page1).outDec ≠ none ∧ (last page1).noAsk)
      ∧ (entryOf 1 (last erase) = some erase ∧ gone erase ∧ entryOf 1 (last (read true 3)) = some (read true 3)
        ∧ (read true 3).lineCount = 3)
      ∧ (gone { read false 3 with headLine := 3 })
      ∧ (entryOf 1 (last (read false 3)) = some (read false 3) ∧ ¬gone (read false 3) ∧ ¬gone (read true 2))
      ∧ ((last page1).scanJob = none ∧ (last page1).intJob = none ∧ (last page1).prtJob = none ∧ (last page1).printDec = none
        ∧ (last page1).scanCd.dirWait = none ∧ (last page1).intakeCd.dirWait = none) :=
  ⟨⟨open_of (by decide) rfl rfl, rfl, by decide, rfl, rfl, rfl, open_of (by decide) rfl rfl, rfl⟩, by decide,
    ⟨rfl, rfl, rfl, by decide, by decide, nofun, by unfold State.noAsk; decide⟩, by decide, by decide, by decide,
    ⟨rfl, rfl, rfl, rfl, rfl, rfl⟩⟩
/-- R164, R90: a consumed page goes with its reader at the job's end, OUTPUT_END reason 0. -/
theorem test_output_ends :
    let e : Entry := { page1 with headLine := 3, outRd := some { consume := true, linePos := 3, block := noBlock } }
    let t := settle { withPage e sReady with outJob := some { oJob with consume := true } }
    (t.outJob.isNone && t.dir.entries.isEmpty && (t.events.flags[evOutputEnd]).set && (t.events.flags[evOutputEnd]).page = 1)
        = true := by decide +kernel
theorem witness_EraseFreesOrMarksPage :
    let read := { page1 with outRd := some (readerStart page1 false) }
    let fill := Entry.new 1 .intake .std .intake
    (portOpen (withPage page1 sReady) ∧ entryOf (2 : Byte).toNat (withPage page1 sReady) = none)
      ∧ (entryOf (1 : Byte).toNat (withPage page1 sReady) = some page1 ∧ page1.state = .complete ∧ page1.printRd = none
        ∧ page1.outRd = none)
      ∧ (entryOf (1 : Byte).toNat (withPage fill sReady) = some fill ∧ fill.state ≠ .complete)
      ∧ entryOf (1 : Byte).toNat (withPage read sReady) = some read ∧ read.state = .complete ∧ read.outRd ≠ none :=
  ⟨⟨open_of (by decide) rfl rfl, by decide⟩, by decide, by decide, by decide⟩
theorem witness_WaitExpiryAndScanEnd :
    let i := withIntake .opened { sReady with intakeCd := { Coder.reset with st := .memwait, timer := some 5 } }
    let k := withIntake .opened { sReady with intakeCd := { Coder.reset with dirWait := some 0 } }
    let u := withScan sJob { sReady with scanCd := { Coder.reset with st := .memwait, timer := some 5 } }
    let v := withScan sJob { sReady with scanCd := { Coder.reset with dirWait := some 5 } }
    let en (r : Nat) : ScanJob := { sJob with phase := .ending, endReason := r }
    let ro (n : Nat) : ScanJob := { sJob with phase := .runout, pageCount := n }
    let e := withScan (en 5) sReady
    let six := withScan (en 6) sReady
    let busy := withScan (en 6) (withPage (pageS 3) sReady)
    let o := withScan (ro 1) (withPage page1 sReady)
    ((i.intakeCd.st = .memwait ∧ i.intJob = some (iJob .opened)) ∧ (k.intakeCd.dirWait ≠ none ∧ k.intJob = some (iJob .opened))
        ∧ (u.scanCd.st = .memwait ∧ u.scanJob = some sJob) ∧ v.scanCd.dirWait ≠ none ∧ v.scanJob = some sJob)
      ∧ (e.scanJob = some (en 5) ∧ (en 5).phase = .ending ∧ e.motS.moving = false ∧ (en 5).endReason < 6)
      ∧ (six.scanJob = some (en 6) ∧ six.motS.moving = false ∧ six.scanCd.page = none
        ∧ (∀ x ∈ six.dir.entries, x.state = .filling → x.writer ≠ some .scan) ∧ ¬(en 6).endReason < 6)
      ∧ ({ en 5 with docHeld := some (1, 7) }.docHeld ≠ none ∧ (en 5).docHeld = none)
      ∧ (o.scanJob = some (ro 1) ∧ (ro 1).phase = .runout ∧ o.motS.atRest = true ∧ o.scanCd.page = none
        ∧ (∀ x ∈ o.dir.entries, x.state = .filling → x.writer ≠ some .scan) ∧ (ro 1).pageCount = (ro 1).pageLimit
        ∧ (ro 0).pageCount ≠ (ro 0).pageLimit)
      ∧ ((sRun sJob).scanJob = some sJob ∧ sJob.phase = .search ∧ (sRun (en 5)).motS.moving = true
        ∧ 6 ≤ (en 6).endReason ∧ (∃ x ∈ busy.dir.entries, x.state = .filling ∧ x.writer = some .scan)
        ∧ (sRun (ro 1)).motS.atRest = false)
      ∧ e.scanCd.timer ≠ some 0 ∧ e.scanCd.dirWait = none ∧ e.intJob = none ∧ e.intakeCd.dirWait = none ∧ e.prtJob = none
      ∧ e.printDec = none ∧ e.outJob = none ∧ e.outDec = none := by decide
/-- The scan context in a memory wait over a page of `n` lines, the policy as given. -/
def sWaiting (p : Policy) (n : Nat) : State :=
  withScan { sJob with policy := p } { sWriting n with scanCd := { (sWriting n).scanCd with st := .memwait, timer := some 5 } }
/-- The same of the intake context. -/
def iWaiting (p : Policy) (n h : Nat) : State :=
  { sIntake .opened n h with
    intJob := some { iJob .opened with policy := p },
    intakeCd := { (sIntake .opened n h).intakeCd with st := .memwait, timer := some 5 } }

theorem witness_WaitExpiryAndScanEnd_policy :
    let e (n h : Nat) : Entry := { page1 with state := .filling, writer := some .intake, lineCount := n, headLine := h }
    ((sWaiting .discard 3).scanCd.st = .memwait ∧ (sWaiting .discard 3).scanCd.page = some 1
        ∧ entryOf 1 (sWaiting .discard 3) = some (pageS 3) ∧ { sJob with policy := .discard }.policy = Policy.discard
        ∧ entryOf 1 (sWaiting .truncate 0) = some (pageS 0) ∧ (pageS 0).headLine = (pageS 0).lineCount
        ∧ (pageS 3).headLine ≠ (pageS 3).lineCount ∧ (pageS 0).printRd = none ∧ (pageS 0).outRd = none)
      ∧ (iWaiting .truncate 3 0).intakeCd.st = .memwait ∧ (iWaiting .truncate 3 0).intakeCd.page = some 1
      ∧ ((iWaiting .truncate 3 0).events.flags[evIntakeEnd]).set = false ∧ entryOf 1 (iWaiting .truncate 3 0) = some (e 3 0)
      ∧ entryOf 1 (iWaiting .truncate 3 3) = some (e 3 3) ∧ (e 3 0).headLine ≠ (e 3 0).lineCount
      ∧ (e 3 3).headLine = (e 3 3).lineCount ∧ (e 3 3).printRd = none ∧ (e 3 3).outRd = none := by decide
/-- R131, R160: at a memory wait's expiry TRUNCATE completes the page of three lines, DISCARD removes it. -/
theorem test_policies :
    let pages (t : State) : List (PageState × Bool × Nat) := t.dir.entries.map fun e => (e.state, e.truncated, e.lineCount)
    after (exec (.memwaitExpiry .scan) (sWaiting .truncate 3)) (fun t => pages t = [(.complete, true, 3)]
          && (t.events.flags[evScanEnd]).page = 1 && (t.events.flags[evScanEnd]).reason = 5) = true
      ∧ after (exec (.memwaitExpiry .scan) (sWaiting .discard 3)) (fun t => pages t = []
          && (t.events.flags[evScanEnd]).page = 0) = true
      ∧ after (exec (.memwaitExpiry .intake) (iWaiting .truncate 3 0)) (fun t => pages t = [(.complete, true, 3)]
          && (t.events.flags[evIntakeEnd]).page = 1 && (t.events.flags[evIntakeEnd]).reason = 2) = true
      ∧ after (exec (.memwaitExpiry .intake) (iWaiting .discard 3 0)) (fun t => pages t = []
          && (t.events.flags[evIntakeEnd]).page = 0) = true := by decide +kernel
/-- R122, R129: at rest in ENDING the scan ends, LAMP low, SCAN_END before DOC_HELD. -/
theorem test_scan_ends :
    let t := settle (withScan { sJob with phase := .ending, endReason := 5, docHeld := some (1, 7) }
      { sReady with front := { sReady.front with lamp := true } })
    (t.scanJob.isNone && !t.front.lamp && t.events.queue = [evScanEnd, evDocHeld] && (t.events.flags[evScanEnd]).reason = 5
      && (t.events.flags[evDocHeld]).page = 7 && (t.events.flags[evDocHeld]).reason = 1) = true := by decide +kernel
theorem witness_MotorPlansIssueTheirSteps :
    let m := Motor.reset.beginRun 1 .print false 0 0 (some 1)
    m.plan = .run false 0 (some 1) 0 false ∧ 0 < 0 + 1 + 0
      ∧ ({ Motor.reset with state := .slew, plan := .run false 0 none 0 false } : Motor).state = .slew
      ∧ ({ Motor.reset with state := .accel, plan := .run false 2 none 0 false } : Motor).state = .accel := by decide
theorem witness_MoveBeginsBoundedRun :
    portOpen sReady ∧ sReady.power.state = .run ∧ (motorOf .P sReady).atRest = true ∧ jobOn .P sReady = false
      ∧ motorTables .P sReady = true ∧ (motorOf .S sReady).atRest = true ∧ jobOn .S sReady = false
      ∧ motorTables .S sReady = true :=
  ⟨test_open, rfl, rfl, rfl, by decide, rfl, rfl, by decide⟩
theorem witness_MotorStepsThenHolds :
    let m : Motor := { Motor.reset with state := .slew, plan := .run false 0 (some 1) 0 false, owner := .move }
    let b : Motor := { m with state := .burst, plan := .burst 1 0, owner := .print }
    let s := setMotor .S m sReady
    let t := setMotor .S (m.issue ramp1 1) sReady
    let w := setMotor .P { m.issue ramp1 1 with waiting := some (.burst 2) } sReady
    let v := setMotor .P { m.issue ramp1 1 with waiting := some (.run true 0 0 (some 1)) } sReady
    ((motorOf .S s).moving = true ∧ (motorOf .S s).stepDue = true ∧ (motorOf .S s).owner ≠ .scan)
      ∧ (b.moving = true ∧ b.stepDue = true ∧ b.owner ≠ .scan) ∧ (motorOf .S t).spent = true
      ∧ ((motorOf .P w).spent = true ∧ (motorOf .P w).owner ≠ .print ∧ (motorOf .P w).waiting = some (.burst 2))
      ∧ (motorOf .P v).spent = true ∧ (motorOf .P v).waiting = some (.run true 0 0 (some 1)) := by decide
theorem witness_CoverFaultsAndResume :
    let p (n : Nat) (x : Bool) := { pJob with cycle := .suspended, owed := n, owedExit := x }
    (sReady.lines.cover = true ∧ (sReady.power.state = .run ∨ sReady.power.state = .doze) ∧ sReady.boot.state ≠ .reset)
      ∧ ((sRun sJob).lines.cover = true ∧ (motorOf .S (sRun sJob)).moving = true ∧ (motorOf .S (sRun sJob)).owner = .scan)
      ∧ (portOpen (faultS sReady) ∧ (motorOf .S (faultS sReady)).state = .fault
        ∧ (sense lv0 (faultS sReady)).lines.cover = true ∧ (faultS sReady).lines.pfail = false)
      ∧ ((motorOf .S sReady).state ≠ .fault ∧ (motorOf .P sReady).state ≠ .fault ∧ sReady.prtJob = none
        ∧ (sense { lv0 with cover := false } { sReady with lines := { sReady.lines with cover := false } }).lines.cover = false)
      ∧ pJob.cycle ≠ .suspended
      ∧ portOpen (withPrint (p 0 false) sReady) ∧ sReady.motP.atRest = true ∧ (p 0 false).cycle = .suspended ∧ lv0.papr = true
      ∧ (p 0 false).owed = 0 ∧ 0 < (p 1 false).owed ∧ (p 1 true).owedExit = true :=
  ⟨by decide, by decide, ⟨open_of (by decide) rfl rfl, rfl, rfl, rfl⟩, ⟨by decide, by decide, rfl, rfl⟩, by decide,
    open_of (by decide) rfl rfl, rfl, rfl, rfl, rfl, by decide, rfl⟩
/-- SLEEP with the cover latch set, every wake source low and in the mask, the wake timer running. -/
def sLatched : State :=
  { sReady with
    power := { sReady.power with state := .sleep, mask := 7, wakeTimer := some 1, coverLatch := true },
    lines := { sReady.lines with docp := false, cover := false }, pmc := { sReady.pmc with selfRefresh := true } }

theorem witness_CoverFaultsAndResume_latch :
    let s := { sLatched with lines := { sLatched.lines with cover := true }, power := { sLatched.power with coverLatch := false } }
    (s.lines.cover = true ∧ s.power.state = .sleep ∧ s.power.returning = none ∧ s.boot.state ≠ .reset)
      ∧ ({ s with power := { s.power with state := .standby } }.power.state = .standby ∧ State.reset.boot.state = .reset)
      ∧ (s.power.idleTimer = none ∧ s.spill = .idle ∧ s.pmc.selfRefresh = true)
      ∧ sLatched.power.state = .sleep ∧ sLatched.power.entry = none ∧ sLatched.power.returning = none
      ∧ sLatched.power.coverLatch = true ∧ (sLatched.events.flags[evCover]).set = false
      ∧ sLatched.lines.ring = false ∧ sLatched.lines.key = false ∧ sLatched.lines.docp = false
      ∧ sLatched.power.mask.getLsbD 0 = true ∧ sLatched.power.mask.getLsbD 1 = true ∧ sLatched.power.mask.getLsbD 2 = true
      ∧ sLatched.power.wakeTimer.isSome = true ∧ sLatched.lines.pfail = false ∧ sLatched.power.pfail = .inactive
      ∧ sLatched.boot.state = .ready := by decide
theorem witness_CoverFaultsAndResume_quiet : Quiet sLatched :=
  ⟨rfl, rfl, rfl, rfl, rfl, rfl, rfl, rfl, rfl, rfl, rfl, rfl, rfl, rfl⟩
/-- R173: the latch taken at a wake by DOCP and at a power-fail warning. -/
theorem test_latch :
    after (exec .docpRise sLatched) (fun t => t.motS.causes.cover && t.motP.causes.cover && (t.events.flags[evCover]).set
        && !(t.events.flags[evWake]).set && !t.power.coverLatch && t.power.returning = some 3) = true
      ∧ after (exec .pfailRise sLatched) (fun t => t.motS.causes = { cover := true, pfail := true, jam := false }
        && t.motP.state = .fault && (t.events.flags[evCover]).set && !(t.events.flags[evWake]).set && !t.power.coverLatch
        && t.power.returning.isNone) = true := by decide +kernel
theorem witness_RatioAndSourceLines :
    let s (a : Nat) (last : Bool) : State :=
      withPrint { PrintJob.start 1 1 45 false with acc := a }
        { sReady with rings := { sReady.rings with print := sReady.rings.print.enter { Slot.blank with last := last } } }
    0 < 1100 ∧ 50 < fitRatio 2000 1100 .std
      ∧ ((s 55 false).prtJob = some { PrintJob.start 1 1 45 false with acc := 55 } ∧ 0 < (s 55 false).rings.print.occ
        ∧ 100 ≤ 55 + 45 ∧ 54 + 45 < 100)
      ∧ (((s 54 true).rings.print.slot (s 54 true).rings.print.head).last = true
        ∧ ((s 54 false).rings.print.slot (s 54 false).rings.print.head).last = false)
      ∧ (withPrint pJob sReady).rings.print.occ = 0 ∧ { pJob with passEnded := true }.passEnded = true
      ∧ pJob.passEnded = false :=
  ⟨by decide, by decide, ⟨rfl, by decide, by decide, by decide⟩, by decide, rfl, rfl, rfl⟩
theorem witness_PrintStartsFirstCopy :
    let s := withPage page1 sReady
    portOpen s ∧ s.power.state = .run ∧ s.prtJob = none ∧ entryOf (1 : Byte).toNat s = some page1 ∧ page1.state = .complete
      ∧ page1.printRd = none ∧ page1.outRd = none ∧ (true = true → (1 : Byte).toNat ≤ 1) ∧ (255 : Byte) ≠ 0
      ∧ (∀ id ∈ printNeeds, (s.tables.active[id]).isSome = true) ∧ lv0.papr = true :=
  ⟨open_of (by decide) rfl rfl, rfl, rfl, by decide, rfl, rfl, rfl, by decide, by decide, by decide, rfl⟩
/-- FIT, cut-through of a page with no block yet, and a print beside an output reader. -/
theorem witness_PrintStartsFirstCopy_fit :
    let f := { pageS 0 with first := noBlock, last := noBlock, blockCount := 0 }
    let o := { page1 with outRd := some (readerStart page1 false) }
    (f.state = .filling ∧ true = true ∧ (100 : Byte) ≠ 0 ∧ f.printRd = none ∧ f.outRd = none
        ∧ entryOf (1 : Byte).toNat (withPage f sReady) = some f)
      ∧ (page1.state = .complete ∧ ¬(0 : Byte) ≠ 0)
      ∧ o.outRd = some (readerStart page1 false) ∧ (readerStart page1 false).consume = false := by decide
/-- R140: FIT of three STD lines on paper of 2000 lines is 100, answered asked 0, used 100, effective 200. -/
theorem test_print_fit :
    after (exec (.print 1 1 0 0 0 lv0) (withPage page1 sReady)) (fun t =>
      t.port.replies = [{ kind := kOrder, sub := 6, body := .filled .ok [1, 1, 0, 0, 0, 0, 100, 0, 200] }]) = true := by
  decide +kernel
theorem witness_LineStartsAndHeat :
    let p (j : PrintJob) (c : Byte) : State :=
      withPrint j { sReady with lines := { sReady.lines with papr := true },
                                temp := { reading := some c, fresh := true, age := some 5, staleSpell := false } }
    let none' := withPrint pJob { sReady with lines := { sReady.lines with papr := false } }
    let wait := withPrint { pJob with cycle := .waitData }
      { none' with rings := { sReady.rings with print := sReady.rings.print.enter Slot.blank } }
    let j (l : Line) : PrintJob := { pJob with src := some l, cycle := .stepping }
    let black := lineOfDots (List.replicate 1728 true)
    let fed := { p pJob 199 with rings := { sReady.rings with print := sReady.rings.print.enter Slot.blank } }
    (({ p pJob 0 with motP := { Motor.reset with state := .fault } } : State).motP.state = .fault)
      ∧ (none'.prtJob = some pJob ∧ none'.motP.state ≠ .fault ∧ none'.lines.papr = false)
      ∧ ((p pJob 200).motP.state ≠ .fault ∧ (p pJob 200).lines.papr = true ∧ (p pJob 200).temp.reading = some 200
        ∧ setHotLim (p pJob 200) ≤ (200 : Byte).toNat ∧ (199 : Byte).toNat < setHotLim (p pJob 199))
      ∧ ({ pJob with interrupted := true }.interrupted = true ∧ pJob.interrupted = false
        ∧ 0 < { pJob with repeats := 1 }.repeats ∧ pJob.repeats = 0 ∧ (takeSource 5 (p pJob 199)).2 = false
        ∧ (takeSource 5 fed).2 = true ∧ ∃ k, (takeSource 5 fed).1.prtJob = some k)
      ∧ (pJob.cycle = .lineStart ∧ { pJob with cycle := .waitData }.cycle = .waitData ∧ 0 < wait.rings.print.occ
        ∧ settlePass .print none' = none' ∧ settlePass .print (lineStart none') = lineStart none'
        ∧ ∃ k, (lineStart none').prtJob = some k ∧ k.cycle = .suspended)
      ∧ ((p (j black) 255).prtJob = some (j black) ∧ 0 < setDotLim sReady ∧ dotOf ((j black).src.getD whiteLine) 1727 = true)
      ∧ ((∀ d, dotOf ((j whiteLine).src.getD whiteLine) d = false) ∧ (j whiteLine).cycle ≠ .ending
        ∧ (p (j whiteLine) 255).motP.atRest = true)
      ∧ ((p pJob 255).temp.fresh = true ∧ (p pJob 255).temp.reading = some 255 ∧ sReady.temp.fresh = false
        ∧ sReady.temp.staleSpell = false ∧ sReady.temp.reading = none)
      ∧ (108 ≤ 108 ∧ (0 : Nat) < 1)
      ∧ portOpen sReady :=
  ⟨rfl, ⟨rfl, by decide, rfl⟩, ⟨by decide, rfl, rfl, by decide, by decide⟩,
    ⟨rfl, rfl, by decide, rfl, rfl, rfl, _, rfl⟩, ⟨rfl, rfl, by decide, rfl, rfl, _, rfl, rfl⟩,
    ⟨rfl, by decide, by decide +kernel⟩, ⟨fun _ => by simp [dotOf, whiteLine], nofun, rfl⟩, ⟨rfl, rfl, rfl, rfl, rfl⟩, by decide, test_open⟩
/-- R147: four black dots of group 0 and one of group 3 with DOTLIM 2 are two phases, the dots from the left. -/
theorem test_phases :
    let l := lineOfPositions [3, 10, 11, 400, 1727]
    (headPhases l 2 fun d => d).map (·.pulses) = [[some 10, none, none, some 1727], [some 400, none, none, none]]
      ∧ (headPhases l 2 fun d => d).map (fun ph => dotOf ph.dots 11) = [false, true] := by decide +kernel
/-- One phase in which group 3 alone takes part. -/
def ph3 : HeadPhase := { dots := 1, pulses := [none, none, none, some 500] }

theorem witness_StrobesBurstsAndPageEnds :
    let ph := { ph3 with pulses := [some 100, none, none, some 500] }
    let t : Strobe := { todo := [ph3], cur := none, stage := .waiting, shifting := true, shifted := false }
    let u : Strobe := { todo := [], cur := some ph, stage := .high 3, shifting := false, shifted := false }
    let v : Strobe := { u with stage := .gap 3 }
    let j := { pJob with cycle := .strobing, strobe := some v }
    let k := { pJob with cycle := .stepping, stepping := some .lineBurst }
    let m : Motor := { Motor.reset with state := .burst, plan := .burst 0 1, owner := .print }
    let x := { pJob with copies := 2, printed := 1 }
    let g := withPrint x (withPage page1 sReady)
    ((withPrint { pJob with strobe := some t } sReady).prtJob = some { pJob with strobe := some t } ∧ t.shifting = true
        ∧ t.cur = none ∧ t.todo = [ph3] ∧ nextGroup ph3 0 = some 3)
      ∧ (u.stage = .high 3 ∧ u.cur ≠ none) ∧ nextGroup ph (0 + 1) = some 3
      ∧ (v.stage = .gap 3 ∧ v.cur = some ph ∧ nextGroup ph (3 + 1) = none ∧ v.shifted = false ∧ v.todo = [])
      ∧ ({ v with todo := [ph3], shifted := true } : Strobe).todo = [ph3]
      ∧ ((withPrint j sReady).motP.atRest = true ∧ j.cycle = .strobing)
      ∧ (m.spent = true ∧ m.owner = .print ∧ k.stepping = some .lineBurst ∧ k.cycle = .stepping ∧ k.srcLast = false
        ∧ k.repeats = 0 ∧ { k with srcLast := true }.srcLast = true ∧ { k with cycle := .ending }.cycle = .ending
        ∧ { k with stepping := some .pageExit }.stepping = some .pageExit)
      ∧ (g.prtJob = some x ∧ 0 < x.printed ∧ 0 < setPexit g ∧ g.motP.atRest = true ∧ k.printed = 0)
      ∧ x.copy < x.copies ∧ k.copies ≤ k.copy ∧ entryOf x.page g = some page1 :=
  ⟨⟨rfl, rfl, rfl, rfl, by decide⟩, ⟨rfl, nofun⟩, by decide, ⟨rfl, rfl, by decide, rfl, rfl⟩, rfl, ⟨rfl, rfl⟩, ⟨by decide, rfl,
    rfl, rfl, rfl, rfl, rfl, rfl, rfl⟩, ⟨rfl, by decide, by decide, rfl, rfl⟩, by decide, by decide, by decide⟩
/-- R153: the last line's burst ends, PEXIT is 100, and channel P begins the page exit of a last copy in ENDING. -/
theorem test_page_exit :
    let t := pageEnd (withPrint { pJob with printed := 1 } sReady)
    (t.prtJob.map (·.cycle) = some .ending ∧ t.prtJob.bind (·.stepping) = some .pageExit ∧ t.motP.plan.owed = some (setPexit sReady - 1))
      ∧ setPexit sReady = 100 := by decide +kernel
theorem witness_PrintStopsAndEnds :
    let e := { page1 with printRd := some (readerStart page1 true) }
    let x (n : Nat) (fin : Bool) : PrintJob := { pJob with cycle := .ending, printed := n, exitDone := fin }
    let s (n : Nat) (fin : Bool) (e : Entry) : State := withPrint (x n fin) (withPage e sReady)
    (portOpen (withPrint pJob sReady) ∧ pJob.cycle ≠ .ending ∧ sReady.noAsk
        ∧ entryOf pJob.page (withPage e (withPrint pJob sReady)) = some e ∧ e.printRd = some (readerStart page1 true)
        ∧ (e.state = .complete ∧ (readerStart page1 true).linePos ≠ e.lineCount ∧ e.headLine ≠ e.lineCount)
        ∧ ({ e with state := .erasing } : Entry).outRd = none ∧ ({ e with headLine := 3 } : Entry).headLine = e.lineCount)
      ∧ ((s 1 false e).prtJob = some (x 1 false) ∧ (x 1 false).cycle = .ending ∧ (x 1 false).strobe = none
        ∧ (x 1 false).stepping = none ∧ (s 1 false e).printDec = none ∧ (x 1 false).exitDone = false
        ∧ 0 < (x 1 false).printed ∧ 0 < setPexit (s 1 false e) ∧ (s 1 false e).motP.atRest = true)
      ∧ ((x 1 true).exitDone = true ∧ (x 0 false).printed = 0
        ∧ setPexit { s 1 false e with tables := Tables.reset } = 0
        ∧ ((s 1 true e).events.flags[evPrintEnd]).set = false ∧ (s 1 true e).noAsk)
      ∧ (entryOf (x 1 true).page (s 1 true e) = some e
        ∧ entryOf (x 1 true).page (s 1 true { e with state := .erasing }) = some { e with state := .erasing }
        ∧ entryOf (x 1 true).page (s 1 true page1) = some page1 ∧ page1.printRd = none)
      ∧ ((s 1 true e).scanJob = none ∧ (s 1 true e).intJob = none ∧ (s 1 true e).outJob = none ∧ (s 1 true e).outDec = none
        ∧ (s 1 true e).scanCd.dirWait = none ∧ (s 1 true e).intakeCd.dirWait = none) :=
  ⟨⟨open_of (by decide) rfl rfl, by decide, by unfold State.noAsk; decide, by decide, rfl, by decide, rfl, rfl⟩,
    ⟨rfl, rfl, rfl, rfl, rfl, rfl, by decide, by decide, rfl⟩, ⟨rfl, rfl, by decide, rfl, by unfold State.noAsk; decide⟩, by decide, ⟨rfl, rfl, rfl, rfl, rfl, rfl⟩⟩
theorem witness_PrintStopsAndEnds_faults :
    let x : PrintJob := { pJob with cycle := .ending, printed := 1 }
    let s := withPrint x (withPage { page1 with printRd := some (readerStart page1 true) } sReady)
    let moving := { s with motP := { Motor.reset with state := .slew, plan := .run false 0 (some 5) 0 false, owner := .move } }
    let fault := { s with motP := { Motor.reset with state := .fault } }
    ({ pJob with cycle := .suspended }.cycle = Cycle.suspended ∧ pJob.cycle ≠ .suspended)
      ∧ (x.exitDone = false ∧ 0 < x.printed ∧ 0 < setPexit moving ∧ moving.motP.moving = true ∧ moving.printDec = none)
      ∧ fault.motP.state = .fault ∧ fault.printDec = none
      ∧ (s.lines.cover = true ∧ s.power.state = .run ∧ s.boot.state ≠ .reset ∧ x.cycle = .ending) := by decide
/-- R154: with channel P in FAULT the ENDING job ends with its page exit unissued. -/
theorem test_print_ends_in_fault :
    let x : PrintJob := { pJob with cycle := .ending, printed := 1, reason := 1 }
    let t := settle { withPrint x (withPage page1 sReady) with motP := { Motor.reset with state := .fault } }
    (t.prtJob.isNone && (t.events.flags[evPrintEnd]).reason = 1 && t.motP.issued = 0) = true := by decide +kernel
/-- R153, R155: after the page exit the job ends: PRINT_END reason 0, the consumed page gone. -/
theorem test_print_ends :
    let e := { page1 with headLine := 3, printRd := some { consume := true, linePos := 3, block := noBlock } }
    let t := settle (withPrint { pJob with cycle := .ending, printed := 1, exitDone := true } (withPage e sReady))
    (t.prtJob.isNone && t.dir.entries.isEmpty && (t.events.flags[evPrintEnd]).set && (t.events.flags[evPrintEnd]).chan = 2
      && (t.events.flags[evPrintEnd]).reason = 0) = true := by decide +kernel
theorem witness_DiagDramAccess :
    let a : DiagAccess := { write := none, block := 511, offset := 1007, count := 17, clamped := false, data := [], done := 0,
                            firstBad := none }
    let s := withGrant .diag { sReady with diagQ := [a] }
    (portOpen sReady ∧ (511 : BitVec 16).toNat < nBlocks sReady ∧ 0 < (1 : BitVec 16).toNat ∧ (1 : BitVec 16).toNat ≤ 2036
        ∧ (1023 : BitVec 16).toNat + (1 : BitVec 16).toNat ≤ 1024)
      ∧ ((List.replicate 1020 (0 : Byte)).length ≤ 1024 ∧ (4 : BitVec 16).toNat + 1020 ≤ 1024 ∧ 4 ≤ (4 : BitVec 16).toNat)
      ∧ (s.pmc.grant = some { burst := .diag, live := true } ∧ s.diagQ = [a] ∧ a.write = none ∧ a.done + min 16 (17 - 0) < a.count)
      ∧ 16 ≤ 0 + min 16 (16 - 0) :=
  ⟨⟨test_open, by decide, by decide, by decide, by decide⟩, ⟨by rw [List.length_replicate]; decide, by decide, by decide⟩,
    ⟨rfl, rfl, rfl, by decide⟩, by decide⟩
theorem witness_DiagInternalAccess :
    portOpen sReady ∧ (15 : BitVec 16).toNat < 16 ∧ (218 : BitVec 16).toNat + (1 : BitVec 16).toNat ≤ 219
      ∧ (sReady.scanJob = none ∧ sReady.front.cal = none) ∧ (withScan sJob sReady).scanJob ≠ none
      ∧ ((3454 : BitVec 16).toNat % 2 = 0 ∧ (3454 : BitVec 16).toNat + [(1 : Byte), 2].length ≤ 3456)
      ∧ (copyOf false 8 sReady = some ramp1 ∧ (8 : Fin 14) ≠ tSettings ∧ (2 : BitVec 16).toNat + [(7 : Byte)].length ≤ ramp1.length
        ∧ tableInUse 8 sReady = false ∧ tableInUse 8 (withScan sJob sReady) = true)
      ∧ tableLengthOk 8 [2, 0, 100] = false ∧ tableLengthOk 8 [1, 7, 136] = true ∧ tableEnumsOk 8 [1, 7, 136] = true
      ∧ (portOpen (withScan sJob sReady) ∧ portOpen (withCal (.dark 0) sReady) ∧ (withCal (.dark 0) sReady).front.cal ≠ none)
      ∧ ((3454 : BitVec 16).toNat < 3456 ∧ (2 : BitVec 16).toNat % 2 = 0 ∧ 0 < (2 : BitVec 16).toNat
        ∧ (2 : BitVec 16).toNat ≤ 2036 ∧ (3454 : BitVec 16).toNat + (2 : BitVec 16).toNat ≤ 3456)
      ∧ ((2 : BitVec 16).toNat < ramp1.length ∧ (2 : BitVec 16).toNat + (1 : BitVec 16).toNat ≤ ramp1.length) :=
  ⟨test_open, by decide, by decide, by decide, nofun, by decide, by decide, by decide, by decide, by decide,
    ⟨open_of (by decide) rfl rfl, open_of (by decide) rfl rfl, nofun⟩, by decide, by decide⟩
theorem witness_PowerOrdersEnterOrBegin :
    portOpen sReady ∧ powerBusy true sReady = false ∧ sReady.power.state = .run ∧ portOpen sDoze
      ∧ powerBusy true sDoze = false ∧ sDoze.power.state = .doze ∧ portOpen (withIntake .opened sReady)
      ∧ powerBusy false (withIntake .opened sReady) = false ∧ powerBusy true (withIntake .opened sReady) = true
      ∧ portOpen (withPrint pJob sReady) ∧ powerBusy false (withPrint pJob sReady) = true :=
  ⟨test_open, rfl, rfl, test_open_doze, rfl, rfl, open_of (by decide) rfl rfl, rfl, rfl, open_of (by decide) rfl rfl, rfl⟩
def entry1 : SleepEntry :=
  { standby := false, mask := 1, timer := 0, fromDoze := false, risen := { ring := false, key := false, docp := false },
    stage := .waitReply, found := 0 }

theorem witness_SleepEntryGoesOnOrIsAbandoned :
    let s := { sReady with power := { sReady.power with entry := some entry1 } }
    s.power.entry = some entry1 ∧ entry1.stage = .waitReply ∧ s.port.replies = []
      ∧ activeSource entry1 (sense { lv0 with ring := true } { s with lines := { s.lines with ring := true } }).lines = some 1
      ∧ entry1.fromDoze = false ∧ activeSource entry1 (sense lv0 s).lines = none ∧ entry1.standby = false ∧ Quiet s
      ∧ s.spill = .idle ∧ s.pmc.grant = none ∧ s.pmc.selfRefresh = false :=
  ⟨rfl, rfl, rfl, by decide, rfl, by decide, rfl, ⟨rfl, rfl, rfl, rfl, rfl, rfl, rfl, rfl, rfl, rfl, rfl, rfl, rfl, rfl⟩,
    rfl, rfl, rfl⟩
theorem witness_ReadyIsReached :
    let s := { sReady with boot := { sReady.boot with state := .portload } }
    let r := { sReady with boot := { sReady.boot with state := .romload, romPos := 65530, romSum := 258 } }
    let kept := { s with power := { s.power with keptSource := some 3 } }
    let more := setAssembly (some { table := 9, next := 1, bytes := List.replicate 12288 0 }) r
    let six : List Byte := List.replicate 6 0
    (rdy s = true ∧ s.port.inbound = .receiving [] ∧ s.boot.state = .portload ∧ s.tables.active[tSettings] ≠ none
        ∧ s.power.keptSource = none ∧ kept.power.keptSource = some 3 ∧ rdy kept = true
        ∧ ({ s with tables := Tables.reset } : State).tables.active[tSettings] = none
        ∧ rdy sReady = true ∧ sReady.boot.state = .ready)
      ∧ (r.boot.state = .romload ∧ r.power.pfail = .inactive ∧ r.tables.active[tSettings] ≠ none ∧ r.power.keptSource = none
        ∧ r.boot.romPos + 6 ≤ 65536 ∧ 256 * (1 : Byte).toNat + (2 : Byte).toNat = r.boot.romSum)
      ∧ (([1, 3] : List Byte).length = (2 : BitVec 16).toNat ∧ beNat [(1 : Byte), 3] ≠ r.boot.romSum)
      ∧ ((13 : Byte).toNat + 1 = 14 ∧ (1 : BitVec 16).toNat < 2 ∧ 2048 < (2049 : BitVec 16).toNat)
      ∧ ((0x10 : Byte) ≠ 0x7F ∧ (0x10 : Byte) ≠ 0x20)
      ∧ (65530 + 4 + (2 + ([] : List Byte).length) = 65536 ∧ 65536 < 65530 + 4 + (2 + [(0 : Byte)].length)
        ∧ 0 + 4 + (2 + six.length) < 65536)
      ∧ (r.tables.assembly = none ∧ (1 : Byte) ≠ 0 ∧ 2 ≤ (2 : Byte).toNat
        ∧ (∃ a, more.tables.assembly = some a ∧ a.table = 9 ∧ a.next = (1 : Byte).toNat ∧ (1 : Byte).toNat ≤ 15
          ∧ 12288 < (a.bytes ++ [0]).length ∧ (a.bytes ++ []).length = 12288))
      ∧ (tableLengthOk tSramp ramp1 = true ∧ tableEnumsOk tSramp ramp1 = true ∧ tSramp ≠ tSettings ∧ tableLengthOk tSramp [] = false)
      ∧ (tableLengthOk tSettings settings = true ∧ tableEnumsOk tSettings settings = true ∧ r.scanJob = none ∧ r.intJob = none
        ∧ r.prtJob = none ∧ r.outJob = none ∧ r.front.cal = none ∧ r.motS.atRest = true ∧ r.motP.atRest = true)
      ∧ (faultS r).motS.atRest = false ∧ (withCal (.dark 0) r).front.cal ≠ none :=
  ⟨by decide, by decide, by decide, by decide, by decide, by decide,
    ⟨rfl, by decide, by decide, _, rfl, rfl, rfl, by decide, by simp only [List.length_append, List.length_replicate]; decide,
      by simp only [List.length_append, List.length_replicate]; decide⟩, by decide, by decide, rfl, nofun⟩
/-- R18: a LOAD record of the serial ROM of 3 payload bytes moves the read position by 7 and adds its bytes to the sum. -/
theorem test_rom_load :
    let r := { sReady with boot := { sReady.boot with state := .romload, romPos := 65528, romSum := 65535 } }
    after (exec (.romRecord 0x20 6 3 [0, 0, 7]) r) (fun t => t.boot.romPos = 65535 && t.boot.romSum = 47
      && t.boot.state = .romload && (t.tables.assembly.map fun a => a.bytes) = some [7]) = true := by decide +kernel
/-- R174: READY with a source kept raises BOOT, then WAKE with the source. -/
theorem test_wake_at_ready :
    let s := { sReady with boot := { sReady.boot with state := .portload }, power := { sReady.power with keptSource := some 3 } }
    after (exec .ready s) (fun t => t.events.queue = [evBoot, evWake] && (t.events.flags[evWake]).reason = 3
      && t.power.keptSource = none) = true := by decide +kernel
theorem witness_RestartEndsEverything :
    portOpen sReady ∧ portOpen sDoze
      ∧ portOpen (sRun sJob) ∧ (motorOf .S (sRun sJob)).moving = true ∧ (motorOf .S (sRun sJob)).owner = .scan :=
  ⟨test_open, test_open_doze, open_of (by decide) rfl rfl, by decide, by decide⟩
/-- A directory of every kind of page a RESTART settles (R94): each with its id, state, lines and readers. -/
def pagesAtRestart : List Entry :=
  let e (id : Nat) (st : PageState) (p o : Option (Bool × Nat)) : Entry :=
    let rd := Option.map fun (x : Bool × Nat) => ({ consume := x.1, linePos := x.2, block := 2 } : Reader)
    { page1 with id := id, state := st, printRd := rd p, outRd := rd o }
  [e 1 .complete none none, { e 2 .complete none none with headLine := 3 }, e 3 .complete (some (true, 2)) none,
    e 4 .complete (some (true, 3)) none, e 5 .complete none (some (true, 3)),
    { e 6 .complete (some (false, 0)) none with headLine := 3 }, e 7 .erasing none none, e 8 .erasing (some (false, 1)) none,
    e 9 .erasing (some (false, 1)) (some (false, 3)), { e 10 .filling (some (false, 1)) none with writer := some .scan },
    e 11 .complete (some (false, 3)) (some (false, 3))]

theorem witness_RestartEndsEverything_pages :
    let s := { withCal .lampWait sDoze with
      dir := { sReady.dir with entries := pagesAtRestart },
      tables := { sReady.tables with pending := sReady.tables.pending.set 8 (some ramp1) },
      port := { sReady.port with replies := [{ kind := kOrder, sub := 1, body := .calibrating }] } }
    (s.dir.entries.map Entry.id).Nodup ∧ s.front.cal.isSome = true ∧ s.power.state = .doze ∧ s.power.returning = none
      ∧ (tSramp : Fin 14) ∈ [tSramp, tSphase, tPramp, tPphase] ∧ s.tables.pending[tSramp] ≠ none
      ∧ (∃ x ∈ s.port.replies, x.body = .calibrating) := by decide
/-- R94, R90: what RESTART leaves of them, and the blocks it frees. -/
theorem test_restart_pages :
    after (exec .restart { sReady with dir := { sReady.dir with entries := pagesAtRestart } }) (fun t =>
      t.dir.entries.map (fun e => (e.id, e.state, e.hasReader)) =
          [(1, .complete, false), (2, .complete, false), (3, .complete, false), (7, .erasing, false), (11, .complete, false)]
        && t.pmc.count = 6) = true := by decide +kernel
theorem witness_SleepWakesAndRunIsReached :
    let s := { sReady with
      power := { sReady.power with state := .sleep, mask := 7, wakeTimer := some 1 }, lines := { sReady.lines with docp := false } }
    let t := { sDoze with power := { sDoze.power with returning := some 1 } }
    let h := setInbound (.held { kind := kOrder, sub := 0x01, payload := [] }) t
    (s.power.state = .sleep ∧ s.power.entry = none ∧ s.power.returning = none ∧ s.power.coverLatch = false ∧ s.spill = .idle
        ∧ s.pmc.grant = none ∧ s.pmc.srPending = none ∧ s.lines.ring = false ∧ s.power.mask.getLsbD 0 = true)
      ∧ (s.lines.key = false ∧ s.power.mask.getLsbD 1 = true ∧ s.lines.docp = false ∧ s.power.mask.getLsbD 2 = true
        ∧ s.boot.state ≠ .reset ∧ s.power.wakeTimer.isSome = true)
      ∧ (t.power.returning = some 1 ∧ t.port.inbound = .receiving [])
      ∧ h.power.returning = some 1 ∧ h.port.inbound = .held { kind := kOrder, sub := 0x01, payload := [] } := by decide
theorem witness_TimersRunOut :
    (withCal .lampWait sReady).front.cal.map (·.stage) = some .lampWait
      ∧ ({ Motor.reset with state := .hold, hold := some 1 } : Motor).state = .hold
      ∧ ({ sReady.temp with age := some 50 } : Temperature).age = some 50 ∧ sReady.prtJob = none
      ∧ idleConds { sReady with power := { sReady.power with idleTimer := some 1 } } = true := by decide
theorem witness_PfailEndsJobsAndSpills :
    let s := sWriting 3
    (sReady.lines.pfail = false ∧ sReady.power.pfail = .inactive ∧ sReady.boot.state = .ready ∧ sReady.power.entry = none
        ∧ (sDoze.power.state = .run ∨ sDoze.power.state = .doze))
      ∧ (s.dir.entries.map Entry.id).Nodup ∧ pageS 3 ∈ s.dir.entries ∧ (pageS 3).state = .filling
      ∧ (pageS 3).headLine ≠ (pageS 3).lineCount ∧ (pageS 3).printRd = none ∧ (pageS 3).outRd = none := by decide
theorem witness_ColdStartsAndStandbyWakes :
    let h := { sReady with lines := { sReady.lines with pfail := true }, power := { sReady.power with pfail := .hold } }
    let s := { State.reset with lines := { State.reset.lines with reset := true, cover := false } }
    let by' (mask : Byte) : State :=
      { sReady with power := { sReady.power with state := .standby, pwrdn := true, mask := mask, wakeTimer := some 1 },
                    pmc := { sReady.pmc with selfRefresh := true } }
    (h.lines.pfail = true ∧ h.power.pfail = .hold)
      ∧ (s.boot.state = .reset ∧ s.power.pfail = .inactive ∧ s.lines.pfail = false ∧ s.lines.reset = true
        ∧ State.reset.lines.reset = false ∧ (sense { lv0 with cover := false } s).lines.cover = false
        ∧ (sense lv0 s).lines.cover = true)
      ∧ ((by' 7).power.state = .standby ∧ (by' 7).power.entry = none ∧ (by' 7).lines.ring = false
        ∧ (by' 7).lines.key = false ∧ (by' 7).lines.docp = false ∧ (by' 7).power.mask.getLsbD 0 = true
        ∧ (by' 7).power.mask.getLsbD 1 = true ∧ (by' 7).power.mask.getLsbD 2 = true ∧ (by' 7).power.wakeTimer = some 1)
      ∧ (by' 0).pmc.selfRefresh = true ∧ (by' 0).spill = .idle ∧ (by' 0).power.mask.getLsbD 0 = false
      ∧ (by' 0).power.mask.getLsbD 1 = false ∧ (by' 0).power.mask.getLsbD 2 = false := by decide
/-- R174: KEY with its bit in STANDBY begins a cold start, PWRDN low, source 2 kept. -/
theorem test_standby_wake :
    after (exec .keyRise { sReady with power := { sReady.power with state := .standby, pwrdn := true, mask := 2 } })
      (fun t => !t.power.pwrdn && t.power.keptSource = some 2 && t.boot.state = .reset && t.power.state = .run
        && t.lines.key) = true := by decide +kernel
theorem witness_SpillCarriesMarkerAndSum : (spillImage sReady).length ≤ 16384 := by decide +kernel

/-- The port granted to the spill engine. -/
def sSpill (e : SpillEngine) : State := { withGrant .spill sReady with spill := e }

theorem witness_SpillBursts :
    let w := { sSpill (.writeMarker .standby) with power := { sReady.power with entry := some { entry1 with standby := true } } }
    let k := { sSpill (.check .k512) with
      dram := Memory.reset.writeAll (reserveAddr .k512) false [0xA5, 0x5A, 0, 20, 0] }
    (withGrant .refresh sReady).pmc.selfRefresh = false ∧ sReady.pmc.upkeep = [] ∧ sReady.pmc.build = none
      ∧ (let u := { sReady with pmc := { sReady.pmc with upkeep := [.setNext 1 2] }, spill := .await .pfail }
        u.spill = .await .pfail ∧ u.pmc.upkeep ≠ [] ∧ u.pmc.grant = none ∧ u.pmc.srPending = none ∧ u.pmc.selfRefresh = false)
      ∧ (sSpill (.write .pfail 2 [1])).pmc.grant = some { burst := .spill, live := true }
      ∧ (w.power.pfail = .inactive ∧ w.power.entry = some { entry1 with standby := true }
        ∧ activeSource { entry1 with standby := true } (sense lv0 w).lines = none
        ∧ activeSource { entry1 with standby := true, risen := { ring := true, key := false, docp := false } } w.lines = some 1)
      ∧ (k.dram.parityAll (reserveAddr .k512) 2 = true ∧ k.dram.parityOk (reserveAddr .k512 + 4) = true
        ∧ k.dram.readAll (reserveAddr .k512) 2 = [0xA5, 0x5A] ∧ (k.dram.read (reserveAddr .k512 + 4)).toNat = MemSize.k512.code)
      ∧ candidateHolds .m4 Memory.reset = false ∧ sReady.power.keptSource = none
      ∧ (sSpill (.clearMarker .k512 .restored)).spill = .clearMarker .k512 .restored
      ∧ { sReady.power with keptSource := some 1 }.keptSource = some 1
      ∧ spillRead [0xA5, 0x5A, 0, 20] = false ∧ spillVerdict .k512 (spillImage sReady) true = some 3 := by decide +kernel
theorem witness_SpillBursts_abandoned :
    let s (doze : Bool) : State :=
      { sSpill (.clearMarker .k512 .abandoned) with
        power := { sReady.power with entry := some { entry1 with standby := true, stage := .clearing, found := 1, fromDoze := doze } } }
    (s true).spill = .clearMarker .k512 .abandoned ∧ (s true).power.entry.isSome = true
      ∧ (s true).power.entry.map (·.fromDoze) = some true ∧ (s false).power.entry.map (·.fromDoze) = some false
      ∧ after (exec (.dramGrantEnd lv0) (s false)) (fun t => t.spill = .idle && t.power.entry.isNone
          && (t.events.flags[evWake]).reason = 129) = true
      ∧ after (exec (.dramGrantEnd lv0) (s true)) (fun t => t.power.returning = some 129 && !(t.events.flags[evWake]).set) = true := by
  decide +kernel
theorem witness_SpillBursts_sound :
    let s := { sReady with pmc := { sReady.pmc with count := 496, head := 0, headLink := 1, tail := 495 } }
    spillRead (spillImage s) = true ∧ spillVerdict .k512 (spillImage s) false = none := by decide +kernel

/-- A block joins a one-block list while the read of its head's link waits: the request held stays held, and the write of the
head's next is granted before the read (R65). -/
theorem test_held_request_waits_for_the_link :
    let s := { sReady with
      pmc := { sReady.pmc with head := 5, tail := 5, count := 1, linkKnown := false, upkeep := [.readLink 5] },
      intakeCd := { sReady.intakeCd with st := .coding, page := some 1, asking := true } }
    let t := arbitrate (freeSingle 7 s)
    t.intakeCd.block = none ∧ t.intakeCd.asking = true ∧ t.pmc.count = 2
      ∧ t.pmc.grant = some { burst := .upkeep (.setNext 5 7), live := true } := by decide

end Sys2Proof.Tests
end

section
/-! SUPPORT. The port beside the intake line (R1, R4, R48): every operation within the part leaves the inbound side, the reply
queue, the record in course and the byte driven as they were. -/

set_option Elab.async false

namespace Sys2Proof.Machine

/-- The port but for the intake line number and the previous intake line, which only INTAKE's own operations move (R48). -/
def Port.talk (p : Port) : Port := { p with intakeLineNo := 0, prevIntake := none }

theorem talk_iff (p q : Port) :
    p.talk = q.talk ↔ p.inbound = q.inbound ∧ p.replies = q.replies ∧ p.course = q.course ∧ p.dataOut = q.dataOut := by
  simp [Port.talk]

/-- A page operation leaves the whole port. -/
theorem Shell.talk {s t : State} (h : Shell s t) : t.port.talk = s.port.talk := by rw [h.port]

@[simp] theorem talk_ite {c : Prop} {h : Decidable c} (s t : State) :
    (if c then s else t).port.talk = if c then s.port.talk else t.port.talk := by split <;> rfl

/-! ## The updates of State -/

@[simp] theorem talk_mapCoder (c : CoderCtx) (f : Coder → Coder) (s : State) :
    (mapCoder c f s).port.talk = s.port.talk := (shell_mapCoder c f s).talk
@[simp] theorem talk_killGrant (f : Burst → Bool) (s : State) : (killGrant f s).port.talk = s.port.talk := rfl
@[simp] theorem talk_mapMotor (ch : Channel) (f : Motor → Motor) (s : State) : (mapMotor ch f s).port.talk = s.port.talk := by
  cases ch <;> rfl
@[simp] theorem talk_issueStep (ch : Channel) (s : State) : (issueStep ch s).port.talk = s.port.talk := talk_mapMotor ..
@[simp] theorem talk_emptyScanRing (s : State) : (emptyScanRing s).port.talk = s.port.talk := rfl
@[simp] theorem talk_emptyIntakeRing (s : State) : (emptyIntakeRing s).port.talk = s.port.talk := rfl
@[simp] theorem talk_emptyPrintRing (s : State) : (emptyPrintRing s).port.talk = s.port.talk := rfl
@[simp] theorem talk_emptyOutputRing (s : State) : (emptyOutputRing s).port.talk = s.port.talk := rfl
@[simp] theorem talk_clearIntakeLine (s : State) : (clearIntakeLine s).port.talk = s.port.talk := rfl
@[simp] theorem talk_releasePlace (s : State) : (releasePlace s).port.talk = s.port.talk := rfl
@[simp] theorem talk_createEntry (o : Origin) (r : Resolution) (w : CoderCtx) (s : State) :
    (createEntry o r w s).port.talk = s.port.talk := rfl
@[simp] theorem talk_moveReader (c : DecoderCtx) (i l b : Nat) (s : State) :
    (moveReader c i l b s).port.talk = s.port.talk := by cases c <;> rfl
@[simp] theorem talk_countDamage (i : Nat) (s : State) : (countDamage i s).port.talk = s.port.talk := rfl
@[simp] theorem talk_enterRing (c : DecoderCtx) (x : Slot) (s : State) : (enterRing c x s).port.talk = s.port.talk := rfl
@[simp] theorem talk_setPass (c : DecoderCtx) (p : Option Pass) (s : State) : (setPass c p s).port.talk = s.port.talk := by
  cases c <;> rfl
@[simp] theorem talk_idleDecoder (c : DecoderCtx) (s : State) : (idleDecoder c s).port.talk = s.port.talk := by
  simp [idleDecoder]
@[simp] theorem talk_endDirwait (c : CoderCtx) (s : State) : (endDirwait c s).port.talk = s.port.talk := talk_mapCoder ..
@[simp] theorem talk_enterDirwait (c : CoderCtx) (s : State) : (enterDirwait c s).port.talk = s.port.talk := by
  simp [enterDirwait]

/-! ## Page operations -/

@[simp] theorem talk_pumpAsk (c : CoderCtx) (s : State) : (pumpAsk c s).port.talk = s.port.talk := (shell_pumpAsk c s).talk
@[simp] theorem talk_askBlock (c : CoderCtx) (s : State) : (askBlock c s).port.talk = s.port.talk := by simp [askBlock]
@[simp] theorem talk_freeSingle (b : Nat) (s : State) : (freeSingle b s).port.talk = s.port.talk := (shell_freeSingle b s).talk
@[simp] theorem talk_idleCoder (c : CoderCtx) (s : State) : (idleCoder c s).port.talk = s.port.talk := (shell_idleCoder c s).talk
@[simp] theorem talk_dropEntry (e : Entry) (c : Option Nat) (s : State) : (dropEntry e c s).port.talk = s.port.talk :=
  (shell_dropEntry e c s).talk
@[simp] theorem talk_settleEmpty (i : Nat) (s : State) : (settleEmpty i s).port.talk = s.port.talk := (shell_settleEmpty i s).talk
@[simp] theorem talk_completePage (c : CoderCtx) (t q : Bool) (s : State) : (completePage c t q s).port.talk = s.port.talk :=
  (shell_completePage c t q s).talk
@[simp] theorem talk_discardPage (i : Nat) (r : Bool) (s : State) : (discardPage i r s).port.talk = s.port.talk :=
  (shell_discardPage i r s).talk
@[simp] theorem talk_discardWritten (c : CoderCtx) (s : State) : (discardWritten c s).port.talk = s.port.talk :=
  (shell_discardWritten c s).talk
@[simp] theorem talk_applyPolicy (c : CoderCtx) (p : Policy) (s : State) : (applyPolicy c p s).port.talk = s.port.talk :=
  (shell_applyPolicy c p s).talk
@[simp] theorem talk_discardWaiting (c : CoderCtx) (s : State) : (discardWaiting c s).port.talk = s.port.talk :=
  (shell_discardWaiting c s).talk
@[simp] theorem talk_removeReader (c : DecoderCtx) (i : Nat) (s : State) : (removeReader c i s).port.talk = s.port.talk :=
  (shell_removeReader c i s).talk
@[simp] theorem talk_checkLink (b : Nat) (s : State) : (checkLink b s).port.talk = s.port.talk := (shell_checkLink b s).talk

@[simp] theorem talk_leaveBlock (c : DecoderCtx) (i b l o : Nat) (s : State) :
    (leaveBlock c i b l o s).port.talk = s.port.talk := by
  unfold leaveBlock
  split
  · rfl
  · split
    · rfl
    · simp

/-- An operation repeated over a list leaves what each of its rounds leaves. -/
theorem talk_foldl {α : Type} {f : State → α → State} (h : ∀ s a, (f s a).port.talk = s.port.talk) (l : List α) (s : State) :
    (l.foldl f s).port.talk = s.port.talk := by
  induction l generalizing s with
  | nil => rfl
  | cons a l ih => exact (ih _).trans (h s a)

@[simp] theorem talk_leaveAll (c : DecoderCtx) (i l o : Nat) (bs : List Nat) (s : State) :
    (leaveAll c i l o bs s).port.talk = s.port.talk := talk_foldl (fun s b => talk_leaveBlock c i b l o s) bs s

/-! ## The coder and decoder contexts -/

@[simp] theorem talk_setCoder (c : CoderCtx) (x : Coder) (s : State) : (setCoder c x s).port.talk = s.port.talk :=
  (shell_setCoder c x s).talk

@[simp] theorem talk_beginCoding (c : CoderCtx) (s : State) : (beginCoding c s).port.talk = s.port.talk := by
  simp [beginCoding]

@[simp] theorem talk_takeUpIntake (s : State) : (takeUpIntake s).port.talk = s.port.talk := by
  unfold takeUpIntake
  split
  · rfl
  · simp

@[simp] theorem talk_coderStart (c : CoderCtx) (s : State) : (coderStart c s).port.talk = s.port.talk := by
  unfold coderStart
  split
  · split
    · simp
    · unfold takeUpScan
      split
      · rfl
      · simp
    · simp
  · rfl

@[simp] theorem talk_freeCodedSlot (c : CoderCtx) (s : State) : (freeCodedSlot c s).port.talk = s.port.talk := by
  cases c
  · rfl
  · unfold freeCodedSlot
    dsimp only
    split <;> simp

@[simp] theorem talk_lineCoded (c : CoderCtx) (s : State) : (lineCoded c s).port.talk = s.port.talk := by
  simp [lineCoded]

@[simp] theorem talk_placeLine (c : DecoderCtx) (p : Pass) (l : Line) (r o : Bool) (s : State) :
    (placeLine c p l r o s).port.talk = s.port.talk := by simp [placeLine]

@[simp] theorem talk_finishLine (c : DecoderCtx) (p : Pass) (r : LineRead) (s : State) :
    (finishLine c p r s).port.talk = s.port.talk := by
  unfold finishLine
  dsimp only
  split <;> simp

@[simp] theorem talk_decoderStart (c : DecoderCtx) (s : State) : (decoderStart c s).port.talk = s.port.talk := by
  unfold decoderStart
  split
  · rfl
  · simp [replaceLine]

@[simp] theorem talk_enterSuccessor (c : DecoderCtx) (p : Pass) (r : LineRead) (n : Nat) (s : State) :
    (enterSuccessor c p r n s).port.talk = s.port.talk := by simp [enterSuccessor]

@[simp] theorem talk_firstUnitRead (c : DecoderCtx) (p : Pass) (r : LineRead) (s : State) :
    (firstUnitRead c p r s).port.talk = s.port.talk := by simp [firstUnitRead]

@[simp] theorem talk_decodeBurst (c : DecoderCtx) (s : State) : (decodeBurst c s).port.talk = s.port.talk := by
  unfold decodeBurst
  split
  · rfl
  · split
    · rfl
    · simp
    · simp

/-! ## Tables -/

@[simp] theorem talk_setActive (id : Fin 14) (img : List Byte) (s : State) :
    (setActive id img s).port.talk = s.port.talk := by simp [setActive]

@[simp] theorem talk_replaceActive (id : Fin 14) (img : List Byte) (s : State) :
    (replaceActive id img s).port.talk = s.port.talk := by simp [replaceActive]

@[simp] theorem talk_applyPending (id : Fin 14) (s : State) : (applyPending id s).port.talk = s.port.talk := by
  unfold applyPending
  split
  · rfl
  · simp

@[simp] theorem talk_applyAll (ids : List (Fin 14)) (s : State) : (applyAll ids s).port.talk = s.port.talk :=
  talk_foldl (fun s id => talk_applyPending id s) ids s

@[simp] theorem talk_applyMotorTables (s : State) : (applyMotorTables s).port.talk = s.port.talk :=
  talk_foldl (f := fun s id => if tableInUse id s then s else applyPending id s) (fun s id => by simp) _ s

/-! ## The scan -/

@[simp] theorem talk_settleScanPages (h : ScanSettle) (p : Policy) (s : State) :
    (settleScanPages h p s).port.talk = s.port.talk := by
  cases h <;> simp [settleScanPages, settleWritten]

@[simp] theorem talk_scanDecision (r : Nat) (h : ScanSettle) (d : Option Nat) (s : State) :
    (scanDecision r h d s).port.talk = s.port.talk := by
  unfold scanDecision
  split
  · rfl
  · simp

@[simp] theorem talk_scanFaulted (s : State) : (scanFaulted s).port.talk = s.port.talk := by
  unfold scanFaulted
  split
  · rfl
  · simp

@[simp] theorem talk_endScan (j : ScanJob) (s : State) : (endScan j s).port.talk = s.port.talk := by
  unfold endScan
  dsimp only
  split <;> simp

@[simp] theorem talk_settleScanEnd (s : State) : (settleScanEnd s).port.talk = s.port.talk := by
  unfold settleScanEnd
  split
  · rfl
  · simp

@[simp] theorem talk_scanJam (p r : Nat) (s : State) : (scanJam p r s).port.talk = s.port.talk := by simp [scanJam]

@[simp] theorem talk_leadingEdge (s : State) : (leadingEdge s).port.talk = s.port.talk := by
  unfold leadingEdge
  split
  · rfl
  · simp

@[simp] theorem talk_searchStep (j : ScanJob) (s : State) : (searchStep j s).port.talk = s.port.talk := by
  simp [searchStep]

@[simp] theorem talk_pageStart (s : State) : (pageStart s).port.talk = s.port.talk := by
  have h := talk_applyAll scanTables s
  unfold pageStart
  generalize applyAll scanTables s = u at *
  exact h

@[simp] theorem talk_closingBoundary (s : State) : (closingBoundary s).port.talk = s.port.talk := by
  unfold closingBoundary
  split
  · rfl
  · simp

@[simp] theorem talk_boundaryStep (first : Bool) (j : ScanJob) (s : State) :
    (boundaryStep first j s).port.talk = s.port.talk := by simp [boundaryStep]

@[simp] theorem talk_pageStep (first : Bool) (j : ScanJob) (s : State) : (pageStep first j s).port.talk = s.port.talk := by
  simp [pageStep]

@[simp] theorem talk_scanStep (first : Bool) (s : State) : (scanStep first s).port.talk = s.port.talk := by
  unfold scanStep
  split
  · simp
  · split <;> simp

@[simp] theorem talk_startScanRun (r : Bool) (s : State) : (startScanRun r s).port.talk = s.port.talk := by
  unfold startScanRun
  split
  · rfl
  · simp

@[simp] theorem talk_settleScanRestart (s : State) : (settleScanRestart s).port.talk = s.port.talk := by
  unfold settleScanRestart
  split
  · rfl
  · simp

@[simp] theorem talk_scanRoom (s : State) : (scanRoom s).port.talk = s.port.talk := by
  unfold scanRoom
  split
  · simp
  · dsimp only
    split <;> simp

@[simp] theorem talk_settleRoom (s : State) : (settleRoom s).port.talk = s.port.talk := by simp [settleRoom]

/-! ## Intake and output -/

@[simp] theorem talk_endIntake (r : Nat) (s : State) : (endIntake r s).port.talk = s.port.talk := by
  unfold endIntake
  split
  · rfl
  · simp

@[simp] theorem talk_closePage (s : State) : (closePage s).port.talk = s.port.talk := by
  unfold closePage
  split
  · rfl
  · split
    · rfl
    · simp

@[simp] theorem talk_settleIntake (s : State) : (settleIntake s).port.talk = s.port.talk := by
  unfold settleIntake
  split
  · rfl
  · simp

@[simp] theorem talk_memExpire (c : CoderCtx) (s : State) : (memExpire c s).port.talk = s.port.talk := by
  cases c
  · simp [memExpire, scanMemExpiry]
  · unfold memExpire intakeMemExpiry
    split
    · dsimp only
      split
      · rfl
      · simp
    · rfl

@[simp] theorem talk_dirExpire (c : CoderCtx) (s : State) : (dirExpire c s).port.talk = s.port.talk := by
  cases c <;> simp [dirExpire, scanDirExpiry, intakeDirExpiry]

@[simp] theorem talk_zeroWait (c : CoderCtx) (s : State) : (zeroWait c s).port.talk = s.port.talk := by
  unfold zeroWait
  dsimp only
  split <;> split <;> simp

@[simp] theorem talk_zeroWaits (s : State) : (zeroWaits s).port.talk = s.port.talk := by simp [zeroWaits]

@[simp] theorem talk_settleOutput (s : State) : (settleOutput s).port.talk = s.port.talk := by
  unfold settleOutput
  split
  · rfl
  · simp

@[simp] theorem talk_settlePass (c : DecoderCtx) (s : State) : (settlePass c s).port.talk = s.port.talk := by
  unfold settlePass
  split
  · rfl
  · cases c <;> simp

/-! ## The Print Engine -/

@[simp] theorem talk_requestP (r : MotorRequest) (s : State) : (requestP r s).1.port.talk = s.port.talk := by
  unfold requestP
  split
  · rfl
  · split
    · rfl
    · split <;> simp [takeBurst, takeRun]

@[simp] theorem talk_askSteps (k : Stepping) (r : MotorRequest) (n : Nat) (s : State) :
    (askSteps k r n s).port.talk = s.port.talk := by simp [askSteps]

@[simp] theorem talk_staleSpellBegins (p : Nat) (s : State) : (staleSpellBegins p s).port.talk = s.port.talk := by
  simp [staleSpellBegins]

@[simp] theorem talk_strobeLine (s : State) : (strobeLine s).port.talk = s.port.talk := by
  unfold strobeLine
  split
  · rfl
  · dsimp only
    split <;> simp [lineSteps]

@[simp] theorem talk_copyItems (s : State) : (copyItems s).port.talk = s.port.talk := by simp [copyItems]

@[simp] theorem talk_nextCopy (s : State) : (nextCopy s).port.talk = s.port.talk := by
  unfold nextCopy restartPass
  split
  · rfl
  · simp only [talk_copyItems]
    split <;> simp

@[simp] theorem talk_afterExit (s : State) : (afterExit s).port.talk = s.port.talk := by
  unfold afterExit
  dsimp only
  split <;> simp

@[simp] theorem talk_exitSteps (n : Nat) (s : State) : (exitSteps n s).port.talk = s.port.talk := by simp [exitSteps]

@[simp] theorem talk_pageEnd (s : State) : (pageEnd s).port.talk = s.port.talk := by
  unfold pageEnd
  split
  · rfl
  · simp

@[simp] theorem talk_takeSource (n : Nat) (s : State) : (takeSource n s).1.port.talk = s.port.talk := by
  induction n generalizing s with
  | zero => rfl
  | succ n ih =>
    unfold takeSource
    split
    · rfl
    · split
      · split <;> simp
      · dsimp only
        split
        · split
          · simp
          · simp [ih]
        · rfl

@[simp] theorem talk_lineStart (s : State) : (lineStart s).port.talk = s.port.talk := by
  unfold lineStart
  split
  · rfl
  · have source (c : Prop) [Decidable c] :
        (if c then takeSource (Config.printRingSlots + 1) s else (s, true)).1.port.talk = s.port.talk := by
      split <;> simp
    simp [suspendPrint, source]

@[simp] theorem talk_endPrint (j : PrintJob) (s : State) : (endPrint j s).port.talk = s.port.talk := by simp [endPrint]

@[simp] theorem talk_printMove (s : State) : (printMove s).port.talk = s.port.talk := by
  unfold printMove
  split
  · rfl
  · split <;> simp [endingMove]

@[simp] theorem talk_printMoves (n : Nat) (s : State) : (printMoves n s).port.talk = s.port.talk := by
  induction n generalizing s with
  | zero => simp [printMoves]
  | succ n ih => simp [printMoves, ih]

@[simp] theorem talk_settlePrint (s : State) : (settlePrint s).port.talk = s.port.talk := talk_printMoves 400 s

/-! ## What follows at once -/

@[simp] theorem talk_settleJobs (s : State) : (settleJobs s).port.talk = s.port.talk := by simp [settleJobs]

@[simp] theorem talk_updateIdle (s : State) : (updateIdle s).port.talk = s.port.talk := by simp [updateIdle]

@[simp] theorem talk_restartIdle (s : State) : (restartIdle s).port.talk = s.port.talk := rfl

@[simp] theorem talk_spillReady (s : State) : (spillReady s).port.talk = s.port.talk := by
  unfold spillReady
  split <;> simp

@[simp] theorem talk_grantBurst (b : Burst) (s : State) : (grantBurst b s).port.talk = s.port.talk := rfl

@[simp] theorem talk_arbitrate (s : State) : (arbitrate s).port.talk = s.port.talk := by
  unfold arbitrate
  dsimp only
  split
  · simp
  · split
    · simp
    · split <;> simp

/-- What follows a command at once says nothing at the port and takes nothing from it. -/
@[simp] theorem talk_settle (s : State) : (settle s).port.talk = s.port.talk := by simp [settle]

end Sys2Proof.Machine
end

section
/-! SUPPORT. The room of the reply queue (R1, R4): what each order, burst and event leaves at the port, and the bound every step
keeps. -/

set_option Elab.async false

namespace Sys2Proof.Machine

/-! ## The orders -/

@[simp] theorem talk_orderCalibrate (s : State) : (orderCalibrate s).1.port.talk = s.port.talk := by
  unfold orderCalibrate
  split <;> rfl

@[simp] theorem talk_orderScan (p : List Byte) (s : State) : (orderScan p s).1.port.talk = s.port.talk := by
  unfold orderScan
  split
  · split
    · rfl
    · dsimp only
      split
      · rfl
      · simp [beginScan]
  · rfl

@[simp] theorem talk_orderIntake (p : List Byte) (s : State) : (orderIntake p s).1.port.talk = s.port.talk := by
  unfold orderIntake
  split
  · split
    · rfl
    · split
      · rfl
      · simp
  · rfl

@[simp] theorem talk_orderIntakeEnd (s : State) : (orderIntakeEnd s).1.port.talk = s.port.talk := by
  unfold orderIntakeEnd
  split <;> rfl

@[simp] theorem talk_admitReader (c : DecoderCtx) (e : Entry) (k : Bool) (s : State) :
    (admitReader c e k s).port.talk = s.port.talk := by simp [admitReader]

@[simp] theorem talk_orderOutput (p : List Byte) (s : State) : (orderOutput p s).1.port.talk = s.port.talk := by
  unfold orderOutput
  split
  · rfl
  · split
    · rfl
    · split
      · rfl
      · split
        · rfl
        · simp

@[simp] theorem talk_orderPrint (p : List Byte) (s : State) : (orderPrint p s).1.port.talk = s.port.talk := by
  unfold orderPrint
  split
  · split
    · rfl
    · split
      · rfl
      · split
        · rfl
        · split
          · rfl
          · split
            · rfl
            · simp [beginPrint]
  · rfl

@[simp] theorem talk_orderErase (p : List Byte) (s : State) : (orderErase p s).1.port.talk = s.port.talk := by
  unfold orderErase
  split
  · rfl
  · split
    · rfl
    · rfl
    · split <;> simp

@[simp] theorem talk_orderStopScan (k : Bool) (a : List Byte) (s : State) :
    (orderStopScan k a s).1.port.talk = s.port.talk := by
  unfold orderStopScan
  split
  · split
    · rfl
    · simp
  · rfl

@[simp] theorem talk_orderStopIntake (k : Bool) (a : List Byte) (s : State) :
    (orderStopIntake k a s).1.port.talk = s.port.talk := by
  unfold orderStopIntake
  split
  · rfl
  · simp

@[simp] theorem talk_orderStopPrint (a : List Byte) (s : State) : (orderStopPrint a s).1.port.talk = s.port.talk := by
  unfold orderStopPrint
  split
  · rfl
  · split
    · rfl
    · simp

@[simp] theorem talk_orderStopOutput (a : List Byte) (s : State) : (orderStopOutput a s).1.port.talk = s.port.talk := by
  unfold orderStopOutput
  split
  · rfl
  · split
    · rfl
    · simp

@[simp] theorem talk_orderStop (p : List Byte) (s : State) : (orderStop p s).1.port.talk = s.port.talk := by
  unfold orderStop
  split
  · rfl
  · split <;> simp

@[simp] theorem talk_resumePrint (j : PrintJob) (s : State) : (resumePrint j s).port.talk = s.port.talk := by
  simp [resumePrint]

@[simp] theorem talk_orderResume (p : List Byte) (s : State) : (orderResume p s).1.port.talk = s.port.talk := by
  unfold orderResume printResume
  split
  · rfl
  · split
    · split <;> simp
    · split
      · rfl
      · split
        · rfl
        · split <;> simp

@[simp] theorem talk_takeRun (c : Channel) (o : Owner) (r : Bool) (q u : Nat) (n : Option Nat) (s : State) :
    (takeRun c o r q u n s).port.talk = s.port.talk := by simp [takeRun]

@[simp] theorem talk_orderMove (p : List Byte) (s : State) : (orderMove p s).1.port.talk = s.port.talk := by
  unfold orderMove
  split
  · split
    · rfl
    · split
      · rfl
      · simp
  · rfl

@[simp] theorem talk_orderTemp (c : Byte) (s : State) : (orderTemp c s).1.port.talk = s.port.talk := rfl

@[simp] theorem talk_orderPower (p : List Byte) (s : State) : (orderPower p s).1.port.talk = s.port.talk := by
  unfold orderPower
  dsimp only
  split
  · split
    · rfl
    · unfold takeDoze
      split <;> rfl
  · split <;> rfl
  · split <;> rfl
  · rfl

@[simp] theorem talk_startBuild (s : State) : (startBuild s).port.talk = s.port.talk := rfl

@[simp] theorem talk_reachReady (r : Nat) (s : State) : (reachReady r s).port.talk = s.port.talk := by
  unfold reachReady
  dsimp only
  split <;> rfl

@[simp] theorem talk_orderReady (s : State) : (orderReady s).1.port.talk = s.port.talk := by
  unfold orderReady
  split
  · split
    · rfl
    · simp
  · rfl

/-! ## LOAD, EVACK, DIAG -/

@[simp] theorem talk_installImage (id : Fin 14) (img : List Byte) (s : State) :
    (installImage id img s).1.port.talk = s.port.talk := by
  unfold installImage
  split
  · simp [installSettings]
  · split <;> simp

@[simp] theorem talk_completeImage (id : Fin 14) (img : List Byte) (s : State) :
    (completeImage id img s).1.port.talk = s.port.talk := by
  unfold completeImage
  split
  · rfl
  · split
    · rfl
    · split
      · rfl
      · simp

@[simp] theorem talk_gather (id : Fin 14) (n : Nat) (f : Bool) (img : List Byte) (s : State) :
    (gather id n f img s).1.port.talk = s.port.talk := by
  unfold gather
  split
  · rfl
  · split
    · simp
    · rfl

@[simp] theorem talk_loadSegment (id : Fin 14) (seg fin : Nat) (bs : List Byte) (s : State) :
    (loadSegment id seg fin bs s).1.port.talk = s.port.talk := by
  unfold loadSegment
  split
  · rfl
  · split
    · simp
    · split
      · rfl
      · split <;> simp

@[simp] theorem talk_actLoad (sub : Byte) (p : List Byte) (s : State) : (actLoad sub p s).1.port.talk = s.port.talk := by
  unfold actLoad
  split <;> simp

@[simp] theorem talk_orderEvack (p : List Byte) (s : State) : (orderEvack p s).1.port.talk = s.port.talk := by
  unfold orderEvack
  split <;> rfl

@[simp] theorem talk_writeItem (m i : Nat) (img : List Byte) (s : State) : (writeItem m i img s).1.port.talk = s.port.talk := by
  unfold writeItem
  split
  · rw [mapFront_port]
  · split
    · rfl
    · unfold writeCopy
      split
      · rfl
      · split
        · rfl
        · simp [putCopy]
  · rfl

@[simp] theorem talk_actDiag (sub : Byte) (p : List Byte) (s : State) : (actDiag sub p s).1.port.talk = s.port.talk := by
  unfold actDiag orderDiag
  split
  · rfl
  · unfold takeDiag
    split
    · rfl
    · rfl
    · rfl
    · dsimp only
      split <;> simp

/-! ## The load of the port: the inbound side, and how many replies wait -/

/-- The inbound side and the number of entries in the reply queue: all that `repliesSound` reads. -/
def Port.load (p : Port) : Inbound × Nat := (p.inbound, p.replies.length)

theorem load_of_talk {p q : Port} (h : p.talk = q.talk) : p.load = q.load := by
  obtain ⟨hi, hr, -⟩ := (talk_iff p q).1 h
  simp [Port.load, hi, hr]

@[simp] theorem load_settle (s : State) : (settle s).port.load = s.port.load := load_of_talk (talk_settle s)
@[simp] theorem load_arbitrate (s : State) : (arbitrate s).port.load = s.port.load := load_of_talk (talk_arbitrate s)

@[simp] theorem load_fillReply (w : ReplyBody) (st : Status) (a : List Byte) (s : State) :
    (fillReply w st a s).port.load = s.port.load := Prod.ext rfl (fillReply_length w st a s)

@[simp] theorem load_fillReplies (w : ReplyBody) (st : Status) (a : List Byte) (s : State) :
    (fillReplies w st a s).port.load = s.port.load := Prod.ext rfl (fillReplies_length w st a s)

/-- The bound reads the load alone. -/
theorem repliesSound_of_load {s t : State} (h : t.port.load = s.port.load) (k : s.repliesSound) : t.repliesSound := by
  obtain ⟨hi, hl⟩ := Prod.mk.inj h
  unfold State.repliesSound
  rw [hi, hl]
  exact k

theorem repliesSound_of_talk {s t : State} (h : t.port.talk = s.port.talk) (k : s.repliesSound) : t.repliesSound :=
  repliesSound_of_load (load_of_talk h) k

/-- A port as a cold start leaves it holds no reply. -/
theorem repliesSound_of_reset {s : State} (h : s.port = Port.reset) : s.repliesSound := by
  simp [State.repliesSound, h, Port.reset]

/-- Between records eight replies may wait. -/
theorem repliesSound_between {s : State} (hi : s.port.inbound = .receiving []) (hl : s.port.replies.length ≤ 8) :
    s.repliesSound := by
  simp [State.repliesSound, hi, Inbound.begun, Inbound.isHeld, hl]

/-- With seven replies waiting the bound holds whatever the inbound side does. -/
theorem repliesSound_room {s : State} (hl : s.port.replies.length ≤ 7) : s.repliesSound := ⟨by omega, fun _ => hl⟩

/-! ## Ending everything -/

@[simp] theorem load_abandonDiag (s : State) : (abandonDiag s).port.load = s.port.load := load_fillReplies ..

@[simp] theorem load_abandonCalibration (s : State) : (abandonCalibration s).port.load = s.port.load := by
  unfold abandonCalibration
  split
  · exact load_fillReplies ..
  · rfl

theorem load_dropJobs (s : State) : (dropJobs s).port.load = s.port.load := by
  refine Eq.trans (load_of_talk ?_) (load_abandonCalibration s)
  simp [dropJobs]

@[simp] theorem talk_dropReaders (s : State) (i : Nat) : (dropReaders s i).port.talk = s.port.talk := by simp [dropReaders]

@[simp] theorem talk_completeAtPfail (s : State) (i : Nat) : (completeAtPfail s i).port.talk = s.port.talk := by
  simp [completeAtPfail, markComplete]

theorem load_endAtPfail (s : State) : (endAtPfail s).port.load = s.port.load := by
  unfold endAtPfail
  rw [load_dropJobs]
  refine load_of_talk ?_
  rw [talk_releasePlace, talk_foldl talk_dropReaders, talk_foldl talk_completeAtPfail]
  rfl

theorem load_endAtRestart (s : State) : (endAtRestart s).port.load = s.port.load := by
  unfold endAtRestart
  rw [load_dropJobs]
  refine load_of_talk ?_
  rw [talk_releasePlace, talk_foldl talk_dropReaders, talk_foldl fun s i => talk_discardPage i true s]
  rfl

@[simp] theorem talk_beginReturn (r : Nat) (s : State) : (beginReturn r s).port.talk = s.port.talk := by
  unfold beginReturn
  split <;> rfl

@[simp] theorem talk_restartMotors (s : State) : (restartMotors s).port.talk = s.port.talk := by
  simp [restartMotors, cutOffBoth]

theorem load_orderRestart (s : State) : (orderRestart s).1.port.load = s.port.load := by
  have h : (restartMotors (restartDiag (restartFront (endAtRestart s)))).port.load = s.port.load :=
    (load_of_talk (talk_restartMotors _)).trans ((load_abandonDiag _).trans (load_endAtRestart s))
  unfold orderRestart
  dsimp only
  split
  · exact (load_of_talk (talk_beginReturn ..)).trans h
  · exact h

/-! ## Records -/

theorem load_actOrder (c : Nat) (p : List Byte) (s : State) : (actOrder c p s).1.port.load = s.port.load := by
  unfold actOrder
  split
  case h_14 => exact load_orderRestart s
  all_goals exact load_of_talk (by simp)

/-- A record's answer is one reply more. -/
theorem load_answer (r : Record) (x : State × ReplyBody) :
    (answer r x).port.load = (x.1.port.inbound, x.1.port.replies.length + 1) := by
  simp [answer, Port.load, pushReply, mapPort]

theorem load_answered {r : Record} {s : State} {x : State × ReplyBody} (h : x.1.port.load = s.port.load) :
    (answer r x).port.load = (s.port.inbound, s.port.replies.length + 1) := by
  obtain ⟨hi, hl⟩ := Prod.mk.inj h
  rw [load_answer, hi, hl]

/-- What a record dispatched does to the load: one reply more, or, a LINE accepted, none (R4, R7). -/
theorem load_act (r : Record) (s : State) :
    (act r s).port.load = s.port.load ∨ (act r s).port.load = (s.port.inbound, s.port.replies.length + 1) := by
  unfold act
  split
  · exact .inr (load_answered rfl)
  · split
    · unfold actLine
      split
      · exact .inr (load_answered rfl)
      · exact .inl rfl
    · right
      split
      · rw [load_arbitrate]; exact load_answered (load_of_talk (talk_actLoad ..))
      · split
        · exact load_answered rfl
        · split
          · exact load_answered (load_of_talk (talk_orderEvack ..))
          · split
            · rw [load_arbitrate]; exact load_answered (load_of_talk (talk_actDiag ..))
            · split
              · rw [load_settle]; exact load_answered (load_actOrder ..)
              · exact load_answered rfl

/-- With seven replies at most, a record dispatched leaves eight at most and the buffer empty. -/
theorem repliesSound_dispatch (r : Record) {s : State} (h : s.port.replies.length ≤ 7) : (dispatch r s).repliesSound := by
  have ht : (dispatch r s).port.load = (act r (mapPort (fun p => { p with inbound := .receiving [] }) s)).port.load := rfl
  rcases load_act r (mapPort (fun p => { p with inbound := .receiving [] }) s) with k | k
  all_goals
    obtain ⟨hi, hl⟩ := Prod.mk.inj (ht.trans k)
    refine repliesSound_between hi ?_
    rw [hl]
    simp only [mapPort_port]
    omega

theorem repliesSound_completeRecord (r : Record) {s : State} (h : s.port.replies.length ≤ 7) :
    (completeRecord r s).repliesSound := by
  unfold completeRecord
  split
  · exact repliesSound_of_talk (talk_beginReturn ..) (repliesSound_room (by exact h))
  · exact repliesSound_dispatch r h

theorem repliesSound_drained (k b : Byte) (st : Status) {s : State} (h : s.port.replies.length ≤ 7) :
    (drained k b st s).repliesSound := by
  refine repliesSound_between rfl ?_
  simp [drained, setInbound]
  omega

/-- RDY high leaves room for the reply of the record being written (R1). -/
theorem room_of_rdy {s : State} (hr : rdy s = true) (h : s.repliesSound) : s.port.replies.length ≤ 7 := by
  unfold rdy at hr
  simp only [Bool.and_eq_true, Bool.or_eq_true, decide_eq_true_eq] at hr
  obtain ⟨⟨⟨⟨⟨⟨-, room⟩, -⟩, -⟩, -⟩, -⟩, -⟩ := hr
  rcases room with k | k
  · exact Nat.le_of_lt_succ k
  · exact h.2 (by simp [k])

theorem repliesSound_appendByte (bs : List Byte) {s : State} (h : s.port.replies.length ≤ 7) :
    (appendByte bs s).repliesSound := by
  have set (i : Inbound) : (setInbound i s).repliesSound := repliesSound_room h
  unfold appendByte
  split
  · exact set _
  · split
    · unfold headerTaken
      split
      · split
        · exact repliesSound_drained _ _ _ h
        · exact set _
      · split
        · exact repliesSound_completeRecord _ h
        · exact set _
    · split
      · exact set _
      · exact repliesSound_completeRecord _ h

theorem repliesSound_takeByte (d : Byte) {s : State} (h : s.port.replies.length ≤ 7) : (takeByte d s).repliesSound := by
  unfold takeByte
  split
  · exact repliesSound_appendByte _ h
  · split
    · exact repliesSound_drained _ _ _ h
    · exact repliesSound_room h
  · exact repliesSound_room h

/-- An order that a byte completes together with a wake event has begun before it, so that its reply has room (R171). -/
theorem repliesSound_holdTogether (d : Byte) {s : State} (h : s.repliesSound) : (holdTogether d s).repliesSound := by
  unfold holdTogether
  split
  · next bs hi =>
    split
    · next r hr =>
      split
      · have begun : s.port.inbound.begun = true := by
          cases bs with
          | nil => simp [runOrder?] at hr
          | cons b bs => simp [hi, Inbound.begun]
        exact repliesSound_room (h.2 (by simp [begun]))
      · exact h
    · exact h
  · exact h
  · exact h

@[simp] theorem talk_takeLatch (s : State) : (takeLatch s).port.talk = s.port.talk := by
  unfold takeLatch
  split <;> rfl

@[simp] theorem talk_leaveSleep (s : State) : (leaveSleep s).port.talk = s.port.talk := talk_takeLatch _

@[simp] theorem talk_sleepWake (r : Nat) (s : State) : (sleepWake r s).port.talk = s.port.talk := by
  unfold sleepWake
  split
  · rfl
  · simp

theorem repliesSound_strobe (g : Bool) (d : Byte) {s : State} (h : s.repliesSound) : (strobe g d s).repliesSound := by
  unfold strobe
  split
  · exact repliesSound_of_talk (by simp) h
  · split
    · next hr => exact repliesSound_takeByte d (room_of_rdy hr h)
    · split
      · exact repliesSound_holdTogether d h
      · exact h

theorem repliesSound_writeRecord (r : Record) {s : State} (h : s.repliesSound) : (writeRecord r s).repliesSound := by
  have bytes (bs : List Byte) : ∀ {s : State}, s.repliesSound → (bs.foldl (fun s d => strobe false d s) s).repliesSound := by
    induction bs with
    | nil => exact id
    | cons b bs ih => exact fun h => ih (repliesSound_strobe false b h)
  unfold writeRecord
  split
  · next hr =>
    have room := room_of_rdy hr.1 h
    split
    · exact repliesSound_drained _ _ _ room
    · exact repliesSound_completeRecord r room
  · exact bytes _ h

/-! ## The outbound side -/

theorem repliesSound_outboundEnd (o : OutSource) {s : State} (h : s.repliesSound) : (outboundEnd o s).repliesSound := by
  cases o with
  | reply =>
    obtain ⟨h8, h7⟩ := h
    refine ⟨?_, fun k => ?_⟩
    · simp [outboundEnd]; omega
    · have := h7 k
      simp [outboundEnd]; omega
  | event => exact h
  | line => exact repliesSound_of_talk (by simp [outboundEnd]) h

theorem repliesSound_driveByte (c : OutCourse) {s : State} (h : s.repliesSound) : (driveByte c s).repliesSound := by
  unfold driveByte
  split
  · exact h
  · exact repliesSound_outboundEnd _ h
  · exact h

theorem repliesSound_readStrobe {s : State} (h : s.repliesSound) : (readStrobe s).repliesSound := by
  unfold readStrobe
  split
  · split
    · exact repliesSound_driveByte _ h
    · split
      · exact repliesSound_driveByte _ h
      · exact h
  · exact h

/-! ## The DRAM's bursts -/

@[simp] theorem talk_doUpkeep (u : Upkeep) (s : State) : (doUpkeep u s).port.talk = s.port.talk := by
  cases u <;> simp [doUpkeep]

@[simp] theorem talk_doBuild (s : State) : (doBuild s).port.talk = s.port.talk := by
  unfold doBuild
  split
  · rfl
  · simp

@[simp] theorem talk_unitsWritten (c : CoderCtx) (n : Nat) (s : State) : (unitsWritten c n s).port.talk = s.port.talk := by
  have after (w : Bool) (u : State) : (afterLine c w u).port.talk = u.port.talk := by
    cases c <;> simp [afterLine]
  simp [unitsWritten, after]

theorem load_diagBurst (s : State) : (diagBurst s).port.load = s.port.load := by
  unfold diagBurst
  split
  · rfl
  · dsimp only
    split
    · rfl
    · exact load_fillReply ..

@[simp] theorem talk_noSpill (s : State) : (noSpill s).port.talk = s.port.talk := rfl

@[simp] theorem talk_abandonEntry (d : Bool) (k : Nat) (s : State) : (abandonEntry d k s).port.talk = s.port.talk := by
  simp [abandonEntry]

@[simp] theorem talk_standbySpilled (s : State) : (standbySpilled s).port.talk = s.port.talk := by
  unfold standbySpilled
  split
  · rfl
  · split <;> rfl

@[simp] theorem talk_clearMarker (z : MemSize) (n : AfterClear) (s : State) : (clearMarker z n s).port.talk = s.port.talk := by
  cases n
  · simp [clearMarker]
  · rfl
  · unfold clearMarker standbyAbandoned
    dsimp only
    split <;> simp

@[simp] theorem talk_spillBurst (s : State) : (spillBurst s).port.talk = s.port.talk := by
  unfold spillBurst
  split
  · rfl
  · unfold checkCandidate
    split
    · rfl
    · split <;> rfl
  · unfold readSpill
    dsimp only
    split
    · split <;> rfl
    · rfl
  · unfold rereadSpill
    dsimp only
    split
    · rfl
    · split
      · split <;> rfl
      · rfl
  · simp
  · rfl
  · rfl
  · unfold writeMarker
    dsimp only
    split
    · simp
    · rfl

theorem repliesSound_coldStart (s : State) : (coldStart s).repliesSound := repliesSound_of_reset rfl

/-- SLEEP, STANDBY or the hold reached as the DRAM enters self-refresh (R74); only a hold whose warning is gone starts cold. -/
theorem repliesSound_enterSelfRefresh (w : SelfRefreshFor) {s : State} (h : s.repliesSound) :
    (enterSelfRefresh w s).repliesSound := by
  have k : (abandonDiag (mapPmc (fun p => { p with selfRefresh := true, srPending := none, refreshDue := false }) s)).repliesSound :=
    repliesSound_of_load (load_abandonDiag _) h
  unfold enterSelfRefresh
  dsimp only
  split
  · exact k
  · exact k
  · unfold reachHold
    dsimp only
    split
    · exact k
    · exact repliesSound_coldStart _
  · exact k
  · exact k

theorem repliesSound_endGrant {s : State} (h : s.repliesSound) : (endGrant s).repliesSound := by
  unfold endGrant
  split
  · exact h
  · next g _ =>
    have k : (mapPmc (fun p => { p with grant := none }) s).repliesSound := h
    generalize mapPmc (fun p => { p with grant := none }) s = u at k
    unfold deliver
    split
    · exact k
    · unfold lastRefreshMade
      split
      · exact k
      · exact repliesSound_enterSelfRefresh _ k
    · exact repliesSound_of_talk (by simp) k
    · exact repliesSound_of_talk (by simp) k
    · exact repliesSound_of_talk (by simp) k
    · exact repliesSound_of_talk (by simp) k
    · exact repliesSound_of_talk (by simp) k
    · split
      · exact repliesSound_of_load (load_diagBurst _) k
      · exact k

/-! ## Readouts, motor and head events -/

theorem load_readoutEnds (v : Vector Byte 1760) (s : State) : (readoutEnds v s).port.load = s.port.load := by
  unfold readoutEnds
  split
  · unfold calibrationLine
    dsimp only
    split
    · split <;> rfl
    · rfl
    · split
      · rfl
      · exact (load_fillReply ..).trans (load_of_talk (talk_replaceActive ..))
  · unfold lineRead
    split <;> rfl

@[simp] theorem talk_lampWarm (s : State) : (lampWarm s).port.talk = s.port.talk := by
  unfold lampWarm
  split
  · rfl
  · split <;> rfl

@[simp] theorem talk_stepFalls (ch : Channel) (s : State) : (stepFalls ch s).port.talk = s.port.talk := by
  unfold stepFalls
  split
  · split <;> simp
  · rfl

@[simp] theorem talk_restChannel (ch : Channel) (s : State) : (restChannel ch s).port.talk = s.port.talk := talk_mapMotor ..

@[simp] theorem talk_printRest (s : State) : (printRest s).port.talk = s.port.talk := by
  unfold printRest
  split
  · rfl
  · split
    · rfl
    · simp [lineDone]
    · rfl
    · simp

@[simp] theorem talk_takeWaiting (s : State) : (takeWaiting s).port.talk = s.port.talk := by
  unfold takeWaiting
  split
  · rfl
  · simp

@[simp] theorem talk_motionEnds (ch : Channel) (s : State) : (motionEnds ch s).port.talk = s.port.talk := by
  unfold motionEnds
  split
  · split <;> simp
  · rfl

@[simp] theorem talk_holdExpires (ch : Channel) (s : State) : (holdExpires ch s).port.talk = s.port.talk := by
  simp [holdExpires]

@[simp] theorem talk_headEvent (f : Strobe → Strobe) (s : State) : (headEvent f s).port.talk = s.port.talk := by
  unfold headEvent
  split
  · rfl
  · split
    · rfl
    · simp [strobesMoved, lineSteps]

@[simp] theorem talk_tempExpired (s : State) : (tempExpired s).port.talk = s.port.talk := by
  unfold tempExpired
  split
  · rfl
  · dsimp only
    split
    · rfl
    · simp

/-! ## Power states, lines, resets -/

@[simp] theorem talk_entryGoesOn (s : State) : (entryGoesOn s).port.talk = s.port.talk := by
  unfold entryGoesOn
  split
  · rfl
  · split
    · split
      · simp
      · simp [passCheck, setStage, askSelfRefresh, writeShadow, powerDownMotors]
    · rfl

theorem repliesSound_wakeEvent (r : Nat) {s : State} (h : s.repliesSound) : (wakeEvent r s).repliesSound := by
  unfold wakeEvent
  split
  · exact h
  · exact repliesSound_of_talk (talk_beginReturn ..) h
  · exact repliesSound_of_talk (talk_sleepWake ..) h
  · exact repliesSound_coldStart _

theorem repliesSound_wakeRise (b r : Nat) (m : Risen → Risen) {s : State} (h : s.repliesSound) :
    (wakeRise b r m s).repliesSound := by
  unfold wakeRise
  split
  · exact h
  · split
    · exact repliesSound_wakeEvent r h
    · exact h

theorem repliesSound_ringRises {s : State} (h : s.repliesSound) : (ringRises s).repliesSound := by
  unfold ringRises
  split
  · exact h
  · exact repliesSound_wakeRise _ _ _ h

theorem repliesSound_keyRises {s : State} (h : s.repliesSound) : (keyRises s).repliesSound := by
  unfold keyRises
  split
  · exact h
  · exact repliesSound_wakeRise _ _ _ h

theorem repliesSound_docpRises {s : State} (h : s.repliesSound) : (docpRises s).repliesSound := by
  unfold docpRises
  split
  · exact h
  · refine repliesSound_of_talk ?_ (repliesSound_wakeRise 2 3 (fun r => { r with docp := true })
      (s := { s with lines := { s.lines with docp := true } }) h)
    unfold docIn
    split <;> rfl

theorem repliesSound_wakeTimerExpires {s : State} (h : s.repliesSound) : (wakeTimerExpires s).repliesSound := by
  unfold wakeTimerExpires
  split
  · exact repliesSound_wakeEvent _ h
  · exact h

@[simp] theorem talk_idleExpires (s : State) : (idleExpires s).port.talk = s.port.talk := by
  simp [idleExpires, enterDoze, writeShadow, powerDownMotors]

@[simp] theorem talk_coverFalls (s : State) : (coverFalls s).port.talk = s.port.talk := by
  simp [coverFalls, coverOpened, printFaulted, cutOffBoth]

@[simp] theorem talk_holdAtOnce (s : State) : (holdAtOnce s).port.talk = s.port.talk := rfl

theorem load_pfailSequence (s : State) : (pfailSequence s).port.load = s.port.load := by
  unfold pfailSequence
  dsimp only
  split
  · split <;> rfl
  · exact load_endAtPfail (cutOffBoth byPfail s)

theorem load_pfailLineRises (s : State) : (pfailLineRises s).port.load = s.port.load := by
  unfold pfailLineRises pfailRises
  split
  · rfl
  · split
    · rfl
    · split
      · rfl
      · split
        · exact (load_pfailSequence _).trans (load_of_talk (talk_leaveSleep _))
        · exact load_pfailSequence _

theorem repliesSound_pfailLineFalls {s : State} (h : s.repliesSound) : (pfailLineFalls s).repliesSound := by
  unfold pfailLineFalls
  split
  · dsimp only
    split
    · exact repliesSound_coldStart _
    · exact h
  · exact h

@[simp] theorem talk_coverFound (s : State) : (coverFound s).port.talk = s.port.talk := rfl

@[simp] theorem talk_leaveReset (s : State) : (leaveReset s).port.talk = s.port.talk := by
  have lid (u : State) : (if u.lines.cover then u else coverFound u).port.talk = u.port.talk := by simp
  have warned (u : State) : (if u.lines.pfail then holdAtOnce u else u).port.talk = u.port.talk := by simp
  exact (warned _).trans (lid _)

@[simp] theorem talk_resetEnds (s : State) : (resetEnds s).port.talk = s.port.talk := by simp [resetEnds]

@[simp] theorem talk_romRecord (k b : Byte) (n : Nat) (p : List Byte) (s : State) :
    (romRecord k b n p s).port.talk = s.port.talk := by
  have load (q : List Byte) (u : State) : (romLoad b q u).1.port.talk = u.port.talk := by
    unfold romLoad
    split <;> simp
  have bad (u : State) : (romBad u).port.talk = u.port.talk := rfl
  simp [romRecord, romEnd, load, bad]

@[simp] theorem talk_runReached (s : State) : (runReached s).port.talk = s.port.talk := by
  unfold runReached
  split
  · rfl
  · dsimp only
    split <;> rfl

/-- A held order has room for its reply (R3). -/
theorem repliesSound_dispatchHeld {s : State} (h : s.repliesSound) : (dispatchHeld s).repliesSound := by
  unfold dispatchHeld
  split
  · next r hi => exact repliesSound_dispatch r (h.2 (by simp [hi, Inbound.isHeld]))
  · exact h
  · exact h

/-! ## Every command -/

/-- What follows at once keeps the bound. -/
theorem repliesSound_settle {s : State} (h : s.repliesSound) : (settle s).repliesSound := repliesSound_of_talk (talk_settle s) h

theorem repliesSound_arbitrate {s : State} (h : s.repliesSound) : (arbitrate s).repliesSound :=
  repliesSound_of_talk (talk_arbitrate s) h

/-- Every command keeps the bound of the reply queue. -/
theorem repliesSound_exec (i : Instr) {s : State} (h : s.repliesSound) : ∀ t, exec i s = .next t → t.repliesSound := by
  intro t ht
  cases i <;> injection ht with ht <;> subst ht
  case wstbStrobe w d lv =>
    split
    · exact repliesSound_strobe _ _ h
    · exact h
  case rstbStrobe cs =>
    split
    · exact repliesSound_readStrobe h
    · exact h
  case sleepEntry lv => exact repliesSound_settle (repliesSound_of_talk (talk_entryGoesOn _) h)
  case dramGrantEnd lv =>
    split
    · exact repliesSound_settle (repliesSound_endGrant h)
    · exact h
  case refreshDue => exact repliesSound_arbitrate (repliesSound_of_talk (by simp [refreshFalls]) h)
  case coderLineStart c => exact repliesSound_settle (repliesSound_of_talk (talk_coderStart ..) h)
  case memwaitExpiry c => exact repliesSound_settle (repliesSound_of_talk (talk_memExpire ..) h)
  case dirwaitExpiry c => exact repliesSound_settle (repliesSound_of_talk (talk_dirExpire ..) h)
  case decoderLineStart c => exact repliesSound_settle (repliesSound_of_talk (talk_decoderStart ..) h)
  case readoutEnd v => exact repliesSound_settle (repliesSound_of_load (load_readoutEnds ..) h)
  case lampwarmExpiry => exact repliesSound_of_talk (talk_lampWarm _) h
  case motorStep ch lv => exact repliesSound_settle (repliesSound_of_talk (talk_stepFalls ..) h)
  case motionEnd ch lv => exact repliesSound_settle (repliesSound_of_talk (talk_motionEnds ..) h)
  case holdTimerExpiry ch => exact repliesSound_of_talk (talk_holdExpires ..) h
  case headShiftEnd => exact repliesSound_of_talk (talk_headEvent ..) h
  case strobeEnd => exact repliesSound_of_talk (talk_headEvent ..) h
  case gapEnd => exact repliesSound_settle (repliesSound_of_talk (talk_headEvent ..) h)
  case tempAgeExpiry => exact repliesSound_of_talk (talk_tempExpired _) h
  case idleTimerExpiry => exact repliesSound_of_talk (talk_idleExpires _) h
  case wakeTimerExpiry => exact repliesSound_arbitrate (repliesSound_wakeTimerExpires h)
  case ringRise => exact repliesSound_arbitrate (repliesSound_ringRises h)
  case keyRise => exact repliesSound_arbitrate (repliesSound_keyRises h)
  case docpRise => exact repliesSound_arbitrate (repliesSound_docpRises h)
  case runReached lv =>
    split
    · exact repliesSound_settle (repliesSound_dispatchHeld (repliesSound_of_talk (talk_runReached _) h))
    · exact h
  case coverOpen => exact repliesSound_settle (repliesSound_of_talk (talk_coverFalls _) h)
  case pfailRise => exact repliesSound_settle (repliesSound_of_load (load_pfailLineRises _) h)
  case pfailFall => exact repliesSound_pfailLineFalls h
  case powerOn lv d => exact repliesSound_of_reset rfl
  case resetAssert => exact repliesSound_coldStart _
  case resetRelease lv =>
    refine repliesSound_settle (repliesSound_of_talk ?_ h)
    simp [resetReleased]
  case resetStateEnd lv =>
    refine repliesSound_settle (repliesSound_of_talk ?_ h)
    simp [resetStateEnds]
  case romRecord k b n p =>
    split
    · exact repliesSound_settle (repliesSound_of_talk (talk_romRecord ..) h)
    · exact h
  all_goals exact repliesSound_writeRecord _ h

/-- Settles O4: every command keeps the bound, a record being dispatched only where RDY or the hold left room for its reply. -/
theorem repliesNeverOverflow : Obligations.RepliesNeverOverflow := by
  intro s t h k
  rcases step_front k with rfl | ⟨c, r, -, hc⟩
  · exact h
  · exact repliesSound_exec c (s := { s with pending := r }) h t hc

end Sys2Proof.Machine
end

section
/-! The port's own statements: reset, strobes, records as their strobes, queries, LINE (R1 to R10, R16). -/

set_option Elab.async false

namespace Sys2Proof.Machine

/-- Settles O10: every block is in its cold-start state (R10, R96, R187). -/
theorem invariantsHoldAtReset : Obligations.InvariantsHoldAtReset := by
  refine ⟨repliesSound_of_reset rfl, List.nodup_nil, nofun, State.reset_dram_wf, ?_, ?_, ?_, ?_⟩
  · exact ⟨by decide, List.nodup_nil⟩
  · apply cold_sound <;> rfl
  · exact sound_cold State.reset.lines State.reset.pending State.reset.dram State.reset.power
  · exact ring_cold State.reset.lines State.reset.pending State.reset.dram State.reset.power

/-! ## Byte order -/

@[simp] theorem be16_length (n : Nat) : (be16 n).length = 2 := rfl

/-- Only 0 and 1 are flags. -/
theorem flagOf_none {n : Nat} (h : 2 ≤ n) : flagOf? n = none := by
  unfold flagOf?
  split
  · omega
  · omega
  · rfl

theorem be8_toNat (b : Byte) : be8 b.toNat = [b] := by simp [be8]

/-- The two-byte field that spells `n`, read back. -/
theorem wordAt_be16 (a b : Byte) (n : Nat) (rest : List Byte) (h : n ≤ 65535) :
    wordAt (a :: b :: (be16 n ++ rest)) 2 = n := by
  simp only [be16, wordAt, byteAt, List.cons_append, List.nil_append, List.getD_cons_succ, List.getD_cons_zero,
    BitVec.toNat_ofNat]
  omega

/-! ## Records in READY -/

/-- A record in READY, not one held for RUN: it acts, and the idle timer starts again (R3, R170). -/
theorem writeRecord_ready {r : Record} {s : State} (ho : portOpen s) (hh : headerCheck r.kind r.sub r.payload.length = none)
    (hn : needsRun r = true → s.power.state ≠ .doze) : writeRecord r s = restartIdle (act r s) := by
  obtain ⟨hr, hi, -⟩ := ho
  rw [writeRecord_complete hr hi hh, completeRecord_dispatch hn]
  unfold dispatch
  rw [clearInbound_self hi]

/-- Only an order is ever held for RUN. -/
theorem held_only_orders {r : Record} {s : State} (h : r.kind ≠ kOrder) : needsRun r = true → s.power.state ≠ .doze := by
  simp [needsRun, h]

/-! ## The record as its strobes (R1 to R3) -/

theorem rdy_awake {s : State} (h : rdy s = true) : s.power.state ≠ .sleep := by
  unfold rdy at h
  simp only [Bool.and_eq_true, Bool.or_eq_true, decide_eq_true_eq] at h
  obtain ⟨⟨⟨-, hp⟩, -⟩, -⟩ := h
  rintro hs
  simp [hs] at hp

/-- RDY stays high through the bytes of a record. -/
theorem rdy_setInbound {s : State} {i : Inbound} (hr : rdy s = true) (hs : s.port.inbound = .receiving [])
    (hi : i.isHeld = false) : rdy (setInbound i s) = true := by
  unfold rdy at hr ⊢
  simp only [Bool.and_eq_true, Bool.or_eq_true, decide_eq_true_eq, hs, Inbound.begun, List.isEmpty_nil, Bool.not_true,
    Bool.false_eq_true, or_false] at hr
  change (!i.isHeld && (decide (s.port.replies.length < Config.replyCapacity) || i.begun) && s.power.returning.isNone
    && s.power.entry.isNone && (decide (s.power.state = .run) || decide (s.power.state = .doze))
    && decide (s.power.pfail = .inactive) && (decide (s.boot.state = .portload) || decide (s.boot.state = .ready))) = true
  simp only [hi, Bool.and_eq_true, Bool.or_eq_true, decide_eq_true_eq]
  obtain ⟨⟨⟨⟨⟨⟨-, room⟩, ret⟩, ent⟩, pow⟩, pf⟩, boot⟩ := hr
  exact ⟨⟨⟨⟨⟨⟨rfl, .inl room⟩, ret⟩, ent⟩, pow⟩, pf⟩, boot⟩

theorem strobe_takes {s : State} (h : rdy s = true) (g : Bool) (d : Byte) : strobe g d s = takeByte d s := by
  simp [strobe, rdy_awake h, h]

/-- What a complete record does does not depend on the bytes gathered for it. -/
theorem completeRecord_setInbound (r : Record) (i : Inbound) (s : State) :
    completeRecord r (setInbound i s) = completeRecord r s := rfl

section Strobes

variable {s : State} (hr : rdy s = true) (hs : s.port.inbound = .receiving [])
include hr hs

/-- A byte taken into the record being received. -/
theorem strobe_receiving (bs : List Byte) (d : Byte) :
    strobe false d (setInbound (.receiving bs) s) = appendByte (bs ++ [d]) (setInbound (.receiving bs) s) := by
  rw [strobe_takes (rdy_setInbound hr hs rfl)]
  rfl

theorem strobe_header {bs : List Byte} (d : Byte) (h : bs.length < 3) :
    strobe false d (setInbound (.receiving bs) s) = setInbound (.receiving (bs ++ [d])) s := by
  rw [strobe_receiving hr hs, appendByte, if_pos (by simp; omega)]
  rfl

/-- The fourth byte completes the header, which is checked (R2). -/
theorem strobes_header (k b : Byte) (n : Nat) (h : n ≤ 65535) :
    ([k, b] ++ be16 n).foldl (fun s d => strobe false d s) s =
      headerTaken k b n ([k, b] ++ be16 n) (setInbound (.receiving [k, b, BitVec.ofNat 8 (n / 256)]) s) := by
  have s0 : s = setInbound (.receiving []) s := (setInbound_self hs).symm
  have field : wordAt ([k, b] ++ be16 n) 2 = n := by simpa using wordAt_be16 k b n [] h
  rw [s0]
  show strobe false _ (strobe false _ (strobe false _ (strobe false _ (setInbound (.receiving []) s)))) = _
  rw [strobe_header hr hs _ (by simp), strobe_header hr hs _ (by simp), strobe_header hr hs _ (by simp),
    strobe_receiving hr hs]
  show appendByte ([k, b] ++ be16 n) _ = _
  rw [appendByte, if_neg (by simp), if_pos (by simp), field]
  rfl

/-- The payload's bytes, after a header that passed, complete the record. -/
theorem strobes_payload (k b : Byte) (n : Nat) (h : n ≤ 65535) (rest : List Byte) :
    ∀ done : List Byte, rest ≠ [] → done.length + rest.length = n →
      rest.foldl (fun s d => strobe false d s) (setInbound (.receiving ([k, b] ++ be16 n ++ done)) s) =
        completeRecord { kind := k, sub := b, payload := done ++ rest } s := by
  induction rest with
  | nil => exact fun _ h => absurd rfl h
  | cons d rest ih =>
    intro done _ hn
    have field : wordAt ([k, b] ++ be16 n ++ done ++ [d]) 2 = n := by
      simpa using wordAt_be16 k b n (done ++ [d]) h
    have long : ([k, b] ++ be16 n ++ done ++ [d]).length = 4 + (done.length + 1) := by simp; omega
    have next : strobe false d (setInbound (.receiving ([k, b] ++ be16 n ++ done)) s) =
        if done.length + 1 < n then setInbound (.receiving ([k, b] ++ be16 n ++ (done ++ [d]))) s
        else completeRecord { kind := k, sub := b, payload := done ++ [d] } s := by
      rw [strobe_receiving hr hs, appendByte, if_neg (by omega), if_neg (by omega), field, long]
      by_cases more : done.length + 1 < n
      · rw [if_pos (by omega), if_pos more, List.append_assoc _ done]
        rfl
      · rw [if_neg (by omega), if_neg more, completeRecord_setInbound]
        rfl
    rw [List.foldl_cons, next]
    cases rest with
    | nil => simp_all
    | cons d' rest =>
      rw [if_pos (by simp at hn; omega), ih (done ++ [d]) (by simp) (by simp at hn ⊢; omega)]
      simp

/-- The payload of a refused record is drained and answered once (R2). -/
theorem strobes_drained (k b : Byte) (st : Status) (rest : List Byte) : rest ≠ [] →
    rest.foldl (fun s d => strobe false d s) (setInbound (.draining k b st rest.length) s) =
      pushReply k b (.filled st []) s := by
  induction rest with
  | nil => exact fun h => absurd rfl h
  | cons d rest ih =>
    intro _
    have answered (i : Inbound) : drained k b st (setInbound i s) = pushReply k b (.filled st []) s := by
      have : setInbound (.receiving []) (setInbound i s) = s := setInbound_self hs
      rw [drained, this]
    have next : strobe false d (setInbound (.draining k b st (rest.length + 1)) s) =
        if rest.length + 1 ≤ 1 then pushReply k b (.filled st []) s
        else setInbound (.draining k b st rest.length) s := by
      rw [strobe_takes (rdy_setInbound hr hs rfl)]
      show (if _ then drained k b st _ else _) = _
      rw [answered]
      rfl
    rw [List.foldl_cons, List.length_cons, next]
    cases rest with
    | nil => simp
    | cons d' rest => rw [if_neg (by simp), ih (by simp)]

end Strobes

/-- A header that passes states a payload the catalogue allows. -/
theorem headerCheck_bound {k b : Byte} {n : Nat} (h : headerCheck k b n = none) : n ≤ 65535 := by
  have range : ∀ p, lengthRange? k b = some p → p.2 ≤ 2048 := by
    intro p hp
    have orders (m : Nat) : ∀ q, orderLength? m = some q → q ≤ 7 := by
      unfold orderLength?
      intro q hq
      split at hq <;> simp_all <;> omega
    have queries (m : Nat) : ∀ q, queryLength? m = some q → q ≤ 3 := by
      unfold queryLength?
      intro q hq
      split at hq <;> simp_all <;> omega
    unfold lengthRange? at hp
    split at hp
    · split at hp <;> cases hp; decide
    · split at hp
      · split at hp <;> cases hp; decide
      · split at hp
        · obtain ⟨q, hq, rfl⟩ := Option.map_eq_some_iff.1 hp
          have := orders _ q hq
          show q ≤ 2048
          omega
        · split at hp
          · obtain ⟨q, hq, rfl⟩ := Option.map_eq_some_iff.1 hp
            have := queries _ q hq
            show q ≤ 2048
            omega
          · split at hp
            · split at hp <;> cases hp; decide
            · split at hp
              · split at hp
                · cases hp; decide
                · split at hp <;> cases hp; decide
              · cases hp
  unfold headerCheck at h
  split at h
  · cases h
  · next lo hi hp =>
    split at h
    · next hn =>
      have := range _ hp
      simp only at this
      omega
    · cases h

/-- Settles O3: the header's four bytes are gathered and checked, the payload's bytes then complete the record or are drained. -/
theorem recordsAreTheirStrobes : Obligations.RecordsAreTheirStrobes := by
  have header (r : Record) (s : State) : r.bytes.foldl (fun s d => strobe false d s) s =
      r.payload.foldl (fun s d => strobe false d s)
        (([r.kind, r.sub] ++ be16 r.payload.length).foldl (fun s d => strobe false d s) s) := by
    rw [Record.bytes, List.foldl_append]
  constructor
  · intro r s hr hs hh
    have hn := headerCheck_bound hh
    rw [header, strobes_header hr hs _ _ _ hn, headerTaken, hh]
    dsimp only
    by_cases he : r.payload = []
    · rw [if_pos (by simp [he]), completeRecord_setInbound, he]
      obtain ⟨k, b, p⟩ := r
      cases he
      rfl
    · rw [if_neg (by simpa using he)]
      have := strobes_payload hr hs r.kind r.sub r.payload.length hn r.payload [] he (by simp)
      rw [List.append_nil] at this
      exact this
  · intro r st s hr hs hn hh
    rw [header, strobes_header hr hs _ _ _ hn, headerTaken, hh]
    dsimp only
    by_cases he : r.payload = []
    · rw [if_pos (by simp [he]), he]
      show pushReply _ _ _ (setInbound (.receiving []) s) = _
      rw [setInbound_self hs]
    · rw [if_neg (by simpa using he)]
      exact strobes_drained hr hs r.kind r.sub st r.payload he

/-! ## Queries (R16) -/

/-- Settles O15: each query's answer is read off the state, TABLE's refusals in order. -/
theorem queriesAnswerFromState : Obligations.QueriesAnswerFromState := by
  intro s hr hi
  have asks (sub : Byte) (p : List Byte) (h : headerCheck kQuery sub p.length = none) :
      Host.Outcome.next (writeQuery sub p s) =
        (.next (restartIdle (pushReply kQuery sub (queryBody sub.toNat p s) s)) : Host.Outcome State Fault Refusal) := by
    rw [writeQuery_answer hr hi h]
  have tables (id copy seg : Byte) : exec (.queryTable id copy seg) s =
      .next (restartIdle (pushReply kQuery 4 (queryTable id.toNat copy.toNat seg.toNat s) s)) :=
    asks 4 [id, copy, seg] (by rfl)
  refine ⟨asks 1 [] (by rfl), asks 3 [] (by rfl), asks 5 [] (by rfl), fun page => asks 2 [page] (by rfl), ?_, ?_⟩
  · intro id copy seg h
    have refused : queryTable id.toNat copy.toNat seg.toNat s = .filled .badarg [] := by
      unfold queryTable
      split
      · next hid =>
        rw [flagOf_none (by omega)]
      · rfl
    show exec _ s = _
    rw [tables, refused]
  · intro id pending seg
    have hid : (BitVec.ofNat 8 id.val : Byte).toNat = id.val := by
      rw [BitVec.toNat_ofNat]
      omega
    have hc : flagOf? (if pending then (1 : Byte) else 0).toNat = some pending := by cases pending <;> rfl
    have found : queryTable (BitVec.ofNat 8 id.val : Byte).toNat (if pending then (1 : Byte) else 0).toNat seg.toNat s =
        match copyOf pending id s with
        | none => .filled .notable []
        | some img => if img.length ≤ 2040 * seg.toNat then .filled .badarg [] else .filled .ok (tableAnswer id pending seg.toNat img) := by
      rw [hid]
      unfold queryTable
      rw [dif_pos id.isLt, hc]
      rfl
    constructor
    · intro h
      show exec _ s = _
      rw [tables, found, h]
    · intro img h
      constructor
      · intro hl
        show exec _ s = _
        rw [tables, found, h]
        simp [hl]
      · intro hl
        show exec _ s = _
        rw [tables, found, h]
        dsimp only
        rw [if_neg (Nat.not_le.2 hl), tableAnswer, be8_toNat]
        rfl

/-! ## LINE (R7, R48) -/

theorem exec_line {sub : Byte} {payload : List Byte} {s : State} (ho : portOpen s) (hs : sub.toNat ≤ 1)
    (hl : payload.length ≤ 216) :
    exec (.line sub payload) s = .next (restartIdle (actLine { kind := kLine, sub := sub, payload := payload } s)) := by
  have hh : headerCheck kLine sub payload.length = none := by simp [headerCheck, lengthRange?, hs, hl]
  show Host.Outcome.next (writeRecord _ s) = _
  rw [writeRecord_ready ho hh (held_only_orders (show kLine ≠ kOrder by decide))]
  simp [act, ho.2.2]

/-- Settles O11: a LINE not refused enters the ring; the refusals stand in their order. -/
theorem lineEntersRingOrIsRefused : Obligations.LineEntersRingOrIsRefused := by
  have opened {s : State} {j : IntakeJob} (hj : s.intJob = some j) (ho : j.state = .opened) : intakeOpen s = true := by
    simp [intakeOpen, hj, ho]
  have refused {sub : Byte} {payload : List Byte} {s : State} {st : Status} (h : lineRefusal payload s = some st) :
      actLine { kind := kLine, sub := sub, payload := payload } s = pushReply kLine sub (.filled st []) s := by
    simp [actLine, h, answer]
  constructor
  · intro sub payload s j hp hs hl hj hjo hf hz
    have taken : lineRefusal payload s = none := by
      have : ¬ (payload = [] ∧ s.port.intakeLineNo = 0) := fun h => hz h.1 h.2
      simp [lineRefusal, opened hj hjo, hf, this]
    have mark : sub.toNat = 1 ↔ sub = 1 := (BitVec.toNat_inj (x := sub) (y := 1))
    dsimp only
    rw [exec_line hp hs hl]
    simp only [actLine, taken, acceptLine, lineDotsOf, decide_eq_true_eq]
  · intro sub payload s hp hs hl
    refine ⟨fun hc => ?_, fun j hj hjo hf => ?_, fun j hj hjo hf he hz => ?_⟩
    · have closed : intakeOpen s = false := by
        unfold intakeOpen
        split
        · rfl
        · next j hj => simp [hc j hj]
      rw [exec_line hp hs hl, refused (st := .state) (by simp [lineRefusal, closed])]
    · rw [exec_line hp hs hl, refused (st := .full) (by simp [lineRefusal, opened hj hjo, hf])]
    · rw [exec_line hp hs hl, refused (st := .state) (by simp [lineRefusal, opened hj hjo, hf, he, hz])]

end Sys2Proof.Machine
end

section
/-! The event flags (R184 to R186) and the strobes of the port (R1, R4, R8, R9). -/

set_option Elab.async false

namespace Sys2Proof.Machine

/-! ## A flag posted (R184) -/

/-- A flag stored: reported from then on where its record joins the queue. -/
theorem post_flag (e : Events) (f : Fin 20) (g : EventFlag) :
    (e.post f g).flags[f] = { g with reported := g.reported || (g.set && !g.masked && !g.reported) } := by
  unfold Events.post
  split
  · next h => simp [h]
  · next h => simp [Bool.eq_false_iff.2 h]

/-- The queue takes the record of a flag that is set, unmasked and not reported. -/
theorem post_queue (e : Events) (f : Fin 20) (g : EventFlag) :
    (e.post f g).queue = e.queue ++ if g.set && !g.masked && !g.reported then [f] else [] := by
  unfold Events.post
  split <;> simp

theorem post_other (e : Events) {f k : Fin 20} (g : EventFlag) (h : k ≠ f) : (e.post f g).flags[k] = e.flags[k] := by
  have hv : f.val ≠ k.val := fun x => h (Fin.ext x.symm)
  unfold Events.post
  split <;> simp [Vector.getElem_set_ne _ _ hv]

/-! ## EVACK (R186) -/

@[simp] theorem cleared_cleared (g : EventFlag) : g.cleared.cleared = g.cleared := rfl
@[simp] theorem cleared_set (g : EventFlag) : g.cleared.set = false := rfl

theorem ack_flag (b : Bool) (e : Events) (f : Fin 20) : (e.ack b f).1.flags[f] = (e.flags[f]).cleared := by
  simp [Events.ack]

theorem ack_other (b : Bool) (e : Events) {f k : Fin 20} (h : k ≠ f) : (e.ack b f).1.flags[k] = e.flags[k] := by
  have hv : f.val ≠ k.val := fun x => h (Fin.ext x.symm)
  simp [Events.ack, Vector.getElem_set_ne _ _ hv]

theorem ackAll_not_mem (b : Bool) (fs : List (Fin 20)) :
    ∀ (e : Events) (k : Fin 20), k ∉ fs → (e.ackAll b fs).1.flags[k] = e.flags[k] := by
  induction fs with
  | nil => exact fun _ _ _ => rfl
  | cons f fs ih =>
    intro e k hk
    rw [List.mem_cons, not_or] at hk
    exact (ih _ k hk.2).trans (ack_other b e hk.1)

theorem ackAll_mem (b : Bool) (fs : List (Fin 20)) :
    ∀ (e : Events) (k : Fin 20), k ∈ fs → (e.ackAll b fs).1.flags[k] = (e.flags[k]).cleared := by
  induction fs with
  | nil => exact fun _ _ h => absurd h List.not_mem_nil
  | cons f fs ih =>
    intro e k hk
    show ((e.ack b f).1.ackAll b fs).1.flags[k] = _
    by_cases later : k ∈ fs
    · rw [ih _ k later]
      by_cases same : k = f
      · rw [same, ack_flag, cleared_cleared]
      · rw [ack_other b e same]
    · have same : k = f := (List.mem_cons.1 hk).resolve_right later
      rw [ackAll_not_mem b fs _ k later, same, ack_flag]

/-- One answer byte for each number listed. -/
theorem ackAll_length (b : Bool) (fs : List (Fin 20)) : ∀ e : Events, (e.ackAll b fs).2.length = fs.length := by
  induction fs with
  | nil => exact fun _ => rfl
  | cons f fs ih => exact fun e => congrArg (· + 1) (ih _)

/-- The answer byte of a number: what the flag was found as, 0 where the number came before in the list. -/
theorem ackAll_answer (b : Bool) (fs : List (Fin 20)) : ∀ (e : Events) (i : Nat) (f : Fin 20), fs[i]? = some f →
    (e.ackAll b fs).2[i]? = some
      (if f ∈ fs.take i then 0 else if (e.flags[f]).set then (if (e.flags[f]).again then 2 else 1) else 0) := by
  induction fs with
  | nil => exact fun _ _ _ h => by simp at h
  | cons g fs ih =>
    intro e i f hi
    cases i with
    | zero =>
      rw [List.getElem?_cons_zero, Option.some.injEq] at hi
      subst hi
      simp [Events.ackAll, Events.ack]
    | succ i =>
      rw [List.getElem?_cons_succ] at hi
      show ((e.ack b g).1.ackAll b fs).2[i]? = _
      rw [ih _ i f hi]
      by_cases same : f = g
      · subst same
        simp only [ack_flag, cleared_set, Bool.false_eq_true, if_false, ite_self, List.take_succ_cons, List.mem_cons,
          true_or, if_true]
      · simp only [List.take_succ_cons, List.mem_cons, same, false_or, ack_other b e same]

/-- Records withdrawn from behind the one being read. -/
theorem withdraw_eq (b : Bool) (f : Fin 20) (q : List (Fin 20)) :
    withdraw b f q = q.take (if b then 1 else 0) ++ (q.drop (if b then 1 else 0)).filter (· ≠ f) := by
  cases b
  · rfl
  · cases q <;> rfl

theorem ackAll_queue (b : Bool) (fs : List (Fin 20)) : ∀ e : Events,
    (e.ackAll b fs).1.queue = e.queue.take (if b then 1 else 0)
      ++ (e.queue.drop (if b then 1 else 0)).filter (fun f => decide (f ∉ fs)) := by
  induction fs with
  | nil => simp [Events.ackAll]
  | cons g fs ih =>
    intro e
    show ((e.ack b g).1.ackAll b fs).1.queue = _
    rw [ih]
    show (withdraw b g e.queue).take _ ++ ((withdraw b g e.queue).drop _).filter _ = _
    rw [withdraw_eq]
    cases b
    · simp [List.filter_filter, Bool.and_comm]
    · cases e.queue with
      | nil => rfl
      | cons h t => simp [List.filter_filter, Bool.and_comm]

/-- The numbers of flags, listed as bytes, are those flags. -/
theorem flagList_flags (fs : List (Fin 20)) : flagList? (fs.map fun f => BitVec.ofNat 8 f.val) = some fs := by
  induction fs with
  | nil => rfl
  | cons f fs ih =>
    have hf : (BitVec.ofNat 8 f.val : Byte).toNat = f.val := by
      rw [BitVec.toNat_ofNat]
      omega
    simp [flagList?, ih, hf]

theorem flagList_bad {bs : List Byte} (h : ∃ b ∈ bs, 20 ≤ b.toNat) : flagList? bs = none := by
  induction bs with
  | nil => simp at h
  | cons b bs ih =>
    unfold flagList?
    split
    · next hb =>
      obtain ⟨x, hx, hx20⟩ := h
      rcases List.mem_cons.1 hx with rfl | hx
      · omega
      · rw [ih ⟨x, hx, hx20⟩]
        rfl
    · rfl

theorem exec_evack {flags : List Byte} {s : State} (ho : portOpen s) (hf : flags ≠ []) (hl : flags.length ≤ 20) :
    exec (.evack flags) s =
      .next (restartIdle (pushReply kEvack 0 (orderEvack flags s).2 (orderEvack flags s).1)) := by
  have hh : headerCheck kEvack 0 flags.length = none := by
    have : 1 ≤ flags.length := List.length_pos_iff.2 hf
    simp [headerCheck, lengthRange?, kEvack, kLine, kLoad, kOrder, kQuery, this, hl]
  show Host.Outcome.next (writeRecord _ s) = _
  rw [writeRecord_ready ho hh (held_only_orders (show kEvack ≠ kOrder by decide))]
  simp [act, ho.2.2, kEvack, kLine, kLoad, kQuery, answer]

/-- Settles O16: a raise through the flag posted, EVACK by induction over the flags listed. -/
theorem flagsAreRaisedAndAcknowledged : Obligations.FlagsAreRaisedAndAcknowledged := by
  refine ⟨fun f p c r s => ?_, fun fs s ho hf hl => ?_, fun flags s ho hf hl hb => ?_⟩
  · have raised : (raise f p c r s).events.flags[f] = _ := post_flag s.events f _
    have queued : (raise f p c r s).events.queue = _ := post_queue s.events f _
    have others (k : Fin 20) (hk : k ≠ f) : (raise f p c r s).events.flags[k] = s.events.flags[k] := post_other s.events _ hk
    dsimp only
    rw [raised, queued]
    unfold EventFlag.raised
    cases hs : (s.events.flags[f]).set <;> simp <;> exact others
  · refine ⟨(s.events.ackAll (eventBegun s) fs).1, (s.events.ackAll (eventBegun s) fs).2, ?_,
      ackAll_length .., ackAll_answer _ fs s.events, ackAll_mem _ fs s.events, ackAll_not_mem _ fs s.events, ackAll_queue ..⟩
    rw [exec_evack ho (by simpa using hf) (by simpa using hl), orderEvack, flagList_flags]
  · rw [exec_evack ho hf hl, orderEvack, flagList_bad hb]

/-! ## The strobes -/

theorem wakeReturns_not_rdy {s : State} (h : wakeReturns s = true) : s.power.state ≠ .sleep ∧ rdy s = false := by
  simp only [wakeReturns, Bool.and_eq_true, decide_eq_true_eq] at h
  refine ⟨by simp [h.1], ?_⟩
  cases hr : s.power.returning with
  | none => simp [hr] at h
  | some r => simp [rdy, hr]

/-- A write strobe with RDY low, out of SLEEP. -/
theorem strobe_lost {s : State} (hs : s.power.state ≠ .sleep) (hr : rdy s = false) (g : Bool) (d : Byte) :
    strobe g d s = if g then holdTogether d s else s := by
  simp [strobe, hs, hr]

theorem readStrobe_starts {s : State} {c : OutCourse} (ha : attn s = true) (hc : s.port.course = none)
    (hs : chooseOut s = some c) : readStrobe s = driveByte c s := by
  simp [readStrobe, ha, hc, hs]

theorem readStrobe_goesOn {s : State} {c : OutCourse} (ha : attn s = true) (hc : s.port.course = some c) :
    readStrobe s = driveByte c s := by
  simp [readStrobe, ha, hc]

theorem chooseOut_waits {s : State} (h : replyReady s = false) :
    chooseOut s = match s.events.queue with
      | f :: _ => some { source := .event, rest := s.events.recordBytes f }
      | [] =>
        if 0 < s.rings.output.occ then
          some { source := .line, rest := lineBytes (s.rings.output.slot s.rings.output.head) }
        else none := by
  unfold chooseOut
  split
  · next hp => simp [replyReady, hp] at h
  · rfl

@[simp] theorem lineToBytes_length (l : Line) : (lineToBytes l).length = 216 := by simp [lineToBytes]

/-- Settles O2: each strobe's case by the state of the handshake. -/
theorem strobesTakeAndDriveBytes : Obligations.StrobesTakeAndDriveBytes := by
  refine ⟨fun cs d g lv s => ⟨?_, ?_, ?_, ?_⟩, fun cs s => ⟨?_, ?_, ?_⟩, fun s ha hc => ⟨?_, ?_, ?_⟩,
    fun b s ha => ⟨?_, ?_, ?_⟩⟩
  · rintro rfl
    rfl
  · rintro rfl hs hr lost
    show Host.Outcome.next (strobe g d (sense lv s)) = _
    rw [strobe_lost (s := sense lv s) hs hr]
    cases g with
    | false => rfl
    | true =>
      rw [if_pos rfl]
      unfold holdTogether
      split
      · next bs hi =>
        split
        · next r hx =>
          split
          · next hw =>
            rcases lost with l | l | l
            · cases l
            · exact absurd (l.symm.trans hw) (by decide)
            · exact absurd ((l bs hi).symm.trans hx) (by simp)
          · rfl
        · rfl
      · rfl
      · rfl
  · rintro bs r rfl rfl hw hi hx
    obtain ⟨hs, hr⟩ := wakeReturns_not_rdy hw
    have hi' : (sense lv s).port.inbound = .receiving bs := hi
    have hw' : wakeReturns (sense lv s) = true := hw
    show Host.Outcome.next (strobe true d (sense lv s)) = _
    rw [strobe_lost (s := sense lv s) hs hr, if_pos rfl, holdTogether, hi']
    simp [hx, hw']
  · rintro bs rfl hr hi hl
    have hi' : (sense lv s).port.inbound = .receiving bs := hi
    show Host.Outcome.next (strobe g d (sense lv s)) = _
    rw [strobe_takes (s := sense lv s) hr, takeByte, hi']
    simp [appendByte, hl]
  · rintro rfl
    rfl
  · rintro rfl ha
    show Host.Outcome.next (readStrobe s) = _
    simp [readStrobe, ha]
  · rintro src b b' rest rfl ha hc
    show Host.Outcome.next (readStrobe s) = _
    rw [readStrobe_goesOn ha hc]
    rfl
  · intro k sb st a tl hp
    show Host.Outcome.next (readStrobe s) = _
    rw [readStrobe_starts ha hc (by unfold chooseOut; rw [hp])]
    rfl
  · intro f q hw hq
    show Host.Outcome.next (readStrobe s) = _
    rw [readStrobe_starts (c := { source := .event, rest := s.events.recordBytes f }) ha hc (by rw [chooseOut_waits hw, hq])]
    rfl
  · intro hw hq
    have line : 0 < s.rings.output.occ := by
      simp [attn, outWaiting, hc, hw, hq] at ha
      exact ha.2
    show Host.Outcome.next (readStrobe s) = _
    rw [readStrobe_starts ha hc (by rw [chooseOut_waits hw, hq]; exact if_pos line)]
    cases hx : (s.rings.output.slot s.rings.output.head).rep <;> simp [lineBytes, hx, driveByte, kLine, be16]
  · intro hc
    show Host.Outcome.next (readStrobe s) = _
    rw [readStrobe_goesOn ha hc]
    simp [driveByte, outboundEnd, mapPort]
  · intro hc
    show Host.Outcome.next (readStrobe s) = _
    rw [readStrobe_goesOn ha hc]
    simp [driveByte, outboundEnd]
  · intro hc
    show Host.Outcome.next (readStrobe s) = _
    rw [readStrobe_goesOn ha hc]
    rfl

end Sys2Proof.Machine
end

section
/-! LOAD and SETTINGS (R12 to R15, R185): what a segment comes to, told once for the port and for the serial ROM. -/

set_option Elab.async false

namespace Sys2Proof.Machine

/-! ## A segment (R12) -/

/-- Does a segment other than 0 go on with an assembly (R12; log entry 18)? -/
def Assembly.goesOn (id : Fin 14) (seg : Byte) (a : Assembly) : Prop := a.table = id ∧ a.next = seg.toNat ∧ seg.toNat ≤ 15

/-- The image a segment of these bytes leads to: segment 0 begins it afresh, another joins the assembly it goes on with. -/
def gathersTo (id : Fin 14) (seg : Byte) (bytes img : List Byte) (s : State) : Prop :=
  (seg = 0 ∧ img = bytes) ∨ (seg ≠ 0 ∧ ∃ a, s.tables.assembly = some a ∧ a.goesOn id seg ∧ img = a.bytes ++ bytes)

section Segment

variable {id : Fin 14} {seg : Byte} {bytes img : List Byte} {s : State}

theorem byte_ne_zero (h : seg ≠ 0) : seg.toNat ≠ 0 := fun k => h (BitVec.eq_of_toNat_eq k)

theorem loadSegment_badFlag {fin : Nat} (h : 2 ≤ fin) : loadSegment id seg.toNat fin bytes s = (s, .filled .badarg []) := by
  rw [loadSegment, flagOf_none h]

theorem flagOf_le {fin : Nat} (h : fin ≤ 1) : flagOf? fin = some (decide (fin = 1)) := by
  rcases Nat.le_one_iff_eq_zero_or_eq_one.1 h with rfl | rfl <;> rfl

theorem loadSegment_strays {fin : Nat} (hf : fin ≤ 1) (hs : seg ≠ 0)
    (h : ∀ a, s.tables.assembly = some a → ¬ a.goesOn id seg) :
    loadSegment id seg.toNat fin bytes s = (s, .filled .state []) := by
  rw [loadSegment, flagOf_le hf]
  dsimp only
  rw [if_neg (byte_ne_zero hs)]
  split
  · rfl
  · next a ha => exact if_neg (h a ha)

/-- A segment taken: its bytes are gathered (R12). -/
theorem loadSegment_gathers {fin : Nat} (hf : fin ≤ 1) (h : gathersTo id seg bytes img s) :
    loadSegment id seg.toNat fin bytes s = gather id (seg.toNat + 1) (decide (fin = 1)) img s := by
  rw [loadSegment, flagOf_le hf]
  dsimp only
  rcases h with ⟨rfl, rfl⟩ | ⟨hs, a, ha, goes, rfl⟩
  · rfl
  · rw [if_neg (byte_ne_zero hs), ha]
    exact if_pos goes

theorem gather_long (n : Nat) (f : Bool) (h : 12288 < img.length) :
    gather id n f img s = (setAssembly none s, .filled .length []) := if_pos h

theorem gather_more (n : Nat) (h : img.length ≤ 12288) :
    gather id n false img s = (setAssembly (some { table := id, next := n, bytes := img }) s, .filled .ok []) := by
  rw [gather, if_neg (show ¬ Config.maxImage < img.length from Nat.not_lt.2 h)]
  rfl

theorem gather_final (n : Nat) (h : img.length ≤ 12288) :
    gather id n true img s = completeImage id img (setAssembly none s) := by
  rw [gather, if_neg (show ¬ Config.maxImage < img.length from Nat.not_lt.2 h)]
  rfl

end Segment

/-! ## An image complete (R13) -/

section Image

variable {id : Fin 14} {img : List Byte} {t : State}

theorem completeImage_length (h : tableLengthOk id img = false) : completeImage id img t = (t, .filled .length []) := by
  simp [completeImage, h]

theorem completeImage_enums (h : tableLengthOk id img = true) (k : tableEnumsOk id img = false) :
    completeImage id img t = (t, .filled .badarg []) := by
  simp [completeImage, h, k]

variable (hl : tableLengthOk id img = true) (he : tableEnumsOk id img = true)
include hl he

theorem completeImage_refused {st : Status} (h : installRefusal id img t = some st) :
    completeImage id img t = (t, .filled st []) := by
  simp [completeImage, hl, he, h]

/-- An image that nothing refuses is clamped and installed, and the reply says where and what was clamped. -/
theorem completeImage_installs (h : installRefusal id img t = none) :
    completeImage id img t =
      ((installImage id (clampTable id img).image t).1,
        .filled (if (clampTable id img).count = 0 then .ok else .clamped)
          (be8 (installImage id (clampTable id img).image t).2 ++ be16 (clampTable id img).count
            ++ be16 (clampTable id img).first)) := by
  simp [completeImage, hl, he, h]

end Image

theorem installRefusal_shading {img : List Byte} {t : State} (h : t.front.cal ≠ none) :
    installRefusal tShading img t = some .busy := by
  simp [installRefusal, tShading, tSettings, Option.isSome_iff_ne_none.2 h]

/-- Does a job, a calibration or a moving or faulted channel keep SETTINGS from being loaded (R15)? -/
def settingsBusy (t : State) : Prop :=
  t.scanJob ≠ none ∨ t.intJob ≠ none ∨ t.prtJob ≠ none ∨ t.outJob ≠ none ∨ t.front.cal ≠ none
    ∨ t.motS.atRest = false ∨ t.motP.atRest = false

theorem installRefusal_busy {img : List Byte} {t : State} (h : settingsBusy t) :
    installRefusal tSettings img t = some .busy := by
  simp only [settingsBusy, ← Option.isSome_iff_ne_none] at h
  rw [installRefusal, if_pos rfl, if_pos]
  simp only [Bool.or_eq_true, Bool.not_eq_true']
  tauto

theorem installRefusal_idle {img : List Byte} {t : State} (h : ¬ settingsBusy t) :
    installRefusal tSettings img t =
      if t.boot.state = .ready ∧ byteAt img 0 ≠ byteAt (settingsImage t) 0 ∧ t.dir.entries ≠ [] then some .state else none := by
  simp only [settingsBusy, ← Option.isSome_iff_ne_none] at h
  rw [installRefusal, if_pos rfl, if_neg]
  simp only [Bool.or_eq_true, Bool.not_eq_true']
  tauto

theorem not_settingsBusy {t : State} (h1 : t.scanJob = none) (h2 : t.intJob = none) (h3 : t.prtJob = none)
    (h4 : t.outJob = none) (h5 : t.front.cal = none) (h6 : t.motS.atRest = true) (h7 : t.motP.atRest = true) :
    ¬ settingsBusy t := by
  simp [settingsBusy, h1, h2, h3, h4, h5, h6, h7]

theorem installRefusal_other {id : Fin 14} {img : List Byte} {t : State} (h : id ≠ tSettings)
    (k : id = tShading → t.front.cal = none) : installRefusal id img t = none := by
  rw [installRefusal, if_neg h, if_neg]
  rintro ⟨hs, hc⟩
  simp [k hs] at hc

theorem installImage_other {id : Fin 14} (img : List Byte) (t : State) (h : id ≠ tSettings) :
    installImage id img t = if tableInUse id t then (setPending id (some img) t, 1) else (replaceActive id img t, 0) := by
  rw [installImage, if_neg h]

/-! ## LOAD at the port -/

theorem byte_ofNat_fin (id : Fin 14) : (BitVec.ofNat 8 id.val : Byte).toNat = id.val := by
  rw [BitVec.toNat_ofNat]
  omega

/-- A LOAD in READY is the segment taken and answered. -/
theorem exec_load {id : Fin 14} {seg fin : Byte} {bytes : List Byte} {s t : State} {b : ReplyBody} (ho : portOpen s)
    (hl : bytes.length ≤ 2046) (h : loadSegment id seg.toNat fin.toNat bytes s = (t, b)) :
    exec (.load (BitVec.ofNat 8 id.val) seg fin bytes) s =
      .next (restartIdle (arbitrate (pushReply kLoad (BitVec.ofNat 8 id.val) b t))) := by
  have hid := byte_ofNat_fin id
  have hh : headerCheck kLoad (BitVec.ofNat 8 id.val) (seg :: fin :: bytes).length = none := by
    have : id.val ≤ 13 := by omega
    have : (BitVec.ofNat 8 id.val : Byte).toNat ≤ 13 := by omega
    simp only [headerCheck, lengthRange?, this, kLoad, kLine, List.length_cons]
    simp
    omega
  have taken : actLoad (BitVec.ofNat 8 id.val) (seg :: fin :: bytes) s = (t, b) := by
    rw [actLoad, dif_pos (by omega), ← h]
    congr 1
    exact Fin.ext hid
  show Host.Outcome.next (writeRecord _ s) = _
  rw [writeRecord_ready ho hh (held_only_orders (show kLoad ≠ kOrder by decide))]
  simp [act, ho.2.2, kLoad, kLine, answer, taken]

/-- Settles O12: the segment's cases, then the image's. -/
theorem loadGathersAndInstallsImage : Obligations.LoadGathersAndInstallsImage := by
  intro id seg bytes s ho hl
  refine ⟨fun fin hf => ?_, fun fin hf hs hn => ?_, fun img hi => ?_⟩
  · exact exec_load ho hl (loadSegment_badFlag hf)
  · exact exec_load ho hl (loadSegment_strays hf hs hn)
  · have more : loadSegment id seg.toNat (0 : Byte).toNat bytes s = gather id (seg.toNat + 1) false img s :=
      loadSegment_gathers (by decide) hi
    have final : loadSegment id seg.toNat (1 : Byte).toNat bytes s = gather id (seg.toNat + 1) true img s :=
      loadSegment_gathers (by decide) hi
    refine ⟨fun hlong => ⟨?_, ?_⟩, fun hshort => ?_⟩
    · exact exec_load ho hl (more.trans (gather_long _ _ hlong))
    · exact exec_load ho hl (final.trans (gather_long _ _ hlong))
    · have whole := final.trans (gather_final (seg.toNat + 1) hshort)
      refine ⟨exec_load ho hl (more.trans (gather_more _ hshort)), fun h => ?_, fun h k => ?_, fun h k => ⟨?_, ?_, ?_, ?_⟩⟩
      · exact exec_load ho hl (whole.trans (completeImage_length h))
      · exact exec_load ho hl (whole.trans (completeImage_enums h k))
      · rintro rfl hc
        exact exec_load ho hl (whole.trans (completeImage_refused h k (installRefusal_shading hc)))
      · rintro rfl hb
        exact exec_load ho hl (whole.trans (completeImage_refused h k (installRefusal_busy hb)))
      · rintro rfl h1 h2 h3 h4 h5 h6 h7 hz hp
        refine exec_load ho hl (whole.trans (completeImage_refused h k ?_))
        rw [installRefusal_idle (t := setAssembly none s) (not_settingsBusy h1 h2 h3 h4 h5 h6 h7)]
        exact if_pos ⟨ho.2.2, hz, hp⟩
      · intro hn hc
        have installs := completeImage_installs (t := setAssembly none s) h k (installRefusal_other hn hc)
        rw [installImage_other _ _ hn] at installs
        refine (exec_load ho hl (whole.trans installs)).trans ?_
        have same : tableInUse id (setAssembly none s) = tableInUse id s := rfl
        cases hu : tableInUse id s <;> simp [same, hu, replaceActive]

/-! ## SETTINGS (R15, R185) -/

/-- The masks taken flag by flag along a list without repeats: each flag of the list keeps all but its mask, a set one unmasked
and not reported joins the queue. -/
theorem mask_fold (field : Nat) (l : List (Fin 20)) : l.Nodup → ∀ e : Events,
    let told (f : Fin 20) : Bool := (e.flags[f]).set && !field.testBit f.val && !(e.flags[f]).reported
    let e' := l.foldl (fun e f => e.mask f (field.testBit f.val)) e
    e'.queue = e.queue ++ l.filter told
      ∧ (∀ f ∈ l, e'.flags[f] =
          { e.flags[f] with masked := field.testBit f.val, reported := (e.flags[f]).reported || told f })
      ∧ ∀ f, f ∉ l → e'.flags[f] = e.flags[f] := by
  induction l with
  | nil => exact fun _ e => ⟨by simp, nofun, fun _ _ => rfl⟩
  | cons g l ih =>
    intro hn e
    obtain ⟨hg, hn⟩ := List.nodup_cons.1 hn
    have other (f : Fin 20) (hf : f ≠ g) : (e.mask g (field.testBit g.val)).flags[f] = e.flags[f] := post_other e _ hf
    have own := post_flag e g { e.flags[g] with masked := field.testBit g.val }
    have queue := post_queue e g { e.flags[g] with masked := field.testBit g.val }
    obtain ⟨hq, hm, ho⟩ := ih hn (e.mask g (field.testBit g.val))
    have rest : l.filter (fun f => ((e.mask g (field.testBit g.val)).flags[f]).set && !field.testBit f.val
          && !((e.mask g (field.testBit g.val)).flags[f]).reported) =
        l.filter (fun f => (e.flags[f]).set && !field.testBit f.val && !(e.flags[f]).reported) := by
      refine List.filter_congr fun f hf => ?_
      rw [other f fun h => hg (h ▸ hf)]
    refine ⟨?_, ?_, ?_⟩
    · refine hq.trans ?_
      rw [rest, List.filter_cons]
      unfold Events.mask
      rw [queue]
      split <;> simp
    · intro f hf
      rcases List.mem_cons.1 hf with rfl | hf
      · exact (ho _ hg).trans own
      · have hne : f ≠ g := fun h => hg (h ▸ hf)
        refine (hm f hf).trans ?_
        simp only [other f hne]
    · intro f hf
      rw [List.mem_cons, not_or] at hf
      exact (ho f hf.2).trans (other f hf.1)

/-- Clamping keeps the memory size a SETTINGS image names. -/
theorem clampTable_memSize {image : List Byte} (h : tableLengthOk 0 image = true) :
    byteAt (clampTable 0 image).image 0 = byteAt image 0 := by
  cases image with
  | nil => simp [tableLengthOk] at h
  | cons a t =>
    obtain ⟨u, hu⟩ := clamp_settings (a := a) (t := t)
    show byteAt (clampTable tSettings (a :: t)).image 0 = _
    rw [hu]
    rfl

/-- SETTINGS taken (R15): the active copy, no pending copy, no assembly, and its masks. -/
def settingsTaken (img : List Byte) (s : State) : State :=
  { s with
    tables := { active := s.tables.active.set 0 (some img), pending := s.tables.pending.set 0 none, assembly := none },
    events := s.events.maskAll (beNat (sliceOf img 27 3)) }

/-- SETTINGS installed (R15, R67): taken, the list built anew for another memory size in READY. -/
theorem installSettings_eq (img : List Byte) (s : State) :
    installSettings img (setAssembly none s) =
      if s.boot.state = .ready ∧ byteAt img 0 ≠ byteAt (settingsImage s) 0 then startBuild (settingsTaken img s)
      else settingsTaken img s := rfl

/-- Settles O13: the segment sent whole is installed, and the masks are taken along the list of flags. -/
theorem settingsTakesMasksAndSize : Obligations.SettingsTakesMasksAndSize := by
  constructor
  · intro image s ho h1 h2 h3 h4 h5 h6 h7 hl he hz
    have long : image.length = 30 := by simpa [tableLengthOk] using hl
    have free : installRefusal tSettings image (setAssembly none s) = none := by
      rw [installRefusal_idle (t := setAssembly none s) (not_settingsBusy h1 h2 h3 h4 h5 h6 h7)]
      refine if_neg ?_
      rintro ⟨-, hb, hp⟩
      exact hz.elim hb hp
    have whole : loadSegment 0 (0 : Byte).toNat (1 : Byte).toNat image s = completeImage 0 image (setAssembly none s) :=
      (loadSegment_gathers (by decide) (.inl ⟨rfl, rfl⟩)).trans (gather_final _ (by omega))
    refine (exec_load (id := 0) ho (by omega) (whole.trans (completeImage_installs hl he free))).trans ?_
    have installed : installSettings (clampTable 0 image).image (setAssembly none s) =
        if byteAt image 0 = byteAt (settingsImage s) 0 then settingsTaken (clampTable 0 image).image s
        else startBuild (settingsTaken (clampTable 0 image).image s) := by
      rw [installSettings_eq, clampTable_memSize hl]
      by_cases hb : byteAt image 0 = byteAt (settingsImage s) 0
      · rw [if_neg (fun k => k.2 hb), if_pos hb]
      · rw [if_pos ⟨ho.2.2, hb⟩, if_neg hb]
    show Host.Outcome.next (restartIdle (arbitrate (pushReply kLoad 0 _ (installSettings _ (setAssembly none s))))) = _
    rw [installed]
    rfl
  · intro e field
    obtain ⟨hq, hm, -⟩ := mask_fold field (List.finRange 20) (List.nodup_finRange 20) e
    exact ⟨hq, fun f => hm f (List.mem_finRange f)⟩

end Sys2Proof.Machine
end

section
/-! Tables at their boundary (R14, R102, R117), and what follows at once with no job. -/

set_option Elab.async false

namespace Sys2Proof.Machine

/-! ## One pending copy -/

theorem applyPending_none {id : Fin 14} {s : State} (h : s.tables.pending[id] = none) : applyPending id s = s := by
  unfold applyPending
  rw [h]

theorem applyPending_some {id : Fin 14} {s : State} {img : List Byte} (h : s.tables.pending[id] = some img) :
    applyPending id s = raise evTableApplied 0 0 id.val (setPending id none (setActive id img s)) := by
  unfold applyPending
  rw [h]

/-- What a new active copy changes: the copy, and what is worked out from it (R26, R102). -/
theorem setActive_eq (id : Fin 14) (img : List Byte) (s : State) :
    setActive id img s =
      { s with
        tables := { s.tables with active := s.tables.active.set id (some img) },
        front := if id = tShading then { s.front with defective := defectiveOf img } else s.front,
        motS := if id = tSphase then { s.motS with phase := s.motS.phase % phaseCount img } else s.motS,
        motP := if id = tPphase then { s.motP with phase := s.motP.phase % phaseCount img } else s.motP } := by
  unfold setActive
  dsimp only
  by_cases h1 : id = tShading
  · subst h1; rfl
  · by_cases h2 : id = tSphase
    · subst h2; rfl
    · by_cases h3 : id = tPphase
      · subst h3; rfl
      · simp only [if_neg h1, if_neg h2, if_neg h3]

/-- What a pending copy at its boundary leaves alone. -/
theorem applyPending_frame (id : Fin 14) (s : State) :
    (applyPending id s).motS.state = s.motS.state ∧ (applyPending id s).motP.state = s.motP.state
      ∧ (applyPending id s).scanJob = s.scanJob ∧ (applyPending id s).prtJob = s.prtJob := by
  cases h : s.tables.pending[id] with
  | none => simp [applyPending_none h]
  | some img =>
    rw [applyPending_some h, setActive_eq]
    refine ⟨?_, ?_, rfl, rfl⟩
    · show (if _ then _ else _ : Motor).state = _
      split <;> rfl
    · show (if _ then _ else _ : Motor).state = _
      split <;> rfl

/-- Whether a table is in use is told by the channels' states and the jobs. -/
theorem tableInUse_congr {s t : State} (id : Fin 14) (hS : t.motS.state = s.motS.state) (hP : t.motP.state = s.motP.state)
    (hj : t.scanJob = s.scanJob) (hk : t.prtJob = s.prtJob) : tableInUse id t = tableInUse id s := by
  unfold tableInUse scanHoldsMotor printInCopy Motor.moving Motor.faulted
  rw [hS, hP, hj, hk]

theorem tableInUse_applyPending (id k : Fin 14) (s : State) : tableInUse id (applyPending k s) = tableInUse id s := by
  obtain ⟨hS, hP, hj, hk⟩ := applyPending_frame k s
  exact tableInUse_congr id hS hP hj hk

theorem raise_set (f : Fin 20) (p c r : Nat) (s : State) : ((raise f p c r s).events.flags[f]).set = true := by
  have h : (raise f p c r s).events.flags[f] = _ := post_flag s.events f _
  rw [h]
  unfold EventFlag.raised
  split
  · next k => exact k
  · rfl

/-- A table taken into use: its pending copy active, none pending, TABLE_APPLIED set. -/
theorem applyPending_own {id : Fin 14} {s : State} (h : s.tables.pending[id] ≠ none) :
    (applyPending id s).tables.active[id] = s.tables.pending[id] ∧ (applyPending id s).tables.pending[id] = none
      ∧ ((applyPending id s).events.flags[evTableApplied]).set = true := by
  obtain ⟨img, hi⟩ := Option.ne_none_iff_exists'.1 h
  refine ⟨?_, ?_, ?_⟩
  · rw [applyPending_some hi, setActive_eq, hi]
    simp [setPending]
  · rw [applyPending_some hi, setActive_eq]
    simp [setPending]
  · rw [applyPending_some hi]
    exact raise_set ..

theorem applyPending_other {id k : Fin 14} (hne : id ≠ k) (s : State) :
    (applyPending k s).tables.active[id] = s.tables.active[id] ∧ (applyPending k s).tables.pending[id] = s.tables.pending[id] := by
  have hv : k.val ≠ id.val := fun x => hne (Fin.ext x.symm)
  cases h : s.tables.pending[k] with
  | none => simp [applyPending_none h]
  | some img =>
    rw [applyPending_some h, setActive_eq]
    simp [setPending, Vector.getElem_set_ne _ _ hv]

/-- Once raised, TABLE_APPLIED stays through the tables that follow. -/
theorem applyPending_applied (k : Fin 14) {s : State} (h : (s.events.flags[evTableApplied]).set = true) :
    ((applyPending k s).events.flags[evTableApplied]).set = true := by
  cases hp : s.tables.pending[k] with
  | none => rw [applyPending_none hp]; exact h
  | some img => rw [applyPending_some hp]; exact raise_set ..

/-! ## The motor tables (R117) -/

/-- A motor table taken unless it is in use. -/
def applyUnused (s : State) (id : Fin 14) : State := if tableInUse id s then s else applyPending id s

theorem applyMotorTables_eq (s : State) : applyMotorTables s = [tSramp, tSphase, tPramp, tPphase].foldl applyUnused s := rfl

theorem tableInUse_applyUnused (id k : Fin 14) (s : State) : tableInUse id (applyUnused s k) = tableInUse id s := by
  unfold applyUnused
  split
  · rfl
  · exact tableInUse_applyPending id k s

theorem applyUnused_other {id k : Fin 14} (hne : id ≠ k) (s : State) :
    (applyUnused s k).tables.active[id] = s.tables.active[id] ∧ (applyUnused s k).tables.pending[id] = s.tables.pending[id] := by
  unfold applyUnused
  split
  · exact ⟨rfl, rfl⟩
  · exact applyPending_other hne s

theorem applyUnused_applied (k : Fin 14) {s : State} (h : (s.events.flags[evTableApplied]).set = true) :
    ((applyUnused s k).events.flags[evTableApplied]).set = true := by
  unfold applyUnused
  split
  · exact h
  · exact applyPending_applied k h

theorem applyUnused_fold_applied (l : List (Fin 14)) : ∀ {s : State}, (s.events.flags[evTableApplied]).set = true →
    ((l.foldl applyUnused s).events.flags[evTableApplied]).set = true := by
  induction l with
  | nil => exact id
  | cons k l ih => exact fun h => ih (applyUnused_applied k h)

theorem applyUnused_fold_other {id : Fin 14} (l : List (Fin 14)) : id ∉ l → ∀ s : State,
    (l.foldl applyUnused s).tables.active[id] = s.tables.active[id]
      ∧ (l.foldl applyUnused s).tables.pending[id] = s.tables.pending[id] := by
  induction l with
  | nil => exact fun _ _ => ⟨rfl, rfl⟩
  | cons k l ih =>
    intro h s
    rw [List.mem_cons, not_or] at h
    obtain ⟨ha, hp⟩ := ih h.2 (applyUnused s k)
    obtain ⟨ka, kp⟩ := applyUnused_other h.1 s
    exact ⟨ha.trans ka, hp.trans kp⟩

/-- A table of the list, out of use and with a pending copy, is taken into use. -/
theorem applyUnused_fold_takes {id : Fin 14} (l : List (Fin 14)) : l.Nodup → id ∈ l → ∀ s : State, tableInUse id s = false →
    s.tables.pending[id] ≠ none →
      (l.foldl applyUnused s).tables.active[id] = s.tables.pending[id] ∧ (l.foldl applyUnused s).tables.pending[id] = none
        ∧ ((l.foldl applyUnused s).events.flags[evTableApplied]).set = true := by
  induction l with
  | nil => exact fun _ h => absurd h List.not_mem_nil
  | cons k l ih =>
    intro hn hm s hu hp
    obtain ⟨hk, hn⟩ := List.nodup_cons.1 hn
    rcases List.mem_cons.1 hm with rfl | hm
    · have own : applyUnused s id = applyPending id s := by simp [applyUnused, hu]
      obtain ⟨ha, hq, hf⟩ := applyPending_own hp
      obtain ⟨ka, kq⟩ := applyUnused_fold_other l hk (applyUnused s id)
      rw [List.foldl_cons]
      refine ⟨?_, ?_, ?_⟩
      · rw [ka, own, ha]
      · rw [kq, own, hq]
      · exact applyUnused_fold_applied l (own ▸ hf)
    · have hne : id ≠ k := fun h => hk (h ▸ hm)
      obtain ⟨ka, kq⟩ := applyUnused_other hne s
      have := ih hn hm (applyUnused s k) ((tableInUse_applyUnused ..).trans hu) (by rw [kq]; exact hp)
      rw [kq] at this
      exact this

/-- A table in use keeps both copies, as one without a pending copy does. -/
theorem applyUnused_fold_keeps {id : Fin 14} (l : List (Fin 14)) : ∀ s : State,
    (tableInUse id s = true ∨ s.tables.pending[id] = none) →
      (l.foldl applyUnused s).tables.active[id] = s.tables.active[id]
        ∧ (l.foldl applyUnused s).tables.pending[id] = s.tables.pending[id] := by
  induction l with
  | nil => exact fun _ _ => ⟨rfl, rfl⟩
  | cons k l ih =>
    intro s h
    have one : (applyUnused s k).tables.active[id] = s.tables.active[id]
        ∧ (applyUnused s k).tables.pending[id] = s.tables.pending[id] := by
      by_cases hne : id = k
      · subst hne
        unfold applyUnused
        split
        · exact ⟨rfl, rfl⟩
        · next hu =>
          rw [applyPending_none (h.resolve_left hu)]
          exact ⟨rfl, rfl⟩
      · exact applyUnused_other hne s
    have := ih (applyUnused s k) (by rw [tableInUse_applyUnused, one.2]; exact h)
    exact ⟨this.1.trans one.1, this.2.trans one.2⟩

/-- The motor tables out of use take their pending copies; every other table keeps both (R117). -/
theorem applyMotorTables_copies (s : State) (id : Fin 14) :
    if id ∈ [tSramp, tSphase, tPramp, tPphase] ∧ tableInUse id s = false ∧ s.tables.pending[id] ≠ none then
      (applyMotorTables s).tables.active[id] = s.tables.pending[id] ∧ (applyMotorTables s).tables.pending[id] = none
        ∧ ((applyMotorTables s).events.flags[evTableApplied]).set = true
    else (applyMotorTables s).tables.active[id] = s.tables.active[id]
      ∧ (applyMotorTables s).tables.pending[id] = s.tables.pending[id] := by
  rw [applyMotorTables_eq]
  split
  · next h => exact applyUnused_fold_takes _ (by decide) h.1 s h.2.1 h.2.2
  · next h =>
    by_cases hm : id ∈ [tSramp, tSphase, tPramp, tPphase]
    · refine applyUnused_fold_keeps _ s ?_
      by_cases hu : tableInUse id s = true
      · exact .inl hu
      · exact .inr (by_contra fun hp => h ⟨hm, Bool.eq_false_iff.2 hu, hp⟩)
    · exact applyUnused_fold_other _ hm s

/-! ## What follows at once with no job -/

/-- No job, no pass and no wait. -/
structure Jobless (s : State) : Prop where
  scanJob   : s.scanJob = none
  intJob    : s.intJob = none
  prtJob    : s.prtJob = none
  outJob    : s.outJob = none
  printDec  : s.printDec = none
  outDec    : s.outDec = none
  scanTimer : s.scanCd.timer = none
  scanDir   : s.scanCd.dirWait = none
  intTimer  : s.intakeCd.timer = none
  intDir    : s.intakeCd.dirWait = none

/-- The arbiter touches the port of the DRAM and the spill that waits to begin, and nothing else. -/
theorem arbitrate_moves (s : State) : ∃ p e, arbitrate s = { s with pmc := p, spill := e } := by
  have ready : ∃ e, spillReady s = { s with spill := e } := by
    unfold spillReady
    split
    · split
      · exact ⟨_, rfl⟩
      · exact ⟨s.spill, rfl⟩
    · exact ⟨s.spill, rfl⟩
  obtain ⟨e, he⟩ := ready
  unfold arbitrate
  rw [he]
  dsimp only
  split
  · exact ⟨s.pmc, e, rfl⟩
  · split
    · exact ⟨_, e, rfl⟩
    · split
      · exact ⟨s.pmc, e, rfl⟩
      · exact ⟨_, e, rfl⟩

theorem updateIdle_moves (s : State) : ∃ t, updateIdle s = { s with power := { s.power with idleTimer := t } } := by
  unfold updateIdle
  split
  · split
    · exact ⟨s.power.idleTimer, rfl⟩
    · exact ⟨_, rfl⟩
  · exact ⟨_, rfl⟩

/-- With no job, what follows at once is the motor tables, the idle timer and the next grant. -/
theorem settle_jobless {s : State} (h : Jobless s) : settle s = arbitrate (updateIdle (applyMotorTables s)) := by
  have h1 : settleScanRestart s = s := by simp [settleScanRestart, h.scanJob]
  have h2 : settleScanEnd s = s := by simp [settleScanEnd, h.scanJob]
  have h3 : zeroWaits s = s := zeroWaits_free (.inr h.scanJob) h.scanDir (.inr (.inr h.intJob)) h.intDir
  have h4 : settleIntake s = s := by simp [settleIntake, h.intJob]
  have h5 : settlePass .print s = s := settlePass_none (c := .print) h.printDec
  have h6 : settlePass .output s = s := settlePass_none (c := .output) h.outDec
  have h7 : settlePrint s = s := settlePrint_none h.prtJob h.printDec
  have h8 : settleOutput s = s := by simp [settleOutput, h.outJob]
  have h9 : settleRoom s = s := settleRoom_free h.scanDir h.intDir
  have jobs : settleJobs s = s := by simp only [settleJobs, h1, h3, h4, h5, h6, h7, h8, h9]
  simp only [settle, jobs, h1, h2]

/-- Settles O14: one pending copy, the list of the motor tables, and the end of a motion with nothing else to follow. -/
theorem pendingTablesTakeEffect : Obligations.PendingTablesTakeEffect := by
  refine ⟨fun id s => ⟨applyPending_none, fun img h => ?_⟩, fun _ _ _ => rfl, applyMotorTables_copies, ?_⟩
  · refine ⟨_, applyPending_some h, ?_⟩
    rw [setActive_eq]
    refine ⟨rfl, rfl, ?_, rfl, rfl, rfl, rfl, rfl, rfl⟩
    show (if id = tShading then { s.front with defective := defectiveOf img } else s.front).defective = _
    rw [apply_ite ScanFront.defective]
  · intro lv s hsp h1 h2 h3 h4 h5 h6 h7 h8 h9 h10
    have ends : motionEnds .S (sense lv s) = restChannel .S (sense lv s) := by
      have : (motorOf .S (sense lv s)).spent = true := hsp
      unfold motionEnds
      rw [if_pos this]
    have jobless : Jobless (restChannel .S (sense lv s)) := ⟨h1, h2, h3, h4, h5, h6, h7, h8, h9, h10⟩
    have held : (restChannel .S (sense lv s)).motS.state = .hold := rfl
    refine ⟨_, rfl, ?_, fun id hid hp => ?_⟩
    · rw [ends]
      exact ((calm_settle _).motS.2 jobless.scanJob).trans held
    · have unused : tableInUse id (restChannel .S (sense lv s)) = false := by
        have : scanHoldsMotor (restChannel .S (sense lv s)) = false := by rw [scanHoldsMotor, jobless.scanJob]
        rw [List.mem_cons, List.mem_singleton] at hid
        rcases hid with rfl | rfl <;> simp [tableInUse, tSramp, tSphase, Motor.moving, Motor.faulted, held, this]
      have copies := applyMotorTables_copies (restChannel .S (sense lv s)) id
      rw [if_pos ⟨by rw [List.mem_cons, List.mem_singleton] at hid; rcases hid with rfl | rfl <;> decide, unused, hp⟩] at copies
      rw [ends, settle_jobless jobless]
      obtain ⟨i, hi⟩ := updateIdle_moves (applyMotorTables (restChannel .S (sense lv s)))
      obtain ⟨p, e, he⟩ := arbitrate_moves (updateIdle (applyMotorTables (restChannel .S (sense lv s))))
      rw [he, hi]
      exact copies

end Sys2Proof.Machine
end

section
/-! DOZE and SLEEP: orders held, wake events, the arbiter's next grant, RUN reached (R71 to R74, R171, R173). -/

set_option Elab.async false

namespace Sys2Proof.Machine

/-! ## DOZE -/

theorem rdy_noReturn {s : State} (h : rdy s = true) : s.power.returning = none := by
  unfold rdy at h
  simp only [Bool.and_eq_true, Option.isNone_iff_eq_none] at h
  obtain ⟨⟨⟨⟨⟨-, hn⟩, -⟩, -⟩, -⟩, -⟩ := h
  exact hn

/-- A return begins where none is under way. -/
theorem beginReturn_none {r : Nat} {s : State} (h : s.power.returning = none) :
    beginReturn r s = { s with power := { s.power with returning := some r } } := by
  simp [beginReturn, h, mapPower]

/-- An order that needs RUN, complete in DOZE, is held and starts the return (R3). -/
theorem writeOrder_held {code : Byte} {p : List Byte} {s : State} (hr : rdy s = true) (hi : s.port.inbound = .receiving [])
    (hd : s.power.state = .doze) (hh : headerCheck kOrder code p.length = none)
    (hn : needsRun { kind := kOrder, sub := code, payload := p } = true) :
    writeOrder code p s =
      { s with port := { s.port with inbound := .held { kind := kOrder, sub := code, payload := p } },
               power := { s.power with returning := some 0 } } := by
  unfold writeOrder
  rw [writeRecord_complete hr hi hh, completeRecord, if_pos ⟨hn, hd⟩]
  have ret := rdy_noReturn hr
  exact beginReturn_none ret

/-- A wake line rising in DOZE with no entry under way: a return, where its bit is in the mask and none is under way. -/
theorem wakeRise_doze {bit r : Nat} {mark : Risen → Risen} {s : State} (hd : s.power.state = .doze)
    (he : s.power.entry = none) (l : Lines) :
    wakeRise bit r mark { s with lines := l } =
      if s.power.mask.getLsbD bit && s.power.returning.isNone then
        { s with lines := l, power := { s.power with returning := some r } } else { s with lines := l } := by
  unfold wakeRise wakeEvent
  dsimp only
  rw [he, hd]
  cases hr : s.power.returning <;> simp [beginReturn, hr, mapPower, hd, he]

theorem docIn_awake {s : State} (hd : s.power.state = .doze) :
    docIn s = if s.scanJob = none ∧ s.boot.state ≠ .reset then raise evDocIn 0 0 0 s else s := by
  unfold docIn coreRuns
  simp [hd, and_comm]

/-! ## The arbiter -/

theorem spillReady_noAwait {u : State} (h : ∀ why, u.spill ≠ .await why) : spillReady u = u := by
  unfold spillReady
  split
  · next why hw => exact absurd hw (h why)
  · rfl

theorem arbitrate_rests {u : State} (h : ∀ why, u.spill ≠ .await why) (hp : u.pmc.srPending = none)
    (hb : nextBurst u = none) : arbitrate u = u := by
  simp [arbitrate, spillReady_noAwait h, hp, hb]

/-- Settles O18: each order held, each wake event, and the arbiter by what it finds at the port. -/
theorem dozeHoldsOrdersAndWakes : Obligations.DozeHoldsOrdersAndWakes := by
  refine ⟨fun a b c d e f g n lv s ho hd => ?_, fun s hd he => ?_, fun u hu => ⟨fun h => ?_, fun hg hs hp => ⟨?_, fun b hb => ?_⟩⟩⟩
  · obtain ⟨hr, hi, -⟩ := ho
    refine ⟨?_, ?_, ?_, ?_⟩
    · exact congrArg Host.Outcome.next (writeOrder_held hr hi hd rfl rfl)
    · exact congrArg Host.Outcome.next (writeOrder_held (s := sense lv s) hr hi hd rfl rfl)
    · exact congrArg Host.Outcome.next (writeOrder_held (s := sense lv s) hr hi hd rfl rfl)
    · exact congrArg Host.Outcome.next (writeOrder_held hr hi hd rfl rfl)
  · refine ⟨fun h => ?_, fun h => ?_, fun h => ?_, fun n h => ?_⟩
    · show Host.Outcome.next (arbitrate (ringRises s)) = _
      rw [ringRises, if_neg (by simp [h]), wakeRise_doze hd he]
    · show Host.Outcome.next (arbitrate (keyRises s)) = _
      rw [keyRises, if_neg (by simp [h]), wakeRise_doze hd he]
    · show Host.Outcome.next (arbitrate (docpRises s)) = _
      rw [docpRises, if_neg (by simp [h]), wakeRise_doze hd he, docIn_awake (by split <;> exact hd)]
      dsimp only
      split <;> rfl
    · show Host.Outcome.next (arbitrate (wakeTimerExpires s)) = _
      have doze : (mapPower (fun p => { p with wakeTimer := none }) s).power.state = .doze := hd
      rw [wakeTimerExpires, if_pos (by simp [h]), wakeEvent, doze]
      cases hr : s.power.returning <;> simp [beginReturn, hr, mapPower]
  · rw [arbitrate_busy h, spillReady_noAwait hu]
  · exact arbitrate_rests hu hp
  · rw [arbitrate_grants (spillReady_noAwait hu) hg hs hp hb]
    rfl

/-! ## SLEEP (R173) -/

/-- The part woken from SLEEP (R173): out of self-refresh, the return begun, the channels at the motor shadow. -/
def wokenFromSleep (r : Nat) (due : Bool) (grant : Option Grant) (s : State) : State :=
  { s with
    pmc := { s.pmc with selfRefresh := false, refreshDue := due, grant := grant },
    power := { s.power with wakeTimer := none, returning := some r },
    motS := { s.motS with phase := s.power.shadow.sPhase, pos := s.power.shadow.sPos },
    motP := { s.motP with phase := s.power.shadow.pPhase, pos := s.power.shadow.pPos } }

/-- A state in SLEEP with nothing begun: no return, no cover latched, no spill, the port free and no self-refresh asked. -/
structure Asleep (s : State) : Prop where
  state   : s.power.state = .sleep
  entry   : s.power.entry = none
  ret     : s.power.returning = none
  latch   : s.power.coverLatch = false
  spill   : s.spill = .idle
  grant   : s.pmc.grant = none
  refresh : s.pmc.srPending = none

section Sleep

variable {s : State} (h : Asleep s)
include h

/-- The core restarts with the refresh cycle of the wake still due. -/
theorem sleepWake_asleep (r : Nat) : sleepWake r s = wokenFromSleep r true none s := by
  have unlatched : leaveSleep s = readShadow s.power.shadow
      (mapPmc (fun p => { p with selfRefresh := false, refreshDue := true }) (mapPower (fun p => { p with wakeTimer := none }) s)) := by
    unfold leaveSleep takeLatch
    rw [if_neg (by simp [h.latch])]
  unfold sleepWake
  rw [if_neg (by simp [h.ret]), unlatched]
  refine (beginReturn_none ?_).trans ?_
  · exact h.ret
  · rw [wokenFromSleep, ← h.grant]
    rfl

/-- The refresh cycle takes the port at once, whatever flag the wake raises (R74). -/
theorem arbitrate_woken (r : Nat) (ev : Events) :
    arbitrate { wokenFromSleep r true none s with events := ev } =
      { wokenFromSleep r false (some { burst := .refresh, live := true }) s with events := ev } := by
  have idle : { wokenFromSleep r true none s with events := ev }.spill = .idle := h.spill
  have asked : { wokenFromSleep r true none s with events := ev }.pmc.srPending = none := h.refresh
  have next : nextBurst { wokenFromSleep r true none s with events := ev } = some .refresh := by
    simp [nextBurst, wokenFromSleep]
  rw [arbitrate_grants (spillReady_idle idle) rfl rfl asked next]
  rfl

theorem asleep_lines (l : Lines) : Asleep { s with lines := l } := ⟨h.state, h.entry, h.ret, h.latch, h.spill, h.grant, h.refresh⟩

theorem wakeRise_asleep {bit r : Nat} {mark : Risen → Risen} (hm : s.power.mask.getLsbD bit = true) (l : Lines) :
    wakeRise bit r mark { s with lines := l } = wokenFromSleep r true none { s with lines := l } := by
  unfold wakeRise wakeEvent
  dsimp only
  rw [h.entry, h.state]
  exact (if_pos hm).trans (sleepWake_asleep (asleep_lines h l) r)

/-- The woken part sees the document arrive; no SCAN job exists, so DOC_IN is raised (R134). -/
theorem docIn_woken (hb : s.boot.state ≠ .reset) (l : Lines) :
    docIn (wokenFromSleep 3 true none { s with lines := l }) =
      if s.scanJob.isNone then raise evDocIn 0 0 0 (wokenFromSleep 3 true none { s with lines := l })
      else wokenFromSleep 3 true none { s with lines := l } := by
  have runs : coreRuns (wokenFromSleep 3 true none { s with lines := l }) = true := by
    simp [coreRuns, wokenFromSleep, h.state, hb]
  rw [docIn, runs, Bool.true_and]
  rfl

end Sleep

/-- RUN reached (R171, R173). -/
theorem runReached_eq {s : State} {r : Nat} (h : s.power.returning = some r) :
    runReached s =
      let t : State :=
        { s with
          power := { s.power with state := .run, returning := none, wakeTimer := none },
          motS := { s.motS with phase := s.power.shadow.sPhase, pos := s.power.shadow.sPos },
          motP := { s.motP with phase := s.power.shadow.pPhase, pos := s.power.shadow.pPos } }
      if r = 0 then t else raise evWake 0 0 r t := by
  unfold runReached
  rw [h]
  rfl

theorem dispatchHeld_none {u : State} (h : ∀ r, u.port.inbound ≠ .held r) : dispatchHeld u = u := by
  unfold dispatchHeld
  split
  · next r hr => exact absurd hr (h r)
  · rfl
  · rfl

/-- In RUN the order held is complete and dispatched. -/
theorem dispatchHeld_run {u : State} {r : Record} (h : u.port.inbound = .held r) (hp : u.power.state = .run) :
    dispatchHeld u = completeRecord r (setInbound (.receiving []) u) := by
  have run : (setInbound (.receiving []) u).power.state ≠ .doze := by simp [setInbound, hp]
  rw [completeRecord_dispatch fun _ => run]
  unfold dispatchHeld
  rw [h]
  rfl

/-- Settles O55: the wake event restarts the core and the refresh takes the port; RUN reached dispatches what was held. -/
theorem sleepWakesAndRunIsReached : Obligations.SleepWakesAndRunIsReached := by
  constructor
  · intro d together lv s hst he hr hl hsp hg hsr
    have asleep : Asleep s := ⟨hst, he, hr, hl, hsp, hg, hsr⟩
    have granted (l : Lines) (r : Nat) := arbitrate_woken (asleep_lines asleep l) r s.events
    refine ⟨?_, fun h hm => ?_, fun h hm => ?_, fun h hm hb => ?_, fun ht => ?_⟩
    · show Host.Outcome.next (strobe together d (sense lv s)) = _
      have state : (sense lv s).power.state = .sleep := hst
      have sensed : Asleep (sense lv s) := asleep_lines asleep _
      rw [strobe, if_pos state, sleepWake_asleep sensed]
      exact congrArg Host.Outcome.next (granted _ 5)
    · show Host.Outcome.next (arbitrate (ringRises s)) = _
      rw [ringRises, if_neg (by simp [h]), wakeRise_asleep asleep hm]
      exact congrArg Host.Outcome.next (granted _ 1)
    · show Host.Outcome.next (arbitrate (keyRises s)) = _
      rw [keyRises, if_neg (by simp [h]), wakeRise_asleep asleep hm]
      exact congrArg Host.Outcome.next (granted _ 2)
    · show Host.Outcome.next (arbitrate (docpRises s)) = _
      rw [docpRises, if_neg (by simp [h]), wakeRise_asleep asleep hm, docIn_woken asleep hb]
      by_cases job : s.scanJob.isNone = true
      · rw [if_pos job, if_pos job]
        exact congrArg Host.Outcome.next (arbitrate_woken (asleep_lines asleep _) 3 _)
      · rw [if_neg job, if_neg job]
        exact congrArg Host.Outcome.next (granted _ 3)
    · show Host.Outcome.next (arbitrate (wakeTimerExpires s)) = _
      have state : (mapPower (fun p => { p with wakeTimer := none }) s).power.state = .sleep := hst
      have untimed : Asleep (mapPower (fun p => { p with wakeTimer := none }) s) := ⟨hst, he, hr, hl, hsp, hg, hsr⟩
      rw [wakeTimerExpires, if_pos ht, wakeEvent, state]
      exact congrArg Host.Outcome.next ((congrArg arbitrate (sleepWake_asleep untimed 4)).trans (arbitrate_woken untimed 4 s.events))
  · intro lv s r hr
    have back : exec (.runReached lv) s = .next (settle (dispatchHeld (runReached (sense lv s)))) := by
      show Host.Outcome.next _ = _
      rw [if_pos (by simp [hr])]
    have reached := runReached_eq (s := sense lv s) hr
    refine ⟨fun hn => ?_, fun held hh => ?_⟩
    · rw [back, reached, dispatchHeld_none]
      · rfl
      · dsimp only
        split <;> exact hn
    · rw [back, reached, dispatchHeld_run (r := held)]
      · rfl
      · dsimp only
        split <;> exact hh
      · dsimp only
        split <;> rfl

end Sys2Proof.Machine
end

section
/-! READY by order and by serial ROM (R18, R67, R174, R180, R181). -/

set_option Elab.async false

namespace Sys2Proof.Machine

/-! ## READY (R181) -/

/-- The READY order is taken in PORTLOAD and in READY (R3, R181). -/
theorem exec_ready {s : State} (hr : rdy s = true) (hi : s.port.inbound = .receiving [])
    (hb : s.boot.state = .portload ∨ s.boot.state = .ready) :
    exec .ready s = .next (replied 0x0D (orderReady s).2 (orderReady s).1) := by
  show Host.Outcome.next (writeOrder 0x0D [] s) = _
  rcases hb with hb | hb
  · unfold writeOrder
    rw [writeRecord_complete hr hi rfl, completeRecord_dispatch fun h => absurd h (by decide)]
    unfold dispatch
    rw [clearInbound_self hi]
    simp [act, hb, portloadTakes, kOrder, kLine, kLoad, kQuery, kEvack, kDiag, answer, replied, actOrder]
  · rw [writeOrder_ready hr hi hb rfl fun h => absurd h (by decide)]
    rfl

/-- READY reached with no wake source kept: BOOT alone. -/
theorem reachReady_bare {r : Nat} {s : State} (h : s.power.keptSource = none) :
    reachReady r (startBuild s) =
      raise evBoot 0 0 r { startBuild s with boot := { s.boot with state := .ready, romPos := 0, romSum := 0 } } := by
  unfold reachReady
  dsimp only
  split
  · rfl
  · next k hk => exact absurd (h.symm.trans hk) nofun

/-- READY reached with the wake section's source: WAKE after BOOT, and the source kept no longer (R174). -/
theorem reachReady_woken {r k : Nat} {s : State} (h : s.power.keptSource = some k) :
    reachReady r (startBuild s) =
      let u := raise evBoot 0 0 r { startBuild s with boot := { s.boot with state := .ready, romPos := 0, romSum := 0 } }
      raise evWake 0 0 k { u with power := { u.power with keptSource := none } } := by
  unfold reachReady
  dsimp only
  split
  · next hn => exact absurd (hn.symm.trans h) nofun
  · next j hj =>
    obtain rfl : k = j := Option.some.inj (h.symm.trans hj)
    rfl

/-! ## The serial ROM's records (R18, R180) -/

section Rom

variable {s : State} (hb : s.boot.state = .romload) (hp : s.power.pfail = .inactive)
include hb hp

theorem exec_romRecord {kind sub : Byte} {len : BitVec 16} {payload : List Byte} {t : State}
    (h : romRecord kind sub len.toNat payload s = t) : exec (.romRecord kind sub len payload) s = .next (settle t) := by
  show Host.Outcome.next _ = _
  rw [if_pos ⟨hb, hp⟩, h]

end Rom

theorem romPayload_whole {len : Nat} {payload : List Byte} (h : payload.length = len) : romPayload len payload = payload := by
  simp [romPayload, ← h]

section RomRecord

variable {kind sub : Byte} {len : Nat} {payload : List Byte} {s : State}

theorem romRecord_beyond (h : 65536 < s.boot.romPos + 4 + len) : romRecord kind sub len payload s = romBad s := if_pos h

theorem romRecord_end (h : s.boot.romPos + 4 + len ≤ 65536) (hl : payload.length = len) :
    romRecord kEnd sub len payload s = romEnd sub len payload s := by
  unfold romRecord
  dsimp only
  rw [if_neg (show ¬ Config.romLimit < _ from Nat.not_lt.2 h), if_pos rfl, romPayload_whole hl]

theorem romEnd_bad (h : sub ≠ 0 ∨ len ≠ 2 ∨ beNat payload ≠ s.boot.romSum ∨ s.tables.active[tSettings] = none) :
    romEnd sub len payload s = romBad s := by
  refine if_neg ?_
  rintro ⟨hs, hl, hsum, ht⟩
  rcases h with h | h | h | h
  · exact h hs
  · exact h hl
  · exact h hsum
  · simp [activeOf, h] at ht

/-- Neither END nor a LOAD whose header passes. -/
theorem romRecord_strange (hk : kind ≠ kEnd) (h : kind ≠ kLoad ∨ headerCheck kind sub len ≠ none) :
    romRecord kind sub len payload s = romBad s := by
  unfold romRecord
  dsimp only
  rw [if_neg hk, if_pos h, ite_self]

end RomRecord

theorem load_header_fails {sub : Byte} {len : Nat} (h : 14 ≤ sub.toNat ∨ len < 2 ∨ 2048 < len) :
    headerCheck kLoad sub len ≠ none := by
  by_cases hs : sub.toNat ≤ 13
  · have range : lengthRange? kLoad sub = some (2, 2048) := by simp [lengthRange?, kLoad, kLine, hs]
    rw [headerCheck, range]
    dsimp only
    rw [if_neg (by omega)]
    nofun
  · have range : lengthRange? kLoad sub = none := by simp [lengthRange?, kLoad, kLine, hs]
    rw [headerCheck, range]
    nofun

theorem load_header_passes {sub : Byte} {len : Nat} (hs : sub.toNat ≤ 13) (h : 2 ≤ len ∧ len ≤ 2048) :
    headerCheck kLoad sub len = none := by
  have range : lengthRange? kLoad sub = some (2, 2048) := by simp [lengthRange?, kLoad, kLine, hs]
  rw [headerCheck, range]
  exact if_pos h

/-- Is a LOAD of the ROM good: answered OK or CLAMPED (R18)? -/
def Status.good : Status → Bool
  | .ok | .clamped => true
  | _ => false

/-- The read position and the running sum gone on past a ROM record. -/
def romPast (pos sum : Nat) (s : State) : State :=
  mapBoot (fun b => { b with romPos := pos, romSum := (b.romSum + sum) % 65536 }) s

section Load

variable {id : Fin 14} {seg fin : Byte} {bytes a : List Byte} {s t : State} {st : Status}

theorem romLoad_eq (h : loadSegment id seg.toNat fin.toNat bytes s = (t, .filled st a)) :
    romLoad (BitVec.ofNat 8 id.val) (seg :: fin :: bytes) s = (t, st.good) := by
  have hid := byte_ofNat_fin id
  have same : (⟨(BitVec.ofNat 8 id.val : Byte).toNat, by omega⟩ : Fin 14) = id := Fin.ext hid
  have segment : loadSegment id (byteAt (seg :: fin :: bytes) 0) (byteAt (seg :: fin :: bytes) 1)
      ((seg :: fin :: bytes).drop 2) s = (t, .filled st a) := h
  rw [romLoad, dif_pos (by omega), same]
  dsimp only
  rw [segment]
  cases st <;> rfl

/-- A LOAD within the 65536 bytes: good, it is passed; else, or at the very end, the image is invalid. -/
theorem romRecord_load (hl : bytes.length ≤ 2046) (hpos : s.boot.romPos + 4 + (2 + bytes.length) ≤ 65536)
    (h : loadSegment id seg.toNat fin.toNat bytes s = (t, .filled st a)) :
    romRecord kLoad (BitVec.ofNat 8 id.val) (2 + bytes.length) (seg :: fin :: bytes) s =
      if st.good = false ∨ s.boot.romPos + 4 + (2 + bytes.length) = 65536 then romBad t
      else romPast (s.boot.romPos + 4 + (2 + bytes.length))
        (([kLoad, BitVec.ofNat 8 id.val] ++ be16 (2 + bytes.length) ++ seg :: fin :: bytes).map BitVec.toNat).sum t := by
  have hid := byte_ofNat_fin id
  have passes : ¬ ((kLoad ≠ kLoad) ∨ headerCheck kLoad (BitVec.ofNat 8 id.val) (2 + bytes.length) ≠ none) := by
    rw [load_header_passes (by omega) ⟨by omega, by omega⟩]
    simp
  unfold romRecord
  dsimp only
  rw [if_neg (show ¬ Config.romLimit < _ from Nat.not_lt.2 hpos), if_neg (by decide), if_neg passes,
    romPayload_whole (by simp; omega), romLoad_eq h]
  cases st.good <;> simp [Config.romLimit, romPast, byteSum]

end Load

/-- The image found invalid after work that left the boot state alone. -/
theorem romBad_eq {s t : State} (h : t.boot = s.boot) :
    romBad t = raise evBoot 0 0 3 { t with boot := { s.boot with state := .portload, romPos := 0, romSum := 0 } } := by
  rw [← h]
  rfl

/-- A record passed after work that left the boot state alone. -/
theorem romPast_eq {s t : State} (h : t.boot = s.boot) (pos sum : Nat) :
    romPast pos sum t = { t with boot := { s.boot with romPos := pos, romSum := (s.boot.romSum + sum) % 65536 } } := by
  rw [← h]
  rfl

theorem setActive_boot (id : Fin 14) (img : List Byte) (s : State) : (setActive id img s).boot = s.boot := by
  rw [setActive_eq]

/-- A table other than SETTINGS installed (R13, R14). -/
theorem completeImage_other {id : Fin 14} {img : List Byte} {t : State} (hl : tableLengthOk id img = true)
    (he : tableEnumsOk id img = true) (hn : id ≠ tSettings) (hc : id = tShading → t.front.cal = none) :
    ∃ st a, completeImage id img t =
        (if tableInUse id t then setPending id (some (clampTable id img).image) t
          else replaceActive id (clampTable id img).image t, .filled st a) ∧ st.good = true := by
  rw [completeImage_installs hl he (installRefusal_other hn hc), installImage_other _ _ hn]
  refine ⟨_, _, Prod.ext ?_ rfl, ?_⟩
  · split <;> rfl
  · split <;> rfl

/-- SETTINGS installed while the ROM is read: nothing of its memory size matters yet (R15). -/
theorem completeImage_settings {img : List Byte} {s : State} (hl : tableLengthOk tSettings img = true)
    (he : tableEnumsOk tSettings img = true) (hn : ¬ settingsBusy s) (hr : s.boot.state ≠ .ready) :
    ∃ st a, completeImage tSettings img (setAssembly none s) =
        (settingsTaken (clampTable tSettings img).image s, .filled st a) ∧ st.good = true := by
  have free : installRefusal tSettings img (setAssembly none s) = none := by
    rw [installRefusal_idle (t := setAssembly none s) hn]
    exact if_neg fun h => hr h.1
  have installed : installSettings (clampTable tSettings img).image (setAssembly none s) =
      settingsTaken (clampTable tSettings img).image s := by
    rw [installSettings_eq, if_neg fun h => hr h.1]
  refine ⟨_, _, (completeImage_installs hl he free).trans (Prod.ext installed rfl), ?_⟩
  split <;> rfl

/-- Settles O53: the READY order, the records of the serial ROM by kind, and the ROM's lines. -/
theorem readyIsReached : Obligations.ReadyIsReached := by
  refine ⟨?_, fun s => ?_⟩
  · intro s reached bad
    have reach (r : Nat) : reachReady r (startBuild s) = reached r := by
      cases hk : s.power.keptSource with
      | none =>
        refine (reachReady_bare hk).trans ?_
        simp only [reached, hk]
      | some k =>
        refine (reachReady_woken hk).trans ?_
        simp only [reached, hk]
    refine ⟨fun hr hi => ⟨fun hb ht => ?_, fun hb ht => ?_, fun hb => ?_⟩, fun hb hp => ⟨?_, ?_, ?_, ?_, ?_⟩⟩
    · rw [exec_ready hr hi (.inl hb), orderReady, if_pos hb, if_neg (by simpa [activeOf] using ht), reach]
    · rw [exec_ready hr hi (.inl hb), orderReady, if_pos hb, if_pos (by simpa [activeOf] using ht)]
    · rw [exec_ready hr hi (.inr hb), orderReady, if_neg (by simp [hb])]
    · intro hi lo ht hpos hsum
      refine exec_romRecord hb hp ((romRecord_end (len := 2) (payload := [hi, lo]) hpos rfl).trans ?_)
      rw [romEnd, if_pos, reach]
      exact ⟨rfl, rfl, by simpa [beNat] using hsum, Option.isSome_iff_ne_none.2 ht⟩
    · intro sub len payload hl h
      refine exec_romRecord hb hp ?_
      rcases Nat.lt_or_ge 65536 (s.boot.romPos + 4 + len.toNat) with hpos | hpos
      · exact romRecord_beyond hpos
      · refine (romRecord_end hpos hl).trans (romEnd_bad (h.imp_right (Or.imp_left fun h k => h ?_)))
        exact BitVec.eq_of_toNat_eq k
    · intro sub len payload h
      exact exec_romRecord hb hp (romRecord_strange (by decide) (.inr (load_header_fails h)))
    · intro kind sub len payload hk hn
      exact exec_romRecord hb hp (romRecord_strange hk (.inl hn))
    · intro id seg fin bytes hl tid n pos record continues invalid taken
      have len : (BitVec.ofNat 16 n).toNat = n := by
        rw [BitVec.toNat_ofNat]
        omega
      have record_eq {t : State} (h : romRecord kLoad tid n (seg :: fin :: bytes) s = t) : exec record s = .next (settle t) :=
        exec_romRecord hb hp (by rw [len]; exact h)
      refine ⟨fun hpos => record_eq (romRecord_beyond hpos), fun hpos => ?_⟩
      have refused {t : State} {st : Status} {a : List Byte} (boot : t.boot = s.boot) (hg : st.good = false)
          (h : loadSegment id seg.toNat fin.toNat bytes s = (t, .filled st a)) : invalid t := by
        refine record_eq ((romRecord_load hl hpos h).trans ?_)
        rw [if_pos (.inl hg), romBad_eq boot]
      have passed {t : State} {st : Status} {a : List Byte} (boot : t.boot = s.boot) (hg : st.good = true)
          (h : loadSegment id seg.toNat fin.toNat bytes s = (t, .filled st a)) : taken t := by
        have load := romRecord_load hl hpos h
        by_cases he : pos = 65536
        · rw [if_pos (.inr he), romBad_eq boot] at load
          exact (if_pos he).mpr (record_eq load)
        · rw [if_neg (not_or.2 ⟨by simp [hg], he⟩), romPast_eq boot] at load
          exact (if_neg he).mpr (record_eq load)
      refine ⟨fun hf => refused rfl rfl (loadSegment_badFlag hf),
        fun hf hs hn => refused rfl rfl (loadSegment_strays hf hs hn), fun img gathers => ?_⟩
      intro t
      refine ⟨?_, ?_, ?_⟩
      · intro hlong hf
        exact refused rfl rfl ((loadSegment_gathers hf gathers).trans (gather_long _ _ hlong))
      · rintro hshort rfl
        exact passed rfl rfl ((loadSegment_gathers (by decide) gathers).trans (gather_more _ hshort))
      · rintro hshort rfl
        have whole := (loadSegment_gathers (fin := (1 : Byte).toNat) (by decide) gathers).trans (gather_final (seg.toNat + 1) hshort)
        refine ⟨?_, fun h k => ⟨?_, ?_, ?_, ?_⟩⟩
        · rintro (h | h)
          · exact refused rfl rfl (whole.trans (completeImage_length h))
          · cases hk : tableLengthOk id img with
            | false => exact refused rfl rfl (whole.trans (completeImage_length hk))
            | true => exact refused rfl rfl (whole.trans (completeImage_enums hk h))
        · rintro rfl hc
          exact refused rfl rfl (whole.trans (completeImage_refused h k (installRefusal_shading hc)))
        · rintro rfl hbusy
          exact refused rfl rfl (whole.trans (completeImage_refused h k (installRefusal_busy hbusy)))
        · rintro rfl h1 h2 h3 h4 h5 h6 h7
          have reading : s.boot.state ≠ .ready := by simp [hb]
          obtain ⟨st, a, done, hg⟩ := completeImage_settings h k (not_settingsBusy h1 h2 h3 h4 h5 h6 h7) reading
          exact passed rfl hg (whole.trans done)
        · intro hn hc
          obtain ⟨st, a, done, hg⟩ := completeImage_other (t := t) h k hn hc
          refine passed ?_ hg (whole.trans done)
          split
          · rfl
          · exact setActive_boot _ _ _
  · refine ⟨?_, ?_, rfl⟩
    · simp [romcs]
    · simp [romck]

end Sys2Proof.Machine
end

section
/-! Pages discarded and readers leaving while no coder context waits: entries, free count and events (R70, R86, R90). -/

set_option Elab.async false

namespace Sys2Proof.Machine

/-! ## Flags raised on the way -/

/-- Events that go on with flags raised: every mask stands, the queue grows at its tail, and no flag but TABLE_APPLIED and
PARITY differs. -/
structure Tells (e e' : Events) : Prop where
  masks : ∀ f : Fin 20, (e'.flags[f]).masked = (e.flags[f]).masked
  flags : ∀ f : Fin 20, f ≠ evTableApplied → f ≠ evParity → e'.flags[f] = e.flags[f]
  queue : e.queue <+: e'.queue

theorem Tells.refl (e : Events) : Tells e e := ⟨fun _ => rfl, fun _ _ _ => rfl, List.prefix_rfl⟩

theorem Tells.trans {a b c : Events} (h : Tells a b) (k : Tells b c) : Tells a c :=
  ⟨fun f => (k.masks f).trans (h.masks f), fun f ht hp => (k.flags f ht hp).trans (h.flags f ht hp), h.queue.trans k.queue⟩

theorem raised_masked (g : EventFlag) (p c r : Nat) : (g.raised p c r).masked = g.masked := by
  unfold EventFlag.raised
  split <;> rfl

theorem tells_raise {f : Fin 20} (hf : f = evTableApplied ∨ f = evParity) (e : Events) (p c r : Nat) :
    Tells e (e.raise f p c r) := by
  have own := post_flag e f ((e.flags[f]).raised p c r)
  have other (k : Fin 20) (h : k ≠ f) : (e.raise f p c r).flags[k] = e.flags[k] := post_other e _ h
  refine ⟨fun k => ?_, fun k ht hp => ?_, ?_⟩
  · by_cases h : k = f
    · subst h
      exact (congrArg EventFlag.masked own).trans (raised_masked ..)
    · rw [other k h]
  · refine other k ?_
    rintro rfl
    exact hf.elim ht hp
  · unfold Events.raise
    rw [post_queue]
    exact List.prefix_append _ _

/-! ## What such work may change -/

def blocksOf (es : List Entry) : Nat := (es.map Entry.blockCount).sum

/-- Work on pages while no context waits: entries leave or lose readers, contexts stop, blocks come free, and PARITY may be
raised; the blocks free and held stay as many as they were. -/
structure Prunes (s t : State) : Prop where
  frame  : t = { s with dir := { s.dir with entries := t.dir.entries }, pmc := t.pmc, events := t.events,
                        scanCd := t.scanCd, intakeCd := t.intakeCd }
  quiet  : t.noAsk
  waits  : t.scanCd.dirWait = s.scanCd.dirWait ∧ t.intakeCd.dirWait = s.intakeCd.dirWait
  tells  : Tells s.events t.events
  ids    : (t.dir.entries.map Entry.id).Sublist (s.dir.entries.map Entry.id)
  states : ∀ e ∈ t.dir.entries, ∃ e' ∈ s.dir.entries, e.state = e'.state
  blocks : (s.dir.entries.map Entry.id).Nodup →
    t.pmc.count + blocksOf t.dir.entries = s.pmc.count + blocksOf s.dir.entries

theorem Prunes.refl {s : State} (h : s.noAsk) : Prunes s s :=
  ⟨rfl, h, ⟨rfl, rfl⟩, .refl _, .refl _, fun e he => ⟨e, he, rfl⟩, fun _ => rfl⟩

theorem Prunes.trans {s t u : State} (h : Prunes s t) (k : Prunes t u) : Prunes s u := by
  refine ⟨?_, k.quiet, ⟨k.waits.1.trans h.waits.1, k.waits.2.trans h.waits.2⟩, h.tells.trans k.tells, k.ids.trans h.ids,
    fun e he => ?_, fun hn => (k.blocks (h.ids.nodup hn)).trans (h.blocks hn)⟩
  · rw [k.frame, h.frame]
  · obtain ⟨e', he', hs⟩ := k.states e he
    obtain ⟨e'', he'', hs'⟩ := h.states e' he'
    exact ⟨e'', he'', hs.trans hs'⟩

theorem prunes_fold {f : State → Nat → State} (hf : ∀ s i, s.noAsk → Prunes s (f s i)) (is : List Nat) :
    ∀ s : State, s.noAsk → Prunes s (is.foldl f s) := by
  induction is with
  | nil => exact fun _ h => .refl h
  | cons i is ih => exact fun s h => (hf s i h).trans (ih _ (hf s i h).quiet)

/-! ## Blocks freed, an entry dropped -/

/-- A chain freed with no context waiting joins the free list; its head may fail its parity (R63, R70). -/
theorem freeChain_joins (a b k : Nat) (c : Option Nat) {s : State} (h : s.noAsk) :
    ∃ p e, freeChain a b k c s = { s with pmc := p, events := e } ∧ p.count = s.pmc.count + k ∧ Tells s.events e := by
  unfold freeChain
  split
  · next hk => exact ⟨s.pmc, s.events, rfl, by omega, .refl _⟩
  · have checked : ∃ e, (if s.pmc.count = 0 ∧ k ≠ 1 then checkLink a s else s) = { s with events := e } ∧ Tells s.events e := by
      split
      · unfold checkLink
        split
        · exact ⟨s.events, rfl, .refl _⟩
        · exact ⟨_, rfl, tells_raise (.inr rfl) ..⟩
      · exact ⟨s.events, rfl, .refl _⟩
    obtain ⟨e, he, ht⟩ := checked
    dsimp only
    rw [he, serveWaiters_unasked (by exact h)]
    exact ⟨_, e, rfl, join_count .., ht⟩

/-- One entry's blocks apart from those of the rest. -/
theorem blocksOf_without {es : List Entry} (hn : (es.map Entry.id).Nodup) {e : Entry} (he : e ∈ es) :
    blocksOf es = blocksOf (es.filter fun x => x.id ≠ e.id) + e.blockCount := by
  have split := blockSum_split hn he
  rw [blockSum_none] at split
  have same : (es.filter fun x => some e.id ≠ some x.id) = es.filter fun x => x.id ≠ e.id :=
    List.filter_congr fun x _ => by simp [eq_comm]
  rw [blockSum, same] at split
  exact split

theorem dropEntry_entries (e : Entry) (c : Option Nat) {s : State} (h : s.noAsk) :
    (dropEntry e c s).dir.entries = s.dir.entries.filter fun x => x.id ≠ e.id := by
  obtain ⟨p, ev, hf, -, -⟩ := freeChain_joins e.first e.last e.blockCount c h
  unfold dropEntry
  rw [hf]
  rfl

/-- An entry dropped, of which the directory holds one with that id and as many blocks. -/
theorem prunes_dropEntry {e e' : Entry} (c : Option Nat) {s : State} (h : s.noAsk) (he : e' ∈ s.dir.entries)
    (hi : e'.id = e.id) (hb : e'.blockCount = e.blockCount) : Prunes s (dropEntry e c s) := by
  obtain ⟨p, ev, hf, hc, ht⟩ := freeChain_joins e.first e.last e.blockCount c h
  unfold dropEntry
  rw [hf]
  refine ⟨rfl, h, ⟨rfl, rfl⟩, ht, List.filter_sublist.map _, fun x hx => ⟨x, List.mem_of_mem_filter hx, rfl⟩, fun hn => ?_⟩
  have parts := blocksOf_without hn he
  rw [hi, hb] at parts
  show p.count + blocksOf (s.dir.entries.filter fun x => x.id ≠ e.id) = _
  omega

/-- One page's entry changed in neither its id, its state nor its blocks. -/
theorem prunes_mapEntry (i : Nat) {f : Entry → Entry}
    (hf : ∀ e, (f e).id = e.id ∧ (f e).state = e.state ∧ (f e).blockCount = e.blockCount) {s : State} (h : s.noAsk) : Prunes s (mapEntry i f s) := by
  have keeps (e : Entry) : (if e.id = i then f e else e).id = e.id ∧ (if e.id = i then f e else e).state = e.state
      ∧ (if e.id = i then f e else e).blockCount = e.blockCount := by
    split
    · exact hf e
    · exact ⟨rfl, rfl, rfl⟩
  have ids : (mapEntry i f s).dir.entries.map Entry.id = s.dir.entries.map Entry.id := by
    show (s.dir.entries.map _).map _ = _
    rw [List.map_map]
    exact List.map_congr_left fun e _ => (keeps e).1
  have blocks : blocksOf (mapEntry i f s).dir.entries = blocksOf s.dir.entries := by
    show ((s.dir.entries.map _).map _).sum = _
    rw [List.map_map]
    exact congrArg List.sum (List.map_congr_left fun e _ => (keeps e).2.2)
  refine ⟨rfl, h, ⟨rfl, rfl⟩, .refl _, by rw [ids], fun x hx => ?_, fun _ => by rw [blocks]; rfl⟩
  obtain ⟨e, he, rfl⟩ := List.mem_map.1 hx
  exact ⟨e, he, (keeps e).2.1⟩

theorem prunes_clearReader (c : DecoderCtx) (i : Nat) {s : State} (h : s.noAsk) : Prunes s (clearReader c i s) :=
  prunes_mapEntry i (fun _ => by cases c <;> exact ⟨rfl, rfl, rfl⟩) h

theorem prunes_idleCoder (c : CoderCtx) {s : State} (h : s.noAsk) : Prunes s (idleCoder c s) := by
  have quiet := (idleCoder_unasked c h).quiet
  cases c <;> exact ⟨rfl, quiet, ⟨rfl, rfl⟩, .refl _, .refl _, fun e he => ⟨e, he, rfl⟩, fun _ => rfl⟩

/-! ## A page discarded (R86) -/

theorem beforeDrop_entries (i : Nat) (e : Entry) (s : State) :
    (beforeDrop i true e s).dir.entries = (clearReader .print i s).dir.entries := by
  unfold beforeDrop
  simp only [Bool.not_true, Bool.and_false, Bool.false_eq_true, if_false]
  split <;> split <;> rfl

theorem prunes_beforeDrop (i : Nat) (e : Entry) {s : State} (h : s.noAsk) : Prunes s (beforeDrop i true e s) := by
  have stopped (c : CoderCtx) (p : Prop) [Decidable p] {u : State} (hu : u.noAsk) : Prunes u (if p then idleCoder c u else u) := by
    split
    · exact prunes_idleCoder c hu
    · exact .refl hu
  unfold beforeDrop
  simp only [Bool.not_true, Bool.and_false, Bool.false_eq_true, if_false]
  have cleared := prunes_clearReader .print i h
  have scan := cleared.trans (stopped .scan ((clearReader .print i s).scanCd.page = some i) cleared.quiet)
  exact scan.trans (stopped .intake _ scan.quiet)

theorem prunes_discardPage (i : Nat) {s : State} (h : s.noAsk) : Prunes s (discardPage i true s) := by
  cases he : entryOf i s with
  | none =>
    have same : discardPage i true s = s := by
      unfold discardPage
      rw [he]
    rw [same]
    exact .refl h
  | some e =>
    obtain ⟨cur, hd⟩ := discardPage_eq (r := true) he
    have before := prunes_beforeDrop i e h
    have cleared : entryOf i (clearReader .print i s) = some (e.unread .print) :=
      entryOf_mapEntry (f := Entry.unread .print) (fun _ => rfl) he
    have held : e.unread .print ∈ (beforeDrop i true e s).dir.entries := by
      rw [beforeDrop_entries]
      exact (entryOf_mem cleared).1
    rw [hd]
    exact before.trans (prunes_dropEntry cur before.quiet held rfl rfl)

theorem discardPage_entries (i : Nat) {s : State} (h : s.noAsk) :
    (discardPage i true s).dir.entries = s.dir.entries.filter fun x => x.id ≠ i := by
  cases he : entryOf i s with
  | none =>
    have same : discardPage i true s = s := by
      unfold discardPage
      rw [he]
    rw [same, List.filter_eq_self.2]
    intro x hx
    simpa using List.find?_eq_none.1 he x hx
  | some e =>
    obtain ⟨cur, hd⟩ := discardPage_eq (r := true) he
    have hid : e.id = i := (entryOf_mem he).2
    rw [hd, dropEntry_entries e cur (prunes_beforeDrop i e h).quiet, hid]
    exact filter_beforeDrop i true e s

theorem discardAll_entries (is : List Nat) : ∀ {s : State}, s.noAsk →
    (is.foldl (fun s i => discardPage i true s) s).dir.entries = s.dir.entries.filter fun x => x.id ∉ is := by
  induction is with
  | nil => simp
  | cons i is ih =>
    intro s h
    rw [List.foldl_cons, ih (prunes_discardPage i h).quiet, discardPage_entries i h, List.filter_filter]
    refine List.filter_congr fun x _ => ?_
    simp [Bool.and_comm]

/-! ## Readers leaving (R90) -/

/-- Does the page go as its reader of a context leaves? -/
def Entry.departs (c : DecoderCtx) (e : Entry) : Bool :=
  (e.reader c).any fun r =>
    (e.state = .erasing && e.readAlone c) || (r.consume && e.state = .complete && r.linePos = e.lineCount)
      || (e.state = .complete && e.headLine = e.lineCount && e.readAlone c)

theorem departs_iff {c : DecoderCtx} {e : Entry} {r : Reader} (h : e.reader c = some r) :
    e.departs c = true ↔ e.leaves c r := by
  simp [Entry.departs, Entry.leaves, h, or_assoc, and_assoc]

theorem unread_self {c : DecoderCtx} {e : Entry} (h : e.reader c = none) : e.unread c = e := by
  cases e
  cases c <;> simp_all [Entry.reader, Entry.unread]

/-- What is left of an entry as the reader of a context leaves page `i`. -/
def readerGone (c : DecoderCtx) (i : Nat) (e : Entry) : Option Entry :=
  if e.id = i then if e.departs c then none else some (e.unread c) else some e

theorem clearReader_eq (c : DecoderCtx) (i : Nat) (s : State) : clearReader c i s = mapEntry i (Entry.unread c) s := by
  cases c <;> rfl

/-- A page that goes as its reader leaves is dropped with the reader's item cleared. -/
theorem removeReader_drops {c : DecoderCtx} {i : Nat} {s : State} {e : Entry} {r : Reader} (h : entryOf i s = some e)
    (hr : e.reader c = some r) (hl : e.leaves c r) :
    removeReader c i s = dropEntry (e.unread c) none (clearReader c i s) := by
  have cleared : entryOf i (clearReader c i s) = some (e.unread c) := by
    rw [clearReader_eq]
    exact entryOf_mapEntry (fun e => by cases c <;> rfl) h
  have same : dropEntry e none (clearReader c i s) = dropEntry (e.unread c) none (clearReader c i s) := by cases c <;> rfl
  unfold removeReader
  simp only [h, hr]
  split
  · exact same
  · next h1 =>
    split
    · exact same
    · next h2 =>
      obtain ⟨hs, hz, ha⟩ := (hl.resolve_left h1).resolve_left h2
      unfold settleEmpty
      rw [cleared]
      dsimp only
      rw [if_pos]
      refine ⟨?_, ?_, ?_⟩ <;> cases c <;> simp_all [Entry.unread, Entry.readAlone, Entry.hasReader]

theorem prunes_removeReader (c : DecoderCtx) (i : Nat) {s : State} (h : s.noAsk) : Prunes s (removeReader c i s) := by
  by_cases hn : ∀ e, entryOf i s = some e → e.reader c = none
  · rw [removeReader_none hn]
    exact .refl h
  · push Not at hn
    obtain ⟨e, he, hr⟩ := hn
    obtain ⟨r, hr⟩ := Option.ne_none_iff_exists'.1 hr
    have cleared := prunes_clearReader c i h
    by_cases hl : e.leaves c r
    · have held : entryOf i (clearReader c i s) = some (e.unread c) := by
        rw [clearReader_eq]
        exact entryOf_mapEntry (fun e => by cases c <;> rfl) he
      rw [removeReader_drops he hr hl]
      exact cleared.trans (prunes_dropEntry none cleared.quiet (entryOf_mem held).1 rfl rfl)
    · rw [((removeReader_cases he hr).2 hl).1]
      exact cleared

/-- With ids that differ, the entry of page `i` alone is touched. -/
theorem removeReader_entries (c : DecoderCtx) (i : Nat) {s : State} (h : s.noAsk) (hn : (s.dir.entries.map Entry.id).Nodup) :
    (removeReader c i s).dir.entries = s.dir.entries.filterMap (readerGone c i) := by
  have stays {x : Entry} (hx : x.reader c = none) : readerGone c i x = some x := by
    simp [readerGone, Entry.departs, hx, unread_self hx]
  by_cases hr : ∀ e, entryOf i s = some e → e.reader c = none
  · rw [removeReader_none hr]
    refine ((List.filterMap_congr fun x hx => ?_).trans List.filterMap_some).symm
    by_cases hi : x.id = i
    · cases he : entryOf i s with
      | none => exact absurd hi (by simpa using List.find?_eq_none.1 he x hx)
      | some e =>
        obtain ⟨hm, hid⟩ := entryOf_mem he
        obtain rfl : x = e := unique_id hn hx hm (hi.trans hid.symm)
        exact stays (hr x he)
    · exact if_neg hi
  · push Not at hr
    obtain ⟨e, he, hr⟩ := hr
    obtain ⟨r, hr⟩ := Option.ne_none_iff_exists'.1 hr
    obtain ⟨hm, hid⟩ := entryOf_mem he
    have only {x : Entry} (hx : x ∈ s.dir.entries) (hi : x.id = i) : x = e := unique_id hn hx hm (hi.trans hid.symm)
    by_cases hl : e.leaves c r
    · have unread : (e.unread c).id = i := by cases c <;> exact hid
      rw [removeReader_drops he hr hl, dropEntry_entries _ _ (prunes_clearReader c i h).quiet, unread, clearReader_eq,
        filter_mapEntry i _ (fun e => by cases c <;> rfl), ← List.filterMap_eq_filter]
      refine List.filterMap_congr fun x hx => ?_
      by_cases hi : x.id = i
      · obtain rfl := only hx hi
        simp [readerGone, hi, (departs_iff hr).2 hl]
      · simp [readerGone, hi]
    · rw [((removeReader_cases he hr).2 hl).1, clearReader_eq]
      show List.map _ _ = _
      rw [← List.filterMap_eq_map]
      refine List.filterMap_congr fun x hx => ?_
      by_cases hi : x.id = i
      · obtain rfl := only hx hi
        simp [readerGone, hi, mt (departs_iff hr).1 hl]
      · simp [readerGone, hi]

/-- Does a page that is not FILLING stay as both its readers leave (R90)? -/
def Entry.outlasts (e : Entry) : Bool :=
  match e.state with
  | .filling => false
  | .erasing => !e.hasReader
  | .complete =>
    !e.hasReader
      || !((e.printRd.any fun r => r.consume && decide (r.linePos = e.lineCount))
            || (e.outRd.any fun r => r.consume && decide (r.linePos = e.lineCount))
            || decide (e.headLine = e.lineCount))

/-- What is left of page `i` as both its readers leave. -/
def readersGone (i : Nat) (e : Entry) : Option Entry :=
  if e.id = i then if e.outlasts then some { e with printRd := none, outRd := none } else none else some e

/-- The print reader leaves first, then the output reader, as the only one left. -/
theorem outlasts_eq {e : Entry} (h : e.state ≠ .filling) :
    e.outlasts = !(e.departs .print || (e.unread .print).departs .output) := by
  obtain ⟨id, origin, state, res, lines, head, off, count, first, last, writer, trunc, pend, printRd, outRd, damaged⟩ := e
  cases state with
  | filling => exact absurd rfl h
  | erasing =>
    cases printRd <;> cases outRd <;>
      simp [Entry.outlasts, Entry.departs, Entry.reader, Entry.readAlone, Entry.unread, Entry.hasReader]
  | complete =>
    rw [Bool.eq_iff_iff]
    cases printRd <;> cases outRd <;>
      simp [Entry.outlasts, Entry.departs, Entry.reader, Entry.readAlone, Entry.unread, Entry.hasReader] <;> grind

theorem readersGone_eq {i : Nat} {e : Entry} (h : e.state ≠ .filling) :
    (readerGone .print i e).bind (readerGone .output i) = readersGone i e := by
  by_cases hi : e.id = i
  · have unread : (e.unread .print).id = i := hi
    rw [readerGone, readersGone, if_pos hi, if_pos hi, outlasts_eq h]
    cases hp : e.departs .print with
    | true => rfl
    | false =>
      rw [Bool.false_or, if_neg Bool.false_ne_true, Option.bind_some, readerGone, if_pos unread]
      cases (e.unread .print).departs .output <;> rfl
  · simp [readerGone, readersGone, hi]

theorem prunes_dropReaders (i : Nat) {s : State} (h : s.noAsk) : Prunes s (dropReaders s i) :=
  (prunes_removeReader .print i h).trans (prunes_removeReader .output i (prunes_removeReader .print i h).quiet)

theorem dropReaders_entries (i : Nat) {s : State} (h : s.noAsk) (hn : (s.dir.entries.map Entry.id).Nodup)
    (hf : ∀ e ∈ s.dir.entries, e.state ≠ .filling) :
    (dropReaders s i).dir.entries = s.dir.entries.filterMap (readersGone i) := by
  have first := prunes_removeReader .print i h
  unfold dropReaders
  rw [removeReader_entries .output i first.quiet (first.ids.nodup hn), removeReader_entries .print i h hn, List.filterMap_filterMap]
  exact List.filterMap_congr fun e he => readersGone_eq (hf e he)

theorem readersGone_id {i : Nat} {e e' : Entry} (h : readersGone i e = some e') : e'.id = e.id := by
  unfold readersGone at h
  split at h
  · split at h
    · cases h
      rfl
    · exact absurd h nofun
  · cases h
    rfl

/-- The readers of the pages of a list without repeats leave, page after page. -/
theorem dropAllReaders_entries (is : List Nat) : is.Nodup → ∀ {s : State}, s.noAsk → (s.dir.entries.map Entry.id).Nodup →
    (∀ e ∈ s.dir.entries, e.state ≠ .filling) →
      (is.foldl dropReaders s).dir.entries = s.dir.entries.filterMap fun e => if e.id ∈ is then readersGone e.id e else some e := by
  induction is with
  | nil =>
    intro _ s _ _ _
    simp
  | cons i is ih =>
    intro hi s h hn hf
    obtain ⟨hi, his⟩ := List.nodup_cons.1 hi
    have one := prunes_dropReaders i h
    have unfilled (e : Entry) (he : e ∈ (dropReaders s i).dir.entries) : e.state ≠ .filling := by
      obtain ⟨e', he', hs⟩ := one.states e he
      rw [hs]
      exact hf e' he'
    rw [List.foldl_cons, ih his one.quiet (one.ids.nodup hn) unfilled, dropReaders_entries i h hn hf, List.filterMap_filterMap]
    refine List.filterMap_congr fun e _ => ?_
    by_cases hx : e.id = i
    · cases hg : readersGone i e with
      | none => simp [hx, hg]
      | some e' =>
        have : e'.id = i := (readersGone_id hg).trans hx
        simp [hx, hg, this, hi]
    · simp [readersGone, hx]

end Sys2Proof.Machine
end

section
/-! RESTART, order by order of its effects (R17, R43, R90, R94, R106, R117, R118, R182, R190). -/

set_option Elab.async false

namespace Sys2Proof.Machine

/-! ## The pages -/

/-- The FILLING pages discarded, oldest first. -/
def fillingGone (s : State) : State := (fillingIds s).foldl (fun s id => discardPage id true s) s

/-- The pages as RESTART leaves them: the FILLING ones discarded, then the readers of all gone. -/
def pagesSettled (s : State) : State := (pageIds (fillingGone s)).foldl dropReaders (fillingGone s)

theorem noAsk_withdrawWaits (s : State) : (withdrawWaits s).noAsk := by
  have idle (c : CoderState) : (if c = .memwait then CoderState.coding else c) ≠ .memwait := by
    split
    · nofun
    · assumption
  exact ⟨idle _, idle _, rfl, rfl⟩

section Pages

variable {s : State} (h : s.noAsk)
include h

theorem prunes_fillingGone : Prunes s (fillingGone s) := prunes_fold (fun _ i k => prunes_discardPage i k) _ s h

theorem prunes_pagesSettled : Prunes s (pagesSettled s) :=
  (prunes_fillingGone h).trans (prunes_fold (fun _ i k => prunes_dropReaders i k) _ _ (prunes_fillingGone h).quiet)

theorem fillingGone_unfilled {e : Entry} (he : e ∈ (fillingGone s).dir.entries) : e.state ≠ .filling := by
  rw [fillingGone, discardAll_entries _ h] at he
  obtain ⟨hm, hi⟩ := List.mem_filter.1 he
  intro hs
  exact of_decide_eq_true hi (List.mem_map.2 ⟨e, List.mem_filter.2 ⟨hm, decide_eq_true hs⟩, rfl⟩)

theorem pagesSettled_unfilled {e : Entry} (he : e ∈ (pagesSettled s).dir.entries) : e.state ≠ .filling := by
  have readers := prunes_fold (fun _ i k => prunes_dropReaders i k) (pageIds (fillingGone s)) _ (prunes_fillingGone h).quiet
  obtain ⟨e', he', hs⟩ := readers.states e he
  rw [hs]
  exact fillingGone_unfilled h he'

variable (hn : (s.dir.entries.map Entry.id).Nodup)
include hn

theorem fillingGone_entries : (fillingGone s).dir.entries = s.dir.entries.filter fun e => e.state ≠ .filling := by
  rw [fillingGone, discardAll_entries _ h]
  refine List.filter_congr fun e he => decide_eq_decide.2 (not_congr ⟨fun hm => ?_, fun hs => ?_⟩)
  · obtain ⟨e', he', hi⟩ := List.mem_map.1 hm
    obtain ⟨hm', hs⟩ := List.mem_filter.1 he'
    rw [← unique_id hn hm' he hi]
    exact of_decide_eq_true hs
  · exact List.mem_map.2 ⟨e, List.mem_filter.2 ⟨he, decide_eq_true hs⟩, rfl⟩

/-- The pages that stay, in their order and with no reader (R90, R94). -/
theorem pagesSettled_entries :
    (pagesSettled s).dir.entries =
      (s.dir.entries.filter Entry.outlasts).map fun e => { e with printRd := none, outRd := none } := by
  have filling := prunes_fillingGone h
  have ids := filling.ids.nodup hn
  rw [pagesSettled, dropAllReaders_entries (pageIds (fillingGone s)) ids filling.quiet ids fun _ => fillingGone_unfilled h]
  have all : (fillingGone s).dir.entries.filterMap
      (fun e => if e.id ∈ pageIds (fillingGone s) then readersGone e.id e else some e) =
        (fillingGone s).dir.entries.filterMap fun e => readersGone e.id e :=
    List.filterMap_congr fun e he => if_pos (List.mem_map_of_mem he)
  rw [all, fillingGone_entries h hn, List.filterMap_filter, ← List.filterMap_eq_map, List.filterMap_filter]
  refine List.filterMap_congr fun e _ => ?_
  cases hs : e.state <;> simp [readersGone, Entry.outlasts, hs]

/-- The blocks of the pages gone are counted free (R70). -/
theorem pagesSettled_count :
    (pagesSettled s).pmc.count =
      s.pmc.count + ((s.dir.entries.filter fun e => !e.outlasts).map Entry.blockCount).sum := by
  have blocks := (prunes_pagesSettled h).blocks hn
  have left : blocksOf (pagesSettled s).dir.entries = ((s.dir.entries.filter Entry.outlasts).map Entry.blockCount).sum := by
    rw [pagesSettled_entries h hn, blocksOf, List.map_map]
    rfl
  have parts : ((s.dir.entries.filter Entry.outlasts).map Entry.blockCount).sum
      + ((s.dir.entries.filter fun e => !e.outlasts).map Entry.blockCount).sum = blocksOf s.dir.entries := by
    rw [← List.sum_append, ← List.map_append]
    exact ((List.filter_append_perm Entry.outlasts s.dir.entries).map Entry.blockCount).sum_eq
  omega

end Pages

/-! ## The jobs, the rings and the contexts -/

/-- The replies that wait are filled STATE: a calibration's where one is abandoned, and every diagnostic access's. -/
def restartReplies (s : State) : List ReplyEntry :=
  fillEvery .diag .state []
    (if s.front.cal.isSome then fillEvery .calibrating .state [] s.port.replies else s.port.replies)

theorem abandonCalibration_eq (s : State) :
    abandonCalibration s =
      { s with
        port := { s.port with replies := if s.front.cal.isSome then fillEvery .calibrating .state [] s.port.replies
                                         else s.port.replies },
        front := { s.front with cal := none } } := by
  unfold abandonCalibration
  cases hc : s.front.cal with
  | none =>
    have absent : s.front = { s.front with cal := none } := by rw [← hc]
    exact congrArg (fun f => { s with front := f }) absent
  | some c => rfl

theorem ringsEmptied_eq (s : State) :
    clearIntakeLine (emptyOutputRing (emptyPrintRing (emptyIntakeRing (emptyScanRing s)))) =
      { s with
        port := { s.port with intakeLineNo := 0, prevIntake := none }, front := { s.front with comp := none },
        rings := { s.rings with
          scan := s.rings.scan.emptied, scanReserved := 0, intake := s.rings.intake.emptied, intakeFull := false,
          print := s.rings.print.emptied,
          output := if lineBegun s then s.rings.output.emptiedButHead else s.rings.output.emptied } } := rfl

theorem killGrant_eq (f : Burst → Bool) (s : State) :
    ∃ g, killGrant f s = { s with pmc := { s.pmc with grant := g } } := ⟨_, rfl⟩

theorem idleScan_eq (s : State) :
    ∃ g, idleCoder .scan s =
      { s with scanCd := { Coder.reset with dirWait := s.scanCd.dirWait }, pmc := { s.pmc with grant := g } } := by
  obtain ⟨g, hg⟩ := killGrant_eq (Burst.ofCoder .scan)
    (mapCoder .scan (fun c => { Coder.reset with dirWait := c.dirWait }) s)
  exact ⟨g, hg⟩

theorem idleIntake_eq (s : State) :
    ∃ g, idleCoder .intake s =
      { s with intakeCd := { Coder.reset with dirWait := s.intakeCd.dirWait }, pmc := { s.pmc with grant := g } } := by
  obtain ⟨g, hg⟩ := killGrant_eq (Burst.ofCoder .intake)
    (mapCoder .intake (fun c => { Coder.reset with dirWait := c.dirWait }) s)
  exact ⟨g, hg⟩

theorem idlePrint_eq (s : State) :
    ∃ g, idleDecoder .print s = { s with printDec := none, pmc := { s.pmc with grant := g } } := by
  obtain ⟨g, hg⟩ := killGrant_eq (Burst.ofDecoder .print) (setPass .print none s)
  exact ⟨g, hg⟩

theorem idleOutput_eq (s : State) :
    ∃ g, idleDecoder .output s = { s with outDec := none, pmc := { s.pmc with grant := g } } := by
  obtain ⟨g, hg⟩ := killGrant_eq (Burst.ofDecoder .output) (setPass .output none s)
  exact ⟨g, hg⟩

theorem contextsIdle_eq (s : State) :
    ∃ g, idleDecoder .output (idleDecoder .print (idleCoder .intake (idleCoder .scan s))) =
      { s with
        scanCd := { Coder.reset with dirWait := s.scanCd.dirWait },
        intakeCd := { Coder.reset with dirWait := s.intakeCd.dirWait },
        printDec := none, outDec := none, pmc := { s.pmc with grant := g } } := by
  obtain ⟨g1, h1⟩ := idleScan_eq s
  obtain ⟨g2, h2⟩ := idleIntake_eq (idleCoder .scan s)
  obtain ⟨g3, h3⟩ := idlePrint_eq (idleCoder .intake (idleCoder .scan s))
  obtain ⟨g4, h4⟩ := idleOutput_eq (idleDecoder .print (idleCoder .intake (idleCoder .scan s)))
  refine ⟨g4, ?_⟩
  rw [h4, h3, h2, h1]

/-- RESTART on all but the pages, the channels and the power state. -/
theorem jobsDropped_eq (s : State) :
    ∃ g, restartDiag (restartFront (dropJobs (releasePlace s))) =
      { s with
        port := { s.port with replies := restartReplies s, intakeLineNo := 0, prevIntake := none },
        front := { s.front with cal := none, lamp := false, comp := none, errorRow := List.replicate 1728 0, ditherRow := 0,
                                ditherCol := 0 },
        rings := { s.rings with
          scan := s.rings.scan.emptied, scanReserved := 0, intake := s.rings.intake.emptied, intakeFull := false,
          print := s.rings.print.emptied,
          output := if lineBegun s then s.rings.output.emptiedButHead else s.rings.output.emptied },
        scanCd := { Coder.reset with dirWait := s.scanCd.dirWait },
        intakeCd := { Coder.reset with dirWait := s.intakeCd.dirWait },
        printDec := none, outDec := none, scanJob := none, intJob := none, prtJob := none, outJob := none, diagQ := [],
        dir := { s.dir with places := 0 }, pmc := { s.pmc with grant := g } } := by
  obtain ⟨g, hg⟩ := contextsIdle_eq (clearIntakeLine (emptyOutputRing (emptyPrintRing (emptyIntakeRing (emptyScanRing
    (mapFront (fun f => { f with lamp := false }) (abandonCalibration (releasePlace s))))))))
  unfold dropJobs
  dsimp only
  rw [hg, ringsEmptied_eq, abandonCalibration_eq]
  exact ⟨_, rfl⟩

/-- The jobs and the pages ended (R94, R182). -/
theorem endAtRestart_eq (s : State) :
    ∃ g, restartDiag (restartFront (endAtRestart s)) =
      { s with
        port := { s.port with replies := restartReplies s, intakeLineNo := 0, prevIntake := none },
        front := { s.front with cal := none, lamp := false, comp := none, errorRow := List.replicate 1728 0, ditherRow := 0,
                                ditherCol := 0 },
        rings := { s.rings with
          scan := s.rings.scan.emptied, scanReserved := 0, intake := s.rings.intake.emptied, intakeFull := false,
          print := s.rings.print.emptied,
          output := if lineBegun s then s.rings.output.emptiedButHead else s.rings.output.emptied },
        scanCd := Coder.reset, intakeCd := Coder.reset,
        printDec := none, outDec := none, scanJob := none, intJob := none, prtJob := none, outJob := none, diagQ := [],
        dir := { s.dir with entries := (pagesSettled (withdrawWaits s)).dir.entries, places := 0 },
        pmc := { (pagesSettled (withdrawWaits s)).pmc with grant := g },
        events := (pagesSettled (withdrawWaits s)).events } := by
  obtain ⟨frame, -, ⟨scan, intake⟩, -⟩ := prunes_pagesSettled (noAsk_withdrawWaits s)
  obtain ⟨g, hg⟩ := jobsDropped_eq (pagesSettled (withdrawWaits s))
  refine ⟨g, Eq.trans hg ?_⟩
  rw [scan, intake]
  generalize pagesSettled (withdrawWaits s) = u at frame ⊢
  rw [frame]
  rfl

/-! ## The motor tables and the channels -/

/-- Tables taken into use: the copies, the flags raised and the phase indices may change, the load assembly stays. -/
structure Applies (s t : State) : Prop where
  frame    : t = { s with tables := t.tables, events := t.events, motS := { s.motS with phase := t.motS.phase },
                          motP := { s.motP with phase := t.motP.phase } }
  assembly : t.tables.assembly = s.tables.assembly
  tells    : Tells s.events t.events

theorem Applies.refl (s : State) : Applies s s := ⟨rfl, rfl, .refl _⟩

theorem Applies.trans {s t u : State} (h : Applies s t) (k : Applies t u) : Applies s u := by
  refine ⟨?_, k.assembly.trans h.assembly, h.tells.trans k.tells⟩
  rw [k.frame, h.frame]

theorem applies_applyUnused {k : Fin 14} (h : k ≠ tShading) (s : State) : Applies s (applyUnused s k) := by
  unfold applyUnused
  split
  · exact .refl s
  · cases hp : s.tables.pending[k] with
    | none => rw [applyPending_none hp]; exact .refl s
    | some img =>
      have phased (p : Prop) [Decidable p] (m : Motor) (n : Nat) :
          (if p then { m with phase := n } else m) = { m with phase := if p then n else m.phase } := by split <;> rfl
      rw [applyPending_some hp, setActive_eq, if_neg h, phased, phased]
      exact ⟨rfl, rfl, tells_raise (.inl rfl) ..⟩

theorem applies_applyMotorTables (s : State) : Applies s (applyMotorTables s) := by
  rw [applyMotorTables_eq]
  exact (((applies_applyUnused (k := tSramp) (by decide) s).trans (applies_applyUnused (k := tSphase) (by decide) _)).trans
    (applies_applyUnused (k := tPramp) (by decide) _)).trans (applies_applyUnused (k := tPphase) (by decide) _)

/-- A channel after RESTART: OFF, or in FAULT while the cover is open. -/
def Motor.afterRestart (closed : Bool) (phase : Nat) (m : Motor) : Motor :=
  if closed then { m.restarted with phase := phase } else { m.restarted with phase := phase }.cutOff byCover

theorem afterRestart_state (c : Bool) (ph : Nat) (m : Motor) : (m.afterRestart c ph).state = if c then .off else .fault := by
  cases c <;> rfl

theorem afterRestart_pos (c : Bool) (ph : Nat) (m : Motor) : (m.afterRestart c ph).pos = m.pos := by
  cases c <;> rfl

theorem afterRestart_tells (c : Bool) (ph : Nat) {m : Motor} (hm : m.moving = true) (ho : m.owner = .scan ∨ m.owner = .print) :
    (m.afterRestart c ph).plan = .idle ∧ (m.afterRestart c ph).owner = .nobody
      ∧ (m.afterRestart c ph).told = some { owner := m.owner, issued := m.issued, owed := m.plan.owed } := by
  rw [← report_moving hm ho]
  cases c <;> exact ⟨rfl, rfl, rfl⟩

/-- The motor tables are free while the channels are in OFF with no job. -/
theorem tableInUse_off {v : State} (hS : v.motS.state = .off) (hP : v.motP.state = .off) (hj : v.scanJob = none)
    (hp : v.prtJob = none) {id : Fin 14} (h : id ∈ [tSramp, tSphase, tPramp, tPphase]) : tableInUse id v = false := by
  have scan : scanHoldsMotor v = false := by simp [scanHoldsMotor, hj]
  have print : printInCopy v = false := by simp [printInCopy, hp]
  simp only [List.mem_cons, List.not_mem_nil, or_false] at h
  rcases h with rfl | rfl | rfl | rfl <;>
    simp [tableInUse, tSramp, tSphase, tPramp, tPphase, Motor.moving, Motor.faulted, hS, hP, scan, print]

/-- What becomes of both copies of a table under RESTART (R117). -/
def tablesTaken (id : Fin 14) (tb tb' : Tables) : Prop :=
  if id ∈ [tSramp, tSphase, tPramp, tPphase] ∧ tb.pending[id] ≠ none then
    tb'.active[id] = tb.pending[id] ∧ tb'.pending[id] = none
  else tb'.active[id] = tb.active[id] ∧ tb'.pending[id] = tb.pending[id]

/-- Both channels abandoned to OFF (R118). -/
def motorsOff (v : State) : State := { v with motS := v.motS.restarted, motP := v.motP.restarted }

theorem restartMotors_eq {v : State} (hj : v.scanJob = none) (hp : v.prtJob = none) :
    ∃ tb ev pS pP, restartMotors v =
        { v with tables := tb, events := ev, motS := v.motS.afterRestart v.lines.cover pS,
                 motP := v.motP.afterRestart v.lines.cover pP }
      ∧ tb.assembly = v.tables.assembly ∧ Tells v.events ev ∧ ∀ id, tablesTaken id v.tables tb := by
  obtain ⟨frame, assembly, tells⟩ := applies_applyMotorTables (motorsOff v)
  have unused {id : Fin 14} (h : id ∈ [tSramp, tSphase, tPramp, tPphase]) : tableInUse id (motorsOff v) = false :=
    tableInUse_off (v := motorsOff v) rfl rfl hj hp h
  have copies (id : Fin 14) : tablesTaken id v.tables (applyMotorTables (motorsOff v)).tables := by
    have one := applyMotorTables_copies (motorsOff v) id
    unfold tablesTaken
    split at one
    · next h => exact (if_pos ⟨h.1, h.2.2⟩).mpr ⟨one.1, one.2.1⟩
    · next h => exact (if_neg fun k => h ⟨k.1, unused k.1, k.2⟩).mpr one
  have restart : restartMotors v =
      if (applyMotorTables (motorsOff v)).lines.cover then applyMotorTables (motorsOff v)
      else cutOffBoth byCover (applyMotorTables (motorsOff v)) := rfl
  rw [restart]
  generalize applyMotorTables (motorsOff v) = x at *
  refine ⟨x.tables, x.events, x.motS.phase, x.motP.phase, ?_, assembly, tells, copies⟩
  have lines : x.lines = v.lines := by
    rw [frame]
    rfl
  rw [lines]
  cases hc : v.lines.cover
  · rw [if_neg Bool.false_ne_true, frame]
    rfl
  · rw [if_pos rfl, frame]
    rfl

/-- The power state as RESTART leaves it: no wake mask, no wake timer, and from DOZE the return begun. -/
def Power.afterRestart (p : Power) : Power :=
  { p with mask := 0, wakeTimer := none,
           returning := if p.state = .doze ∧ p.returning = none then some 0 else p.returning }

theorem orderRestart_eq (s : State) :
    orderRestart s =
      ({ restartMotors (restartDiag (restartFront (endAtRestart s))) with
          power := (restartMotors (restartDiag (restartFront (endAtRestart s)))).power.afterRestart }, .filled .ok []) := by
  unfold orderRestart Power.afterRestart
  dsimp only
  generalize restartMotors (restartDiag (restartFront (endAtRestart s))) = u
  refine Prod.ext ?_ rfl
  by_cases hd : u.power.state = .doze <;> cases hr : u.power.returning <;> simp [mapPower, beginReturn, hd, hr]

/-- The replies after RESTART, entry by entry. -/
theorem restartReplies_eq (s : State) :
    restartReplies s =
      s.port.replies.map fun x =>
        match x.body with
        | .filled _ _ => x
        | .calibrating => if s.front.cal.isSome then { x with body := .filled .state [] } else x
        | .diag => { x with body := .filled .state [] } := by
  unfold restartReplies fillEvery
  cases s.front.cal.isSome
  · refine List.map_congr_left fun x _ => ?_
    cases hx : x.body <;> simp
  · rw [if_pos rfl, List.map_map]
    refine List.map_congr_left fun x _ => ?_
    cases hx : x.body <;> simp [Function.comp, hx]

/-- Settles O54: the pages are settled and the jobs dropped, then the channels and the power state follow. -/
theorem restartEndsEverything : Obligations.RestartEndsEverything := by
  intro s ho
  obtain ⟨hr, hi, hb⟩ := ho
  have quiet := noAsk_withdrawWaits s
  have pages := prunes_pagesSettled quiet
  obtain ⟨g, ended⟩ := endAtRestart_eq s
  have jobs : (restartDiag (restartFront (endAtRestart s))).scanJob = none
      ∧ (restartDiag (restartFront (endAtRestart s))).prtJob = none := by
    rw [ended]
    exact ⟨rfl, rfl⟩
  obtain ⟨tb, ev, pS, pP, motors, assembly, tells, tables⟩ := restartMotors_eq jobs.1 jobs.2
  rw [ended] at motors assembly tells tables
  have toldAll : Tells s.events ev := pages.tells.trans tells
  refine ⟨(orderRestart s).1, ?_, ?_⟩
  · show Host.Outcome.next (writeOrder 0x0E [] s) = _
    rw [writeOrder_ready hr hi hb rfl fun h => absurd h (by decide)]
    rfl
  · rw [orderRestart_eq, ended, motors]
    refine ⟨rfl, rfl, rfl, rfl, rfl, fun e he => pagesSettled_unfilled quiet he, rfl, rfl, rfl, rfl, rfl, ?_, rfl, rfl,
      afterRestart_state .., afterRestart_state .., afterRestart_pos .., afterRestart_pos .., rfl, rfl, ?_, rfl, rfl, rfl, rfl,
      fun hd hn => if_pos ⟨hd, hn⟩, restartReplies_eq s, ?_, rfl, rfl, rfl, rfl, tables, assembly,
      fun f => ⟨toldAll.masks f, toldAll.flags f⟩, toldAll.queue⟩
    · show Ring.occ (if lineBegun s then _ else _) = _
      split <;> rfl
    · intro ch hm howner
      cases ch
      · exact afterRestart_tells _ _ hm howner
      · exact afterRestart_tells _ _ hm howner
    · intro hn
      exact ⟨pagesSettled_entries quiet hn, pagesSettled_count quiet hn⟩

end Sys2Proof.Machine
end

section
/-! The dots of a line: FIXED and DIFFUSE, the modes of the zones, the error row a line leaves (R29, R32 to R36). -/

set_option Elab.async false

namespace Sys2Proof.Machine

/-! ## Values held within bounds -/

theorem clampInt_bounds {lo hi : Int} (h : lo ≤ hi) (n : Int) : lo ≤ clampInt lo hi n ∧ clampInt lo hi n ≤ hi := by
  unfold clampInt
  omega

theorem byteAt_lt (bs : List Byte) (i : Nat) : byteAt bs i < 256 := (bs.getD i 0).isLt

theorem decisionValue_bounds (t : Nat) (e q : Int) : -128 ≤ decisionValue t e q ∧ decisionValue t e q ≤ 383 :=
  clampInt_bounds (by decide) _

/-- A decision leaves an error of at most 128 either way (R34). -/
theorem decisionError_bounds {v : Int} (h : -128 ≤ v ∧ v ≤ 383) : -128 ≤ decisionError v ∧ decisionError v ≤ 128 := by
  unfold decisionError
  split <;> omega

theorem sharesOf_sum (err : Int) : (sharesOf err).r + (sharesOf err).d + (sharesOf err).dl + (sharesOf err).dr = err := by
  simp only [sharesOf]
  omega

/-! ## Stage 5 by method (R32, R34, R36) -/

section Binarize
variable {a : LineInputs} {j : Nat} {f : Diffusion}

theorem binarize_beyond (h : outWidth a.zoom ≤ j) : a.binarize j f = (false, { f with done := 0 :: f.done, here := 0 }) :=
  if_pos h

theorem binarize_fixed (h : j < outWidth a.zoom) (hm : (a.modeAt j).method = 0) :
    a.binarize j f = (decide (a.tone j < (a.modeAt j).threshold), f.skip) := by
  unfold LineInputs.binarize
  rw [if_neg (Nat.not_le.2 h), hm]
  rfl

theorem binarize_dither (h : j < outWidth a.zoom) (hm : (a.modeAt j).method = 1) :
    a.binarize j f = (decide (a.tone j < byteAt a.dither (4 * (a.y % 4) + j % 4)), f.skip) := by
  unfold LineInputs.binarize
  rw [if_neg (Nat.not_le.2 h), hm]
  rfl

theorem binarize_diffuse (h : j < outWidth a.zoom) (hm : 2 ≤ (a.modeAt j).method) :
    a.binarize j f =
      (decide (a.value j f.carry < 128), f.dot (decisionError (a.value j f.carry)) (decide (j + 1 = outWidth a.zoom))) := by
  unfold LineInputs.binarize
  rw [if_neg (Nat.not_le.2 h)]
  split
  · omega
  · omega
  · rfl

end Binarize

/-- Settles O24: the FIXED case of stage 5, the tone value being a byte. -/
theorem fixedThresholdDecidesDot : Obligations.FixedThresholdDecidesDot := by
  intro a j f hj hm
  have tone : a.tone j < 256 := byteAt_lt _ _
  rw [binarize_fixed hj hm]
  refine ⟨rfl, fun h => ?_, fun h => ?_⟩
  · simp [h]
  · rw [h, decide_eq_true_iff]
    omega

/-- Settles O25: the DIFFUSE case of stage 5, with the bounds of the decision value and of the error. -/
theorem diffusionDecidesAndSharesError : Obligations.DiffusionDecidesAndSharesError := by
  refine ⟨fun a j f hj hm => ?_, by decide, by decide, by decide⟩
  have value := decisionValue_bounds (a.tone j) (a.errorRow.getD j 0) f.carry
  have error := decisionError_bounds value
  rw [binarize_diffuse hj hm]
  refine ⟨rfl, value.1, value.2, error.1, error.2, rfl, rfl, rfl, sharesOf_sum _, rfl, fun h => ?_⟩
  have inner : decide (j + 1 = outWidth a.zoom) = false := decide_eq_false (Nat.ne_of_lt h)
  rw [inner]
  exact ⟨rfl, rfl⟩

/-! ## Zones and modes (R29) -/

/-- The mode index gathered over the first `n` zones. -/
def modeOver (zones : List Byte) (i y n : Nat) : Nat :=
  (List.range n).foldl (fun m k => if zoneHolds zones k i y then byteAt zones (9 + 9 * k) else m) 0

theorem modeIndex_eq (zones : List Byte) (i y : Nat) : modeIndex zones i y = modeOver zones i y (byteAt zones 0) := rfl

section Zones
variable {zones : List Byte} {i y : Nat}

theorem modeOver_succ (n : Nat) :
    modeOver zones i y (n + 1) = if zoneHolds zones n i y then byteAt zones (9 + 9 * n) else modeOver zones i y n := by
  unfold modeOver
  rw [List.range_succ, List.foldl_append]
  rfl

theorem modeOver_none {n : Nat} (h : ∀ k, k < n → zoneHolds zones k i y = false) : modeOver zones i y n = 0 := by
  induction n with
  | zero => rfl
  | succ n ih =>
    rw [modeOver_succ, h n (Nat.lt_succ_self n)]
    exact ih fun k hk => h k (Nat.lt_succ_of_lt hk)

/-- The last zone that contains the pixel gives the index, whatever came before it. -/
theorem modeOver_highest {n k : Nat} (hk : k < n) (hz : zoneHolds zones k i y = true)
    (above : ∀ l, k < l → l < n → zoneHolds zones l i y = false) : modeOver zones i y n = byteAt zones (9 + 9 * k) := by
  induction n with
  | zero => omega
  | succ n ih =>
    rw [modeOver_succ]
    by_cases top : k = n
    · rw [← top, if_pos hz]
    · have below : k < n := by omega
      rw [above n below (Nat.lt_succ_self n)]
      exact ih below fun l h1 h2 => above l h1 (Nat.lt_succ_of_lt h2)

end Zones

theorem modeAt_within {a : LineInputs} {j : Nat} (h : j < outWidth a.zoom) :
    a.modeAt j = modeRecord a.modes (modeIndex a.zones (sourcePixel a.zoom j) a.y) := by
  unfold LineInputs.modeAt
  rw [if_pos h]

theorem modeAt_beyond {a : LineInputs} {j : Nat} (h : outWidth a.zoom ≤ j) : a.modeAt j = modeRecord a.modes 0 := by
  unfold LineInputs.modeAt
  rw [if_neg (Nat.not_lt.2 h)]

/-- Settles O26, by induction over the zones, the highest last. -/
theorem highestZoneGivesMode : Obligations.HighestZoneGivesMode := by
  refine ⟨fun zones i y => ⟨fun k hk hz above => modeOver_highest hk hz above, modeOver_none⟩,
    fun a j => ⟨modeAt_within, modeAt_beyond, fun k hj hk same => ?_⟩⟩
  rw [modeAt_within hj, modeAt_within hk, same]

/-! ## The error row (R35, R36) -/

/-- What an entry of an error row may be. -/
def RowEntry (e : Int) : Prop := -255 ≤ e ∧ e ≤ 255

theorem rowEntry_zero : RowEntry 0 := by
  unfold RowEntry
  omega

theorem rowEntry_addShare (e share : Int) : RowEntry (addShare e share) := clampInt_bounds (by decide) _

/-- The diffusion along a line of output width `w` before its dot `j`: an entry for every dot passed, every entry within the
range of the row, and those beyond the width 0. -/
structure Diffusion.Sound (w j : Nat) (f : Diffusion) : Prop where
  length : f.done.length = j
  range  : ∀ e ∈ f.done, RowEntry e
  here   : RowEntry f.here
  beyond : ∀ i, w ≤ i → f.done.reverse.getD i 0 = 0

theorem sound_start (w : Nat) : Diffusion.start.Sound w 0 where
  length := rfl
  range := nofun
  here := rowEntry_zero
  beyond _ _ := rfl

/-- A row entered dot by dot reads 0 past its end. -/
theorem getD_reverse_past {l : List Int} {i : Nat} (h : l.length ≤ i) : l.reverse.getD i 0 = 0 :=
  List.getD_eq_default _ _ (by rwa [List.length_reverse])

theorem addLeft_length (dl : Int) (l : List Int) : (addLeft dl l).length = l.length := by
  cases l <;> rfl

theorem addLeft_range {dl : Int} {l : List Int} (h : ∀ e ∈ l, RowEntry e) : ∀ e ∈ addLeft dl l, RowEntry e := by
  cases l with
  | nil => exact h
  | cons x t => exact List.forall_mem_cons.2 ⟨rowEntry_addShare x dl, (List.forall_mem_cons.1 h).2⟩

section Sound
variable {w j : Nat} {f : Diffusion}

/-- A FIXED or DITHER dot, and a dot beyond the width, enter 0. -/
theorem Diffusion.Sound.zero (h : f.Sound w j) (q : Int) :
    Diffusion.Sound w (j + 1) { carry := q, done := 0 :: f.done, here := 0 } where
  length := congrArg (· + 1) h.length
  range := List.forall_mem_cons.2 ⟨rowEntry_zero, h.range⟩
  here := rowEntry_zero
  beyond i hi := by
    rw [List.reverse_cons]
    rcases Nat.lt_or_ge i j with inside | outside
    · rw [List.getD_append _ _ _ _ (by rwa [List.length_reverse, h.length])]
      exact h.beyond i hi
    · rw [List.getD_append_right _ _ _ _ (by rwa [List.length_reverse, h.length])]
      cases i - f.done.reverse.length <;> rfl

/-- A DIFFUSE dot lies within the width: what it enters is clamped, and nothing is entered beyond. -/
theorem Diffusion.Sound.dot (h : f.Sound w j) (hj : j < w) (err : Int) (last : Bool) : (f.dot err last).Sound w (j + 1) where
  length := congrArg (· + 1) ((addLeft_length _ _).trans h.length)
  range := List.forall_mem_cons.2 ⟨rowEntry_addShare .., addLeft_range h.range⟩
  here := by
    cases last
    · exact rowEntry_addShare ..
    · exact rowEntry_zero
  beyond i hi := by
    refine getD_reverse_past ?_
    show (addLeft _ f.done).length + 1 ≤ i
    rw [addLeft_length, h.length]
    omega

end Sound

theorem sound_binarize {a : LineInputs} {j : Nat} {f : Diffusion} (h : f.Sound (outWidth a.zoom) j) :
    (a.binarize j f).2.Sound (outWidth a.zoom) (j + 1) := by
  rcases Nat.lt_or_ge j (outWidth a.zoom) with inside | beyond
  · rcases Nat.lt_or_ge (a.modeAt j).method 2 with plain | diffuse
    · have method : (a.modeAt j).method = 0 ∨ (a.modeAt j).method = 1 := by omega
      rcases method with hm | hm
      · rw [binarize_fixed inside hm]
        exact h.zero 0
      · rw [binarize_dither inside hm]
        exact h.zero 0
    · rw [binarize_diffuse inside diffuse]
      exact h.dot inside _ _
  · rw [binarize_beyond beyond]
    exact h.zero f.carry

theorem sound_dots {a : LineInputs} : ∀ (n j : Nat) (f : Diffusion), f.Sound (outWidth a.zoom) j →
    (a.dots n j f).2.Sound (outWidth a.zoom) (j + n) := by
  intro n
  induction n with
  | zero => exact fun _ _ h => h
  | succ n ih =>
    intro j f h
    have rest := ih (j + 1) _ (sound_binarize h)
    rw [Nat.add_right_comm] at rest
    exact rest

/-- The row a line leaves is the entries of its diffusion, the first dot's first. -/
theorem compute_row (a : LineInputs) : a.compute.2 = (a.dots 1728 0 Diffusion.start).2.done.reverse := by
  simp only [LineInputs.compute]

/-- Settles O27: the row is what the diffusion holds after dot 1727, sound dot by dot. -/
theorem errorRowStaysInRange : Obligations.ErrorRowStaysInRange := by
  intro a
  have line := sound_dots 1728 0 Diffusion.start (sound_start (outWidth a.zoom))
  rw [compute_row]
  generalize (a.dots 1728 0 Diffusion.start).2 = f at line
  exact ⟨List.length_reverse.trans line.length, fun e he => line.range e (List.mem_reverse.1 he), line.beyond⟩

end Sys2Proof.Machine
end

section
/-! Calibration, a scan line's readout, and the timers that run out with no job to tell (R21, R40 to R42, R107, R145, R170). -/

set_option Elab.async false

namespace Sys2Proof.Machine

/-! ## A calibration begun (R40, R41) -/

/-- The calibration as it begins: no dark line read yet (R41). -/
def Calibration.begun : Calibration := { stage := .dark 0, sums := List.replicate 1728 0, black := [] }

theorem orderCalibrate_begins {s : State} (hc : s.front.cal = none) (hj : s.scanJob = none) (hm : s.motS.atRest = true) :
    orderCalibrate s = ({ s with front := { s.front with lamp := false, cal := some .begun } }, .calibrating) := by
  unfold orderCalibrate
  rw [if_neg (by simp [hc, hj, hm])]
  rfl

/-! ## Its lines (R41, R42) -/

section Lines
variable {v : Vector Byte 1760} {s : State} {c : Calibration}

theorem exec_readoutEnd_calibration (h : s.front.cal = some c) :
    exec (.readoutEnd v) s = .next (settle (calibrationLine c (pixelSamples v) s)) := by
  show Host.Outcome.next (settle (readoutEnds v s)) = _
  unfold readoutEnds
  rw [h]

variable {samples : List Byte} {n : Nat}

/-- Each of the first seven lines of a kind is added to the sums, and the next of the kind follows. -/
theorem calibrationLine_goesOn {stage : Nat → CalStage} (hs : stage = .dark ∨ stage = .white) (h : c.stage = stage n)
    (hn : n < 7) :
    calibrationLine c samples s =
      mapFront (fun f => { f with cal := some { c with stage := stage (n + 1), sums := addSums c.sums samples } }) s := by
  unfold calibrationLine
  rcases hs with rfl | rfl
  · rw [h]
    exact if_pos (by omega)
  · rw [h]
    exact if_pos (by omega)

theorem calibrationLine_lastDark (h : c.stage = .dark 7) :
    calibrationLine c samples s =
      mapFront (fun f => { f with
        lamp := true,
        cal := some { stage := if byteAt (settingsImage s) 24 = 0 then .white 0 else .lampWait,
                      sums := List.replicate 1728 0, black := (addSums c.sums samples).map meanLevel } }) s := by
  unfold calibrationLine
  rw [h]
  rfl

theorem calibrationLine_lastWhite (h : c.stage = .white 7) :
    calibrationLine c samples s = endCalibration c.black ((addSums c.sums samples).map meanLevel) s := by
  unfold calibrationLine
  rw [h]
  rfl

end Lines

/-- A calibration's end (R42): the image stored in place of the active copy, the map of defective pixels rebuilt, the reply
filled, CAL_DONE raised. -/
theorem endCalibration_eq (black white : List Byte) (s : State) :
    let img := shadingImage black white
    let n := (defectiveOf img).length
    endCalibration black white s =
      raise evCalDone 0 0 (if 32 < n then 1 else 0)
        (fillReply .calibrating (if 32 < n then .calweak else .ok) (be16 n)
          { s with
            front := { s.front with lamp := false, cal := none, defective := defectiveOf img },
            tables := { s.tables with active := s.tables.active.set 1 (some img),
                                      pending := s.tables.pending.set 1 none } }) := by
  intro img n
  have weak : (decide (32 < n)).toNat = if 32 < n then 1 else 0 := by
    by_cases h : 32 < n <;> simp [h]
  have calweak : (if decide (32 < n) = true then Status.calweak else .ok) = if 32 < n then .calweak else .ok := by
    simp only [decide_eq_true_eq]
  rw [← weak, ← calweak]
  rfl

/-- Settles O17: the order taken in RUN, and a line's readout at each stage. -/
theorem calibrationStartsAndEnds : Obligations.CalibrationStartsAndEnds := by
  refine ⟨fun s ho hp hc hj hm => ?_, fun v s c hc => ?_⟩
  · obtain ⟨hr, hi, hb⟩ := ho
    show Host.Outcome.next (writeOrder 0x01 [] s) = _
    rw [writeOrder_ready hr hi hb rfl fun _ => by rw [hp]; decide]
    show Host.Outcome.next (restartIdle (settle (pushReply _ _ (orderCalibrate s).2 (orderCalibrate s).1))) = _
    rw [orderCalibrate_begins hc hj hm]
    rfl
  · rw [exec_readoutEnd_calibration hc]
    refine ⟨fun n hn h => ?_, fun h => ?_, fun n hn h => ?_, fun h => ?_⟩
    · rw [calibrationLine_goesOn (.inl rfl) h hn]
      rfl
    · rw [calibrationLine_lastDark h]
      rfl
    · rw [calibrationLine_goesOn (.inr rfl) h hn]
      rfl
    · rw [calibrationLine_lastWhite h, endCalibration_eq]
      rfl

/-! ## A scan line's readout (R21, R35) -/

/-- Settles O23: with no calibration the readout is that of the line in computation. -/
theorem readoutFillsReservedSlot : Obligations.ReadoutFillsReservedSlot := by
  intro v s c j hcal hcomp hj
  show Host.Outcome.next (settle (readoutEnds v s)) = _
  unfold readoutEnds lineRead
  rw [hcal, hcomp, hj]

/-! ## Timers (R41, R107, R145, R170) -/

theorem lampWarm_ends {s : State} {c : Calibration} (h : s.front.cal = some c) (hw : c.stage = .lampWait) :
    lampWarm s = mapFront (fun f => { f with cal := some { c with stage := .white 0 } }) s := by
  unfold lampWarm
  rw [h]
  exact if_pos hw

theorem holdExpires_holding {ch : Channel} {s : State} {n : Nat} (h : (motorOf ch s).state = .hold)
    (ht : (motorOf ch s).hold = some n) : holdExpires ch s = mapMotor ch Motor.release s :=
  if_pos ⟨h, by rw [ht]; rfl⟩

theorem tempExpired_noJob {s : State} {n : Nat} (h : s.temp.age = some n) (hj : s.prtJob = none) :
    tempExpired s = mapTemp (fun t => { t with fresh := false, age := none }) s := by
  unfold tempExpired
  simp only [h, mapTemp_prtJob, hj]

theorem idleExpires_idle {s : State} {n : Nat} (h : s.power.idleTimer = some n) (hi : idleConds s = true) :
    idleExpires s = enterDoze 7 0 s := by
  unfold idleExpires
  rw [h, hi]
  rfl

/-- Entering DOZE takes a channel from HOLD to OFF and leaves its place (R115). -/
theorem powerDown_place (m : Motor) : m.powerDown.phase = m.phase ∧ m.powerDown.pos = m.pos := by
  unfold Motor.powerDown
  split <;> exact ⟨rfl, rfl⟩

/-- The shadow taken at an entry to DOZE holds the channels' places as they were (R116). -/
theorem takeShadow_powerDown (s : State) : takeShadow (powerDownMotors s) = takeShadow s := by
  obtain ⟨phaseS, posS⟩ := powerDown_place s.motS
  obtain ⟨phaseP, posP⟩ := powerDown_place s.motP
  simp only [takeShadow, powerDownMotors, phaseS, posS, phaseP, posP]

theorem enterDoze_eq (mask : Byte) (timer : Nat) (s : State) :
    enterDoze mask timer s =
      { s with
        motS := s.motS.powerDown, motP := s.motP.powerDown,
        power := { s.power with state := .doze, mask := mask, wakeTimer := timerOf timer, idleTimer := none,
                                shadow := takeShadow s } } := by
  unfold enterDoze writeShadow
  rw [takeShadow_powerDown]
  rfl

/-- Settles O56: each timer where its condition stands. -/
theorem timersRunOut : Obligations.TimersRunOut := by
  intro s
  exact ⟨fun c h hw => congrArg Host.Outcome.next (lampWarm_ends h hw),
    fun ch n h ht => congrArg Host.Outcome.next (holdExpires_holding h ht),
    fun n h hj => congrArg Host.Outcome.next (tempExpired_noJob h hj),
    fun n h hi => congrArg Host.Outcome.next ((idleExpires_idle h hi).trans (enterDoze_eq 7 0 s))⟩

end Sys2Proof.Machine
end

section
/-! A scan's jam and the ending decision it takes (R122, R123, R125): the flags that work on pages can raise, and what the
decision leaves. -/

set_option Elab.async false

namespace Sys2Proof.Machine

/-! ## Flags through work on pages (R55, R63, R68, R83 to R86) -/

/-- Every flag stands but those that work on pages may raise: MEM_WAIT, PARITY and SCAN_PAGE. -/
structure FlagsStand (s t : State) : Prop where
  flag : ∀ f : Fin 20, f ≠ evMemWait → f ≠ evParity → f ≠ evScanPage → t.events.flags[f] = s.events.flags[f]

theorem FlagsStand.of_events {s t : State} (h : t.events = s.events) : FlagsStand s t := ⟨fun f _ _ _ => by rw [h]⟩

theorem FlagsStand.refl (s : State) : FlagsStand s s := .of_events rfl

theorem FlagsStand.trans {s t u : State} (h : FlagsStand s t) (k : FlagsStand t u) : FlagsStand s u :=
  ⟨fun f hm hp hs => (k.flag f hm hp hs).trans (h.flag f hm hp hs)⟩

theorem stand_ite {s t u : State} {p : Prop} [Decidable p] (h : FlagsStand s t) (k : FlagsStand s u) :
    FlagsStand s (if p then t else u) := by
  split
  · exact h
  · exact k

theorem stand_raise {f : Fin 20} (h : f = evMemWait ∨ f = evParity ∨ f = evScanPage) (p c r : Nat) (s : State) :
    FlagsStand s (raise f p c r s) := by
  refine ⟨fun g hm hp hs => raise_other f g p c r s ?_⟩
  rintro rfl
  exact h.elim hm (Or.elim · hp hs)

theorem stand_mapPmc (f : Pmc → Pmc) (s : State) : FlagsStand s (mapPmc f s) := .of_events rfl
theorem stand_mapDram (f : Memory → Memory) (s : State) : FlagsStand s (mapDram f s) := .of_events rfl
theorem stand_mapDir (f : Directory → Directory) (s : State) : FlagsStand s (mapDir f s) := .of_events rfl
theorem stand_mapScanJob (f : ScanJob → ScanJob) (s : State) : FlagsStand s (mapScanJob f s) := .of_events rfl
theorem stand_mapIntJob (f : IntakeJob → IntakeJob) (s : State) : FlagsStand s (mapIntJob f s) := .of_events rfl
theorem stand_setCoder (c : CoderCtx) (x : Coder) (s : State) : FlagsStand s (setCoder c x s) :=
  .of_events (setCoder_events c x s)

theorem positionReader_events (i b : Nat) (s : State) : (positionReader i b s).events = s.events := by
  unfold positionReader
  split
  · rfl
  · split <;> rfl

theorem allocate_events (c : CoderCtx) (s : State) : (allocate c s).events = s.events := by
  unfold allocate
  dsimp only
  split
  · rw [setCoder_events]
    split <;> rfl
  · rw [positionReader_events, mapEntry_events, setCoder_events]
    split <;> rfl

theorem stand_pumpAsk (c : CoderCtx) (s : State) : FlagsStand s (pumpAsk c s) := by
  unfold pumpAsk enterMemwait
  refine stand_ite (stand_ite ?_ (stand_ite ?_ (.refl s))) (.refl s)
  · exact (stand_setCoder c _ s).trans (stand_raise (.inl rfl) ..)
  · exact .of_events (allocate_events c s)

theorem stand_serveWaiters (s : State) : FlagsStand s (serveWaiters s) := by
  have one (c : CoderCtx) (u : State) : FlagsStand u (serveOne c u) := by
    unfold serveOne
    exact (stand_ite (stand_setCoder c _ u) (.refl u)).trans (stand_pumpAsk c _)
  exact (one .scan s).trans (one .intake _)

theorem stand_freeCurrent (b fill : Nat) (s : State) : FlagsStand s (freeCurrent b fill s) := by
  unfold freeCurrent
  exact (stand_mapPmc ..).trans (stand_serveWaiters _)

theorem stand_freeChain (a b k : Nat) (c : Option Nat) (s : State) : FlagsStand s (freeChain a b k c s) := by
  have checked : FlagsStand s (checkLink a s) := by
    unfold checkLink
    exact stand_ite (.refl s) (stand_raise (.inr (.inl rfl)) ..)
  unfold freeChain
  split
  · exact .refl s
  · exact ((stand_ite checked (.refl s)).trans (stand_mapPmc ..)).trans (stand_serveWaiters _)

theorem stand_dropEntry (e : Entry) (c : Option Nat) (s : State) : FlagsStand s (dropEntry e c s) := by
  unfold dropEntry removeEntry
  exact (stand_freeChain ..).trans (stand_mapDir ..)

theorem stand_idleCoder (c : CoderCtx) (s : State) : FlagsStand s (idleCoder c s) := by
  unfold idleCoder killGrant mapCoder
  exact (stand_setCoder ..).trans (stand_mapPmc ..)

theorem stand_settleEmpty (i : Nat) (s : State) : FlagsStand s (settleEmpty i s) := by
  unfold settleEmpty
  split
  · exact .refl s
  · exact stand_ite (stand_dropEntry ..) (.refl s)

theorem stand_settleChain (i : Nat) (c : Coder) (s : State) : FlagsStand s (settleChain i c s) := by
  unfold settleChain writeHeader mapEntry
  split
  · exact .refl s
  · exact (stand_mapDir ..).trans (stand_freeCurrent ..)
  · exact stand_ite (stand_mapDram ..) (((stand_mapDram ..).trans (stand_mapDir ..)).trans (stand_freeCurrent ..))

theorem stand_noteCompleted (c : CoderCtx) (i : Nat) (t q : Bool) (s : State) : FlagsStand s (noteCompleted c i t q s) := by
  cases c with
  | scan =>
    have noted := stand_mapScanJob (fun j => { j with lastCompleted := i }) s
    exact stand_ite noted (noted.trans (stand_raise (.inr (.inr rfl)) ..))
  | intake => exact stand_mapIntJob ..

theorem stand_completePage (c : CoderCtx) (t q : Bool) (s : State) : FlagsStand s (completePage c t q s) := by
  unfold completePage markComplete mapEntry
  dsimp only
  split
  · exact .refl s
  · exact ((((stand_idleCoder c s).trans (stand_settleChain ..)).trans (stand_mapDir ..)).trans
      (stand_noteCompleted ..)).trans (stand_settleEmpty ..)

theorem stand_beforeDrop (i : Nat) (r : Bool) (e : Entry) (s : State) : FlagsStand s (beforeDrop i r e s) := by
  have gone : FlagsStand s (printPageGone s) := .of_events rfl
  have idled (c : CoderCtx) (p : Prop) [Decidable p] (u : State) : FlagsStand u (if p then idleCoder c u else u) :=
    stand_ite (stand_idleCoder c u) (.refl u)
  unfold beforeDrop clearReader mapEntry
  exact (((stand_ite gone (.refl s)).trans (stand_mapDir ..)).trans (idled .scan _ _)).trans (idled .intake _ _)

theorem stand_discardPage (i : Nat) (r : Bool) (s : State) : FlagsStand s (discardPage i r s) := by
  cases h : entryOf i s with
  | none =>
    unfold discardPage
    rw [h]
    exact .refl s
  | some e =>
    obtain ⟨cur, dropped⟩ := discardPage_eq (r := r) h
    rw [dropped]
    exact (stand_beforeDrop ..).trans (stand_dropEntry ..)

theorem stand_discardWritten (c : CoderCtx) (s : State) : FlagsStand s (discardWritten c s) := by
  unfold discardWritten
  split
  · exact .refl s
  · exact stand_discardPage ..

theorem stand_discardAll (r : Bool) (is : List Nat) :
    ∀ s : State, FlagsStand s (is.foldl (fun s i => discardPage i r s) s) := by
  induction is with
  | nil => exact .refl
  | cons i is ih => exact fun s => (stand_discardPage i r s).trans (ih _)

/-! ## The pages of a scan settled (R122) -/

section Settled
variable (how : ScanSettle) (p : Policy) (s : State)

theorem shell_settleWritten : Shell s (settleWritten how p s) := by
  cases how with
  | policy => exact shell_applyPolicy ..
  | keep => exact shell_completePage ..
  | drop => exact shell_discardWritten ..
  | leave => exact .refl s

theorem shell_settleScanPages : Shell s (settleScanPages how p s) := by
  cases how with
  | policy | keep | drop => exact (shell_settleWritten ..).trans (shell_discardWaiting ..)
  | leave => exact .refl s

theorem beside_settleWritten : Beside s (settleWritten how p s) := by
  cases how with
  | policy => exact beside_applyPolicy ..
  | keep => exact beside_completePage ..
  | drop => exact beside_discardWritten ..
  | leave => exact .refl s

theorem beside_settleScanPages : Beside s (settleScanPages how p s) := by
  cases how with
  | policy | keep | drop => exact (beside_settleWritten ..).trans (beside_discardWaiting ..)
  | leave => exact .refl s

theorem stand_settleWritten : FlagsStand s (settleWritten how p s) := by
  cases how with
  | policy =>
    cases p with
    | discard => exact stand_discardWritten ..
    | truncate => exact stand_completePage ..
  | keep => exact stand_completePage ..
  | drop => exact stand_discardWritten ..
  | leave => exact .refl s

theorem stand_settleScanPages : FlagsStand s (settleScanPages how p s) := by
  cases how with
  | policy | keep | drop => exact (stand_settleWritten ..).trans (stand_discardAll ..)
  | leave => exact .refl s

end Settled

/-! ## The ending decision (R122) -/

/-- A scan has taken its ending decision: the job of `t` stands in ENDING with the reason and the DOC_HELD cause given, nothing
is held for a sheet to come, the Scan Ring is empty, and channel S has been asked to stop. -/
structure ScanDecided (reason : Nat) (held : Option (Nat × Nat)) (s t : State) : Prop where
  job    : ∃ j, t.scanJob = some j ∧ j.phase = .ending ∧ j.endReason = reason ∧ j.pause = false ∧ j.docHeld = held
  ring   : t.rings.scan.occ = 0 ∧ t.rings.scanReserved = 0 ∧ t.front.comp = none
  places : t.dir.places = 0
  wait   : t.scanCd.dirWait = none
  motor  : t.motS = s.motS.stop 0
  flags  : FlagsStand s t

/-- Work on pages leaves the job's ending as decided. -/
theorem Beside.ending {s t : State} (h : Beside s t) {j : ScanJob} (hj : s.scanJob = some j) :
    ∃ k, t.scanJob = some k ∧ k.phase = j.phase ∧ k.endReason = j.endReason ∧ k.pause = j.pause ∧ k.docHeld = j.docHeld := by
  have present : t.scanJob ≠ none := fun x => nomatch hj.symm.trans ((map_none h.scanJob).2 x)
  obtain ⟨k, hk⟩ := Option.ne_none_iff_exists'.1 present
  obtain ⟨i, hi, same⟩ := job_same h.scanJob hk
  obtain rfl := Option.some.inj (hj.symm.trans hi)
  rw [same] at hk
  exact ⟨_, hk, rfl, rfl, rfl, rfl⟩

theorem scanDecision_decided {how : ScanSettle} (hw : how ≠ .leave) (reason : Nat) (held : Option Nat) {s : State} {j : ScanJob}
    (hj : s.scanJob = some j) :
    ScanDecided reason (held.map fun r => (r, s.scanCd.page.getD 0)) s (scanDecision reason how held s) := by
  unfold scanDecision
  rw [hj]
  dsimp only
  rw [if_neg hw, if_neg hw]
  generalize hu : ({ s with scanJob := some _ } : State) = u
  have settled := beside_settleScanPages how j.policy u
  have shell := shell_settleScanPages how j.policy u
  have flags := stand_settleScanPages how j.policy u
  subst hu
  obtain ⟨k, job, ending⟩ := settled.ending rfl
  exact ⟨⟨k, job, ending⟩, ⟨rfl, rfl, rfl⟩, rfl, rfl, congrArg (Motor.stop · 0) shell.motS, ⟨flags.flag⟩⟩

/-! ## A jam (R123, R125) -/

theorem cutOff_jam (m : Motor) : (m.cutOff byJam).causes.jam = true := by
  unfold Motor.cutOff
  dsimp only
  split <;> exact Bool.or_true _

theorem cutOff_pos (m : Motor) (add : Causes) : (m.cutOff add).pos = m.pos := by
  unfold Motor.cutOff
  dsimp only
  split <;> rfl

/-- A channel in FAULT takes no stop request. -/
theorem stop_fault {m : Motor} (h : m.state = .fault) (q : Nat) : m.stop q = m := by
  unfold Motor.stop
  split
  · rw [if_neg]
    rintro ⟨moving, -⟩
    rw [h] at moving
    exact moving.elim nofun nofun
  all_goals rfl

/-- A flag raised while clear takes the snapshot given. -/
theorem raise_snapshot {f : Fin 20} {s : State} (h : (s.events.flags[f]).set = false) (page chan reason : Nat) :
    let g := (raise f page chan reason s).events.flags[f]
    g.page = page ∧ g.chan = chan ∧ g.reason = reason ∧ g.again = false := by
  have posted : (raise f page chan reason s).events.flags[f] = _ := post_flag s.events f _
  have taken (p c r : Nat) : (s.events.flags[f]).raised p c r =
      { s.events.flags[f] with set := true, again := false, page := p, chan := c, reason := r } := by
    unfold EventFlag.raised
    rw [h]
    rfl
  rw [posted, taken]
  exact ⟨rfl, rfl, rfl, rfl⟩

/-- A jam found under a job: the ending decision with reason 3 and the channel in FAULT where it stood. -/
theorem scanJam_jammed {s : State} {j : ScanJob} (hj : s.scanJob = some j) (page reason : Nat) :
    ScanJammed page reason s (scanJam page reason s) ∧ (scanJam page reason s).motS.pos = s.motS.pos := by
  have decided := scanDecision_decided (how := .policy) nofun 3 none
    (s := { raise evJam page 1 reason s with motS := s.motS.cutOff byJam }) hj
  have motor : (scanJam page reason s).motS = s.motS.cutOff byJam := decided.motor.trans (stop_fault (cutOff_fault ..) 0)
  have flag : (scanJam page reason s).events.flags[evJam] = (raise evJam page 1 reason s).events.flags[evJam] :=
    decided.flags.flag evJam (by decide) (by decide) (by decide)
  obtain ⟨k, job, phase, end3, -, held⟩ := decided.job
  obtain ⟨occ, reserved, comp⟩ := decided.ring
  refine ⟨⟨⟨k, job, phase, end3, held⟩, ?_, ?_, occ, reserved, comp, decided.places, ?_, fun clear => ?_⟩, ?_⟩
  · rw [motor, cutOff_fault]
  · rw [motor, cutOff_jam]
  · rw [flag]
    exact raise_set ..
  · rw [flag]
    exact raise_snapshot clear page 1 reason
  · rw [motor, cutOff_pos]

end Sys2Proof.Machine
end

section
/-! The steps of channel S under a scan: the leading edge, the steps of a sheet, the line boundaries (R22, R123 to R129). -/

set_option Elab.async false

namespace Sys2Proof.Machine

/-! ## A step under the job (R100, R123) -/

/-- Channel S with its next step issued. -/
def issuedS (s : State) : Motor := s.motS.issue (rampTable .S s) (phaseCount (phaseTable .S s))

section Steps
variable {s : State} {j : ScanJob} {first : Bool}

theorem lineOpen_job (hj : s.scanJob = some j) : lineOpen s = (s.front.comp.isSome && boundaryNext j s) := by
  unfold lineOpen
  rw [hj]
  rfl

/-- A line is open only where the next step is a boundary of LEAD or CAPTURE. -/
theorem lineOpen_search (hj : s.scanJob = some j) (hp : j.phase = .search) : lineOpen s = false := by
  rw [lineOpen_job hj]
  simp [boundaryNext, hp]

theorem lineOpen_inner (hj : s.scanJob = some j) (h : j.stepCount + 1 ≠ setLead s + 1 + j.y * j.fig.m) :
    lineOpen s = false := by
  rw [lineOpen_job hj]
  simp [boundaryNext, h]

theorem lineOpen_shut (hj : s.scanJob = some j) (h : s.front.comp = none) : lineOpen s = false := by
  rw [lineOpen_job hj, h]
  rfl

theorem lineOpen_reading (hj : s.scanJob = some j) (hp : j.phase = .lead ∨ j.phase = .capture)
    (h : j.stepCount + 1 = setLead s + 1 + j.y * j.fig.m) (hc : s.front.comp ≠ none) : lineOpen s = true := by
  have reading : s.front.comp.isSome = true := Option.isSome_iff_ne_none.2 hc
  rw [lineOpen_job hj, reading]
  rcases hp with hp | hp <;> simp [boundaryNext, hp, h]

theorem lineOpen_idle (hj : s.scanJob = some j) (hp : j.phase = .dirwait ∨ j.phase = .runout ∨ j.phase = .ending) :
    lineOpen s = false := by
  rw [lineOpen_job hj]
  rcases hp with hp | hp | hp <;> simp [boundaryNext, hp]

theorem exec_scanStep {lv : Levels} (ho : s.motS.owner = .scan) (hm : s.motS.moving = true) (hd : s.motS.stepDue = true) :
    exec (.motorStep .S lv) s = .next (settle (if lineOpen s then sense lv s else scanStep false (sense lv s))) := by
  show Host.Outcome.next (settle (stepFalls .S (sense lv s))) = _
  have falls : ((motorOf .S (sense lv s)).moving && (motorOf .S (sense lv s)).stepDue) = true := by
    show (s.motS.moving && s.motS.stepDue) = true
    rw [hm, hd]
    rfl
  have owner : (motorOf .S (sense lv s)).owner = .scan := ho
  unfold stepFalls
  rw [if_pos falls, owner]
  rfl

theorem scanStep_search (hj : s.scanJob = some j) (hp : j.phase = .search) : scanStep first s = searchStep j s := by
  unfold scanStep
  simp only [hj, hp]

theorem scanStep_page (hj : s.scanJob = some j) (hp : j.phase = .lead ∨ j.phase = .capture) :
    scanStep first s = pageStep first j s := by
  unfold scanStep
  rcases hp with hp | hp <;> simp only [hj, hp]

theorem scanStep_idle (hj : s.scanJob = some j) (hp : j.phase = .dirwait ∨ j.phase = .runout ∨ j.phase = .ending) :
    scanStep first s = issueStep .S s := by
  unfold scanStep
  rcases hp with hp | hp | hp <;> simp only [hj, hp]

/-! ## SEARCH (R123, R124) -/

/-- The state with a step of SEARCH issued and counted. -/
def searched (j : ScanJob) (s : State) : State :=
  { s with motS := issuedS s, scanJob := some { j with searchCount := j.searchCount + 1 } }

/-- The sheet's leading edge found at a step of SEARCH: a new entry for the place held, LEAD begun (R124). -/
def edgeFound (j : ScanJob) (s : State) : State :=
  { s with
    motS := issuedS s,
    dir := { entries := s.dir.entries ++ [Entry.new (newId s) j.purpose j.res .scan], places := 0, nextId := idAfter (newId s) },
    scanJob := some { j with searchCount := j.searchCount + 1, pageCount := j.pageCount + 1, stepCount := 0,
                             trailing := none, y := 0, phase := .lead } }

theorem searchStep_edge (h : s.lines.doce = true) : searchStep j s = edgeFound j s := if_pos h

/-- With DOCE low the search goes on, unless the step brought it to JAMSTEPS. -/
theorem searchStep_dark (h : s.lines.doce = false) :
    searchStep j s = if setJamSteps s ≤ j.searchCount + 1 then scanJam 0 1 (searched j s) else searched j s := by
  have dark : ¬ (searched j s).lines.doce = true := by
    show ¬ s.lines.doce = true
    simp [h]
  exact if_neg dark

theorem searchStep_goesOn (h : s.lines.doce = false) (hn : j.searchCount + 1 < setJamSteps s) :
    searchStep j s = searched j s :=
  (searchStep_dark h).trans (if_neg (Nat.not_le.2 hn))

theorem searchStep_jammed (h : s.lines.doce = false) (hn : setJamSteps s ≤ j.searchCount + 1) :
    ScanJammed 0 1 s (searchStep j s) ∧ (searchStep j s).motS.pos = (issuedS s).pos := by
  rw [searchStep_dark h, if_pos hn]
  exact scanJam_jammed (s := searched j s) rfl 0 1

/-! ## LEAD and CAPTURE (R125, R128) -/

/-- The job with the present step of its sheet counted, DOCE sampled for the trailing edge. -/
def ScanJob.sampled (j : ScanJob) (l : Lines) : ScanJob :=
  { j with stepCount := j.stepCount + 1,
           trailing := if j.trailing = none ∧ l.doce = false then some (j.stepCount + 1) else j.trailing }

theorem pageStep_eq :
    pageStep first j s =
      if j.stepCount + 1 = setLead s + 1 + j.y * j.fig.m then
        boundaryStep first (j.sampled s.lines) { s with scanJob := some (j.sampled s.lines) }
      else { s with motS := issuedS s, scanJob := some (j.sampled s.lines) } := by
  have trailing : (if (j.trailing.isNone && !s.lines.doce) = true then some (j.stepCount + 1) else j.trailing)
      = if j.trailing = none ∧ s.lines.doce = false then some (j.stepCount + 1) else j.trailing := by
    simp only [Bool.and_eq_true, Option.isNone_iff_eq_none, Bool.not_eq_true']
  unfold pageStep ScanJob.sampled
  rw [← trailing]
  rfl

end Steps

/-! ## The page tables at line 0 (R22) -/

/-- Tables 1 to 7 taken into use where they are in `ids`: their copies, the map of defective pixels and the flags may change. -/
structure PageTables (ids : List (Fin 14)) (s t : State) : Prop where
  frame  : t = { s with tables := t.tables, front := { s.front with defective := t.front.defective }, events := t.events }
  copies : ∀ id : Fin 14,
    if id ∈ ids ∧ s.tables.pending[id] ≠ none then
      t.tables.active[id] = s.tables.pending[id] ∧ t.tables.pending[id] = none
    else t.tables.active[id] = s.tables.active[id] ∧ t.tables.pending[id] = s.tables.pending[id]

/-- A table that is neither phase table moves no channel. -/
theorem applyPending_frame_page {k : Fin 14} (hS : k ≠ tSphase) (hP : k ≠ tPphase) (s : State) :
    applyPending k s =
      { s with tables := (applyPending k s).tables,
               front := { s.front with defective := (applyPending k s).front.defective },
               events := (applyPending k s).events } := by
  cases h : s.tables.pending[k] with
  | none => rw [applyPending_none h]
  | some img =>
    have front : (if k = tShading then { s.front with defective := defectiveOf img } else s.front)
        = { s.front with defective := if k = tShading then defectiveOf img else s.front.defective } := by
      split <;> rfl
    rw [applyPending_some h, setActive_eq, if_neg hS, if_neg hP, front]
    rfl

theorem pageTables_applyAll {ids : List (Fin 14)} (hids : ∀ k ∈ ids, k ≠ tSphase ∧ k ≠ tPphase) :
    ∀ s : State, PageTables ids s (applyAll ids s) := by
  induction ids with
  | nil =>
    refine fun s => ⟨rfl, fun id => ?_⟩
    rw [if_neg (fun h => nomatch h.1)]
    exact ⟨rfl, rfl⟩
  | cons k ids ih =>
    intro s
    obtain ⟨⟨hS, hP⟩, hrest⟩ := List.forall_mem_cons.1 hids
    have one := applyPending_frame_page hS hP s
    obtain ⟨frame, copies⟩ := ih hrest (applyPending k s)
    have steps : applyAll (k :: ids) s = applyAll ids (applyPending k s) := rfl
    rw [steps]
    refine ⟨?_, fun id => ?_⟩
    · rw [frame, one]
    · have rest := copies id
      by_cases hid : id = k
      · subst hid
        cases h : s.tables.pending[id] with
        | none =>
          rw [applyPending_none h] at rest ⊢
          rw [if_neg (fun x => x.2 h)] at rest
          rw [if_neg (fun x => x.2 rfl), ← h]
          exact rest
        | some img =>
          obtain ⟨active, pending, -⟩ := applyPending_own (id := id) (s := s) (by simp [h])
          rw [if_neg (fun x => x.2 pending), active, pending, h] at rest
          rw [if_pos ⟨List.mem_cons_self, nofun⟩]
          exact rest
      · obtain ⟨active, pending⟩ := applyPending_other hid s
        rw [active, pending] at rest
        simpa only [List.mem_cons, hid, false_or] using rest

/-- The state as a line's boundary opens: at line 0 the page tables taken and the error row cleared (R22). -/
def pageOpened (y : Nat) (s : State) : State := if y = 0 then pageStart s else s

/-- What the opening of a line may change: the tables with what follows from them, and the error row. -/
structure Opened (y : Nat) (s t : State) : Prop where
  frame  : t = { s with tables := t.tables, events := t.events,
                        front := { s.front with defective := t.front.defective, errorRow := t.front.errorRow } }
  row    : t.front.errorRow = if y = 0 then List.replicate 1728 0 else s.front.errorRow
  later  : y ≠ 0 → t.tables = s.tables ∧ t.front.defective = s.front.defective
  copies : y = 0 → ∀ id : Fin 14,
    if id ∈ scanTables ∧ s.tables.pending[id] ≠ none then
      t.tables.active[id] = s.tables.pending[id] ∧ t.tables.pending[id] = none
    else t.tables.active[id] = s.tables.active[id] ∧ t.tables.pending[id] = s.tables.pending[id]

theorem opened_pageOpened (y : Nat) (s : State) : Opened y s (pageOpened y s) := by
  unfold pageOpened
  split
  · next h =>
    obtain ⟨frame, copies⟩ := pageTables_applyAll (ids := scanTables) (by decide) s
    unfold pageStart
    generalize applyAll scanTables s = u at frame copies
    refine ⟨?_, ?_, fun hn => absurd h hn, fun _ => copies⟩
    · rw [frame]
    · rw [if_pos h]
  · next h =>
    refine ⟨rfl, ?_, fun _ => ⟨rfl, rfl⟩, fun h' => absurd h' h⟩
    rw [if_neg h]

section Opened
variable {y : Nat} {s t : State} (h : Opened y s t)
include h

theorem Opened.lines : t.lines = s.lines := by rw [h.frame]
theorem Opened.port : t.port = s.port := by rw [h.frame]
theorem Opened.rings : t.rings = s.rings := by rw [h.frame]
theorem Opened.scanCd : t.scanCd = s.scanCd := by rw [h.frame]
theorem Opened.dram : t.dram = s.dram := by rw [h.frame]
theorem Opened.dir : t.dir = s.dir := by rw [h.frame]
theorem Opened.motS : t.motS = s.motS := by rw [h.frame]

/-- The tables that are none of the page's stand. -/
theorem Opened.active {id : Fin 14} (hid : id ∉ scanTables) : t.tables.active[id] = s.tables.active[id] := by
  by_cases hy : y = 0
  · have copy := h.copies hy id
    rw [if_neg (fun x => hid x.1)] at copy
    exact copy.1
  · rw [(h.later hy).1]

theorem Opened.settings : settingsImage t = settingsImage s := by
  unfold settingsImage
  rw [h.active (by decide)]

theorem Opened.setTail : setTail t = setTail s := congrArg (wordAt · 12) h.settings
theorem Opened.setMemWait : setMemWait t = setMemWait s := congrArg (byteAt · 5) h.settings

theorem Opened.rampTable : rampTable .S t = rampTable .S s := congrArg (·.getD []) (h.active (id := tSramp) (by decide))
theorem Opened.phaseTable : phaseTable .S t = phaseTable .S s := congrArg (·.getD []) (h.active (id := tSphase) (by decide))

end Opened

/-! ## A line's start (R125, R126, R128) -/

/-- Is a stop decided at the boundary (R126)? Not at the first step of a run restarting. -/
def boundaryStops (first : Bool) (j : ScanJob) (s : State) : Bool :=
  !first && decide (scanFree s - 1 ≤ j.fig.margin) && !s.motS.stopping

/-- Channel S after the boundary's step: stopped first where a stop is decided, then issued. -/
def boundaryIssued (first : Bool) (j : ScanJob) (s : State) : Motor :=
  (if boundaryStops first j s then s.motS.stop (boundaryStop j s.motS) else s.motS).issue (rampTable .S s)
    (phaseCount (phaseTable .S s))

/-- The ring's tail slot reserved for the line (R46, R125). -/
def slotReserved (s : State) : State :=
  mapRings (fun r => { r with scan := r.scan.reserve, scanReserved := r.scanReserved + 1 }) s

/-- The job and the computation of a line that starts, put to a state (R22, R128). -/
def lineMarked (j : ScanJob) (stop last : Bool) (s : State) : State :=
  { s with scanJob := some { j with phase := .capture, y := j.y + 1, pause := j.pause || stop },
           front := { s.front with comp := some { y := j.y, last := last }, ditherRow := j.y % 4, ditherCol := 0 } }

/-- The state with the line of job `j` started, its boundary opened, before what a closing boundary does. -/
def lineStarted (first : Bool) (j : ScanJob) (s : State) : State :=
  lineMarked j (boundaryStops first j s) (lastMark j j.stepCount (setTail s))
    { slotReserved s with motS := boundaryIssued first j s }

theorem boundaryStep_jams {first : Bool} {j : ScanJob} {s : State} (h : j.y = setMaxLines s) :
    boundaryStep first j s = scanJam (sheetPage s) 2 s := if_pos h

theorem issueStep_boundary (first : Bool) (j : ScanJob) (s : State) :
    issueStep .S (if boundaryStops first j s then
        { slotReserved s with motS := s.motS.stop (boundaryStop j s.motS) } else slotReserved s) =
      { slotReserved s with motS := boundaryIssued first j s } := by
  unfold boundaryIssued
  split <;> rfl

/-- The line of job `j` started in an opened state, with what the closing boundary does where the line is the page's last. -/
def lineOutcome (first : Bool) (j : ScanJob) (s : State) : State :=
  if lastMark j j.stepCount (setTail s) then closingBoundary (lineStarted first j s) else lineStarted first j s

theorem boundaryStep_starts {first : Bool} {j : ScanJob} {s : State} (h : j.y ≠ setMaxLines s) :
    boundaryStep first j s = lineOutcome first j (pageOpened j.y s) := by
  unfold lineOutcome lineStarted
  rw [← issueStep_boundary]
  exact if_neg h

/-! ## The closing boundary (R129) -/

section Closing
variable {s : State} {j : ScanJob}

theorem closingBoundary_next (hj : s.scanJob = some j) (hd : s.lines.docp = true) (hl : j.pageCount < j.pageLimit)
    (hr : s.dir.entries.length + s.dir.places < 32) :
    closingBoundary s =
      { s with dir := { s.dir with places := s.dir.places + 1 },
               scanJob := some { j with phase := .search, searchCount := 0 } } := by
  have room : hasRoom s = true := decide_eq_true hr
  unfold closingBoundary
  rw [hj]
  dsimp only
  rw [if_pos ⟨hd, hl⟩, if_pos room]

theorem closingBoundary_waits (hj : s.scanJob = some j) (hd : s.lines.docp = true) (hl : j.pageCount < j.pageLimit)
    (hr : 32 ≤ s.dir.entries.length + s.dir.places) :
    closingBoundary s =
      enterDirwait .scan { s with scanJob := some { j with phase := .dirwait }, motS := s.motS.stop 0 } := by
  have full : ¬ hasRoom s = true := by
    unfold hasRoom
    rw [decide_eq_true_iff]
    exact Nat.not_lt.2 hr
  unfold closingBoundary
  rw [hj]
  dsimp only
  rw [if_pos ⟨hd, hl⟩, if_neg full]

theorem closingBoundary_runout (hj : s.scanJob = some j) (h : s.lines.docp = false ∨ j.pageLimit ≤ j.pageCount) :
    closingBoundary s = { s with scanJob := some { j with phase := .runout }, motS := s.motS.stop 0 } := by
  have ended : ¬ (s.lines.docp = true ∧ j.pageCount < j.pageLimit) := by
    rintro ⟨hd, hl⟩
    rcases h with h | h
    · exact absurd hd (by simp [h])
    · omega
  unfold closingBoundary
  rw [hj]
  dsimp only
  rw [if_neg ended]

end Closing

/-- What the closing boundary leaves alone. -/
theorem closingBoundary_frame (s : State) :
    (closingBoundary s).rings = s.rings ∧ (closingBoundary s).front = s.front ∧ (closingBoundary s).tables = s.tables
      ∧ (closingBoundary s).dir.entries = s.dir.entries ∧ (closingBoundary s).dram = s.dram
      ∧ (closingBoundary s).port = s.port := by
  unfold closingBoundary
  split
  · exact ⟨rfl, rfl, rfl, rfl, rfl, rfl⟩
  · split
    · split
      · exact ⟨rfl, rfl, rfl, rfl, rfl, rfl⟩
      · exact ⟨rfl, rfl, rfl, rfl, rfl, rfl⟩
    · exact ⟨rfl, rfl, rfl, rfl, rfl, rfl⟩

/-! ## A line starts as the rules give -/

section Started
variable {first : Bool} {j : ScanJob} {y : Nat} {s u : State} (h : Opened y s u)
include h

theorem boundaryStops_opened : boundaryStops first j u = boundaryStops first j s := by
  unfold boundaryStops scanFree
  rw [h.rings, h.motS]

theorem boundaryIssued_opened : boundaryIssued first j u = boundaryIssued first j s := by
  unfold boundaryIssued
  rw [boundaryStops_opened h, h.motS, h.rampTable, h.phaseTable]

end Started

section Outcome
variable {first : Bool} {j : ScanJob} {s : State}

theorem lineOutcome_plain (h : lastMark j j.stepCount (setTail s) = false) : lineOutcome first j s = lineStarted first j s := by
  unfold lineOutcome
  rw [h]
  rfl

theorem lineOutcome_closing (h : lastMark j j.stepCount (setTail s) = true) :
    lineOutcome first j s = closingBoundary (lineStarted first j s) := if_pos h

theorem lineOutcome_frame :
    let t := lineOutcome first j s
    let v := lineStarted first j s
    t.rings = v.rings ∧ t.front = v.front ∧ t.tables = v.tables ∧ t.dir.entries = v.dir.entries ∧ t.dram = v.dram
      ∧ t.port = v.port := by
  unfold lineOutcome
  split
  · exact closingBoundary_frame _
  · exact ⟨rfl, rfl, rfl, rfl, rfl, rfl⟩

end Outcome

/-- A line started from `s`, its boundary opened, is as the rules give (R22, R125, R126, R128, R129). -/
theorem lineStarts_outcome (first : Bool) {j : ScanJob} {s u : State}
    (opened : Opened j.y { s with scanJob := some (j.sampled s.lines) } u) :
    LineStarts first j s.motS s.lines s (lineOutcome first (j.sampled s.lines) u) := by
  have lines : (lineStarted first (j.sampled s.lines) u).lines = s.lines := opened.lines
  have dir : (lineStarted first (j.sampled s.lines) u).dir = s.dir := opened.dir
  have coder : (lineStarted first (j.sampled s.lines) u).scanCd = s.scanCd := opened.scanCd
  have wait : setMemWait (lineStarted first (j.sampled s.lines) u) = setMemWait s := opened.setMemWait
  have stops := boundaryStops_opened (first := first) (j := j.sampled s.lines) opened
  obtain ⟨rings, front, tables, entries, dram, port⟩ := lineOutcome_frame (first := first) (j := j.sampled s.lines) (s := u)
  unfold LineStarts
  intro n trailing last stop q stepped started
  have marked : lastMark (j.sampled s.lines) (j.sampled s.lines).stepCount (setTail u) = last := by
    rw [opened.setTail]
    rfl
  have issued : (lineStarted first (j.sampled s.lines) u).motS = stepped := (boundaryIssued_opened opened).trans rfl
  have job : (lineStarted first (j.sampled s.lines) u).scanJob = some started := by
    show some { j.sampled s.lines with
      phase := .capture, y := j.y + 1, pause := j.pause || boundaryStops first (j.sampled s.lines) u } = _
    rw [stops]
    rfl
  refine ⟨?_, ?_, ?_, ?_, ?_, fun hy => ⟨?_, ?_⟩, fun hy id => ?_, ?_, ?_, ?_, fun hl => ?_,
    fun hl hd hp => ⟨fun hr => ?_, fun hr => ?_⟩, fun hl ho => ?_⟩
  · rw [rings, ← opened.rings]
    rfl
  · rw [front, ← marked]
    rfl
  · rw [front]
    rfl
  · rw [front]
    rfl
  · rw [front]
    exact opened.row
  · rw [tables]
    exact (opened.later hy).1
  · rw [front]
    exact (opened.later hy).2
  · rw [tables]
    exact opened.copies hy id
  · rw [entries, dir]
  · rw [dram]
    exact opened.dram
  · rw [port]
    exact opened.port
  · rw [lineOutcome_plain (marked.trans hl)]
    exact ⟨job, issued, dir, coder⟩
  · rw [lineOutcome_closing (marked.trans hl), closingBoundary_next job (lines ▸ hd) hp (by rwa [dir])]
    exact ⟨rfl, issued, congrArg (·.places + 1) dir, coder⟩
  · rw [lineOutcome_closing (marked.trans hl), closingBoundary_waits job (lines ▸ hd) hp (by rwa [dir])]
    refine ⟨rfl, congrArg (Motor.stop · 0) issued, congrArg Directory.places dir, ?_, raise_set ..⟩
    show { (lineStarted first (j.sampled s.lines) u).scanCd with
      dirWait := some (setMemWait (lineStarted first (j.sampled s.lines) u)) } = _
    rw [coder, wait]
  · rw [lineOutcome_closing (marked.trans hl), closingBoundary_runout job (lines ▸ ho)]
    exact ⟨rfl, congrArg (Motor.stop · 0) issued, dir, coder⟩

/-! ## The boundary steps of a run (R22, R125) -/

section Boundary
variable {first : Bool} {j : ScanJob} {s : State}

theorem pageStep_inner (h : j.stepCount + 1 ≠ setLead s + 1 + j.y * j.fig.m) :
    pageStep first j s = { s with motS := issuedS s, scanJob := some (j.sampled s.lines) } :=
  pageStep_eq.trans (if_neg h)

theorem pageStep_boundary (h : j.stepCount + 1 = setLead s + 1 + j.y * j.fig.m) :
    pageStep first j s = boundaryStep first (j.sampled s.lines) { s with scanJob := some (j.sampled s.lines) } :=
  pageStep_eq.trans (if_pos h)

theorem pageStep_starts (h : j.stepCount + 1 = setLead s + 1 + j.y * j.fig.m) (hy : j.y ≠ setMaxLines s) :
    LineStarts first j s.motS s.lines s (pageStep first j s) := by
  have starts : boundaryStep first (j.sampled s.lines) { s with scanJob := some (j.sampled s.lines) } = _ :=
    boundaryStep_starts hy
  rw [pageStep_boundary h, starts]
  exact lineStarts_outcome first (opened_pageOpened ..)

/-- At MAXLINES the boundary is a jam of the sheet's page, its step not issued (R125). -/
theorem pageStep_jammed (h : j.stepCount + 1 = setLead s + 1 + j.y * j.fig.m) (hy : j.y = setMaxLines s) :
    ScanJammed (sheetPage s) 2 s (pageStep first j s) ∧ (pageStep first j s).motS.pos = s.motS.pos := by
  have jams : boundaryStep first (j.sampled s.lines) { s with scanJob := some (j.sampled s.lines) } = _ :=
    boundaryStep_jams hy
  rw [pageStep_boundary h, jams]
  exact scanJam_jammed (s := { s with scanJob := some (j.sampled s.lines) }) rfl (sheetPage s) 2

end Boundary

/-- The page of a jam at MAXLINES is the newest FILLING one that the scan writes. -/
theorem sheetPage_newest {s : State} {pre post : List Entry} {e : Entry} (h : s.dir.entries = pre ++ e :: post)
    (hf : e.state = .filling) (hw : e.writer = some .scan)
    (newest : ∀ x ∈ post, x.state = .filling → x.writer ≠ some .scan) : sheetPage s = e.id := by
  have none_after : (post.filter fun e => e.state = .filling && e.writer = some CoderCtx.scan) = [] := by
    refine List.filter_eq_nil_iff.2 fun x hx => ?_
    simpa using newest x hx
  unfold sheetPage
  rw [h, List.filter_append, List.filter_cons_of_pos (by simp [hf, hw]), none_after, List.getLast?_append]
  rfl

/-- Settles O22: the boundary step jams at MAXLINES and starts its line short of it. -/
theorem scanLineBoundaries : Obligations.ScanLineBoundaries := by
  intro lv s j hj ho hm hd hp hc hn
  have shut : lineOpen s = false := lineOpen_shut hj hc
  have step : exec (.motorStep .S lv) s = .next (settle (pageStep false j (sense lv s))) := by
    rw [exec_scanStep ho hm hd, shut, ← scanStep_page (s := sense lv s) hj hp]
    rfl
  refine ⟨fun hy => ?_, fun hy => ⟨_, step, ?_⟩⟩
  · obtain ⟨jammed, pos⟩ := pageStep_jammed (first := false) (s := sense lv s) hn hy
    exact ⟨_, _, step, jammed, pos, fun pre post e h hf hw newest => sheetPage_newest h hf hw newest⟩
  · exact pageStep_starts (s := sense lv s) hn hy

end Sys2Proof.Machine
end

section
/-! The run given to channel S again after a pause, and the steps of a scan that are no line boundary (R123, R124, R127). -/

set_option Elab.async false

namespace Sys2Proof.Machine

/-! ## The restart after a pause (R127, R130) -/

/-- The job with its pause and its run owed taken back. -/
def ScanJob.going (j : ScanJob) : ScanJob := { j with pause := false, awaitRun := false }

/-- The state with a new run given to channel S, its first step still to be issued. -/
def restarted (j : ScanJob) (s : State) : State :=
  { s with motS := s.motS.beginRun (rampCount (rampTable .S s)) .scan false j.slewReq j.fig.slewUse none,
           scanJob := some j.going }

section Restart
variable {s : State} {j : ScanJob}

theorem settleScanRestart_waits (hj : s.scanJob = some j) (h : scanRestartDue j s = false) : settleScanRestart s = s := by
  unfold settleScanRestart
  simp only [hj, h]
  rfl

theorem settleScanRestart_goes (hj : s.scanJob = some j) (h : scanRestartDue j s = true) :
    settleScanRestart s = scanStep true (restarted j s) := by
  unfold settleScanRestart
  simp only [hj, h]
  rfl

theorem scanRestartDue_eq (hp : j.phase = .search ∨ j.phase = .lead ∨ j.phase = .capture)
    (ho : j.pause = true ∨ j.awaitRun = true) (hm : s.motS.atRest = true) :
    scanRestartDue j s = (decide (j.fig.restart ≤ scanFree s) && !lineOpen s) := by
  have phase : (j.phase = .search || j.phase = .lead || j.phase = .capture) = true := by
    rcases hp with h | h | h <;> rw [h] <;> rfl
  have owed : (j.pause || j.awaitRun) = true := Bool.or_eq_true_iff.2 ho
  unfold scanRestartDue
  rw [phase, owed, hm]
  simp only [Bool.true_and]

end Restart

/-- Settles O21: a moving scan's step by the phase it finds, and the restart as such a step of a new run. -/
theorem scanRunSteps : Obligations.ScanRunSteps := by
  intro s j hj n boundary paged edge
  refine ⟨fun lv ho hm hd => ?_, fun hp howed hm => ?_⟩
  · have step (hs : lineOpen s = false) : exec (.motorStep .S lv) s = .next (settle (scanStep false (sense lv s))) := by
      rw [exec_scanStep ho hm hd, hs]
      rfl
    have search (hp : j.phase = .search) : exec (.motorStep .S lv) s = .next (settle (searchStep j (sense lv s))) := by
      rw [step (lineOpen_search hj hp), scanStep_search (s := sense lv s) hj hp]
    refine ⟨fun h => ?_, fun hp h hn => ?_, fun hp h hn => ?_, fun hp h => ?_, fun hp hb => ?_, fun hp => ?_⟩
    · rw [exec_scanStep ho hm hd, h]
      rfl
    · rw [search hp, searchStep_goesOn (s := sense lv s) h hn]
      rfl
    · exact ⟨_, search hp, searchStep_jammed (s := sense lv s) h hn⟩
    · rw [search hp, searchStep_edge (s := sense lv s) h]
      rfl
    · have inner := of_decide_eq_false hb
      rw [step (lineOpen_inner hj inner), scanStep_page (s := sense lv s) hj hp,
        pageStep_inner (s := sense lv s) inner]
      rfl
    · rw [step (lineOpen_idle hj hp), scanStep_idle (s := sense lv s) hj hp]
      rfl
  · have due := scanRestartDue_eq hp howed hm
    have goes (hf : j.fig.restart ≤ scanFree s) (hs : lineOpen s = false) :
        settleScanRestart s = scanStep true (restarted j s) := by
      refine settleScanRestart_goes hj ?_
      rw [due, hs, decide_eq_true hf]
      rfl
    intro run m going
    refine ⟨fun hf => ?_, fun hf hp => ?_, fun hf hp => ?_⟩
    · refine settleScanRestart_waits hj ?_
      rw [due, decide_eq_false (Nat.not_le.2 hf)]
      rfl
    · have search : settleScanRestart s = searchStep j.going (restarted j s) :=
        (goes hf (lineOpen_search hj hp)).trans (scanStep_search rfl hp)
      rw [search]
      refine ⟨fun h hn => ?_, fun h hn => ?_, fun h => ?_⟩
      · exact searchStep_goesOn (s := restarted j s) h hn
      · exact searchStep_jammed (s := restarted j s) h hn
      · exact searchStep_edge (s := restarted j s) h
    · have page (hs : lineOpen s = false) : settleScanRestart s = pageStep true j.going (restarted j s) :=
        (goes hf hs).trans (scanStep_page rfl hp)
      refine ⟨fun hb => ?_, fun hb hc => ?_, fun hb hc hy => ?_, fun hb hc hy => ⟨sheetPage (restarted j s), ?_⟩⟩
      · have inner := of_decide_eq_false hb
        rw [page (lineOpen_inner hj inner)]
        exact pageStep_inner (s := restarted j s) inner
      · refine settleScanRestart_waits hj ?_
        rw [due, lineOpen_reading hj hp (of_decide_eq_true hb) hc]
        exact Bool.and_false _
      · rw [page (lineOpen_shut hj hc)]
        exact pageStep_starts (s := restarted j s) (of_decide_eq_true hb) hy
      · rw [page (lineOpen_shut hj hc)]
        exact pageStep_jammed (s := restarted j s) (of_decide_eq_true hb) hy

end Sys2Proof.Machine
end

section
/-! The Scan Ring's law under every command (R46), from the laws of ScanRingCommands. -/

set_option Elab.async false

namespace Sys2Proof.Machine

/-! ## The lines from outside -/

theorem ring_arbitrate {s : State} (h : RingSound s) : RingSound (arbitrate s) := ring_away h (away_arbitrate s)

theorem ring_sense (lv : Levels) {s : State} (h : RingSound s) : RingSound (sense lv s) := ring_away h (away_sense lv s)

theorem ring_ringRises {s : State} (h : RingSound s) : RingSound (ringRises s) := by
  unfold ringRises
  split
  · exact h
  · exact ring_wakeRise _ _ _ (ring_away h away_plain)

theorem ring_keyRises {s : State} (h : RingSound s) : RingSound (keyRises s) := by
  unfold keyRises
  split
  · exact h
  · exact ring_wakeRise _ _ _ (ring_away h away_plain)

theorem ring_docpRises {s : State} (h : RingSound s) : RingSound (docpRises s) := by
  unfold docpRises
  split
  · exact h
  · exact ring_away (ring_wakeRise _ _ _ (ring_away h away_plain)) (away_ite (away_raise ..) (.refl _))

theorem ring_wakeTimerExpires {s : State} (h : RingSound s) : RingSound (wakeTimerExpires s) := by
  unfold wakeTimerExpires
  split
  · exact ring_wakeEvent _ (ring_away h (away_mapPower ..))
  · exact h

theorem away_idleExpires (s : State) : Away s (idleExpires s) :=
  away_ite (away_ite (away_enterDoze ..) (away_setIdle ..)) (.refl s)

theorem ring_coverFalls {s : State} (h : RingSound s) : RingSound (coverFalls s) := by
  unfold coverFalls
  split
  · exact ring_coverOpened (ring_away h away_plain)
  · exact h

theorem ring_pfailLineRises {s : State} (h : RingSound s) : RingSound (pfailLineRises s) := by
  unfold pfailLineRises
  split
  · exact h
  · exact ring_pfailRises (ring_away h away_plain)

theorem ring_pfailLineFalls {s : State} (h : RingSound s) : RingSound (pfailLineFalls s) := by
  unfold pfailLineFalls
  split
  · dsimp only
    split
    · exact ring_coldStart _
    · exact ring_away h away_plain
  · exact h

theorem away_resetEnds (s : State) : Away s (resetEnds s) := away_ite (away_leaveReset s) (.refl s)

theorem away_resetReleased (s : State) : Away s (resetReleased s) := by
  unfold resetReleased
  split
  · exact Away.trans (t := { s with lines := { s.lines with reset := false } }) away_plain (away_resetEnds _)
  · exact .refl s

theorem away_holdExpires (ch : Channel) (s : State) : Away s (holdExpires ch s) := by
  unfold holdExpires
  split
  · exact away_mapMotor _ _ _ (.inl rfl)
  · exact .refl s

theorem away_refreshFalls (s : State) : Away s (refreshFalls s) := away_ite (.refl s) (away_mapPmc ..)

/-! ## Every command -/

/-- Every command keeps the law of the Scan Ring. -/
theorem ring_exec (i : Instr) {s : State} (p : PagesSound s) (h : RingSound s) : ∀ t, exec i s = .next t → RingSound t := by
  intro t ht
  cases i <;> injection ht with ht <;> subst ht
  case wstbStrobe w d lv => exact ring_ite (ring_strobe _ _ (ring_sense lv h)) (ring_sense lv h)
  case rstbStrobe cs => exact ring_ite (ring_readStrobe h) h
  case sleepEntry lv => exact ring_settle (ring_away (ring_sense lv h) (away_entryGoesOn _))
  case dramGrantEnd lv =>
    have sensed : PagesSound (sense lv s) := sound_keep p (keep_sense ..)
    exact ring_ite (ring_settle (ring_endGrant sensed (ring_sense lv h))) (ring_sense lv h)
  case refreshDue => exact ring_arbitrate (ring_away h (away_refreshFalls s))
  case coderLineStart c => exact ring_settle (ring_away h (away_coderStart ..))
  case memwaitExpiry c => exact ring_settle (ring_memExpire c h)
  case dirwaitExpiry c => exact ring_settle (ring_dirExpire c h)
  case decoderLineStart c => exact ring_settle (ring_away h (away_decoderStart ..))
  case readoutEnd v => exact ring_settle (ring_readoutEnds v h)
  case lampwarmExpiry => exact ring_away h (away_lampWarm s)
  case motorStep ch lv => exact ring_settle (ring_stepFalls ch (ring_sense lv h))
  case motionEnd ch lv => exact ring_settle (ring_away (ring_sense lv h) (away_motionEnds ..))
  case holdTimerExpiry ch => exact ring_away h (away_holdExpires ..)
  case headShiftEnd => exact ring_away h (away_headEvent ..)
  case strobeEnd => exact ring_away h (away_headEvent ..)
  case gapEnd => exact ring_settle (ring_away h (away_headEvent ..))
  case tempAgeExpiry => exact ring_away h (away_tempExpired s)
  case idleTimerExpiry => exact ring_away h (away_idleExpires s)
  case wakeTimerExpiry => exact ring_arbitrate (ring_wakeTimerExpires h)
  case ringRise => exact ring_arbitrate (ring_ringRises h)
  case keyRise => exact ring_arbitrate (ring_keyRises h)
  case docpRise => exact ring_arbitrate (ring_docpRises h)
  case runReached lv =>
    exact ring_ite (ring_settle (ring_dispatchHeld (ring_away (ring_sense lv h) (away_runReached _)))) (ring_sense lv h)
  case coverOpen => exact ring_settle (ring_coverFalls h)
  case pfailRise => exact ring_settle (ring_pfailLineRises h)
  case pfailFall => exact ring_pfailLineFalls h
  case powerOn lv d => exact ring_cold ..
  case resetAssert => exact ring_coldStart _
  case resetRelease lv => exact ring_settle (ring_away (ring_sense lv h) (away_resetReleased _))
  case resetStateEnd lv => exact ring_settle (ring_away (ring_sense lv h) (away_ite (away_resetEnds _) (.refl _)))
  case romRecord k b n q => exact ring_ite (ring_settle (ring_romRecord _ _ _ _ h)) h
  case scan => exact ring_writeRecord _ (ring_sense _ h)
  case print => exact ring_writeRecord _ (ring_sense _ h)
  case resume => exact ring_writeRecord _ (ring_sense _ h)
  case temp => exact ring_writeRecord _ (ring_sense _ h)
  all_goals exact ring_writeRecord _ h

/-- Settles O9: every command keeps the accounting, which holds the bound where R46's argument reaches. -/
theorem scanRingKeepsItsBound : Obligations.ScanRingKeepsItsBound := by
  intro s t p h k
  have sound : RingSound t := by
    rcases step_front k with rfl | ⟨c, r, -, hc⟩
    · exact h
    · exact ring_exec c (p.queue r) (h.queue r) t hc
  exact ⟨sound, sound.one, fun none => (sound.idle none).1,
    fun j hj rh slew steps => sound.bound j hj ⟨rh, slew, steps⟩⟩

end Sys2Proof.Machine
end

section
/-! The line code (R52, R53, R58): a line's dots and bytes as numbers, its units read back, its form and its length. -/

set_option Elab.async false

namespace Sys2Proof.Machine

/-! ## A line's dots and bytes as numbers -/

/-- The number that dots spell after those already in `acc`, first dot most significant. -/
def dotsNat (acc : Nat) (ds : List Bool) : Nat := ds.foldl (fun n d => 2 * n + d.toNat) acc

@[simp] theorem dotsNat_nil (acc : Nat) : dotsNat acc [] = acc := rfl

@[simp] theorem dotsNat_cons (acc : Nat) (d : Bool) (ds : List Bool) :
    dotsNat acc (d :: ds) = dotsNat (2 * acc + d.toNat) ds := rfl

theorem dotsNat_append (acc : Nat) (as bs : List Bool) : dotsNat acc (as ++ bs) = dotsNat (dotsNat acc as) bs :=
  List.foldl_append ..

/-- A run of one colour is what `putDots` puts after the dots so far. -/
theorem putDots_eq_dotsNat (c : Bool) (n acc : Nat) : putDots c n acc = dotsNat acc (List.replicate n c) := by
  induction n generalizing acc with
  | zero => cases c <;> simp [putDots]
  | succ n ih =>
    rw [List.replicate_succ, dotsNat_cons, ← ih]
    cases c
    · simp only [putDots, Bool.false_eq_true, if_false, Bool.toNat_false, Nat.add_zero]
      ring
    · simp only [putDots, if_true, Bool.toNat_true]
      congr 1
      ring

theorem toNat_shiftRight_width {w : Nat} (x : BitVec w) : x.toNat >>> w = 0 := by
  rw [Nat.shiftRight_eq_div_pow]
  exact Nat.div_eq_of_lt x.isLt

theorem shiftRight_eq_twice_add_testBit (x m : Nat) : x >>> m = 2 * (x >>> (m + 1)) + (x.testBit m).toNat := by
  rw [Nat.shiftRight_succ, Nat.toNat_testBit, ← Nat.shiftRight_eq_div_pow]
  omega

/-- The first `k` dots of a line spell its word's upper bits. -/
theorem dotsNat_dots (l : Line) : ∀ k ≤ 1728, dotsNat 0 ((List.range k).map (dotOf l)) = l.toNat >>> (1728 - k) := by
  intro k
  induction k with
  | zero => exact fun _ => (toNat_shiftRight_width l).symm
  | succ k ih =>
    intro h
    have dot : dotOf l k = l.toNat.testBit (1728 - (k + 1)) := by
      unfold dotOf
      rw [BitVec.getMsbD_eq_getLsbD, decide_eq_true (by omega), Bool.true_and, ← BitVec.testBit_toNat]
      congr 1
      omega
    rw [List.range_succ, List.map_append, dotsNat_append, ih (by omega), List.map_singleton, dotsNat_cons, dotsNat_nil, dot,
      shiftRight_eq_twice_add_testBit _ (1728 - (k + 1)), show 1728 - (k + 1) + 1 = 1728 - k by omega]

/-- A line's dots spell its word. -/
theorem ofNat_dotsOf (l : Line) : BitVec.ofNat 1728 (dotsNat 0 (dotsOf l)) = l := by
  rw [show dotsNat 0 (dotsOf l) = l.toNat from dotsNat_dots l 1728 (le_refl _)]
  exact (BitVec.ofNat_toNat 1728 l).trans (BitVec.setWidth_eq l)

@[simp] theorem dotsOf_length (l : Line) : (dotsOf l).length = 1728 := by simp [dotsOf]

/-- The first `k` bytes of a line spell its word's upper bytes. -/
theorem beNat_bytes (l : Line) : ∀ k ≤ 216,
    beNat ((List.range k).map fun i => BitVec.ofNat 8 (l.toNat >>> (8 * (215 - i)))) = l.toNat >>> (8 * (216 - k)) := by
  intro k
  induction k with
  | zero => exact fun _ => (toNat_shiftRight_width l).symm
  | succ k ih =>
    intro h
    have shift : l.toNat >>> (8 * (216 - k)) = l.toNat >>> (8 * (215 - k)) / 256 := by
      rw [show 8 * (216 - k) = 8 * (215 - k) + 8 by omega, Nat.shiftRight_add, Nat.shiftRight_eq_div_pow _ 8]
    have ih := ih (by omega)
    unfold beNat at ih ⊢
    rw [List.range_succ, List.map_append, List.foldl_append, ih, shift, show 216 - (k + 1) = 215 - k by omega]
    simp only [List.map_cons, List.map_nil, List.foldl_cons, List.foldl_nil, BitVec.toNat_ofNat]
    omega

/-- A line's bytes spell its word. -/
theorem ofNat_lineToBytes (l : Line) :
    BitVec.ofNat 1728 ((lineToBytes l).foldl (fun n b => 256 * n + b.toNat) 0) = l := by
  rw [show (lineToBytes l).foldl (fun n b => 256 * n + b.toNat) 0 = l.toNat from beNat_bytes l 216 (le_refl _)]
  exact (BitVec.ofNat_toNat 1728 l).trans (BitVec.setWidth_eq l)

/-! ## Units read to an end (R52, R58) -/

/-- The units bring a reading to `q`, and it ends before the last of them nowhere. -/
def Parse.Reads (p : Parse) (us : List Byte) (q : Parse) : Prop :=
  p.feedAll us = q ∧ ∀ n < us.length, (p.feedAll (us.take n)).ended = false

theorem Parse.feedAll_append (p : Parse) (us vs : List Byte) : p.feedAll (us ++ vs) = (p.feedAll us).feedAll vs :=
  List.foldl_append ..

theorem Parse.Reads.one {p : Parse} (u : Byte) (h : p.ended = false) : p.Reads [u] (p.feed u) := by
  refine ⟨rfl, fun n hn => ?_⟩
  obtain rfl : n = 0 := by simpa using hn
  exact h

theorem Parse.Reads.append {p q r : Parse} {us vs : List Byte} (h : p.Reads us q) (k : q.Reads vs r) :
    p.Reads (us ++ vs) r := by
  refine ⟨by rw [feedAll_append, h.1, k.1], fun n hn => ?_⟩
  rw [List.length_append] at hn
  by_cases hu : n < us.length
  · rw [List.take_append_of_le_length hu.le]
    exact h.2 n hu
  · rw [List.take_append, List.take_of_length_le (not_lt.1 hu), feedAll_append, h.1]
    exact k.2 _ (by omega)

theorem Parse.Reads.cons {p q : Parse} {u : Byte} {us : List Byte} (h : p.ended = false) (k : (p.feed u).Reads us q) :
    p.Reads (u :: us) q :=
  (Reads.one u h).append k

/-! ## RUNS -/

/-- One run's units are read as one run, as far as the run units' number lets them (R52). -/
theorem reads_runUnits {c : Bool} {dots acc n count : Nat} (hn : n < 32768) (hc : count + (runUnits n).length ≤ 216) :
    (Parse.runs c dots acc none count).Reads (runUnits n)
      (Parse.runRead c dots acc n (count + (runUnits n).length)) := by
  by_cases h : n < 128
  · have units : runUnits n = [BitVec.ofNat 8 n] := if_pos h
    have value : (BitVec.ofNat 8 n).toNat = n := by rw [BitVec.toNat_ofNat]; omega
    have read : (Parse.runs c dots acc none count).feed (BitVec.ofNat 8 n) = Parse.runRead c dots acc n (count + 1) := by
      unfold Parse.feed
      dsimp only
      rw [value, if_pos h]
    rw [units, List.length_singleton, ← read]
    exact Parse.Reads.one _ rfl
  · have units : runUnits n = [BitVec.ofNat 8 (128 + n / 256), BitVec.ofNat 8 (n % 256)] := if_neg h
    have high : (BitVec.ofNat 8 (128 + n / 256)).toNat = 128 + n / 256 := by rw [BitVec.toNat_ofNat]; omega
    have low : (BitVec.ofNat 8 (n % 256)).toNat = n % 256 := by rw [BitVec.toNat_ofNat]; omega
    rw [units, List.length_cons, List.length_singleton] at hc
    have first : (Parse.runs c dots acc none count).feed (BitVec.ofNat 8 (128 + n / 256)) =
        .runs c dots acc (some (n / 256 * 256)) (count + 1) := by
      unfold Parse.feed
      dsimp only
      rw [high, if_neg (by omega), if_neg (by omega), Nat.add_sub_cancel_left]
    have second : (Parse.runs c dots acc (some (n / 256 * 256)) (count + 1)).feed (BitVec.ofNat 8 (n % 256)) =
        Parse.runRead c dots acc n (count + 2) := by
      show Parse.runRead c dots acc (n / 256 * 256 + (BitVec.ofNat 8 (n % 256)).toNat) (count + 2) = _
      rw [low, Nat.div_add_mod' n 256]
    rw [units, List.length_cons, List.length_singleton, ← second]
    refine Parse.Reads.cons rfl ?_
    rw [first]
    exact Parse.Reads.one _ rfl

theorem runUnits_pos (n : Nat) : 1 ≤ (runUnits n).length := by unfold runUnits; split <;> simp

theorem runLengths_ne_nil (c : Bool) (n : Nat) (ds : List Bool) : runLengths c n ds ≠ [] := by
  induction ds generalizing c n with
  | nil => simp [runLengths]
  | cons d ds ih =>
    unfold runLengths
    split
    · exact ih c (n + 1)
    · simp

/-- A run read short of the line's end leaves the other colour to be read. -/
theorem runRead_short {c : Bool} {dots acc n count : Nat} (h : dots + n < 1728) (hc : count < 216) :
    Parse.runRead c dots acc n count = .runs (!c) (dots + n) (putDots c n acc) none count := by
  unfold Parse.runRead
  rw [if_neg (by omega), if_neg (by omega), if_neg (by omega)]

/-- The units of the runs of the dots still to come, `n` of the present colour already counted, complete the line. -/
theorem reads_runs {c : Bool} {dots acc n count : Nat} (ds : List Bool) (hd : dots + n + ds.length = 1728)
    (hc : count + ((runLengths c n ds).flatMap runUnits).length ≤ 216) :
    (Parse.runs c dots acc none count).Reads ((runLengths c n ds).flatMap runUnits)
      (.done (some (BitVec.ofNat 1728 (dotsNat acc (List.replicate n c ++ ds))))) := by
  induction ds generalizing c dots acc n count with
  | nil =>
    have units : (runLengths c n []).flatMap runUnits = runUnits n := by simp [runLengths]
    rw [List.length_nil, Nat.add_zero] at hd
    rw [units] at hc ⊢
    have last : Parse.runRead c dots acc n (count + (runUnits n).length) =
        .done (some (BitVec.ofNat 1728 (putDots c n acc))) := by
      unfold Parse.runRead
      rw [if_pos hd]
    rw [List.append_nil, ← putDots_eq_dotsNat, ← last]
    exact reads_runUnits (by omega) hc
  | cons d ds ih =>
    rw [List.length_cons] at hd
    by_cases h : d = c
    · subst h
      have runs : runLengths d n (d :: ds) = runLengths d (n + 1) ds := if_pos rfl
      have dotsSame : List.replicate n d ++ d :: ds = List.replicate (n + 1) d ++ ds := by
        rw [List.replicate_succ', List.append_assoc, List.singleton_append]
      rw [runs] at hc ⊢
      rw [dotsSame]
      exact ih (by omega) hc
    · have runs : runLengths c n (d :: ds) = n :: runLengths d 1 ds := if_neg h
      have other : (!c) = d := by cases c <;> cases d <;> simp_all
      have more : 1 ≤ ((runLengths d 1 ds).flatMap runUnits).length := by
        obtain ⟨m, ms, e⟩ := List.exists_cons_of_ne_nil (runLengths_ne_nil d 1 ds)
        rw [e, List.flatMap_cons, List.length_append]
        have := runUnits_pos m
        omega
      rw [runs, List.flatMap_cons] at hc ⊢
      rw [List.length_append] at hc
      refine (reads_runUnits (by omega) (by omega)).append ?_
      rw [runRead_short (by omega) (by omega), other, dotsNat_append, ← putDots_eq_dotsNat]
      exact ih (by omega) (by omega)

/-! ## RAW -/

/-- The bytes still to come of a RAW line complete it. -/
theorem reads_raw {count acc : Nat} (bs : List Byte) (hb : bs ≠ []) (h : count + bs.length = 216) :
    (Parse.raw count acc).Reads bs (.done (some (BitVec.ofNat 1728 (bs.foldl (fun n b => 256 * n + b.toNat) acc)))) := by
  induction bs generalizing count acc with
  | nil => exact absurd rfl hb
  | cons b bs ih =>
    rw [List.length_cons] at h
    refine Parse.Reads.cons rfl ?_
    by_cases hl : bs = []
    · subst hl
      have last : (Parse.raw count acc).feed b = .done (some (BitVec.ofNat 1728 (256 * acc + b.toNat))) := if_pos h
      rw [last]
      exact ⟨rfl, nofun⟩
    · have := List.length_pos_iff.2 hl
      have next : (Parse.raw count acc).feed b = .raw (count + 1) (256 * acc + b.toNat) := if_neg (by omega)
      rw [next]
      exact ih hl (by omega)

/-! ## A line's code (R53) -/

section Code
variable {prev : Option Line} {l : Line}

theorem codeLine_repeat (h : prev = some l) : codeLine prev l = [markRepeat] := if_pos h

theorem codeLine_runs (h : prev ≠ some l) (hr : 1 + (lineRunUnits l).length ≤ 217) :
    codeLine prev l = markRuns :: lineRunUnits l := by
  unfold codeLine
  rw [if_neg h, if_pos (by omega)]

theorem codeLine_raw (h : prev ≠ some l) (hr : 217 < 1 + (lineRunUnits l).length) :
    codeLine prev l = markRaw :: lineToBytes l := by
  unfold codeLine
  rw [if_neg h, if_neg (by omega)]

/-- A line's code is read to its end as the line, or as REPEAT below an equal line. -/
theorem reads_codeLine (prev : Option Line) (l : Line) :
    Parse.mark.Reads (codeLine prev l) (.done (if prev = some l then none else some l)) := by
  by_cases h : prev = some l
  · rw [codeLine_repeat h, if_pos h]
    exact Parse.Reads.one _ rfl
  · rw [if_neg h]
    by_cases hr : 1 + (lineRunUnits l).length ≤ 217
    · have runs := reads_runs (c := false) (dots := 0) (acc := 0) (n := 0) (count := 0) (dotsOf l) (by simp)
        (by unfold lineRunUnits at hr; omega)
      rw [List.replicate_zero, List.nil_append, ofNat_dotsOf] at runs
      rw [codeLine_runs h hr]
      exact Parse.Reads.cons rfl runs
    · have raw := reads_raw (count := 0) (acc := 0) (lineToBytes l) (List.ne_nil_of_length_pos (by simp)) (by simp)
      rw [ofNat_lineToBytes] at raw
      rw [codeLine_raw h (by omega)]
      exact Parse.Reads.cons rfl raw

/-- A code read to its end stands for its line. -/
theorem line?_of_code : (Parse.done (if prev = some l then none else some l)).line? prev = some l := by
  by_cases h : prev = some l
  · rw [if_pos h]
    exact h
  · rw [if_neg h]
    rfl

end Code

/-- Settles O28: the code is read to its end by its form, and REPEAT gives the line above. -/
theorem lineCodeRoundTrip : Obligations.LineCodeRoundTrip := by
  intro prev l
  obtain ⟨all, before⟩ := reads_codeLine prev l
  rw [all]
  exact ⟨line?_of_code, rfl, before⟩

/-! ## Lines given by their dots -/

theorem dotsNat_lt (acc : Nat) (ds : List Bool) : dotsNat acc ds < (acc + 1) * 2 ^ ds.length := by
  induction ds generalizing acc with
  | nil => simp
  | cons d ds ih =>
    calc dotsNat (2 * acc + d.toNat) ds < (2 * acc + d.toNat + 1) * 2 ^ ds.length := ih _
      _ ≤ ((acc + 1) * 2) * 2 ^ ds.length := Nat.mul_le_mul_right _ (by have := d.toNat_le; omega)
      _ = (acc + 1) * 2 ^ (ds.length + 1) := by rw [pow_succ', Nat.mul_assoc]

/-- Dots of one number are the number's only ones. -/
theorem dotsNat_injective {a b : Nat} {as bs : List Bool} (hl : as.length = bs.length) (h : dotsNat a as = dotsNat b bs) :
    a = b ∧ as = bs := by
  induction as generalizing a b bs with
  | nil =>
    obtain rfl := List.length_eq_zero_iff.1 hl.symm
    exact ⟨h, rfl⟩
  | cons d as ih =>
    cases bs with
    | nil => cases hl
    | cons e bs =>
      obtain ⟨heads, rfl⟩ : 2 * a + d.toNat = 2 * b + e.toNat ∧ as = bs := ih (Nat.succ.inj hl) h
      have := d.toNat_le
      have := e.toNat_le
      have same : ∀ x y : Bool, x.toNat = y.toNat → x = y := by decide
      obtain rfl := same d e (by omega)
      exact ⟨by omega, rfl⟩

theorem toNat_ofNat_of_lt {w n : Nat} (h : n < 2 ^ w) : (BitVec.ofNat w n).toNat = n :=
  (BitVec.toNat_ofNat n w).trans (Nat.mod_eq_of_lt h)

/-- The dots of a line given by its first ones. -/
theorem dotsOf_lineOfDots (ds : List Bool) (n : Nat) (h : ds.length + n = 1728) :
    dotsOf (lineOfDots ds) = ds ++ List.replicate n false := by
  have length : (ds ++ List.replicate n false).length = 1728 := by simpa using h
  have shifted : dotsNat 0 ds <<< (1728 - ds.length) = dotsNat 0 (ds ++ List.replicate n false) := by
    rw [dotsNat_append, ← putDots_eq_dotsNat, show 1728 - ds.length = n by omega, Nat.shiftLeft_eq]
    rfl
  have bound := dotsNat_lt 0 (ds ++ List.replicate n false)
  rw [length, Nat.zero_add, Nat.one_mul] at bound
  have word : (lineOfDots ds).toNat = dotsNat 0 (ds ++ List.replicate n false) := by
    rw [← shifted] at bound ⊢
    exact toNat_ofNat_of_lt bound
  refine (dotsNat_injective (a := 0) (b := 0) (by simpa using h.symm) ?_).2
  rw [← word]
  exact dotsNat_dots _ 1728 (le_refl _)

/-- Dots of the present colour lengthen the present run. -/
theorem runLengths_replicate (c : Bool) (n k : Nat) (ds : List Bool) :
    runLengths c n (List.replicate k c ++ ds) = runLengths c (n + k) ds := by
  induction k generalizing n with
  | zero => rfl
  | succ k ih =>
    rw [List.replicate_succ, List.cons_append, runLengths, if_pos rfl, ih, Nat.add_right_comm, Nat.add_assoc]

/-- Dots of the other colour end the present run. -/
theorem runLengths_replicate_not (c : Bool) (n k : Nat) (ds : List Bool) :
    runLengths c n (List.replicate (k + 1) (!c) ++ ds) = n :: runLengths (!c) (k + 1) ds := by
  rw [List.replicate_succ, List.cons_append, runLengths, if_neg (by cases c <;> decide), runLengths_replicate,
    Nat.add_comm]

/-- A line of `w` white dots, `k` black ones and `n` white ones has these three runs. -/
theorem lineRunUnits_white_black (w k n : Nat) (h : w + (k + 1) + (n + 1) = 1728) :
    lineRunUnits (lineOfDots (List.replicate w false ++ List.replicate (k + 1) true)) =
      runUnits w ++ runUnits (k + 1) ++ runUnits (n + 1) := by
  have runs : runLengths false 0 (List.replicate w false ++ (List.replicate (k + 1) true ++
      (List.replicate (n + 1) false ++ []))) = [w, k + 1, n + 1] := by
    rw [runLengths_replicate, Nat.zero_add]
    refine (runLengths_replicate_not false w k _).trans (congrArg _ ?_)
    exact runLengths_replicate_not true (k + 1) n []
  unfold lineRunUnits
  rw [dotsOf_lineOfDots _ (n + 1) (by simpa using h), List.append_assoc, ← List.append_nil (List.replicate (n + 1) false), runs]
  simp

theorem lineRunUnits_white : lineRunUnits whiteLine = runUnits 1728 := by
  have dots : dotsOf whiteLine = List.replicate 1728 false := dotsOf_lineOfDots [] 1728 rfl
  have runs := runLengths_replicate false 0 1728 []
  unfold lineRunUnits
  rw [dots, ← List.append_nil (List.replicate 1728 false), runs]
  rfl

/-! ## The form and the length -/

theorem codeLine_none (l : Line) (us : List Byte) (h : lineRunUnits l = us) (hl : 1 + us.length ≤ 217) :
    codeLine none l = markRuns :: us := by
  subst h
  exact codeLine_runs nofun hl

/-- A line's code is 1 to 217 units (R53). -/
theorem codeLine_length (prev : Option Line) (l : Line) : 1 ≤ (codeLine prev l).length ∧ (codeLine prev l).length ≤ 217 := by
  by_cases h : prev = some l
  · rw [codeLine_repeat h]
    simp
  · by_cases hr : 1 + (lineRunUnits l).length ≤ 217
    · rw [codeLine_runs h hr, List.length_cons]
      omega
    · rw [codeLine_raw h (by omega), List.length_cons, lineToBytes_length]
      omega

/-- Settles O29: the form by its cases, and the worked lines by their runs. -/
theorem lineFormAndLength : Obligations.LineFormAndLength := by
  refine ⟨fun prev l => ?_, ?_, codeLine_repeat rfl, ?_, ?_⟩
  · obtain ⟨pos, short⟩ := codeLine_length prev l
    refine ⟨codeLine_repeat, codeLine_runs, codeLine_raw, pos, short, fun h hr => ?_⟩
    rw [codeLine_runs h hr, List.length_cons, lineToBytes_length]
    omega
  · exact codeLine_none _ _ lineRunUnits_white (by decide)
  · exact codeLine_none _ _ (lineRunUnits_white_black 100 39 1587 rfl) (by decide)
  · exact codeLine_none _ _ (lineRunUnits_white_black 0 11 1715 rfl) (by decide)

end Sys2Proof.Machine
end

section
/-! A decoder's burst (R57 to R59, R89): the line that ends in it placed, sound or replaced, and the block it leaves. -/

set_option Elab.async false

namespace Sys2Proof.Machine

/-! ## Units read again from their start -/

theorem Parse.feedAll_ended {p : Parse} (h : p.ended = true) (us : List Byte) : p.feedAll us = p := by
  have one (u : Byte) : p.feed u = p := by cases p <;> first | rfl | cases h
  induction us with
  | nil => rfl
  | cons u us ih => rw [feedAll_cons, one, ih]

/-- A reading that has not ended after its units ended after none of the first of them. -/
theorem Parse.feedAll_take_open {p : Parse} {us : List Byte} (h : (p.feedAll us).ended = false) (i : Nat) :
    (p.feedAll (us.take i)).ended = false := by
  by_contra k
  rw [← List.take_append_drop i us, feedAll_append, feedAll_ended (eq_true_of_ne_false k)] at h
  exact k h

theorem readAll_take (m : Memory) (a : Nat) {i n : Nat} (h : i ≤ n) : (m.readAll a n).take i = m.readAll a i := by
  unfold Memory.readAll
  rw [← List.map_take, List.take_range, Nat.min_eq_left h]

theorem readAll_length (m : Memory) (a n : Nat) : (m.readAll a n).length = n := by simp [Memory.readAll]

theorem feedAll_readAll_open {p : Parse} {m : Memory} {a n : Nat} (h : (p.feedAll (m.readAll a n)).ended = false) {i : Nat}
    (hi : i ≤ n) : (p.feedAll (m.readAll a i)).ended = false := by
  rw [← readAll_take m a hi]
  exact Parse.feedAll_take_open h i

theorem feedAll_ne_mark {us : List Byte} (h : us ≠ []) (p : Parse) : p.feedAll us ≠ .mark := by
  induction us generalizing p with
  | nil => exact absurd rfl h
  | cons u us ih =>
    rw [Parse.feedAll_cons]
    by_cases hu : us = []
    · subst hu
      exact feed_ne_mark p u
    · exact ih hu _

/-! ## A line's end (R57, R58, R59) -/

/-- Has the line's length been found, its mark sound (R58)? -/
def LineRead.inStep (r : LineRead) : Bool := !r.markParity && r.parse ≠ .lost

/-- The line read, where every unit passed parity and they make a line (R57, R58). -/
def LineRead.soundLine (r : LineRead) (prev : Option Line) : Option Line :=
  if r.inStep && !r.parity then r.parse.line? prev else none

theorem soundLine_inStep {x : LineRead} {prev : Option Line} {l : Line} (h : x.soundLine prev = some l) : x.inStep = true := by
  unfold LineRead.soundLine at h
  split at h
  · next k => exact (Bool.and_eq_true_iff.1 k).1
  · cases h

/-- The page's count and PARITY where a line is damaged (R59). -/
def damageTold (ctx : DecoderCtx) (p : Pass) (r : LineRead) (s : State) : State :=
  if r.parity then raise evParity p.page 0 (parityReason ctx) (countDamage p.page s) else countDamage p.page s

/-- The blocks that a line's end leaves (R89). -/
def LineRead.leftAtEnd (r : LineRead) : List Nat := if r.inStep then r.crossed else []

section Finish
variable {ctx : DecoderCtx} {p : Pass} {r : LineRead} {s : State}

theorem finishLine_sound {l : Line} (h : r.soundLine p.prev = some l) :
    finishLine ctx p r s =
      leaveAll ctx p.page (p.linePos + 1) p.off r.leftAtEnd (placeLine ctx p l (r.parse = .done none) (!r.inStep) s) := by
  unfold LineRead.leftAtEnd
  rw [soundLine_inStep h, if_pos rfl]
  unfold LineRead.soundLine LineRead.inStep at h
  unfold finishLine
  dsimp only
  rw [h]
  rfl

theorem finishLine_damaged (h : r.soundLine p.prev = none) :
    finishLine ctx p r s =
      leaveAll ctx p.page (p.linePos + 1) p.off r.leftAtEnd
        (placeLine ctx p (substitute p) false (!r.inStep) (damageTold ctx p r s)) := by
  unfold LineRead.soundLine LineRead.inStep at h
  unfold finishLine
  dsimp only
  rw [h]
  unfold LineRead.leftAtEnd LineRead.inStep damageTold
  dsimp only
  split <;> rfl

end Finish

/-- From `u` to `t` the line read by `p` has been placed as `l` (R57). -/
def LinePlaced (ctx : DecoderCtx) (p : Pass) (e : Entry) (l : Line) (rep lost : Bool) (u t : State) : Prop :=
  decoderRing ctx t = (decoderRing ctx u).enter
      { dots := l, lineNo := p.linePos, last := decide (e.state ≠ .filling ∧ p.linePos + 1 = e.lineCount), rep := rep }
    ∧ passOf ctx t = some { p with linePos := p.linePos + 1, prev := some l, outOfStep := lost, reading := none }
    ∧ t.dram = u.dram ∧ t.lines = u.lines

/-- From `u` to `t` the page's first block has been left for `b` and joins the free list (R89). -/
def BlockLeft (id : Nat) (e : Entry) (b head off : Nat) (u t : State) : Prop :=
  t.pmc.count = u.pmc.count + 1 ∧ t.pmc.tail = e.first
    ∧ ∃ e', entryOf id t = some e' ∧ e'.first = b ∧ e'.blockCount = e.blockCount - 1 ∧ e'.headLine = head ∧ e'.headOff = off

/-- From `u` to `t` the page has one more damaged line (R59). -/
def DamageCounted (id : Nat) (e : Entry) (t : State) : Prop :=
  ∃ e', entryOf id t = some e' ∧ e'.damaged = min 65535 (e.damaged + 1) ∧ e'.lineCount = e.lineCount

/-- What a line's end comes to: the line sound, or its substitute. -/
structure LineEnds (ctx : DecoderCtx) (p : Pass) (x : LineRead) (e : Entry) (u t : State) : Prop where
  sound   : ∀ l, x.soundLine p.prev = some l →
    t.events = u.events ∧ LinePlaced ctx p e l (x.parse = .done none && ctx = .output) false u t
  damaged : x.soundLine p.prev = none →
    t.events = (if x.parity then u.events.raise evParity p.page 0 (parityReason ctx) else u.events)
      ∧ DamageCounted p.page e t ∧ LinePlaced ctx p e (substitute p) false (!x.inStep) u t

section Ends
variable {ctx : DecoderCtx} {p : Pass} {x : LineRead} {u : State} {e : Entry} {b : Nat}

theorem damageTold_fields :
    (damageTold ctx p x u).events = (if x.parity then u.events.raise evParity p.page 0 (parityReason ctx) else u.events)
      ∧ (damageTold ctx p x u).pmc = u.pmc ∧ (damageTold ctx p x u).dram = u.dram ∧ (damageTold ctx p x u).lines = u.lines
      ∧ decoderRing ctx (damageTold ctx p x u) = decoderRing ctx u ∧ (u.noAsk → (damageTold ctx p x u).noAsk) := by
  unfold damageTold
  split <;> cases ctx <;> exact ⟨rfl, rfl, rfl, rfl, rfl, id⟩

theorem entryOf_damageTold (h : entryOf p.page u = some e) :
    entryOf p.page (damageTold ctx p x u) = some { e with damaged := min 65535 (e.damaged + 1) } := by
  have counted := entryOf_mapEntry (f := fun e => { e with damaged := min 65535 (e.damaged + 1) }) (fun _ => rfl) h
  unfold damageTold
  split <;> exact counted

/-- A line's end places the line or its substitute, and leaves the block behind it where one is to be left. -/
theorem finishLine_ends (h : entryOf p.page u = some e)
    (hs : Stays ctx e x.leftAtEnd ∨ Leaves ctx e b x.leftAtEnd u) :
    LineEnds ctx p x e u (finishLine ctx p x u)
      ∧ (Stays ctx e x.leftAtEnd → (finishLine ctx p x u).pmc = u.pmc)
      ∧ (∃ e', entryOf p.page (finishLine ctx p x u) = some e' ∧
          (x.leftAtEnd = [] → e'.first = e.first ∧ e'.blockCount = e.blockCount ∧ e'.headLine = e.headLine ∧ e'.headOff = e.headOff))
      ∧ (Leaves ctx e b x.leftAtEnd u → BlockLeft p.page e b (p.linePos + 1) p.off u (finishLine ctx p x u)) := by
  cases hl : x.soundLine p.prev with
  | some l =>
    obtain ⟨ring, pass, dram, lines, events, pmc, e', entry, -, -, same, left⟩ :=
      placed_then_left (l := l) (rep := x.parse = .done none) (o := !x.inStep) (hl := p.linePos + 1) h hs
    rw [← finishLine_sound hl] at ring pass dram lines events pmc entry left
    rw [soundLine_inStep hl] at pass
    refine ⟨⟨fun l' hl' => ?_, fun no => absurd (no.symm.trans hl) nofun⟩, pmc, ⟨e', entry, same⟩, fun k => ?_⟩
    · obtain rfl := Option.some.inj (hl.symm.trans hl')
      exact ⟨events, ring, pass, dram, lines⟩
    · obtain ⟨count, tail, first, blocks, head, off⟩ := left k
      exact ⟨count, tail, e', entry, first, blocks, head, off⟩
  | none =>
    obtain ⟨events0, pmc0, dram0, lines0, ring0, asks0⟩ := damageTold_fields (ctx := ctx) (p := p) (x := x) (u := u)
    have reader : ({ e with damaged := min 65535 (e.damaged + 1) } : Entry).reader ctx = e.reader ctx := by cases ctx <;> rfl
    have stays (k : Stays ctx e x.leftAtEnd) : Stays ctx { e with damaged := min 65535 (e.damaged + 1) } x.leftAtEnd :=
      k.imp_right fun k rd hr => k rd (reader.symm.trans hr)
    have leaves (k : Leaves ctx e b x.leftAtEnd u) :
        Leaves ctx { e with damaged := min 65535 (e.damaged + 1) } b x.leftAtEnd (damageTold ctx p x u) := by
      obtain ⟨crossed, ⟨rd, hr, consumes⟩, blocks, asks⟩ := k
      exact ⟨crossed, ⟨rd, reader.trans hr, consumes⟩, blocks, asks0 asks⟩
    obtain ⟨ring, pass, dram, lines, events, pmc, e', entry, damaged, count, same, left⟩ :=
      placed_then_left (l := substitute p) (rep := false) (o := !x.inStep) (hl := p.linePos + 1)
        (entryOf_damageTold (ctx := ctx) (x := x) h) (hs.imp stays leaves)
    rw [← finishLine_damaged hl] at ring pass dram lines events pmc entry left
    refine ⟨⟨fun l' hl' => absurd (hl.symm.trans hl') nofun, fun _ => ?_⟩, fun k => (pmc (stays k)).trans pmc0,
      ⟨e', entry, same⟩, fun k => ?_⟩
    · rw [ring0] at ring
      exact ⟨events.trans events0, ⟨e', entry, damaged, count⟩, ring, pass, dram.trans dram0, lines.trans lines0⟩
    · obtain ⟨blocks, tail, first, rest⟩ := left (leaves k)
      rw [pmc0] at blocks
      exact ⟨blocks, tail, e', entry, first, rest⟩

/-- A reader that leaves a block does not stay. -/
theorem not_stays_of_leaves {cr : List Nat} (h : Leaves ctx e b cr u) : ¬ Stays ctx e cr := by
  obtain ⟨rfl, ⟨rd, reader, consumes⟩, -, -⟩ := h
  rintro (k | k)
  · cases k
  · exact absurd consumes (by rw [k rd reader]; decide)

/-- What a line's end comes to, of the page and the state as a first unit's read finds them. -/
theorem LineEnds.transport {e1 : Entry} {v t : State} (h : LineEnds ctx p x e1 v t) (hs : e1.state = e.state)
    (hc : e1.lineCount = e.lineCount) (hd : e1.damaged = e.damaged) (events : v.events = u.events) (rings : v.rings = u.rings)
    (dram : v.dram = u.dram) (lines : v.lines = u.lines) : LineEnds ctx p x e u t := by
  have ring : decoderRing ctx v = decoderRing ctx u := by unfold decoderRing; rw [rings]
  have placed {l : Line} {rep lost : Bool} (k : LinePlaced ctx p e1 l rep lost v t) : LinePlaced ctx p e l rep lost u t := by
    unfold LinePlaced at k ⊢
    rwa [hs, hc, ring, dram, lines] at k
  refine ⟨fun l hl => ?_, fun hl => ?_⟩
  · obtain ⟨told, k⟩ := h.sound l hl
    exact ⟨told.trans events, placed k⟩
  · obtain ⟨told, damage, k⟩ := h.damaged hl
    rw [events] at told
    unfold DamageCounted at damage ⊢
    rw [hd, hc] at damage
    exact ⟨told, damage, placed k⟩

/-- A line that ends in a burst: the line placed, and the block behind it left with its first unit or at its end. -/
theorem lineEnds_of_burst {q : Pass} {r : LineRead} {off : Nat} (h : entryOf q.page u = some e)
    (hs : Stays ctx e r.crossed ∨ Leaves ctx e b r.crossed u) (hc : x.crossed = if r.parse = .mark then [] else r.crossed)
    (hl : r.parse = .mark ∨ x.inStep = true ∨ Stays ctx e r.crossed) :
    let q' : Pass := { q with off := off, reading := some x }
    let t := finishLine ctx q' x (firstUnitRead ctx q r u)
    LineEnds ctx q' x e u t ∧ (Stays ctx e r.crossed → t.pmc = u.pmc)
      ∧ (Leaves ctx e b r.crossed u →
          if r.parse = .mark then BlockLeft q.page e b q.linePos 0 u t else BlockLeft q.page e b (q.linePos + 1) off u t) := by
  intro q' t
  by_cases hm : r.parse = .mark
  · obtain ⟨dram, events, lines, rings, -, -, pmc, e1, entry, state, count, damaged, left⟩ := firstUnitRead_leaves h hm hs
    have none_left : x.leftAtEnd = [] := by
      unfold LineRead.leftAtEnd
      rw [hc, if_pos hm, ite_self]
    obtain ⟨ends, kept, ⟨e2, entry2, same⟩, -⟩ := finishLine_ends (p := q') (x := x) (b := b) entry (.inl (.inl none_left))
    obtain ⟨first, blocks, head, at_⟩ := same none_left
    have still := kept (.inl none_left)
    refine ⟨ends.transport state count damaged events rings dram lines, fun k => still.trans (pmc k), fun k => ?_⟩
    obtain ⟨free, tail, first1, blocks1, head1, at1⟩ := left k
    rw [if_pos hm]
    exact ⟨(congrArg Pmc.count still).trans free, (congrArg Pmc.tail still).trans tail, e2, entry2, first.trans first1,
      blocks.trans blocks1, head.trans head1, at_.trans at1⟩
  · have unread : firstUnitRead ctx q r u = u := if_neg fun k => hm k.1
    rw [if_neg hm] at hc
    simp only [t, unread, if_neg hm]
    by_cases step : x.inStep = true
    · have left : x.leftAtEnd = r.crossed := by
        unfold LineRead.leftAtEnd
        rw [if_pos step, hc]
      have := finishLine_ends (ctx := ctx) (p := q') (x := x) (b := b) (u := u) h (by rw [left]; exact hs)
      rw [left] at this
      obtain ⟨ends, kept, -, leaves⟩ := this
      exact ⟨ends, kept, leaves⟩
    · have left : x.leftAtEnd = [] := if_neg step
      have stays := (hl.resolve_left hm).resolve_left step
      obtain ⟨ends, kept, -, -⟩ := finishLine_ends (ctx := ctx) (p := q') (x := x) (b := b) (u := u) h (.inl (.inl left))
      exact ⟨ends, fun _ => kept (.inl left), fun k => absurd stays (not_stays_of_leaves k)⟩

end Ends

/-! ## The burst (R57, R72) -/

/-- The line as read once the first `k` units from an address are taken, a mark among them sound. -/
def LineRead.taken (r : LineRead) (m : Memory) (a k : Nat) : LineRead :=
  { r with parse := r.parse.feedAll (m.readAll a k), parity := r.parity || !m.parityAll a k,
           crossed := if r.parse = .mark then [] else r.crossed }

/-- Units up to the burst's last, or to the line's end, are taken. -/
theorem readUnits_taken {m : Memory} {k n a : Nat} {r : LineRead} (hk : k ≤ n)
    (before : ∀ i < k, (r.parse.feedAll (m.readAll a i)).ended = false)
    (mark : r.parse = .mark → m.parityOk a = true) (last : k = n ∨ (r.parse.feedAll (m.readAll a k)).ended = true) :
    readUnits m n a { r with crossed := if r.parse = .mark then [] else r.crossed } = (r.taken m a k, k) :=
  readUnits_through m k n a { r with crossed := if r.parse = .mark then [] else r.crossed } hk before (fun h _ => mark h) last

section Taken
variable {m : Memory} {a k : Nat} {r x : LineRead} {prev : Option Line} {l : Line}

theorem taken_inStep (h : r.markParity = false) :
    (r.taken m a k).inStep = !decide (r.parse.feedAll (m.readAll a k) = .lost) := by
  show (!r.markParity && _) = _
  rw [h, Bool.not_false, Bool.true_and]
  exact decide_not

theorem soundLine_of_sound (hs : x.inStep = true) (hp : x.parity = false) (h : x.parse.line? prev = some l) :
    x.soundLine prev = some l := by
  unfold LineRead.soundLine
  rw [hs, hp]
  exact h

theorem soundLine_of_parity (h : x.parity = true) : x.soundLine prev = none := by
  unfold LineRead.soundLine
  rw [h, Bool.not_true, Bool.and_false]
  rfl

theorem soundLine_of_noLine (h : x.parse.line? prev = none) : x.soundLine prev = none := by
  unfold LineRead.soundLine
  rw [h, ite_self]

end Taken

section Burst
variable {ctx : DecoderCtx} {p : Pass} {r x : LineRead} {u : State} {e : Entry} {b next fill k : Nat}

/-- A burst in which a line ends: what it leaves of the line, the page and the free list. -/
theorem decodeBurst_ends (hp : passOf ctx u = some p) (hr : p.reading = some r) (hb : p.block = some b)
    (hh : freshHeader p b r u = ((next, fill), r)) (room : p.off < min fill 1020) (he : entryOf p.page u = some e)
    (hx : readUnits u.dram (min 16 (min fill 1020 - p.off)) (unitAddr b p.off)
      { r with crossed := if r.parse = .mark then [] else r.crossed } = (x, k)) (ended : x.parse.ended = true)
    (hc : x.crossed = if r.parse = .mark then [] else r.crossed)
    (hs : Stays ctx e r.crossed ∨ Leaves ctx e b r.crossed u)
    (hl : r.parse = .mark ∨ x.inStep = true ∨ Stays ctx e r.crossed) :
    LineEnds ctx { p with header := some (next, fill), off := p.off + k, reading := some x } x e u (decodeBurst ctx u)
      ∧ (Stays ctx e r.crossed → (decodeBurst ctx u).pmc = u.pmc)
      ∧ (Leaves ctx e b r.crossed u →
          if r.parse = .mark then BlockLeft p.page e b p.linePos 0 u (decodeBurst ctx u)
          else BlockLeft p.page e b (p.linePos + 1) (p.off + k) u (decodeBurst ctx u)) := by
  have burst : decodeBurst ctx u =
      finishLine ctx { p with header := some (next, fill), off := p.off + k, reading := some x } x
        (firstUnitRead ctx { p with header := some (next, fill) } r u) := by
    rw [decodeBurst_eq hp hr hb hh, if_neg (not_le.2 room), hx]
    exact if_pos ended
  rw [burst]
  exact lineEnds_of_burst (q := { p with header := some (next, fill) }) he hs hc hl

/-- A burst in which a line goes on takes all its units. -/
theorem decodeBurst_goesOn (hp : passOf ctx u = some p) (hr : p.reading = some r) (hb : p.block = some b)
    (hh : freshHeader p b r u = ((next, fill), r)) (room : p.off < min fill 1020)
    (hx : readUnits u.dram (min 16 (min fill 1020 - p.off)) (unitAddr b p.off)
      { r with crossed := if r.parse = .mark then [] else r.crossed } = (x, k)) (going : x.parse.ended = false) :
    decodeBurst ctx u =
      setPass ctx (some { p with header := some (next, fill), off := p.off + k, reading := some x })
        (firstUnitRead ctx { p with header := some (next, fill) } r u) := by
  rw [decodeBurst_eq hp hr hb hh, if_neg (not_le.2 room), hx]
  exact if_neg (by rw [going]; decide)

/-- A burst at the block's fill enters the successor, or the line's length is lost. -/
theorem decodeBurst_atFill (hp : passOf ctx u = some p) (hr : p.reading = some r) (hb : p.block = some b)
    (hh : freshHeader p b r u = ((next, fill), r)) (full : min fill 1020 ≤ p.off) :
    decodeBurst ctx u =
      if next = noBlock then finishLine ctx { p with header := some (next, fill) } { r with parse := .lost } u
      else enterSuccessor ctx { p with header := some (next, fill) } r next u := by
  rw [decodeBurst_eq hp hr hb hh]
  exact if_pos full

/-- A burst at the fill of a block without a successor: the line's length is lost and its place taken. -/
theorem decodeBurst_lengthLost (hp : passOf ctx u = some p) (hr : p.reading = some r) (hb : p.block = some b)
    (hh : freshHeader p b r u = ((noBlock, fill), r)) (full : min fill 1020 ≤ p.off) (he : entryOf p.page u = some e) :
    LineEnds ctx { p with header := some (noBlock, fill) } { r with parse := .lost } e u (decodeBurst ctx u)
      ∧ (decodeBurst ctx u).pmc = u.pmc := by
  have burst := (decodeBurst_atFill hp hr hb hh full).trans (if_pos rfl)
  have leftNone : LineRead.leftAtEnd { r with parse := .lost } = [] := if_neg (by simp [LineRead.inStep])
  obtain ⟨ends, kept, -⟩ := finishLine_ends (ctx := ctx) (p := { p with header := some (noBlock, fill) })
    (x := { r with parse := .lost }) (b := b) (u := u) he (.inl (.inl leftNone))
  rw [← burst] at ends kept
  exact ⟨ends, kept (.inl leftNone)⟩

end Burst

theorem enterSuccessor_fields (ctx : DecoderCtx) (p : Pass) (r : LineRead) (next : Nat) (s : State) :
    (enterSuccessor ctx p r next s).dram = s.dram ∧ (enterSuccessor ctx p r next s).events = s.events
      ∧ (enterSuccessor ctx p r next s).pmc = s.pmc
      ∧ passOf ctx (enterSuccessor ctx p r next s) =
          some { p with block := some next, off := 0, header := none,
                        reading := some { r with crossed := r.crossed ++ [next] } } := by
  unfold enterSuccessor
  dsimp only
  split <;> cases ctx <;> exact ⟨rfl, rfl, rfl, rfl⟩

/-- The last units of a line's code end its parse, and no fewer of them do. -/
theorem feedAll_lastUnits {parse : Parse} {first : List Byte} {prev : Option Line} {l : Line} {m : Memory} {a k : Nat}
    (hparse : parse = Parse.mark.feedAll first) (hcode : codeLine prev l = first ++ m.readAll a k) :
    parse.feedAll (m.readAll a k) = .done (if prev = some l then none else some l)
      ∧ (∀ i < k, (parse.feedAll (m.readAll a i)).ended = false) ∧ (parse = .mark ↔ first = []) := by
  obtain ⟨whole, before⟩ := reads_codeLine prev l
  rw [hcode] at whole before
  refine ⟨by rw [hparse, ← Parse.feedAll_append, whole], fun i hi => ?_, fun m => ?_, fun no => by rw [hparse, no]; rfl⟩
  · have := before (first.length + i) (by rw [List.length_append, readAll_length]; omega)
    rwa [List.take_length_add_append, readAll_take _ _ hi.le, Parse.feedAll_append, ← hparse] at this
  · exact by_contra fun no => feedAll_ne_mark no _ (hparse.symm.trans m)

/-- Settles O33: the burst by its header, its units and the line's end. -/
theorem decoderBurstsReadLines : Obligations.DecoderBurstsReadLines := by
  intro lv s ctx p r b next fill e hg pass hr hb he hh base units sound n stays leaves left placed damaged told
  have step : exec (.dramGrantEnd lv) s = .next (settle (decodeBurst ctx base)) := exec_decodeBurst hg
  have hp : passOf ctx base = some p := by cases ctx <;> exact pass
  have header : freshHeader p b r base = ((next, fill), r) := freshHeader_eq (s := base) hh
  have ring : decoderRing ctx base = decoderRing ctx s := by cases ctx <;> rfl
  have told_of {bad : Bool} {t : State}
      (h : t.events = if bad then s.events.raise evParity p.page 0 (parityReason ctx) else s.events) : told bad t := by
    cases ctx <;> exact h
  have placed_of {x : LineRead} {l : Line} {rep lost : Bool} {off : Nat}
      (h : LinePlaced ctx { p with header := some (next, fill), off := off, reading := some x } e l rep lost base
        (decodeBurst ctx base)) (kept : stays → (decodeBurst ctx base).pmc = base.pmc) :
      placed (decodeBurst ctx base) l rep lost off := by
    obtain ⟨h1, h2, h3, h4⟩ := h
    rw [ring] at h1
    exact ⟨h1, h2, h3, h4, kept⟩
  refine ⟨?_, ?_, ?_, ?_, ?_⟩
  · intro l k first hparse hmark hcode hk h16 hf hs mark
    obtain ⟨ended, early, begun⟩ := feedAll_lastUnits hparse hcode
    have x := readUnits_taken (m := s.dram) (k := k) (n := n) (by omega) early (fun m => mark (begun.1 m))
      (.inr (by rw [ended]; rfl))
    have inStep : (r.taken s.dram (unitAddr b p.off) k).inStep = true := by
      rw [taken_inStep hmark, decide_eq_false (by rw [ended]; exact nofun)]
      rfl
    obtain ⟨ends, kept, leave⟩ := decodeBurst_ends hp hr hb header (by omega) he x
      (show (r.parse.feedAll (units k)).ended = true by rw [ended]; rfl) rfl hs (.inr (.inl inStep))
    refine ⟨decodeBurst ctx base, step, fun good all => ?_, fun bad => ?_, fun h => ?_⟩
    · have sound_ : (r.parity || !sound k) = false := by rw [good, all]; rfl
      have line := (congrArg (Parse.line? · p.prev) ended).trans line?_of_code
      obtain ⟨quiet, place⟩ := ends.sound l (soundLine_of_sound inStep sound_ line)
      have rep : (decide (r.parse.feedAll (units k) = .done none) && decide (ctx = .output)) =
          decide (ctx = .output ∧ p.prev = some l) := by
        rw [ended]
        by_cases h : p.prev = some l <;> simp [h]
      exact ⟨told_of quiet, placed_of (rep ▸ place) kept⟩
    · have bad : (r.taken s.dram (unitAddr b p.off) k).parity = true := by
        show (r.parity || !sound k) = true
        rcases bad with h | h <;> simp [h]
      obtain ⟨parity, damage, place⟩ := ends.damaged (soundLine_of_parity bad)
      rw [bad] at parity
      rw [inStep] at place
      exact ⟨told_of parity, damage, placed_of place kept⟩
    · have := leave h
      by_cases no : first = []
      · rw [if_pos (begun.2 no)] at this
        rw [if_pos no]
        exact this
      · rw [if_neg (mt begun.1 no)] at this
        rw [if_neg no]
        exact this
  · intro mark room hs bad
    have x : readUnits s.dram n (unitAddr b p.off) { r with crossed := if r.parse = .mark then [] else r.crossed } =
        ({ r with parse := .lost, parity := true, markParity := true, crossed := if r.parse = .mark then [] else r.crossed }, 1) := by
      obtain ⟨n', hn⟩ : ∃ n', n = n' + 1 := ⟨n - 1, by omega⟩
      rw [hn]
      exact readUnits_markLost _ _ _ _ mark bad
    obtain ⟨ends, kept, leave⟩ := decodeBurst_ends hp hr hb header room he x rfl rfl hs (.inl mark)
    obtain ⟨parity, damage, place⟩ := ends.damaged rfl
    refine ⟨decodeBurst ctx base, step, told_of parity, damage, placed_of place kept, fun h => ?_⟩
    have := leave h
    rwa [if_pos mark] at this
  · intro k hk h16 hf hmark open_ bad mark hs
    have early : ∀ i < k, (r.parse.feedAll (units i)).ended = false := fun i hi => feedAll_readAll_open open_ (by omega)
    have ended : (r.parse.feedAll (units k)).ended = true := by rcases bad with h | ⟨h, -⟩ <;> rw [h] <;> rfl
    have x := readUnits_taken (m := s.dram) (k := k) (n := n) (by omega) early mark (.inr ended)
    obtain ⟨ends, kept, leave⟩ := decodeBurst_ends hp hr hb header (by omega) he x ended rfl (hs.imp_right And.left)
      (hs.symm.imp And.right .inr)
    have noLine : (r.parse.feedAll (units k)).line? p.prev = none := by
      rcases bad with h | ⟨h, noPrev⟩ <;> rw [h]
      · rfl
      · exact noPrev
    obtain ⟨parity, damage, place⟩ := ends.damaged (soundLine_of_noLine noLine)
    rw [taken_inStep hmark, Bool.not_not] at place
    refine ⟨decodeBurst ctx base, step, told_of parity, damage, placed_of place kept, fun h => ?_⟩
    have begun : r.parse = .mark := (hs.resolve_left (not_stays_of_leaves h)).2
    have := leave h
    rwa [if_pos begun] at this
  · intro room open_ going mark on
    have early : ∀ i < n, (r.parse.feedAll (units i)).ended = false := fun i hi => feedAll_readAll_open going hi.le
    have x := readUnits_taken (m := s.dram) (k := n) (n := n) (le_refl _) early mark (.inl rfl)
    have burst := decodeBurst_goesOn hp hr hb header room x going
    refine ⟨fun h => ?_, fun m hs => ?_⟩
    · have unread : firstUnitRead ctx { p with header := some (next, fill) } r base = base :=
        if_neg fun k => h.elim (absurd k.1) k.2
      have crossed : (if r.parse = .mark then [] else r.crossed) = r.crossed := by
        by_cases m : r.parse = .mark
        · rw [if_pos m, h.resolve_left (not_not.2 m)]
        · exact if_neg m
      rw [step, burst, unread, LineRead.taken, crossed]
    · obtain ⟨dram, events, -, -, -, -, pmc, e', entry, -, -, -, leave⟩ :=
        firstUnitRead_leaves (q := { p with header := some (next, fill) }) (b := b) (u := base) he m hs
      refine ⟨decodeBurst ctx base, step, ?_, ?_, ?_, fun h => ?_, fun h => ?_⟩ <;> rw [burst]
      · rw [passOf_setPass, LineRead.taken, if_pos m]
      · exact (setPass_dram ..).trans dram
      · exact told_of ((setPass_events ..).trans events)
      · exact (setPass_pmc ..).trans (pmc h)
      · obtain ⟨count, tail, first, blocks, head, off⟩ := leave h
        refine ⟨?_, ?_, e', ?_, first, blocks, head, off⟩
        · rw [setPass_pmc]; exact count
        · rw [setPass_pmc]; exact tail
        · cases ctx <;> exact entry
  · intro full
    refine ⟨fun h => ?_, fun h => ?_⟩
    · have burst := (decodeBurst_atFill hp hr hb header full).trans (if_neg h)
      obtain ⟨dram, events, pmc, pass⟩ := enterSuccessor_fields ctx { p with header := some (next, fill) } r next base
      rw [← burst] at dram events pmc pass
      exact ⟨decodeBurst ctx base, step, dram, events, pmc, pass⟩
    · subst h
      obtain ⟨ends, pmc⟩ := decodeBurst_lengthLost hp hr hb header full he
      obtain ⟨parity, damage, place⟩ := ends.damaged (soundLine_of_noLine rfl)
      rw [show LineRead.inStep { r with parse := .lost } = false from Bool.and_false _] at place
      exact ⟨decodeBurst ctx base, step, told_of parity, damage, pmc, placed_of (x := r) place fun _ => pmc⟩

end Sys2Proof.Machine
end

section
/-! The coder contexts' operations told once (R54, R66, R68): a block asked for, a line begun. And the decoder's line start (R57,
R58). -/

set_option Elab.async false

namespace Sys2Proof.Machine

/-! ## A context changed again -/

theorem setCoder_setCoder (ctx : CoderCtx) (c d : Coder) (s : State) : setCoder ctx c (setCoder ctx d s) = setCoder ctx c s := by
  cases ctx <;> rfl

theorem mapCoder_setCoder (ctx : CoderCtx) (f : Coder → Coder) (c : Coder) (s : State) :
    mapCoder ctx f (setCoder ctx c s) = setCoder ctx (f c) s := by
  cases ctx <;> rfl

/-! ## A block asked for (R66) -/

section Ask
variable {ctx : CoderCtx} {s : State} {c : Coder}

/-- The context's request stands, and nothing else has changed. -/
abbrev asked (ctx : CoderCtx) (c : Coder) (s : State) : State := setCoder ctx { c with asking := true } s

theorem askBlock_eq (ctx : CoderCtx) (s : State) : askBlock ctx s = pumpAsk ctx (asked ctx (coderOf ctx s) s) := rfl

theorem pumpAsk_asked : pumpAsk ctx (asked ctx c s) =
    if s.pmc.build = none then
      if s.pmc.count = 0 then enterMemwait ctx (asked ctx c s)
      else if s.pmc.linkKnown && !s.pmc.readingLink then allocate ctx (asked ctx c s)
      else asked ctx c s
    else asked ctx c s := by
  unfold pumpAsk
  rw [coderOf_setCoder, setCoder_pmc]
  simp only [true_and]

/-- A request waits while a list build runs, or the head's link is not at hand. -/
theorem pumpAsk_held (h : s.pmc.build ≠ none ∨ (0 < s.pmc.count ∧ (s.pmc.linkKnown = false ∨ s.pmc.readingLink = true))) :
    pumpAsk ctx (asked ctx c s) = asked ctx c s := by
  rcases h with h | ⟨h, w⟩
  · rw [pumpAsk_asked, if_neg h]
  · exact pumpAsk_waits (by rw [setCoder_pmc]; omega) (by rwa [setCoder_pmc])

/-- With no block on the list the context enters MEMWAIT (R68). -/
theorem pumpAsk_memwait {p : Nat} (hp : c.page = some p) (hb : s.pmc.build = none) (h : s.pmc.count = 0) :
    pumpAsk ctx (asked ctx c s) =
      raise evMemWait p 0 (match ctx with | .scan => 1 | .intake => 2)
        (setCoder ctx { c with st := .memwait, timer := some (setMemWait s), asking := false } s) := by
  have page : (coderOf ctx (asked ctx c s)).page.getD 0 = p := by rw [coderOf_setCoder, hp]; rfl
  rw [pumpAsk_asked, if_pos hb, if_pos h]
  unfold enterMemwait
  dsimp only
  rw [page]
  cases ctx <;> rfl

theorem pumpAsk_allocates (hb : s.pmc.build = none) (h : 0 < s.pmc.count) (hl : s.pmc.linkKnown = true)
    (hr : s.pmc.readingLink = false) : pumpAsk ctx (asked ctx c s) = allocate ctx (asked ctx c s) := by
  rw [pumpAsk_asked, if_pos hb, if_neg (by omega), hl, hr]
  rfl

end Ask

/-! ## The block allocated (R66) -/

theorem positionReader_fields (id b : Nat) (s : State) :
    (positionReader id b s).pmc = s.pmc ∧ (positionReader id b s).dram = s.dram ∧ (positionReader id b s).rings = s.rings
      ∧ ∀ ctx, coderOf ctx (positionReader id b s) = coderOf ctx s := by
  unfold positionReader
  split
  · exact ⟨rfl, rfl, rfl, fun _ => rfl⟩
  · split <;> exact ⟨rfl, rfl, rfl, fun ctx => by cases ctx <;> rfl⟩

theorem entryOf_positionReader {id b : Nat} {s : State} {e : Entry} (h : entryOf id s = some e) :
    ∃ r, entryOf id (positionReader id b s) = some { e with printRd := r } := by
  unfold positionReader
  split
  · exact ⟨_, h⟩
  · split
    · exact ⟨_, entryOf_mapEntry (f := fun e => { e with printRd := e.printRd.map fun r => { r with block := b } })
        (fun _ => rfl) h⟩
    · exact ⟨_, h⟩

/-- The block of a context left behind gets its header, its next the block allocated (R62, R66). -/
def leaveBehind (old : Option Nat) (b : Nat) (m : Memory) : Memory :=
  match old with
  | none => m
  | some old => m.writeAll (blockAddr old) false (be16 b ++ be16 1020)

/-- The head block taken off the list and made a context's current one, its page not yet told. -/
def headTaken (ctx : CoderCtx) (s : State) : State :=
  setCoder ctx
    { coderOf ctx s with st := .coding, timer := none, block := some s.pmc.head, fill := 0, wpos := 0, asking := false }
    (mapDram (leaveBehind (coderOf ctx s).block s.pmc.head) (mapPmc Pmc.takeHead s))

theorem allocate_eq {ctx : CoderCtx} {s : State} {id : Nat} (hp : (coderOf ctx s).page = some id) :
    allocate ctx s = positionReader id s.pmc.head (mapEntry id (·.gain s.pmc.head) (headTaken ctx s)) := by
  have written : (match (coderOf ctx s).block with
      | none => mapPmc Pmc.takeHead s
      | some old => writeHeader old s.pmc.head Config.blockUnits (mapPmc Pmc.takeHead s)) =
      mapDram (leaveBehind (coderOf ctx s).block s.pmc.head) (mapPmc Pmc.takeHead s) := by
    cases (coderOf ctx s).block <;> rfl
  unfold allocate
  dsimp only
  split
  · next h => exact absurd (hp.symm.trans h) nofun
  · next i h =>
    obtain rfl := Option.some.inj (hp.symm.trans h)
    exact congrArg (fun u => positionReader id s.pmc.head (mapEntry id (·.gain s.pmc.head)
      (setCoder ctx { coderOf ctx s with
        st := .coding, timer := none, block := some s.pmc.head, fill := 0, wpos := 0, asking := false } u))) written

/-- The head block becomes the current one of a context with a page. -/
theorem allocate_fields {ctx : CoderCtx} {s : State} {id : Nat} (hp : (coderOf ctx s).page = some id) :
    coderOf ctx (allocate ctx s) =
        { coderOf ctx s with st := .coding, timer := none, block := some s.pmc.head, fill := 0, wpos := 0, asking := false }
      ∧ (allocate ctx s).pmc = s.pmc.takeHead ∧ (allocate ctx s).rings = s.rings ∧ (allocate ctx s).port = s.port
      ∧ (allocate ctx s).events = s.events
      ∧ (allocate ctx s).dram = leaveBehind (coderOf ctx s).block s.pmc.head s.dram
      ∧ ∀ e, entryOf id s = some e → ∃ r, entryOf id (allocate ctx s) = some { e.gain s.pmc.head with printRd := r } := by
  have port := (shell_allocate ctx s).port
  have events := allocate_events ctx s
  rw [allocate_eq hp] at port events ⊢
  obtain ⟨pmc, dram, rings, coder⟩ :=
    positionReader_fields id s.pmc.head (mapEntry id (·.gain s.pmc.head) (headTaken ctx s))
  have gained (e : Entry) (he : entryOf id s = some e) : entryOf id (headTaken ctx s) = some e := by cases ctx <;> exact he
  refine ⟨(coder ctx).trans ?_, pmc.trans ?_, rings.trans ?_, port, events, dram.trans ?_, fun e he =>
    entryOf_positionReader (entryOf_mapEntry (f := (·.gain s.pmc.head)) (fun _ => rfl) (gained e he))⟩
  all_goals cases ctx <;> rfl

/-- The list without its head block (R65). -/
theorem takeHead_items {p : Pmc} (h : 0 < p.count) :
    p.takeHead.count = p.count - 1 ∧ p.takeHead.head = if p.count = 1 then noBlock else p.headLink := by
  unfold Pmc.takeHead
  by_cases one : p.count = 1
  · rw [if_pos (by omega), if_pos one]
    exact ⟨by rw [one], rfl⟩
  · rw [if_neg (by omega), if_neg one]
    exact ⟨rfl, rfl⟩

/-! ## A line begun (R54, R80, R124) -/

section Begin
variable {ctx : CoderCtx} {s : State}

theorem coderCanStart_iff : coderCanStart ctx s = true ↔
    (coderOf ctx s).st = .idle ∧ 0 < (coderRing ctx s).occ ∧ (ctx = .scan ∨ (coderOf ctx s).dirWait = none) := by
  simp [coderCanStart, and_assoc]

/-- A context that has its page takes the head line. -/
theorem coderStart_paged {p : Nat} (hi : (coderOf ctx s).st = .idle) (ho : 0 < (coderRing ctx s).occ)
    (hd : ctx = .intake → s.intakeCd.dirWait = none) (hp : (coderOf ctx s).page = some p) :
    coderStart ctx s = beginCoding ctx s := by
  have room : ctx = .scan ∨ (coderOf ctx s).dirWait = none := by
    cases ctx with
    | scan => exact .inl rfl
    | intake => exact .inr (hd rfl)
  unfold coderStart
  rw [if_pos (coderCanStart_iff.2 ⟨hi, ho, room⟩), hp]

theorem coderStart_scan (hi : s.scanCd.st = .idle) (ho : 0 < s.rings.scan.occ) (hp : s.scanCd.page = none) :
    coderStart .scan s = takeUpScan s := by
  unfold coderStart
  rw [if_pos ((coderCanStart_iff (ctx := .scan)).2 ⟨hi, ho, .inl rfl⟩), show (coderOf .scan s).page = none from hp]

theorem coderStart_intake (hi : s.intakeCd.st = .idle) (ho : 0 < s.rings.intake.occ) (hp : s.intakeCd.page = none)
    (hd : s.intakeCd.dirWait = none) : coderStart .intake s = takeUpIntake s := by
  unfold coderStart
  rw [if_pos ((coderCanStart_iff (ctx := .intake)).2 ⟨hi, ho, .inr hd⟩), show (coderOf .intake s).page = none from hp]

/-- A context in CODING, its head line's code to be written. -/
abbrev codingHead (ctx : CoderCtx) (s : State) : Coder :=
  { coderOf ctx s with
    st := .coding, todo := codeLine (coderOf ctx s).prev ((coderRing ctx s).slot (coderRing ctx s).head).dots }

theorem beginCoding_room {b : Nat} (hb : (coderOf ctx s).block = some b) (hw : (coderOf ctx s).wpos < 1020) :
    beginCoding ctx s = setCoder ctx (codingHead ctx s) s := by
  refine if_neg ?_
  rw [hb]
  exact fun h => h.elim nofun fun h => absurd h hw.ne

theorem beginCoding_asks (h : (coderOf ctx s).block = none ∨ (coderOf ctx s).wpos = 1020) :
    beginCoding ctx s = pumpAsk ctx (asked ctx (codingHead ctx s) s) := by
  refine (if_pos h).trans ?_
  rw [askBlock_eq, coderOf_setCoder, asked, setCoder_setCoder]

/-- The scan context takes up the oldest FILLING page of its own. -/
theorem waitingPage_first {pre post : List Entry} {e : Entry} (hn : s.scanCd.page = none)
    (h : s.dir.entries = pre ++ e :: post) (hw : e.state = .filling ∧ e.writer = some .scan)
    (hpre : ∀ x ∈ pre, ¬ (x.state = .filling ∧ x.writer = some .scan)) : waitingPage .scan s = some e := by
  have waits (x : Entry) : waitsFor .scan s x = true ↔ x.state = .filling ∧ x.writer = some .scan := by
    simp [waitsFor, coderOf, hn]
  have none_before : pre.find? (waitsFor .scan s) = none :=
    List.find?_eq_none.2 fun x hx => mt (waits x).1 (hpre x hx)
  unfold waitingPage
  rw [h, List.find?_append, none_before, List.find?_cons_of_pos ((waits e).2 hw)]
  rfl

theorem waitingPage_none (h : ∀ e ∈ s.dir.entries, ¬ (e.state = .filling ∧ e.writer = some .scan)) :
    waitingPage .scan s = none := by
  refine List.find?_eq_none.2 fun e he => ?_
  simp only [waitsFor, Bool.and_eq_true, decide_eq_true_eq]
  exact fun k => h e he k.1

theorem takeUpIntake_eq {j : IntakeJob} (hj : s.intJob = some j) : takeUpIntake s =
    if hasRoom s then
      beginCoding .intake
        (mapCoder .intake (fun c => { c with page := some (newId s) }) (createEntry .intake j.res .intake s))
    else enterDirwait .intake s := by
  unfold takeUpIntake
  rw [hj]

end Begin

/-! ## A decoder's line start (R57, R58, R59) -/

theorem entryOf_moveReader_at {ctx : DecoderCtx} {i l b : Nat} {s : State} {e : Entry} (h : entryOf i s = some e) :
    ∃ e', entryOf i (moveReader ctx i l b s) = some e' ∧ e' = { e with printRd := e'.printRd, outRd := e'.outRd }
      ∧ e'.reader ctx = (e.reader ctx).map fun r => { r with linePos := l, block := b } := by
  cases ctx
  · exact ⟨_, entryOf_mapEntry (f := fun e =>
      { e with printRd := e.printRd.map fun r => { r with linePos := l, block := b } }) (fun _ => rfl) h, rfl, rfl⟩
  · exact ⟨_, entryOf_mapEntry (f := fun e =>
      { e with outRd := e.outRd.map fun r => { r with linePos := l, block := b } }) (fun _ => rfl) h, rfl, rfl⟩

theorem entryOf_countDamage {i : Nat} {s : State} {e : Entry} (h : entryOf i s = some e) :
    entryOf i (countDamage i s) = some { e with damaged := min 65535 (e.damaged + 1) } :=
  entryOf_mapEntry (f := fun e => { e with damaged := min 65535 (e.damaged + 1) }) (fun _ => rfl) h

section Start
variable {ctx : DecoderCtx} {s : State} {p : Pass} {e : Entry}

/-- A pass with ring room and a coded line begins to read it, or replaces it. -/
theorem decoderStart_eq (hp : passOf ctx s = some p) (hr : p.reading = none) (hf : (decoderRing ctx s).full = false)
    (he : entryOf p.page s = some e) (hl : p.linePos < e.lineCount) :
    decoderStart ctx s =
      if p.outOfStep then replaceLine ctx p s
      else setPass ctx (some { p with reading := some { parse := .mark, parity := false, markParity := false,
                                                        crossed := [] } }) s := by
  have available : lineAvailable p s = true := by
    unfold lineAvailable
    rw [he]
    exact decide_eq_true hl
  unfold decoderStart
  rw [hp]
  dsimp only
  rw [hr, hf, available]
  rfl

/-- A line replaced out of step: the ring, the pass and the page (R58, R59). -/
theorem replaceLine_fields (he : entryOf p.page s = some e) :
    ∃ e', entryOf p.page (replaceLine ctx p s) = some e'
      ∧ e' = { e with damaged := min 65535 (e.damaged + 1), printRd := e'.printRd, outRd := e'.outRd }
      ∧ e'.reader ctx = (e.reader ctx).map fun r => { r with linePos := p.linePos + 1, block := p.block.getD noBlock } := by
  let placed := setPass ctx
      (some { p with linePos := p.linePos + 1, prev := some (substitute p), outOfStep := true, reading := none })
      (enterRing ctx { dots := substitute p, lineNo := p.linePos, last := isLastLine p.page p.linePos (countDamage p.page s),
                       rep := false && ctx = .output } (countDamage p.page s))
  have counted : entryOf p.page placed = some { e with damaged := min 65535 (e.damaged + 1) } := by
    cases ctx <;> exact entryOf_countDamage he
  obtain ⟨e', entry, same, reader⟩ := entryOf_moveReader_at (ctx := ctx) (l := p.linePos + 1) (b := p.block.getD noBlock)
    counted
  exact ⟨e', entry, same, reader.trans (by cases ctx <;> rfl)⟩

end Start

/-- Settles O30: the coder's start by its page and block, the decoder's by its step. -/
theorem contextsBeginLines : Obligations.ContextsBeginLines := by
  refine ⟨fun ctx s p hi ho hd hp => ?_, fun s hi ho hp => ?_, fun s j hi ho hp hd hj => ?_, fun ctx s p e hp hr hf he hl => ?_⟩
  · have start := coderStart_paged hi ho hd hp
    intro c coding
    refine ⟨fun b hb hw => ?_, fun h => ⟨fun held => ?_, fun hb hn => ?_, fun hb hn hl hr => ?_⟩⟩
    · exact congrArg (Host.Outcome.next ∘ settle) (start.trans (beginCoding_room hb hw))
    · exact congrArg (Host.Outcome.next ∘ settle) (start.trans ((beginCoding_asks h).trans (pumpAsk_held held)))
    · exact congrArg (Host.Outcome.next ∘ settle) (start.trans ((beginCoding_asks h).trans (pumpAsk_memwait hp hb hn)))
    · have gives := start.trans ((beginCoding_asks h).trans (pumpAsk_allocates hb hn hl hr))
      obtain ⟨coder, pmc, rings, port, events, dram, entry⟩ :=
        allocate_fields (s := asked ctx (codingHead ctx s) s) (id := p) (by rw [coderOf_setCoder]; exact hp)
      rw [coderOf_setCoder, setCoder_pmc] at coder dram
      rw [setCoder_pmc] at pmc
      obtain ⟨count, head⟩ := takeHead_items hn
      refine ⟨_, congrArg (Host.Outcome.next ∘ settle) gives, coder, by rw [pmc, count], by rw [pmc, head], ?_, ?_, ?_, ?_,
        fun e he => ?_⟩
      · rw [dram, setCoder_dram]
        show leaveBehind c.block _ _ = _
        cases c.block <;> rfl
      · rw [rings, setCoder_rings]
      · rw [port, setCoder_port]
      · rw [events, setCoder_events]
      · obtain ⟨rd, gained⟩ := entry e (by cases ctx <;> exact he)
        rw [setCoder_pmc] at gained
        exact ⟨_, gained, rfl, rfl, rfl, rfl, rfl, rfl⟩
  · have start := coderStart_scan hi ho hp
    refine ⟨fun pre e post h hw hpre => ?_, fun h => ?_⟩
    · have paged : coderStart .scan { s with scanCd := { s.scanCd with page := some e.id } } =
          beginCoding .scan { s with scanCd := { s.scanCd with page := some e.id } } :=
        coderStart_paged (p := e.id) hi ho nofun rfl
      refine congrArg (Host.Outcome.next ∘ settle) (start.trans (Eq.trans ?_ paged.symm))
      unfold takeUpScan
      rw [waitingPage_first hp h hw hpre]
      rfl
    · refine congrArg (Host.Outcome.next ∘ settle) (start.trans ?_)
      unfold takeUpScan
      rw [waitingPage_none h]
  · have start := (coderStart_intake hi ho hp hd).trans (takeUpIntake_eq hj)
    refine ⟨fun h => ?_, fun h => ?_⟩
    · have room : hasRoom s = true := decide_eq_true h
      let created : State :=
        { s with
          dir := { s.dir with entries := s.dir.entries ++ [Entry.new (newId s) .intake j.res .intake],
                              nextId := if 255 ≤ newId s then 1 else newId s + 1 },
          intakeCd := { s.intakeCd with page := some (newId s) } }
      have paged : coderStart .intake created = beginCoding .intake created :=
        coderStart_paged (p := newId s) hi ho (fun _ => hd) rfl
      exact congrArg (Host.Outcome.next ∘ settle) ((start.trans (if_pos room)).trans paged.symm)
    · have full : ¬ hasRoom s = true := fun k => absurd (of_decide_eq_true k) (not_lt.2 h)
      exact congrArg (Host.Outcome.next ∘ settle) (start.trans (if_neg full))
  · have start := decoderStart_eq hp hr hf he hl
    refine ⟨fun h => ?_, fun h => ?_⟩
    · exact congrArg (Host.Outcome.next ∘ settle) (start.trans (if_neg (by rw [h]; decide)))
    · have replaced := start.trans (if_pos h)
      obtain ⟨e', entry, same, reader⟩ := replaceLine_fields (ctx := ctx) he
      obtain ⟨ring, pass, dram, -, pmc, events⟩ :=
        placeLine_fields ctx p (substitute p) false true (countDamage p.page s)
      have last : isLastLine p.page p.linePos (countDamage p.page s) =
          decide (e.state ≠ .filling ∧ p.linePos + 1 = e.lineCount) := by
        unfold isLastLine
        rw [entryOf_countDamage he]
        exact (Bool.decide_and ..).symm
      rw [last] at ring
      refine ⟨_, e', congrArg (Host.Outcome.next ∘ settle) replaced, pass, ring.trans (by cases ctx <;> rfl), entry,
        (congrArg Entry.damaged same :), (congrArg Entry.lineCount same :), (congrArg Entry.state same :),
        (congrArg Entry.blockCount same :), (congrArg Entry.headLine same :), fun rd hrd => ?_, dram, events, pmc⟩
      rw [reader, hrd]
      exact ⟨_, rfl, rfl, rfl⟩

end Sys2Proof.Machine
end

section
/-! Refresh cycles and the coder's bursts (R54, R62, R71 to R73, R83): a grant's end, a line's end, a page's end. -/

set_option Elab.async false

namespace Sys2Proof.Machine

/-! ## The grants (R71 to R73) -/

/-- The end of a grant delivers its burst. -/
theorem exec_grantEnd {lv : Levels} {s : State} {g : Grant} (h : s.pmc.grant = some g) :
    exec (.dramGrantEnd lv) s = .next (settle (deliver g { sense lv s with pmc := { s.pmc with grant := none } })) := by
  have ended : endGrant (sense lv s) = deliver g { sense lv s with pmc := { s.pmc with grant := none } } := by
    unfold endGrant
    rw [show (sense lv s).pmc.grant = some g from h]
    rfl
  show Host.Outcome.next (if s.pmc.grant.isSome then _ else _) = _
  rw [if_pos (by rw [h]; rfl), ended]

theorem deliver_refresh (live : Bool) (s : State) : deliver { burst := .refresh, live := live } s = s := rfl

/-- A refresh cycle has fallen due. -/
abbrev refreshWaiting (s : State) : State := { s with pmc := { s.pmc with refreshDue := true } }

theorem refreshFalls_timed {s : State} (hs : s.pmc.selfRefresh = false) : refreshFalls s = refreshWaiting s :=
  if_neg (by rw [hs]; decide)

/-- A refresh cycle that falls due takes a free port. -/
theorem exec_refreshDue_free {s : State} (hs : s.pmc.selfRefresh = false) (hp : s.pmc.srPending = none) (hi : s.spill = .idle)
    (hg : s.pmc.grant = none) :
    exec .refreshDue s =
      .next { s with pmc := { s.pmc with grant := some { burst := .refresh, live := true }, refreshDue := false } } := by
  have granted : arbitrate (refreshWaiting s) = grantBurst .refresh (refreshWaiting s) :=
    arbitrate_grants (spillReady_idle (s := refreshWaiting s) hi) hg hs hp rfl
  show Host.Outcome.next (arbitrate (refreshFalls s)) = _
  rw [refreshFalls_timed hs, granted]
  rfl

theorem exec_refreshDue_busy {s : State} (hs : s.pmc.selfRefresh = false) (hi : s.spill = .idle) {g : Grant}
    (hg : s.pmc.grant = some g) : exec .refreshDue s = .next (refreshWaiting s) := by
  have busy : (refreshWaiting s).pmc.grant.isSome = true := Option.isSome_of_eq_some hg
  show Host.Outcome.next (arbitrate (refreshFalls s)) = _
  rw [refreshFalls_timed hs, arbitrate_busy (.inl busy), spillReady_idle (s := refreshWaiting s) hi]

/-! ## Units written (R54) -/

section Units
variable {ctx : CoderCtx} {s : State} {n : Nat}

/-- A context whose write position has moved past `n` units. -/
abbrev Coder.past (c : Coder) (n : Nat) : Coder := { c with todo := c.todo.drop n, wpos := c.wpos + n }

theorem unitsWritten_eq : unitsWritten ctx n s =
    if (coderOf ctx s).todo.length ≤ n then
      afterLine ctx (headIsLast ctx s) (lineCoded ctx (setCoder ctx ((coderOf ctx s).past n) s))
    else if (coderOf ctx s).wpos + n = 1020 then askBlock ctx (setCoder ctx ((coderOf ctx s).past n) s)
    else setCoder ctx ((coderOf ctx s).past n) s := by
  have last : headIsLast ctx (setCoder ctx ((coderOf ctx s).past n) s) = headIsLast ctx s := by cases ctx <;> rfl
  unfold unitsWritten mapCoder
  dsimp only
  rw [coderOf_setCoder, last]
  simp only [List.isEmpty_iff, List.drop_eq_nil_iff]
  rfl

/-- The entry of a page that has one line more. -/
abbrev Entry.lineMore (e : Entry) : Entry := { e with lineCount := e.lineCount + 1 }

/-- A context between lines, its last coded line `l` ended at its write position in block `b`. -/
abbrev Coder.ended (c : Coder) (b : Nat) (l : Line) : Coder :=
  { c with st := .idle, fill := c.wpos, lastEnd := some (b, c.wpos), prev := some l, todo := [] }

/-- The last unit of a line leaves the context between lines, the page one line longer and the slot free. -/
theorem lineCoded_eq {c : Coder} {id b : Nat} (hp : c.page = some id) (hb : c.block = some b) :
    lineCoded ctx (setCoder ctx c s) = freeCodedSlot ctx
      (setCoder ctx (c.ended b ((coderRing ctx s).slot (coderRing ctx s).head).dots) (mapEntry id Entry.lineMore s)) := by
  have ring : coderRing ctx (setCoder ctx c s) = coderRing ctx s := by cases ctx <;> rfl
  cases c
  cases hp
  cases hb
  unfold lineCoded
  dsimp only
  rw [coderOf_setCoder, ring]
  cases ctx <;> rfl

theorem freeCodedSlot_fields (ctx : CoderCtx) (s : State) :
    (freeCodedSlot ctx s).dir = s.dir ∧ (freeCodedSlot ctx s).dram = s.dram
      ∧ coderOf ctx (freeCodedSlot ctx s) = coderOf ctx s := by
  cases ctx with
  | scan => exact ⟨rfl, rfl, rfl⟩
  | intake =>
    unfold freeCodedSlot
    dsimp only
    split <;> exact ⟨rfl, rfl, rfl⟩

/-- INTAKE_SPACE is raised as the marked Intake Ring falls to four (R49). -/
theorem freeCodedSlot_intake {id : Nat} (hp : s.intakeCd.page = some id) : freeCodedSlot .intake s =
    if s.rings.intakeFull = true ∧ s.rings.intake.occ - 1 ≤ 4 then
      raise evIntakeSpace id 0 0 { s with rings := { s.rings with intake := s.rings.intake.free, intakeFull := false } }
    else { s with rings := { s.rings with intake := s.rings.intake.free } } := by
  unfold freeCodedSlot
  dsimp only [mapRings]
  rw [hp]
  rfl

theorem pageOverlong_false {id : Nat} {e : Entry} (hp : (coderOf ctx s).page = some id) (he : entryOf id s = some e)
    (h : e.lineCount < 65535) : pageOverlong ctx s = false := by
  unfold pageOverlong
  rw [hp]
  dsimp only
  rw [he]
  exact decide_eq_false (not_le.2 h)

/-- A line's end below the longest page: the page goes on, or its last line completes it. -/
theorem afterLine_short {last : Bool} (h : pageOverlong ctx s = false) :
    afterLine ctx last s = if last then completePage ctx false false s else s := by
  unfold afterLine
  rw [h]
  rfl

/-- A page with a stored line is not removed (R84). -/
theorem settleEmpty_stored {id : Nat} {e : Entry} (he : entryOf id s = some e) (hn : e.headLine ≠ e.lineCount) :
    settleEmpty id s = s := by
  unfold settleEmpty
  rw [he]
  exact if_neg fun h => hn h.2.1

/-- A page with a stored line, completed at its context's last line: the header of its last block is written and the page
stays. -/
theorem completePage_stored {t q : Bool} {id b f : Nat} {e : Entry} (hp : (coderOf ctx s).page = some id)
    (hb : (coderOf ctx s).block = some b) (hl : (coderOf ctx s).lastEnd = some (b, f)) (he : entryOf id s = some e)
    (hn : e.headLine ≠ e.lineCount) :
    completePage ctx t q s = noteCompleted ctx id t q (markComplete id t (writeHeader b noBlock f (idleCoder ctx s))) := by
  have chain : settleChain id (coderOf ctx s) (idleCoder ctx s) = writeHeader b noBlock f (idleCoder ctx s) := by
    unfold settleChain
    rw [hb, hl]
    exact if_pos rfl
  obtain ⟨e', written, same⟩ := ((kin_idleCoder ctx s).trans (kin_writeHeader b noBlock f _)).some he
  have marked := entryOf_mapEntry (f := fun e => { e with state := .complete, writer := none, truncated := t })
    (fun _ => rfl) written
  obtain ⟨e'', noted, same'⟩ := (kin_noteCompleted ctx id t q _).some marked
  obtain ⟨-, -, lines, head, -⟩ := kern_items same
  obtain ⟨-, -, lines', head', -⟩ := kern_items same'
  unfold completePage
  dsimp only
  rw [hp]
  dsimp only
  rw [chain]
  exact settleEmpty_stored noted (by rwa [head', head, lines', lines])

/-- The context and the DRAM after its page is completed. -/
theorem completed_fields {t q : Bool} {id b f : Nat} :
    coderOf ctx (noteCompleted ctx id t q (markComplete id t (writeHeader b noBlock f (idleCoder ctx s)))) =
        { Coder.reset with dirWait := (coderOf ctx s).dirWait }
      ∧ (noteCompleted ctx id t q (markComplete id t (writeHeader b noBlock f (idleCoder ctx s)))).dram =
          s.dram.writeAll (blockAddr b) false (be16 noBlock ++ be16 f) := by
  cases ctx <;> cases q <;> exact ⟨rfl, rfl⟩

end Units

/-! ## The coder's burst -/

/-- A coder's units in the DRAM, the grant ended. -/
abbrev codeWritten (lv : Levels) (s : State) (a : Nat) (us : List Byte) : State :=
  { sense lv s with pmc := { s.pmc with grant := none }, dram := s.dram.writeAll a false us }

section Burst
variable {ctx : CoderCtx} {lv : Levels} {s : State} {a : Nat} {us : List Byte}

theorem coderOf_codeWritten : coderOf ctx (codeWritten lv s a us) = coderOf ctx s := by cases ctx <;> rfl

theorem coderRing_codeWritten : coderRing ctx (codeWritten lv s a us) = coderRing ctx s := by cases ctx <;> rfl

theorem deliver_code (ctx : CoderCtx) (a : Nat) (us : List Byte) (s : State) :
    deliver { burst := .code ctx a us, live := true } s = unitsWritten ctx us.length (mapDram (·.writeAll a false us) s) := rfl

theorem exec_codeBurst (h : s.pmc.grant = some { burst := .code ctx a us, live := true }) :
    exec (.dramGrantEnd lv) s = .next (settle (unitsWritten ctx us.length (codeWritten lv s a us))) := by
  rw [exec_grantEnd h, deliver_code]
  rfl

/-- Units written in the middle of a line. -/
theorem codeBurst_goesOn (hn : us.length < (coderOf ctx s).todo.length) :
    unitsWritten ctx us.length (codeWritten lv s a us) =
      if (coderOf ctx s).wpos + us.length = 1020 then
        pumpAsk ctx (asked ctx ((coderOf ctx s).past us.length) (codeWritten lv s a us))
      else setCoder ctx ((coderOf ctx s).past us.length) (codeWritten lv s a us) := by
  rw [unitsWritten_eq, coderOf_codeWritten, if_neg (by omega), askBlock_eq, coderOf_setCoder, asked, setCoder_setCoder]

/-- The line coded, its page's entry longer. -/
abbrev codedLine (ctx : CoderCtx) (lv : Levels) (s : State) (a : Nat) (us : List Byte) (id b : Nat) : State :=
  freeCodedSlot ctx
    (setCoder ctx (((coderOf ctx s).past us.length).ended b ((coderRing ctx s).slot (coderRing ctx s).head).dots)
      (mapEntry id Entry.lineMore (codeWritten lv s a us)))

section LineEnd
variable {id b : Nat} {e : Entry} (hn : us.length = (coderOf ctx s).todo.length) (hp : (coderOf ctx s).page = some id)
  (hb : (coderOf ctx s).block = some b) (he : entryOf id s = some e) (hl : e.lineCount + 1 < 65535)
include he

theorem entryOf_codedLine : entryOf id (codedLine ctx lv s a us id b) = some e.lineMore := by
  have counted : entryOf id (mapEntry id Entry.lineMore (codeWritten lv s a us)) = some e.lineMore :=
    entryOf_mapEntry (f := Entry.lineMore) (fun _ => rfl) he
  unfold entryOf at counted ⊢
  rw [(freeCodedSlot_fields ctx _).1]
  cases ctx <;> exact counted

include hn hp hb hl

/-- Units that end a line: the page goes on, or its last line completes it. -/
theorem codeBurst_ends : unitsWritten ctx us.length (codeWritten lv s a us) =
    if ((coderRing ctx s).slot (coderRing ctx s).head).last then completePage ctx false false (codedLine ctx lv s a us id b)
    else codedLine ctx lv s a us id b := by
  have coded := lineCoded_eq (ctx := ctx) (c := (coderOf ctx s).past us.length) (s := codeWritten lv s a us) hp hb
  have page : (coderOf ctx (codedLine ctx lv s a us id b)).page = some id := by
    rw [(freeCodedSlot_fields ctx _).2.2, coderOf_setCoder]
    exact hp
  have short := pageOverlong_false page (entryOf_codedLine he) hl
  rw [unitsWritten_eq, coderOf_codeWritten, if_pos hn.ge, coded, coderRing_codeWritten, afterLine_short short]
  unfold headIsLast
  rw [coderRing_codeWritten]

end LineEnd

end Burst

/-- Settles O32: by the grant that ends, a coder's burst by what its units end. -/
theorem coderBurstsAndRefresh : Obligations.CoderBurstsAndRefresh := by
  refine ⟨fun lv s live h => by rw [exec_grantEnd h, deliver_refresh],
    fun s hs hp hi => ⟨exec_refreshDue_free hs hp hi, fun g hg => exec_refreshDue_busy hs hi hg⟩,
    fun lv s ctx a us hg => ?_⟩
  intro c w x written
  have burst := exec_codeBurst (lv := lv) hg
  refine ⟨fun hn hw => ?_, fun id b hn hw hp hb hbuild => ⟨fun hc hk => ?_, fun hc => ?_⟩, fun id b e hn hx hp hb he hl => ?_,
    fun id b e hn hx hp hb he hl hh _ => ?_⟩
  · rw [burst, codeBurst_goesOn hn, if_neg hw.ne]
  · have gives := (codeBurst_goesOn (lv := lv) (a := a) hn).trans ((if_pos hw).trans
      (pumpAsk_allocates (s := codeWritten lv s a us) hbuild hc hk rfl))
    obtain ⟨coder, pmc, rings, port, events, dram, -⟩ :=
      allocate_fields (s := asked ctx (c.past us.length) written) (id := id) (by rw [coderOf_setCoder]; exact hp)
    rw [coderOf_setCoder] at coder dram
    rw [setCoder_pmc] at coder dram pmc
    refine ⟨_, by rw [burst, gives], coder, by rw [pmc]; exact (takeHead_items (p := written.pmc) hc).1, ?_, ?_, ?_, ?_⟩
    · rw [rings, setCoder_rings]; rfl
    · rw [port, setCoder_port]; rfl
    · rw [events, setCoder_events]; rfl
    · rw [dram, setCoder_dram]
      show leaveBehind c.block _ _ = _
      rw [hb]
      rfl
  · rw [burst, codeBurst_goesOn hn]
    exact congrArg (Host.Outcome.next ∘ settle) ((if_pos hw).trans
      (pumpAsk_memwait (c := c.past us.length) (s := codeWritten lv s a us) hp hbuild hc))
  · have ends := codeBurst_ends (lv := lv) (a := a) hn hp hb he hl
    rw [if_neg (by rw [hx]; decide)] at ends
    intro coded
    refine ⟨fun hctx => ?_, fun hctx => ?_⟩
    · subst hctx
      rw [burst, ends]
      rfl
    · subst hctx
      rw [burst, ends]
      refine congrArg (Host.Outcome.next ∘ settle) (freeCodedSlot_intake ?_)
      exact hp
  · have ends := codeBurst_ends (lv := lv) (a := a) hn hp hb he hl
    rw [if_pos hx] at ends
    obtain ⟨-, dram, coder⟩ := freeCodedSlot_fields ctx
      (setCoder ctx ((c.past us.length).ended b x.dots) (mapEntry id Entry.lineMore written))
    rw [coderOf_setCoder] at coder
    rw [setCoder_dram] at dram
    have lines : e.lineMore.headLine ≠ e.lineMore.lineCount := (Nat.lt_succ_of_le hh).ne
    have counted : entryOf id (codedLine ctx lv s a us id b) = some e.lineMore := entryOf_codedLine he
    have page : (coderOf ctx (codedLine ctx lv s a us id b)).page = some id := by rw [coder]; exact hp
    obtain ⟨e', entry, state, truncated, writer, count, -⟩ := (completePage_fate false false page counted).2 (.inl lines)
    have done := completePage_stored (t := false) (q := false) (b := b) (f := w) page (by rw [coder]; exact hb)
      (by rw [coder]) counted lines
    obtain ⟨idle, header⟩ := completed_fields (ctx := ctx) (s := codedLine ctx lv s a us id b) (t := false) (q := false)
      (id := id) (b := b) (f := w)
    rw [← done] at idle header
    refine ⟨_, e', by rw [burst, ends], ?_, entry, state, truncated, writer, count, ?_⟩
    · rw [idle, coder]
    · rw [header, dram]
      rfl

end Sys2Proof.Machine
end

section
/-! The page accounting under every command (R64, R78), from the laws of DirectoryCommands. -/

set_option Elab.async false

namespace Sys2Proof.Machine

/-! ## The lines from outside -/

theorem sound_sense (lv : Levels) {s : State} (h : PagesSound s) : PagesSound (sense lv s) := sound_keep h (keep_sense lv s)

theorem sound_arbitrate {s : State} (h : PagesSound s) : PagesSound (arbitrate s) := sound_keep h (keep_arbitrate s)

theorem sound_ite {s t : State} {p : Prop} [Decidable p] (h : PagesSound s) (k : PagesSound t) :
    PagesSound (if p then s else t) := by
  split
  · exact h
  · exact k

theorem sound_ringRises {s : State} (h : PagesSound s) : PagesSound (ringRises s) :=
  sound_ite h (sound_wakeRise _ _ _ (sound_keep h keep_plain))

theorem sound_keyRises {s : State} (h : PagesSound s) : PagesSound (keyRises s) :=
  sound_ite h (sound_wakeRise _ _ _ (sound_keep h keep_plain))

theorem sound_docpRises {s : State} (h : PagesSound s) : PagesSound (docpRises s) :=
  sound_ite h (sound_keep (sound_wakeRise _ _ _ (sound_keep h keep_plain)) (keep_ite (keep_raise ..) (.refl _)))

theorem sound_wakeTimerExpires {s : State} (h : PagesSound s) : PagesSound (wakeTimerExpires s) :=
  sound_ite (sound_wakeEvent _ (sound_keep h (keep_mapPower ..))) h

theorem keep_idleExpires (s : State) : Keep s (idleExpires s) :=
  keep_ite (keep_ite (keep_enterDoze ..) (keep_setIdle ..)) (.refl s)

theorem keep_coverFalls (s : State) : Keep s (coverFalls s) :=
  keep_ite (Keep.trans (t := { s with lines := { s.lines with cover := false } }) keep_plain (keep_coverOpened _)) (.refl s)

theorem sound_pfailLineRises {s : State} (h : PagesSound s) : PagesSound (pfailLineRises s) :=
  sound_ite h (sound_pfailRises (sound_keep h keep_plain))

theorem sound_pfailLineFalls {s : State} (h : PagesSound s) : PagesSound (pfailLineFalls s) :=
  sound_ite (sound_ite (sound_coldStart _) (sound_keep h keep_plain)) h

theorem sound_resetEnds {s : State} (h : PagesSound s) (hb : s.boot.state = .reset) : PagesSound (resetEnds s) :=
  sound_ite (sound_leaveReset h hb) h

/-- RESET asserted is seen in the boot state RESET, so its release leaves that state (R177). -/
theorem sound_resetReleased {s : State} (m : MotorsSound s) (h : PagesSound s) : PagesSound (resetReleased s) := by
  unfold resetReleased
  split
  · next asserted => exact sound_resetEnds (sound_keep h keep_plain) (m.resetSeen asserted)
  · exact h

theorem sound_resetStateEnds {s : State} (h : PagesSound s) : PagesSound (resetStateEnds s) := by
  unfold resetStateEnds
  split
  · next reset => exact sound_resetEnds h reset.1
  · exact h

theorem keep_holdExpires (ch : Channel) (s : State) : Keep s (holdExpires ch s) := keep_ite (keep_mapMotor ..) (.refl s)

theorem keep_refreshFalls (s : State) : Keep s (refreshFalls s) := keep_ite (.refl s) (keep_mapPmc rfl rfl)

/-- A return to RUN is under way in READY alone, where a held order may be dispatched (R171). -/
theorem sound_returned {s : State} (m : MotorsSound s) (h : PagesSound s) (k : s.power.returning.isSome = true) :
    PagesSound (dispatchHeld (runReached s)) :=
  have ready : s.boot.state = .ready := (m.coming (Option.isSome_iff_ne_none.mp k)).1
  sound_dispatchHeld (sound_keep h (keep_runReached s)) ((keep_runReached s).boot.trans ready)

/-! ## Every command -/

/-- Every command keeps the page accounting. -/
theorem sound_exec (i : Instr) {s : State} (m : MotorsSound s) (h : PagesSound s) : ∀ t, exec i s = .next t → PagesSound t := by
  intro t ht
  cases i <;> injection ht with ht <;> subst ht
  case wstbStrobe w d lv => exact sound_ite (sound_strobe _ _ (sense_sound lv m) (sound_sense lv h)) (sound_sense lv h)
  case rstbStrobe cs => exact sound_ite (sound_readStrobe h) h
  case sleepEntry lv => exact sound_settle (sound_entryGoesOn (sound_sense lv h))
  case dramGrantEnd lv => exact sound_ite (sound_settle (sound_endGrant (sound_sense lv h))) (sound_sense lv h)
  case refreshDue => exact sound_arbitrate (sound_keep h (keep_refreshFalls s))
  case coderLineStart c => exact sound_settle (sound_coderStart h c)
  case memwaitExpiry c => exact sound_settle (sound_keep h (keep_memExpire ..))
  case dirwaitExpiry c => exact sound_settle (sound_keep h (keep_dirExpire ..))
  case decoderLineStart c => exact sound_settle (sound_keep h (keep_decoderStart ..))
  case readoutEnd v => exact sound_settle (sound_keep h (keep_readoutEnds ..))
  case lampwarmExpiry => exact sound_keep h (keep_lampWarm s)
  case motorStep ch lv => exact sound_settle (sound_stepFalls ch (sound_sense lv h))
  case motionEnd ch lv => exact sound_settle (sound_keep (sound_sense lv h) (keep_motionEnds ..))
  case holdTimerExpiry ch => exact sound_keep h (keep_holdExpires ..)
  case headShiftEnd => exact sound_keep h (keep_headEvent ..)
  case strobeEnd => exact sound_keep h (keep_headEvent ..)
  case gapEnd => exact sound_settle (sound_keep h (keep_headEvent ..))
  case tempAgeExpiry => exact sound_keep h (keep_tempExpired s)
  case idleTimerExpiry => exact sound_keep h (keep_idleExpires s)
  case wakeTimerExpiry => exact sound_arbitrate (sound_wakeTimerExpires h)
  case ringRise => exact sound_arbitrate (sound_ringRises h)
  case keyRise => exact sound_arbitrate (sound_keyRises h)
  case docpRise => exact sound_arbitrate (sound_docpRises h)
  case runReached lv =>
    show PagesSound (if s.power.returning.isSome then _ else _)
    split
    · next returning => exact sound_settle (sound_returned (sense_sound lv m) (sound_sense lv h) returning)
    · exact sound_sense lv h
  case coverOpen => exact sound_settle (sound_keep h (keep_coverFalls s))
  case pfailRise => exact sound_settle (sound_pfailLineRises h)
  case pfailFall => exact sound_pfailLineFalls h
  case powerOn lv d => exact sound_cold ..
  case resetAssert => exact sound_coldStart _
  case resetRelease lv => exact sound_settle (sound_resetReleased (sense_sound lv m) (sound_sense lv h))
  case resetStateEnd lv => exact sound_settle (sound_resetStateEnds (sound_sense lv h))
  case romRecord k b n q =>
    show PagesSound (if s.boot.state = .romload ∧ s.power.pfail = .inactive then _ else _)
    split
    · next loading =>
      have noEntry : s.power.entry = none := by
        cases entry : s.power.entry with
        | none => rfl
        | some e => exact absurd ((m.entering e entry).ready.symm.trans loading.1) nofun
      exact sound_settle (sound_romRecord _ _ _ _ h loading.1 (m.spilled loading.2 noEntry (.inr (.inr loading.1))))
    · exact h
  case scan => exact sound_writeRecord _ (sense_sound _ m) (sound_sense _ h)
  case print => exact sound_writeRecord _ (sense_sound _ m) (sound_sense _ h)
  case resume => exact sound_writeRecord _ (sense_sound _ m) (sound_sense _ h)
  case temp => exact sound_writeRecord _ (sense_sound _ m) (sound_sense _ h)
  all_goals exact sound_writeRecord _ m h

/-- Settles O8: every command keeps the accounting, which in READY, outside the list build, gives R64's law. -/
theorem directoryAndBlocksStaySound : Obligations.DirectoryAndBlocksStaySound := by
  intro s t m h k
  have sound : PagesSound t := by
    rcases step_front k with rfl | ⟨c, r, -, hc⟩
    · exact h
    · exact sound_exec c (m.queue r) (h.queue r) t hc
  obtain ⟨room, ids⟩ := sound.dir
  refine ⟨sound, room, ids, fun ready noBuild => ?_⟩
  have law : freeCount t + (t.dir.entries.map Entry.blockCount).sum + Config.reserveBlocks = nBlocks t :=
    sound.law (.inl ready) noBuild
  rwa [freeCount, noBuild] at law

end Sys2Proof.Machine
end

section
/-! The canonical form of the page DRAM under every operation and every command (R61, R63): only headers, a coder's units, the
spill and a diagnostic write change the DRAM, and each by runs of writes, which keep the form. -/

set_option Elab.async false

namespace Sys2Proof.Machine

/-- A change that keeps the canonical form of the DRAM. -/
structure FormKept (s t : State) : Prop where
  form : s.dramSound → t.dramSound

theorem FormKept.refl (s : State) : FormKept s s := ⟨id⟩

theorem FormKept.trans {s t u : State} (h : FormKept s t) (k : FormKept t u) : FormKept s u := ⟨fun x => k.form (h.form x)⟩

/-- A change that leaves the DRAM as it is. -/
theorem form_same {s t : State} (h : t.dram = s.dram := by rfl) : FormKept s t := by
  constructor
  unfold State.dramSound
  rw [h]
  exact id

/-- What keeps the form after a change that leaves the DRAM as it is. -/
theorem FormKept.after {s t u : State} (k : FormKept t u) (h : t.dram = s.dram := by rfl) : FormKept s u :=
  (form_same h).trans k

theorem form_ite {s t u : State} {p : Prop} [Decidable p] (h : FormKept s t) (k : FormKept s u) :
    FormKept s (if p then t else u) := by
  split
  · exact h
  · exact k

theorem form_fold {α : Type} {f : State → α → State} (hf : ∀ s i, FormKept s (f s i)) (is : List α) :
    ∀ s, FormKept s (is.foldl f s) := by
  induction is with
  | nil => exact .refl
  | cons i is ih => exact fun s => (hf s i).trans (ih _)

/-- A run of writes: the one way the DRAM changes but at power-up. -/
theorem form_writeAll (a : Nat) (seeded : Bool) (bs : List Byte) (s : State) : FormKept s (mapDram (·.writeAll a seeded bs) s) :=
  ⟨Memory.writeAll_wf bs s.dram a seeded⟩

theorem form_raise (f : Fin 20) (p c r : Nat) (s : State) : FormKept s (raise f p c r s) := form_same
theorem form_mapPmc (f : Pmc → Pmc) (s : State) : FormKept s (mapPmc f s) := form_same
theorem form_mapDir (f : Directory → Directory) (s : State) : FormKept s (mapDir f s) := form_same
theorem form_mapEntry (i : Nat) (f : Entry → Entry) (s : State) : FormKept s (mapEntry i f s) := form_same
theorem form_mapRings (f : Rings → Rings) (s : State) : FormKept s (mapRings f s) := form_same
theorem form_mapFront (f : ScanFront → ScanFront) (s : State) : FormKept s (mapFront f s) := form_same
theorem form_mapPort (f : Port → Port) (s : State) : FormKept s (mapPort f s) := form_same
theorem form_mapPower (f : Power → Power) (s : State) : FormKept s (mapPower f s) := form_same
theorem form_mapBoot (f : Boot → Boot) (s : State) : FormKept s (mapBoot f s) := form_same
theorem form_mapTemp (f : Temperature → Temperature) (s : State) : FormKept s (mapTemp f s) := form_same
theorem form_mapPrtJob (f : PrintJob → PrintJob) (s : State) : FormKept s (mapPrtJob f s) := form_same
theorem form_mapIntJob (f : IntakeJob → IntakeJob) (s : State) : FormKept s (mapIntJob f s) := form_same
theorem form_mapScanJob (f : ScanJob → ScanJob) (s : State) : FormKept s (mapScanJob f s) := form_same

/-! ## Tables -/

theorem form_setPending (i : Fin 14) (o : Option (List Byte)) (s : State) : FormKept s (setPending i o s) := form_same

theorem form_setActive (i : Fin 14) (img : List Byte) (s : State) : FormKept s (setActive i img s) := by
  unfold setActive
  exact form_ite form_same (form_ite form_same (form_ite form_same form_same))

theorem form_replaceActive (i : Fin 14) (img : List Byte) (s : State) : FormKept s (replaceActive i img s) :=
  (form_setActive ..).trans (form_setPending ..)

theorem form_applyPending (i : Fin 14) (s : State) : FormKept s (applyPending i s) := by
  unfold applyPending
  split
  · exact .refl s
  · exact ((form_setActive ..).trans (form_setPending ..)).trans (form_raise ..)

theorem form_applyAll (is : List (Fin 14)) (s : State) : FormKept s (applyAll is s) :=
  form_fold (fun u i => form_applyPending i u) is s

theorem form_applyMotorTables (s : State) : FormKept s (applyMotorTables s) :=
  form_fold (fun u i => form_ite (.refl u) (form_applyPending i u)) _ s

theorem form_completeImage (i : Fin 14) (img : List Byte) (s : State) : FormKept s (completeImage i img s).1 := by
  have installed (x : List Byte) : FormKept s (installImage i x s).1 := by
    have settings (r : Prop) [Decidable r] : FormKept s
        (if r then startBuild { replaceActive tSettings x s with
            events := (replaceActive tSettings x s).events.maskAll (beNat (sliceOf x 27 3)) }
          else { replaceActive tSettings x s with
            events := (replaceActive tSettings x s).events.maskAll (beNat (sliceOf x 27 3)) }) :=
      form_ite ((form_replaceActive tSettings x s).trans form_same) ((form_replaceActive tSettings x s).trans form_same)
    unfold installImage
    split
    · exact settings _
    · split
      · exact form_same
      · exact form_replaceActive ..
  unfold completeImage
  split
  · exact .refl s
  · split
    · exact .refl s
    · split
      · exact .refl s
      · exact installed _

theorem form_gather (i : Fin 14) (n : Nat) (fin : Bool) (img : List Byte) (s : State) : FormKept s (gather i n fin img s).1 := by
  unfold gather
  split
  · exact form_same
  · split
    · exact (form_completeImage ..).after
    · exact form_same

theorem form_loadSegment (i : Fin 14) (g f : Nat) (b : List Byte) (s : State) : FormKept s (loadSegment i g f b s).1 := by
  unfold loadSegment
  split
  · exact .refl s
  · split
    · exact form_gather ..
    · split
      · exact .refl s
      · split
        · exact form_gather ..
        · exact .refl s

/-! ## Page memory -/

theorem form_setCoder (c : CoderCtx) (x : Coder) (s : State) : FormKept s (setCoder c x s) := form_same (setCoder_dram c x s)

theorem form_mapCoder (c : CoderCtx) (f : Coder → Coder) (s : State) : FormKept s (mapCoder c f s) := form_setCoder ..

theorem form_setPass (c : DecoderCtx) (p : Option Pass) (s : State) : FormKept s (setPass c p s) := form_same (setPass_dram c p s)

theorem form_positionReader (i b : Nat) (s : State) : FormKept s (positionReader i b s) := by
  unfold positionReader
  split
  · exact .refl s
  · exact form_ite form_same (.refl s)

theorem form_allocate (c : CoderCtx) (s : State) : FormKept s (allocate c s) := by
  unfold allocate
  extract_lets b x s1 s2 s3
  have left : FormKept s s2 := by
    simp only [s2]
    split
    · exact form_same
    · exact (form_writeAll ..).after
  have taken : FormKept s s3 := left.trans (form_setCoder ..)
  split
  · exact taken
  · exact (taken.trans (form_mapEntry ..)).trans (form_positionReader ..)

theorem form_pumpAsk (c : CoderCtx) (s : State) : FormKept s (pumpAsk c s) :=
  form_ite (form_ite ((form_setCoder ..).trans (form_raise ..)) (form_ite (form_allocate c s) (.refl s))) (.refl s)

theorem form_askBlock (c : CoderCtx) (s : State) : FormKept s (askBlock c s) := (form_mapCoder ..).trans (form_pumpAsk ..)

theorem form_serveOne (c : CoderCtx) (s : State) : FormKept s (serveOne c s) :=
  (form_ite (form_setCoder ..) (.refl s)).trans (form_pumpAsk ..)

theorem form_serveWaiters (s : State) : FormKept s (serveWaiters s) := (form_serveOne .scan s).trans (form_serveOne .intake _)

theorem form_freeSingle (b : Nat) (s : State) : FormKept s (freeSingle b s) := (form_mapPmc ..).trans (form_serveWaiters _)

theorem form_freeCurrent (b f : Nat) (s : State) : FormKept s (freeCurrent b f s) := (form_mapPmc ..).trans (form_serveWaiters _)

theorem form_checkLink (b : Nat) (s : State) : FormKept s (checkLink b s) := form_ite (.refl s) form_same

theorem form_freeChain (a b k : Nat) (c : Option Nat) (s : State) : FormKept s (freeChain a b k c s) :=
  form_ite (.refl s) (((form_ite (form_checkLink ..) (.refl s)).trans (form_mapPmc ..)).trans (form_serveWaiters _))

theorem form_doUpkeep (op : Upkeep) (s : State) : FormKept s (doUpkeep op s) := by
  unfold doUpkeep
  split
  · exact form_writeAll ..
  · exact form_writeAll ..
  · exact (form_checkLink ..).trans
      (form_ite (((form_ite (.refl _) (form_mapPmc ..)).trans (form_pumpAsk .scan _)).trans (form_pumpAsk .intake _)) (.refl _))

theorem form_doBuild (s : State) : FormKept s (doBuild s) := by
  unfold doBuild
  split
  · exact .refl s
  · exact form_ite ((form_writeAll ..).trans (form_mapPmc ..))
      ((((form_writeAll ..).trans (form_mapPmc ..)).trans (form_pumpAsk .scan _)).trans (form_pumpAsk .intake _))

theorem form_killGrant (f : Burst → Bool) (s : State) : FormKept s (killGrant f s) := form_same

theorem form_idleCoder (c : CoderCtx) (s : State) : FormKept s (idleCoder c s) := (form_mapCoder ..).trans (form_killGrant ..)

theorem form_idleDecoder (c : DecoderCtx) (s : State) : FormKept s (idleDecoder c s) :=
  (form_setPass ..).trans (form_killGrant ..)

/-! ## Page directory -/

theorem form_removeEntry (i : Nat) (s : State) : FormKept s (removeEntry i s) := form_same

theorem form_dropEntry (e : Entry) (c : Option Nat) (s : State) : FormKept s (dropEntry e c s) :=
  (form_freeChain ..).trans (form_removeEntry ..)

theorem form_settleEmpty (i : Nat) (s : State) : FormKept s (settleEmpty i s) := by
  unfold settleEmpty
  split
  · exact .refl s
  · exact form_ite (form_dropEntry ..) (.refl s)

theorem form_settleChain (i : Nat) (c : Coder) (s : State) : FormKept s (settleChain i c s) := by
  unfold settleChain
  split
  · exact .refl s
  · exact (form_mapEntry ..).trans (form_freeCurrent ..)
  · exact (form_writeAll ..).trans (form_ite (.refl _) ((form_mapEntry ..).trans (form_freeCurrent ..)))

theorem form_noteCompleted (c : CoderCtx) (i : Nat) (t q : Bool) (s : State) : FormKept s (noteCompleted c i t q s) := by
  unfold noteCompleted
  split
  · exact form_ite (form_mapScanJob ..) ((form_mapScanJob ..).trans (form_raise ..))
  · exact form_mapIntJob ..

theorem form_completePage (c : CoderCtx) (t q : Bool) (s : State) : FormKept s (completePage c t q s) := by
  unfold completePage
  dsimp only
  split
  · exact .refl s
  · exact ((((form_idleCoder c s).trans (form_settleChain ..)).trans (form_mapEntry ..)).trans (form_noteCompleted ..)).trans
      (form_settleEmpty ..)

theorem form_removeReader (c : DecoderCtx) (i : Nat) (s : State) : FormKept s (removeReader c i s) := by
  unfold removeReader
  split
  · exact .refl s
  · split
    · exact .refl s
    · exact (form_mapEntry ..).trans (form_ite (form_dropEntry ..) (form_ite (form_dropEntry ..) (form_settleEmpty ..)))

theorem form_admitReader (c : DecoderCtx) (e : Entry) (b : Bool) (s : State) : FormKept s (admitReader c e b s) :=
  (form_mapEntry ..).trans (form_setPass ..)

theorem form_leaveBlock (c : DecoderCtx) (i b l o : Nat) (s : State) : FormKept s (leaveBlock c i b l o s) := by
  unfold leaveBlock
  split
  · exact .refl s
  · split
    · exact .refl s
    · exact form_ite (((form_mapEntry ..).trans (form_freeSingle ..)).trans (form_mapEntry ..)) (.refl s)

theorem form_printPageGone (s : State) : FormKept s (printPageGone s) :=
  ((form_idleDecoder .print s).trans (form_mapRings ..)).trans (form_mapPrtJob ..)

theorem form_discardPage (i : Nat) (r : Bool) (s : State) : FormKept s (discardPage i r s) := by
  unfold discardPage
  split
  · exact .refl s
  · exact ((((form_ite (form_printPageGone s) (.refl s)).trans (form_mapEntry ..)).trans
      (form_ite (form_idleCoder ..) (.refl _))).trans (form_ite (form_idleCoder ..) (.refl _))).trans (form_dropEntry ..)

theorem form_discardWritten (c : CoderCtx) (s : State) : FormKept s (discardWritten c s) := by
  unfold discardWritten
  split
  · exact .refl s
  · exact form_discardPage ..

theorem form_applyPolicy (c : CoderCtx) (p : Policy) (s : State) : FormKept s (applyPolicy c p s) := by
  unfold applyPolicy
  split
  · exact form_completePage ..
  · exact form_discardWritten ..

theorem form_discardWaiting (c : CoderCtx) (s : State) : FormKept s (discardWaiting c s) :=
  form_fold (fun u i => form_discardPage i false u) _ s

theorem form_enterDirwait (c : CoderCtx) (s : State) : FormKept s (enterDirwait c s) := (form_mapCoder ..).trans (form_raise ..)

theorem form_endDirwait (c : CoderCtx) (s : State) : FormKept s (endDirwait c s) := form_mapCoder ..

/-! ## The coder and decoder contexts -/

theorem form_beginCoding (c : CoderCtx) (s : State) : FormKept s (beginCoding c s) :=
  form_ite ((form_setCoder ..).trans (form_askBlock ..)) (form_setCoder ..)

theorem form_takeUpScan (s : State) : FormKept s (takeUpScan s) := by
  unfold takeUpScan
  split
  · exact .refl s
  · exact (form_mapCoder ..).trans (form_beginCoding ..)

theorem form_takeUpIntake (s : State) : FormKept s (takeUpIntake s) := by
  unfold takeUpIntake
  split
  · exact .refl s
  · exact form_ite (((form_mapDir ..).trans (form_mapCoder ..)).trans (form_beginCoding ..)) (form_enterDirwait ..)

theorem form_coderStart (c : CoderCtx) (s : State) : FormKept s (coderStart c s) := by
  unfold coderStart
  split
  · split
    · exact form_beginCoding ..
    · exact form_takeUpScan s
    · exact form_takeUpIntake s
  · exact .refl s

theorem form_freeCodedSlot (c : CoderCtx) (s : State) : FormKept s (freeCodedSlot c s) := by
  unfold freeCodedSlot
  split
  · exact form_mapRings ..
  · exact (form_mapRings ..).trans (form_ite ((form_mapRings ..).trans (form_raise ..)) (.refl _))

theorem form_lineCoded (c : CoderCtx) (s : State) : FormKept s (lineCoded c s) :=
  ((form_mapEntry ..).trans (form_setCoder ..)).trans (form_freeCodedSlot ..)

theorem form_moveReader (c : DecoderCtx) (i l b : Nat) (s : State) : FormKept s (moveReader c i l b s) := form_mapEntry ..

theorem form_placeLine (c : DecoderCtx) (p : Pass) (l : Line) (r o : Bool) (s : State) : FormKept s (placeLine c p l r o s) :=
  ((form_mapRings ..).trans (form_setPass ..)).trans (form_moveReader ..)

theorem form_leaveAll (c : DecoderCtx) (i l o : Nat) (bs : List Nat) (s : State) : FormKept s (leaveAll c i l o bs s) :=
  form_fold (fun u b => form_leaveBlock c i b l o u) bs s

theorem form_finishLine (c : DecoderCtx) (p : Pass) (r : LineRead) (s : State) : FormKept s (finishLine c p r s) := by
  unfold finishLine
  dsimp only
  split
  · exact (form_placeLine ..).trans (form_leaveAll ..)
  · have told : FormKept s (if r.parity = true then raise evParity p.page 0 (parityReason c) (countDamage p.page s)
        else countDamage p.page s) :=
      form_ite ((form_mapEntry ..).trans (form_raise ..)) (form_mapEntry ..)
    exact (told.trans (form_placeLine ..)).trans (form_ite (form_leaveAll ..) (.refl _))

theorem form_decoderStart (c : DecoderCtx) (s : State) : FormKept s (decoderStart c s) := by
  unfold decoderStart
  split
  · exact .refl s
  · exact form_ite (form_ite ((form_mapEntry ..).trans (form_placeLine ..)) (form_setPass ..)) (.refl s)

theorem form_enterSuccessor (c : DecoderCtx) (p : Pass) (r : LineRead) (n : Nat) (s : State) :
    FormKept s (enterSuccessor c p r n s) :=
  form_ite (form_setPass ..) ((form_setPass ..).trans (form_moveReader ..))

theorem form_firstUnitRead (c : DecoderCtx) (p : Pass) (r : LineRead) (s : State) : FormKept s (firstUnitRead c p r s) :=
  form_ite ((form_leaveAll ..).trans (form_moveReader ..)) (.refl s)

theorem form_decodeBurst (c : DecoderCtx) (s : State) : FormKept s (decodeBurst c s) := by
  unfold decodeBurst
  split
  · exact .refl s
  · split
    · exact .refl s
    · exact form_finishLine ..
    · exact form_ite (form_ite (form_finishLine ..) (form_enterSuccessor ..))
        ((form_firstUnitRead ..).trans (form_ite (form_finishLine ..) (form_setPass ..)))

/-! ## Motors -/

theorem form_mapMotor (ch : Channel) (f : Motor → Motor) (s : State) : FormKept s (mapMotor ch f s) :=
  form_same (setMotor_dram ch _ s)

theorem form_issueStep (ch : Channel) (s : State) : FormKept s (issueStep ch s) := form_mapMotor ..

theorem form_takeRun (ch : Channel) (o : Owner) (r : Bool) (q u : Nat) (n : Option Nat) (s : State) :
    FormKept s (takeRun ch o r q u n s) := (form_mapMotor ..).trans (form_issueStep ..)

theorem form_requestP (r : MotorRequest) (s : State) : FormKept s (requestP r s).1 := by
  unfold requestP
  split
  · exact .refl s
  · split
    · exact form_same
    · cases r <;> dsimp only
      case burst m => exact (form_mapMotor ..).trans (form_issueStep ..)
      case run rev req use steps => exact form_takeRun ..

theorem form_takeWaiting (s : State) : FormKept s (takeWaiting s) := by
  unfold takeWaiting
  split
  · exact .refl s
  · exact (form_requestP ..).after

/-! ## The scan -/

theorem form_releasePlace (s : State) : FormKept s (releasePlace s) := form_mapDir ..

theorem form_emptyScanRing (s : State) : FormKept s (emptyScanRing s) := form_same

theorem form_motS (m : Motor) (s : State) : FormKept s { s with motS := m } := form_same

theorem form_settleScanPages (w : ScanSettle) (p : Policy) (s : State) : FormKept s (settleScanPages w p s) := by
  cases w
  · exact (form_applyPolicy ..).trans (form_discardWaiting ..)
  · exact (form_completePage ..).trans (form_discardWaiting ..)
  · exact (form_discardWritten ..).trans (form_discardWaiting ..)
  · exact .refl s

theorem form_scanDecision (r : Nat) (w : ScanSettle) (d : Option Nat) (s : State) : FormKept s (scanDecision r w d s) := by
  unfold scanDecision
  split
  · exact .refl s
  · extract_lets page s1 s2 s3
    have settled : FormKept s s2 := ((form_settleScanPages ..).after.trans (form_releasePlace _)).trans (form_endDirwait ..)
    exact (settled.trans (form_ite (.refl _) (form_emptyScanRing _))).trans (form_motS _ s3)

theorem form_scanFaulted (s : State) : FormKept s (scanFaulted s) := by
  unfold scanFaulted
  split
  · exact .refl s
  · exact form_ite ((form_settleScanPages ..).trans (form_emptyScanRing _)) (form_scanDecision ..)

theorem form_endScan (j : ScanJob) (s : State) : FormKept s (endScan j s) := by
  unfold endScan
  dsimp only
  split <;> exact form_same

theorem form_settleScanEnd (s : State) : FormKept s (settleScanEnd s) := by
  unfold settleScanEnd
  split
  · exact .refl s
  · exact form_ite (form_endScan ..) (.refl s)

theorem form_scanJam (p r : Nat) (s : State) : FormKept s (scanJam p r s) :=
  ((form_raise evJam p 1 r s).trans (form_motS ..)).trans (form_scanDecision ..)

theorem form_leadingEdge (s : State) : FormKept s (leadingEdge s) := by
  unfold leadingEdge
  split
  · exact .refl s
  · exact form_same

theorem form_closingBoundary (s : State) : FormKept s (closingBoundary s) := by
  unfold closingBoundary
  split
  · exact .refl s
  · exact form_ite (form_ite form_same (form_enterDirwait ..).after) form_same

theorem form_pageStart (s : State) : FormKept s (pageStart s) := by
  have cleared (u : State) : FormKept u { u with front := { u.front with errorRow := List.replicate 1728 0 } } := form_same
  exact (form_applyAll ..).trans (cleared _)

theorem form_boundaryStep (first : Bool) (j : ScanJob) (s : State) : FormKept s (boundaryStep first j s) := by
  unfold boundaryStep
  extract_lets s1 s2 last stop s3 s4 sx s5
  have reserved : FormKept s s2 := (form_ite (form_pageStart s) (.refl s)).trans (form_mapRings ..)
  have stepped : FormKept s s4 := (reserved.trans (form_ite (form_motS ..) (.refl _))).trans (form_issueStep ..)
  have started : FormKept s s5 := stepped.trans form_same
  exact form_ite (form_scanJam ..) (form_ite (started.trans (form_closingBoundary _)) started)

theorem form_searchStep (j : ScanJob) (s : State) : FormKept s (searchStep j s) := by
  unfold searchStep
  extract_lets s1
  have stepped : FormKept s s1 := (form_issueStep ..).after
  exact form_ite (stepped.trans (form_leadingEdge _)) (form_ite (stepped.trans (form_scanJam ..)) stepped)

theorem form_pageStep (first : Bool) (j : ScanJob) (s : State) : FormKept s (pageStep first j s) :=
  form_ite (form_boundaryStep ..).after (form_issueStep ..).after

theorem form_scanStep (first : Bool) (s : State) : FormKept s (scanStep first s) := by
  unfold scanStep
  split
  · exact form_issueStep ..
  · split
    · exact form_searchStep ..
    · exact form_pageStep ..
    · exact form_pageStep ..
    all_goals exact form_issueStep ..

theorem form_startScanRun (r : Bool) (s : State) : FormKept s (startScanRun r s) := by
  unfold startScanRun
  split
  · exact .refl s
  · exact (form_mapMotor ..).trans (form_scanStep ..)

theorem form_settleScanRestart (s : State) : FormKept s (settleScanRestart s) := by
  unfold settleScanRestart
  split
  · exact .refl s
  · exact form_ite (form_startScanRun ..).after (.refl s)

theorem form_scanRoom (s : State) : FormKept s (scanRoom s) := by
  unfold scanRoom
  split
  · exact form_endDirwait ..
  · dsimp only
    split
    · exact (form_endDirwait ..).after.trans (form_scanDecision ..)
    · exact form_same

theorem form_settleRoom (s : State) : FormKept s (settleRoom s) :=
  (form_ite (form_scanRoom s) (.refl s)).trans (form_ite ((form_endDirwait ..).trans (form_takeUpIntake _)) (.refl _))

theorem form_beginScan (j : ScanJob) (s : State) : FormKept s (beginScan j s) := (form_startScanRun ..).after

/-! ## INTAKE and OUTPUT -/

theorem form_endIntake (r : Nat) (s : State) : FormKept s (endIntake r s) := by
  unfold endIntake
  split
  · exact .refl s
  · exact ((form_idleCoder .intake (emptyIntakeRing s)).after (s := s)).trans form_same

theorem form_closePage (s : State) : FormKept s (closePage s) := by
  unfold closePage
  split
  · exact .refl s
  · split
    · exact .refl s
    · exact form_ite (form_discardPage ..) (form_completePage ..)

theorem form_settleIntake (s : State) : FormKept s (settleIntake s) := by
  unfold settleIntake
  split
  · exact .refl s
  · exact form_ite ((form_closePage s).trans (form_endIntake ..)) (.refl s)

theorem form_memExpire (c : CoderCtx) (s : State) : FormKept s (memExpire c s) := by
  unfold memExpire
  refine form_ite ?_ (.refl s)
  cases c
  · exact form_scanDecision ..
  · show FormKept s (intakeMemExpiry s)
    unfold intakeMemExpiry
    split
    · exact .refl s
    · exact (form_applyPolicy ..).trans (form_endIntake ..)

theorem form_dirExpire (c : CoderCtx) (s : State) : FormKept s (dirExpire c s) := by
  cases c
  · exact form_ite ((form_endDirwait ..).trans (form_scanDecision ..)) (.refl s)
  · exact form_ite ((form_endDirwait ..).trans (form_endIntake ..)) (.refl s)

theorem form_zeroWait (c : CoderCtx) (s : State) : FormKept s (zeroWait c s) :=
  (form_ite (form_memExpire c s) (.refl s)).trans (form_ite (form_dirExpire ..) (.refl _))

theorem form_settleOutput (s : State) : FormKept s (settleOutput s) := by
  unfold settleOutput
  split
  · exact .refl s
  · exact form_ite ((form_removeReader ..).after.trans (form_raise ..)) (.refl s)

theorem form_settlePass (c : DecoderCtx) (s : State) : FormKept s (settlePass c s) := by
  unfold settlePass
  split
  · exact .refl s
  · refine form_ite ?_ (.refl s)
    cases c
    · exact (form_idleDecoder ..).trans (form_mapPrtJob ..)
    · exact form_idleDecoder ..

/-! ## The Print Engine -/

theorem form_askSteps (k : Stepping) (r : MotorRequest) (n : Nat) (s : State) : FormKept s (askSteps k r n s) := by
  unfold askSteps
  extract_lets x
  have asked : FormKept s x.1 := (form_mapPrtJob ..).trans (form_requestP ..)
  exact form_ite asked (asked.trans (form_mapPrtJob ..))

theorem form_staleSpellBegins (p : Nat) (s : State) : FormKept s (staleSpellBegins p s) := form_ite (.refl s) form_same

theorem form_strobeLine (s : State) : FormKept s (strobeLine s) := by
  unfold strobeLine
  split
  · exact .refl s
  · dsimp only
    split
    · exact (form_staleSpellBegins ..).trans (form_askSteps ..)
    · exact (form_staleSpellBegins _ s).trans form_same

theorem form_copyItems (s : State) : FormKept s (copyItems s) := (form_applyAll ..).trans (form_mapPrtJob ..)

theorem form_restartPass (p : Nat) (s : State) : FormKept s (restartPass p s) := by
  unfold restartPass
  split
  · exact .refl s
  · exact form_same

theorem form_nextCopy (s : State) : FormKept s (nextCopy s) := by
  unfold nextCopy
  split
  · exact .refl s
  · exact ((form_mapRings ..).after.trans (form_restartPass ..)).trans (form_copyItems _)

theorem form_afterExit (s : State) : FormKept s (afterExit s) := by
  unfold afterExit
  extract_lets s1
  have applied : FormKept s s1 := (form_mapPrtJob ..).trans (form_applyMotorTables _)
  split
  · exact applied
  · exact applied.trans (form_ite (form_nextCopy _) form_same)

theorem form_pageEnd (s : State) : FormKept s (pageEnd s) := by
  unfold pageEnd
  split
  · exact .refl s
  · exact form_ite (form_askSteps ..).after (form_afterExit _).after

theorem form_takeSource (n : Nat) : ∀ s : State, FormKept s (takeSource n s).1 := by
  induction n with
  | zero => exact .refl
  | succ n ih =>
    intro s
    unfold takeSource
    split
    · exact .refl s
    · split
      · split
        · exact form_pageEnd s
        · exact form_same
      · extract_lets x a s1
        have freed : FormKept s s1 := (form_mapRings ..).after
        split
        · split
          · exact freed.trans (form_pageEnd _)
          · exact freed.trans (ih _)
        · exact freed

theorem form_lineStart (s : State) : FormKept s (lineStart s) := by
  unfold lineStart
  split
  · exact .refl s
  · extract_lets x
    have taken : FormKept s x.1 := by
      simp only [x]
      split
      · exact form_takeSource _ s
      · exact .refl s
    exact form_ite form_same (form_ite form_same (form_ite form_same (form_ite (form_strobeLine _).after
      (form_ite ((taken.trans (form_mapPrtJob ..)).trans (form_strobeLine _)) taken))))

theorem form_endPrint (j : PrintJob) (s : State) : FormKept s (endPrint j s) :=
  (((form_idleDecoder ..).after.trans (form_mapRings ..)).trans (form_removeReader ..)).trans (form_raise ..)

theorem form_endingMove (j : PrintJob) (s : State) : FormKept s (endingMove j s) :=
  form_ite (.refl s) (form_ite (form_askSteps ..).after
    ((form_applyMotorTables _).after.trans (form_endPrint ..)))

theorem form_printMove (s : State) : FormKept s (printMove s) := by
  unfold printMove
  split
  · exact .refl s
  · split
    · exact form_lineStart s
    · exact form_ite (form_lineStart s) (form_ite (form_pageEnd s) (.refl s))
    · exact form_endingMove ..
    all_goals exact .refl s

theorem form_printMoves (n : Nat) : ∀ s : State, FormKept s (printMoves n s) := by
  induction n with
  | zero => exact form_settlePass .print
  | succ n ih =>
    exact fun s => form_ite (((form_settlePass .print s).trans (form_printMove _)).trans (ih _)) (form_settlePass .print s)

theorem form_printRest (s : State) : FormKept s (printRest s) := by
  unfold printRest
  split
  · exact .refl s
  · split
    · exact .refl s
    · exact form_ite form_same (form_ite (form_pageEnd _).after form_same)
    · exact form_same
    · exact form_ite form_same (form_afterExit _).after

theorem form_headEvent (f : Strobe → Strobe) (s : State) : FormKept s (headEvent f s) := by
  unfold headEvent
  split
  · exact .refl s
  · split
    · exact .refl s
    · exact form_ite (form_askSteps ..).after form_same

theorem form_tempExpired (s : State) : FormKept s (tempExpired s) := by
  unfold tempExpired
  split
  · exact .refl s
  · dsimp only
    split
    · exact form_same
    · exact form_ite (form_staleSpellBegins ..).after form_same

theorem form_printResume (a : List Byte) (s : State) : FormKept s (printResume a s).1 := by
  unfold printResume
  split
  · exact .refl s
  · split
    · exact .refl s
    · exact form_ite (form_ite (form_askSteps ..).after (form_afterExit _).after)
        (form_ite (form_askSteps ..).after form_same)

/-! ## What follows at once -/

theorem form_settleJobs (s : State) : FormKept s (settleJobs s) :=
  ((((((((form_settleScanRestart s).trans (form_zeroWait .scan _)).trans (form_zeroWait .intake _)).trans
    (form_settleIntake _)).trans (form_settlePass .print _)).trans (form_settlePass .output _)).trans
    (form_printMoves 400 _)).trans (form_settleOutput _)).trans (form_settleRoom _)

theorem form_updateIdle (s : State) : FormKept s (updateIdle s) := form_ite (form_ite (.refl s) form_same) form_same

theorem form_spillReady (s : State) : FormKept s (spillReady s) := by
  unfold spillReady
  split
  · exact form_ite form_same (.refl s)
  · exact .refl s

theorem form_arbitrate (s : State) : FormKept s (arbitrate s) := by
  unfold arbitrate
  refine form_ite (form_spillReady s) ?_
  split
  · exact (form_spillReady s).trans (form_mapPmc ..)
  · split
    · exact form_spillReady s
    · exact (form_spillReady s).trans (form_mapPmc ..)

theorem form_settle (s : State) : FormKept s (settle s) :=
  ((((((form_settleJobs s).trans (form_settleJobs _)).trans (form_settleScanRestart _)).trans (form_settleScanEnd _)).trans
    (form_applyMotorTables _)).trans (form_updateIdle _)).trans (form_arbitrate _)

/-! ## Bursts -/

theorem form_diagBurst (s : State) : FormKept s (diagBurst s) := by
  have moved (a : DiagAccess) (m : Memory) (h : m.wf = true) : (a.move m).1.wf = true := by
    unfold DiagAccess.move
    split
    · exact h
    · exact Memory.writeAll_wf _ _ _ _ h
  constructor
  intro h
  unfold diagBurst
  split
  · exact h
  · dsimp only
    split <;> exact moved _ _ h

theorem form_afterLine (c : CoderCtx) (w : Bool) (s : State) : FormKept s (afterLine c w s) := by
  refine form_ite ?_ (form_ite (form_completePage ..) (.refl s))
  cases c
  · exact form_scanDecision ..
  · exact (form_completePage ..).trans (form_endIntake ..)

theorem form_unitsWritten (c : CoderCtx) (n : Nat) (s : State) : FormKept s (unitsWritten c n s) :=
  (form_mapCoder ..).trans (form_ite ((form_lineCoded ..).trans (form_afterLine ..)) (form_ite (form_askBlock ..) (.refl _)))

theorem form_reachReady (r : Nat) (s : State) : FormKept s (reachReady r s) := by
  unfold reachReady
  dsimp only
  split <;> exact form_same

theorem form_beginReturn (r : Nat) (s : State) : FormKept s (beginReturn r s) := form_ite (.refl s) form_same

theorem form_abandonEntry (d : Bool) (n : Nat) (s : State) : FormKept s (abandonEntry d n s) :=
  form_ite ((form_mapPower ..).trans (form_beginReturn ..)) ((form_mapPower ..).trans (form_raise ..))

theorem form_standbySpilled (s : State) : FormKept s (standbySpilled s) := by
  unfold standbySpilled
  split
  · exact .refl s
  · split <;> exact form_same

theorem form_noSpill (s : State) : FormKept s (noSpill s) := form_same

theorem form_clearMarker (z : MemSize) (n : AfterClear) (s : State) : FormKept s (clearMarker z n s) := by
  unfold clearMarker
  extract_lets written s1
  have cleared : FormKept s s1 := FormKept.trans (t := written) (form_writeAll ..) form_same
  split
  · exact cleared.trans (form_reachReady ..)
  · exact (cleared.trans (form_raise ..)).trans (form_noSpill _)
  · refine cleared.trans ?_
    unfold standbyAbandoned
    split
    · exact .refl _
    · exact form_abandonEntry ..

theorem form_askSelfRefresh (w : SelfRefreshFor) (s : State) : FormKept s (askSelfRefresh w s) := form_mapPmc ..

theorem form_spillBurst (s : State) : FormKept s (spillBurst s) := by
  unfold spillBurst
  split
  · exact .refl s
  · unfold checkCandidate
    refine form_ite form_same ?_
    split <;> exact form_same
  · unfold readSpill
    dsimp only
    split
    · split <;> exact form_same
    · exact form_same
  · unfold rereadSpill
    exact form_ite form_same (form_ite (form_ite form_same form_same) form_same)
  · exact form_clearMarker ..
  · exact .refl s
  · next off todo _ =>
    unfold writeSpill
    extract_lets n s1
    have written : FormKept s s1 := form_writeAll ..
    exact written.trans form_same
  · unfold writeMarker
    extract_lets written s1
    have marked : FormKept s s1 := FormKept.trans (t := written) (form_writeAll ..) form_same
    exact form_ite (marked.trans (form_standbySpilled _)) (marked.trans (form_askSelfRefresh ..))

theorem form_coldStart (s : State) : FormKept s (coldStart s) := form_same

theorem form_lastRefreshMade (s : State) : FormKept s (lastRefreshMade s) := by
  unfold lastRefreshMade
  split
  · exact .refl s
  · unfold enterSelfRefresh
    dsimp only
    split
    · exact form_same
    · exact form_same
    · exact (form_ite (.refl _) (form_coldStart _)).after
    · exact form_same
    · exact form_same

theorem form_endGrant (s : State) : FormKept s (endGrant s) := by
  unfold endGrant
  split
  · exact .refl s
  · refine (form_mapPmc (fun p => { p with grant := none }) s).trans ?_
    unfold deliver
    split
    · exact .refl _
    · exact form_lastRefreshMade _
    · exact (form_mapPmc ..).trans (form_doUpkeep ..)
    · exact form_ite (form_decodeBurst ..) (.refl _)
    · exact (form_writeAll ..).trans (form_ite (form_unitsWritten ..) (.refl _))
    · exact form_ite (form_doBuild _) (.refl _)
    · exact form_ite (form_spillBurst _) (.refl _)
    · exact form_ite (form_diagBurst _) (.refl _)

/-! ## Power states, resets, lines -/

theorem form_withdrawWaits (s : State) : FormKept s (withdrawWaits s) := form_same

theorem form_completeAtPfail (s : State) (i : Nat) : FormKept s (completeAtPfail s i) :=
  form_ite (form_completePage ..) (form_ite (form_completePage ..) ((form_mapEntry ..).trans (form_settleEmpty ..)))

theorem form_dropReaders (s : State) (i : Nat) : FormKept s (dropReaders s i) :=
  (form_removeReader ..).trans (form_removeReader ..)

theorem form_dropJobs (s : State) : FormKept s (dropJobs s) := by
  have gone (u : State) : FormKept u { u with scanJob := none, intJob := none, prtJob := none, outJob := none } := form_same
  have dark : FormKept s (mapFront (fun f => { f with lamp := false }) (abandonCalibration s)) :=
    (form_ite ((form_mapFront ..).trans (form_mapPort ..)) (.refl s)).trans (form_mapFront ..)
  have emptied : ∀ u, FormKept u (clearIntakeLine (emptyOutputRing (emptyPrintRing (emptyIntakeRing (emptyScanRing u))))) :=
    fun u => ((((form_emptyScanRing u).trans (form_mapRings ..)).trans (form_mapRings ..)).trans (form_mapRings ..)).trans
      (form_mapPort ..)
  exact (((((dark.trans (emptied _)).trans (form_idleCoder ..)).trans (form_idleCoder ..)).trans (form_idleDecoder ..)).trans
    (form_idleDecoder ..)).trans (gone _)

theorem form_endAtPfail (s : State) : FormKept s (endAtPfail s) :=
  ((form_withdrawWaits s).trans (form_fold form_completeAtPfail _ _)).trans
    (((form_fold form_dropReaders _ _).trans (form_releasePlace _)).trans (form_dropJobs _))

theorem form_endAtRestart (s : State) : FormKept s (endAtRestart s) :=
  ((form_withdrawWaits s).trans (form_fold (fun u i => form_discardPage i true u) _ _)).trans
    (((form_fold form_dropReaders _ _).trans (form_releasePlace _)).trans (form_dropJobs _))

theorem form_pfailSequence (s : State) : FormKept s (pfailSequence s) := by
  have cut : FormKept s (cutOffBoth byPfail s) := form_same
  have awaited (u : State) :
      FormKept u { u with spill := .await .pfail, pmc := { u.pmc with srPending := none } } := form_same
  unfold pfailSequence
  dsimp only
  split
  · exact (cut.trans (form_ite (form_askSelfRefresh ..) (.refl _))).trans (form_mapPower ..)
  · refine ((((cut.trans (form_endAtPfail _)).trans (form_mapPower ..)).trans (awaited _)).trans (form_killGrant ..)).trans
      (form_mapPower ..)

theorem form_coverFound (s : State) : FormKept s (coverFound s) := form_same

theorem form_holdAtOnce (s : State) : FormKept s (holdAtOnce s) := by
  have cut (u : State) : FormKept u (cutOffBoth byPfail { u with spill := .idle }) := form_same
  exact (((cut s).trans (form_mapPmc ..)).trans (form_mapPower ..)).trans (form_killGrant ..)

theorem form_takeLatch (s : State) : FormKept s (takeLatch s) :=
  form_ite ((form_mapPower ..).trans (form_coverFound _)) (.refl s)

theorem form_readShadow (h : Shadow) (s : State) : FormKept s (readShadow h s) := form_same

theorem form_leaveSleep (s : State) : FormKept s (leaveSleep s) := 
  (((form_mapPower ..).trans (form_mapPmc ..)).trans (form_takeLatch _)).trans (form_readShadow ..)

theorem form_sleepWake (r : Nat) (s : State) : FormKept s (sleepWake r s) :=
  form_ite (.refl s) ((form_leaveSleep s).trans (form_beginReturn ..))

theorem form_pfailLineRises (s : State) : FormKept s (pfailLineRises s) :=
  form_ite (.refl s) (FormKept.trans (t := { s with lines := { s.lines with pfail := true } }) form_same
    (form_ite (.refl _) (form_ite form_same
      (form_ite ((form_leaveSleep _).trans (form_pfailSequence _)) (form_pfailSequence _)))))

theorem form_pfailLineFalls (s : State) : FormKept s (pfailLineFalls s) :=
  form_ite (form_ite form_same form_same) (.refl s)

theorem form_coverFalls (s : State) : FormKept s (coverFalls s) :=
  form_ite (form_ite form_same (form_ite form_same
    ((form_scanFaulted _).after.trans (form_mapPrtJob ..)))) (.refl s)

theorem form_wakeEvent (r : Nat) (s : State) : FormKept s (wakeEvent r s) := by
  unfold wakeEvent
  split
  · exact .refl s
  · exact form_beginReturn ..
  · exact form_sleepWake ..
  · exact form_same

theorem form_wakeRise (b r : Nat) (m : Risen → Risen) (s : State) : FormKept s (wakeRise b r m s) := by
  unfold wakeRise
  split
  · exact form_same
  · exact form_ite (form_wakeEvent ..) (.refl s)

theorem form_ringRises (s : State) : FormKept s (ringRises s) := form_ite (.refl s) (form_wakeRise ..).after

theorem form_keyRises (s : State) : FormKept s (keyRises s) := form_ite (.refl s) (form_wakeRise ..).after

theorem form_docpRises (s : State) : FormKept s (docpRises s) :=
  form_ite (.refl s) ((form_wakeRise ..).after.trans (form_ite (form_raise ..) (.refl _)))

theorem form_wakeTimerExpires (s : State) : FormKept s (wakeTimerExpires s) :=
  form_ite (form_wakeEvent ..).after (.refl s)

theorem form_idleExpires (s : State) : FormKept s (idleExpires s) := form_ite (form_ite form_same form_same) (.refl s)

theorem form_runReached (s : State) : FormKept s (runReached s) := by
  unfold runReached
  split
  · exact .refl s
  · exact form_ite form_same form_same

theorem form_entryGoesOn (s : State) : FormKept s (entryGoesOn s) := by
  have down (u : State) : FormKept u (powerDownMotors u) := form_same
  have stage (w : EntryStage) (u : State) : FormKept u (setStage w u) := form_mapPower ..
  have checked (e : SleepEntry) : FormKept s (passCheck e s) := by
    unfold passCheck
    extract_lets s1
    have shadowed : FormKept s s1 := ((form_mapTemp ..).trans (down _)).trans (form_mapPower ..)
    exact form_ite (shadowed.trans (stage ..).after) ((shadowed.trans (form_askSelfRefresh ..)).trans (stage ..))
  unfold entryGoesOn
  split
  · exact .refl s
  · refine form_ite ?_ (.refl s)
    split
    · exact form_abandonEntry ..
    · exact checked _

theorem form_leaveReset (s : State) : FormKept s (leaveReset s) := by
  have seen (u : State) : FormKept u (if u.lines.cover then u else coverFound u) := form_ite (.refl u) (form_coverFound u)
  have warned (u : State) : FormKept u (if u.lines.pfail then holdAtOnce u else u) := form_ite (form_holdAtOnce u) (.refl u)
  exact (seen _).after.trans (warned _)

theorem form_resetEnds (s : State) : FormKept s (resetEnds s) := form_ite (form_leaveReset s) (.refl s)

theorem form_resetReleased (s : State) : FormKept s (resetReleased s) := form_ite (form_resetEnds _).after (.refl s)

theorem form_powerReturns (lv : Levels) (d : Option PowerUpDram) (s : State) : FormKept s (powerReturns lv d s) := by
  cases d with
  | none => exact form_same
  | some d => exact ⟨fun _ => Memory.powerUp_wf s.dram d⟩

theorem form_romRecord (k sb : Byte) (n : Nat) (p : List Byte) (s : State) : FormKept s (romRecord k sb n p s) := by
  have loaded (q : List Byte) : FormKept s (romLoad sb q s).1 := by
    unfold romLoad
    split
    · exact form_loadSegment ..
    · exact .refl s
  have bad (u : State) : FormKept u (romBad u) := form_same
  exact form_ite (bad s) (form_ite (form_ite ((form_mapPmc ..).trans (form_reachReady ..)) (bad s))
    (form_ite (bad s) (form_ite ((loaded _).trans (bad _)) ((loaded _).trans (form_mapBoot ..)))))

/-! ## Records -/

theorem form_orderIntake (p : List Byte) (s : State) : FormKept s (orderIntake p s).1 := by
  unfold orderIntake
  split
  · split
    · exact .refl s
    · split
      · exact .refl s
      · exact form_same
  · exact .refl s

theorem form_orderOutput (p : List Byte) (s : State) : FormKept s (orderOutput p s).1 := by
  unfold orderOutput
  split
  · exact .refl s
  · split
    · exact .refl s
    · split
      · exact .refl s
      · split
        · exact .refl s
        · dsimp only
          exact (form_admitReader ..).after

theorem form_orderErase (p : List Byte) (s : State) : FormKept s (orderErase p s).1 := by
  unfold orderErase
  split
  · exact .refl s
  · split
    · exact .refl s
    · exact .refl s
    · split
      · exact form_same
      · exact form_dropEntry ..

theorem form_orderStopScan (keep : Bool) (a : List Byte) (s : State) : FormKept s (orderStopScan keep a s).1 := by
  unfold orderStopScan
  split
  · split
    · exact .refl s
    · exact form_scanDecision ..
  · exact .refl s

theorem form_orderStopIntake (keep : Bool) (a : List Byte) (s : State) : FormKept s (orderStopIntake keep a s).1 := by
  unfold orderStopIntake
  split
  · exact .refl s
  · exact ((form_endDirwait ..).trans (form_ite (form_completePage ..) (form_discardWritten ..))).trans (form_endIntake ..)

theorem form_orderStopPrint (a : List Byte) (s : State) : FormKept s (orderStopPrint a s).1 := by
  unfold orderStopPrint
  split
  · exact .refl s
  · split
    · exact .refl s
    · exact (form_removeReader ..).after

theorem form_orderStopOutput (a : List Byte) (s : State) : FormKept s (orderStopOutput a s).1 := by
  unfold orderStopOutput
  split
  · exact .refl s
  · split
    · exact .refl s
    · exact form_same

theorem form_orderStop (p : List Byte) (s : State) : FormKept s (orderStop p s).1 := by
  unfold orderStop
  split
  · exact .refl s
  · split
    · exact form_orderStopScan ..
    · exact form_orderStopIntake ..
    · exact form_orderStopPrint ..
    · exact form_orderStopOutput ..
    · exact .refl s

theorem form_orderPrint (p : List Byte) (s : State) : FormKept s (orderPrint p s).1 := by
  unfold orderPrint
  split
  · split
    · exact .refl s
    · split
      · exact .refl s
      · split
        · exact .refl s
        · split
          · exact .refl s
          · split
            · exact .refl s
            · exact (form_admitReader ..).after.trans (form_copyItems _)
  · exact .refl s

theorem form_orderScan (p : List Byte) (s : State) : FormKept s (orderScan p s).1 := by
  unfold orderScan
  split
  · split
    · exact .refl s
    · dsimp only
      split
      · exact .refl s
      · dsimp only
        exact form_beginScan ..
  · exact .refl s

theorem form_orderResume (p : List Byte) (s : State) : FormKept s (orderResume p s).1 := by
  unfold orderResume
  split
  · exact .refl s
  · split
    · split
      · exact form_mapMotor ..
      · exact .refl s
    · split
      · exact .refl s
      · exact form_printResume ..

theorem form_orderMove (p : List Byte) (s : State) : FormKept s (orderMove p s).1 := by
  unfold orderMove
  split
  · split
    · exact .refl s
    · split
      · exact .refl s
      · exact form_takeRun ..
  · exact .refl s

theorem form_orderPower (p : List Byte) (s : State) : FormKept s (orderPower p s).1 := by
  have dozing (m : Byte) (t : Nat) : FormKept s (takeDoze m t s) := form_ite form_same form_same
  unfold orderPower
  dsimp only
  split
  · split
    · exact .refl s
    · exact dozing ..
  · split
    · exact .refl s
    · exact form_same
  · split
    · exact .refl s
    · exact form_same
  · exact .refl s

theorem form_orderReady (s : State) : FormKept s (orderReady s).1 := by
  unfold orderReady
  split
  · split
    · exact .refl s
    · exact (form_mapPmc ..).trans (form_reachReady ..)
  · exact .refl s

theorem form_orderRestart (s : State) : FormKept s (orderRestart s).1 := by
  have cut (c : Causes) (u : State) : FormKept u (cutOffBoth c u) := form_same
  have motors (u : State) : FormKept u (restartMotors u) :=
    (form_applyMotorTables { u with motS := u.motS.restarted, motP := u.motP.restarted }).after.trans
      (form_ite (.refl _) (cut ..))
  have fresh (u : State) : FormKept u (restartDiag (restartFront u)) := form_same
  exact ((((form_endAtRestart s).trans (fresh _)).trans (motors _)).trans (form_mapPower ..)).trans
    (form_ite (form_beginReturn ..) (.refl _))

theorem form_actOrder (code : Nat) (p : List Byte) (s : State) : FormKept s (actOrder code p s).1 := by
  unfold actOrder
  split
  · unfold orderCalibrate
    split <;> exact form_same
  · exact form_orderScan ..
  · exact form_orderIntake ..
  · unfold orderIntakeEnd
    split <;> exact form_same
  · exact form_orderOutput ..
  · exact form_orderPrint ..
  · exact form_orderErase ..
  · exact form_orderStop ..
  · exact form_orderResume ..
  · exact form_orderMove ..
  · exact form_same
  · exact form_orderPower ..
  · exact form_orderReady s
  · exact form_orderRestart s
  · exact .refl s

theorem form_actLoad (sub : Byte) (p : List Byte) (s : State) : FormKept s (actLoad sub p s).1 := by
  unfold actLoad
  split
  · exact form_loadSegment ..
  · exact .refl s

theorem form_writeItem (m i : Nat) (img : List Byte) (s : State) : FormKept s (writeItem m i img s).1 := by
  unfold writeItem
  split
  · dsimp only
    exact form_mapFront ..
  · split
    · exact .refl s
    · unfold writeCopy
      split
      · exact .refl s
      · split
        · exact .refl s
        · exact form_ite form_same (form_ite form_same form_same)
  · exact form_same

theorem form_actDiag (sub : Byte) (p : List Byte) (s : State) : FormKept s (actDiag sub p s).1 := by
  unfold actDiag orderDiag
  split
  · exact .refl s
  · unfold takeDiag
    split
    · exact form_same
    · exact form_same
    · exact .refl s
    · dsimp only
      split <;> exact form_writeItem ..

theorem form_orderEvack (p : List Byte) (s : State) : FormKept s (orderEvack p s).1 := by
  unfold orderEvack
  split <;> exact form_same

theorem form_act (r : Record) (s : State) : FormKept s (act r s) := by
  have line : FormKept s (actLine r s) := by
    unfold actLine
    split <;> exact form_same
  have told (x : State × ReplyBody) : FormKept x.1 (answer r x) := form_same
  exact form_ite (told (s, _)) (form_ite line (form_ite (((form_actLoad ..).trans (told _)).trans (form_arbitrate _))
    (form_ite (told (s, _)) (form_ite ((form_orderEvack ..).trans (told _))
      (form_ite (((form_actDiag ..).trans (told _)).trans (form_arbitrate _))
        (form_ite (((form_actOrder ..).trans (told _)).trans (form_settle _)) (told (s, _))))))))

theorem form_setIdle (t : Option Nat) (s : State) : FormKept s (setIdle t s) := form_same

theorem form_restartIdle (s : State) : FormKept s (restartIdle s) := form_setIdle ..

theorem form_dispatch (r : Record) (s : State) : FormKept s (dispatch r s) :=
  ((form_mapPort ..).trans (form_act r _)).trans (form_restartIdle _)

theorem form_completeRecord (r : Record) (s : State) : FormKept s (completeRecord r s) :=
  form_ite ((form_mapPort ..).trans (form_beginReturn ..)) (form_dispatch ..)

theorem form_takeByte (d : Byte) (s : State) : FormKept s (takeByte d s) := by
  have header (k sb : Byte) (n : Nat) (bs : List Byte) : FormKept s (headerTaken k sb n bs s) := by
    unfold headerTaken
    split
    · exact form_ite form_same form_same
    · exact form_ite (form_completeRecord ..) form_same
  unfold takeByte
  split
  · exact form_ite form_same (form_ite (header ..) (form_ite form_same (form_completeRecord ..)))
  · exact form_ite form_same form_same
  · exact .refl s

theorem form_strobe (b : Bool) (d : Byte) (s : State) : FormKept s (strobe b d s) := by
  refine form_ite ((form_sleepWake 5 s).trans (form_arbitrate _)) (form_ite (form_takeByte d s) (form_ite ?_ (.refl s)))
  unfold holdTogether
  split
  · split
    · exact form_ite form_same (.refl s)
    · exact .refl s
  · exact .refl s
  · exact .refl s

theorem form_writeRecord (r : Record) (s : State) : FormKept s (writeRecord r s) := by
  unfold writeRecord
  split
  · split
    · exact form_same
    · exact form_completeRecord ..
  · exact form_fold (fun u d => form_strobe false d u) _ s

theorem form_readStrobe (s : State) : FormKept s (readStrobe s) := by
  have driven (c : OutCourse) : FormKept s (driveByte c s) := by
    unfold driveByte
    split
    · exact .refl s
    · unfold outboundEnd
      split
      · exact form_same
      · exact form_same
      · exact (form_settle _).after
    · exact form_same
  unfold readStrobe
  refine form_ite ?_ form_same
  split
  · exact driven _
  · split
    · exact driven _
    · exact .refl s

theorem form_dispatchHeld (s : State) : FormKept s (dispatchHeld s) := by
  unfold dispatchHeld
  split
  · exact form_dispatch ..
  · exact .refl s
  · exact .refl s

/-! ## Events -/

theorem form_readoutEnds (v : Vector Byte 1760) (s : State) : FormKept s (readoutEnds v s) := by
  unfold readoutEnds
  split
  · unfold calibrationLine
    dsimp only
    split
    · exact form_ite form_same form_same
    · exact .refl s
    · exact form_ite form_same
        (((form_mapFront ..).trans (form_replaceActive ..)).trans ((form_mapPort ..).trans (form_raise ..)))
  · unfold lineRead
    split <;> exact form_same

theorem form_lampWarm (s : State) : FormKept s (lampWarm s) := by
  unfold lampWarm
  split
  · exact .refl s
  · exact form_ite form_same (.refl s)

theorem form_stepFalls (ch : Channel) (s : State) : FormKept s (stepFalls ch s) := by
  unfold stepFalls
  refine form_ite ?_ (.refl s)
  split
  · exact form_ite (.refl s) (form_scanStep ..)
  · exact form_issueStep ..

theorem form_motionEnds (ch : Channel) (s : State) : FormKept s (motionEnds ch s) := by
  unfold motionEnds
  refine form_ite ?_ (.refl s)
  split
  · exact form_mapMotor ..
  · exact (form_mapMotor ..).trans (form_printRest _)
  · exact (form_mapMotor ..).trans (form_takeWaiting _)

/-! ## Every command -/

/-- Every command keeps the canonical form of the DRAM. -/
theorem form_exec (i : Instr) (s : State) : ∀ t, exec i s = .next t → FormKept s t := by
  have sensed (lv : Levels) : FormKept s (sense lv s) := form_same
  intro t ht
  cases i <;> injection ht with ht <;> subst ht
  case wstbStrobe w d lv => exact form_ite ((sensed lv).trans (form_strobe ..)) (sensed lv)
  case rstbStrobe cs => exact form_ite (form_readStrobe s) (.refl s)
  case sleepEntry lv => exact ((sensed lv).trans (form_entryGoesOn _)).trans (form_settle _)
  case dramGrantEnd lv => exact form_ite (((sensed lv).trans (form_endGrant _)).trans (form_settle _)) (sensed lv)
  case refreshDue => exact FormKept.trans (form_ite (.refl s) form_same) (form_arbitrate _)
  case coderLineStart c => exact (form_coderStart ..).trans (form_settle _)
  case memwaitExpiry c => exact (form_memExpire ..).trans (form_settle _)
  case dirwaitExpiry c => exact (form_dirExpire ..).trans (form_settle _)
  case decoderLineStart c => exact (form_decoderStart ..).trans (form_settle _)
  case readoutEnd v => exact (form_readoutEnds ..).trans (form_settle _)
  case lampwarmExpiry => exact form_lampWarm s
  case motorStep ch lv => exact ((sensed lv).trans (form_stepFalls ..)).trans (form_settle _)
  case motionEnd ch lv => exact ((sensed lv).trans (form_motionEnds ..)).trans (form_settle _)
  case holdTimerExpiry ch => exact form_ite (form_mapMotor ..) (.refl s)
  case headShiftEnd => exact form_headEvent ..
  case strobeEnd => exact form_headEvent ..
  case gapEnd => exact (form_headEvent ..).trans (form_settle _)
  case tempAgeExpiry => exact form_tempExpired s
  case idleTimerExpiry => exact form_idleExpires s
  case wakeTimerExpiry => exact (form_wakeTimerExpires s).trans (form_arbitrate _)
  case ringRise => exact (form_ringRises s).trans (form_arbitrate _)
  case keyRise => exact (form_keyRises s).trans (form_arbitrate _)
  case docpRise => exact (form_docpRises s).trans (form_arbitrate _)
  case runReached lv =>
    exact form_ite ((((sensed lv).trans (form_runReached _)).trans (form_dispatchHeld _)).trans (form_settle _)) (sensed lv)
  case coverOpen => exact (form_coverFalls s).trans (form_settle _)
  case pfailRise => exact (form_pfailLineRises s).trans (form_settle _)
  case pfailFall => exact form_pfailLineFalls s
  case powerOn lv d => exact form_powerReturns lv d s
  case resetAssert => exact form_same
  case resetRelease lv => exact ((sensed lv).trans (form_resetReleased _)).trans (form_settle _)
  case resetStateEnd lv => exact ((sensed lv).trans (form_ite (form_resetEnds _) (.refl _))).trans (form_settle _)
  case romRecord k b n q => exact form_ite ((form_romRecord ..).trans (form_settle _)) (.refl s)
  case scan => exact (sensed _).trans (form_writeRecord ..)
  case print => exact (sensed _).trans (form_writeRecord ..)
  case resume => exact (sensed _).trans (form_writeRecord ..)
  case temp => exact (sensed _).trans (form_writeRecord ..)
  all_goals exact form_writeRecord ..

/-- Settles O6: the DRAM changes by runs of writes alone, or is filled at power-up, and both keep its form. -/
theorem dramStaysCanonical : Obligations.DramStaysCanonical := by
  intro s t h k
  rcases step_front k with rfl | ⟨c, r, -, hc⟩
  · exact h
  · exact (form_exec c { s with pending := r } t hc).form h

end Sys2Proof.Machine
end

section
/-! Parity of a DRAM byte after a write (R63). -/

set_option Elab.async false

namespace Sys2Proof.Machine

/-- A rising list goes on with greater addresses alone. -/
theorem rising_cons {x : Nat} {t : List Nat} (h : rising (x :: t) = true) : rising t = true ∧ ∀ y ∈ t, x < y := by
  rw [rising_iff, List.pairwise_cons] at h
  exact ⟨(rising_iff t).mpr h.2, h.1⟩

/-- In a rising list of marks, putting one at an address marks or unmarks that address and no other. -/
theorem mem_putMark_iff {l : List Nat} (h : rising l = true) (a z : Nat) (mark : Bool) :
    z ∈ putMark l a mark ↔ if z = a then mark = true else z ∈ l := by
  induction l with
  | nil => cases mark <;> simp [putMark]
  | cons x t ih =>
    obtain ⟨ht, above⟩ := rising_cons h
    rcases lt_trichotomy a x with below | rfl | beyond
    · have absent : a ∉ x :: t := by
        simp only [List.mem_cons, not_or]
        exact ⟨below.ne, fun ha => lt_asymm below (above a ha)⟩
      rw [putMark, if_pos below]
      by_cases hz : z = a
      · subst hz
        cases mark <;> simp [absent]
      · cases mark <;> simp [hz]
    · have absent : a ∉ t := fun ha => lt_irrefl a (above a ha)
      rw [putMark, if_neg (lt_irrefl a), if_pos rfl]
      by_cases hz : z = a
      · subst hz
        cases mark <;> simp [absent]
      · cases mark <;> simp [hz]
    · rw [putMark, if_neg (lt_asymm beyond), if_neg beyond.ne', List.mem_cons, ih ht]
      by_cases hz : z = a
      · subst hz
        simp [beyond.ne']
      · simp [hz]

/-- Parity after a write: at its own place it fails exactly where seeded, anywhere else it is what it was (R63). -/
theorem Memory.parityOk_write (m : Memory) (h : m.wf = true) (a x : Nat) (b : Byte) (seeded : Bool) :
    (m.write a b seeded).parityOk x = if m.place x = m.place a then !seeded else m.parityOk x := by
  obtain ⟨-, -, marks⟩ := (Memory.wf_iff m).mp h
  have mem := mem_putMark_iff marks (m.place a) (m.place x) seeded
  unfold Memory.parityOk
  rw [Memory.write_place]
  show (!(putMark m.badParity (m.place a) seeded).contains (m.place x)) = _
  by_cases hx : m.place x = m.place a
  · rw [if_pos hx] at mem ⊢
    cases seeded <;> simpa using mem
  · rw [if_neg hx] at mem ⊢
    rw [Bool.eq_iff_iff]
    simp [mem]

/-- Settles O31: the byte and its parity bit after one write. -/
theorem dramReadsBackWithParity : Obligations.DramReadsBackWithParity := fun m a x b seeded h =>
  ⟨Memory.read_write m h a x b seeded, Memory.parityOk_write m h a x b seeded⟩

end Sys2Proof.Machine
end

section
/-! The free list: the bursts of its upkeep and of its build, and how a freed chain joins it (R62 to R67, R70). -/

set_option Elab.async false

namespace Sys2Proof.Machine

/-! ## The bursts of upkeep (R65) -/

/-- The state a burst is delivered in: the levels sensed, the grant ended, and the upkeep accesses `us` left waiting. -/
def burstBase (lv : Levels) (us : List Upkeep) (s : State) : State :=
  { sense lv s with pmc := { s.pmc with grant := none, upkeep := us } }

/-- An upkeep access as delivered. -/
theorem deliver_upkeep (op : Upkeep) (live : Bool) (s : State) :
    deliver { burst := .upkeep op, live := live } s =
      doUpkeep op (mapPmc (fun p => { p with upkeep := p.upkeep.drop 1 }) s) := rfl

/-- An upkeep access is made as its grant ends; it leaves the list of those waiting. -/
theorem exec_upkeepEnd {lv : Levels} {s : State} {op : Upkeep} {live : Bool}
    (h : s.pmc.grant = some { burst := .upkeep op, live := live }) :
    exec (.dramGrantEnd lv) s = .next (settle (doUpkeep op (burstBase lv (s.pmc.upkeep.drop 1) s))) := by
  rw [exec_grantEnd h, deliver_upkeep]
  rfl

/-- A next written by list upkeep, and a whole header. -/
theorem doUpkeep_setNext (b n : Nat) (s : State) :
    doUpkeep (.setNext b n) s = { s with dram := s.dram.writeAll (1024 * b) false (be16 n) } := rfl

theorem doUpkeep_setHeader (b n fill : Nat) (s : State) :
    doUpkeep (.setHeader b n fill) s = { s with dram := s.dram.writeAll (1024 * b) false (be16 n ++ be16 fill) } := rfl

/-- A context that asks for no block is given none. -/
theorem pumpAsk_idle {c : CoderCtx} {s : State} (h : (coderOf c s).asking = false) : pumpAsk c s = s :=
  if_neg fun asks => Bool.false_ne_true (h.symm.trans asks.1)

/-- With neither context asking, what a free list comes to is given to no one. -/
theorem pumpAsk_both_idle {s : State} (hs : s.scanCd.asking = false) (hi : s.intakeCd.asking = false) :
    pumpAsk .intake (pumpAsk .scan s) = s := by
  rw [pumpAsk_idle (c := .scan) hs, pumpAsk_idle (c := .intake) hi]

/-- What a header read of list upkeep finds beside the link: nothing, or PARITY (R63). -/
theorem checkLink_cases (b : Nat) (s : State) :
    checkLink b s = s ∨ (s.dram.parityAll (blockAddr b) 4 = false ∧ checkLink b s = raise evParity 0 0 3 s) := by
  unfold checkLink
  cases parity : s.dram.parityAll (blockAddr b) 4 with
  | true => exact .inl rfl
  | false => exact .inr ⟨rfl, rfl⟩

/-- The new head's link as read (R65). -/
def linkRead (b : Nat) (s : State) : State :=
  { s with pmc := { s.pmc with headLink := beNat (s.dram.readAll (blockAddr b) 2), linkKnown := true } }

/-- The upkeep read of the new head's link, with no context waiting for it. -/
theorem doUpkeep_readLink {b : Nat} {s : State} (head : s.pmc.head = b) (unknown : s.pmc.linkKnown = false)
    (hs : s.scanCd.asking = false) (hi : s.intakeCd.asking = false) : doUpkeep (.readLink b) s = linkRead b (checkLink b s) := by
  have read (u : State) (h : u.pmc.head = b) (k : u.pmc.linkKnown = false) (a : u.scanCd.asking = false)
      (c : u.intakeCd.asking = false) :
      (if u.pmc.head = b then pumpAsk .intake (pumpAsk .scan (if u.pmc.linkKnown then u
        else mapPmc (fun p => { p with headLink := headerNext b u, linkKnown := true }) u)) else u) = linkRead b u := by
    rw [if_pos h, if_neg (by rw [k]; decide)]
    exact pumpAsk_both_idle a c
  unfold doUpkeep
  rcases checkLink_cases b s with same | ⟨-, raised⟩
  · dsimp only
    rw [same]
    exact read s head unknown hs hi
  · dsimp only
    rw [raised]
    exact read _ head unknown hs hi

/-! ## The list build (R67) -/

/-- A build burst before the last writes the header of its block and goes on to the next. -/
theorem doBuild_goesOn {b : Nat} {s : State} (hb : s.pmc.build = some b) (more : b < nBlocks s - 17) :
    doBuild s = { s with
      pmc := { s.pmc with build := some (b + 1) },
      dram := s.dram.writeAll (blockAddr b) false (be16 (b + 1) ++ be16 0) } := by
  unfold doBuild
  rw [hb]
  exact if_pos more

/-- The last build burst ends the list with block N − 17. -/
theorem doBuild_ends {b : Nat} {s : State} (hb : s.pmc.build = some b) (present : (s.tables.active[(0 : Fin 14)]).isSome = true)
    (last : b = nBlocks s - 17) (hs : s.scanCd.asking = false) (hi : s.intakeCd.asking = false) :
    doBuild s = { s with
      pmc := { s.pmc with build := none, head := 0, headLink := 1, tail := b, linkKnown := true, count := nBlocks s - 16 },
      dram := s.dram.writeAll (blockAddr b) false (be16 noBlock ++ be16 0) } := by
  have blocks : 17 ≤ nBlocks s := nBlocks_ge present
  have top : nBlocks s - Config.reserveBlocks - 1 = b := last.symm
  have count : b + 1 = nBlocks s - 16 := by omega
  unfold doBuild
  rw [hb]
  dsimp only
  rw [top, if_neg (lt_irrefl b), pumpAsk_both_idle (by exact hs) (by exact hi), count]
  rfl

/-! ## A chain freed (R70) -/

/-- The upkeep that writes the header a coder context held for a freed chain's last block (R62). -/
def currentHeader (last : Nat) : Option Nat → List Upkeep
  | none => []
  | some fill => [.setHeader last noBlock fill]

/-- The state whose list a chain freed joins: an empty list has the header of the chain's first block checked. -/
def joinBase (first k : Nat) (s : State) : State := if s.pmc.count = 0 ∧ k ≠ 1 then checkLink first s else s

/-- The header check before a chain joins changes the flags alone. -/
theorem checkLink_frame (b : Nat) (s : State) : (checkLink b s).pmc = s.pmc ∧ (checkLink b s).dir = s.dir
    ∧ (checkLink b s).dram = s.dram
    ∧ (checkLink b s).events = if s.dram.parityAll (blockAddr b) 4 = false then s.events.raise evParity 0 0 3 else s.events := by
  unfold checkLink
  cases s.dram.parityAll (blockAddr b) 4 <;> exact ⟨rfl, rfl, rfl, rfl⟩

/-- The same of `joinBase`, its flag raised only for a header that is read and fails. -/
theorem joinBase_frame (first k : Nat) (s : State) : (joinBase first k s).pmc = s.pmc ∧ (joinBase first k s).dir = s.dir
    ∧ (joinBase first k s).dram = s.dram
    ∧ (joinBase first k s).events =
        if s.pmc.count = 0 ∧ k ≠ 1 ∧ s.dram.parityAll (blockAddr first) 4 = false then s.events.raise evParity 0 0 3
        else s.events := by
  unfold joinBase
  by_cases checks : s.pmc.count = 0 ∧ k ≠ 1
  · obtain ⟨empty, several⟩ := checks
    simpa [empty, several] using checkLink_frame first s
  · rw [if_neg checks, if_neg fun reads => checks ⟨reads.1, reads.2.1⟩]
    exact ⟨rfl, rfl, rfl, rfl⟩

/-- A chain of blocks freed with no context waiting joins the list, after a header check where the list was empty. -/
theorem freeChain_eq_join {first last k : Nat} {current : Option Nat} {s : State} (hk : 0 < k) (h : s.noAsk) :
    freeChain first last k current s =
      { joinBase first k s with
        pmc := s.pmc.join first last k (if k = 1 then noBlock else beNat (s.dram.readAll (1024 * first) 2))
          (currentHeader last current) } := by
  have unasked : (joinBase first k s).noAsk := by
    unfold joinBase
    split
    · exact (checkLink_unasked first h).quiet
    · exact h
  obtain ⟨pmc, -, dram, -⟩ := joinBase_frame first k s
  rw [← pmc, ← dram]
  unfold freeChain
  rw [if_neg hk.ne']
  cases current <;> exact serveWaiters_unasked unasked

/-- What a join makes of the list: an empty list takes the chain, any other takes it at its tail. -/
theorem join_fields (p : Pmc) (first last k link : Nat) (pre : List Upkeep) :
    (p.join first last k link pre).count = p.count + k ∧ (p.join first last k link pre).tail = last
      ∧ (p.join first last k link pre).head = (if p.count = 0 then first else p.head)
      ∧ (p.join first last k link pre).headLink =
          (if p.count = 0 then link else if p.count = 1 then first else p.headLink)
      ∧ (p.join first last k link pre).upkeep =
          p.upkeep ++ pre ++ (if p.count = 0 then [] else [.setNext p.tail first]) := by
  unfold Pmc.join
  split
  · next empty => exact ⟨by simp [empty], rfl, rfl, rfl, (List.append_nil _).symm⟩
  · exact ⟨rfl, rfl, rfl, rfl, rfl⟩

/-- Settles O34: each upkeep burst by its access, the build by its block, and the join by the list it finds. -/
theorem freeListBuildsAndJoins : Obligations.FreeListBuildsAndJoins := by
  refine ⟨fun lv s live => ⟨fun b n hg => ?_, fun b n fill hg => ?_, ?_, ?_⟩, ?_⟩
  · rw [exec_upkeepEnd hg, doUpkeep_setNext]
    rfl
  · rw [exec_upkeepEnd hg, doUpkeep_setHeader]
    rfl
  · intro b hg head unknown hs hi
    rw [exec_upkeepEnd hg, doUpkeep_readLink (by exact head) (by exact unknown) (by exact hs) (by exact hi)]
    dsimp only
    congr 2
    unfold linkRead checkLink
    cases parity : s.dram.parityAll (1024 * b) 4 with
    | true => rw [if_pos (by exact parity)]; rfl
    | false => rw [if_neg (by exact ne_true_of_eq_false parity)]; rfl
  · intro b hg hb present hs hi
    have burst := exec_grantEnd (lv := lv) hg
    refine ⟨fun more => burst.trans ?_, fun last => burst.trans ?_⟩
    · exact congrArg (fun u => Host.Outcome.next (settle u)) (doBuild_goesOn (by exact hb) (by exact more))
    · exact congrArg (fun u => Host.Outcome.next (settle u))
        (doBuild_ends (by exact hb) (by exact Option.isSome_iff_ne_none.mpr present) (by exact last) (by exact hs) (by exact hi))
  · intro first last k current s hk h t
    have joined : t = _ := freeChain_eq_join hk h
    clear_value t
    subst joined
    obtain ⟨-, dir, dram, events⟩ := joinBase_frame first k s
    obtain ⟨count, tail, head, link, upkeep⟩ := join_fields s.pmc first last k
      (if k = 1 then noBlock else beNat (s.dram.readAll (1024 * first) 2)) (currentHeader last current)
    refine ⟨count, tail, dir, dram, head, link, upkeep.trans ?_, events⟩
    cases current <;> rfl

end Sys2Proof.Machine
end

section
/-! Diagnostic access to DRAM (R63, R188, R190): the record taken, and its bursts. -/

set_option Elab.async false

namespace Sys2Proof.Machine

/-! ## The record -/

/-- The payload of a DIAG record, its address spelled before what it asks. -/
def diagRecord (sub : Byte) (item offset : BitVec 16) (asks : List Byte) : Record :=
  { kind := kDiag, sub := sub, payload := diagPayload 0 item offset ++ asks }

/-- The address of a DRAM access as its record spells it, and what follows the address. -/
theorem diagRecord_fields (sub : Byte) (item offset : BitVec 16) (asks : List Byte) :
    byteAt (diagRecord sub item offset asks).payload 0 = 0
      ∧ wordAt (diagRecord sub item offset asks).payload 1 = item.toNat
      ∧ wordAt (diagRecord sub item offset asks).payload 3 = offset.toNat
      ∧ (diagRecord sub item offset asks).payload.drop 5 = asks := by
  have hi := item.isLt
  have ho := offset.isLt
  refine ⟨rfl, ?_, ?_, rfl⟩ <;>
    · simp only [diagRecord, diagPayload, be16, wordAt, byteAt, List.cons_append, List.nil_append, List.getD_cons_succ,
        List.getD_cons_zero, BitVec.toNat_ofNat]
      omega

/-- A DIAG record in READY that passes its header check: it acts, and the port may go on (R3, R188). -/
theorem diagRecord_acts {sub : Byte} {item offset : BitVec 16} {asks : List Byte} {s : State} {a : DiagAsk} (ho : portOpen s)
    (hh : headerCheck kDiag sub (5 + asks.length) = none) (ha : diagAsk sub (diagRecord sub item offset asks).payload = a) :
    writeRecord (diagRecord sub item offset asks) s =
      restartIdle (arbitrate (pushReply kDiag sub (orderDiag 0 item.toNat offset.toNat a s).2
        (orderDiag 0 item.toNat offset.toNat a s).1)) := by
  have length : (diagRecord sub item offset asks).payload.length = 5 + asks.length := by
    simp only [diagRecord, diagPayload, List.length_append, List.length_cons, be16_length]
  obtain ⟨memory, block, at', -⟩ := diagRecord_fields sub item offset asks
  rw [writeRecord_ready ho (by rw [length]; exact hh) (held_only_orders (by decide : kDiag ≠ kOrder))]
  have acts : act (diagRecord sub item offset asks) s =
      arbitrate (answer (diagRecord sub item offset asks) (actDiag sub (diagRecord sub item offset asks).payload s)) := by
    simp [act, diagRecord, ho.2.2, kLine, kLoad, kQuery, kEvack, kDiag]
  rw [acts]
  unfold actDiag
  rw [memory, block, at', ha]
  rfl

/-- A DRAM access that breaks no bound is not refused (R188). -/
theorem diagRefusal_dram {item offset : Nat} {a : DiagAsk} {s : State} (hb : item < nBlocks s) (ho : offset < 1024)
    (hw : ∀ seeded d, a = .write seeded d → offset + d.length ≤ 1024 ∧ 4 ≤ offset) :
    diagRefusal 0 item offset a s = none := by
  have inside : diagOutOfBounds 0 item offset 1024 a s = false := by
    cases a with
    | read n => simp [diagOutOfBounds, ho]
    | write seeded d =>
      obtain ⟨fits, payload⟩ := hw seeded d rfl
      simp [diagOutOfBounds, ho, fits, payload]
  have size : itemSize? 0 item s = some 1024 := if_pos hb
  unfold diagRefusal
  rw [size]
  simp [inside, ownerIdle]

/-- A DRAM read of a count within its block is taken for that count. -/
theorem orderDiag_read {item offset n : Nat} {s : State} (hb : item < nBlocks s) (h0 : 0 < n) (hn : n ≤ 2036)
    (fits : offset + n ≤ 1024) :
    orderDiag 0 item offset (.read n) s =
      ({ s with diagQ := s.diagQ ++ [{ write := none, block := item, offset := offset, count := n, clamped := false, data := [],
                                       done := 0, firstBad := none }] }, .diag) := by
  have count : readCount 1024 offset n = n := by
    unfold readCount
    rw [if_neg h0.ne']
    omega
  have size : itemSize? 0 item s = some 1024 := if_pos hb
  unfold orderDiag
  rw [diagRefusal_dram (a := .read n) hb (by omega) nofun, size]
  simp [takeDiag, queueDiag, count]

/-- A DRAM write is taken with its data. -/
theorem orderDiag_write {item offset : Nat} {seeded : Bool} {d : List Byte} {s : State} (hb : item < nBlocks s) (hd : d ≠ [])
    (fits : offset + d.length ≤ 1024) (payload : 4 ≤ offset) :
    orderDiag 0 item offset (.write seeded d) s =
      ({ s with diagQ := s.diagQ ++ [{ write := some seeded, block := item, offset := offset, count := d.length,
                                       clamped := false, data := d, done := 0, firstBad := none }] }, .diag) := by
  have some_data : 0 < d.length := List.length_pos_iff.mpr hd
  unfold orderDiag
  rw [diagRefusal_dram hb (by omega) (by rintro _ _ ⟨rfl, rfl⟩; exact ⟨fits, payload⟩)]
  rfl

/-- The header of a write of 1 to 1024 bytes passes. -/
theorem headerCheck_diagWrite {sub : Byte} {d : List Byte} (h0 : sub ≠ 0) (hs : sub.toNat ≤ 2) (hd : d ≠ [])
    (hn : d.length ≤ 1024) : headerCheck kDiag sub (5 + d.length) = none := by
  have some_data : 0 < d.length := List.length_pos_iff.mpr hd
  have range : lengthRange? kDiag sub = some (6, 2048) := by
    have kinds : kDiag ≠ kLine ∧ kDiag ≠ kLoad ∧ kDiag ≠ kOrder ∧ kDiag ≠ kQuery ∧ kDiag ≠ kEvack := by decide
    obtain ⟨line, load, order, query, evack⟩ := kinds
    unfold lengthRange?
    rw [if_neg line, if_neg load, if_neg order, if_neg query, if_neg evack, if_pos rfl, if_neg h0, if_pos hs]
  unfold headerCheck
  rw [range]
  exact if_pos ⟨by omega, by omega⟩

/-- A write record, seeded or not, is taken. -/
theorem diagWrite_taken {sub : Byte} {seeded : Bool} {item offset : BitVec 16} {d : List Byte} {s : State} (ho : portOpen s)
    (h0 : sub ≠ 0) (hs : sub.toNat ≤ 2) (kind : decide (sub = 2) = seeded) (hb : item.toNat < nBlocks s) (hd : d ≠ [])
    (hn : d.length ≤ 1024) (fits : offset.toNat + d.length ≤ 1024) (payload : 4 ≤ offset.toNat) :
    writeRecord (diagRecord sub item offset d) s =
      restartIdle (arbitrate (pushReply kDiag sub .diag { s with
        diagQ := s.diagQ ++ [{ write := some seeded, block := item.toNat, offset := offset.toNat, count := d.length,
                               clamped := false, data := d, done := 0, firstBad := none }] })) := by
  have asks : diagAsk sub (diagRecord sub item offset d).payload = .write seeded d := by
    unfold diagAsk
    rw [if_neg h0, kind, (diagRecord_fields sub item offset d).2.2.2]
  rw [diagRecord_acts ho (headerCheck_diagWrite h0 hs hd hn) asks, orderDiag_write hb hd fits payload]

/-- A read record is taken. -/
theorem diagRead_taken {item offset count : BitVec 16} {s : State} (ho : portOpen s) (hb : item.toNat < nBlocks s)
    (h0 : 0 < count.toNat) (hn : count.toNat ≤ 2036) (fits : offset.toNat + count.toNat ≤ 1024) :
    writeRecord (diagRecord 0 item offset (be16 count.toNat)) s =
      restartIdle (arbitrate (pushReply kDiag 0 .diag { s with
        diagQ := s.diagQ ++ [{ write := none, block := item.toNat, offset := offset.toNat, count := count.toNat,
                               clamped := false, data := [], done := 0, firstBad := none }] })) := by
  have asks : diagAsk 0 (diagRecord 0 item offset (be16 count.toNat)).payload = .read count.toNat := by
    have word : wordAt (diagRecord 0 item offset (be16 count.toNat)).payload 5 = count.toNat := by
      have hc := count.isLt
      simp only [diagRecord, diagPayload, be16, wordAt, byteAt, List.cons_append, List.nil_append, List.getD_cons_succ,
        List.getD_cons_zero, BitVec.toNat_ofNat]
      omega
    unfold diagAsk
    rw [if_pos rfl, word]
  rw [diagRecord_acts ho rfl asks, orderDiag_read hb h0 hn fits]

/-! ## The bursts (R190) -/

theorem deliver_diag (s : State) : deliver { burst := .diag, live := true } s = diagBurst s := rfl

/-- A burst of the oldest access: it stays while bytes are owed, and fills its reply with the last. -/
theorem diagBurst_cons {a : DiagAccess} {rest : List DiagAccess} {s : State} (h : s.diagQ = a :: rest) :
    diagBurst s =
      if (a.move s.dram).2.done < a.count then { s with dram := (a.move s.dram).1, diagQ := (a.move s.dram).2 :: rest }
      else fillReply .diag (if a.clamped then .clamped else .ok) (a.move s.dram).2.answer
        { s with dram := (a.move s.dram).1, diagQ := rest } := by
  unfold diagBurst
  rw [h]

/-- The first offset a read has found bad after the burst that reads `n` bytes. -/
def badAfter (a : DiagAccess) (n : Nat) (m : Memory) : Option Nat :=
  match a.firstBad with
  | some o => some o
  | none =>
    ((List.range n).find? fun i => !m.parityOk (1024 * a.block + a.offset + a.done + i)).map (a.offset + a.done + ·)

/-- A read's burst: the DRAM as it was, the bytes gathered, the first bad offset kept (R190). -/
theorem move_read {a : DiagAccess} (m : Memory) (h : a.write = none) :
    a.move m = (m, { a with
      data := a.data ++ m.readAll (1024 * a.block + a.offset + a.done) (min 16 (a.count - a.done)),
      done := a.done + min 16 (a.count - a.done), firstBad := badAfter a (min 16 (a.count - a.done)) m }) := by
  have bad : (if a.firstBad.isSome then a.firstBad else firstFailure m a.block (a.offset + a.done) a.burst)
      = badAfter a a.burst m := by
    unfold badAfter firstFailure blockAddr
    rw [← Nat.add_assoc]
    cases a.firstBad <;> rfl
  unfold DiagAccess.move
  rw [h]
  dsimp only
  rw [bad, ← Nat.add_assoc]
  rfl

/-- A write's burst: its bytes stored, and no longer owed (R190). -/
theorem move_write {a : DiagAccess} (m : Memory) {seeded : Bool} (h : a.write = some seeded) :
    a.move m = (m.writeAll (1024 * a.block + a.offset + a.done) seeded (a.data.take (min 16 (a.count - a.done))),
      { a with data := a.data.drop (min 16 (a.count - a.done)), done := a.done + min 16 (a.count - a.done) }) := by
  unfold DiagAccess.move
  rw [h]
  dsimp only
  rw [← Nat.add_assoc]
  rfl

/-- The answers of finished accesses (R190). -/
theorem answer_read {a : DiagAccess} (h : a.write = none) :
    a.answer = be8 0 ++ be16 a.block ++ be16 a.offset ++ be16 a.count ++ a.data ++ be8 (if a.firstBad.isSome then 1 else 0)
      ++ be16 (a.firstBad.getD 0xFFFF) := by
  unfold DiagAccess.answer
  rw [h]
  simp [diagAddress]

theorem answer_write {a : DiagAccess} {seeded : Bool} (h : a.write = some seeded) :
    a.answer = be8 0 ++ be16 a.block ++ be16 a.offset ++ be16 a.count := by
  unfold DiagAccess.answer
  rw [h]
  simp [diagAddress]

/-- A read's burst before its last, and its last (R190). -/
theorem diagBurst_read {a : DiagAccess} {rest : List DiagAccess} {s : State} (h : s.diagQ = a :: rest) (reads : a.write = none) :
    let n := min 16 (a.count - a.done)
    let got := a.data ++ s.dram.readAll (1024 * a.block + a.offset + a.done) n
    let bad := badAfter a n s.dram
    (a.done + n < a.count →
        diagBurst s = { s with diagQ := { a with data := got, done := a.done + n, firstBad := bad } :: rest })
      ∧ (a.count ≤ a.done + n →
          diagBurst s = fillReply .diag (if a.clamped then .clamped else .ok)
            (be8 0 ++ be16 a.block ++ be16 a.offset ++ be16 a.count ++ got ++ be8 (if bad.isSome then 1 else 0)
              ++ be16 (bad.getD 0xFFFF)) { s with diagQ := rest }) := by
  rw [diagBurst_cons h, move_read _ reads, answer_read (by exact reads)]
  exact ⟨fun more => if_pos more, fun last => if_neg (Nat.not_lt.mpr last)⟩

/-- A write's burst before its last, and its last (R190). -/
theorem diagBurst_write {a : DiagAccess} {rest : List DiagAccess} {s : State} {seeded : Bool} (h : s.diagQ = a :: rest)
    (writes : a.write = some seeded) :
    let n := min 16 (a.count - a.done)
    let dram := s.dram.writeAll (1024 * a.block + a.offset + a.done) seeded (a.data.take n)
    (a.done + n < a.count →
        diagBurst s = { s with dram := dram, diagQ := { a with data := a.data.drop n, done := a.done + n } :: rest })
      ∧ (a.count ≤ a.done + n →
          diagBurst s = fillReply .diag (if a.clamped then .clamped else .ok)
            (be8 0 ++ be16 a.block ++ be16 a.offset ++ be16 a.count) { s with dram := dram, diagQ := rest }) := by
  rw [diagBurst_cons h, move_write _ writes, answer_write (by exact writes)]
  exact ⟨fun more => if_pos more, fun last => if_neg (Nat.not_lt.mpr last)⟩

/-- Settles O49: the record taken by its bounds, each burst by what the access moves. -/
theorem diagDramAccess : Obligations.DiagDramAccess := by
  refine ⟨fun item offset count data s ho hb => ⟨fun h0 hn fits => ?_, fun hd hn fits payload => ⟨?_, ?_⟩⟩,
    fun lv s a rest hg hq => ?_⟩
  · exact congrArg Host.Outcome.next (diagRead_taken ho hb h0 hn fits)
  · exact congrArg Host.Outcome.next (diagWrite_taken ho (by decide) (by decide) rfl hb hd hn fits payload)
  · exact congrArg Host.Outcome.next (diagWrite_taken ho (by decide) (by decide) rfl hb hd hn fits payload)
  · have burst := exec_grantEnd (lv := lv) hg
    rw [deliver_diag] at burst
    refine ⟨fun reads => ?_, fun seeded writes => ?_⟩
    · obtain ⟨goesOn, ends⟩ := diagBurst_read (s := { sense lv s with pmc := { s.pmc with grant := none } }) hq reads
      exact ⟨fun more => burst.trans (congrArg (fun u => Host.Outcome.next (settle u)) (goesOn more)),
        fun last => burst.trans (congrArg (fun u => Host.Outcome.next (settle u)) (ends last))⟩
    · obtain ⟨goesOn, ends⟩ := diagBurst_write (s := { sense lv s with pmc := { s.pmc with grant := none } }) hq writes
      exact ⟨fun more => burst.trans (congrArg (fun u => Host.Outcome.next (settle u)) (goesOn more)),
        fun last => burst.trans (congrArg (fun u => Host.Outcome.next (settle u)) (ends last))⟩

end Sys2Proof.Machine
end

section
/-! A SLEEP entry (R74, R172): abandoned for an active source, or led through the last refresh cycle into SLEEP. -/

set_option Elab.async false

namespace Sys2Proof.Machine

/-! ## The entry's check (R172) -/

/-- An entry whose reply has been read and that finds an active source is abandoned. -/
theorem entryGoesOn_active {s : State} {e : SleepEntry} {k : Nat} (he : s.power.entry = some e) (waits : e.stage = .waitReply)
    (read : s.port.replies = []) (ha : activeSource e s.lines = some k) :
    entryGoesOn s = abandonEntry e.fromDoze k s := by
  unfold entryGoesOn
  rw [he]
  dsimp only
  rw [if_pos ⟨waits, read⟩, ha]

/-- One that finds none goes on. -/
theorem entryGoesOn_passes {s : State} {e : SleepEntry} (he : s.power.entry = some e) (waits : e.stage = .waitReply)
    (read : s.port.replies = []) (ha : activeSource e s.lines = none) : entryGoesOn s = passCheck e s := by
  unfold entryGoesOn
  rw [he]
  dsimp only
  rw [if_pos ⟨waits, read⟩, ha]

/-- A SLEEP entry that has passed its check: HOLD gone to OFF, the temperature stale, the shadow written, self-refresh asked
for. -/
def sleepAsked (e : SleepEntry) (s : State) : State :=
  { s with
      motS := s.motS.powerDown, motP := s.motP.powerDown, temp := { s.temp with fresh := false, age := none },
      power := { s.power with shadow := takeShadow (powerDownMotors s), entry := some { e with stage := .selfRefresh } },
      pmc := { s.pmc with srPending := some .sleep } }

theorem passCheck_sleep {s : State} {e : SleepEntry} (he : s.power.entry = some e) (sleep : e.standby = false) :
    passCheck e s = sleepAsked e s := by
  unfold sleepAsked
  have staged : (s.power.entry.map fun x => { x with stage := EntryStage.selfRefresh })
      = some { e with stage := .selfRefresh } := by rw [he]; rfl
  rw [← staged]
  unfold passCheck
  rw [if_neg (by rw [sleep]; decide)]
  rfl

/-- Motors, temperature, power, the controller and the lines have no part in a quiet state. -/
theorem Quiet.away {s : State} (q : Quiet s) (mS mP : Motor) (temp : Temperature) (power : Power) (pmc : Pmc) (lines : Lines)
    (port : Port) (queue : List DiagAccess) : Quiet { s with
      motS := mS, motP := mP, temp := temp, power := power, pmc := pmc, lines := lines, port := port, diagQ := queue } :=
  ⟨q.scanJob, q.intJob, q.prtJob, q.outJob, q.printDec, q.outDec, q.scanTimer, q.scanDir, q.intTimer, q.intDir, q.sramp,
    q.sphase, q.pramp, q.pphase⟩

/-- A channel powered down holds no paper. -/
theorem powerDown_notHeld (m : Motor) : m.powerDown.state ≠ .hold := by
  unfold Motor.powerDown
  split
  · exact nofun
  · assumption

/-- So neither channel is held once self-refresh is asked for. -/
theorem sleepAsked_notHeld (e : SleepEntry) (s : State) :
    (sleepAsked e s).motS.state ≠ .hold ∧ (sleepAsked e s).motP.state ≠ .hold :=
  ⟨powerDown_notHeld s.motS, powerDown_notHeld s.motP⟩

/-! ## The last refresh cycle (R74) -/

/-- A quiet part that asks for self-refresh, its port free, makes the last refresh cycle. -/
theorem settle_lastRefresh {s : State} {why : SelfRefreshFor} (q : Quiet s) (spill : s.spill = .idle) (free : s.pmc.grant = none)
    (timed : s.pmc.selfRefresh = false) (asks : s.pmc.srPending = some why) :
    ∃ i, settle s = grantBurst .lastRefresh { s with power := { s.power with idleTimer := i } } := by
  obtain ⟨i, moves⟩ := updateIdle_moves s
  refine ⟨i, ?_⟩
  rw [settle_quiet q, moves]
  unfold arbitrate
  rw [spillReady_idle (by exact spill)]
  dsimp only
  rw [free, timed, asks]
  rfl

/-- A quiet part in self-refresh grants nothing. -/
theorem settle_selfRefresh {s : State} (q : Quiet s) (spill : s.spill = .idle) (inRefresh : s.pmc.selfRefresh = true) :
    ∃ i, settle s = { s with power := { s.power with idleTimer := i } } := by
  obtain ⟨i, moves⟩ := updateIdle_moves s
  refine ⟨i, ?_⟩
  rw [settle_quiet q, moves, arbitrate_busy (.inr (by exact inRefresh)), spillReady_idle (by exact spill)]

theorem deliver_lastRefresh (live : Bool) (s : State) :
    deliver { burst := .lastRefresh, live := live } s = lastRefreshMade s := rfl

/-- SLEEP as its entry reaches it, every diagnostic access abandoned. -/
def sleepReached (e : SleepEntry) (s : State) : State :=
  { s with
      port := { s.port with replies := fillEvery .diag .state [] s.port.replies }, diagQ := [],
      pmc := { s.pmc with selfRefresh := true, srPending := none, refreshDue := false },
      power := { s.power with state := .sleep, mask := e.mask, wakeTimer := timerOf e.timer, idleTimer := none, entry := none,
                              pwrdn := false } }

theorem lastRefreshMade_sleep {s : State} {e : SleepEntry} (he : s.power.entry = some e) (asks : s.pmc.srPending = some .sleep) :
    lastRefreshMade s = sleepReached e s := by
  unfold lastRefreshMade
  rw [asks]
  dsimp only
  unfold enterSelfRefresh
  dsimp only
  rw [show (abandonDiag (mapPmc (fun p => { p with selfRefresh := true, srPending := none, refreshDue := false }) s)).power
    = s.power from rfl, he]
  rfl

/-- The last refresh cycle as it ends: its grant over, the levels sensed. -/
def lastCycle (lv : Levels) (s : State) : State :=
  { sense lv (grantBurst .lastRefresh s) with pmc := { (grantBurst .lastRefresh s).pmc with grant := none } }

/-- As the last refresh cycle of a quiet part's SLEEP entry ends, it is in SLEEP. -/
theorem exec_lastCycle {lv : Levels} {s : State} {e : SleepEntry} (q : Quiet s) (spill : s.spill = .idle)
    (he : s.power.entry = some e) (asks : s.pmc.srPending = some .sleep) :
    ∃ i, exec (.dramGrantEnd lv) (grantBurst .lastRefresh s) =
      .next { sleepReached e (lastCycle lv s) with
        power := { (sleepReached e (lastCycle lv s)).power with idleTimer := i } } := by
  have ended := exec_grantEnd (lv := lv) (s := grantBurst .lastRefresh s) rfl
  have made : lastRefreshMade (lastCycle lv s) = sleepReached e (lastCycle lv s) := lastRefreshMade_sleep he asks
  obtain ⟨i, reached⟩ := settle_selfRefresh (s := sleepReached e (lastCycle lv s)) (q.away ..) spill rfl
  rw [deliver_lastRefresh] at ended
  exact ⟨i, ended.trans (congrArg Host.Outcome.next ((congrArg settle made).trans reached))⟩

/-- Settles O52: the entry's check by its source, the quiet part through its two grants. -/
theorem sleepEntryGoesOnOrIsAbandoned : Obligations.SleepEntryGoesOnOrIsAbandoned := by
  intro lv s e he waits read
  refine ⟨fun k ha fromRun => ?_, fun ha sleep quiet spill free timed => ?_⟩
  · have abandoned := entryGoesOn_active (s := sense lv s) he waits read ha
    rw [fromRun] at abandoned
    exact congrArg (fun u => Host.Outcome.next (settle u)) abandoned
  · have passed := (entryGoesOn_passes (s := sense lv s) he waits read ha).trans (passCheck_sleep he sleep)
    have goesOn : exec (.sleepEntry lv) s = .next (settle (entryGoesOn (sense lv s))) := rfl
    rw [passed] at goesOn
    obtain ⟨i, granted⟩ := settle_lastRefresh (s := sleepAsked e (sense lv s)) (quiet.away ..) spill free timed rfl
    refine ⟨_, goesOn.trans (congrArg Host.Outcome.next granted), rfl, rfl, fun lv' => ?_⟩
    obtain ⟨i', reached⟩ := exec_lastCycle (lv := lv')
      (s := { sleepAsked e (sense lv s) with power := { (sleepAsked e (sense lv s)).power with idleTimer := i } })
      (quiet.away ..) spill rfl rfl
    obtain ⟨notHeldS, notHeldP⟩ := sleepAsked_notHeld e (sense lv s)
    exact ⟨_, reached, rfl, rfl, rfl, rfl, rfl, rfl, notHeldS, notHeldP, rfl, rfl, rfl, rfl, rfl, rfl⟩

end Sys2Proof.Machine
end

section
/-! The spill engine's bursts (R67, R75, R172, R174, R175, R178, R179), one by one, and what each leads to. -/

set_option Elab.async false

namespace Sys2Proof.Machine

/-! ## A spill awaited (R67) -/

/-- A spill awaited is not yet made while upkeep waits or a list build runs. -/
theorem spillReady_held {s : State} {why : SpillFor} (awaits : s.spill = .await why)
    (held : s.pmc.upkeep ≠ [] ∨ s.pmc.build ≠ none) : spillReady s = s := by
  unfold spillReady
  rw [awaits]
  exact if_neg fun ready => held.elim (· ready.1) (· ready.2)

/-- It is made once neither does. -/
theorem spillReady_made {s : State} {why : SpillFor} (awaits : s.spill = .await why) (settled : s.pmc.upkeep = [])
    (built : s.pmc.build = none) : spillReady s = { s with spill := .write why 2 ((spillImage s).drop 2) } := by
  unfold spillReady
  rw [awaits]
  exact if_pos ⟨settled, built⟩

/-- The arbiter's choice leaves the spill engine where its turn put it. -/
theorem arbitrate_spill (s : State) : (arbitrate s).spill = (spillReady s).spill := by
  unfold arbitrate
  dsimp only
  split
  · rfl
  · split
    · rfl
    · split <;> rfl

/-! ## Writing (R175) -/

section Bursts
variable {s : State} {z : MemSize}

/-- A burst of the spill's writing. -/
theorem spillBurst_write {why : SpillFor} {off : Nat} {todo : List Byte} (h : s.spill = .write why off todo) :
    let n := min 16 (1024 - off % 1024)
    spillBurst s = { s with
      dram := s.dram.writeAll (reserveAddr (setMemSize s) + off) false (todo.take n),
      spill := if todo.length ≤ n then .writeMarker why else .write why (off + n) (todo.drop n) } := by
  intro n
  have last : (todo.drop n).isEmpty = true ↔ todo.length ≤ n := by rw [List.isEmpty_iff, List.drop_eq_nil_iff]
  rw [← if_congr last rfl rfl]
  unfold spillBurst
  rw [h]
  rfl

/-- The state as the marker has been written. -/
def markerWritten (s : State) : State :=
  { s with dram := s.dram.writeAll (reserveAddr (setMemSize s)) false [0xA5, 0x5A], spill := .idle }

/-- The marker is written last, and then comes what the spill was made for (R174, R176). -/
theorem spillBurst_marker {why : SpillFor} (h : s.spill = .writeMarker why) :
    spillBurst s =
      if s.power.pfail = .inactive then standbySpilled (markerWritten s) else askSelfRefresh .pfail (markerWritten s) := by
  unfold spillBurst
  rw [h]
  rfl

theorem standbySpilled_goesOn {e : SleepEntry} (he : s.power.entry = some e) (ha : activeSource e s.lines = none) :
    standbySpilled s = { s with
      pmc := { s.pmc with srPending := some .standby },
      power := { s.power with entry := some { e with stage := .selfRefresh } } } := by
  have staged : (s.power.entry.map fun x => { x with stage := EntryStage.selfRefresh })
      = some { e with stage := .selfRefresh } := by rw [he]; rfl
  rw [← staged]
  unfold standbySpilled
  rw [he]
  dsimp only
  rw [ha]
  unfold setStage askSelfRefresh mapPower mapPmc
  dsimp only
  rw [he]

theorem standbySpilled_clears {e : SleepEntry} {k : Nat} (he : s.power.entry = some e) (ha : activeSource e s.lines = some k) :
    standbySpilled s = { s with
      spill := .clearMarker (setMemSize s) .abandoned,
      power := { s.power with entry := some { e with stage := .clearing, found := k } } } := by
  unfold standbySpilled
  rw [he]
  dsimp only
  rw [ha]
  rfl

/-! ## SPILLCHECK (R178) -/

/-- Two bytes spell the marker where they are its bytes. -/
theorem beNat_marker (x y : Byte) : beNat [x, y] = Config.spillMarker ↔ [x, y] = [0xA5, 0x5A] := by
  have hx := x.isLt
  have hy := y.isLt
  constructor
  · intro spells
    have number : 256 * x.toNat + y.toNat = 0xA55A := by simpa [beNat, Config.spillMarker] using spells
    have high : x = 0xA5 := BitVec.eq_of_toNat_eq (by show x.toNat = 165; omega)
    have low : y = 0x5A := BitVec.eq_of_toNat_eq (by show y.toNat = 90; omega)
    rw [high, low]
  · intro same
    rw [same]
    rfl

/-- A candidate's marker and size code hold (R178). -/
theorem candidateHolds_iff (z : MemSize) (m : Memory) : candidateHolds z m = true ↔
    m.parityAll (reserveAddr z) 2 = true ∧ m.parityOk (reserveAddr z + 4) = true
      ∧ m.readAll (reserveAddr z) 2 = [0xA5, 0x5A] ∧ (m.read (reserveAddr z + 4)).toNat = z.code := by
  have marker : beNat (m.readAll (reserveAddr z) 2) = Config.spillMarker ↔ m.readAll (reserveAddr z) 2 = [0xA5, 0x5A] :=
    beNat_marker (m.read (reserveAddr z)) (m.read (reserveAddr z + 1))
  simp only [candidateHolds, Bool.and_eq_true, decide_eq_true_eq, marker, and_assoc]

theorem spillBurst_check (h : s.spill = .check z) : spillBurst s = checkCandidate z s := by
  unfold spillBurst
  rw [h]

theorem checkCandidate_holds (h : candidateHolds z s.dram = true) :
    checkCandidate z s = { s with spill := .read z [] false } := if_pos h

theorem checkCandidate_fails (h : ¬candidateHolds z s.dram = true) : checkCandidate z s =
    match z.nextCandidate with
    | some z' => { s with spill := .check z' }
    | none => noSpill s := if_neg h

/-! ## The two reads (R178, R179) -/

theorem spillBurst_read {got : List Byte} {bad : Bool} (h : s.spill = .read z got bad) :
    spillBurst s = readSpill z got bad s := by
  unfold spillBurst
  rw [h]

/-- A burst of the first read: more is to be read, or the spill is judged. -/
theorem readSpill_cases (got : List Byte) (bad : Bool) :
    let b := got ++ s.dram.readAll (reserveAddr z + got.length) (spillStep got)
    let bad' := bad || !s.dram.parityAll (reserveAddr z + got.length) (spillStep got)
    (spillRead b = false → readSpill z got bad s = { s with spill := .read z b bad' })
      ∧ (spillRead b = true →
          (spillVerdict z b bad' = none →
              readSpill z got bad s = { s with spill := .restore z [], boot := { s.boot with state := .restore } })
            ∧ ∀ r, spillVerdict z b bad' = some r → readSpill z got bad s = noSpill (raise evPagesLost 0 0 r s)) := by
  intro b bad'
  refine ⟨fun more => if_neg (ne_true_of_eq_false more), fun read => ⟨fun passes => ?_, fun r fails => ?_⟩⟩
  · refine (if_pos read).trans ?_
    show (match spillVerdict z b bad' with | none => _ | some r => _) = _
    rw [passes]
  · refine (if_pos read).trans ?_
    show (match spillVerdict z b bad' with | none => _ | some r => _) = _
    rw [fails]

theorem spillBurst_restore {got : List Byte} (h : s.spill = .restore z got) : spillBurst s = rereadSpill z got s := by
  unfold spillBurst
  rw [h]

/-- A burst of the second read: abandoned by a parity failure, more to be read, or the spill reinstated. -/
theorem rereadSpill_cases (got : List Byte) :
    let b := got ++ s.dram.readAll (reserveAddr z + got.length) (spillStep got)
    let good := s.dram.parityAll (reserveAddr z + got.length) (spillStep got)
    (good = false → rereadSpill z got s = { s with spill := .clearMarker z .lost })
      ∧ (good = true → spillRead b = false → rereadSpill z got s = { s with spill := .restore z b })
      ∧ (good = true → spillRead b = true → spillVerdict z b false = none →
          rereadSpill z got s = { restoreSpill b s with spill := .clearMarker z .restored }) := by
  intro b good
  have sound (h : good = true) : ¬(!good) = true := by rw [h]; decide
  exact ⟨fun fails => if_pos (by rw [Bool.not_eq_true']; exact fails),
    fun passes more => (if_neg (sound passes)).trans (if_neg (ne_true_of_eq_false more)),
    fun passes read whole => ((if_neg (sound passes)).trans (if_pos read)).trans (if_pos whole)⟩

/-- A spill's table as reinstated. -/
theorem spillActive_get (b : List Byte) (id : Fin 14) :
    (spillActive b)[id] = if spillTable b id = [] then none else some (spillTable b id) := by
  simp [spillActive]

/-- The masks a spill gives (R185). -/
theorem maskAll_masked (e : Events) (field : Nat) (f : Fin 20) : ((e.maskAll field).flags[f]).masked = field.testBit f.val := by
  rw [(settingsTakesMasksAndSize.2 e field).2 f]

/-- What a restore reinstates, and what it leaves as it was (R179). -/
theorem restoreSpill_fields (b : List Byte) (s : State) :
    let t : State := { restoreSpill b s with spill := .clearMarker z .restored }
    t.spill = .clearMarker z .restored ∧ t.boot = s.boot ∧ t.dram = s.dram
      ∧ t.pmc.head = wordAt b 7 ∧ t.pmc.headLink = wordAt b 9 ∧ t.pmc.tail = wordAt b 11
      ∧ t.pmc.count = wordAt b 13 ∧ t.dir.nextId = byteAt b 5 ∧ t.dir.places = 0
      ∧ t.dir.entries = (List.range (byteAt b 6)).map (entryOfSpill b)
      ∧ (∀ id : Fin 14, t.tables.active[id] = (if spillTable b id = [] then none else some (spillTable b id))
          ∧ t.tables.pending[id] = none)
      ∧ t.tables.assembly = none
      ∧ t.power.shadow =
          { sPhase := byteAt b 18, sPos := BitVec.ofNat 32 (longAt b 19), pPhase := byteAt b 23,
            pPos := BitVec.ofNat 32 (longAt b 24) }
      ∧ t.motS = { s.motS with phase := t.power.shadow.sPhase, pos := t.power.shadow.sPos }
      ∧ t.motP = { s.motP with phase := t.power.shadow.pPhase, pos := t.power.shadow.pPos }
      ∧ ∀ f : Fin 20, (t.events.flags[f]).masked = (beNat (sliceOf b 15 3)).testBit f.val := by
  have none_pending (id : Fin 14) : (Vector.replicate 14 (none : Option (List Byte)))[id] = none := by simp
  exact ⟨rfl, rfl, rfl, rfl, rfl, rfl, rfl, rfl, rfl, rfl, fun id => ⟨spillActive_get b id, none_pending id⟩, rfl, rfl, rfl, rfl,
    maskAll_masked s.events (beNat (sliceOf b 15 3))⟩

/-! ## The marker cleared (R174, R179) -/

/-- The state as the marker has been cleared. -/
def markerCleared (z : MemSize) (s : State) : State :=
  { s with dram := s.dram.writeAll (reserveAddr z) false [0, 0], spill := .idle }

theorem spillBurst_clear {next : AfterClear} (h : s.spill = .clearMarker z next) : spillBurst s = clearMarker z next s := by
  unfold spillBurst
  rw [h]

/-- READY as reached with BOOT, before any kept source is told. -/
def booted (reason : Nat) (s : State) : State :=
  raise evBoot 0 0 reason { s with boot := { s.boot with state := .ready, romPos := 0, romSum := 0 } }

theorem reachReady_unkept {r : Nat} (h : s.power.keptSource = none) : reachReady r s = booted r s := by
  unfold reachReady
  dsimp only
  split
  · rfl
  · next k hk => exact absurd (h.symm.trans hk) nofun

theorem reachReady_kept {r k : Nat} (h : s.power.keptSource = some k) :
    reachReady r s = raise evWake 0 0 k { booted r s with power := { s.power with keptSource := none } } := by
  unfold reachReady
  dsimp only
  split
  · next hn => exact absurd (hn.symm.trans h) nofun
  · next j hj =>
    obtain rfl : k = j := Option.some.inj (h.symm.trans hj)
    rfl

/-- An abandoned STANDBY entry ends: WAKE at once from RUN, by the 1 ms return from DOZE (R172). -/
theorem standbyAbandoned_run {e : SleepEntry} (he : s.power.entry = some e) (h : e.fromDoze = false) :
    standbyAbandoned s = raise evWake 0 0 (128 + e.found) { s with power := { s.power with entry := none } } := by
  unfold standbyAbandoned
  rw [he]
  dsimp only
  rw [h]
  rfl

theorem standbyAbandoned_doze {e : SleepEntry} (he : s.power.entry = some e) (h : e.fromDoze = true) :
    standbyAbandoned s = { s with power := { s.power with
      entry := none, returning := some (s.power.returning.getD (128 + e.found)) } } := by
  unfold standbyAbandoned
  rw [he]
  dsimp only
  rw [h]
  unfold abandonEntry
  rw [if_pos rfl]
  unfold beginReturn mapPower
  dsimp only
  split
  · next under =>
    obtain ⟨r, hr⟩ := Option.isSome_iff_exists.mp under
    rw [hr]
    rfl
  · next none_under =>
    rw [Option.not_isSome_iff_eq_none.mp none_under]
    rfl

end Bursts

/-! ## The bursts as delivered -/

theorem deliver_spill (s : State) : deliver { burst := .spill, live := true } s = spillBurst s := rfl

/-- The end of a spill grant makes its burst. -/
theorem exec_spillEnd {lv : Levels} {s t : State} (h : s.pmc.grant = some { burst := .spill, live := true })
    (burst : spillBurst { sense lv s with pmc := { s.pmc with grant := none } } = t) :
    exec (.dramGrantEnd lv) s = .next (settle t) := by
  rw [exec_grantEnd h, deliver_spill, burst]

/-- Settles O60: the wait by what holds it, each burst by the engine's state. -/
theorem spillBursts : Obligations.SpillBursts := by
  refine ⟨fun why s awaits timed =>
    ⟨fun g settled built busy => ?_, fun held => ⟨?_, fun g busy => ?_, fun free unasked => ?_⟩⟩, fun lv s hg => ?_⟩
  · show Host.Outcome.next (arbitrate (refreshFalls s)) = _
    rw [refreshFalls_timed timed, arbitrate_busy (s := refreshWaiting s) (.inl (Option.isSome_of_eq_some busy)),
      spillReady_made (s := refreshWaiting s) awaits settled built]
  · rw [arbitrate_spill, spillReady_held awaits held, awaits]
  · show Host.Outcome.next (arbitrate (refreshFalls s)) = _
    rw [refreshFalls_timed timed, arbitrate_busy (s := refreshWaiting s) (.inl (Option.isSome_of_eq_some busy)),
      spillReady_held (s := refreshWaiting s) awaits held]
  · show Host.Outcome.next (arbitrate (refreshFalls s)) = _
    rw [refreshFalls_timed timed,
      arbitrate_grants (s := refreshWaiting s) (spillReady_held awaits held) free timed unasked rfl]
    rfl
  · intro base ends none?
    have step {t : State} (burst : spillBurst base = t) : ends t := exec_spillEnd hg burst
    refine ⟨fun why off todo h => step (spillBurst_write (s := base) h), fun why h => ?_, fun z h => ?_, fun z got bad h => ?_,
      fun z got h => ?_, fun z h => ?_, fun z e h he => ?_, fun z h => step (spillBurst_clear (s := base) h)⟩
    · have marked := spillBurst_marker (s := base) h
      exact ⟨fun warned => step (marked.trans (if_neg warned)), fun e quiet he =>
        ⟨fun idle => step (marked.trans ((if_pos quiet).trans (standbySpilled_goesOn he idle))),
          fun k active => step (marked.trans ((if_pos quiet).trans (standbySpilled_clears he active)))⟩⟩
    · have checked := spillBurst_check (s := base) h
      refine ⟨fun holds => step (checked.trans (checkCandidate_holds ((candidateHolds_iff ..).2 holds))), fun fails => ?_⟩
      have next := checked.trans (checkCandidate_fails fun holds => fails ((candidateHolds_iff ..).1 holds))
      refine ⟨?_, ?_, ?_, ?_⟩ <;>
        · rintro rfl
          exact step next
    · have moved := spillBurst_read (s := base) h
      obtain ⟨more, ended⟩ := readSpill_cases (s := base) (z := z) got bad
      exact ⟨fun unread => step (moved.trans (more unread)), fun read =>
        ⟨fun passes => step (moved.trans ((ended read).1 passes)), fun r fails => step (moved.trans ((ended read).2 r fails))⟩⟩
    · have moved := spillBurst_restore (s := base) h
      obtain ⟨lost, more, ended⟩ := rereadSpill_cases (s := base) (z := z) got
      exact ⟨fun bad => step (moved.trans (lost bad)), fun good unread => step (moved.trans (more good unread)),
        fun good read passes => ⟨_, step (moved.trans (ended good read passes)), restoreSpill_fields _ base⟩⟩
    · have cleared := spillBurst_clear (s := base) h
      exact ⟨fun unkept => step (cleared.trans (reachReady_unkept unkept)),
        fun k kept => step (cleared.trans (reachReady_kept kept))⟩
    · have cleared := spillBurst_clear (s := base) h
      exact ⟨fun fromRun => step (cleared.trans (standbyAbandoned_run he fromRun)),
        fun fromDoze => step (cleared.trans (standbyAbandoned_doze he fromDoze))⟩

end Sys2Proof.Machine
end

section
/-! The waits of the coder contexts expired (R69, R81, R85, R130, R131, R160), and the end of the SCAN job (R122, R129). -/

set_option Elab.async false

namespace Sys2Proof.Machine

/-! ## The jobs through work on pages -/

/-- The SCAN job and the INTAKE job stand as they were. -/
structure JobsStand (s t : State) : Prop where
  scan   : t.scanJob = s.scanJob
  intake : t.intJob = s.intJob

theorem JobsStand.refl (s : State) : JobsStand s s := ⟨rfl, rfl⟩

theorem JobsStand.trans {s t u : State} (h : JobsStand s t) (k : JobsStand t u) : JobsStand s u :=
  ⟨k.scan.trans h.scan, k.intake.trans h.intake⟩

theorem JobsStand.ite {s t u : State} {p : Prop} [Decidable p] (h : JobsStand s t) (k : JobsStand s u) :
    JobsStand s (if p then t else u) := by
  split
  · exact h
  · exact k

theorem jobs_mapPmc (f : Pmc → Pmc) (s : State) : JobsStand s (mapPmc f s) := ⟨rfl, rfl⟩
theorem jobs_mapEntry (i : Nat) (f : Entry → Entry) (s : State) : JobsStand s (mapEntry i f s) := ⟨rfl, rfl⟩
theorem jobs_writeHeader (b n f : Nat) (s : State) : JobsStand s (writeHeader b n f s) := ⟨rfl, rfl⟩
theorem jobs_setCoder (c : CoderCtx) (x : Coder) (s : State) : JobsStand s (setCoder c x s) := by cases c <;> exact ⟨rfl, rfl⟩

theorem jobs_positionReader (i b : Nat) (s : State) : JobsStand s (positionReader i b s) := by
  unfold positionReader
  split
  · exact .refl s
  · exact .ite ⟨rfl, rfl⟩ (.refl s)

theorem jobs_allocate (c : CoderCtx) (s : State) : JobsStand s (allocate c s) := by
  have header (o : Option Nat) (u : State) :
      JobsStand u (match o with | none => u | some old => writeHeader old s.pmc.head Config.blockUnits u) := by
    cases o <;> exact ⟨rfl, rfl⟩
  have entry (o : Option Nat) (u : State) :
      JobsStand u (match o with | none => u | some id => positionReader id s.pmc.head (mapEntry id (·.gain s.pmc.head) u)) := by
    cases o with
    | none => exact .refl u
    | some id => exact (jobs_mapEntry id (·.gain s.pmc.head) u).trans (jobs_positionReader ..)
  unfold allocate
  exact (((jobs_mapPmc _ s).trans (header _ _)).trans (jobs_setCoder c _ _)).trans (entry _ _)

theorem jobs_pumpAsk (c : CoderCtx) (s : State) : JobsStand s (pumpAsk c s) := by
  have waits : JobsStand s (enterMemwait c s) := (jobs_setCoder c _ s).trans ⟨rfl, rfl⟩
  unfold pumpAsk
  exact .ite (.ite waits (.ite (jobs_allocate c s) (.refl s))) (.refl s)

theorem jobs_serveWaiters (s : State) : JobsStand s (serveWaiters s) := by
  have one (c : CoderCtx) (u : State) : JobsStand u (serveOne c u) := by
    unfold serveOne
    exact (JobsStand.ite (jobs_setCoder c _ u) (.refl u)).trans (jobs_pumpAsk c _)
  exact (one .scan s).trans (one .intake _)

theorem jobs_freeCurrent (b fill : Nat) (s : State) : JobsStand s (freeCurrent b fill s) :=
  (jobs_mapPmc _ s).trans (jobs_serveWaiters _)

theorem jobs_freeChain (a b k : Nat) (c : Option Nat) (s : State) : JobsStand s (freeChain a b k c s) := by
  have checked : JobsStand s (checkLink a s) := .ite (.refl s) ⟨rfl, rfl⟩
  unfold freeChain
  split
  · exact .refl s
  · exact ((JobsStand.ite checked (.refl s)).trans (jobs_mapPmc ..)).trans (jobs_serveWaiters _)

theorem jobs_dropEntry (e : Entry) (c : Option Nat) (s : State) : JobsStand s (dropEntry e c s) :=
  (jobs_freeChain e.first e.last e.blockCount c s).trans ⟨rfl, rfl⟩

theorem jobs_idleCoder (c : CoderCtx) (s : State) : JobsStand s (idleCoder c s) := by cases c <;> exact ⟨rfl, rfl⟩

theorem jobs_settleEmpty (i : Nat) (s : State) : JobsStand s (settleEmpty i s) := by
  unfold settleEmpty
  split
  · exact .refl s
  · exact .ite (jobs_dropEntry ..) (.refl s)

theorem jobs_settleChain (i : Nat) (c : Coder) (s : State) : JobsStand s (settleChain i c s) := by
  unfold settleChain
  split
  · exact .refl s
  · exact (jobs_mapEntry ..).trans (jobs_freeCurrent ..)
  · exact .ite (jobs_writeHeader ..) (((jobs_writeHeader ..).trans (jobs_mapEntry ..)).trans (jobs_freeCurrent ..))

theorem jobs_beforeDrop (i : Nat) (r : Bool) (e : Entry) (s : State) : JobsStand s (beforeDrop i r e s) := by
  have gone : JobsStand s (printPageGone s) := ⟨rfl, rfl⟩
  have unread (u : State) : JobsStand u (clearReader .print i u) := ⟨rfl, rfl⟩
  have idled (c : CoderCtx) (p : Prop) [Decidable p] (u : State) : JobsStand u (if p then idleCoder c u else u) :=
    .ite (jobs_idleCoder c u) (.refl u)
  unfold beforeDrop
  exact (((JobsStand.ite gone (.refl s)).trans (unread _)).trans (idled .scan _ _)).trans (idled .intake _ _)

theorem jobs_discardPage (i : Nat) (r : Bool) (s : State) : JobsStand s (discardPage i r s) := by
  cases h : entryOf i s with
  | none =>
    unfold discardPage
    rw [h]
    exact .refl s
  | some e =>
    obtain ⟨cur, dropped⟩ := discardPage_eq (r := r) h
    rw [dropped]
    exact (jobs_beforeDrop ..).trans (jobs_dropEntry ..)

theorem jobs_discardWritten (c : CoderCtx) (s : State) : JobsStand s (discardWritten c s) := by
  unfold discardWritten
  split
  · exact .refl s
  · exact jobs_discardPage ..

theorem jobs_discardWaiting (c : CoderCtx) (s : State) : JobsStand s (discardWaiting c s) := by
  have all (is : List Nat) : ∀ u : State, JobsStand u (is.foldl (fun s i => discardPage i false s) u) := by
    induction is with
    | nil => exact .refl
    | cons i is ih => exact fun u => (jobs_discardPage i false u).trans (ih _)
  exact all _ s

/-! ## A page completed, and the policy applied (R83 to R86) -/

/-- A completion tells the job its last completed page. -/
theorem completePage_jobs {c : CoderCtx} {t q : Bool} {s : State} {id : Nat} (hp : (coderOf c s).page = some id) :
    match c with
    | .scan => (completePage c t q s).scanJob = s.scanJob.map fun j => { j with lastCompleted := id }
    | .intake => (completePage c t q s).intJob = s.intJob.map fun j => { j with lastCompleted := id } := by
  have before := ((jobs_idleCoder c s).trans (jobs_settleChain id (coderOf c s) _)).trans
    (u := markComplete id t (settleChain id (coderOf c s) (idleCoder c s))) ⟨rfl, rfl⟩
  unfold completePage
  simp only [hp]
  cases c with
  | scan =>
    refine (jobs_settleEmpty ..).scan.trans ?_
    rw [← before.scan]
    cases q <;> rfl
  | intake =>
    refine (jobs_settleEmpty ..).intake.trans ?_
    rw [← before.intake]
    rfl

/-- A context whose page has been completed writes none. -/
theorem completePage_page (c : CoderCtx) (t q : Bool) (s : State) : (coderOf c (completePage c t q s)).page = none := by
  cases hp : (coderOf c s).page with
  | none =>
    unfold completePage
    simp only [hp]
  | some id =>
    have idle : (coderOf c (idleCoder c s)).page = none := by cases c <;> rfl
    have rest := ((beside_settleChain id (coderOf c s) (idleCoder c s)).trans (beside_markComplete id t _)).trans
      (beside_noteCompleted c id t q _)
    unfold completePage
    simp only [hp]
    exact ((rest.trans (beside_settleEmpty id _)).pages c).elim (·.trans idle) fun none => none

/-- The page with the entry `e`, completed and truncated: gone where it has no stored line and no reader, else COMPLETE with its
lines. -/
def CompletedTruncated (id : Nat) (e : Entry) (t : State) : Prop :=
  (e.headLine = e.lineCount → e.printRd = none → e.outRd = none → entryOf id t = none)
    ∧ ((e.headLine ≠ e.lineCount ∨ e.printRd ≠ none ∨ e.outRd ≠ none) →
        ∃ e', entryOf id t = some e' ∧ e'.state = .complete ∧ e'.truncated = true ∧ e'.writer = none
          ∧ e'.lineCount = e.lineCount ∧ e'.headLine = e.headLine)

/-- Entries alike but for their blocks tell the same of the page. -/
theorem CompletedTruncated.alike {s t : State} {id : Nat} {e : Entry} (k : CompletedTruncated id e s)
    (same : (entryOf id t).map Entry.kern = (entryOf id s).map Entry.kern) : CompletedTruncated id e t := by
  refine ⟨fun empty print out => ?_, fun kept => ?_⟩
  · rw [k.1 empty print out] at same
    exact Option.map_eq_none_iff.1 same
  · obtain ⟨e', he', state, truncated, writer, lines, head⟩ := k.2 kept
    rw [he'] at same
    obtain ⟨x, hx, alike⟩ := Option.map_eq_some_iff.1 same
    obtain ⟨-, states, counts, heads, writers, marks, -⟩ := kern_items alike
    exact ⟨x, hx, states.trans state, marks.trans truncated, writers.trans writer, counts.trans lines, heads.trans head⟩

/-- Every entry of the page is COMPLETE. -/
def AllComplete (id : Nat) (s : State) : Prop := ∀ x ∈ s.dir.entries, x.id = id → x.state = .complete

theorem AllComplete.of_subset {s t : State} {id : Nat} (h : AllComplete id s)
    (sub : t.dir.entries.map Entry.kern ⊆ s.dir.entries.map Entry.kern) : AllComplete id t := by
  intro x hx same
  obtain ⟨y, hy, alike⟩ := List.mem_map.1 (sub (List.mem_map_of_mem hx))
  obtain ⟨ids, states, -⟩ := kern_items alike
  exact states.symm.trans (h y hy (ids.trans same))

theorem AllComplete.of_kin {s t : State} {id : Nat} (h : AllComplete id s) (k : Kin s t) : AllComplete id t :=
  h.of_subset (by rw [show _ = _ from k]; exact List.Subset.refl _)

theorem allComplete_markComplete (id : Nat) (t : Bool) (s : State) : AllComplete id (markComplete id t s) := by
  intro x hx same
  obtain ⟨y, -, rfl⟩ := List.mem_map.1 hx
  split at same
  · next own => rw [if_pos own]
  · next other => exact absurd same other

theorem allComplete_settleEmpty {id i : Nat} {s : State} (h : AllComplete id s) : AllComplete id (settleEmpty i s) := by
  unfold settleEmpty
  split
  · exact h
  · split
    · refine h.of_subset ?_
      rw [entries_dropEntry]
      exact List.filter_subset_self ..
    · exact h

/-- A page completed has no FILLING entry. -/
theorem allComplete_completePage {c : CoderCtx} {t q : Bool} {s : State} {id : Nat} (hp : (coderOf c s).page = some id) :
    AllComplete id (completePage c t q s) := by
  have noted := kin_noteCompleted c id t q (markComplete id t (settleChain id (coderOf c s) (idleCoder c s)))
  unfold completePage
  simp only [hp]
  exact allComplete_settleEmpty ((allComplete_markComplete _ _ _ : AllComplete id _).of_kin noted)

section Policy
variable {c : CoderCtx} {p : Policy} {s : State} {id : Nat} {e : Entry}

/-- What the memory policy makes of the page a context writes (R85). -/
theorem applyPolicy_fate (hp : (coderOf c s).page = some id) (he : entryOf id s = some e) :
    (p = .discard → entryOf id (applyPolicy c p s) = none) ∧ (p = .truncate → CompletedTruncated id e (applyPolicy c p s)) := by
  refine ⟨?_, ?_⟩
  · rintro rfl
    show entryOf id (discardWritten c s) = none
    unfold discardWritten
    rw [hp]
    exact discardPage_gone id false s
  · rintro rfl
    obtain ⟨gone, stays⟩ := completePage_fate true false hp he
    refine ⟨fun empty print out => gone empty (by simp [Entry.hasReader, print, out]),
      fun kept => stays (kept.imp_right fun reader => ?_)⟩
    rw [Entry.hasReader, Bool.or_eq_true, Option.isSome_iff_ne_none, Option.isSome_iff_ne_none]
    exact reader

theorem stand_applyPolicy (c : CoderCtx) (p : Policy) (s : State) : FlagsStand s (applyPolicy c p s) := by
  cases p with
  | discard => exact stand_discardWritten ..
  | truncate => exact stand_completePage ..

/-- The INTAKE job after its policy: a completed page is its last completed one. -/
theorem applyPolicy_intJob {k : IntakeJob} (hk : s.intJob = some k) : (applyPolicy .intake p s).intJob =
    some { k with lastCompleted := if p = .truncate then s.intakeCd.page.getD k.lastCompleted else k.lastCompleted } := by
  cases p with
  | discard => exact (jobs_discardWritten .intake s).intake.trans hk
  | truncate =>
    cases hp : s.intakeCd.page with
    | none =>
      have same : completePage .intake true false s = s := by
        unfold completePage
        simp only [show (coderOf .intake s).page = none from hp]
      exact (congrArg State.intJob same).trans hk
    | some id =>
      refine (completePage_jobs (c := .intake) hp).trans ?_
      rw [hk]
      rfl

/-- The SCAN job after its policy. -/
theorem applyPolicy_scanJob {j : ScanJob} (hj : s.scanJob = some j) :
    ∃ l, (applyPolicy .scan p s).scanJob = some { j with lastCompleted := l }
      ∧ (p = .truncate → ∀ id, s.scanCd.page = some id → l = id) := by
  cases p with
  | discard => exact ⟨j.lastCompleted, (jobs_discardWritten .scan s).scan.trans hj, nofun⟩
  | truncate =>
    cases hp : s.scanCd.page with
    | none =>
      have same : completePage .scan true false s = s := by
        unfold completePage
        simp only [show (coderOf .scan s).page = none from hp]
      exact ⟨j.lastCompleted, (congrArg State.scanJob same).trans hj, fun _ => nofun⟩
    | some id =>
      refine ⟨id, (completePage_jobs (c := .scan) hp).trans ?_, fun _ i hi => Option.some.inj hi⟩
      rw [hj]
      rfl

/-- After its policy a context still writes at most a page the directory does not hold. -/
theorem applyPolicy_writesNone (c : CoderCtx) (p : Policy) (s : State) :
    ∀ e ∈ (applyPolicy c p s).dir.entries, (coderOf c (applyPolicy c p s)).page ≠ some e.id := by
  intro e he hp
  cases p with
  | truncate => exact nomatch (completePage_page c true false s).symm.trans hp
  | discard =>
    have gone : entryOf e.id (discardWritten c s) = none := by
      rcases (beside_discardWritten c s).pages c with same | none
      · have written : (coderOf c s).page = some e.id := same.symm.trans hp
        unfold discardWritten
        rw [written]
        exact discardPage_gone ..
      · exact nomatch none.symm.trans hp
    exact absurd (decide_eq_true rfl) (List.find?_eq_none.1 gone e he)

/-- Once the pages not taken up are discarded, no page of a context that writes none stays FILLING. -/
theorem discardWaiting_noneFilling (h : ∀ e ∈ s.dir.entries, (coderOf c s).page ≠ some e.id) :
    ∀ e ∈ (discardWaiting c s).dir.entries, e.state = .filling → e.writer ≠ some c := by
  intro e he filling writer
  have kept : e.kern ∈ (s.dir.entries.map Entry.kern).filter fun x => x.id ∉ waitingIds c s := by
    rw [← entries_discardAll false (waitingIds c s) s]
    exact List.mem_map_of_mem he
  obtain ⟨mem, notWaiting⟩ := List.mem_filter.1 kept
  obtain ⟨x, hx, alike⟩ := List.mem_map.1 mem
  obtain ⟨ids, states, -, -, writers, -⟩ := kern_items alike
  have waits : waitsFor c s x = true := by
    unfold waitsFor
    rw [states, filling, writers, writer]
    simpa using h x hx
  have listed : x.id ∈ waitingIds c s := List.mem_map_of_mem (List.mem_filter.2 ⟨hx, waits⟩)
  exact of_decide_eq_true notWaiting (ids ▸ listed)

/-- A page completed stays as it is while the pages not taken up are discarded. -/
theorem CompletedTruncated.discardWaiting {t : State} (k : CompletedTruncated id e t) (complete : AllComplete id t) :
    CompletedTruncated id e (discardWaiting c t) := by
  refine k.alike (discardWaiting_other fun waits => ?_)
  obtain ⟨x, hx, same⟩ := List.mem_map.1 waits
  obtain ⟨mem, waiting⟩ := List.mem_filter.1 hx
  have filling : x.state = .filling := by
    simp only [waitsFor, Bool.and_eq_true, decide_eq_true_eq] at waiting
    exact waiting.1.1
  exact nomatch filling.symm.trans (complete x mem same)

end Policy

/-! ## The INTAKE job's end at an expiry (R160, R162) -/

/-- The INTAKE job has ended, and from a clear flag INTAKE_END tells the page and the reason given. -/
def IntakeEnded (page reason : Nat) (s t : State) : Prop :=
  t.intJob = none ∧ t.rings.intake.occ = 0 ∧ t.intakeCd = Coder.reset ∧ (t.events.flags[evIntakeEnd]).set = true
    ∧ ((s.events.flags[evIntakeEnd]).set = false →
        (t.events.flags[evIntakeEnd]).page = page ∧ (t.events.flags[evIntakeEnd]).chan = 0
          ∧ (t.events.flags[evIntakeEnd]).reason = reason ∧ (t.events.flags[evIntakeEnd]).again = false)

/-- The state as an INTAKE job's end leaves it, before its flag. -/
def intakeClosed (s : State) : State :=
  { clearIntakeLine (endDirwait .intake (idleCoder .intake (emptyIntakeRing s))) with intJob := none }

theorem endIntake_eq {s : State} {k : IntakeJob} (hk : s.intJob = some k) (reason : Nat) :
    endIntake reason s = raise evIntakeEnd k.lastCompleted 0 reason (intakeClosed s) := by
  unfold endIntake
  rw [hk]
  rfl

theorem endIntake_ended {s u : State} {k : IntakeJob} (hk : u.intJob = some k) (flags : FlagsStand s u) (reason : Nat) :
    IntakeEnded k.lastCompleted reason s (endIntake reason u) := by
  rw [endIntake_eq hk]
  have same : (intakeClosed u).events.flags[evIntakeEnd] = s.events.flags[evIntakeEnd] :=
    flags.flag evIntakeEnd (by decide) (by decide) (by decide)
  refine ⟨rfl, rfl, rfl, raise_set .., fun clear => raise_snapshot ?_ k.lastCompleted 0 reason⟩
  rw [same]
  exact clear

theorem endIntake_dir {s : State} {k : IntakeJob} (hk : s.intJob = some k) (reason : Nat) :
    (endIntake reason s).dir = s.dir := by
  rw [endIntake_eq hk]
  rfl

/-- A page's entry is the directory's alone. -/
theorem entryOf_of_entries {s t : State} (h : t.dir.entries = s.dir.entries) (id : Nat) : entryOf id t = entryOf id s := by
  unfold entryOf
  rw [h]

/-! ## The SCAN job's ending decision at an expiry (R122, R130, R131) -/

/-- The job as an ending decision leaves it, its page still to be settled. -/
def ScanJob.decided (j : ScanJob) (reason : Nat) (held : Option (Nat × Nat)) : ScanJob :=
  { j with phase := .ending, pause := false, awaitRun := false, endReason := reason, docHeld := held }

/-- The pages and the job are as the ending's row settles them. -/
theorem scanDecision_settles {how : ScanSettle} (hw : how ≠ .leave) (reason : Nat) (held : Option Nat) {s : State} {j : ScanJob}
    (hj : s.scanJob = some j) :
    let u := settleScanPages how j.policy
      { s with scanJob := some (j.decided reason (held.map fun r => (r, s.scanCd.page.getD 0))) }
    (scanDecision reason how held s).scanJob = u.scanJob ∧ (scanDecision reason how held s).dir.entries = u.dir.entries := by
  unfold scanDecision
  rw [hj]
  dsimp only
  rw [if_neg hw, if_neg hw]
  exact ⟨rfl, rfl⟩

/-- A decision that leaves the pages as they are leaves the rings too. -/
theorem scanDecision_leaves (reason : Nat) (held : Option Nat) {s : State} {j : ScanJob} (hj : s.scanJob = some j) :
    let t := scanDecision reason .leave held s
    t.scanJob = some (j.decided reason (held.map fun r => (r, 0))) ∧ t.scanCd.dirWait = none ∧ t.rings = s.rings
      ∧ t.dir.entries = s.dir.entries := by
  unfold scanDecision
  rw [hj]
  exact ⟨rfl, rfl, rfl, rfl⟩

/-! ## The SCAN job's end (R122, R129) -/

section End
variable {s : State} {j : ScanJob}

theorem settleScanEnd_due (hj : s.scanJob = some j) (due : scanEndDue j s = true) : settleScanEnd s = endScan j s := by
  unfold settleScanEnd
  rw [hj]
  exact if_pos due

theorem settleScanEnd_waits (hj : s.scanJob = some j) (due : scanEndDue j s = false) : settleScanEnd s = s := by
  unfold settleScanEnd
  rw [hj]
  exact if_neg (ne_true_of_eq_false due)

/-- What the job's end leaves, SCAN_END and then DOC_HELD raised. -/
theorem endScan_eq (j : ScanJob) (s : State) : endScan j s =
    { s with
      rings := { s.rings with scan := s.rings.scan.emptied, scanReserved := 0 }, scanJob := none,
      front := { s.front with comp := none, lamp := false }, motS := { s.motS with owner := .nobody },
      events := match j.docHeld with
        | none => s.events.raise evScanEnd j.lastCompleted 1 (scanEndReason j)
        | some (h, page) => (s.events.raise evScanEnd j.lastCompleted 1 (scanEndReason j)).raise evDocHeld page 1 h } := by
  unfold endScan
  cases j.docHeld <;> rfl

theorem scanEndDue_ending (h : j.phase = .ending) : scanEndDue j s = true ↔
    s.motS.moving = false ∧ (j.endReason < 6 ∨ scanPagesDone s = true) := by
  simp [scanEndDue, h]

theorem scanEndDue_runout (h : j.phase = .runout) : scanEndDue j s = true ↔ s.motS.atRest = true ∧ scanPagesDone s = true := by
  simp [scanEndDue, h]

theorem scanEndDue_going (h : j.phase = .search ∨ j.phase = .lead ∨ j.phase = .capture ∨ j.phase = .dirwait) :
    scanEndDue j s = false := by
  rcases h with h | h | h | h <;> simp [scanEndDue, h]

/-- With no other job, no pass and no wait, a scan in ENDING or RUNOUT has only its own end to come. -/
theorem settle_scanEnds (hj : s.scanJob = some j) (phase : j.phase = .ending ∨ j.phase = .runout)
    (timer : s.scanCd.timer ≠ some 0) (scanDir : s.scanCd.dirWait = none) (intJob : s.intJob = none)
    (intDir : s.intakeCd.dirWait = none) (prtJob : s.prtJob = none) (printDec : s.printDec = none) (outJob : s.outJob = none)
    (outDec : s.outDec = none) : settle s = arbitrate (updateIdle (applyMotorTables (settleScanEnd s))) := by
  have restart : settleScanRestart s = s :=
    settleScanRestart_waits hj (by rcases phase with h | h <;> simp [scanRestartDue, h])
  have waits : zeroWaits s = s := zeroWaits_free (.inl timer) scanDir (.inr (.inr intJob)) intDir
  have intake : settleIntake s = s := by simp [settleIntake, intJob]
  have print : settlePass .print s = s := settlePass_none (c := .print) printDec
  have out : settlePass .output s = s := settlePass_none (c := .output) outDec
  have printed : settlePrint s = s := settlePrint_none prtJob printDec
  have output : settleOutput s = s := by simp [settleOutput, outJob]
  have room : settleRoom s = s := settleRoom_free scanDir intDir
  have jobs : settleJobs s = s := by simp only [settleJobs, restart, waits, intake, print, out, printed, output, room]
  simp only [settle, jobs, restart]

end End

/-! ## The expiries -/

theorem exec_memExpiry {c : CoderCtx} {s : State} (h : (coderOf c s).st = .memwait) :
    exec (.memwaitExpiry c) s = .next (settle (match c with
      | .scan => scanMemExpiry s
      | .intake => intakeMemExpiry s)) := by
  show Host.Outcome.next (settle (memExpire c s)) = _
  unfold memExpire
  rw [if_pos h]
  cases c <;> rfl

/-- The INTAKE job's memory wait expired (R85, R160). -/
theorem intakeMemExpiry_ends {s : State} {k : IntakeJob} (hk : s.intJob = some k) :
    IntakeEnded (if k.policy = .truncate then s.intakeCd.page.getD k.lastCompleted else k.lastCompleted) 2 s (intakeMemExpiry s)
      ∧ ∀ id e, s.intakeCd.page = some id → entryOf id s = some e →
          (k.policy = .discard → entryOf id (intakeMemExpiry s) = none)
            ∧ (k.policy = .truncate → CompletedTruncated id e (intakeMemExpiry s)) := by
  have job := applyPolicy_intJob (p := k.policy) hk
  have eq : intakeMemExpiry s = endIntake 2 (applyPolicy .intake k.policy s) := by
    unfold intakeMemExpiry
    rw [hk]
  have entries (id : Nat) : entryOf id (intakeMemExpiry s) = entryOf id (applyPolicy .intake k.policy s) := by
    rw [eq]
    exact entryOf_of_entries (congrArg _ (endIntake_dir job 2)) id
  refine ⟨?_, fun id e hp he => ?_⟩
  · rw [eq]
    exact endIntake_ended job (stand_applyPolicy ..) 2
  · obtain ⟨gone, completed⟩ := applyPolicy_fate (p := k.policy) (c := .intake) hp he
    exact ⟨fun h => (entries id).trans (gone h), fun h => (completed h).alike (congrArg _ (entries id))⟩

/-- The SCAN job's memory wait expired (R85, R131). -/
theorem scanMemExpiry_decides {s : State} {j : ScanJob} (hj : s.scanJob = some j) :
    ∃ j', (scanMemExpiry s).scanJob = some j' ∧ j'.phase = .ending ∧ j'.endReason = 5
      ∧ j'.docHeld = some (1, s.scanCd.page.getD 0) ∧ (scanMemExpiry s).rings.scan.occ = 0 ∧ (scanMemExpiry s).dir.places = 0
      ∧ (∀ e ∈ (scanMemExpiry s).dir.entries, e.state = .filling → e.writer ≠ some .scan)
      ∧ ∀ id e, s.scanCd.page = some id → entryOf id s = some e →
          (j.policy = .discard → entryOf id (scanMemExpiry s) = none)
            ∧ (j.policy = .truncate → j'.lastCompleted = id ∧ CompletedTruncated id e (scanMemExpiry s)) := by
  obtain ⟨job, entries⟩ := scanDecision_settles (how := .policy) nofun 5 (some 1) hj
  obtain ⟨-, ring, places, -, -, -⟩ := scanDecision_decided (how := .policy) nofun 5 (some 1) hj
  simp only [Option.map_some] at job entries
  generalize hu : ({ s with scanJob := some (j.decided 5 (some (1, s.scanCd.page.getD 0))) } : State) = u at job entries
  have settled : settleScanPages .policy j.policy u = discardWaiting .scan (applyPolicy .scan j.policy u) := rfl
  rw [settled] at job entries
  obtain ⟨l, kept, last⟩ := applyPolicy_scanJob (p := j.policy) (s := u) (j := j.decided 5 (some (1, s.scanCd.page.getD 0)))
    (by subst hu; rfl)
  refine ⟨_, job.trans ((jobs_discardWaiting ..).scan.trans kept), rfl, rfl, rfl, ring.1, places, ?_, fun id e hp he => ?_⟩
  · rw [show (scanMemExpiry s).dir.entries = _ from entries]
    exact discardWaiting_noneFilling (applyPolicy_writesNone _ _ _)
  · have page : (coderOf .scan u).page = some id := by subst hu; exact hp
    have entry : entryOf id u = some e := by subst hu; exact he
    have same : entryOf id (scanMemExpiry s) = entryOf id (discardWaiting .scan (applyPolicy .scan j.policy u)) :=
      entryOf_of_entries entries id
    obtain ⟨gone, completed⟩ := applyPolicy_fate (p := j.policy) page entry
    refine ⟨fun h => same.trans (discardWaiting_gone (gone h)), fun h => ⟨last h id page, ?_⟩⟩
    have whole := completed h
    rw [h] at whole same
    exact (whole.discardWaiting (allComplete_completePage page)).alike (congrArg _ same)

/-- Settles O39: each expiry by the job it ends, the SCAN job's end by its phase. -/
theorem waitExpiryAndScanEnd : Obligations.WaitExpiryAndScanEnd := by
  refine ⟨fun s => ⟨fun k hw hk => ?_, fun j hw hj => ?_, fun k hw hk => ?_, fun j hw hj => ?_⟩, fun s j hj => ?_⟩
  · exact ⟨_, exec_memExpiry (c := .intake) hw, intakeMemExpiry_ends hk⟩
  · obtain ⟨j', decided⟩ := scanMemExpiry_decides hj
    exact ⟨_, j', exec_memExpiry (c := .scan) hw, decided⟩
  · have expires : intakeDirExpiry s = endIntake 3 (endDirwait .intake s) := if_pos (Option.isSome_iff_ne_none.2 hw)
    refine ⟨_, rfl, ?_, ?_⟩
    · show IntakeEnded _ 3 s (intakeDirExpiry s)
      rw [expires]
      exact endIntake_ended (u := endDirwait .intake s) hk ⟨fun _ _ _ _ => rfl⟩ 3
    · show (intakeDirExpiry s).dir.entries = _
      rw [expires, endIntake_dir (s := endDirwait .intake s) hk]
      rfl
  · have expires : scanDirExpiry s = scanDecision 6 .leave (some 2) (endDirwait .scan s) :=
      if_pos (Option.isSome_iff_ne_none.2 hw)
    obtain ⟨job, wait, rings, entries⟩ := scanDecision_leaves 6 (some 2) (s := endDirwait .scan s) hj
    rw [← expires] at job wait rings entries
    exact ⟨scanDirExpiry s, _, rfl, job, rfl, rfl, rfl, wait, rings, entries⟩
  · intro done ended
    have ends {r : Nat} (due : scanEndDue j s = true) (reason : scanEndReason j = r) : settleScanEnd s = ended r := by
      subst reason
      exact (settleScanEnd_due hj due).trans (endScan_eq j s)
    have pages : scanPagesDone s = true ↔ done := scanPagesDone_iff s
    refine ⟨fun phase still due => ?_, fun phase still due => ?_, fun waits => settleScanEnd_waits hj ?_,
      fun phase => settle_scanEnds hj phase⟩
    · exact ends ((scanEndDue_ending phase).2 ⟨still, due.imp_right pages.2⟩) (if_pos phase)
    · exact ends ((scanEndDue_runout phase).2 ⟨still, pages.2 due⟩) (if_neg (by rw [phase]; decide))
    · rcases waits with going | ⟨phase, held⟩ | ⟨phase, held⟩
      · exact scanEndDue_going going
      · refine Bool.eq_false_iff.2 fun due => ?_
        obtain ⟨still, now⟩ := (scanEndDue_ending phase).1 due
        rcases held with moving | ⟨late, undone⟩
        · exact Bool.false_ne_true (still.symm.trans moving)
        · exact now.elim (fun early => absurd late (Nat.not_le.2 early)) fun all => undone (pages.1 all)
      · refine Bool.eq_false_iff.2 fun due => ?_
        obtain ⟨rest, all⟩ := (scanEndDue_runout phase).1 due
        exact held.elim (fun moving => Bool.false_ne_true (moving.symm.trans rest)) fun undone => undone (pages.1 all)

end Sys2Proof.Machine
end

section
/-! The page directory and the lives of pages under orders: ids, ERASE (R79, R92). -/

set_option Elab.async false

namespace Sys2Proof.Machine

/-! ## Page ids (R79) -/

/-- The ids tried one after another lie in 1..255. -/
theorem pickId_range (used : List Nat) (fuel : Nat) : ∀ n, (1 ≤ n ∧ n ≤ 255) → 1 ≤ pickId used fuel n ∧ pickId used fuel n ≤ 255 := by
  induction fuel with
  | zero => exact fun _ h => h
  | succ fuel ih =>
    intro n h
    unfold pickId
    split
    · exact ih _ (idAfter_range n)
    · exact h

/-- The 255 ids from one on differ. -/
theorem idAt_nodup (n : Nat) : ((List.range 255).map (idAt n)).Nodup := by
  refine List.Nodup.map_on (fun x hx y hy same => ?_) List.nodup_range
  rw [List.mem_range] at hx hy
  unfold idAt at same
  omega

/-- Of 255 ids tried, fewer than 255 taken leave one free. -/
theorem pickId_free {used : List Nat} (room : used.length < 255) {n : Nat} (h : 1 ≤ n ∧ n ≤ 255) : pickId used 255 n ∉ used := by
  intro taken
  have all : (List.range 255).map (idAt n) ⊆ used := by
    intro x hx
    obtain ⟨k, hk, rfl⟩ := List.mem_map.1 hx
    exact pickId_used 255 n h taken k (Nat.lt_succ_of_lt (List.mem_range.1 hk))
  have count := (List.subperm_of_subset (idAt_nodup n) all).length_le
  rw [List.length_map, List.length_range] at count
  omega

/-- Settles O35: the ids tried stay in range, and the entries cannot hold all 255 of them. -/
theorem newPageIdIsFree : Obligations.NewPageIdIsFree := by
  intro s room low high
  obtain ⟨least, most⟩ := pickId_range (s.dir.entries.map Entry.id) 255 s.dir.nextId ⟨low, high⟩
  have free : newId s ∉ s.dir.entries.map Entry.id := pickId_free (by rwa [List.length_map]) ⟨low, high⟩
  exact ⟨least, most, fun e he same => free (same ▸ List.mem_map_of_mem he)⟩

/-! ## ERASE (R92) -/

/-- An order that needs no RUN, written at an open port: its owner acts and its answer is given (R3, R4). -/
theorem writeOrder_done {code : Byte} {p : List Byte} {s : State} {x : State × ReplyBody} (ho : portOpen s)
    (hh : headerCheck kOrder code p.length = none) (any : needsRun { kind := kOrder, sub := code, payload := p } = false)
    (acts : actOrder code.toNat p s = x) :
    (Host.Outcome.next (writeOrder code p s) : Host.Outcome State Fault Refusal) = .next (replied code x.2 x.1) := by
  subst acts
  obtain ⟨hr, hi, hb⟩ := ho
  rw [writeOrder_ready hr hi hb hh fun runs => absurd (any.symm.trans runs) Bool.false_ne_true]
  rfl

theorem exec_erase {page : Byte} {s : State} (ho : portOpen s) :
    exec (.erase page) s = .next (replied 0x07 (orderErase [page] s).2 (orderErase [page] s).1) :=
  writeOrder_done ho rfl rfl rfl

section Erase
variable {page : Byte} {s : State} {e : Entry}

theorem orderErase_nopage (h : entryOf page.toNat s = none) : orderErase [page] s = (s, .filled .nopage []) := by
  unfold orderErase
  rw [show entryOf (byteAt [page] 0) s = none from h]

/-- ERASE of a page in the directory, by its state and its readers. -/
theorem orderErase_page (h : entryOf page.toNat s = some e) :
    orderErase [page] s =
      if e.state ≠ .complete then (s, .filled .state [])
      else if e.hasReader then (mapEntry e.id (fun e => { e with state := .erasing, erasePend := true }) s, .filled .ok [page])
      else (dropEntry e none s, .filled .ok [page]) := by
  unfold orderErase
  rw [show entryOf (byteAt [page] 0) s = some e from h]
  dsimp only
  cases e.state <;> rfl

end Erase

theorem hasReader_iff (e : Entry) : e.hasReader = true ↔ e.printRd ≠ none ∨ e.outRd ≠ none := by
  rw [Entry.hasReader, Bool.or_eq_true, Option.isSome_iff_ne_none, Option.isSome_iff_ne_none]

/-- Settles O38: the order by the page's state and its readers. -/
theorem eraseFreesOrMarksPage : Obligations.EraseFreesOrMarksPage := by
  intro page s ho
  refine ⟨fun none => ?_, fun e he => ⟨fun busy => ?_, fun complete print out => ?_, fun complete read => ?_⟩⟩ <;> rw [exec_erase ho]
  · rw [orderErase_nopage none]
  · rw [orderErase_page he, if_pos busy]
  · have unread : ¬e.hasReader = true := fun read => ((hasReader_iff e).1 read).elim (· print) (· out)
    rw [orderErase_page he, if_neg (not_not_intro complete), if_neg unread]
    refine ⟨_, rfl, fun x hx => ?_, rfl⟩
    exact of_decide_eq_true (List.mem_filter.1 hx).2
  · rw [orderErase_page he, if_neg (not_not_intro complete), if_pos ((hasReader_iff e).2 read)]
    rfl

end Sys2Proof.Machine
end

section
/-! What work on pages leaves of the rings, of the PRINT job and its pass, of the events and the jobs (R50, R70, R83 to R90). -/

set_option Elab.async false

namespace Sys2Proof.Machine

/-! ## The PRINT job, its pass and the rings -/

/-- The rings and the PRINT job stand, and no print pass begins. -/
structure PrintStands (s t : State) : Prop where
  rings : t.rings = s.rings
  job   : t.prtJob = s.prtJob
  pass  : s.printDec = none → t.printDec = none

theorem PrintStands.refl (s : State) : PrintStands s s := ⟨rfl, rfl, id⟩

theorem PrintStands.trans {s t u : State} (h : PrintStands s t) (k : PrintStands t u) : PrintStands s u :=
  ⟨k.rings.trans h.rings, k.job.trans h.job, fun none => k.pass (h.pass none)⟩

theorem PrintStands.ite {s t u : State} {p : Prop} [Decidable p] (h : PrintStands s t) (k : PrintStands s u) :
    PrintStands s (if p then t else u) := by
  split
  · exact h
  · exact k

theorem prints_raise (f : Fin 20) (p c r : Nat) (s : State) : PrintStands s (raise f p c r s) := ⟨rfl, rfl, id⟩
theorem prints_mapPmc (f : Pmc → Pmc) (s : State) : PrintStands s (mapPmc f s) := ⟨rfl, rfl, id⟩
theorem prints_mapEntry (i : Nat) (f : Entry → Entry) (s : State) : PrintStands s (mapEntry i f s) := ⟨rfl, rfl, id⟩
theorem prints_writeHeader (b n f : Nat) (s : State) : PrintStands s (writeHeader b n f s) := ⟨rfl, rfl, id⟩
theorem prints_setCoder (c : CoderCtx) (x : Coder) (s : State) : PrintStands s (setCoder c x s) := by
  cases c <;> exact ⟨rfl, rfl, id⟩

theorem prints_positionReader (i b : Nat) (s : State) : PrintStands s (positionReader i b s) := by
  unfold positionReader
  split
  · exact .refl s
  · next p present => exact .ite ⟨rfl, rfl, fun none => nomatch present.symm.trans none⟩ (.refl s)

theorem prints_allocate (c : CoderCtx) (s : State) : PrintStands s (allocate c s) := by
  have header (o : Option Nat) (u : State) :
      PrintStands u (match o with | none => u | some old => writeHeader old s.pmc.head Config.blockUnits u) := by
    cases o with
    | none => exact .refl u
    | some old => exact prints_writeHeader ..
  have entry (o : Option Nat) (u : State) :
      PrintStands u (match o with | none => u | some id => positionReader id s.pmc.head (mapEntry id (·.gain s.pmc.head) u)) := by
    cases o with
    | none => exact .refl u
    | some id => exact (prints_mapEntry id (·.gain s.pmc.head) u).trans (prints_positionReader ..)
  unfold allocate
  exact (((prints_mapPmc _ s).trans (header _ _)).trans (prints_setCoder c _ _)).trans (entry _ _)

theorem prints_pumpAsk (c : CoderCtx) (s : State) : PrintStands s (pumpAsk c s) := by
  have waits : PrintStands s (enterMemwait c s) := (prints_setCoder c _ s).trans (prints_raise ..)
  unfold pumpAsk
  exact .ite (.ite waits (.ite (prints_allocate c s) (.refl s))) (.refl s)

theorem prints_serveWaiters (s : State) : PrintStands s (serveWaiters s) := by
  have one (c : CoderCtx) (u : State) : PrintStands u (serveOne c u) := by
    unfold serveOne
    exact (PrintStands.ite (prints_setCoder c _ u) (.refl u)).trans (prints_pumpAsk c _)
  exact (one .scan s).trans (one .intake _)

theorem prints_freeCurrent (b fill : Nat) (s : State) : PrintStands s (freeCurrent b fill s) :=
  (prints_mapPmc _ s).trans (prints_serveWaiters _)

theorem prints_freeChain (a b k : Nat) (c : Option Nat) (s : State) : PrintStands s (freeChain a b k c s) := by
  have checked : PrintStands s (checkLink a s) := .ite (.refl s) (prints_raise ..)
  unfold freeChain
  split
  · exact .refl s
  · exact ((PrintStands.ite checked (.refl s)).trans (prints_mapPmc ..)).trans (prints_serveWaiters _)

theorem prints_dropEntry (e : Entry) (c : Option Nat) (s : State) : PrintStands s (dropEntry e c s) :=
  (prints_freeChain e.first e.last e.blockCount c s).trans ⟨rfl, rfl, id⟩

theorem prints_idleCoder (c : CoderCtx) (s : State) : PrintStands s (idleCoder c s) := by
  cases c <;> exact ⟨rfl, rfl, id⟩

theorem prints_settleEmpty (i : Nat) (s : State) : PrintStands s (settleEmpty i s) := by
  unfold settleEmpty
  split
  · exact .refl s
  · exact .ite (prints_dropEntry ..) (.refl s)

theorem prints_settleChain (i : Nat) (c : Coder) (s : State) : PrintStands s (settleChain i c s) := by
  unfold settleChain
  split
  · exact .refl s
  · exact (prints_mapEntry ..).trans (prints_freeCurrent ..)
  · exact .ite (prints_writeHeader ..) (((prints_writeHeader ..).trans (prints_mapEntry ..)).trans (prints_freeCurrent ..))

theorem prints_noteCompleted (c : CoderCtx) (i : Nat) (t q : Bool) (s : State) : PrintStands s (noteCompleted c i t q s) := by
  cases c with
  | scan => exact .ite ⟨rfl, rfl, id⟩ ⟨rfl, rfl, id⟩
  | intake => exact ⟨rfl, rfl, id⟩

theorem prints_completePage (c : CoderCtx) (t q : Bool) (s : State) : PrintStands s (completePage c t q s) := by
  unfold completePage
  dsimp only
  split
  · exact .refl s
  · exact ((((prints_idleCoder c s).trans (prints_settleChain ..)).trans (prints_mapEntry ..)).trans
      (prints_noteCompleted ..)).trans (prints_settleEmpty ..)

/-! ## Readers leaving (R90) -/

/-- What a removal does is clear the reader's item and then drop the page, or settle it, or nothing. -/
theorem removeReader_moves (c : DecoderCtx) (i : Nat) (s : State) :
    removeReader c i s = s ∨ (∃ e, removeReader c i s = dropEntry e none (clearReader c i s))
      ∨ removeReader c i s = settleEmpty i (clearReader c i s) := by
  unfold removeReader
  split
  · exact .inl rfl
  · next e _ =>
    split
    · exact .inl rfl
    · dsimp only
      split
      · exact .inr (.inl ⟨e, rfl⟩)
      · split
        · exact .inr (.inl ⟨e, rfl⟩)
        · exact .inr (.inr rfl)

section Reader
variable (c : DecoderCtx) (i : Nat) (s : State)

theorem prints_removeReader : PrintStands s (removeReader c i s) := by
  have cleared : PrintStands s (clearReader c i s) := prints_mapEntry ..
  rcases removeReader_moves c i s with same | ⟨e, drops⟩ | settles
  · rw [same]
    exact .refl s
  · rw [drops]
    exact cleared.trans (prints_dropEntry ..)
  · rw [settles]
    exact cleared.trans (prints_settleEmpty ..)

theorem jobs_removeReader : JobsStand s (removeReader c i s) := by
  have cleared : JobsStand s (clearReader c i s) := jobs_mapEntry ..
  rcases removeReader_moves c i s with same | ⟨e, drops⟩ | settles
  · rw [same]
    exact .refl s
  · rw [drops]
    exact cleared.trans (jobs_dropEntry ..)
  · rw [settles]
    exact cleared.trans (jobs_settleEmpty ..)

theorem stand_removeReader : FlagsStand s (removeReader c i s) := by
  have cleared : FlagsStand s (clearReader c i s) := .of_events rfl
  rcases removeReader_moves c i s with same | ⟨e, drops⟩ | settles
  · rw [same]
    exact .refl s
  · rw [drops]
    exact cleared.trans (stand_dropEntry ..)
  · rw [settles]
    exact cleared.trans (stand_settleEmpty ..)

end Reader

/-- A page has no reader of the context once it has been removed. -/
theorem removeReader_unread {c : DecoderCtx} {i : Nat} {s : State} {e : Entry} (h : entryOf i (removeReader c i s) = some e) :
    e.reader c = none := by
  by_cases none : ∀ x, entryOf i s = some x → x.reader c = none
  · rw [removeReader_none none] at h
    exact none e h
  · push Not at none
    obtain ⟨x, hx, read⟩ := none
    obtain ⟨r, hr⟩ := Option.ne_none_iff_exists'.1 read
    obtain ⟨gone, stays⟩ := removeReader_cases hx hr
    by_cases leaves : x.leaves c r
    · exact nomatch h.symm.trans (gone leaves)
    · obtain rfl := Option.some.inj (h.symm.trans (stays leaves).2)
      cases c <;> rfl

/-! ## A PRINT job in ENDING through discards (R86, R155) -/

/-- A PRINT job in ENDING stands, and no print pass begins. -/
structure EndingStands (s t : State) : Prop where
  job  : ∀ j, s.prtJob = some j → j.cycle = .ending → t.prtJob = some j
  pass : s.printDec = none → t.printDec = none

theorem EndingStands.refl (s : State) : EndingStands s s := ⟨fun _ h _ => h, id⟩

theorem EndingStands.trans {s t u : State} (h : EndingStands s t) (k : EndingStands t u) : EndingStands s u :=
  ⟨fun j hj ending => k.job j (h.job j hj ending) ending, fun none => k.pass (h.pass none)⟩

theorem EndingStands.ite {s t u : State} {p : Prop} [Decidable p] (h : EndingStands s t) (k : EndingStands s u) :
    EndingStands s (if p then t else u) := by
  split
  · exact h
  · exact k

theorem PrintStands.ending {s t : State} (h : PrintStands s t) : EndingStands s t :=
  ⟨fun _ hj _ => h.job.trans hj, h.pass⟩

theorem ending_printPageGone (s : State) : EndingStands s (printPageGone s) := by
  refine ⟨fun j hj ending => ?_, fun _ => rfl⟩
  show s.prtJob.map _ = _
  rw [hj, Option.map_some, if_pos ending]

theorem ending_beforeDrop (i : Nat) (r : Bool) (e : Entry) (s : State) : EndingStands s (beforeDrop i r e s) := by
  have unread (u : State) : EndingStands u (clearReader .print i u) := (prints_mapEntry ..).ending
  have idled (c : CoderCtx) (p : Prop) [Decidable p] (u : State) : EndingStands u (if p then idleCoder c u else u) :=
    .ite (prints_idleCoder c u).ending (.refl u)
  unfold beforeDrop
  exact (((EndingStands.ite (ending_printPageGone s) (.refl s)).trans (unread _)).trans (idled .scan _ _)).trans
    (idled .intake _ _)

theorem ending_discardPage (i : Nat) (r : Bool) (s : State) : EndingStands s (discardPage i r s) := by
  cases h : entryOf i s with
  | none =>
    unfold discardPage
    rw [h]
    exact .refl s
  | some e =>
    obtain ⟨cur, dropped⟩ := discardPage_eq (r := r) h
    rw [dropped]
    exact (ending_beforeDrop ..).trans (prints_dropEntry ..).ending

theorem ending_discardWritten (c : CoderCtx) (s : State) : EndingStands s (discardWritten c s) := by
  unfold discardWritten
  split
  · exact .refl s
  · exact ending_discardPage ..

theorem ending_discardWaiting (c : CoderCtx) (s : State) : EndingStands s (discardWaiting c s) := by
  have all (is : List Nat) : ∀ u : State, EndingStands u (is.foldl (fun s i => discardPage i false s) u) := by
    induction is with
    | nil => exact .refl
    | cons i is ih => exact fun u => (ending_discardPage i false u).trans (ih _)
  exact all _ s

theorem ending_applyPolicy (c : CoderCtx) (p : Policy) (s : State) : EndingStands s (applyPolicy c p s) := by
  cases p with
  | discard => exact ending_discardWritten ..
  | truncate => exact (prints_completePage ..).ending

theorem ending_settleScanPages (how : ScanSettle) (p : Policy) (s : State) : EndingStands s (settleScanPages how p s) := by
  have written : EndingStands s (settleWritten how p s) := by
    cases how with
    | policy => exact ending_applyPolicy ..
    | keep => exact (prints_completePage ..).ending
    | drop => exact ending_discardWritten ..
    | leave => exact .refl s
  cases how with
  | leave => exact .refl s
  | policy | keep | drop => exact written.trans (ending_discardWaiting ..)

/-! ## The bytes a completion writes (R62) -/

/-- The DRAM with the header of a context's last block written, where it holds a block and a whole line. -/
def headerLeft (c : Coder) (m : Memory) : Memory :=
  match c.block, c.lastEnd with
  | some _, some (b, fill) => m.writeAll (blockAddr b) false (be16 noBlock ++ be16 fill)
  | _, _ => m

theorem settleChain_writes (i : Nat) (c : Coder) {s : State} (h : s.noAsk) :
    (settleChain i c s).noAsk ∧ (settleChain i c s).dram = headerLeft c s.dram := by
  unfold settleChain headerLeft
  cases c.block with
  | none => exact ⟨h, rfl⟩
  | some cur =>
    cases c.lastEnd with
    | none =>
      have freed := freeCurrent_unasked cur 0
        (s := mapEntry i (fun e => { e with blockCount := e.blockCount - 1, first := noBlock, last := noBlock }) s) h
      exact ⟨freed.quiet, freed.dram⟩
    | some last =>
      obtain ⟨b, f⟩ := last
      dsimp only
      split
      · exact ⟨h, rfl⟩
      · have freed := freeCurrent_unasked cur 0
          (s := mapEntry i (fun e => { e with blockCount := e.blockCount - 1, last := b }) (writeHeader b noBlock f s)) h
        exact ⟨freed.quiet, freed.dram⟩

/-- With no context waiting, a completion writes the last block's header alone. -/
theorem completePage_writes (c : CoderCtx) (t q : Bool) {s : State} (h : s.noAsk) :
    (completePage c t q s).noAsk
      ∧ (completePage c t q s).dram = if (coderOf c s).page = none then s.dram else headerLeft (coderOf c s) s.dram := by
  unfold completePage
  dsimp only
  cases hp : (coderOf c s).page with
  | none => exact ⟨h, rfl⟩
  | some id =>
    have idle := idleCoder_unasked c h
    obtain ⟨quiet, wrote⟩ := settleChain_writes id (coderOf c s) idle.quiet
    dsimp only
    generalize settleChain id (coderOf c s) (idleCoder c s) = u at quiet wrote ⊢
    have noted : (noteCompleted c id t q (markComplete id t u)).noAsk
        ∧ (noteCompleted c id t q (markComplete id t u)).dram = u.dram := by
      cases c <;> cases q <;> exact ⟨quiet, rfl⟩
    have settled := settleEmpty_unasked id noted.1
    rw [idle.dram] at wrote
    exact ⟨settled.quiet, settled.dram.trans (noted.2.trans wrote)⟩

end Sys2Proof.Machine
end

section
/-! What follows at once where no coder context has a job, and the OUTPUT job from its order to its end (R87, R90, R163 to
R166). -/

set_option Elab.async false

namespace Sys2Proof.Machine

/-! ## What follows at once with no SCAN and no INTAKE job -/

/-- No SCAN job, no INTAKE job, and no context waits for room in the directory. -/
structure Unfed (s : State) : Prop where
  scanJob : s.scanJob = none
  intJob  : s.intJob = none
  scanDir : s.scanCd.dirWait = none
  intDir  : s.intakeCd.dirWait = none

/-- Nothing that keeps the pages and leaves the channels and the Scan Ring alone begins such a job or wait. -/
theorem Unfed.kept {s t : State} (h : Unfed s) (calm : Calm s t) (keep : Keep s t) (away : Away s t) : Unfed t := by
  refine ⟨calm.scan h.scanJob, ?_, away.wait h.scanDir, ?_⟩ <;>
    rcases keep.int with ⟨job, wait⟩ | ⟨-, wait, job⟩
  · exact none_of_isNone job h.intJob
  · exact job h.intJob
  · exact wait.elim (·.trans h.intDir) id
  · exact wait

/-- The decoders' passes, the Print Engine and the OUTPUT job, one after another. -/
def decodersRound (s : State) : State := settleOutput (settlePrint (settlePass .output (settlePass .print s)))

theorem Unfed.round {s : State} (h : Unfed s) : Unfed (decodersRound s) :=
  h.kept
    ((((calm_settlePass .print s).trans (calm_settlePass .output _)).trans (calm_settlePrint _)).trans (calm_settleOutput _))
    ((((keep_settlePass .print s).trans (keep_settlePass .output _)).trans (keep_settlePrint _)).trans (keep_settleOutput _))
    ((((away_settlePass .print s).trans (away_settlePass .output _)).trans (away_settlePrint _)).trans (away_settleOutput _))

/-- A round over the jobs where no SCAN job restarts, no wait ends, and the INTAKE job, if there was one, has closed. -/
theorem settleJobs_closed {s : State} (scanJob : s.scanJob = none) (waits : zeroWaits s = s) (h : Unfed (settleIntake s)) :
    settleJobs s = decodersRound (settleIntake s) := by
  have restart : settleScanRestart s = s := by simp [settleScanRestart, scanJob]
  unfold settleJobs
  rw [restart, waits]
  exact settleRoom_free h.round.scanDir h.round.intDir

theorem Unfed.settleJobs {s : State} (h : Unfed s) : settleJobs s = decodersRound s := by
  have intake : settleIntake s = s := by simp [settleIntake, h.intJob]
  have waits : zeroWaits s = s := zeroWaits_free (.inr h.scanJob) h.scanDir (.inr (.inr h.intJob)) h.intDir
  have closed := settleJobs_closed h.scanJob waits (intake.symm ▸ h)
  rwa [intake] at closed

/-- What follows two rounds that leave neither a SCAN nor an INTAKE job. -/
theorem settle_rounds {s t : State} (jobs : settleJobs (settleJobs s) = t) (h : Unfed t) :
    settle s = arbitrate (updateIdle (applyMotorTables t)) := by
  have restart : settleScanRestart t = t := by simp [settleScanRestart, h.scanJob]
  have ends : settleScanEnd t = t := by simp [settleScanEnd, h.scanJob]
  simp only [settle, jobs, restart, ends]

theorem Unfed.settle {s : State} (h : Unfed s) :
    settle s = arbitrate (updateIdle (applyMotorTables (decodersRound (decodersRound s)))) :=
  settle_rounds (by rw [h.settleJobs, h.round.settleJobs]) h.round.round

theorem prints_settlePass_output (s : State) : PrintStands s (settlePass .output s) := by
  unfold settlePass
  split
  · exact .refl s
  · exact .ite ⟨rfl, rfl, id⟩ (.refl s)

theorem prints_settleOutput (s : State) : PrintStands s (settleOutput s) := by
  unfold settleOutput
  split
  · exact .refl s
  · next j _ =>
    have freed : PrintStands s { s with outJob := none } := ⟨rfl, rfl, id⟩
    exact .ite ((freed.trans (prints_removeReader .output j.page _)).trans (prints_raise ..)) (.refl s)

/-- With no PRINT job and no print pass, the OUTPUT job has the round alone. -/
theorem decodersRound_output {s : State} (job : s.prtJob = none) (pass : s.printDec = none) :
    decodersRound s = settleOutput (settlePass .output s) := by
  have stands := prints_settlePass_output s
  unfold decodersRound
  rw [settlePass_none (c := .print) pass, settlePrint_none (stands.job.trans job) (stands.pass pass)]

/-! ## The OUTPUT job taken and stopped (R87, R163, R166) -/

theorem exec_output {page consume : Byte} {s : State} (ho : portOpen s) :
    exec (.output page consume) s =
      .next (replied 0x05 (orderOutput [page, consume] s).2 (orderOutput [page, consume] s).1) :=
  writeOrder_done ho rfl rfl rfl

/-- A COMPLETE page with no reader takes an output reader, consuming or not. -/
theorem orderOutput_admits {page : Byte} {consume : Bool} {s : State} {e : Entry} (job : s.outJob = none)
    (he : entryOf page.toNat s = some e) (complete : e.state = .complete) (print : e.printRd = none) (out : e.outRd = none) :
    orderOutput [page, if consume then 1 else 0] s =
      (admitReader .output e consume
        { s with outJob := some { state := .opened, page := e.id, consume := consume, reason := 0 } },
        .filled .ok ([page, if consume then 1 else 0, BitVec.ofNat 8 e.res.code] ++ be16 e.stored)) := by
  have admitted : outputPageRefusal e consume = none := by
    cases consume <;> simp [outputPageRefusal, complete, print, out, Entry.hasReader]
  have page0 : entryOf (byteAt [page, if consume then 1 else 0] 0) s = some e := he
  have flag : flagOf? (byteAt [page, if consume then 1 else 0] 1) = some consume := by cases consume <;> rfl
  unfold orderOutput
  rw [flag]
  dsimp only
  rw [job, page0]
  dsimp only
  rw [admitted]
  rfl

theorem exec_stopOutput {keep : Bool} {s : State} (ho : portOpen s) :
    exec (.stopOutput (if keep then 1 else 0)) s =
      .next (replied 0x08 (orderStopOutput [3, if keep then 1 else 0] s).2 (orderStopOutput [3, if keep then 1 else 0] s).1) :=
  writeOrder_done ho rfl rfl (by cases keep <;> rfl)

theorem orderStopOutput_open {a : List Byte} {s : State} {j : OutputJob} (hj : s.outJob = some j) (opened : j.state = .opened) :
    orderStopOutput a s =
      (emptyOutputRing (idleDecoder .output { s with outJob := some { j with state := .closing, reason := 1 } }),
        .filled .ok a) := by
  unfold orderStopOutput
  rw [hj]
  dsimp only
  rw [if_neg (by rw [opened]; nofun)]

/-! ## The OUTPUT job's end (R90, R164) -/

theorem settleOutput_waits {s : State} (h : s.outDec ≠ none ∨ 0 < s.rings.output.occ) : settleOutput s = s := by
  unfold settleOutput
  split
  · rfl
  · refine if_neg fun ended => h.elim (· (Option.isNone_iff_eq_none.1 ended.1)) fun full => ?_
    exact absurd ended.2 (Nat.ne_of_gt full)

theorem settleOutput_ends {s : State} {j : OutputJob} (hj : s.outJob = some j) (pass : s.outDec = none)
    (empty : s.rings.output.occ = 0) :
    settleOutput s = raise evOutputEnd j.page 0 j.reason (removeReader .output j.page { s with outJob := none }) := by
  unfold settleOutput
  rw [hj]
  dsimp only
  rw [if_pos ⟨by rw [pass]; rfl, empty⟩]

theorem settleOutput_none {s : State} (h : s.outJob = none) : settleOutput s = s := by
  unfold settleOutput
  rw [h]

/-- When a page goes as its output reader leaves it (R90). -/
theorem leaves_output (e : Entry) (r : Reader) : e.leaves .output r ↔
    (e.state = .erasing ∧ e.printRd = none) ∨ (r.consume = true ∧ e.state = .complete ∧ r.linePos = e.lineCount)
      ∨ (e.state = .complete ∧ e.headLine = e.lineCount ∧ e.printRd = none) := by
  simp [Entry.leaves, Entry.readAlone]

/-- Once a round has left the OUTPUT job, or ended it, the next changes nothing. -/
theorem settleOutput_settled (s : State) :
    settleOutput (settlePass .output (settleOutput (settlePass .output s))) = settleOutput (settlePass .output s) := by
  have again (u : State) (h : settlePass .output u = u) :
      settleOutput (settlePass .output (settleOutput u)) = settleOutput u := by
    by_cases pass : u.outDec = none
    · have shell : (settleOutput u).outDec = none := by
        unfold settleOutput
        split
        · exact pass
        · split
          · exact (shell_removeReader ..).outDec.trans pass
          · exact pass
      rw [settlePass_none (c := .output) shell]
      cases hj : u.outJob with
      | none => rw [settleOutput_none hj, settleOutput_none hj]
      | some j =>
        by_cases empty : u.rings.output.occ = 0
        · refine settleOutput_none ?_
          rw [settleOutput_ends hj pass empty]
          exact (shell_removeReader ..).outJob
        · have waits := settleOutput_waits (.inr (Nat.pos_of_ne_zero empty))
          rw [waits, waits]
    · rw [settleOutput_waits (.inl pass), h, settleOutput_waits (.inl pass)]
  refine again _ ?_
  cases hp : s.outDec with
  | none => rw [settlePass_none (c := .output) hp, settlePass_none (c := .output) hp]
  | some p =>
    rw [settlePass_output hp]
    split
    · exact settlePass_none (c := .output) rfl
    · next going => rw [settlePass_output hp, if_neg going]

/-- Settles O37: the order and its STOP by their owner's checks, the pass and the job's end by what is left of them. -/
theorem outputStartsStopsAndEnds : Obligations.OutputStartsStopsAndEnds := by
  refine ⟨fun page consume s e ho job he complete print out => ?_, fun keep s j ho hj opened => ?_, fun s p hp => ?_,
    fun s j hj => ⟨settleOutput_waits, fun pass empty => ?_⟩, fun s scanJob intJob prtJob printDec scanDir intDir => ?_⟩
  · rw [exec_output ho, orderOutput_admits job he complete print out]
    rfl
  · rw [exec_stopOutput ho, orderStopOutput_open hj opened]
    refine ⟨_, rfl, rfl, rfl, ?_, rfl, rfl, rfl, rfl⟩
    exact apply_ite Ring.occ ..
  · rw [settlePass_output hp]
    exact ⟨fun ended => (idleOutput_eq s).imp fun g idle => (if_pos ((passOver_iff p s).2 ended)).trans idle,
      fun going => if_neg (mt (passOver_iff p s).1 going)⟩
  · intro t
    have ends : t = _ := settleOutput_ends hj pass empty
    have shell := shell_removeReader .output j.page { s with outJob := none }
    have prints := prints_removeReader .output j.page { s with outJob := none }
    have flag : (removeReader .output j.page { s with outJob := none }).events.flags[evOutputEnd] = s.events.flags[evOutputEnd] :=
      (stand_removeReader .output j.page { s with outJob := none }).flag _ (by decide) (by decide) (by decide)
    rw [ends]
    refine ⟨shell.outJob, shell.outDec.trans pass, prints.rings, shell.beside, shell.port, shell.motS, shell.motP, raise_set ..,
      fun clear => raise_snapshot (flag ▸ clear) .., fun e r he hr => ?_,
      fun quiet => (removeReader_unasked .output j.page (s := { s with outJob := none }) quiet).dram⟩
    obtain ⟨gone, stays⟩ := removeReader_cases (c := .output) (s := { s with outJob := none }) he hr
    refine ⟨fun g => gone ((leaves_output e r).2 g), fun still => ?_⟩
    obtain ⟨clears, unread⟩ := stays (mt (leaves_output e r).1 still)
    have pmc := congrArg State.pmc clears
    have dram := congrArg State.dram clears
    exact ⟨unread, congrArg Pmc.count pmc, dram⟩
  · have unfed : Unfed s := ⟨scanJob, intJob, scanDir, intDir⟩
    have first := decodersRound_output prtJob printDec
    have stands := (prints_settlePass_output s).trans (prints_settleOutput _)
    rw [← first] at stands
    rw [unfed.settle, decodersRound_output (stands.job.trans prtJob) (stands.pass printDec), first, settleOutput_settled]

end Sys2Proof.Machine
end

section
/-! The INTAKE job from its order to its end (R80, R157 to R162). -/

set_option Elab.async false

namespace Sys2Proof.Machine

/-! ## INTAKE and INTAKE_END (R80, R157, R159) -/

theorem exec_intake {res policy : Byte} {s : State} (ho : portOpen s) :
    exec (.intake res policy) s =
      .next (replied 0x03 (orderIntake [res, policy] s).2 (orderIntake [res, policy] s).1) :=
  writeOrder_done ho rfl rfl rfl

/-- With no INTAKE job and room for an entry, the order opens the job and its page. -/
theorem orderIntake_opens {res : Resolution} {policy : Policy} {s : State} (job : s.intJob = none)
    (room : s.dir.entries.length + s.dir.places < 32) :
    orderIntake [BitVec.ofNat 8 res.code, BitVec.ofNat 8 policy.code] s =
      ({ clearIntakeLine (mapCoder .intake (fun c => { c with page := some (newId s) }) (createEntry .intake res .intake s)) with
          intJob := some { state := .opened, res := res, policy := policy, lastCompleted := 0 } },
        .filled .ok [BitVec.ofNat 8 res.code, BitVec.ofNat 8 policy.code, BitVec.ofNat 8 (newId s)]) := by
  have known : Resolution.ofCode? (byteAt [BitVec.ofNat 8 res.code, BitVec.ofNat 8 policy.code] 0) = some res := by
    cases res <;> rfl
  have named : Policy.ofCode? (byteAt [BitVec.ofNat 8 res.code, BitVec.ofNat 8 policy.code] 1) = some policy := by
    cases policy <;> rfl
  have free : hasRoom s = true := decide_eq_true room
  unfold orderIntake
  rw [known, named]
  dsimp only
  rw [job, free]
  rfl

theorem exec_intakeEnd {s : State} (ho : portOpen s) :
    exec .intakeEnd s = .next (replied 0x04 (orderIntakeEnd s).2 (orderIntakeEnd s).1) :=
  writeOrder_done ho rfl rfl rfl

theorem orderIntakeEnd_job {s : State} {j : IntakeJob} (hj : s.intJob = some j) :
    orderIntakeEnd s =
      if j.state = .opened then ({ s with intJob := some { j with state := .closing } }, .filled .ok [])
      else (s, .filled .state []) := by
  unfold orderIntakeEnd intakeOpen mapIntJob
  rw [hj]
  simp only [decide_eq_true_eq, Option.map_some]

/-! ## The job's end (R162) -/

/-- A completion by one coder context leaves the other's job. -/
theorem completePage_otherJob (c : CoderCtx) (t q : Bool) (s : State) :
    match c with
    | .scan => (completePage c t q s).intJob = s.intJob
    | .intake => (completePage c t q s).scanJob = s.scanJob := by
  unfold completePage
  dsimp only
  cases (coderOf c s).page with
  | none => cases c <;> rfl
  | some id =>
    have before := ((jobs_idleCoder c s).trans (jobs_settleChain id (coderOf c s) _)).trans
      (u := markComplete id t (settleChain id (coderOf c s) (idleCoder c s))) ⟨rfl, rfl⟩
    cases c with
    | scan =>
      refine (jobs_settleEmpty ..).intake.trans (Eq.trans ?_ before.intake)
      cases q <;> rfl
    | intake => exact (jobs_settleEmpty ..).scan.trans before.scan

/-- The state as an INTAKE job's end leaves it. -/
theorem endIntake_record {u : State} {k : IntakeJob} (hk : u.intJob = some k) (reason : Nat) :
    ∃ g, endIntake reason u =
      { u with
        rings := { u.rings with intake := u.rings.intake.emptied, intakeFull := false }, intakeCd := Coder.reset,
        port := { u.port with intakeLineNo := 0, prevIntake := none }, intJob := none, pmc := { u.pmc with grant := g },
        events := u.events.raise evIntakeEnd k.lastCompleted 0 reason } := by
  obtain ⟨g, idle⟩ := idleIntake_eq (emptyIntakeRing u)
  rw [endIntake_eq hk]
  unfold intakeClosed
  rw [idle]
  exact ⟨g, rfl⟩

/-- What the end of an INTAKE job leaves beside its flag: its ring, its context and the intake line cleared, and nothing of
the rest touched. -/
def IntakeLeft (s t : State) : Prop :=
  t.intJob = none ∧ t.rings.intake.occ = 0 ∧ t.rings.intakeFull = false ∧ t.intakeCd = Coder.reset
    ∧ t.port.intakeLineNo = 0 ∧ t.port.prevIntake = none ∧ t.port.replies = s.port.replies ∧ t.besideJobs s
    ∧ t.motS = s.motS ∧ t.motP = s.motP ∧ t.scanJob = s.scanJob ∧ t.outJob = s.outJob ∧ t.outDec = s.outDec

theorem endIntake_left {s u : State} {k : IntakeJob} (hk : u.intJob = some k) (shell : Shell s u)
    (scan : u.scanJob = s.scanJob) (reason : Nat) : IntakeLeft s (endIntake reason u) := by
  obtain ⟨g, ends⟩ := endIntake_record hk reason
  have replies := congrArg Port.replies shell.port
  rw [ends]
  exact ⟨rfl, rfl, rfl, rfl, rfl, rfl, replies, shell.beside, shell.motS, shell.motP, scan, shell.outJob, shell.outDec⟩

theorem endIntake_dram {s : State} {k : IntakeJob} (hk : s.intJob = some k) (reason : Nat) :
    (endIntake reason s).dram = s.dram := by
  rw [endIntake_eq hk]
  rfl

/-! ## STOP (R161) -/

theorem exec_stopIntake {keep : Bool} {s : State} (ho : portOpen s) :
    exec (.stopIntake (if keep then 1 else 0)) s =
      .next (replied 0x08 (orderStopIntake keep [1, if keep then 1 else 0] s).2
        (orderStopIntake keep [1, if keep then 1 else 0] s).1) :=
  writeOrder_done ho rfl rfl (by cases keep <;> rfl)

/-- Keep-partial does what the policy truncate does, and its absence what the policy discard does. -/
def keepPolicy (keep : Bool) : Policy := if keep then .truncate else .discard

theorem orderStopIntake_ends {keep : Bool} {a : List Byte} {s : State} {j : IntakeJob} (hj : s.intJob = some j) :
    orderStopIntake keep a s = (endIntake 1 (applyPolicy .intake (keepPolicy keep) (endDirwait .intake s)), .filled .ok a) := by
  unfold orderStopIntake
  rw [hj]
  cases keep <;> rfl

theorem applyPolicy_scanStands (p : Policy) (s : State) : (applyPolicy .intake p s).scanJob = s.scanJob := by
  cases p with
  | discard => exact (jobs_discardWritten ..).scan
  | truncate => exact completePage_otherJob .intake ..

/-- With no context waiting, the policy writes the header of a completed page's last block, and nothing for a discard. -/
theorem applyPolicy_writes (c : CoderCtx) (p : Policy) {s : State} (h : s.noAsk) :
    (applyPolicy c p s).noAsk ∧ (applyPolicy c p s).dram =
      if p = .discard ∨ (coderOf c s).page = none then s.dram else headerLeft (coderOf c s) s.dram := by
  cases p with
  | discard =>
    have discards := discardWritten_unasked c h
    exact ⟨discards.quiet, discards.dram⟩
  | truncate =>
    obtain ⟨quiet, writes⟩ := completePage_writes c true false h
    exact ⟨quiet, writes.trans (by simp)⟩

/-- The bytes a STOP writes, by keep-partial and what its context holds. -/
theorem keepPolicy_writes (keep : Bool) (c : Coder) (m : Memory) :
    (if keepPolicy keep = .discard ∨ c.page = none then m else headerLeft c m) =
      match keep, c.page, c.block, c.lastEnd with
      | true, some _, some _, some (b, fill) => m.writeAll (blockAddr b) false (be16 noBlock ++ be16 fill)
      | _, _, _, _ => m := by
  unfold headerLeft
  cases keep with
  | false => rfl
  | true =>
    cases c.page with
    | none => rfl
    | some id => cases c.block <;> cases c.lastEnd <;> rfl

/-- The last completed page after a STOP. -/
theorem keepPolicy_page (keep : Bool) (page : Option Nat) (last : Nat) :
    (if keepPolicy keep = .truncate then page.getD last else last) =
      match keep, page with | true, some id => id | _, _ => last := by
  cases keep <;> cases page <;> rfl

/-! ## The CLOSING job closes (R159) -/

section Close
variable {s : State} {id : Nat} {e : Entry}

theorem closePage_absent (h : ∀ id e, s.intakeCd.page = some id → entryOf id s ≠ some e) : closePage s = s := by
  unfold closePage
  split
  · rfl
  · next id hp =>
    split
    · rfl
    · next e he => exact absurd he (h id e hp)

theorem closePage_empty (hp : s.intakeCd.page = some id) (he : entryOf id s = some e) (none : e.lineCount = 0) :
    closePage s = discardWritten .intake s := by
  unfold closePage discardWritten
  simp only [coderOf, hp, he, none, if_true]

theorem closePage_lines (hp : s.intakeCd.page = some id) (he : entryOf id s = some e) (lines : e.lineCount ≠ 0) :
    closePage s = completePage .intake false false s := by
  unfold closePage
  simp only [hp, he, lines, if_false]

/-- The page being written is absent, without a line, or with one. -/
theorem closePage_moves (s : State) : closePage s = s ∨ closePage s = discardWritten .intake s
    ∨ closePage s = completePage .intake false false s := by
  by_cases absent : ∀ id e, s.intakeCd.page = some id → entryOf id s ≠ some e
  · exact .inl (closePage_absent absent)
  · push Not at absent
    obtain ⟨id, e, hp, he⟩ := absent
    by_cases none : e.lineCount = 0
    · exact .inr (.inl (closePage_empty hp he none))
    · exact .inr (.inr (closePage_lines hp he none))

theorem shell_closePage (s : State) : Shell s (closePage s) := by
  rcases closePage_moves s with same | drops | keeps
  · rw [same]
    exact .refl s
  · rw [drops]
    exact shell_discardWritten ..
  · rw [keeps]
    exact shell_completePage ..

theorem stand_closePage (s : State) : FlagsStand s (closePage s) := by
  rcases closePage_moves s with same | drops | keeps
  · rw [same]
    exact .refl s
  · rw [drops]
    exact stand_discardWritten ..
  · rw [keeps]
    exact stand_completePage ..

theorem ending_closePage (s : State) : EndingStands s (closePage s) := by
  rcases closePage_moves s with same | drops | keeps
  · rw [same]
    exact .refl s
  · rw [drops]
    exact ending_discardWritten ..
  · rw [keeps]
    exact (prints_completePage ..).ending

theorem closePage_scanJob (s : State) : (closePage s).scanJob = s.scanJob := by
  rcases closePage_moves s with same | drops | keeps
  · rw [same]
  · rw [drops]
    exact (jobs_discardWritten ..).scan
  · rw [keeps]
    exact completePage_otherJob .intake ..

/-- The INTAKE job as its page closes: a completed page is its last completed one. -/
theorem closePage_intJob {j : IntakeJob} (hj : s.intJob = some j) :
    ∃ l, (closePage s).intJob = some { j with lastCompleted := l }
      ∧ ((∀ id e, s.intakeCd.page = some id → entryOf id s = some e → e.lineCount = 0) → l = j.lastCompleted)
      ∧ ∀ id e, s.intakeCd.page = some id → entryOf id s = some e → e.lineCount ≠ 0 → l = id := by
  by_cases lines : ∃ id e, s.intakeCd.page = some id ∧ entryOf id s = some e ∧ e.lineCount ≠ 0
  · obtain ⟨id, e, hp, he, some⟩ := lines
    refine ⟨id, ?_, fun none => absurd (none id e hp he) some, fun i _ hi _ _ => Option.some.inj (hp.symm.trans hi)⟩
    rw [closePage_lines hp he some]
    refine (completePage_jobs (c := .intake) hp).trans ?_
    rw [hj]
    rfl
  · push Not at lines
    refine ⟨j.lastCompleted, ?_, fun _ => rfl, fun id e hp he some => absurd (lines id e hp he) some⟩
    by_cases absent : ∀ id e, s.intakeCd.page = some id → entryOf id s ≠ some e
    · rw [closePage_absent absent]
      exact hj
    · push Not at absent
      obtain ⟨id, e, hp, he⟩ := absent
      rw [closePage_empty hp he (lines id e hp he)]
      exact (jobs_discardWritten ..).intake.trans hj

theorem settleIntake_waits {j : IntakeJob} (hj : s.intJob = some j)
    (h : j.state = .opened ∨ 0 < s.rings.intake.occ ∨ s.intakeCd.st ≠ .idle) : settleIntake s = s := by
  unfold settleIntake
  rw [hj]
  refine if_neg ?_
  rintro ⟨closing, empty, idle⟩
  rcases h with opened | full | busy
  · exact nomatch closing.symm.trans opened
  · exact absurd empty (Nat.ne_of_gt full)
  · exact busy idle

theorem settleIntake_closes {j : IntakeJob} (hj : s.intJob = some j) (closing : j.state = .closing)
    (empty : s.rings.intake.occ = 0) (idle : s.intakeCd.st = .idle) : settleIntake s = endIntake 0 (closePage s) := by
  unfold settleIntake
  rw [hj]
  exact if_pos ⟨closing, empty, idle⟩

end Close

/-- With no PRINT and no OUTPUT job and no pass, the round changes nothing. -/
theorem decodersRound_none {s : State} (prtJob : s.prtJob = none) (printDec : s.printDec = none) (outJob : s.outJob = none)
    (outDec : s.outDec = none) : decodersRound s = s := by
  rw [decodersRound_output prtJob printDec, settlePass_none (c := .output) outDec, settleOutput_none outJob]

/-- A page a context writes, completed by an event of its own (R83, R84). -/
theorem completePage_settled {c : CoderCtx} (t q : Bool) {s : State} {id : Nat} {e : Entry} (hp : (coderOf c s).page = some id)
    (he : entryOf id s = some e) :
    (e.headLine = e.lineCount → e.printRd = none → e.outRd = none → entryOf id (completePage c t q s) = none)
      ∧ ((e.headLine ≠ e.lineCount ∨ e.printRd ≠ none ∨ e.outRd ≠ none) →
          ∃ e', entryOf id (completePage c t q s) = some e' ∧ e'.state = .complete ∧ e'.truncated = t ∧ e'.writer = none
            ∧ e'.lineCount = e.lineCount ∧ e'.headLine = e.headLine) := by
  obtain ⟨gone, stays⟩ := completePage_fate t q hp he
  refine ⟨fun empty print out => gone empty (Bool.eq_false_iff.2 fun read => ?_),
    fun kept => stays (kept.imp_right (hasReader_iff e).2)⟩
  exact ((hasReader_iff e).1 read).elim (· print) (· out)

/-- The INTAKE job's STOP (R161). -/
theorem stopIntake_ends (keep : Bool) {s : State} {j : IntakeJob} (hj : s.intJob = some j) :
    let t := endIntake 1 (applyPolicy .intake (keepPolicy keep) (endDirwait .intake s))
    IntakeLeft s t
      ∧ IntakeEnded (match keep, s.intakeCd.page with | true, some id => id | _, _ => j.lastCompleted) 1 s t
      ∧ (∀ id e, s.intakeCd.page = some id → entryOf id s = some e →
          (keep = false → entryOf id t = none) ∧ (keep = true → CompletedTruncated id e t))
      ∧ (s.noAsk → t.dram =
          match keep, s.intakeCd.page, s.intakeCd.block, s.intakeCd.lastEnd with
          | true, some _, some _, some (b, fill) => s.dram.writeAll (blockAddr b) false (be16 noBlock ++ be16 fill)
          | _, _, _, _ => s.dram) := by
  intro t
  have job := applyPolicy_intJob (p := keepPolicy keep) (s := endDirwait .intake s) hj
  have shell : Shell s (applyPolicy .intake (keepPolicy keep) (endDirwait .intake s)) :=
    (shell_mapCoder ..).trans (shell_applyPolicy ..)
  have flags : FlagsStand s (applyPolicy .intake (keepPolicy keep) (endDirwait .intake s)) :=
    ⟨(stand_applyPolicy .intake (keepPolicy keep) (endDirwait .intake s)).flag⟩
  have entries (id : Nat) : entryOf id t = entryOf id (applyPolicy .intake (keepPolicy keep) (endDirwait .intake s)) :=
    entryOf_of_entries (congrArg _ (endIntake_dir job 1)) id
  refine ⟨endIntake_left job shell (applyPolicy_scanStands ..) 1, ?_, fun id e hp he => ?_, fun quiet => ?_⟩
  · rw [← keepPolicy_page]
    exact endIntake_ended job flags 1
  · obtain ⟨gone, completed⟩ := applyPolicy_fate (p := keepPolicy keep) (s := endDirwait .intake s) (c := .intake) hp he
    exact ⟨fun drop => (entries id).trans (gone (by rw [drop]; rfl)),
      fun kept => (completed (by rw [kept]; rfl)).alike (congrArg _ (entries id))⟩
  · exact ((endIntake_dram job 1).trans (applyPolicy_writes .intake _ (s := endDirwait .intake s) quiet).2).trans
      (keepPolicy_writes keep s.intakeCd s.dram)

/-- Settles O36: the orders by the job's state, STOP as the policy's settlement, the close by the page's lines. -/
theorem intakeOpensEndsAndStops : Obligations.IntakeOpensEndsAndStops := by
  refine ⟨fun res policy s ho job room => ?_, fun keep s j ho hj => ⟨fun opened => ?_, fun closing => ?_, ?_⟩,
    fun s j hj => ⟨settleIntake_waits hj, fun closing empty idle => ?_⟩⟩
  · rw [exec_intake ho, orderIntake_opens job room]
    rfl
  · rw [exec_intakeEnd ho, orderIntakeEnd_job hj, if_pos opened]
  · rw [exec_intakeEnd ho, orderIntakeEnd_job hj, if_neg (by rw [closing]; nofun)]
  · obtain ⟨⟨gone, occ, full, coder, lineNo, prev, replies, beside, motS, motP, scanJob, outJob, outDec⟩,
      ⟨-, -, -, set, flag⟩, fate, writes⟩ := stopIntake_ends keep hj
    refine ⟨_, ?_, gone, occ, full, coder, lineNo, prev, set, replies, beside, motS, motP, scanJob, outJob, outDec, flag, fate,
      writes⟩
    rw [exec_stopIntake ho, orderStopIntake_ends hj]
  · intro t
    have closes : t = endIntake 0 (closePage s) := settleIntake_closes hj closing empty idle
    obtain ⟨l, job, unlined, lined⟩ := closePage_intJob hj
    obtain ⟨gone, occ, full, coder, lineNo, prev, replies, beside, motS, motP, scanJob, outJob, outDec⟩ :=
      endIntake_left job (shell_closePage s) (closePage_scanJob s) 0
    obtain ⟨-, -, -, set, flag⟩ := endIntake_ended job (stand_closePage s) 0
    have entries (id : Nat) : entryOf id t = entryOf id (closePage s) := by
      rw [closes]
      exact entryOf_of_entries (congrArg _ (endIntake_dir job 0)) id
    have dram : t.dram = (closePage s).dram := by
      rw [closes]
      exact endIntake_dram job 0
    rw [← closes] at gone occ full coder lineNo prev replies beside motS motP scanJob outJob outDec set flag
    refine ⟨gone, occ, full, coder, lineNo, prev, replies, beside, motS, motP, outJob, outDec, scanJob, set, fun clear => ?_,
      fun id e hp he => ⟨fun none => ?_, fun lines => ?_⟩, fun noScan noPrint noPass noOut noOutPass scanDir intDir => ?_⟩
    · obtain ⟨page, chan, reason, again⟩ := flag clear
      exact ⟨fun none => page.trans (unlined none), fun id e hp he some => page.trans (lined id e hp he some), chan, reason, again⟩
    · rw [entries, dram, closePage_empty hp he none]
      have gone := (applyPolicy_fate (c := .intake) (p := .discard) hp he).1 rfl
      exact ⟨gone, fun quiet => (discardWritten_unasked .intake quiet).dram⟩
    · rw [entries, dram, closePage_lines hp he lines]
      obtain ⟨removed, stays⟩ := completePage_settled (c := .intake) false false hp he
      refine ⟨removed, stays, fun b blk fill block last quiet => ?_⟩
      rw [(completePage_writes .intake false false quiet).2]
      simp [coderOf, hp, headerLeft, block, last]
    · have waits : zeroWaits s = s :=
        zeroWaits_free (.inr noScan) scanDir (.inr (.inl (by rw [idle]; nofun))) intDir
      have unfed : Unfed t := ⟨scanJob.trans noScan, gone, (away_settleIntake s).wait scanDir, by rw [coder]; rfl⟩
      have still : decodersRound t = t := by
        refine decodersRound_none ((calm_settleIntake s).prt noPrint) ?_ (outJob.trans noOut) (outDec.trans noOutPass)
        obtain ⟨g, ends⟩ := endIntake_record job 0
        have pass := (ending_closePage s).pass noPass
        rw [closes, ends]
        exact pass
      exact settle_rounds (by rw [settleJobs_closed noScan waits unfed, still, unfed.settleJobs, still]) unfed

end Sys2Proof.Machine
end

section
/-! STOP of the SCAN job (R122, R132). -/

set_option Elab.async false

namespace Sys2Proof.Machine

theorem exec_stopScan {keep : Bool} {s : State} (ho : portOpen s) :
    exec (.stopScan (if keep then 1 else 0)) s =
      .next (replied 0x08 (orderStopScan keep [0, if keep then 1 else 0] s).2
        (orderStopScan keep [0, if keep then 1 else 0] s).1) :=
  writeOrder_done ho rfl rfl (by cases keep <;> rfl)

/-- What an ending decision does once the pages are settled. -/
def quitScan (s : State) : State :=
  mapMotor .S (fun m => m.stop 0) (emptyScanRing (endDirwait .scan (releasePlace s)))

theorem scanDecision_quits {how : ScanSettle} (hw : how ≠ .leave) (reason : Nat) (held : Option Nat) {s : State} {j : ScanJob}
    (hj : s.scanJob = some j) :
    scanDecision reason how held s =
      quitScan (settleScanPages how j.policy
        { s with scanJob := some (j.decided reason (held.map fun r => (r, s.scanCd.page.getD 0))) }) := by
  unfold scanDecision
  rw [hj]
  dsimp only
  rw [if_neg hw, if_neg hw]
  rfl

/-- The pages of a scan as its STOP settles them, the job decided. -/
def stopSettled (keep : Bool) (j : ScanJob) (s : State) : State :=
  discardWaiting .scan (applyPolicy .scan (keepPolicy keep) { s with scanJob := some (j.decided 2 none) })

theorem orderStopScan_decides {keep : Bool} {a : List Byte} {s : State} {j : ScanJob} (cal : s.front.cal = none)
    (hj : s.scanJob = some j) (going : j.phase ≠ .ending) :
    orderStopScan keep a s = (quitScan (stopSettled keep j s), .filled .ok a) := by
  unfold orderStopScan
  rw [cal, hj]
  dsimp only
  rw [if_neg going, scanDecision_quits (by cases keep <;> nofun) 2 none hj]
  cases keep <;> rfl

section Settled
variable (keep : Bool) (j : ScanJob) (s : State)

theorem shell_stopSettled : Shell s (stopSettled keep j s) :=
  let decided : State := { s with scanJob := some (j.decided 2 none) }
  have begun : Shell s decided := by constructor <;> rfl
  begun.trans ((shell_applyPolicy .scan (keepPolicy keep) decided).trans (shell_discardWaiting ..))

theorem stopSettled_intJob : (stopSettled keep j s).intJob = s.intJob := by
  refine (jobs_discardWaiting ..).intake.trans ?_
  cases keep with
  | false => exact (jobs_discardWritten ..).intake
  | true => exact completePage_otherJob .scan ..

theorem stopSettled_scanJob :
    ∃ l, (stopSettled keep j s).scanJob = some { j.decided 2 none with lastCompleted := l }
      ∧ (keep = true → ∀ id, s.scanCd.page = some id → l = id) := by
  obtain ⟨l, kept, last⟩ := applyPolicy_scanJob (p := keepPolicy keep) (j := j.decided 2 none)
    (s := { s with scanJob := some (j.decided 2 none) }) rfl
  exact ⟨l, (jobs_discardWaiting ..).scan.trans kept, fun kept => last (by rw [kept]; rfl)⟩

theorem stopSettled_noneFilling :
    ∀ e ∈ (stopSettled keep j s).dir.entries, e.state = .filling → e.writer ≠ some .scan :=
  discardWaiting_noneFilling (applyPolicy_writesNone _ _ _)

/-- The page being written goes without keep-partial, and is completed truncated with it. -/
theorem stopSettled_fate {id : Nat} {e : Entry} (hp : s.scanCd.page = some id) (he : entryOf id s = some e) :
    (keep = false → entryOf id (stopSettled keep j s) = none)
      ∧ (keep = true → CompletedTruncated id e (stopSettled keep j s)) := by
  obtain ⟨gone, completed⟩ := applyPolicy_fate (c := .scan) (p := keepPolicy keep)
    (s := { s with scanJob := some (j.decided 2 none) }) hp he
  refine ⟨fun drop => discardWaiting_gone (gone (by rw [drop]; rfl)), ?_⟩
  rintro rfl
  exact (completed rfl).discardWaiting (allComplete_completePage (c := .scan) hp)

/-- With no context waiting, the STOP writes the header of the kept page's last block (R62). -/
theorem stopSettled_dram (quiet : s.noAsk) :
    (stopSettled keep j s).dram =
      match keep, s.scanCd.page, s.scanCd.block, s.scanCd.lastEnd with
      | true, some _, some _, some (b, fill) => s.dram.writeAll (blockAddr b) false (be16 noBlock ++ be16 fill)
      | _, _, _, _ => s.dram := by
  obtain ⟨still, writes⟩ := applyPolicy_writes .scan (keepPolicy keep)
    (s := { s with scanJob := some (j.decided 2 none) }) quiet
  exact ((discardWaiting_unasked .scan still).dram.trans writes).trans (keepPolicy_writes keep s.scanCd s.dram)

end Settled

/-- Settles O20: the pages settled by keep-partial, then the decision's own moves, which leave them. -/
theorem stopScanTakesEndingDecision : Obligations.StopScanTakesEndingDecision := by
  intro keep s j ho cal hj going
  have stops := exec_stopScan (keep := keep) ho
  rw [orderStopScan_decides cal hj going] at stops
  obtain ⟨l, job, last⟩ := stopSettled_scanJob keep j s
  have shell := shell_stopSettled keep j s
  have intJob := stopSettled_intJob keep j s
  have noneFilling := stopSettled_noneFilling keep j s
  have fate {id e} := stopSettled_fate keep j s (id := id) (e := e)
  have dram := stopSettled_dram keep j s
  generalize stopSettled keep j s = v at *
  refine ⟨quitScan v, _, stops, job, rfl, rfl, rfl, rfl, rfl, rfl, rfl, rfl, rfl, shell.beside, shell.port,
    congrArg (Motor.stop · 0) shell.motS, shell.motP, intJob, shell.outJob, shell.outDec, noneFilling, fun id e hp he => ?_,
    dram⟩
  obtain ⟨gone, completed⟩ := fate hp he
  exact ⟨gone, fun kept => ⟨last kept id hp, completed kept⟩⟩

end Sys2Proof.Machine
end

section
/-! The directory and the jobs in the PFAIL sequence (R95, R176). -/

set_option Elab.async false

namespace Sys2Proof.Machine

/-! ## An entry settled, on the items that do not follow its blocks -/

/-- The directory's entries but for the items that follow their blocks. -/
def kernels (s : State) : List Entry := s.dir.entries.map Entry.kern

theorem kernels_mapEntry (i : Nat) {f : Entry → Entry} (hf : ∀ e, (f e).kern = f e.kern) (s : State) :
    kernels (mapEntry i f s) = (kernels s).map fun e => if e.id = i then f e else e := by
  unfold kernels mapEntry mapDir
  simp only [List.map_map]
  refine List.map_congr_left fun e _ => ?_
  by_cases own : e.id = i
  · have kept : e.kern.id = i := own
    simp [own, kept, hf]
  · have kept : e.kern.id ≠ i := own
    simp [own, kept]

theorem kern_hasReader (e : Entry) : e.kern.hasReader = e.hasReader := by
  unfold Entry.hasReader Entry.kern
  simp

theorem Kin.mapEntry {s t : State} (h : Kin s t) (i : Nat) {f : Entry → Entry} (hf : ∀ e, (f e).kern = f e.kern) :
    Kin (Machine.mapEntry i f s) (Machine.mapEntry i f t) := by
  have same : kernels t = kernels s := h
  exact (kernels_mapEntry i hf t).trans ((congrArg _ same).trans (kernels_mapEntry i hf s).symm)

theorem Kin.markComplete {s t : State} (h : Kin s t) (i : Nat) (q : Bool) :
    Kin (Machine.markComplete i q s) (Machine.markComplete i q t) := h.mapEntry i fun _ => rfl

theorem Kin.settleEmpty {s t : State} (h : Kin s t) (i : Nat) : Kin (Machine.settleEmpty i s) (Machine.settleEmpty i t) := by
  have alike := h.entryOf i
  unfold Machine.settleEmpty
  cases hs : Machine.entryOf i s with
  | none =>
    rw [hs] at alike
    rw [Option.map_eq_none_iff.1 alike]
    exact h
  | some a =>
    obtain ⟨b, hb, same⟩ := h.some hs
    obtain ⟨ids, states, lines, head, -, -, readers, -⟩ := kern_items same
    rw [hb]
    dsimp only
    rw [states, lines, head, readers]
    split
    · unfold Kin at h ⊢
      rw [entries_dropEntry, entries_dropEntry, h, ids]
    · exact h

/-- An entry as the sequence completes it. -/
def Entry.cutShort (e : Entry) : Entry := { e with state := .complete, writer := none, truncated := true }

theorem kernels_cutShort (i : Nat) (s : State) :
    kernels (markComplete i true s) = (kernels s).map fun e => if e.id = i then e.cutShort else e :=
  kernels_mapEntry i (f := Entry.cutShort) (fun _ => rfl) s

/-- A page a context writes is settled as the sequence settles one that no context writes. -/
theorem kin_completePage {c : CoderCtx} {s : State} {id : Nat} (hp : (coderOf c s).page = some id) :
    Kin (settleEmpty id (markComplete id true s)) (completePage c true true s) := by
  have stopped := (kin_idleCoder c s).trans (kin_settleChain id (coderOf c s) (idleCoder c s))
  unfold completePage
  simp only [hp]
  exact ((stopped.markComplete id true).trans (kin_noteCompleted c id true true _)).settleEmpty id

theorem kin_completeAtPfail (id : Nat) (s : State) :
    Kin (settleEmpty id (markComplete id true s)) (completeAtPfail s id) := by
  unfold completeAtPfail
  split
  · next scan => exact kin_completePage (c := .scan) scan
  · split
    · next intake => exact kin_completePage (c := .intake) intake
    · exact .refl _

theorem completeAtPfail_noAsk (id : Nat) {s : State} (h : s.noAsk) : (completeAtPfail s id).noAsk := by
  unfold completeAtPfail
  split
  · exact (completePage_writes .scan true true h).1
  · split
    · exact (completePage_writes .intake true true h).1
    · exact (settleEmpty_unasked id (s := markComplete id true s) h).quiet

theorem shell_completeAtPfail (s : State) (id : Nat) : Shell s (completeAtPfail s id) := by
  unfold completeAtPfail
  split
  · exact shell_completePage ..
  · split
    · exact shell_completePage ..
    · have marked : Shell s (markComplete id true s) := by constructor <;> rfl
      exact marked.trans (shell_settleEmpty ..)

theorem beside_completeAtPfail (s : State) (id : Nat) : Beside s (completeAtPfail s id) := by
  unfold completeAtPfail
  split
  · exact beside_completePage ..
  · split
    · exact beside_completePage ..
    · exact (beside_markComplete ..).trans (beside_settleEmpty ..)

theorem shell_fold {f : State → Nat → State} (hf : ∀ s i, Shell s (f s i)) (is : List Nat) :
    ∀ s : State, Shell s (is.foldl f s) := by
  induction is with
  | nil => exact .refl
  | cons i is ih => exact fun s => (hf s i).trans (ih _)

/-! ## No page stays FILLING -/

theorem kernels_settleEmpty_subset (i : Nat) (s : State) : kernels (settleEmpty i s) ⊆ kernels s := by
  unfold settleEmpty
  split
  · exact List.Subset.refl _
  · split
    · unfold kernels
      rw [entries_dropEntry]
      exact List.filter_subset_self ..
    · exact List.Subset.refl _

/-- A page the sequence leaves FILLING was so before, and is not the one it completed. -/
theorem completeAtPfail_filling {id : Nat} {s : State} {k : Entry} (hk : k ∈ kernels (completeAtPfail s id))
    (filling : k.state = .filling) : k ∈ kernels s ∧ k.id ≠ id := by
  have marked : k ∈ kernels (markComplete id true s) := by
    refine kernels_settleEmpty_subset id _ ?_
    rw [show kernels (completeAtPfail s id) = kernels _ from kin_completeAtPfail id s] at hk
    exact hk
  rw [kernels_cutShort] at marked
  obtain ⟨x, hx, rfl⟩ := List.mem_map.1 marked
  by_cases own : x.id = id
  · rw [if_pos own] at filling
    exact nomatch filling
  · rw [if_neg own]
    exact ⟨hx, own⟩

theorem completeAll_filling (is : List Nat) : ∀ {s : State} {k : Entry}, k ∈ kernels (is.foldl completeAtPfail s) →
    k.state = .filling → k ∈ kernels s ∧ k.id ∉ is := by
  induction is with
  | nil => exact fun hk _ => ⟨hk, nofun⟩
  | cons i is ih =>
    intro s k hk filling
    obtain ⟨before, others⟩ := ih hk filling
    obtain ⟨mem, other⟩ := completeAtPfail_filling before filling
    exact ⟨mem, fun own => (List.mem_cons.1 own).elim other others⟩

/-! ## What becomes of each page, the ids differing -/

/-- What a completion by the sequence leaves of an entry: gone where it has no stored line and no reader (R84). -/
def completedAtPfail (i : Nat) (e : Entry) : Option Entry :=
  if e.id = i then
    if e.headLine = e.lineCount ∧ !e.hasReader then none
    else some e.cutShort
  else some e

theorem completedAtPfail_id {i : Nat} {e e' : Entry} (h : completedAtPfail i e = some e') : e'.id = e.id := by
  unfold completedAtPfail at h
  split at h
  · split at h
    · exact absurd h nofun
    · cases h
      rfl
  · cases h
    rfl

theorem completeAtPfail_kernels (i : Nat) {s : State} (distinct : (s.dir.entries.map Entry.id).Nodup) :
    kernels (completeAtPfail s i) = (kernels s).filterMap (completedAtPfail i) := by
  refine Eq.trans (kin_completeAtPfail i s) ?_
  show kernels (settleEmpty i (markComplete i true s)) = _
  cases he : entryOf i s with
  | none =>
    have other {x : Entry} (hx : x ∈ kernels s) : x.id ≠ i := by
      obtain ⟨y, hy, rfl⟩ := List.mem_map.1 hx
      exact of_decide_eq_false (Bool.eq_false_iff.2 (List.find?_eq_none.1 he y hy))
    have unmarked : kernels (markComplete i true s) = kernels s := by
      rw [kernels_cutShort]
      exact (List.map_congr_left fun x hx => if_neg (other hx)).trans (List.map_id _)
    have absent : entryOf i (markComplete i true s) = none := by
      have alike := Kin.entryOf (s := s) (t := markComplete i true s) unmarked i
      rw [he] at alike
      exact Option.map_eq_none_iff.1 alike
    unfold settleEmpty
    rw [absent]
    refine unmarked.trans ((List.filterMap_congr fun x hx => ?_).trans List.filterMap_some).symm
    exact if_neg (other hx)
  | some e =>
    obtain ⟨mem, own⟩ := entryOf_mem he
    have only {x : Entry} (hx : x ∈ kernels s) (hi : x.id = i) : x = e.kern := by
      obtain ⟨y, hy, rfl⟩ := List.mem_map.1 hx
      exact congrArg _ (unique_id distinct hy mem (Eq.trans hi own.symm))
    have held : entryOf i (markComplete i true s) = some e.cutShort :=
      entryOf_mapEntry (f := Entry.cutShort) (fun _ => rfl) he
    have settles (x : Entry) (hx : x ∈ kernels s) : completedAtPfail i x =
        if x.id = i then if e.headLine = e.lineCount ∧ !e.hasReader then none else some x.cutShort else some x := by
      by_cases hi : x.id = i
      · obtain rfl := only hx hi
        unfold completedAtPfail
        rw [kern_hasReader]
        rfl
      · rw [completedAtPfail, if_neg hi, if_neg hi]
    rw [List.filterMap_congr settles]
    unfold settleEmpty
    rw [held]
    dsimp only
    by_cases empty : e.headLine = e.lineCount ∧ !e.hasReader
    · have dropped : e.cutShort.id = i := own
      rw [if_pos ⟨rfl, empty⟩]
      refine (entries_dropEntry ..).trans ?_
      show (kernels (markComplete i true s)).filter _ = _
      rw [kernels_cutShort, dropped, ← List.filterMap_eq_filter, ← List.filterMap_eq_map, List.filterMap_filterMap]
      refine List.filterMap_congr fun x _ => ?_
      by_cases hi : x.id = i
      · simp [hi, empty, Entry.cutShort]
      · simp [hi]
    · rw [if_neg fun h => empty h.2, kernels_cutShort, ← List.filterMap_eq_map]
      refine List.filterMap_congr fun x _ => ?_
      rw [if_neg empty]
      exact apply_ite some ..

/-- The pages of a list without repeats are completed, page after page. -/
theorem completeAll_kernels (is : List Nat) : is.Nodup → ∀ {s : State}, (s.dir.entries.map Entry.id).Nodup →
    kernels (is.foldl completeAtPfail s) =
      (kernels s).filterMap fun e => if e.id ∈ is then completedAtPfail e.id e else some e := by
  induction is with
  | nil =>
    intro _ s _
    simp
  | cons i is ih =>
    intro once s distinct
    obtain ⟨hi, his⟩ := List.nodup_cons.1 once
    have ids := (beside_completeAtPfail s i).ids.nodup distinct
    rw [List.foldl_cons, ih his ids, completeAtPfail_kernels i distinct, List.filterMap_filterMap]
    refine List.filterMap_congr fun e _ => ?_
    by_cases own : e.id = i
    · cases left : completedAtPfail i e with
      | none => simp [own, left]
      | some e' =>
        have kept : e'.id = i := (completedAtPfail_id left).trans own
        simp [own, left, kept, hi]
    · simp [completedAtPfail, own]

/-! ## The pages of the sequence -/

/-- The FILLING pages completed, oldest first. -/
def fillingCompleted (s : State) : State := (fillingIds s).foldl completeAtPfail s

/-- The pages as the sequence leaves them: the FILLING ones completed, then the readers of all gone. -/
def pagesAtPfail (s : State) : State := (pageIds (fillingCompleted s)).foldl dropReaders (fillingCompleted s)

theorem shell_pagesAtPfail (s : State) : Shell s (pagesAtPfail s) := by
  have readers (u : State) (i : Nat) : Shell u (dropReaders u i) := (shell_removeReader ..).trans (shell_removeReader ..)
  exact (shell_fold shell_completeAtPfail _ s).trans (shell_fold readers _ _)

theorem fillingCompleted_unfilled {s : State} {e : Entry} (he : e ∈ (fillingCompleted s).dir.entries) : e.state ≠ .filling := by
  intro filling
  obtain ⟨before, other⟩ := completeAll_filling (fillingIds s) (List.mem_map_of_mem (f := Entry.kern) he) filling
  obtain ⟨x, hx, alike⟩ := List.mem_map.1 before
  obtain ⟨ids, states, -⟩ := kern_items alike
  exact other (ids ▸ List.mem_map_of_mem (List.mem_filter.2 ⟨hx, decide_eq_true (states.trans filling)⟩))

section Pages
variable {s : State} (quiet : s.noAsk)
include quiet

theorem completeAll_noAsk (is : List Nat) : (is.foldl completeAtPfail s).noAsk := by
  induction is generalizing s with
  | nil => exact quiet
  | cons i is ih => exact ih (completeAtPfail_noAsk i quiet)

theorem fillingCompleted_noAsk : (fillingCompleted s).noAsk := completeAll_noAsk quiet _

theorem pagesAtPfail_unfilled {e : Entry} (he : e ∈ (pagesAtPfail s).dir.entries) : e.state ≠ .filling := by
  have readers := prunes_fold (fun _ i k => prunes_dropReaders i k) (pageIds (fillingCompleted s)) _ (fillingCompleted_noAsk quiet)
  obtain ⟨x, hx, same⟩ := readers.states e he
  rw [same]
  exact fillingCompleted_unfilled hx

variable (distinct : (s.dir.entries.map Entry.id).Nodup)
include distinct

omit quiet in
theorem completeAll_ids (is : List Nat) : ((is.foldl completeAtPfail s).dir.entries.map Entry.id).Nodup := by
  induction is generalizing s with
  | nil => exact distinct
  | cons i is ih => exact ih ((beside_completeAtPfail s i).ids.nodup distinct)

/-- The pages that outlast the leaving of their readers stay, with no reader (R90). -/
theorem mem_pagesAtPfail {e : Entry} : e ∈ (pagesAtPfail s).dir.entries ↔
    ∃ x ∈ (fillingCompleted s).dir.entries, x.outlasts = true ∧ e = { x with printRd := none, outRd := none } := by
  have ids := completeAll_ids distinct (fillingIds s)
  have all : (pageIds (fillingCompleted s)).Nodup := ids
  rw [pagesAtPfail, dropAllReaders_entries _ all (fillingCompleted_noAsk quiet) ids fun _ => fillingCompleted_unfilled,
    List.mem_filterMap]
  refine exists_congr fun x => and_congr_right fun hx => ?_
  have listed : x.id ∈ pageIds (fillingCompleted s) := List.mem_map_of_mem hx
  rw [if_pos listed, readersGone, if_pos rfl]
  split
  · next stays => simp [stays, eq_comm]
  · next goes => simp [goes]

omit quiet in
/-- A page that was FILLING, of those left as the readers leave: cut short, with a line or a reader. -/
theorem mem_fillingCompleted {e : Entry} (he : e ∈ s.dir.entries) (filling : e.state = .filling) {k : Entry} (own : k.id = e.id) :
    k ∈ kernels (fillingCompleted s) ↔ ¬ (e.headLine = e.lineCount ∧ !e.hasReader) ∧ k = e.kern.cutShort := by
  have listed : e.id ∈ fillingIds s := List.mem_map_of_mem (List.mem_filter.2 ⟨he, decide_eq_true filling⟩)
  have once : (fillingIds s).Nodup := (List.filter_sublist.map _).nodup distinct
  have left : (if e.kern.id ∈ fillingIds s then completedAtPfail e.kern.id e.kern else some e.kern) =
      if e.headLine = e.lineCount ∧ !e.hasReader then none else some e.kern.cutShort := by
    rw [if_pos (show e.kern.id ∈ fillingIds s from listed), completedAtPfail, if_pos rfl, kern_hasReader]
    rfl
  rw [fillingCompleted, completeAll_kernels _ once distinct, List.mem_filterMap]
  refine ⟨fun ⟨y, hy, leaves⟩ => ?_, fun ⟨stays, cut⟩ => ⟨e.kern, List.mem_map_of_mem he, ?_⟩⟩
  · obtain ⟨x, hx, rfl⟩ := List.mem_map.1 hy
    have same : x.id = e.id := by
      refine Eq.trans ?_ own
      split at leaves
      · exact (completedAtPfail_id leaves).symm
      · cases leaves
        rfl
    obtain rfl := unique_id distinct hx he same
    rw [left] at leaves
    split at leaves
    · exact absurd leaves nofun
    · next stays => exact ⟨stays, (Option.some.inj leaves).symm⟩
  · rw [left, if_neg stays, cut]

/-- A page that was FILLING is truncated with its lines kept, or gone (R95); one with a stored line and no reader stays. -/
theorem pagesAtPfail_fate {e : Entry} (he : e ∈ s.dir.entries) (filling : e.state = .filling) :
    (∀ e' ∈ (pagesAtPfail s).dir.entries, e'.id = e.id →
        e'.state = .complete ∧ e'.truncated = true ∧ e'.lineCount = e.lineCount)
      ∧ (e.headLine ≠ e.lineCount → e.printRd = none → e.outRd = none →
          ∃ e' ∈ (pagesAtPfail s).dir.entries, e'.id = e.id) := by
  refine ⟨fun e' he' own => ?_, fun stored print out => ?_⟩
  · obtain ⟨x, hx, -, rfl⟩ := (mem_pagesAtPfail quiet distinct).1 he'
    obtain ⟨-, cut⟩ := (mem_fillingCompleted distinct he filling (k := x.kern) own).1 (List.mem_map_of_mem hx)
    have state : x.state = .complete := congrArg Entry.state cut
    have mark : x.truncated = true := congrArg Entry.truncated cut
    have lines : x.kern.lineCount = e.kern.cutShort.lineCount := congrArg Entry.lineCount cut
    exact ⟨state, mark, lines⟩
  · have stays : e.kern.cutShort ∈ kernels (fillingCompleted s) :=
      (mem_fillingCompleted distinct he filling (k := e.kern.cutShort) rfl).2 ⟨fun empty => stored empty.1, rfl⟩
    obtain ⟨x, hx, cut⟩ := List.mem_map.1 stays
    have unread : x.hasReader = false := by
      rw [← kern_hasReader, cut]
      show e.kern.hasReader = false
      rw [kern_hasReader]
      simp [Entry.hasReader, print, out]
    have complete : x.state = .complete := congrArg Entry.state cut
    have own : x.kern.id = e.kern.cutShort.id := congrArg Entry.id cut
    exact ⟨_, (mem_pagesAtPfail quiet distinct).2 ⟨x, hx, by simp [Entry.outlasts, complete, unread], rfl⟩, own⟩

end Pages

/-! ## The jobs gone -/

/-- The end of all jobs, on what it leaves beside the pages. -/
theorem jobsGone_eq (s : State) :
    ∃ g r, dropJobs (releasePlace s) =
      { s with
        port := { s.port with replies := r, intakeLineNo := 0, prevIntake := none },
        front := { s.front with cal := none, lamp := false, comp := none },
        rings := { s.rings with
          scan := s.rings.scan.emptied, scanReserved := 0, intake := s.rings.intake.emptied, intakeFull := false,
          print := s.rings.print.emptied,
          output := if lineBegun s then s.rings.output.emptiedButHead else s.rings.output.emptied },
        scanCd := { Coder.reset with dirWait := s.scanCd.dirWait },
        intakeCd := { Coder.reset with dirWait := s.intakeCd.dirWait },
        printDec := none, outDec := none, scanJob := none, intJob := none, prtJob := none, outJob := none,
        dir := { s.dir with places := 0 }, pmc := { s.pmc with grant := g } } := by
  obtain ⟨g, idle⟩ := contextsIdle_eq (clearIntakeLine (emptyOutputRing (emptyPrintRing (emptyIntakeRing (emptyScanRing
    (mapFront (fun f => { f with lamp := false }) (abandonCalibration (releasePlace s))))))))
  unfold dropJobs
  dsimp only
  rw [idle, ringsEmptied_eq, abandonCalibration_eq]
  exact ⟨_, _, rfl⟩

theorem cutOff_pfail (m : Motor) : (m.cutOff byPfail).causes.pfail = true := by
  unfold Motor.cutOff
  dsimp only
  split <;> exact Bool.or_true _

/-- The sequence's end of all jobs over the pages `u` it has settled, the spill due. -/
def spillDue (u : State) : State :=
  let s := pfailPower (dropJobs (releasePlace u))
  writeShadow (killGrant (fun b => b = .spill) { s with spill := .await .pfail, pmc := { s.pmc with srPending := none } })

/-- The state whose pages the sequence settles: the channels in FAULT, no context waiting. -/
def pfailBegun (s : State) : State :=
  withdrawWaits (cutOffBoth byPfail { s with lines := { s.lines with pfail := true } })

theorem exec_pfailRise {s : State} (low : s.lines.pfail = false) (calm : s.power.pfail = .inactive)
    (ready : s.boot.state = .ready) (entry : s.power.entry = none) (on : s.power.state = .run ∨ s.power.state = .doze) :
    exec .pfailRise s = .next (settle (spillDue (pagesAtPfail (pfailBegun s)))) := by
  have spill : spillBegun (cutOffBoth byPfail { s with lines := { s.lines with pfail := true } }) = false := by
    show (match s.power.entry with | none => false | some e => _) = false
    rw [entry]
  have awake : s.power.state ≠ .standby ∧ s.power.state ≠ .sleep := by
    rcases on with h | h <;> rw [h] <;> exact ⟨nofun, nofun⟩
  have rises : pfailLineRises s = spillDue (pagesAtPfail (pfailBegun s)) := by
    unfold pfailLineRises pfailRises
    rw [if_neg (by rw [low]; nofun), if_neg (by simp [calm, awake.1]), if_neg (by simp [ready]), if_neg (by simp [awake.2])]
    unfold pfailSequence
    dsimp only
    rw [spill]
    rfl
  exact congrArg (fun t => Host.Outcome.next (settle t)) rises

/-- Settles O57: the pages completed and their readers dropped, then the jobs, the rings and the spill by their record. -/
theorem pfailEndsJobsAndSpills : Obligations.PfailEndsJobsAndSpills := by
  intro s low calm ready entry on
  have shell := shell_pagesAtPfail (pfailBegun s)
  have quiet : (pfailBegun s).noAsk := noAsk_withdrawWaits _
  have unfilled {e : Entry} := pagesAtPfail_unfilled quiet (e := e)
  have unread (distinct) {e : Entry} := mem_pagesAtPfail quiet distinct (e := e)
  have fate (distinct) {e : Entry} := pagesAtPfail_fate quiet distinct (e := e)
  refine ⟨_, exec_pfailRise low calm ready entry on, ?_⟩
  generalize pagesAtPfail (pfailBegun s) = u at *
  obtain ⟨g, r, gone⟩ := jobsGone_eq u
  have motS : u.motS = s.motS.cutOff byPfail := shell.motS
  have motP : u.motP = s.motP.cutOff byPfail := shell.motP
  have port : u.port = s.port := shell.port
  have lines : u.lines = { s.lines with pfail := true } := shell.lines
  have begun : lineBegun u = lineBegun s := by
    unfold lineBegun
    rw [port]
  unfold spillDue
  rw [gone]
  refine ⟨?_, ?_, ?_, ?_, ?_, ?_, rfl, rfl, rfl, rfl, rfl, rfl, rfl, rfl, rfl, ?_, ?_, rfl, rfl, rfl, rfl, ?_, fun distinct => ⟨?_, ?_⟩⟩
  · exact (congrArg Motor.state motS).trans (cutOff_fault ..)
  · exact (congrArg Motor.state motP).trans (cutOff_fault ..)
  · exact (congrArg (·.causes.pfail) motS).trans (cutOff_pfail _)
  · exact (congrArg (·.causes.pfail) motP).trans (cutOff_pfail _)
  · simp [rdy, pfailPower, writeShadow, mapPower, killGrant, mapPmc]
  · simp [rstout, pfailPower, writeShadow, mapPower, killGrant, mapPmc]
  · show (if lineBegun u then u.rings.output.emptiedButHead else u.rings.output.emptied).occ = _
    rw [begun]
    split <;> rfl
  · exact fun e he => unfilled he
  · exact (congrArg Lines.pfail lines)
  · intro e he
    obtain ⟨x, -, -, rfl⟩ := (unread distinct).1 he
    exact ⟨rfl, rfl⟩
  · exact fun e he filling => fate distinct he filling

end Sys2Proof.Machine
end

section
/-! What the Print Engine leaves of the OUTPUT job and its pass (R137, R141, R149, R153, R154). -/

set_option Elab.async false

namespace Sys2Proof.Machine

/-- The OUTPUT job and its pass stand. -/
structure OutputStands (s t : State) : Prop where
  job  : t.outJob = s.outJob
  pass : t.outDec = s.outDec

theorem OutputStands.refl (s : State) : OutputStands s s := ⟨rfl, rfl⟩

theorem OutputStands.trans {s t u : State} (h : OutputStands s t) (k : OutputStands t u) : OutputStands s u :=
  ⟨k.job.trans h.job, k.pass.trans h.pass⟩

theorem OutputStands.ite {s t u : State} {p : Prop} [Decidable p] (h : OutputStands s t) (k : OutputStands s u) :
    OutputStands s (if p then t else u) := by
  split
  · exact h
  · exact k

theorem Shell.output {s t : State} (h : Shell s t) : OutputStands s t := ⟨h.outJob, h.outDec⟩

theorem Applies.output {s t : State} (h : Applies s t) : OutputStands s t := by
  rw [h.frame]
  exact ⟨rfl, rfl⟩

/-- A change of the PRINT job, of the rings, the temperature, the flags or channel P alone. -/
theorem outputs_prtJob (j : Option PrintJob) (s : State) : OutputStands s { s with prtJob := j } := ⟨rfl, rfl⟩
theorem outputs_mapPrtJob (f : PrintJob → PrintJob) (s : State) : OutputStands s (mapPrtJob f s) := ⟨rfl, rfl⟩
theorem outputs_raise (f : Fin 20) (p c r : Nat) (s : State) : OutputStands s (raise f p c r s) := ⟨rfl, rfl⟩
theorem outputs_mapRings (f : Rings → Rings) (s : State) : OutputStands s (mapRings f s) := ⟨rfl, rfl⟩

theorem outputs_settlePass (s : State) : OutputStands s (settlePass .print s) := by
  unfold settlePass
  split
  · exact .refl s
  · exact .ite ⟨rfl, rfl⟩ (.refl s)

theorem outputs_applyPending (id : Fin 14) (s : State) : OutputStands s (applyPending id s) := by
  cases pending : s.tables.pending[id] with
  | none =>
    rw [applyPending_none pending]
    exact .refl s
  | some img =>
    rw [applyPending_some pending, setActive_eq]
    exact ⟨rfl, rfl⟩

theorem outputs_applyAll (ids : List (Fin 14)) : ∀ s : State, OutputStands s (applyAll ids s) := by
  unfold applyAll
  induction ids with
  | nil => exact .refl
  | cons id ids ih => exact fun s => (outputs_applyPending id s).trans (ih _)

theorem outputs_requestP (r : MotorRequest) (s : State) : OutputStands s (requestP r s).1 := by
  unfold requestP
  split
  · exact .refl s
  · split
    · exact ⟨rfl, rfl⟩
    · split <;> exact ⟨rfl, rfl⟩

theorem outputs_askSteps (k : Stepping) (r : MotorRequest) (n : Nat) (s : State) : OutputStands s (askSteps k r n s) := by
  have asked (f : PrintJob → PrintJob) : OutputStands s (requestP r (mapPrtJob f s)).1 :=
    (outputs_mapPrtJob f s).trans (outputs_requestP r _)
  unfold askSteps
  exact .ite (asked _) ((asked _).trans (outputs_mapPrtJob ..))

theorem outputs_strobeLine (s : State) : OutputStands s (strobeLine s) := by
  have stale (p : Nat) : OutputStands s (staleSpellBegins p s) := .ite (.refl s) ⟨rfl, rfl⟩
  unfold strobeLine
  split
  · exact .refl s
  · dsimp only
    split
    · exact (stale _).trans (outputs_askSteps ..)
    · exact (stale _).trans (outputs_prtJob ..)

theorem outputs_nextCopy (s : State) : OutputStands s (nextCopy s) := by
  have restarts (p : Nat) (u : State) : OutputStands u (restartPass p u) := by
    unfold restartPass
    split
    · exact .refl u
    · exact ⟨rfl, rfl⟩
  unfold nextCopy
  split
  · exact .refl s
  · exact (((outputs_prtJob _ s).trans (outputs_mapRings ..)).trans (restarts ..)).trans
      ((outputs_applyAll ..).trans (outputs_mapPrtJob ..))

theorem outputs_afterExit (s : State) : OutputStands s (afterExit s) := by
  have applied (f : PrintJob → PrintJob) : OutputStands s (applyMotorTables (mapPrtJob f s)) :=
    (outputs_mapPrtJob f s).trans (applies_applyMotorTables _).output
  unfold afterExit
  dsimp only
  split
  · exact applied _
  · exact (applied _).trans (.ite (outputs_nextCopy _) (outputs_prtJob ..))

theorem outputs_pageEnd (s : State) : OutputStands s (pageEnd s) := by
  unfold pageEnd
  split
  · exact .refl s
  · exact .ite ((outputs_prtJob _ s).trans (outputs_askSteps ..)) ((outputs_prtJob _ s).trans (outputs_afterExit _))

theorem outputs_takeSource (n : Nat) : ∀ s : State, OutputStands s (takeSource n s).1 := by
  induction n with
  | zero => exact .refl
  | succ n ih =>
    intro s
    unfold takeSource
    split
    · exact .refl s
    · split
      · split
        · exact outputs_pageEnd s
        · exact outputs_prtJob ..
      · extract_lets x a u
        have taken : OutputStands s u := (outputs_prtJob _ s).trans (outputs_mapRings ..)
        split
        · split
          · exact taken.trans (outputs_pageEnd _)
          · exact taken.trans (ih _)
        · exact taken

theorem outputs_lineStart (s : State) : OutputStands s (lineStart s) := by
  unfold lineStart
  split
  · exact .refl s
  · extract_lets x
    have source : OutputStands s x.1 := by
      unfold x
      split
      · exact outputs_takeSource ..
      · exact .refl s
    exact .ite (outputs_mapPrtJob ..) (.ite ⟨rfl, rfl⟩ (.ite ⟨rfl, rfl⟩ (.ite ((outputs_prtJob _ s).trans (outputs_strobeLine _))
      (.ite ((source.trans (outputs_mapPrtJob ..)).trans (outputs_strobeLine _)) source))))

theorem outputs_endPrint (j : PrintJob) (s : State) : OutputStands s (endPrint j s) := by
  have closed : OutputStands s (emptyPrintRing (idleDecoder .print { s with prtJob := none })) := ⟨rfl, rfl⟩
  exact (closed.trans (shell_removeReader ..).output).trans (outputs_raise ..)

theorem outputs_endingMove (j : PrintJob) (s : State) : OutputStands s (endingMove j s) := by
  unfold endingMove
  exact .ite (.refl s) (.ite ((outputs_prtJob _ s).trans (outputs_askSteps ..))
    (((outputs_prtJob _ s).trans (applies_applyMotorTables _).output).trans (outputs_endPrint ..)))

theorem outputs_printMove (s : State) : OutputStands s (printMove s) := by
  unfold printMove
  split
  · exact .refl s
  · split
    · exact outputs_lineStart s
    · exact .ite (outputs_lineStart s) (.ite (outputs_pageEnd s) (.refl s))
    · exact outputs_endingMove ..
    all_goals exact .refl s

theorem outputs_printMoves (n : Nat) : ∀ s : State, OutputStands s (printMoves n s) := by
  induction n with
  | zero => exact outputs_settlePass
  | succ n ih =>
    intro s
    unfold printMoves
    exact .ite (((outputs_settlePass s).trans (outputs_printMove _)).trans (ih _)) (outputs_settlePass s)

theorem outputs_settlePrint (s : State) : OutputStands s (settlePrint s) := outputs_printMoves 400 s

/-! ## What follows at once with no OUTPUT job -/

theorem settlePass_print {s : State} {p : Pass} (h : s.printDec = some p) :
    settlePass .print s =
      if passOver p s then mapPrtJob (fun j => { j with passEnded := true }) (idleDecoder .print s) else s := by
  unfold settlePass
  rw [show passOf .print s = some p from h]

theorem settlePass_print_settled (s : State) : settlePass .print (settlePass .print s) = settlePass .print s := by
  cases pass : s.printDec with
  | none => rw [settlePass_none (c := .print) pass, settlePass_none (c := .print) pass]
  | some p =>
    rw [settlePass_print pass]
    split
    · exact settlePass_none (c := .print) rfl
    · next going => rw [settlePass_print pass, if_neg going]

/-- The end of the print pass is the first of the Print Engine's moves. -/
theorem settlePrint_settlePass (s : State) : settlePrint (settlePass .print s) = settlePrint s := by
  unfold settlePrint printMoves
  rw [settlePass_print_settled]

/-- With no OUTPUT job and no output pass, the Print Engine has the round alone. -/
theorem decodersRound_print {s : State} (job : s.outJob = none) (pass : s.outDec = none) : decodersRound s = settlePrint s := by
  have passed := outputs_settlePass s
  unfold decodersRound
  rw [settlePass_none (c := .output) (passed.pass.trans pass), settlePrint_settlePass,
    settleOutput_none ((outputs_settlePrint s).job.trans job)]

end Sys2Proof.Machine
end

section
/-! STOP and the end of the PRINT job (R90, R151, R153 to R155). -/

set_option Elab.async false

namespace Sys2Proof.Machine

/-! ## The print reader leaves (R90) -/

/-- When a page goes as its print reader leaves it. -/
theorem leaves_print (e : Entry) (r : Reader) : e.leaves .print r ↔
    (e.state = .erasing ∧ e.outRd = none) ∨ (r.consume = true ∧ e.state = .complete ∧ r.linePos = e.lineCount)
      ∨ (e.state = .complete ∧ e.headLine = e.lineCount ∧ e.outRd = none) := by
  simp [Entry.leaves, Entry.readAlone]

/-- The page as the print reader leaves it: gone, or without the reader and nothing else changed. -/
theorem printReader_leaves {s : State} {i : Nat} {e : Entry} {r : Reader} (he : entryOf i s = some e) (hr : e.printRd = some r) :
    let t := removeReader .print i s
    let gone : Prop :=
      (e.state = .erasing ∧ e.outRd = none) ∨ (r.consume = true ∧ e.state = .complete ∧ r.linePos = e.lineCount)
        ∨ (e.state = .complete ∧ e.headLine = e.lineCount ∧ e.outRd = none)
    (gone → entryOf i t = none)
      ∧ (¬gone → entryOf i t = some { e with printRd := none } ∧ t.pmc.count = s.pmc.count ∧ t.events = s.events
          ∧ t.dram = s.dram) := by
  obtain ⟨goes, stays⟩ := removeReader_cases (c := .print) he hr
  refine ⟨fun gone => goes ((leaves_print e r).2 gone), fun still => ?_⟩
  obtain ⟨clears, unread⟩ := stays (mt (leaves_print e r).1 still)
  have pmc := congrArg State.pmc clears
  have events := congrArg State.events clears
  have dram := congrArg State.dram clears
  exact ⟨unread, congrArg Pmc.count pmc, events, dram⟩

/-! ## STOP (R155) -/

theorem exec_stopPrint {keep : Bool} {s : State} (ho : portOpen s) :
    exec (.stopPrint (if keep then 1 else 0)) s =
      .next (replied 0x08 (orderStopPrint [2, if keep then 1 else 0] s).2 (orderStopPrint [2, if keep then 1 else 0] s).1) :=
  writeOrder_done ho rfl rfl (by cases keep <;> rfl)

/-- The PRINT job stopped, its reader still on the page. -/
def printStopped (j : PrintJob) (s : State) : State :=
  emptyPrintRing (idleDecoder .print
    { s with prtJob := some { j with cycle := .ending, reason := 1, exitDone := j.exitDone || j.cycle = .suspended } })

theorem orderStopPrint_going {a : List Byte} {s : State} {j : PrintJob} (hj : s.prtJob = some j) (going : j.cycle ≠ .ending) :
    orderStopPrint a s = (removeReader .print j.page (printStopped j s), .filled .ok a) := by
  unfold orderStopPrint
  rw [hj]
  exact if_neg going

/-! ## The moves of the ending (R153, R154) -/

/-- A Print Engine with no move due stays as it is. -/
theorem printMoves_still {s : State} (pass : s.printDec = none) (still : printDue s = false) (n : Nat) : printMoves n s = s := by
  have passed : settlePass .print s = s := settlePass_none (c := .print) pass
  cases n with
  | zero => exact passed
  | succ n =>
    unfold printMoves
    rw [passed, still]
    rfl

theorem printDue_none {s : State} (h : s.prtJob = none) : printDue s = false := by
  unfold printDue
  rw [h]

theorem printMoves_due {s : State} (pass : s.printDec = none) (due : printDue s = true) (n : Nat) :
    printMoves (n + 1) s = printMoves n (printMove s) := by
  have passed : settlePass .print s = s := settlePass_none (c := .print) pass
  rw [printMoves, passed, if_pos due]

/-! ## A run asked of channel P (R103, R106) -/

theorem requestP_atRest {s : State} (rest : s.motP.atRest = true) (rev : Bool) (req use : Nat) (steps : Option Nat) :
    requestP (.run rev req use steps) s = (takeRun .P .print rev req use steps s, true) := by
  have sound : s.motP.faulted = false := decide_eq_false (atRest_fault rest)
  unfold requestP
  rw [sound, rest_still rest]
  rfl

theorem requestP_moving {s : State} (moving : s.motP.moving = true) (r : MotorRequest) :
    requestP r s = ({ s with motP := { s.motP with waiting := some r } }, true) := by
  unfold requestP
  rw [not_faulted_of_moving moving, moving]
  rfl

theorem requestP_fault {s : State} (fault : s.motP.state = .fault) (r : MotorRequest) : requestP r s = (s, false) :=
  if_pos (decide_eq_true fault)

/-- The job waits for the end of a page exit. -/
def exiting (j : PrintJob) (s : State) : State := { s with prtJob := some { j with stepping := some .pageExit } }

section Asked
variable {s : State} {j : PrintJob} (hj : s.prtJob = some j) (ending : j.cycle = .ending) (n : Nat)
include hj ending

/-- A page exit asked of channel P by a job in ENDING, which stays in ENDING. -/
theorem exitSteps_ending :
    exitSteps n s =
      if (requestP (exitRun n s) (exiting j s)).2 then (requestP (exitRun n s) (exiting j s)).1
      else mapPrtJob (fun j =>
        if j.cycle = .ending then { j with stepping := none, exitDone := true }
        else { j with stepping := none, cycle := .suspended, susp := .fault, owed := n, owedExit := true,
                      interrupted := j.interrupted || false }) (requestP (exitRun n s) (exiting j s)).1 := by
  have asked : mapPrtJob (fun j =>
      { j with stepping := some .pageExit, cycle := if j.cycle = .ending then .ending else .stepping }) s = exiting j s := by
    unfold mapPrtJob exiting
    rw [hj, Option.map_some, if_pos ending, ← ending]
  unfold exitSteps askSteps
  rw [asked]
  rfl

theorem exitSteps_atRest (rest : s.motP.atRest = true) :
    exitSteps n s =
      { s with
        motP := (s.motP.beginRun (rampCount (rampTable .P s)) .print false (rampCount (rampTable .P s) - 1)
          (rampCount (rampTable .P s) - 1) (some n)).issue (rampTable .P s) (phaseCount (phaseTable .P s)),
        prtJob := some { j with stepping := some .pageExit } } := by
  rw [exitSteps_ending hj ending, exitRun, requestP_atRest (s := exiting j s) rest]
  rfl

theorem exitSteps_moving (moving : s.motP.moving = true) :
    exitSteps n s =
      { s with motP := { s.motP with waiting := some (exitRun n s) }, prtJob := some { j with stepping := some .pageExit } } := by
  rw [exitSteps_ending hj ending, requestP_moving (s := exiting j s) moving]
  rfl

theorem exitSteps_fault (fault : s.motP.state = .fault) :
    exitSteps n s = { s with prtJob := some { j with stepping := none, exitDone := true } } := by
  rw [exitSteps_ending hj ending, requestP_fault (s := exiting j s) fault]
  show ({ s with prtJob := some (if j.cycle = .ending then _ else _) } : State) = _
  rw [if_pos ending]

end Asked

/-- The motor tables go out of use before the PRINT job ends (R153). -/
def outOfCopy (j : PrintJob) (s : State) : State := applyMotorTables { s with prtJob := some { j with inCopy := false } }

/-- The page exit of the job's last copy is asked for, once. -/
def exitTaken (j : PrintJob) (s : State) : State := { s with prtJob := some { j with exitDone := true } }

/-- The job gone with its pass and its ring, its reader still on the page. -/
def printClosed (j : PrintJob) (s : State) : State :=
  emptyPrintRing (idleDecoder .print { outOfCopy j s with prtJob := none })

theorem endPrint_gone (j : PrintJob) (s : State) : (endPrint j s).prtJob = none ∧ (endPrint j s).printDec = none := by
  have left := prints_removeReader .print j.page (emptyPrintRing (idleDecoder .print { s with prtJob := none }))
  exact ⟨left.job, left.pass rfl⟩

theorem endPrint_closed (j : PrintJob) (s : State) :
    endPrint j (outOfCopy j s) = raise evPrintEnd j.page 2 j.reason (removeReader .print j.page (printClosed j s)) := rfl

section Ending
variable {s : State} {j : PrintJob} (hj : s.prtJob = some j) (ending : j.cycle = .ending) (strobe : j.strobe = none)
  (stepping : j.stepping = none) (pass : s.printDec = none)
include hj ending

theorem printMove_ending : printMove s = endingMove j s := by
  unfold printMove
  rw [hj]
  dsimp only
  rw [ending]

theorem printDue_ending : printDue s = (j.strobe.isNone && j.stepping.isNone) := by
  unfold printDue
  rw [hj]
  dsimp only
  rw [ending]

include pass

/-- A page exit in course, or waiting for channel P's rest, holds the ending. -/
theorem printMoves_exiting (exits : j.stepping = some .pageExit) (n : Nat) : printMoves n s = s :=
  printMoves_still pass (by rw [printDue_ending hj ending, exits]; exact Bool.and_false _) n

include strobe stepping

theorem printMoves_ending (n : Nat) : printMoves (n + 1) s = printMoves n (endingMove j s) := by
  rw [printMoves_due pass (by rw [printDue_ending hj ending, strobe, stepping]; rfl), printMove_ending hj ending]

omit hj ending pass in
theorem endingMove_exits (undone : j.exitDone = false) (printed : 0 < j.printed) (exit : 0 < setPexit s) :
    endingMove j s = exitSteps (setPexit s) (exitTaken j s) := by
  unfold endingMove
  rw [if_neg (by rw [strobe, stepping]; nofun), if_pos (by simp [undone, printed, exit])]
  rfl

omit hj ending pass in
theorem endingMove_ends (done : j.exitDone = true ∨ j.printed = 0 ∨ setPexit s = 0) :
    endingMove j s = endPrint j (outOfCopy j s) := by
  have spent : (!j.exitDone && decide (0 < j.printed) && decide (0 < setPexit s)) = false := by
    rcases done with h | h | h <;> simp [h]
  unfold endingMove
  rw [if_neg (by rw [strobe, stepping]; nofun), if_neg (by rw [spent]; nofun)]
  rfl

/-- The page exit is taken, or waits, and the job stays. -/
theorem settlePrint_exits {t : State} (undone : j.exitDone = false) (printed : 0 < j.printed) (exit : 0 < setPexit s)
    (asked : exitSteps (setPexit s) (exitTaken j s) = t)
    (job : t.prtJob = some { j with exitDone := true, stepping := some .pageExit }) (idle : t.printDec = none) :
    settlePrint s = t := by
  unfold settlePrint
  rw [printMoves_ending hj ending strobe stepping pass, endingMove_exits strobe stepping undone printed exit, asked]
  exact printMoves_exiting job ending idle rfl _

/-- The job ends, with its page exit done, none due, or cut off by a fault of channel P. -/
theorem settlePrint_ends (last : j.exitDone = true ∨ j.printed = 0 ∨ setPexit s = 0 ∨ s.motP.state = .fault) :
    ∃ b, settlePrint s = endPrint j (outOfCopy { j with exitDone := b } s) := by
  have stays (k : PrintJob) (u : State) (n : Nat) : printMoves n (endPrint k (outOfCopy k u)) = endPrint k (outOfCopy k u) := by
    obtain ⟨job, idle⟩ := endPrint_gone k (outOfCopy k u)
    exact printMoves_still idle (printDue_none job) n
  unfold settlePrint
  rw [printMoves_ending hj ending strobe stepping pass]
  by_cases done : j.exitDone = true ∨ j.printed = 0 ∨ setPexit s = 0
  · rw [endingMove_ends strobe stepping done, stays]
    exact ⟨j.exitDone, rfl⟩
  · push Not at done
    obtain ⟨undone, printed, exit⟩ := done
    have fault : s.motP.state = .fault := ((last.resolve_left undone).resolve_left printed).resolve_left exit
    have cutOff : exitSteps (setPexit s) (exitTaken j s) = exitTaken j s := by
      rw [exitSteps_fault (s := exitTaken j s) rfl ending _ fault]
      unfold exitTaken
      rw [← stepping]
    rw [endingMove_exits strobe stepping (Bool.eq_false_iff.2 undone) (Nat.pos_of_ne_zero printed) (Nat.pos_of_ne_zero exit),
      cutOff, printMoves_ending (s := exitTaken j s) (j := { j with exitDone := true }) rfl ending strobe stepping pass,
      endingMove_ends (s := exitTaken j s) (j := { j with exitDone := true }) strobe stepping (.inl rfl), stays]
    exact ⟨true, rfl⟩

end Ending

/-! ## What the end leaves (R90, R117, R154) -/

/-- The copies after the motor tables out of use are applied follow from the copies before and what is in use. -/
theorem applyMotorTables_tables {s t : State} (tables : t.tables = s.tables) (inUse : ∀ id, tableInUse id t = tableInUse id s) :
    (applyMotorTables t).tables = (applyMotorTables s).tables := by
  have copies (id : Fin 14) : (applyMotorTables t).tables.active[id] = (applyMotorTables s).tables.active[id]
      ∧ (applyMotorTables t).tables.pending[id] = (applyMotorTables s).tables.pending[id] := by
    have left := applyMotorTables_copies t id
    have right := applyMotorTables_copies s id
    rw [tables, inUse] at left
    split at right
    · next taken =>
      rw [if_pos taken] at left
      exact ⟨left.1.trans right.1.symm, left.2.1.trans right.2.1.symm⟩
    · next kept =>
      rw [if_neg kept] at left
      exact ⟨left.1.trans right.1.symm, left.2.trans right.2.symm⟩
  have assembly : (applyMotorTables t).tables.assembly = (applyMotorTables s).tables.assembly :=
    (applies_applyMotorTables t).assembly.trans ((congrArg _ tables).trans (applies_applyMotorTables s).assembly.symm)
  have active : (applyMotorTables t).tables.active = (applyMotorTables s).tables.active :=
    Vector.ext fun i hi => (copies ⟨i, hi⟩).1
  have pending : (applyMotorTables t).tables.pending = (applyMotorTables s).tables.pending :=
    Vector.ext fun i hi => (copies ⟨i, hi⟩).2
  generalize (applyMotorTables t).tables = a at *
  generalize (applyMotorTables s).tables = b at *
  cases a
  cases b
  simp_all

theorem outOfCopy_tables (b : Bool) (j : PrintJob) (s : State) :
    (outOfCopy { j with exitDone := b } s).tables = (outOfCopy j s).tables :=
  applyMotorTables_tables rfl fun _ => rfl

/-- The job closed touches no page, and of the flags and copies what the motor tables tell. -/
theorem printClosed_eq (j : PrintJob) (s : State) :
    ∃ e ph ph' g, e.flags[evPrintEnd] = s.events.flags[evPrintEnd] ∧ printClosed j s =
      { s with
        prtJob := none, printDec := none, tables := (outOfCopy j s).tables, events := e, pmc := { s.pmc with grant := g },
        rings := { s.rings with print := s.rings.print.emptied },
        motS := { s.motS with phase := ph }, motP := { s.motP with phase := ph' } } := by
  obtain ⟨frame, -, tells⟩ := applies_applyMotorTables { s with prtJob := some { j with inCopy := false } }
  have flag := tells.flags evPrintEnd (by decide) (by decide)
  obtain ⟨g, idle⟩ := idlePrint_eq { outOfCopy j s with prtJob := none }
  refine ⟨(outOfCopy j s).events, (outOfCopy j s).motS.phase, (outOfCopy j s).motP.phase, g, flag, ?_⟩
  unfold printClosed
  rw [idle]
  unfold outOfCopy
  generalize applyMotorTables { s with prtJob := some { j with inCopy := false } } = u at frame
  rw [frame]
  rfl

/-- The job's flag, its reader and what it leaves as it was, once its end has come. -/
theorem settlePrint_ended {s : State} {j : PrintJob} (hj : s.prtJob = some j) (ending : j.cycle = .ending)
    (strobe : j.strobe = none) (stepping : j.stepping = none) (pass : s.printDec = none)
    (last : j.exitDone = true ∨ j.printed = 0 ∨ setPexit s = 0 ∨ s.motP.state = .fault) :
    let t := settlePrint s
    t.prtJob = none ∧ t.printDec = none ∧ t.rings.print.occ = 0 ∧ t.tables = (outOfCopy j s).tables
      ∧ (t.events.flags[evPrintEnd]).set = true
      ∧ ((s.events.flags[evPrintEnd]).set = false →
          (t.events.flags[evPrintEnd]).page = j.page ∧ (t.events.flags[evPrintEnd]).chan = 2
            ∧ (t.events.flags[evPrintEnd]).reason = j.reason ∧ (t.events.flags[evPrintEnd]).again = false)
      ∧ (∀ e r, entryOf j.page s = some e → e.printRd = some r →
          let gone : Prop :=
            (e.state = .erasing ∧ e.outRd = none) ∨ (r.consume = true ∧ e.state = .complete ∧ r.linePos = e.lineCount)
              ∨ (e.state = .complete ∧ e.headLine = e.lineCount ∧ e.outRd = none)
          (gone → entryOf j.page t = none)
            ∧ (¬gone → entryOf j.page t = some { e with printRd := none } ∧ t.pmc.count = s.pmc.count ∧ t.dram = s.dram))
      ∧ (∀ e, entryOf j.page s = some e → e.printRd = none → entryOf j.page t = some e)
      ∧ t.lines = s.lines ∧ t.port = s.port ∧ t.temp = s.temp ∧ t.power = s.power ∧ t.boot = s.boot
      ∧ t.spill = s.spill ∧ t.diagQ = s.diagQ ∧ t.pending = s.pending ∧ t.outJob = s.outJob
      ∧ t.outDec = s.outDec ∧ t.scanJob = s.scanJob ∧ t.intJob = s.intJob ∧ t.motS.pos = s.motS.pos
      ∧ t.motP.pos = s.motP.pos ∧ (s.noAsk → t.dram = s.dram) := by
  obtain ⟨b, ends⟩ := settlePrint_ends hj ending strobe stepping pass last
  obtain ⟨e, ph, ph', g, flag, closed⟩ := printClosed_eq { j with exitDone := b } s
  have tables := outOfCopy_tables b j s
  rw [tables] at closed
  generalize hv : printClosed { j with exitDone := b } s = v at closed
  have shell := shell_removeReader .print j.page v
  have prints := prints_removeReader .print j.page v
  have jobs := jobs_removeReader .print j.page v
  have flags := (stand_removeReader .print j.page v).flag evPrintEnd (by decide) (by decide) (by decide)
  have left {e : Entry} {r : Reader} := printReader_leaves (s := v) (i := j.page) (e := e) (r := r)
  have unread := removeReader_none (c := .print) (i := j.page) (s := v)
  have unasked := removeReader_unasked .print j.page (s := v)
  intro t
  have removed : t = raise evPrintEnd j.page 2 j.reason (removeReader .print j.page v) := by
    rw [← hv]
    exact ends.trans (endPrint_closed { j with exitDone := b } s)
  rw [removed]
  generalize removeReader .print j.page v = w at *
  subst closed
  have posS := congrArg Motor.pos shell.motS
  have posP := congrArg Motor.pos shell.motP
  refine ⟨prints.job, prints.pass rfl, congrArg (·.print.occ) prints.rings, shell.tables, raise_set .., fun clear => ?_,
    fun e r he hr => ?_, fun e he none => ?_, shell.lines, shell.port, shell.temp, shell.power, shell.boot, shell.spill,
    shell.diagQ, shell.pending, shell.outJob, shell.outDec, jobs.scan, jobs.intake, posS, posP,
    fun quiet => (unasked quiet).dram⟩
  · exact raise_snapshot ((congrArg EventFlag.set (flags.trans flag)).trans clear) ..
  · obtain ⟨gone, stays⟩ := left he hr
    refine ⟨gone, fun still => ?_⟩
    obtain ⟨clears, count, -, dram⟩ := stays still
    exact ⟨clears, count, dram⟩
  · have same := unread fun x hx => (congrArg Entry.printRd (Option.some.inj (hx.symm.trans he))).trans none
    rw [same]
    exact he

/-! ## COVER during the ending (R151, R154) -/

theorem ending_scanJob (j : Option ScanJob) (s : State) : EndingStands s { s with scanJob := j } := ⟨fun _ h _ => h, id⟩
theorem ending_emptyScanRing (s : State) : EndingStands s (emptyScanRing s) := ⟨fun _ h _ => h, id⟩
theorem ending_quitScan (s : State) : EndingStands s (quitScan s) := ⟨fun _ h _ => h, id⟩

theorem ending_scanFaulted (s : State) : EndingStands s (scanFaulted s) := by
  unfold scanFaulted
  split
  · exact .refl s
  · next j hj =>
    split
    · exact (ending_settleScanPages ..).trans (ending_emptyScanRing _)
    · rw [scanDecision_quits (how := .policy) nofun 4 none hj]
      exact ((ending_scanJob _ s).trans (ending_settleScanPages ..)).trans (ending_quitScan _)

/-- Channel P in FAULT cuts off all that a job in ENDING had still to do. -/
theorem printFaulted_ending {s : State} {j : PrintJob} (hj : s.prtJob = some j) (ending : j.cycle = .ending) (owed : Nat) :
    (printFaulted owed s).prtJob = some { j with strobe := none, stepping := none, exitDone := true } := by
  unfold printFaulted mapPrtJob
  rw [hj, Option.map_some, ending]

/-- The state in which COVER's opening finds the jobs: COVER raised, both channels in FAULT. -/
def coverRaised (s : State) : State :=
  cutOffBoth byCover (raise evCover 0 (movingChannels s) 0 { s with lines := { s.lines with cover := false } })

theorem exec_coverOpen {s : State} (closed : s.lines.cover = true) (on : s.power.state = .run ∨ s.power.state = .doze)
    (past : s.boot.state ≠ .reset) :
    exec .coverOpen s = .next (settle (printFaulted (printOwed s.motP) (scanFaulted (coverRaised s)))) := by
  have awake : s.power.state ≠ .standby ∧ s.power.state ≠ .sleep := by
    rcases on with h | h <;> rw [h] <;> exact ⟨nofun, nofun⟩
  have falls : coverFalls s = printFaulted (printOwed s.motP) (scanFaulted (coverRaised s)) := by
    unfold coverFalls coverOpened
    rw [if_pos closed, if_neg (by simp [awake.1, past]), if_neg (by simp [awake.2])]
    rfl
  exact congrArg (fun t => Host.Outcome.next (settle t)) falls

/-- Settles O48: STOP by the reader it removes, the ending by the page exit it still owes, COVER by the cut. -/
theorem printStopsAndEnds : Obligations.PrintStopsAndEnds := by
  refine ⟨fun keep s j ho hj going => ?_, fun s j hj ending strobe stepping pass => ⟨fun undone printed exit rest => ?_,
    fun undone printed exit moving => ?_, settlePrint_ended hj ending strobe stepping pass⟩,
    fun s j hj ending closed on past => ?_, fun s scanJob intJob outJob outDec scanDir intDir => ?_⟩
  · have stops := exec_stopPrint (keep := keep) ho
    rw [orderStopPrint_going hj going] at stops
    have begun : Shell s (printStopped j s) := by constructor <;> rfl
    have shell := begun.trans (shell_removeReader .print j.page (printStopped j s))
    have prints := prints_removeReader .print j.page (printStopped j s)
    have jobs := jobs_removeReader .print j.page (printStopped j s)
    refine ⟨_, _, stops, prints.job, rfl, rfl, rfl, rfl, rfl, prints.pass rfl, congrArg (·.print.occ) prints.rings,
      fun e he => removeReader_unread (c := .print) he, fun e r he hr => printReader_leaves (s := printStopped j s) he hr,
      shell.beside, shell.port, shell.motS, shell.motP, jobs.scan, jobs.intake, shell.outJob, shell.outDec,
      fun quiet => (removeReader_unasked .print j.page (s := printStopped j s) quiet).dram⟩
  · exact settlePrint_exits hj ending strobe stepping pass undone printed exit
      (exitSteps_atRest (s := exitTaken j s) rfl ending _ rest) rfl pass
  · exact settlePrint_exits hj ending strobe stepping pass undone printed exit
      (exitSteps_moving (s := exitTaken j s) rfl ending _ moving) rfl pass
  · obtain ⟨job, cleared⟩ := ending_scanFaulted (coverRaised s)
    exact ⟨_, exec_coverOpen closed on past, (calm_scanFaulted (coverRaised s)).motP.1 (cutOff_fault ..), cleared,
      printFaulted_ending (job j hj ending) ending _⟩
  · have unfed : Unfed s := ⟨scanJob, intJob, scanDir, intDir⟩
    have stands := outputs_settlePrint s
    rw [unfed.settle, decodersRound_print outJob outDec,
      decodersRound_print (stands.job.trans outJob) (stands.pass.trans outDec)]

end Sys2Proof.Machine
end

section
/-! The lines, the power states and the channels under every command (R112, R115). -/

set_option Elab.async false

namespace Sys2Proof.Machine

/-! ## Down channels -/

/-- Two channels in OFF or FAULT hold all motor outputs and hold lines low (R98). -/
theorem motorsLow_of_low {s : State} (S : s.motS.low) (P : s.motP.low) : s.motorsLow := by
  intro ch
  cases ch with
  | S => exact low_outputs S _
  | P => exact low_outputs P _

theorem bothFaulted.low {s : State} (h : bothFaulted s) : s.motS.low ∧ s.motP.low := ⟨low_of_fault h.1, low_of_fault h.2⟩

section Sound

variable {s : State} (h : MotorsSound s)
include h

/-- Outside RUN both channels are down (R115). -/
theorem MotorsSound.low_away (away : s.power.state ≠ .run) : s.motS.low ∧ s.motP.low := (h.away away).2

theorem MotorsSound.low_reset (reset : s.boot.state = .reset) : s.motS.low ∧ s.motP.low :=
  h.booting (by rw [reset]; nofun)

/-- A cover open is known to both channels, or the part is where none can move (R112, R173). -/
theorem MotorsSound.low_cover (opened : s.lines.cover = false) : s.motS.low ∧ s.motP.low := by
  rcases h.coverSeen opened with faulted | standby | reset | ⟨sleep, -, -⟩
  · exact faulted.low
  · exact h.low_away (by rw [standby]; nofun)
  · exact h.low_reset reset
  · exact h.low_away (by rw [sleep]; nofun)

/-- So is a power-fail warning (R112, R176). -/
theorem MotorsSound.low_pfail (warning : s.lines.pfail = true) : s.motS.low ∧ s.motP.low := by
  rcases h.pfailSeen warning with warned | standby | reset
  · exact (h.warned warned).1.low
  · exact h.low_away (by rw [standby]; nofun)
  · exact h.low_reset reset

end Sound

/-! ## Every command -/

theorem motors_ite {s t : State} {p : Prop} [Decidable p] (h : MotorsSound s) (k : MotorsSound t) :
    MotorsSound (if p then s else t) := by
  split
  · exact h
  · exact k

theorem calm_refreshFalls (s : State) : Calm s (refreshFalls s) := calm_ite (.refl s) (calm_mapPmc rfl)

theorem resetAsserted_sound (s : State) : MotorsSound (resetAsserted s) := coldStart_sound _

/-- Every command keeps the accounting of lines, power states and channels. -/
theorem motors_exec (i : Instr) {s : State} (h : MotorsSound s) : ∀ t, exec i s = .next t → MotorsSound t := by
  have settles : ∀ {u}, MotorsSound u → MotorsSound (settle u) := fun k => calm_sound k (calm_settle _)
  have grants : ∀ {u}, MotorsSound u → MotorsSound (arbitrate u) := fun k => calm_sound k (calm_arbitrate _)
  have sensed : ∀ lv, MotorsSound (sense lv s) := fun lv => sense_sound lv h
  intro t ht
  cases i <;> injection ht with ht <;> subst ht
  case wstbStrobe w d lv => exact motors_ite (strobe_sound _ _ (sensed lv)) (sensed lv)
  case rstbStrobe cs => exact motors_ite (readStrobe_sound h) h
  case sleepEntry lv => exact settles (entryGoesOn_sound (sensed lv))
  case dramGrantEnd lv => exact motors_ite (settles (endGrant_sound (sensed lv))) (sensed lv)
  case refreshDue => exact grants (calm_sound h (calm_refreshFalls s))
  case coderLineStart c => exact settles (calm_sound h (calm_coderStart ..))
  case memwaitExpiry c => exact settles (calm_sound h (calm_memExpire ..))
  case dirwaitExpiry c => exact settles (calm_sound h (calm_dirExpire ..))
  case decoderLineStart c => exact settles (calm_sound h (calm_decoderStart ..))
  case readoutEnd v => exact settles (calm_sound h (calm_readoutEnds ..))
  case lampwarmExpiry => exact calm_sound h (calm_lampWarm s)
  case motorStep ch lv => exact settles (stepFalls_sound ch (sensed lv))
  case motionEnd ch lv => exact settles (motionEnds_sound ch (sensed lv))
  case holdTimerExpiry ch => exact holdExpires_sound ch h
  case headShiftEnd => exact calm_sound h (calm_headEvent ..)
  case strobeEnd => exact calm_sound h (calm_headEvent ..)
  case gapEnd => exact settles (calm_sound h (calm_headEvent ..))
  case tempAgeExpiry => exact calm_sound h (calm_tempExpired s)
  case idleTimerExpiry => exact idleExpires_sound h
  case wakeTimerExpiry => exact grants (wakeTimerExpires_sound h)
  case ringRise => exact grants (ringRises_sound h)
  case keyRise => exact grants (keyRises_sound h)
  case docpRise => exact grants (docpRises_sound h)
  case runReached lv =>
    show MotorsSound (if s.power.returning.isSome then _ else _)
    split
    · next returning =>
      obtain ⟨sound, reached⟩ := runReached_sound (sensed lv)
      obtain ⟨noReturn, run, noEntry, calm, ready⟩ := reached (Option.isSome_iff_ne_none.mp returning)
      exact settles (dispatchHeld_sound sound run ready noEntry calm noReturn)
    · exact sensed lv
  case coverOpen => exact settles (coverFalls_sound h)
  case pfailRise => exact settles (pfailLineRises_sound h)
  case pfailFall => exact pfailLineFalls_sound h
  case powerOn lv d => exact powerReturns_sound ..
  case resetAssert => exact resetAsserted_sound s
  case resetRelease lv => exact settles (resetReleased_sound (sensed lv))
  case resetStateEnd lv => exact settles (resetStateEnds_sound (sensed lv))
  case romRecord k b n q =>
    show MotorsSound (if s.boot.state = .romload ∧ s.power.pfail = .inactive then _ else _)
    split
    · next loading => exact settles (romRecord_sound _ _ _ _ h loading.1 loading.2)
    · exact h
  case scan => exact writeRecord_sound _ (sensed _)
  case print => exact writeRecord_sound _ (sensed _)
  case resume => exact writeRecord_sound _ (sensed _)
  case temp => exact writeRecord_sound _ (sensed _)
  all_goals exact writeRecord_sound _ h

/-- Settles O7: every command keeps the accounting, which has both channels down where R112 and R115 want them so. -/
theorem motorOutputsStayLow : Obligations.MotorOutputsStayLow := by
  intro s t h k
  have sound : MotorsSound t := by
    rcases step_front k with rfl | ⟨c, r, -, hc⟩
    · exact h
    · exact motors_exec c (h.queue r) t hc
  refine ⟨sound, fun fault => ?_, fun away => ?_⟩
  · obtain ⟨S, P⟩ := fault.elim sound.low_cover sound.low_pfail
    exact motorsLow_of_low S P
  · obtain ⟨S, P⟩ := sound.low_away away
    exact ⟨motorsLow_of_low S P, low_not_moving S, low_not_moving P⟩

end Sys2Proof.Machine
end

section
/-! One channel's runs, stops and steps, and MOVE, MOTOR_STEP and MOTION_END on top of them (R99 to R110). -/

set_option Elab.async false

namespace Sys2Proof.Machine

/-! ## A step (R100, R102, R105) -/

/-- The direction of a plan's steps: a burst goes forward (R105). -/
def Plan.backward : Plan → Bool
  | .run rev _ _ _ _ => rev
  | .burst _ _ => false
  | .idle => false

section Issue

variable (m : Motor) (ramp : List Byte) (patterns : Nat)

/-- A step is one fewer to issue; a plan with none and an unbounded run stay as they are (R104). -/
theorem issue_owed : (m.issue ramp patterns).plan.owed = m.plan.owed.map (· - 1) := by
  unfold Motor.issue
  split
  · next plan => rw [plan]; rfl
  · next rev up flat down st plan =>
    rw [plan]
    cases flat with
    | none => rfl
    | some f => exact congrArg some (show up + f + down = up + 1 + f + down - 1 by omega)
  · next plan => rw [plan]; rfl
  · next rev f down st plan =>
    rw [plan]
    exact congrArg some (show 0 + f + down = 0 + (f + 1) + down - 1 by omega)
  · next rev down st plan =>
    rw [plan]
    exact congrArg some (show 0 + 0 + down = 0 + 0 + (down + 1) - 1 by omega)
  · next plan => rw [plan]; rfl
  · next plan => rw [plan]; rfl
  · next plan => rw [plan]; rfl

/-- What a step leaves of the channel. -/
theorem issue_kept :
    (m.issue ramp patterns).owner = m.owner ∧ (m.issue ramp patterns).slewReq = m.slewReq
      ∧ (m.issue ramp patterns).slewEff = m.slewEff ∧ (m.issue ramp patterns).causes = m.causes
      ∧ (m.issue ramp patterns).waiting = m.waiting ∧ (m.issue ramp patterns).hold = m.hold := by
  unfold Motor.issue
  split <;> exact ⟨rfl, rfl, rfl, rfl, rfl, rfl⟩

/-- A step due moves the step position and the phase index by one (R102). -/
theorem issue_turns (due : m.stepDue = true) :
    (m.issue ramp patterns).pos = (if m.plan.backward then m.pos - 1 else m.pos + 1)
      ∧ (m.issue ramp patterns).phase = nextPhase m.plan.backward patterns m.phase := by
  have owes : m.plan.owed ≠ some 0 := of_decide_eq_true due
  unfold Motor.issue
  split
  · next plan => exact absurd (congrArg Plan.owed plan) owes
  · next plan => rw [plan]; exact ⟨rfl, rfl⟩
  · next plan => rw [plan]; exact ⟨rfl, rfl⟩
  · next plan => rw [plan]; exact ⟨rfl, rfl⟩
  · next plan => rw [plan]; exact ⟨rfl, rfl⟩
  · next plan => exact absurd (congrArg Plan.owed plan) owes
  · next plan => rw [plan]; exact ⟨rfl, rfl⟩
  · next plan => exact absurd (congrArg Plan.owed plan) owes

end Issue

/-! ## Runs and stops (R99, R103, R104) -/

section Begin

variable (m : Motor) (count req use n : Nat) (owner : Owner) (reverse : Bool)

/-- A bounded run plans exactly its steps: those of the ramp up and down are never more than it has. -/
theorem beginRun_bounded : (m.beginRun count owner reverse req use (some n)).plan.owed = some n := by
  have ramps : 2 * min (min use (count - 1)) (n / 2) ≤ n := by omega
  show some (min (min use (count - 1)) (n / 2) + (n - 2 * min (min use (count - 1)) (n / 2))
    + min (min use (count - 1)) (n / 2)) = some n
  congr 1
  omega

end Begin

section Stop

variable {m : Motor} {rev : Bool} {up q : Nat}

/-- A stop taken on an unbounded run: `q` steps more at most up the ramp, then as many down as the index then stands (R104). -/
theorem stop_unbounded (rising : m.state = .accel ∨ m.state = .slew) (plan : m.plan = .run rev up none 0 false) :
    (m.stop q).plan = .run rev (min up q) (some (q - min up q)) (m.rampIndex + min up q) true := by
  unfold Motor.stop
  rw [plan]
  exact congrArg Motor.plan (if_pos ⟨rising, rfl⟩)

/-- A channel coming down takes no stop request (R104). -/
theorem stop_decel (falling : m.state = .decel) : m.stop q = m := by
  unfold Motor.stop
  split
  · rw [if_neg]
    rintro ⟨rising, -⟩
    rw [falling] at rising
    exact rising.elim nofun nofun
  all_goals rfl

end Stop

/-- Settles O40: the plan begun, the step by the part of the profile it falls in, the stop by the state it finds. -/
theorem motorPlansIssueTheirSteps : Obligations.MotorPlansIssueTheirSteps := by
  refine ⟨⟨fun m count n req use owner reverse => ⟨beginRun_bounded .., rfl, rfl⟩, ?_⟩,
    fun m q up rev => ⟨fun slew plan => ?_, fun accel plan => ?_, stop_decel⟩⟩
  · intro m ramp patterns up down flat reverse stopped plan owes
    have due : m.stepDue = true := decide_eq_true owes
    obtain ⟨pos, phase⟩ := issue_turns m ramp patterns due
    rw [plan] at pos phase
    refine ⟨issue_owed .., pos, phase, fun climbs => ?_, fun top steady => ?_, fun top ends => ?_⟩
    · obtain ⟨k, rfl⟩ := Nat.exists_eq_add_of_lt climbs
      rw [Nat.zero_add] at plan
      simp [Motor.issue, plan]
    · subst top
      rcases flat with - | - | f
      · simp [Motor.issue, plan, Motor.turn]
      · exact absurd rfl steady
      · simp [Motor.issue, plan, Motor.turn]
    · subst top ends
      cases down with
      | zero => exact absurd (congrArg Plan.owed plan) owes
      | succ d => simp [Motor.issue, plan]
  · rw [stop_unbounded (.inr slew) plan]
    exact congrArg some (by omega)
  · rw [stop_unbounded (.inl accel) plan]
    exact congrArg some (by omega)

/-! ## MOVE (R109, R110) -/

/-- The byte that spells a channel in MOVE and RESUME (1.10). -/
def channelByte : Channel → Byte
  | .S => 0
  | .P => 1

theorem channelOf_channelByte (ch : Channel) : channelOf? (channelByte ch).toNat = some ch := by cases ch <;> rfl

theorem flagOf_directionByte (rev : Bool) : flagOf? (if rev then 1 else 0 : Byte).toNat = some rev := by cases rev <;> rfl

/-- A run taken on a channel at rest, its first step issued (R103). -/
def runTaken (ch : Channel) (owner : Owner) (reverse : Bool) (req use : Nat) (steps : Option Nat) (s : State) : Motor :=
  ((motorOf ch s).beginRun (rampCount (rampTable ch s)) owner reverse req use steps).issue (rampTable ch s)
    (phaseCount (phaseTable ch s))

theorem takeRun_eq (ch : Channel) (owner : Owner) (reverse : Bool) (req use : Nat) (steps : Option Nat) (s : State) :
    takeRun ch owner reverse req use steps s = setMotor ch (runTaken ch owner reverse req use steps s) s := by
  cases ch <;> rfl

/-- MOVE with nothing that refuses it (R109). -/
theorem orderMove_runs {ch : Channel} {rev : Bool} {steps : BitVec 16} {slew : Byte} {s : State}
    (rest : (motorOf ch s).atRest = true) (free : jobOn ch s = false) (tables : motorTables ch s = true) :
    let n := max 1 steps.toNat
    let k := min slew.toNat (rampCount (rampTable ch s) - 1)
    orderMove (channelByte ch :: (if rev then 1 else 0) :: (be16 steps.toNat ++ [slew])) s =
      (setMotor ch (runTaken ch .move rev k k (some n) s) s,
        .filled (if n = steps.toNat ∧ k = slew.toNat then .ok else .clamped)
          ([channelByte ch, if rev then 1 else 0] ++ be16 n ++ be8 k)) := by
  have spelled := wordAt_be16 (channelByte ch) (if rev then 1 else 0) steps.toNat [slew] (by have := steps.isLt; omega)
  have known : channelOf? (byteAt (channelByte ch :: (if rev then 1 else 0) :: (be16 steps.toNat ++ [slew])) 0) = some ch :=
    channelOf_channelByte ch
  have direct : flagOf? (byteAt (channelByte ch :: (if rev then 1 else 0) :: (be16 steps.toNat ++ [slew])) 1) = some rev :=
    flagOf_directionByte rev
  unfold orderMove
  rw [known, direct]
  dsimp only
  rw [spelled, if_neg (by simp [rest, free]), if_neg (by simp [tables]), takeRun_eq]
  rfl

/-- MOVE written at an open port in RUN, where no order is held (R3). -/
theorem exec_move {c d : Byte} {steps : BitVec 16} {slew : Byte} {s : State} (ho : portOpen s) (run : s.power.state = .run) :
    let x := orderMove (c :: d :: (be16 steps.toNat ++ [slew])) s
    exec (.move c d steps slew) s = .next (replied 0x0A x.2 x.1) := by
  obtain ⟨hr, hi, hb⟩ := ho
  exact congrArg Host.Outcome.next (writeOrder_ready hr hi hb rfl fun _ => by rw [run]; nofun)

/-- Settles O41: the run as taken, its first step issued. -/
theorem moveBeginsBoundedRun : Obligations.MoveBeginsBoundedRun := by
  intro ch rev steps slew s ho run rest free tables c n k
  have byte : c = channelByte ch := by cases ch <;> rfl
  have owed := beginRun_bounded (motorOf ch s) (rampCount (rampTable ch s)) k k n .move rev
  have due : ((motorOf ch s).beginRun (rampCount (rampTable ch s)) .move rev k k (some n)).stepDue = true := by
    refine decide_eq_true ?_
    rw [owed]
    exact fun none => absurd (Option.some.inj none) (by omega)
  obtain ⟨owner, req, eff, causes, -, hold⟩ := issue_kept
    ((motorOf ch s).beginRun (rampCount (rampTable ch s)) .move rev k k (some n)) (rampTable ch s) (phaseCount (phaseTable ch s))
  refine ⟨runTaken ch .move rev k k (some n) s, ?_, owner, ?_, req, eff.trans ?_, (issue_turns _ _ _ due).1, hold, causes⟩
  · rw [byte, exec_move ho run, orderMove_runs rest free tables]
  · exact (issue_owed ..).trans (congrArg (Option.map (· - 1)) owed)
  · show min (min k (rampCount (rampTable ch s) - 1)) (n / 2) = min k (n / 2)
    rw [min_eq_left (min_le_right _ _)]

/-! ## MOTOR_STEP (R100, R102, R105) -/

/-- A step due on a channel that the Scan Sequencer does not run is issued, and what follows comes about. -/
theorem exec_motorStep {ch : Channel} {lv : Levels} {s : State} (moving : (motorOf ch s).moving = true)
    (due : (motorOf ch s).stepDue = true) (other : (motorOf ch s).owner ≠ .scan) :
    exec (.motorStep ch lv) s =
      .next (settle (setMotor ch ((motorOf ch s).issue (rampTable ch s) (phaseCount (phaseTable ch s))) (sense lv s))) := by
  have steps : ((motorOf ch (sense lv s)).moving && (motorOf ch (sense lv s)).stepDue) = true := by
    cases ch <;> exact Bool.and_eq_true_iff.2 ⟨moving, due⟩
  have falls : stepFalls ch (sense lv s) = issueStep ch (sense lv s) := by
    unfold stepFalls
    rw [if_pos steps]
    split
    · next own => exact absurd own other
    · rfl
  refine (congrArg (fun t => Host.Outcome.next (settle t)) falls).trans ?_
  cases ch <;> rfl

/-! ## MOTION_END (R103, R105 to R107) -/

/-- Channel P at rest after its last step (R107). -/
def restedP (s : State) : State := { s with motP := s.motP.rest (setHoldTime s) }

theorem motionEnds_S {s : State} (spent : s.motS.spent = true) :
    motionEnds .S s = { s with motS := s.motS.rest (setHoldTime s) } := if_pos spent

theorem motionEnds_print {s : State} (spent : s.motP.spent = true) (own : s.motP.owner = .print) :
    motionEnds .P s = printRest (restedP s) := by
  have ends : (motorOf .P s).spent = true := spent
  have owner : (motorOf .P s).owner = .print := own
  unfold motionEnds
  rw [if_pos ends, owner]
  rfl

theorem motionEnds_other {s : State} (spent : s.motP.spent = true) (other : s.motP.owner ≠ .print) :
    motionEnds .P s = takeWaiting (restedP s) := by
  have ends : (motorOf .P s).spent = true := spent
  unfold motionEnds
  rw [if_pos ends]
  split
  · next x => cases x
  · next own => exact absurd own other
  · rfl

/-- The job that steps for nothing takes no notice of the rest. -/
theorem printRest_idle {s : State} (idle : ∀ j, s.prtJob = some j → j.stepping = none) : printRest s = s := by
  unfold printRest
  split
  · rfl
  · next j hj => rw [idle j hj]

/-- Settles O42: the step issued by what one step does, the rest by its owner and the request that waited. -/
theorem motorStepsThenHolds : Obligations.MotorStepsThenHolds := by
  refine ⟨fun ch lv s moving due other => ?_,
    fun ch lv s spent => ⟨fun alone => ?_, fun n hP other _ => ⟨fun hw => ?_, fun rev req use hw => ?_⟩⟩⟩
  · obtain ⟨owner, req, eff, causes, waiting, -⟩ := issue_kept (motorOf ch s) (rampTable ch s) (phaseCount (phaseTable ch s))
    obtain ⟨pos, phase⟩ := issue_turns (motorOf ch s) (rampTable ch s) (phaseCount (phaseTable ch s)) due
    have issued := issue_issued (motorOf ch s) (rampTable ch s) (phaseCount (phaseTable ch s))
    rw [if_pos due, Motor.issuedNext, moving] at issued
    exact ⟨_, exec_motorStep moving due other, pos, phase, issue_owed .., owner, req, eff, causes, waiting, issued⟩
  · refine congrArg (fun t => Host.Outcome.next (settle t)) ?_
    cases ch with
    | S => exact motionEnds_S (s := sense lv s) spent
    | P =>
      rcases alone with x | ⟨own, idle⟩ | ⟨other, unasked⟩
      · cases x
      · exact (motionEnds_print (s := sense lv s) spent own).trans (printRest_idle idle)
      · refine (motionEnds_other (s := sense lv s) spent other).trans ?_
        unfold takeWaiting
        rw [show (restedP (sense lv s)).motP.waiting = none from unasked]
        rfl
  · subst hP
    refine congrArg (fun t => Host.Outcome.next (settle t)) ((motionEnds_other (s := sense lv s) spent other).trans ?_)
    unfold takeWaiting
    rw [show (restedP (sense lv s)).motP.waiting = some (.burst n) from hw]
    rfl
  · subst hP
    refine congrArg (fun t => Host.Outcome.next (settle t)) ((motionEnds_other (s := sense lv s) spent other).trans ?_)
    unfold takeWaiting
    rw [show (restedP (sense lv s)).motP.waiting = some (.run rev req use (some n)) from hw]
    rfl

end Sys2Proof.Machine
end

section
/-! The POWER orders (R115, R116, R169 to R174). -/

set_option Elab.async false

namespace Sys2Proof.Machine

/-- The jobs, a calibration and the channels as POWER reads them, with those that refuse SLEEP and STANDBY besides (R169). -/
theorem powerBusy_iff (sleep : Bool) (s : State) :
    powerBusy sleep s = true ↔
      (s.scanJob ≠ none ∨ s.prtJob ≠ none ∨ s.front.cal ≠ none ∨ s.motS.moving = true ∨ s.motP.moving = true)
        ∨ (sleep = true ∧ (s.intJob ≠ none ∨ s.outJob ≠ none)) := by
  simp only [powerBusy, Bool.or_eq_true, Bool.and_eq_true, Option.isSome_iff_ne_none]
  tauto

/-- A POWER order written at an open port, by what its owner answers (R3, R169). -/
theorem writePower {mode mask timer : Byte} {s : State} (x : State × ReplyBody) (ho : portOpen s)
    (acts : orderPower [mode, mask, timer] s = x) :
    (Host.Outcome.next (writeOrder 0x0C [mode, mask, timer] s) : Host.Outcome State Fault Refusal) =
      .next (replied 0x0C x.2 x.1) :=
  writeOrder_done ho rfl rfl acts

/-- Settles O51: each order by what refuses it, DOZE by the power state it finds. -/
theorem powerOrdersEnterOrBegin : Obligations.PowerOrdersEnterOrBegin := by
  intro mask timer s ho wake shadow inDoze entry entering busy busySleep refused off
  have doze : powerBusy false s = true ↔ busy := (powerBusy_iff false s).trans (by simp [busy])
  have sleep : powerBusy true s = true ↔ busySleep := (powerBusy_iff true s).trans (by simp [busySleep, busy])
  have dozing : ¬busy → orderPower [1, mask, timer] s = (takeDoze mask timer.toNat s, .filled .ok [1, mask, timer]) :=
    fun free => if_neg (mt doze.1 free)
  refine ⟨fun free => ⟨fun run => ?_, fun dozes => ?_⟩, fun held => ?_, fun free => ⟨?_, ?_⟩, fun held => ⟨?_, ?_⟩⟩
  · refine (writePower _ ho (dozing free)).trans ?_
    rw [takeDoze, if_neg (by rw [run]; nofun), enterDoze_eq]
    rfl
  · refine (writePower _ ho (dozing free)).trans ?_
    rw [takeDoze, if_pos dozes]
    rfl
  · exact writePower (s, .filled .busy []) ho (if_pos (doze.2 held))
  · exact writePower (beginEntry false mask timer.toNat s, .filled .ok [2, mask, timer]) ho (if_neg (mt sleep.1 free))
  · exact writePower (beginEntry true mask timer.toNat s, .filled .ok [3, mask, timer]) ho (if_neg (mt sleep.1 free))
  · exact writePower (s, .filled .busy []) ho (if_pos (sleep.2 held))
  · exact writePower (s, .filled .busy []) ho (if_pos (sleep.2 held))

end Sys2Proof.Machine
end

section
/-! Cold starts, the wakes from STANDBY and the end of the boot state RESET (R74, R113, R174, R177, R178, R183). -/

set_option Elab.async false

namespace Sys2Proof.Machine

/-! ## The wake from STANDBY (R174) -/

/-- A cold start's refresh cycle holds the port, so no grant begins (R74). -/
theorem arbitrate_coldStart (s : State) : arbitrate (coldStart s) = coldStart s :=
  (arbitrate_busy (.inl rfl)).trans (spillReady_idle rfl)

/-- In the boot state RESET a rise of DOCP raises nothing (log entry 14). -/
theorem docIn_coldStart (s : State) : docIn (coldStart s) = coldStart s := rfl

section Standby

variable {s : State} (standby : s.power.state = .standby)
include standby

theorem wakeEvent_standby (r : Nat) : wakeEvent r s = standbyWake r s := by
  unfold wakeEvent
  rw [standby]

theorem docIn_standby (l : Lines) : docIn { s with lines := l } = { s with lines := l } := by
  have off : coreRuns { s with lines := l } = false := by simp [coreRuns, standby]
  rw [docIn, off]
  rfl

/-- The rise of a line of the mask wakes the part. -/
theorem wakeRise_wakes (entry : s.power.entry = none) {bit : Nat} (masked : s.power.mask.getLsbD bit = true) (r : Nat)
    (mark : Risen → Risen) (l : Lines) : wakeRise bit r mark { s with lines := l } = standbyWake r { s with lines := l } := by
  unfold wakeRise
  dsimp only
  rw [entry]
  exact (if_pos masked).trans (wakeEvent_standby (s := { s with lines := l }) standby r)

end Standby

/-- The rise of a line outside the mask wakes nothing. -/
theorem wakeRise_outside {s : State} (entry : s.power.entry = none) {bit : Nat} (unmasked : s.power.mask.getLsbD bit = false)
    (r : Nat) (mark : Risen → Risen) (l : Lines) : wakeRise bit r mark { s with lines := l } = { s with lines := l } := by
  unfold wakeRise
  dsimp only
  rw [entry]
  exact if_neg (ne_true_of_eq_false unmasked)

/-- A part in STANDBY has the port of its DRAM at rest in self-refresh. -/
theorem arbitrate_resting {s : State} (inRefresh : s.pmc.selfRefresh = true) (idle : s.spill = .idle) : arbitrate s = s :=
  (arbitrate_busy (.inr inRefresh)).trans (spillReady_idle idle)

/-! ## The end of the boot state RESET (R113, R177, R178) -/

/-- BOOTSRC sampled, SPILLCHECK begun at 4 MiB. -/
def checkBegun (s : State) : State :=
  { s with boot := { s.boot with state := .spillcheck, strap := s.lines.bootsrc }, spill := .check .m4 }

theorem leaveReset_eq {s : State} (low : s.lines.pfail = false) :
    leaveReset s = if s.lines.cover then checkBegun s else coverFound (checkBegun s) := by
  have stays : (if s.lines.cover then checkBegun s else coverFound (checkBegun s)).lines.pfail = false := by
    split <;> exact low
  exact if_neg (ne_true_of_eq_false stays)

/-- What the end of the boot state RESET leaves, with the cover open as with it closed. -/
theorem leaveReset_begins {s : State} (low : s.lines.pfail = false) :
    (leaveReset s).boot.state = .spillcheck ∧ (leaveReset s).boot.strap = s.lines.bootsrc
      ∧ (leaveReset s).spill = .check .m4 ∧ (leaveReset s).dram = s.dram ∧ (leaveReset s).lines = s.lines := by
  rw [leaveReset_eq low]
  split <;> exact ⟨rfl, rfl, rfl, rfl, rfl⟩

theorem coverFound_faults (s : State) :
    (coverFound s).motS.state = .fault ∧ (coverFound s).motP.state = .fault
      ∧ ((coverFound s).events.flags[evCover]).set = true :=
  ⟨cutOff_fault .., cutOff_fault .., raise_set evCover 0 0 0 s⟩

/-- The lines sensed and RESET low, as the boot state RESET ends. -/
def released (lv : Levels) (s : State) : State :=
  { sense lv s with lines := { (sense lv s).lines with reset := false } }

theorem released_eq {lv : Levels} {s : State} (low : s.lines.reset = false) : released lv s = sense lv s := by
  have same : (sense lv s).lines.reset = false := low
  rw [released, ← same]

section Ends

variable {s : State} (calm : s.power.pfail = .inactive)
include calm

theorem resetReleased_leaves (asserted : s.lines.reset = true) :
    resetReleased s = leaveReset { s with lines := { s.lines with reset := false } } :=
  (if_pos asserted).trans (if_pos calm)

theorem resetStateEnds_leaves (reset : s.boot.state = .reset) (freed : s.lines.reset = false) :
    resetStateEnds s = leaveReset s :=
  (if_pos ⟨reset, by rw [freed]; rfl⟩).trans (if_pos calm)

end Ends

/-- Settles O58: each cold start by the record it leaves, the wake by the mask, the end of RESET by the cover. -/
theorem coldStartsAndStandbyWakes : Obligations.ColdStartsAndStandbyWakes := by
  constructor
  · intro lv s cold
    refine ⟨fun high hold => ?_, rfl, rfl, fun _ _ => ⟨rfl, rfl, rfl⟩, fun standby entry =>
      ⟨fun low bit => ?_, fun low bit => ?_, fun low bit => ?_, fun n timed => ?_, fun inRefresh idle =>
        ⟨fun low bit => ?_, fun low bit => ?_, fun low bit => ?_⟩⟩⟩
    · exact congrArg Host.Outcome.next ((if_pos high).trans (if_pos hold))
    · have rises : ringRises s = standbyWake 1 { s with lines := { s.lines with ring := true } } :=
        (if_neg (ne_true_of_eq_false low)).trans (wakeRise_wakes standby entry bit ..)
      exact congrArg Host.Outcome.next ((congrArg arbitrate rises).trans (arbitrate_coldStart _))
    · have rises : keyRises s = standbyWake 2 { s with lines := { s.lines with key := true } } :=
        (if_neg (ne_true_of_eq_false low)).trans (wakeRise_wakes standby entry bit ..)
      exact congrArg Host.Outcome.next ((congrArg arbitrate rises).trans (arbitrate_coldStart _))
    · have rises : docpRises s = standbyWake 3 { s with lines := { s.lines with docp := true } } :=
        ((if_neg (ne_true_of_eq_false low)).trans (congrArg docIn (wakeRise_wakes standby entry bit ..))).trans
          (docIn_coldStart _)
      exact congrArg Host.Outcome.next ((congrArg arbitrate rises).trans (arbitrate_coldStart _))
    · have off : (mapPower (fun p => { p with wakeTimer := none }) s).power.state = .standby := standby
      have expires : wakeTimerExpires s = standbyWake 4 (mapPower (fun p => { p with wakeTimer := none }) s) :=
        (if_pos (by rw [timed]; rfl)).trans (wakeEvent_standby off 4)
      exact congrArg Host.Outcome.next ((congrArg arbitrate expires).trans (arbitrate_coldStart _))
    · have rises : ringRises s = { s with lines := { s.lines with ring := true } } :=
        (if_neg (ne_true_of_eq_false low)).trans (wakeRise_outside entry bit ..)
      exact congrArg Host.Outcome.next ((congrArg arbitrate rises).trans (arbitrate_resting inRefresh idle))
    · have rises : keyRises s = { s with lines := { s.lines with key := true } } :=
        (if_neg (ne_true_of_eq_false low)).trans (wakeRise_outside entry bit ..)
      exact congrArg Host.Outcome.next ((congrArg arbitrate rises).trans (arbitrate_resting inRefresh idle))
    · have rises : docpRises s = { s with lines := { s.lines with docp := true } } :=
        ((if_neg (ne_true_of_eq_false low)).trans (congrArg docIn (wakeRise_outside entry bit ..))).trans
          (docIn_standby standby _)
      exact congrArg Host.Outcome.next ((congrArg arbitrate rises).trans (arbitrate_resting inRefresh idle))
  · intro lv s reset calm low
    have quiet : (released lv s).lines.pfail = false := low
    obtain ⟨boot, strap, spill, dram, lines⟩ := leaveReset_begins quiet
    refine ⟨leaveReset (released lv s), fun asserted => ⟨?_, congrArg Lines.reset lines⟩, fun freed => ?_, boot, strap,
      spill, dram, fun opened => ?_, fun shut => ?_⟩
    · exact congrArg (fun t => Host.Outcome.next (settle t)) (resetReleased_leaves (s := sense lv s) calm asserted)
    · rw [released_eq freed]
      exact congrArg (fun t => Host.Outcome.next (settle t)) (resetStateEnds_leaves (s := sense lv s) calm reset freed)
    · have found : leaveReset (released lv s) = coverFound (checkBegun (released lv s)) :=
        (leaveReset_eq quiet).trans (if_neg (ne_true_of_eq_false opened))
      rw [found]
      exact coverFound_faults (checkBegun (released lv s))
    · have kept : leaveReset (released lv s) = checkBegun (released lv s) := (leaveReset_eq quiet).trans (if_pos shut)
      rw [kept]
      exact ⟨rfl, rfl, rfl⟩

end Sys2Proof.Machine
end

section
/-! COVER's opening in every power state, the latch of the wake section, and RESUME (R106, R112 to R114, R152, R173, R176). -/

set_option Elab.async false

namespace Sys2Proof.Machine

/-! ## A channel cut off (R112) -/

theorem cutOff_phase (m : Motor) (add : Causes) : (m.cutOff add).phase = m.phase := by
  unfold Motor.cutOff
  dsimp only
  split <;> rfl

/-- The causes of a channel's FAULT gather. -/
theorem cutOff_causes (m : Motor) (add : Causes) :
    (m.cutOff add).causes =
      { cover := m.causes.cover || add.cover, pfail := m.causes.pfail || add.pfail, jam := m.causes.jam || add.jam } := by
  unfold Motor.cutOff
  dsimp only
  split <;> rfl

theorem cutOff_cover (m : Motor) : (m.cutOff byCover).causes.cover = true :=
  (congrArg Causes.cover (cutOff_causes m byCover)).trans (Bool.or_true _)

/-- A fault that follows leaves the cause COVER standing. -/
theorem cutOff_keeps_cover {m : Motor} (h : m.causes.cover = true) (add : Causes) : (m.cutOff add).causes.cover = true := by
  refine (congrArg Causes.cover (cutOff_causes m add)).trans ?_
  show (m.causes.cover || add.cover) = true
  rw [h, Bool.true_or]

/-! ## The jobs at COVER's opening (R113) -/

/-- What the SCAN job's part in a fault leaves beside the job, its pages and its ring. -/
structure BesideScanJob (s t : State) : Prop where
  motS   : t.motS = s.motS
  motP   : t.motP = s.motP
  lines  : t.lines = s.lines
  tables : t.tables = s.tables
  temp   : t.temp = s.temp
  power  : t.power = s.power
  port   : t.port = s.port
  flags  : FlagsStand s t

theorem scanFaulted_leaves {s : State} (faulted : s.motS.state = .fault) : BesideScanJob s (scanFaulted s) := by
  unfold scanFaulted
  split
  · exact ⟨rfl, rfl, rfl, rfl, rfl, rfl, rfl, .refl s⟩
  · next j hj =>
    split
    · have shell := shell_settleScanPages .policy j.policy s
      exact ⟨shell.motS, shell.motP, shell.lines, shell.tables, shell.temp, shell.power, shell.port,
        ⟨(stand_settleScanPages .policy j.policy s).flag⟩⟩
    · rw [scanDecision_quits (how := .policy) nofun 4 none hj]
      generalize hu : ({ s with scanJob := some (j.decided 4 _) } : State) = u
      have shell := shell_settleScanPages .policy j.policy u
      have stands := stand_settleScanPages .policy j.policy u
      generalize settleScanPages .policy j.policy u = v at shell stands ⊢
      subst hu
      exact ⟨(congrArg (Motor.stop · 0) shell.motS).trans (stop_fault faulted 0), shell.motP, shell.lines, shell.tables,
        shell.temp, shell.power, shell.port, ⟨stands.flag⟩⟩

/-! ## COVER's opening with the core at rest (R113, R173) -/

section Shut

variable {s : State} (closed : s.lines.cover = true)
include closed

theorem coverFalls_asleep (sleep : s.power.state = .sleep) (still : s.power.returning = none) (past : s.boot.state ≠ .reset) :
    coverFalls s = { s with lines := { s.lines with cover := false }, power := { s.power with coverLatch := true } } := by
  unfold coverFalls coverOpened
  rw [if_pos closed, if_neg (by simp [sleep, past])]
  exact if_pos ⟨sleep, still⟩

theorem coverFalls_unseen (unseen : s.power.state = .standby ∨ s.boot.state = .reset) :
    coverFalls s = { s with lines := { s.lines with cover := false } } :=
  (if_pos closed).trans (if_pos unseen)

end Shut

/-- With no job and the DRAM in self-refresh nothing follows outside RUN. -/
theorem settle_asleep {s : State} (away : s.power.state ≠ .run) (quiet : Quiet s) (unidle : s.power.idleTimer = none)
    (idle : s.spill = .idle) (inRefresh : s.pmc.selfRefresh = true) : settle s = s := by
  have stopped : updateIdle s = s := by
    have off : idleConds s = false := by simp [idleConds, away]
    unfold updateIdle
    rw [if_neg (ne_true_of_eq_false off), setIdle, mapPower, ← unidle]
  rw [settle_quiet quiet, stopped]
  exact arbitrate_resting inRefresh idle

/-! ## The latch taken at the wake (R173) -/

/-- The opening that SLEEP latched has been told: both channels in FAULT with COVER among their causes, COVER set with an empty
snapshot where the flags `e` had it clear, and no WAKE yet. -/
structure LatchTold (e : Events) (t : State) : Prop where
  motS  : t.motS.state = .fault ∧ t.motS.causes.cover = true
  motP  : t.motP.state = .fault ∧ t.motP.causes.cover = true
  latch : t.power.coverLatch = false
  set   : (t.events.flags[evCover]).set = true
  fresh : (e.flags[evCover]).set = false →
    (t.events.flags[evCover]).page = 0 ∧ (t.events.flags[evCover]).chan = 0 ∧ (t.events.flags[evCover]).reason = 0
      ∧ (t.events.flags[evCover]).again = false
  wake  : t.events.flags[evWake] = e.flags[evWake]

/-- What has been told stands through a change that leaves the faults, the latch and the two flags. -/
theorem LatchTold.later {e : Events} {t u : State} (h : LatchTold e t)
    (motS : u.motS.state = .fault ∧ u.motS.causes.cover = true) (motP : u.motP.state = .fault ∧ u.motP.causes.cover = true)
    (latch : u.power.coverLatch = t.power.coverLatch) (cover : u.events.flags[evCover] = t.events.flags[evCover])
    (wake : u.events.flags[evWake] = t.events.flags[evWake]) : LatchTold e u := by
  refine ⟨motS, motP, latch.trans h.latch, ?_, ?_, wake.trans h.wake⟩
  · rw [cover]
    exact h.set
  · rw [cover]
    exact h.fresh

/-- The core started again out of SLEEP, the latch cleared, as the opening is to be found. -/
def unlatched (s : State) : State :=
  { s with power := { s.power with wakeTimer := none, coverLatch := false },
           pmc := { s.pmc with selfRefresh := false, refreshDue := true } }

theorem leaveSleep_finds {s : State} (latched : s.power.coverLatch = true) :
    leaveSleep s = readShadow s.power.shadow (coverFound (unlatched s)) :=
  congrArg (readShadow s.power.shadow) (if_pos latched)

/-- The core leaves SLEEP with an opening latched. -/
theorem leaveSleep_latched {s : State} (latched : s.power.coverLatch = true) : LatchTold s.events (leaveSleep s) := by
  rw [leaveSleep_finds latched]
  exact ⟨⟨cutOff_fault .., cutOff_cover _⟩, ⟨cutOff_fault .., cutOff_cover _⟩, rfl, raise_set evCover 0 0 0 (unlatched s),
    fun clear => raise_snapshot (s := unlatched s) clear 0 0 0, raise_other evCover evWake 0 0 0 (unlatched s) (by decide)⟩

theorem docIn_told {e : Events} {t : State} (h : LatchTold e t) :
    LatchTold e (docIn t) ∧ (docIn t).power.returning = t.power.returning := by
  unfold docIn
  split
  · exact ⟨h.later h.motS h.motP rfl (raise_other evDocIn evCover 0 0 0 t (by decide))
      (raise_other evDocIn evWake 0 0 0 t (by decide)), rfl⟩
  · exact ⟨h, rfl⟩

/-- A state in SLEEP with no entry and no return under way, the cover's opening latched. -/
structure LatchedAsleep (s : State) : Prop where
  state : s.power.state = .sleep
  entry : s.power.entry = none
  ret   : s.power.returning = none
  latch : s.power.coverLatch = true

section Wakes

variable {s : State} (h : LatchedAsleep s)
include h

theorem LatchedAsleep.lines (l : Lines) : LatchedAsleep { s with lines := l } := ⟨h.state, h.entry, h.ret, h.latch⟩

/-- A wake event tells the opening and begins the return, its WAKE still to come. -/
theorem LatchedAsleep.wake (r : Nat) :
    LatchTold s.events (sleepWake r s) ∧ (sleepWake r s).power.returning = some r := by
  have told := leaveSleep_latched h.latch
  have still : (leaveSleep s).power.returning = none := by
    obtain ⟨-, -, -, ret, -⟩ := leaveSleep_power s
    exact ret.trans h.ret
  have wakes : sleepWake r s = { leaveSleep s with power := { (leaveSleep s).power with returning := some r } } := by
    unfold sleepWake
    rw [if_neg (by rw [h.ret]; nofun)]
    exact beginReturn_none still
  rw [wakes]
  exact ⟨told.later told.motS told.motP rfl rfl rfl, rfl⟩

theorem LatchedAsleep.rise {bit : Nat} (masked : s.power.mask.getLsbD bit = true) (r : Nat) (mark : Risen → Risen) :
    wakeRise bit r mark s = sleepWake r s := by
  unfold wakeRise wakeEvent
  rw [h.entry, h.state]
  exact if_pos masked

end Wakes

/-! ## A power-fail warning in SLEEP (R176) -/

theorem stand_fold {f : State → Nat → State} (hf : ∀ s i, FlagsStand s (f s i)) (is : List Nat) :
    ∀ s : State, FlagsStand s (is.foldl f s) := by
  induction is with
  | nil => exact .refl
  | cons i is ih => exact fun s => (hf s i).trans (ih _)

theorem stand_completeAtPfail (s : State) (id : Nat) : FlagsStand s (completeAtPfail s id) := by
  unfold completeAtPfail
  refine stand_ite (stand_completePage ..) (stand_ite (stand_completePage ..) ?_)
  exact FlagsStand.trans (t := markComplete id true s) (.of_events rfl) (stand_settleEmpty ..)

theorem stand_pagesAtPfail (s : State) : FlagsStand s (pagesAtPfail s) := by
  have readers (u : State) (i : Nat) : FlagsStand u (dropReaders u i) := (stand_removeReader ..).trans (stand_removeReader ..)
  exact (stand_fold stand_completeAtPfail _ s).trans (stand_fold readers _ _)

/-- The end of all jobs and the spill due leave the channels, the latch and the flags. -/
theorem spillDue_leaves (u : State) :
    (spillDue u).motS = u.motS ∧ (spillDue u).motP = u.motP ∧ (spillDue u).power.coverLatch = u.power.coverLatch
      ∧ (spillDue u).power.returning = none ∧ (spillDue u).events = u.events := by
  obtain ⟨g, r, gone⟩ := jobsGone_eq u
  unfold spillDue
  rw [gone]
  exact ⟨rfl, rfl, rfl, rfl, rfl⟩

/-- The part as a warning finds it in SLEEP: out of SLEEP, both channels cut off. -/
def warnedAsleep (s : State) : State := cutOffBoth byPfail (leaveSleep { s with lines := { s.lines with pfail := true } })

/-- With no STANDBY entry under way the sequence ends the jobs and makes a spill. -/
theorem pfailLineRises_asleep {s : State} (h : LatchedAsleep s) (low : s.lines.pfail = false)
    (calm : s.power.pfail = .inactive) (ready : s.boot.state = .ready) :
    pfailLineRises s = spillDue (pagesAtPfail (withdrawWaits (warnedAsleep s))) := by
  have entry : (warnedAsleep s).power.entry = none := by
    obtain ⟨-, entry, -⟩ := leaveSleep_power { s with lines := { s.lines with pfail := true } }
    exact entry.trans h.entry
  have unbegun : spillBegun (warnedAsleep s) = false := by
    unfold spillBegun
    rw [entry]
  unfold pfailLineRises pfailRises
  rw [if_neg (ne_true_of_eq_false low), if_neg (by simp [calm, h.state]), if_neg (by simp [ready]),
    if_pos ⟨h.state, h.ret⟩]
  exact if_neg (ne_true_of_eq_false unbegun)

theorem LatchedAsleep.warned {s : State} (h : LatchedAsleep s) (low : s.lines.pfail = false)
    (calm : s.power.pfail = .inactive) (ready : s.boot.state = .ready) :
    let t := pfailLineRises s
    LatchTold s.events t ∧ t.motS.causes.pfail = true ∧ t.motP.causes.pfail = true ∧ t.power.returning = none := by
  rw [pfailLineRises_asleep h low calm ready, warnedAsleep]
  have told := leaveSleep_latched (s := { s with lines := { s.lines with pfail := true } }) h.latch
  generalize leaveSleep { s with lines := { s.lines with pfail := true } } = v at told ⊢
  have shell := shell_pagesAtPfail (withdrawWaits (cutOffBoth byPfail v))
  have stands := stand_pagesAtPfail (withdrawWaits (cutOffBoth byPfail v))
  generalize pagesAtPfail (withdrawWaits (cutOffBoth byPfail v)) = u at shell stands ⊢
  obtain ⟨motS, motP, latch, ret, events⟩ := spillDue_leaves u
  have cutS : (spillDue u).motS = v.motS.cutOff byPfail := motS.trans shell.motS
  have cutP : (spillDue u).motP = v.motP.cutOff byPfail := motP.trans shell.motP
  have flag (f : Fin 20) (a : f ≠ evMemWait) (b : f ≠ evParity) (c : f ≠ evScanPage) :
      (spillDue u).events.flags[f] = v.events.flags[f] := (congrArg (·.flags[f]) events).trans (stands.flag f a b c)
  refine ⟨told.later ?_ ?_ (latch.trans (congrArg Power.coverLatch shell.power)) (flag _ (by decide) (by decide) (by decide))
    (flag _ (by decide) (by decide) (by decide)), ?_, ?_, ret⟩
  · rw [cutS]
    exact ⟨cutOff_fault .., cutOff_keeps_cover told.motS.2 _⟩
  · rw [cutP]
    exact ⟨cutOff_fault .., cutOff_keeps_cover told.motP.2 _⟩
  · rw [cutS]
    exact cutOff_pfail _
  · rw [cutP]
    exact cutOff_pfail _

/-! ## RESUME (R114, R152) -/

section Resume

variable {lv : Levels} {s : State}

theorem exec_resume {c : Byte} (ho : portOpen s) :
    exec (.resume c lv) s =
      .next (replied 0x09 (orderResume [c] (sense lv s)).2 (orderResume [c] (sense lv s)).1) :=
  writeOrder_done (s := sense lv s) ho rfl rfl rfl

/-- A faulted channel is cleared where the cover is closed and no warning stands (R114). -/
theorem orderResume_faulted {ch : Channel} (faulted : (motorOf ch s).state = .fault) :
    orderResume [channelByte ch] s =
      if s.lines.cover && !s.lines.pfail then
        (setMotor ch { motorOf ch s with state := .off, causes := Causes.reset } s,
          .filled .ok [channelByte ch, BitVec.ofNat 8 (motorOf ch s).causes.code])
      else (s, .filled .state []) := by
  have known : channelOf? (byteAt [channelByte ch] 0) = some ch := channelOf_channelByte ch
  unfold orderResume
  rw [known]
  exact if_pos (decide_eq_true faulted)

theorem orderResume_S (sound : s.motS.state ≠ .fault) : orderResume [0] s = (s, .filled .state []) :=
  if_neg (ne_true_of_eq_false (decide_eq_false sound))

/-- RESUME of a channel P that is not faulted goes to the Print Engine (R152). -/
theorem orderResume_P (sound : s.motP.state ≠ .fault) : orderResume [1] s = printResume [1] s :=
  if_neg (ne_true_of_eq_false (decide_eq_false sound))

theorem printResume_refused {a : List Byte} (idle : ∀ j, s.prtJob = some j → j.cycle ≠ .suspended ∨ s.lines.papr = false) :
    printResume a s = (s, .filled .state []) := by
  unfold printResume
  split
  · rfl
  · next j hj =>
    refine if_pos ((idle j hj).imp id fun out => ?_)
    rw [out]
    rfl

theorem printResume_taken {a : List Byte} {j : PrintJob} (hj : s.prtJob = some j) (suspended : j.cycle = .suspended)
    (paper : s.lines.papr = true) : printResume a s = (resumePrint j s, .filled .ok a) := by
  unfold printResume
  rw [hj]
  exact if_neg (by simp [suspended, paper])

/-! ## The owed steps of a job taken up (R152) -/

/-- A burst asked of channel P at rest is taken (R105). -/
theorem requestP_burst (rest : s.motP.atRest = true) (n : Nat) : requestP (.burst n) s = (takeBurst n s, true) := by
  have sound : s.motP.faulted = false := decide_eq_false (atRest_fault rest)
  unfold requestP
  rw [sound, rest_still rest]
  rfl

/-- The job of `s` waits for steps asked of channel P. -/
def stepsAsked (kind : Stepping) (j : PrintJob) (s : State) : State :=
  { s with prtJob := some { j with cycle := .stepping, stepping := some kind } }

/-- Steps asked of channel P that are not refused. -/
theorem askSteps_taken {kind : Stepping} {r : MotorRequest} {n : Nat} {t : State} {j : PrintJob} (hj : s.prtJob = some j)
    (going : j.cycle ≠ .ending) (taken : requestP r (stepsAsked kind j s) = (t, true)) : askSteps kind r n s = t := by
  have asked : mapPrtJob (fun j =>
      { j with stepping := some kind, cycle := if j.cycle = .ending then .ending else .stepping }) s = stepsAsked kind j s := by
    unfold mapPrtJob stepsAsked
    rw [hj, Option.map_some, if_neg going]
  unfold askSteps
  rw [asked, taken]
  rfl

/-- The job as it is taken up: its history white (R152). -/
def PrintJob.whitened (j : PrintJob) : PrintJob := { j with h1 := whiteLine, h2 := whiteLine }

variable {j : PrintJob}

theorem resumePrint_none (owes : j.owed = 0) (exit : j.owedExit = false) :
    resumePrint j s = { s with prtJob := some { j.whitened with cycle := .lineStart } } := by
  unfold resumePrint
  dsimp only
  rw [if_neg (ne_true_of_eq_false exit), if_neg (by omega)]
  rfl

theorem resumePrint_burst (rest : s.motP.atRest = true) (owes : 0 < j.owed) (exit : j.owedExit = false) :
    resumePrint j s =
      { s with
        motP := (s.motP.beginBurst .print j.owed).issue (rampTable .P s) (phaseCount (phaseTable .P s)),
        prtJob := some { j.whitened with cycle := .stepping, stepping := some .owedBurst } } := by
  unfold resumePrint
  dsimp only
  rw [if_neg (ne_true_of_eq_false exit), if_pos owes]
  exact askSteps_taken (j := { j.whitened with cycle := .stepping }) rfl nofun 
    (requestP_burst (s := stepsAsked .owedBurst j.whitened s) rest j.owed)

theorem resumePrint_exit (rest : s.motP.atRest = true) (owes : 0 < j.owed) (exit : j.owedExit = true) :
    resumePrint j s =
      { s with
        motP := (s.motP.beginRun (rampCount (rampTable .P s)) .print false (rampCount (rampTable .P s) - 1)
          (rampCount (rampTable .P s) - 1) (some j.owed)).issue (rampTable .P s) (phaseCount (phaseTable .P s)),
        prtJob := some { j.whitened with cycle := .stepping, stepping := some .pageExit } } := by
  unfold resumePrint
  dsimp only
  rw [if_pos exit, if_pos owes]
  exact askSteps_taken (j := { j.whitened with cycle := .stepping }) rfl nofun 
    (requestP_atRest (s := stepsAsked .pageExit j.whitened s) rest ..)

end Resume

/-! ## The statement -/

/-- The state that COVER's opening leads to in RUN and DOZE, before what follows at once. -/
def coverTold (s : State) : State := printFaulted (printOwed s.motP) (scanFaulted (coverRaised s))

theorem coverTold_leaves (s : State) : BesideScanJob (coverRaised s) (coverTold s) := by
  have b := scanFaulted_leaves (s := coverRaised s) (cutOff_fault ..)
  exact ⟨b.motS, b.motP, b.lines, b.tables, b.temp, b.power, b.port, ⟨b.flags.flag⟩⟩

theorem coverTold_motor (s : State) (ch : Channel) : motorOf ch (coverTold s) = (motorOf ch s).cutOff byCover := by
  cases ch with
  | S => exact (coverTold_leaves s).motS
  | P => exact (coverTold_leaves s).motP

theorem coverTold_set (s : State) : ((coverTold s).events.flags[evCover]).set = true := by
  rw [(coverTold_leaves s).flags.flag evCover (by decide) (by decide) (by decide)]
  exact raise_set ..

/-- Settles O43: the opening by the power state, the wake by the event, RESUME by the channel's state and the job's. -/
theorem coverFaultsAndResume : Obligations.CoverFaultsAndResume := by
  refine ⟨fun s closed on past => ?_, fun s closed => ⟨fun sleep still past => ?_, fun unseen => ?_⟩,
    fun s away quiet unidle idle inRefresh => ?_, fun s sleep entry ret latch => ?_, fun ch lv s ho => ?_,
    fun lv s j ho rest hj suspended paper => ?_⟩
  · have beside := coverTold_leaves s
    have cut := coverTold_motor s
    have down (ch : Channel) : (motorOf ch (coverTold s)).state = .fault := by rw [cut]; exact cutOff_fault ..
    have cause (ch : Channel) : (motorOf ch (coverTold s)).causes.cover = true := by rw [cut]; exact cutOff_cover _
    have pos (ch : Channel) : (motorOf ch (coverTold s)).pos = (motorOf ch s).pos := by rw [cut]; exact cutOff_pos ..
    have phase (ch : Channel) : (motorOf ch (coverTold s)).phase = (motorOf ch s).phase := by rw [cut]; exact cutOff_phase ..
    refine ⟨coverTold s, exec_coverOpen closed on past, down .S, down .P, cause .S, cause .P,
      fun ch => low_outputs (low_of_fault (down ch)) _, pos .S, pos .P, phase .S, phase .P, coverTold_set s, beside.lines,
      beside.tables, beside.temp, beside.power, beside.port, fun ch moving own => ?_⟩
    rw [cut]
    obtain ⟨plan, owner, told⟩ := cutOff_tells byCover moving
    exact ⟨plan, owner, told.trans (report_moving moving own)⟩
  · exact congrArg (fun t => Host.Outcome.next (settle t)) (coverFalls_asleep closed sleep still past)
  · exact congrArg (fun t => Host.Outcome.next (settle t)) (coverFalls_unseen closed unseen)
  · exact settle_asleep (by rcases away with h | h <;> rw [h] <;> nofun) quiet unidle idle inRefresh
  · intro told woken
    have asleep : LatchedAsleep s := ⟨sleep, entry, ret, latch⟩
    have items {t : State} (h : LatchTold s.events t) : told t :=
      ⟨h.motS.1, h.motP.1, h.motS.2, h.motP.2, h.latch, h.set, h.fresh, h.wake⟩
    refine ⟨fun d together lv => ?_, fun low masked => ?_, fun low masked => ?_, fun low masked => ?_, fun timed => ?_,
      fun low calm ready => ?_⟩
    · obtain ⟨h, r⟩ := (asleep.lines (sense lv s).lines).wake 5
      exact ⟨_, congrArg Host.Outcome.next (if_pos sleep), items h, r⟩
    · have awake := asleep.lines { s.lines with ring := true }
      obtain ⟨h, r⟩ := awake.wake 1
      have rises : ringRises s = _ := (if_neg (ne_true_of_eq_false low)).trans (awake.rise masked 1 _)
      exact ⟨_, congrArg (fun t => Host.Outcome.next (arbitrate t)) rises, items h, r⟩
    · have awake := asleep.lines { s.lines with key := true }
      obtain ⟨h, r⟩ := awake.wake 2
      have rises : keyRises s = _ := (if_neg (ne_true_of_eq_false low)).trans (awake.rise masked 2 _)
      exact ⟨_, congrArg (fun t => Host.Outcome.next (arbitrate t)) rises, items h, r⟩
    · have awake := asleep.lines { s.lines with docp := true }
      obtain ⟨h, r⟩ := awake.wake 3
      obtain ⟨seen, same⟩ := docIn_told h
      have rises : docpRises s = _ := (if_neg (ne_true_of_eq_false low)).trans (congrArg docIn (awake.rise masked 3 _))
      exact ⟨_, congrArg (fun t => Host.Outcome.next (arbitrate t)) rises, items seen, same.trans r⟩
    · have untimed : LatchedAsleep (mapPower (fun p => { p with wakeTimer := none }) s) := ⟨sleep, entry, ret, latch⟩
      obtain ⟨h, r⟩ := untimed.wake 4
      have expires : wakeTimerExpires s = sleepWake 4 (mapPower (fun p => { p with wakeTimer := none }) s) := by
        rw [wakeTimerExpires, if_pos timed, wakeEvent, untimed.state]
      exact ⟨_, congrArg (fun t => Host.Outcome.next (arbitrate t)) expires, items h, r⟩
    · obtain ⟨h, S, P, r⟩ := asleep.warned low calm ready
      exact ⟨_, rfl, items h, S, P, r⟩
  · intro c refused
    have byte : c = channelByte ch := by cases ch <;> rfl
    have same : motorOf ch (sense lv s) = motorOf ch s := by cases ch <;> rfl
    have refuses (h : orderResume [c] (sense lv s) = (sense lv s, .filled .state [])) : refused := by
      show exec (.resume c lv) s = _
      rw [exec_resume ho, h]
    have clears (faulted : (motorOf ch s).state = .fault) := orderResume_faulted (s := sense lv s) (same ▸ faulted)
    rw [same, ← byte] at clears
    refine ⟨fun faulted closed low => ?_, fun faulted held => refuses ?_, fun hS sound => refuses ?_,
      fun hP sound unfit => refuses ?_, fun j hP sound hj going => refuses ?_⟩
    · have free : ((sense lv s).lines.cover && !(sense lv s).lines.pfail) = true :=
        Bool.and_eq_true_iff.2 ⟨closed, congrArg not low⟩
      rw [exec_resume ho, clears faulted, if_pos free]
    · have held : ((sense lv s).lines.cover && !(sense lv s).lines.pfail) = false :=
        held.elim (fun opened => by rw [opened, Bool.false_and])
          (fun warning => Bool.and_eq_false_iff.2 (.inr (congrArg not warning)))
      rw [clears faulted, if_neg (ne_true_of_eq_false held)]
    · subst hS
      exact orderResume_S (s := sense lv s) sound
    · subst hP
      refine (orderResume_P (s := sense lv s) sound).trans (printResume_refused fun j hj => ?_)
      exact unfit.elim (fun none => nomatch (none.symm.trans hj)) .inr
    · subst hP
      refine (orderResume_P (s := sense lv s) sound).trans (printResume_refused fun k hk => .inl ?_)
      obtain rfl := Option.some.inj (hj.symm.trans hk)
      exact going
  · intro resumed white ramp patterns
    have taken : orderResume [1] (sense lv s) = (resumePrint j (sense lv s), .filled .ok [1]) :=
      (orderResume_P (s := sense lv s) (atRest_fault rest)).trans (printResume_taken (s := sense lv s) hj suspended paper)
    have answered := exec_resume (c := 1) (lv := lv) ho
    rw [taken] at answered
    refine ⟨fun owes exit => ?_, fun owes exit => ?_, fun owes exit => ?_⟩
    · rw [resumePrint_none owes exit] at answered
      exact answered
    · rw [resumePrint_burst (s := sense lv s) rest owes exit] at answered
      exact answered
    · rw [resumePrint_exit (s := sense lv s) rest owes exit] at answered
      exact answered

end Sys2Proof.Machine
end

section
/-! The SCAN order: its checks, the run as it starts (R119 to R121). -/

set_option Elab.async false

namespace Sys2Proof.Machine

/-! ## The owner's checks (R119) -/

section Checks

variable {s : State}

/-- The checks of R119 in their order. -/
theorem scanRefusal_eq :
    scanRefusal s =
      if s.scanJob ≠ none ∨ s.front.cal ≠ none ∨ s.motS.atRest = false then some .busy
      else if s.lines.docp = false then some .state
      else if ∃ id ∈ scanNeeds, s.tables.active[id] = none then some .notable
      else if 32 ≤ s.dir.entries.length + s.dir.places then some .nodir
      else none := by
  have busy : (s.scanJob.isSome || s.front.cal.isSome || !s.motS.atRest) = true
      ↔ s.scanJob ≠ none ∨ s.front.cal ≠ none ∨ s.motS.atRest = false := by
    simp [Option.isSome_iff_ne_none, or_assoc]
  have bare : (!s.lines.docp) = true ↔ s.lines.docp = false := by simp
  have lacking : (!allPresent scanNeeds s) = true ↔ ∃ id ∈ scanNeeds, s.tables.active[id] = none := by
    simp [allPresent, activeOf]
  have full : (!hasRoom s) = true ↔ 32 ≤ s.dir.entries.length + s.dir.places := by
    unfold hasRoom
    rw [Bool.not_eq_true', decide_eq_false_iff_not, Nat.not_lt]
    rfl
  exact if_congr busy rfl (if_congr bare rfl (if_congr lacking rfl (if_congr full rfl rfl)))

/-- No job, no calibration and channel S at rest: the check for BUSY passes. -/
theorem not_scanBusy (job : s.scanJob = none) (cal : s.front.cal = none) (rest : s.motS.atRest = true) :
    ¬ (s.scanJob ≠ none ∨ s.front.cal ≠ none ∨ s.motS.atRest = false) := by
  simp [job, cal, rest]

/-- Every table a scan needs is present: the check for NOTABLE passes. -/
theorem not_scanLacking (tables : ∀ id ∈ scanNeeds, (s.tables.active[id]).isSome = true) :
    ¬ ∃ id ∈ scanNeeds, s.tables.active[id] = none :=
  fun ⟨id, needed, absent⟩ => Option.isSome_iff_ne_none.1 (tables id needed) absent

end Checks

/-! ## The order at the port (R3, R119) -/

/-- The order as the host writes it (1.10). -/
def scanBytes (purpose : Origin) (res : Resolution) (stamp : Bool) (policy : Policy) (zoom limit slew : Byte) : List Byte :=
  [BitVec.ofNat 8 purpose.code, BitVec.ofNat 8 res.code, zoom, if stamp then 1 else 0, BitVec.ofNat 8 policy.code, limit, slew]

/-- The coded values of an order are those it was spelled from (R6). -/
theorem scanBytes_read {purpose : Origin} (res : Resolution) (stamp : Bool) (policy : Policy) (zoom limit slew : Byte)
    (origin : purpose ≠ .intake) :
    let p := scanBytes purpose res stamp policy zoom limit slew
    purposeOf? (byteAt p 0) = some purpose ∧ Resolution.ofCode? (byteAt p 1) = some res
      ∧ flagOf? (byteAt p 3) = some stamp ∧ Policy.ofCode? (byteAt p 4) = some policy := by
  refine ⟨?_, ?_, flagOf_directionByte stamp, ?_⟩
  · cases purpose with
    | scanTx => rfl
    | scanCopy => rfl
    | intake => exact absurd rfl origin
  · cases res <;> rfl
  · cases policy <;> rfl

section Order

variable {purpose : Origin} {res : Resolution} {stamp : Bool} {policy : Policy} {zoom limit slew : Byte} {s : State}

theorem orderScan_refused {st : Status} (origin : purpose ≠ .intake) (refused : scanRefusal s = some st) :
    orderScan (scanBytes purpose res stamp policy zoom limit slew) s = (s, .filled st []) := by
  obtain ⟨purposes, resolutions, stamps, policies⟩ := scanBytes_read res stamp policy zoom limit slew origin
  unfold orderScan
  rw [purposes, resolutions, stamps, policies]
  dsimp only
  rw [refused]

/-- An order that passes the checks, with a usable slew index: its numbers brought into range, the job begun (R119). -/
theorem orderScan_taken {f : Figures} (origin : purpose ≠ .intake) (passed : scanRefusal s = none)
    (figures : scanFigures res (min 31 slew.toNat) s = some f) :
    let zoom' := clampNat 50 200 zoom.toNat
    let limit' := clampNat 1 32 limit.toNat
    let slew' := min 31 slew.toNat
    orderScan (scanBytes purpose res stamp policy zoom limit slew) s =
      (beginScan (ScanJob.start purpose res zoom' stamp policy limit' slew' f) s,
        .filled
          (if zoom' ≠ zoom.toNat ∨ limit' ≠ limit.toNat ∨ slew' ≠ slew.toNat ∨ f.slewUse ≠ slew' then .clamped else .ok)
          (scanBytes purpose res stamp policy (BitVec.ofNat 8 zoom') (BitVec.ofNat 8 limit') (BitVec.ofNat 8 f.slewUse))) := by
  obtain ⟨purposes, resolutions, stamps, policies⟩ := scanBytes_read res stamp policy zoom limit slew origin
  have asked : scanFigures res (min 31 (byteAt (scanBytes purpose res stamp policy zoom limit slew) 6)) s = some f := figures
  unfold orderScan
  rw [purposes, resolutions, stamps, policies]
  dsimp only
  rw [passed]
  dsimp only
  rw [asked]
  rfl

/-- SCAN written at an open port in RUN, where no order is held (R3). -/
theorem exec_scan {lv : Levels} (ho : portOpen s) (run : s.power.state = .run) :
    let x := orderScan (scanBytes purpose res stamp policy zoom limit slew) (sense lv s)
    exec (.scan (BitVec.ofNat 8 purpose.code) (BitVec.ofNat 8 res.code) zoom (if stamp then 1 else 0)
      (BitVec.ofNat 8 policy.code) limit slew lv) s = .next (replied 0x02 x.2 x.1) := by
  obtain ⟨hr, hi, hb⟩ := ho
  exact congrArg Host.Outcome.next (writeOrder_ready (s := sense lv s) hr hi hb rfl fun _ => by
    show s.power.state ≠ .doze
    rw [run]
    nofun)

end Order

/-! ## The first step of the run (R99, R100, R103, R120) -/

/-- The slew clamp keeps within the table (R120). -/
theorem slewClamp_within {ramp : List Byte} {tr m want k : Nat} (clamped : slewClamp ramp tr m want = some k) :
    k ≤ rampCount ramp - 1 := by
  have found : k < min want (rampCount ramp - 1) + 1 :=
    List.mem_range.1 (List.mem_of_mem_filter (List.mem_of_getLast? clamped))
  omega

theorem scanFigures_within {res : Resolution} {want : Nat} {s : State} {f : Figures}
    (figures : scanFigures res want s = some f) : f.slewUse ≤ rampCount (rampTable .S s) - 1 := by
  obtain ⟨k, clamped, rfl⟩ := Option.map_eq_some_iff.1 figures
  exact slewClamp_within clamped

/-- An unbounded forward run begun on a channel at rest, its first step issued: one step of the ramp, or SLEW at once where
the ramp has none. -/
theorem beginRun_issue {m : Motor} {ramp : List Byte} {patterns count req use : Nat} {owner : Owner}
    (rest : m.atRest = true) (within : use ≤ count - 1) :
    (m.beginRun count owner false req use none).issue ramp patterns =
      { m with
        state := if use = 0 then .slew else .accel, rampIndex := if use = 0 then 0 else 1, slewEff := use, slewReq := req,
        plan := .run false (use - 1) none 0 false, phase := nextPhase false patterns m.phase, pos := m.pos + 1,
        hold := none, owner := owner, interval := rampEntry ramp 0, issued := 1 } := by
  have begun : (m.beginRun count owner false req use none).issuedNext = 1 :=
    if_neg (ne_true_of_eq_false (rest_still rest))
  have plan : (m.beginRun count owner false req use none).plan = .run false use none 0 false :=
    congrArg (Plan.run false · none 0 false) (min_eq_left within)
  have eff : (m.beginRun count owner false req use none).slewEff = use := min_eq_left within
  unfold Motor.issue Motor.turn
  rw [begun, plan, eff]
  cases use with
  | zero => rfl
  | succ k => rfl

/-- LAMP raised, the place claimed, the job set and its run taken, no step issued yet (R121). -/
def scanBegun (j : ScanJob) (s : State) : State :=
  { s with
    front := { s.front with lamp := true }, dir := { s.dir with places := s.dir.places + 1 }, scanJob := some j,
    motS := s.motS.beginRun (rampCount (rampTable .S s)) .scan false j.slewReq j.fig.slewUse none }

/-- The run's first step is a step of SEARCH, here one that finds no edge and is not yet a jam. -/
theorem beginScan_searches {j : ScanJob} {s : State} (search : j.phase = .search) (fresh : j.searchCount = 0)
    (dark : s.lines.doce = false) (jam : 2 ≤ setJamSteps s) : beginScan j s = searched j (scanBegun j s) := by
  have goesOn : j.searchCount + 1 < setJamSteps s := by omega
  exact (scanStep_search (s := scanBegun j s) rfl search).trans (searchStep_goesOn (s := scanBegun j s) dark goesOn)

/-! ## The statement -/

/-- Settles O19: the refusals in the order of the checks, then the run's first step under the job just begun. -/
theorem scanIsCheckedAndStarts : Obligations.ScanIsCheckedAndStarts := by
  intro purpose res stamp policy zoom limit slew lv s ho run origin command refuse
  have refused {st : Status} (h : scanRefusal (sense lv s) = some st) : refuse st := by
    show exec command s = _
    rw [exec_scan ho run, orderScan_refused origin h]
  refine ⟨fun busy => refused (scanRefusal_eq.trans (if_pos busy)), fun job cal rest => ?_⟩
  have atEase : scanRefusal (sense lv s) = _ :=
    scanRefusal_eq.trans (if_neg (not_scanBusy (s := sense lv s) job cal rest))
  refine ⟨fun bare => refused (atEase.trans (if_pos bare)), fun paper absent => ?_, fun paper tables => ?_⟩
  · exact refused (atEase.trans ((if_neg (ne_false_of_eq_true paper)).trans (if_pos absent)))
  have fitted : scanRefusal (sense lv s) = _ :=
    atEase.trans ((if_neg (ne_false_of_eq_true paper)).trans (if_neg (not_scanLacking (s := sense lv s) tables)))
  refine ⟨fun full => refused (fitted.trans (if_pos full)), fun fig room dark jam figures => ?_⟩
  intro m
  have passed : scanRefusal (sense lv s) = none := fitted.trans (if_neg (Nat.not_le.2 room))
  have slewWithin : fig.slewUse ≤ rampCount (rampTable .S s) - 1 := scanFigures_within figures
  have firstStep : m = _ := (beginRun_issue rest slewWithin).symm
  rw [exec_scan ho run, orderScan_taken (s := sense lv s) origin passed figures, firstStep]
  dsimp only
  rw [beginScan_searches (s := sense lv s) rfl rfl dark jam]
  rfl

end Sys2Proof.Machine
end

section
/-! FIT's ratio and the taking of source lines (R139 to R142). -/

set_option Elab.async false

namespace Sys2Proof.Machine

/-! ## FIT (R140) -/

theorem fitRatio_bounds (paper l : Nat) (res : Resolution) : 50 ≤ fitRatio paper l res ∧ fitRatio paper l res ≤ 100 := by
  unfold fitRatio
  split <;> omega

/-- A ratio above the least is no more than the paper allows. -/
theorem fitRatio_fits {paper l : Nat} {res : Resolution} (stored : 0 < l) (above : 50 < fitRatio paper l res) :
    fitRatio paper l res * (l * res.halves) ≤ 200 * paper := by
  have within : fitRatio paper l res ≤ 200 * paper / (l * res.halves) := by
    unfold fitRatio at above ⊢
    rw [if_neg stored.ne'] at above ⊢
    omega
  exact (Nat.mul_le_mul_right _ within).trans (Nat.div_mul_le_self ..)

/-! ## A source line taken (R139, R141 step 5, R142) -/

/-- The head line of the Print Ring taken as the source line, the accumulator moved on by the effective ratio. -/
def sourceTaken (j : PrintJob) (s : State) : State :=
  { s with
    rings := { s.rings with print := s.rings.print.free },
    prtJob := some { j with acc := (j.acc + j.reff) % 100, repeats := (j.acc + j.reff) / 100,
                            src := some (s.rings.print.slot s.rings.print.head).dots,
                            srcLast := (s.rings.print.slot s.rings.print.head).last } }

section Take
variable {s : State} {j : PrintJob} (hj : s.prtJob = some j) (k : Nat)
include hj

/-- With a line in the ring: one owed printed lines is to be printed, a dropped one gives way to the next or to the page end. -/
theorem takeSource_line (stored : 0 < s.rings.print.occ) :
    takeSource (k + 1) s =
      if (j.acc + j.reff) / 100 = 0 then
        if (s.rings.print.slot s.rings.print.head).last then (pageEnd (sourceTaken j s), false)
        else takeSource k (sourceTaken j s)
      else (sourceTaken j s, true) := by
  rw [takeSource, hj]
  exact if_neg stored.ne'

theorem takeSource_owed (stored : 0 < s.rings.print.occ) (owed : 100 ≤ j.acc + j.reff) :
    takeSource (k + 1) s = (sourceTaken j s, true) := by
  rw [takeSource_line hj k stored, if_neg (by omega)]

theorem takeSource_dropped (stored : 0 < s.rings.print.occ) (dropped : j.acc + j.reff < 100) :
    takeSource (k + 1) s =
      if (s.rings.print.slot s.rings.print.head).last then (pageEnd (sourceTaken j s), false)
      else takeSource k (sourceTaken j s) := by
  rw [takeSource_line hj k stored, if_pos (by omega)]

theorem takeSource_empty (empty : s.rings.print.occ = 0) :
    takeSource (k + 1) s = (if j.passEnded then pageEnd s else { s with prtJob := some { j with cycle := .waitData } }, false) := by
  rw [takeSource, hj]
  refine (if_pos empty).trans ?_
  split <;> rfl

end Take

/-- Settles O44: FIT by its bounds, the taking by what the ring holds and what the line is owed. -/
theorem ratioAndSourceLines : Obligations.RatioAndSourceLines := by
  refine ⟨fun paper l res => ?_, fun s j k hj => ?_⟩
  · obtain ⟨least, most⟩ := fitRatio_bounds paper l res
    exact ⟨least, most, rfl, fitRatio_fits⟩
  · exact ⟨takeSource_owed hj k, takeSource_dropped hj k, takeSource_empty hj k⟩

end Sys2Proof.Machine
end

section
/-! PRINT taken and its first copy (R136, R137, R139, R140, R153). -/

set_option Elab.async false

namespace Sys2Proof.Machine

/-! ## HEAT and TEMPF applied (R14, R153) -/

/-- The items of `s` that a copy's start sets beside the tables: the Print Ring, the pass, the pages' readers and the job. -/
def copySet (r : Rings) (p : Option Pass) (d : Directory) (j : Option PrintJob) (s : State) : State :=
  { s with rings := r, printDec := p, dir := d, prtJob := j }

/-- A copy that is no phase table and not SHADING, taken into use, reads and changes nothing but tables and flags. -/
theorem applyPending_copySet {k : Fin 14} (plain : k ≠ tShading ∧ k ≠ tSphase ∧ k ≠ tPphase) (r : Rings) (p : Option Pass)
    (d : Directory) (j : Option PrintJob) (s : State) :
    applyPending k (copySet r p d j s) = copySet r p d j (applyPending k s) := by
  obtain ⟨shading, sphase, pphase⟩ := plain
  cases h : s.tables.pending[k] with
  | none => rw [applyPending_none h, applyPending_none (s := copySet r p d j s) h]
  | some img =>
    rw [applyPending_some h, applyPending_some (s := copySet r p d j s) h, setActive_eq, setActive_eq, if_neg shading,
      if_neg sphase, if_neg pphase, if_neg shading, if_neg sphase, if_neg pphase]
    rfl

theorem heatTables_copySet (r : Rings) (p : Option Pass) (d : Directory) (j : Option PrintJob) (s : State) :
    applyAll [tHeat, tTempf] (copySet r p d j s) = copySet r p d j (applyAll [tHeat, tTempf] s) := by
  show applyPending tTempf (applyPending tHeat _) = copySet r p d j (applyPending tTempf (applyPending tHeat s))
  rw [applyPending_copySet (by decide), applyPending_copySet (by decide)]

/-- The job at the first line start of a copy (R153). -/
def PrintJob.copyStart (j : PrintJob) : PrintJob :=
  { PrintJob.start j.page j.copies j.reff j.consume with copy := j.copy, susp := j.susp, reason := j.reason }

theorem copyItems_copySet (r : Rings) (p : Option Pass) (d : Directory) (j : PrintJob) (s : State) :
    copyItems (copySet r p d (some j) s) = copySet r p d (some j.copyStart) (applyAll [tHeat, tTempf] s) := by
  unfold copyItems
  rw [heatTables_copySet]
  rfl

/-! ## PRINT's checks (R136) -/

theorem printPageRefusal_none {e : Entry} {copies ratio : Nat} {consume cut : Bool}
    (state : e.state = .complete ∨ (e.state = .filling ∧ cut = true ∧ ratio ≠ 0)) (print : e.printRd = none)
    (out : ∀ r, e.outRd = some r → consume = false ∧ r.consume = false) (once : consume = true → copies ≤ 1) :
    printPageRefusal e copies ratio consume cut = none := by
  have stands : ¬(e.state = .erasing ∨ (e.state = .filling ∧ (!cut) = true)) := by
    rcases state with h | ⟨h, through, -⟩
    · simp [h]
    · simp [h, through]
  have given : ¬(ratio = 0 ∧ cut = true ∧ e.state = .filling) := by
    rcases state with h | ⟨-, -, h⟩ <;> simp [h]
  have single : ¬(consume = true ∧ 1 < clampNat 1 99 copies) := fun ⟨c, n⟩ => by
    have := once c
    unfold clampNat at n
    omega
  have alone : ¬(consume = true ∧ e.hasReader = true) := by
    rintro ⟨c, reads⟩
    obtain ⟨r, hr⟩ := Option.ne_none_iff_exists'.1 (((hasReader_iff e).1 reads).resolve_left (not_not_intro print))
    exact Bool.false_ne_true ((out r hr).1.symm.trans c)
  have beside : ¬((!consume) = true ∧ (e.printRd.any (·.consume) = true ∨ e.outRd.any (·.consume) = true)) := by
    rintro ⟨-, h | h⟩
    · simp [print] at h
    · obtain ⟨r, hr, takes⟩ := (Option.any_eq_true _ _).1 h
      exact Bool.false_ne_true ((out r hr).2.symm.trans takes)
  unfold printPageRefusal
  rw [if_neg stands, if_neg (not_or.2 ⟨given, not_or.2 ⟨single, alone⟩⟩), if_neg beside]

/-- The payload of PRINT (1.10). -/
def printBytes (page copies ratio : Byte) (consume cut : Bool) : List Byte :=
  [page, copies, ratio, if consume then 1 else 0, if cut then 1 else 0]

/-- PRINT with nothing that refuses it: the job begun, its ratios answered. -/
theorem orderPrint_taken {page copies ratio : Byte} {consume cut : Bool} {s : State} {e : Entry} (free : s.prtJob = none)
    (he : entryOf page.toNat s = some e)
    (passes : printPageRefusal e copies.toNat ratio.toNat consume cut = none)
    (tables : ∀ id ∈ printNeeds, (s.tables.active[id]).isSome = true) (paper : s.lines.papr = true) :
    let asked := if ratio.toNat = 0 then 0 else clampNat 50 200 ratio.toNat
    let n := clampNat 1 99 copies.toNat
    let eff := effRatio (printRatio ratio.toNat e s) e.res
    orderPrint (printBytes page copies ratio consume cut) s =
      (beginPrint e n eff consume s,
        .filled (if n ≠ copies.toNat ∨ asked ≠ ratio.toNat then .clamped else .ok)
          ([page, BitVec.ofNat 8 n, BitVec.ofNat 8 asked, if consume then 1 else 0, if cut then 1 else 0]
            ++ be16 (printRatio ratio.toNat e s) ++ be16 eff)) := by
  have needs : (printNeeds.all fun id => (activeOf id s).isSome) = true := List.all_eq_true.2 tables
  unfold orderPrint
  rw [show flagOf? (byteAt (printBytes page copies ratio consume cut) 3) = some consume from flagOf_directionByte consume,
    show flagOf? (byteAt (printBytes page copies ratio consume cut) 4) = some cut from flagOf_directionByte cut]
  dsimp only
  rw [free, show entryOf (byteAt (printBytes page copies ratio consume cut) 0) s = some e from he]
  dsimp only
  rw [show printPageRefusal e (byteAt (printBytes page copies ratio consume cut) 1)
    (byteAt (printBytes page copies ratio consume cut) 2) consume cut = none from passes, needs, paper]
  rfl

/-! ## The first copy (R137, R153) -/

/-- The reader admitted at the head line, its pass begun, HEAT and TEMPF applied, the job at its first line start. -/
theorem beginPrint_eq (e : Entry) (n eff : Nat) (consume : Bool) (s : State) :
    beginPrint e n eff consume s =
      { applyAll [tHeat, tTempf] { s with prtJob := some (PrintJob.start e.id n eff consume) } with
        printDec := some (passStart e),
        dir := { s.dir with entries := s.dir.entries.map fun x =>
          if x.id = e.id then { x with printRd := some (readerStart x consume) } else x } } := by
  have applied : applyAll [tHeat, tTempf] { s with prtJob := some (PrintJob.start e.id n eff consume) } = _ :=
    heatTables_copySet s.rings s.printDec s.dir (some (PrintJob.start e.id n eff consume)) s
  rw [applied]
  exact copyItems_copySet s.rings (some (passStart e)) _ (PrintJob.start e.id n eff consume) s

/-- PRINT written at an open port in RUN, where no order is held (R3). -/
theorem exec_print {page copies ratio : Byte} {consume cut : Bool} {lv : Levels} {s : State} (ho : portOpen s)
    (run : s.power.state = .run) :
    let x := orderPrint (printBytes page copies ratio consume cut) (sense lv s)
    exec (.print page copies ratio (if consume then 1 else 0) (if cut then 1 else 0) lv) s = .next (replied 0x06 x.2 x.1) := by
  obtain ⟨hr, hi, hb⟩ := ho
  exact congrArg Host.Outcome.next (writeOrder_ready (s := sense lv s) hr hi hb rfl fun _ => by
    show s.power.state ≠ .doze
    rw [run]
    nofun)

/-- Settles O45: the checks passed, the answer by the ratio used, the first copy by what begins it. -/
theorem printStartsFirstCopy : Obligations.PrintStartsFirstCopy := by
  intro page copies ratio consume cut lv s e ho run free he state print out once tables paper asked used n
  have zero : (ratio = 0) = (ratio.toNat = 0) := by simp [BitVec.toNat_eq]
  have passes := printPageRefusal_none (copies := copies.toNat) (ratio := ratio.toNat)
    (state.imp_right fun ⟨f, c, r⟩ => ⟨f, c, by rwa [Ne, ← zero]⟩) print out once
  have taken := orderPrint_taken (s := sense lv s) free he passes tables paper
  dsimp only at taken
  rw [beginPrint_eq] at taken
  rw [exec_print ho run, taken]
  have asks : asked = if ratio.toNat = 0 then 0 else clampNat 50 200 ratio.toNat := by
    unfold asked
    simp only [zero]
  have uses : used = printRatio ratio.toNat e (sense lv s) := by
    unfold used asked printRatio
    simp only [zero]
    split <;> rfl
  rw [uses, asks]
  rfl

end Sys2Proof.Machine
end

section
/-! The phases of a printed line: which there are, the dots each drives and how long its groups' strobes last (R147, R148). -/

set_option Elab.async false

namespace Sys2Proof.Machine

/-! ## How many phases (R147) -/

/-- A quotient rounded up exceeds just the numbers whose multiple is still short of the dividend. -/
theorem lt_ceilDiv {n lim p : Nat} (hl : 0 < lim) : p < ceilDiv n lim ↔ p * lim < n := by
  unfold ceilDiv
  rw [Nat.lt_iff_add_one_le, Nat.le_div_iff_mul_le hl, Nat.add_one_mul]
  omega

section Phases
variable {l : Line} {lim : Nat} (pulse : Nat → Nat)

theorem groupDots_le (l : Line) (g : Nat) : (groupDots l g).length ≤ 432 :=
  (List.length_filter_le ..).trans_eq ((List.length_map _).trans List.length_range)

theorem headPhases_length : (headPhases l lim pulse).length = phaseTotal l lim :=
  (List.length_map _).trans List.length_range

theorem headPhases_getElem {p : Nat} {ph : HeadPhase} (h : (headPhases l lim pulse)[p]? = some ph) :
    p < phaseTotal l lim ∧ ph = headPhase l lim pulse p := by
  obtain ⟨within, rfl⟩ := List.getElem?_eq_some_iff.1 h
  refine ⟨within.trans_eq (headPhases_length pulse), ?_⟩
  simp [headPhases]

variable (hl : 0 < lim)
include hl

/-- A black dot's batch is one of the phases. -/
theorem batch_lt_phaseTotal {d : Nat} (black : dotOf l d = true) :
    (groupDots l (d / 432)).idxOf d / lim < phaseTotal l lim := by
  have listed : (groupDots l (d / 432)).idxOf d < (groupDots l (d / 432)).length :=
    List.idxOf_lt_length_iff.2 ((mem_groupDots l _ d).2 ⟨rfl, black⟩)
  have before := Nat.div_mul_le_self ((groupDots l (d / 432)).idxOf d) lim
  exact ((lt_ceilDiv hl).2 (by omega)).trans_le ((phaseTotal_cases l lim).1 _ (group_of_dot black))

/-- Each phase has a group that still has dots to drive. -/
theorem phase_group {p : Nat} (h : p < phaseTotal l lim) : ∃ g, g < 4 ∧ p * lim < (groupDots l g).length := by
  rcases (phaseTotal_cases l lim).2 with none | ⟨g, hg, most⟩
  · omega
  · exact ⟨g, hg, (lt_ceilDiv hl).1 (most ▸ h)⟩

theorem headPhases_nil : headPhases l lim pulse = [] ↔ ∀ d, dotOf l d = false := by
  rw [← List.length_eq_zero_iff, headPhases_length]
  constructor
  · intro idle d
    by_contra black
    exact Nat.not_lt_zero _ (idle ▸ batch_lt_phaseTotal hl (Bool.eq_true_of_not_eq_false black))
  · intro white
    by_contra drives
    obtain ⟨g, -, dots⟩ := phase_group hl (Nat.pos_of_ne_zero drives)
    obtain ⟨d, hd⟩ := List.exists_mem_of_length_pos (Nat.zero_lt_of_lt dots)
    exact Bool.false_ne_true ((white d).symm.trans ((mem_groupDots l g d).1 hd).2)

theorem headPhases_four (wide : 108 ≤ lim) : (headPhases l lim pulse).length ≤ 4 := by
  rw [headPhases_length]
  by_contra more
  obtain ⟨g, -, dots⟩ := phase_group (l := l) (p := 4) hl (by omega)
  have := groupDots_le l g
  omega

/-! ## The dots of a phase (R147) -/

/-- A black dot is driven in just one of the phases, a white dot in none. -/
theorem headPhases_drive (d : Nat) :
    ((headPhases l lim pulse).filter fun ph => dotOf ph.dots d).length = if dotOf l d then 1 else 0 := by
  rw [← List.countP_eq_length_filter, headPhases, List.countP_map]
  have drives : ((fun ph : HeadPhase => dotOf ph.dots d) ∘ headPhase l lim pulse)
      = fun p => dotOf l d && decide ((groupDots l (d / 432)).idxOf d / lim = p) :=
    funext fun p => dotOf_headPhase l hl pulse p d
  rw [drives]
  cases black : dotOf l d with
  | false => simp
  | true =>
    have once := List.count_eq_one_of_mem List.nodup_range (List.mem_range.2 (batch_lt_phaseTotal hl black))
    rw [List.count_eq_countP] at once
    simpa [eq_comm, Bool.beq_eq_decide_eq] using once

/-- The batch a dot lies in is the number of black dots of its group to its left, by DOTLIM. -/
theorem dotOf_headPhase_left (p d : Nat) :
    dotOf (headPhase l lim pulse p).dots d =
      (dotOf l d && decide (((List.range d).filter fun k => decide (k / 432 = d / 432) && dotOf l k).length / lim = p)) := by
  rw [dotOf_headPhase l hl]
  cases black : dotOf l d with
  | false => rfl
  | true => rw [idxOf_groupDots black]

/-- No phase is idle. -/
theorem headPhase_drives {p : Nat} (h : p < phaseTotal l lim) : ∃ d, dotOf (headPhase l lim pulse p).dots d = true := by
  obtain ⟨g, -, dots⟩ := phase_group hl h
  obtain ⟨group, black⟩ := (mem_groupDots l g _).1 (List.getElem_mem dots)
  refine ⟨(groupDots l g)[p * lim], ?_⟩
  rw [dotOf_headPhase l hl, black, group, (groupDots_nodup l g).idxOf_getElem _ dots, Nat.mul_div_cancel _ hl]
  exact decide_eq_true rfl

/-- The dots that a phase drives in a group are the group's batch. -/
theorem driven_perm_batch (p g : Nat) :
    ((List.range 1728).filter fun d => decide (d / 432 = g) && dotOf (headPhase l lim pulse p).dots d).Perm (batch l lim g p) := by
  refine (List.perm_ext_iff_of_nodup (List.nodup_range.filter _) ((batch_sublist ..).nodup (groupDots_nodup l g))).2 fun d => ?_
  rw [List.mem_filter, List.mem_range, dotOf_headPhase l hl, batch, mem_stretch (groupDots_nodup l g) hl, mem_groupDots]
  simp only [Bool.and_eq_true, decide_eq_true_eq]
  constructor
  · rintro ⟨-, rfl, black, place⟩
    exact ⟨⟨rfl, black⟩, place⟩
  · rintro ⟨⟨rfl, black⟩, place⟩
    have := group_of_dot black
    exact ⟨by omega, rfl, black, place⟩

/-- A group drives DOTLIM dots at most in a phase, its strobe the longest pulse among them (R147, R148). -/
theorem headPhase_group {p g : Nat} (hg : g < 4) :
    let driven := (List.range 1728).filter fun d => decide (d / 432 = g) && dotOf (headPhase l lim pulse p).dots d
    driven.length ≤ lim
      ∧ (driven = [] → (headPhase l lim pulse p).pulses[g]? = some none)
      ∧ (driven ≠ [] → ∃ n, (headPhase l lim pulse p).pulses[g]? = some (some n) ∧ (∀ d ∈ driven, pulse d ≤ n)
          ∧ ∃ d ∈ driven, pulse d = n) := by
  intro driven
  have same : driven.Perm (batch l lim g p) := driven_perm_batch pulse hl p g
  have strobe : (headPhase l lim pulse p).pulses[g]? = some (longestPulse pulse (batch l lim g p)) := by
    simp [headPhase, hg]
  have idle : driven = [] ↔ batch l lim g p = [] := by
    rw [← List.length_eq_zero_iff, same.length_eq, List.length_eq_zero_iff]
  obtain ⟨unstrobed, longest⟩ := longestPulse_cases pulse (batch l lim g p)
  refine ⟨same.length_eq.trans_le (batch_length l lim g p), fun white => ?_, fun black => ?_⟩
  · rw [strobe, unstrobed (idle.1 white)]
  · obtain ⟨n, pulsed, most, d, hd, at_d⟩ := longest (mt idle.2 black)
    exact ⟨n, by rw [strobe, pulsed], fun d hd => most d (same.mem_iff.1 hd), d, same.mem_iff.2 hd, at_d⟩

end Phases

end Sys2Proof.Machine
end

section
/-! The line start in its order, the heat of its line, and TEMP (R141, R143 to R147, R149, R150). -/

set_option Elab.async false

namespace Sys2Proof.Machine

/-! ## The line start (R141, R145, R150) -/

theorem not_faulted {m : Motor} (sound : m.state ≠ .fault) : ¬m.faulted = true := fun h => sound (of_decide_eq_true h)

section LineStart
variable {s : State} {j : PrintJob} (hj : s.prtJob = some j)
include hj

theorem suspendPrint_eq (r : SuspendReason) :
    suspendPrint r s = { s with prtJob := some { j with cycle := .suspended, susp := r } } := by
  unfold suspendPrint mapPrtJob
  rw [hj]
  rfl

theorem lineStart_fault (fault : s.motP.state = .fault) :
    lineStart s = { s with prtJob := some { j with cycle := .suspended, susp := .fault } } := by
  rw [← suspendPrint_eq hj]
  unfold lineStart
  rw [hj]
  exact if_pos (decide_eq_true fault)

variable (sound : s.motP.state ≠ .fault)
include sound

theorem lineStart_noPaper (out : s.lines.papr = false) :
    lineStart s = raise evPaperOut j.page 2 0 { s with prtJob := some { j with cycle := .suspended, susp := .noPaper } } := by
  rw [← suspendPrint_eq hj]
  unfold lineStart
  rw [hj]
  refine (if_neg (not_faulted sound)).trans (if_pos ?_)
  rw [out]
  rfl

variable (paper : s.lines.papr = true)
include paper

theorem lineStart_hot {c : Byte} (read : s.temp.reading = some c) (hot : setHotLim s ≤ c.toNat) :
    lineStart s = raise evOverheat j.page 2 c.toNat { s with prtJob := some { j with cycle := .cooling } } := by
  unfold lineStart
  rw [hj]
  dsimp only
  rw [if_neg (not_faulted sound), if_neg (by rw [paper]; nofun), if_pos (by simpa [read] using hot), read]
  rfl

/-- With channel P sound, paper present and the head cool: the interrupted line again, or the next line owed. -/
theorem lineStart_goes (cool : ∀ c, s.temp.reading = some c → c.toNat < setHotLim s) :
    lineStart s =
      if j.interrupted then strobeLine { s with prtJob := some { j with interrupted := false } }
      else
        let x := if j.repeats = 0 then takeSource 5 s else (s, true)
        if x.2 then strobeLine (mapPrtJob (fun j => { j with repeats := j.repeats - 1 }) x.1) else x.1 := by
  have fit : ¬(s.temp.reading.any fun c => decide (setHotLim s ≤ c.toNat)) = true := fun h => by
    obtain ⟨c, read, hot⟩ := (Option.any_eq_true _ _).1 h
    exact absurd (cool c read) (Nat.not_lt.2 (of_decide_eq_true hot))
  unfold lineStart
  rw [hj]
  dsimp only
  rw [if_neg (not_faulted sound), if_neg (by rw [paper]; nofun), if_neg fit]
  rfl

variable (cool : ∀ c, s.temp.reading = some c → c.toNat < setHotLim s)
include cool

theorem lineStart_interrupted (cut : j.interrupted = true) :
    lineStart s = strobeLine { s with prtJob := some { j with interrupted := false } } :=
  (lineStart_goes hj sound paper cool).trans (if_pos cut)

variable (whole : j.interrupted = false)
include whole

theorem lineStart_repeat (owed : 0 < j.repeats) :
    lineStart s = strobeLine { s with prtJob := some { j with repeats := j.repeats - 1 } } := by
  rw [lineStart_goes hj sound paper cool, if_neg (by simp [whole]), if_neg owed.ne']
  dsimp only
  rw [if_pos rfl, mapPrtJob, hj]
  rfl

variable (spent : j.repeats = 0)
include spent

theorem lineStart_unsourced (none : (takeSource 5 s).2 = false) : lineStart s = (takeSource 5 s).1 := by
  rw [lineStart_goes hj sound paper cool, if_neg (by simp [whole]), if_pos spent]
  exact if_neg (by simp [none])

theorem lineStart_sourced {k : PrintJob} (taken : (takeSource 5 s).2 = true) (hk : (takeSource 5 s).1.prtJob = some k) :
    lineStart s = strobeLine { (takeSource 5 s).1 with prtJob := some { k with repeats := k.repeats - 1 } } := by
  rw [lineStart_goes hj sound paper cool, if_neg (by simp [whole]), if_pos spent]
  dsimp only
  rw [if_pos taken, mapPrtJob, hk]
  rfl

end LineStart

/-! ## The moves due at once -/

/-- A Print Engine with no move due and its pass not over stays as it is. -/
theorem printMoves_settled {s : State} (passed : settlePass .print s = s) (still : printDue s = false) (n : Nat) :
    printMoves n s = s := by
  cases n with
  | zero => exact passed
  | succ n =>
    unfold printMoves
    rw [passed, still]
    rfl

/-- A line start that is due is made at once, and it is all where it leads to strobes, steps, COOLING or a suspension. -/
theorem settlePrint_lineStart {s : State} {j : PrintJob} (hj : s.prtJob = some j)
    (due : j.cycle = .lineStart ∨ (j.cycle = .waitData ∧ 0 < s.rings.print.occ)) (before : settlePass .print s = s)
    (after : settlePass .print (lineStart s) = lineStart s)
    (still : ∀ k, (lineStart s).prtJob = some k →
      k.cycle = .strobing ∨ k.cycle = .stepping ∨ k.cycle = .cooling ∨ k.cycle = .suspended) :
    settlePrint s = lineStart s := by
  have moves : printDue s = true ∧ printMove s = lineStart s := by
    unfold printDue printMove
    rw [hj]
    dsimp only
    rcases due with h | ⟨h, stored⟩
    · rw [h]
      exact ⟨rfl, rfl⟩
    · rw [h]
      exact ⟨by simp [stored], if_pos stored⟩
  have rests : printDue (lineStart s) = false := by
    unfold printDue
    split
    · rfl
    · next k hk => rcases still k hk with h | h | h | h <;> rw [h]
  unfold settlePrint printMoves
  rw [before, if_pos moves.1, moves.2]
  exact printMoves_settled after rests _

/-! ## The temperature factor (R144, R145) -/

theorem heatFactor_fresh {tempf : List Byte} {t : Temperature} {c : Byte} (fresh : t.fresh = true) (read : t.reading = some c) :
    heatFactor tempf t = wordAt tempf (2 * (c.toNat / 16)) := by
  unfold heatFactor
  rw [fresh, read]

theorem heatFactor_stale {tempf : List Byte} {t : Temperature} (stale : t.fresh = false ∨ t.reading = none) :
    heatFactor tempf t = staleFactor tempf := by
  unfold heatFactor
  rcases stale with h | h
  · rw [h]
  · rw [h]
    cases t.fresh <;> rfl

/-- The stale factor is the smallest of the sixteen. -/
theorem staleFactor_least (tempf : List Byte) :
    (∀ b, b < 16 → staleFactor tempf ≤ wordAt tempf (2 * b)) ∧ ∃ b, b < 16 ∧ staleFactor tempf = wordAt tempf (2 * b) := by
  have least : (wordAt tempf (2 * 0) :: (List.range 16).map fun b => wordAt tempf (2 * b)).min? = some (staleFactor tempf) := by
    rw [List.min?_cons', List.foldl_map]
    rfl
  obtain ⟨own, most⟩ := List.min?_eq_some_iff.1 least
  refine ⟨fun b hb => most _ (List.mem_cons_of_mem _ (List.mem_map_of_mem (List.mem_range.2 hb))), ?_⟩
  rcases List.mem_cons.1 own with first | other
  · exact ⟨0, by decide, first⟩
  · obtain ⟨b, hb, at_b⟩ := List.mem_map.1 other
    exact ⟨b, List.mem_range.1 hb, at_b.symm⟩

/-! ## The line's phases begun (R144, R147, R149) -/

/-- The first line of a stale spell raises TEMP_STALE (R145). -/
theorem staleSpellBegins_eq (page : Nat) (s : State) :
    staleSpellBegins page s =
      if s.temp.fresh = false ∧ s.temp.staleSpell = false then
        raise evTempStale page 2 (if s.temp.reading = none then 1 else 0) { s with temp := { s.temp with staleSpell := true } }
      else s := by
  have reason : (if s.temp.reading.isSome then 0 else 1) = if s.temp.reading = none then 1 else 0 := by
    cases s.temp.reading <;> rfl
  unfold staleSpellBegins
  rw [reason]
  cases s.temp.fresh <;> cases s.temp.staleSpell <;> rfl

/-- A stale spell's beginning changes the reading's marks and the flags alone, and nothing the pulses are worked out from. -/
theorem staleSpellBegins_leaves (page : Nat) (s : State) :
    (∃ t e, staleSpellBegins page s = { s with temp := t, events := e })
      ∧ ∀ (j : PrintJob) (l : Line), linePhases j l (staleSpellBegins page s) = linePhases j l s := by
  unfold staleSpellBegins
  split <;> exact ⟨⟨_, _, rfl⟩, fun _ _ => rfl⟩

section Strobe
variable {s : State} {j : PrintJob} (hj : s.prtJob = some j)
include hj

theorem strobeLine_black {ph : HeadPhase} {rest : List HeadPhase} (black : linePhases j (j.src.getD whiteLine) s = ph :: rest) :
    strobeLine s =
      { staleSpellBegins j.page s with
        prtJob := some { j with cycle := .strobing,
                                strobe := some { todo := linePhases j (j.src.getD whiteLine) s, cur := none, stage := .waiting,
                                                 shifting := true, shifted := false } } } := by
  obtain ⟨-, same⟩ := staleSpellBegins_leaves j.page s
  unfold strobeLine
  rw [hj]
  dsimp only
  rw [same, black]

theorem strobeLine_white (white : linePhases j (j.src.getD whiteLine) s = []) :
    strobeLine s = lineSteps (staleSpellBegins j.page s) := by
  obtain ⟨-, same⟩ := staleSpellBegins_leaves j.page s
  unfold strobeLine
  rw [hj]
  dsimp only
  rw [same, white]

/-- A line's burst taken by a channel P at rest, its first step issued (R105, R149). -/
theorem lineSteps_atRest (going : j.cycle ≠ .ending) (rest : s.motP.atRest = true) :
    lineSteps s =
      { s with
        motP := (s.motP.beginBurst .print (setMp s)).issue (rampTable .P s) (phaseCount (phaseTable .P s)),
        prtJob := some { j with stepping := some .lineBurst, cycle := .stepping } } :=
  askSteps_taken hj going (requestP_burst (s := stepsAsked .lineBurst j s) rest (setMp s))

end Strobe

/-! ## The statement -/

theorem exec_temp {code : Byte} {lv : Levels} {s : State} (ho : portOpen s) :
    exec (.temp code lv) s = .next (replied 0x0B (orderTemp code (sense lv s)).2 (orderTemp code (sense lv s)).1) :=
  writeOrder_done (s := sense lv s) ho rfl rfl rfl

/-- Settles O46: the line start by its checks, the heat by the reading, the phases by their batches, TEMP as it acts. -/
theorem lineStartsAndHeat : Obligations.LineStartsAndHeat := by
  refine ⟨fun s j hj => ⟨lineStart_fault hj, lineStart_noPaper hj, fun sound paper => ⟨fun c => lineStart_hot hj sound paper,
    fun cool => ⟨lineStart_interrupted hj sound paper cool, lineStart_repeat hj sound paper cool, fun whole spent =>
      ⟨lineStart_unsourced hj sound paper cool whole spent, fun k => lineStart_sourced hj sound paper cool whole spent⟩⟩⟩,
    settlePrint_lineStart hj⟩, fun s j hj hl => ?_, fun l lim pulse hl => ?_, fun code lv s ho => exec_temp ho⟩
  · intro l warm factors
    have warmed : staleSpellBegins j.page s = warm := staleSpellBegins_eq j.page s
    refine ⟨heatFactor factors s.temp, fun c => heatFactor_fresh, fun stale => ?_, fun black => ?_, fun white going rest => ?_⟩
    · rw [heatFactor_stale stale]
      exact staleFactor_least factors
    · obtain ⟨d, hd⟩ := black
      have drives : linePhases j l s ≠ [] := fun idle => Bool.false_ne_true (((headPhases_nil _ hl).1 idle d).symm.trans hd)
      obtain ⟨ph, rest, phases⟩ := List.exists_cons_of_ne_nil drives
      rw [strobeLine_black hj phases, warmed]
      rfl
    · obtain ⟨⟨t, e, marked⟩, -⟩ := staleSpellBegins_leaves j.page s
      rw [strobeLine_white hj ((headPhases_nil _ hl).2 white), ← warmed, marked]
      exact lineSteps_atRest (s := { s with temp := t, events := e }) hj going rest
  · refine ⟨headPhases_nil pulse hl, headPhases_four pulse hl, headPhases_drive pulse hl, fun p ph at_p => ?_⟩
    obtain ⟨within, rfl⟩ := headPhases_getElem pulse at_p
    exact ⟨headPhase_drives pulse hl within, dotOf_headPhase_left pulse hl p, fun g hg => headPhase_group pulse hl hg⟩

end Sys2Proof.Machine
end

section
/-! The head's events, the end of a line's burst, and the page end (R148, R149, R153). -/

set_option Elab.async false

namespace Sys2Proof.Machine

/-! ## The strobes of a line (R148) -/

theorem latch_group {t : Strobe} {ph : HeadPhase} {rest : List HeadPhase} {g : Nat} (todo : t.todo = ph :: rest)
    (first : nextGroup ph 0 = some g) :
    t.latch = { todo := rest, cur := some ph, stage := .high g, shifting := !rest.isEmpty, shifted := false } := by
  unfold Strobe.latch
  rw [todo]
  dsimp only
  rw [first]

/-- The end of a shift with no strobes running latches the phase. -/
theorem shiftEnd_latches {t : Strobe} (shifting : t.shifting = true) (idle : t.cur = none) :
    t.shiftEnd = Strobe.latch { t with shifting := false } := by
  unfold Strobe.shiftEnd
  rw [if_pos shifting, if_pos (by rw [idle]; rfl)]

theorem pulseEnd_high {t : Strobe} {g : Nat} (high : t.stage = .high g) : t.pulseEnd = { t with stage := .gap g } := by
  unfold Strobe.pulseEnd
  rw [high]

section Gap
variable {t : Strobe} {g : Nat} {ph : HeadPhase} (gap : t.stage = .gap g) (cur : t.cur = some ph)
include gap cur

theorem gapEnd_next {k : Nat} (next : nextGroup ph (g + 1) = some k) : t.gapEnd = { t with stage := .high k } := by
  unfold Strobe.gapEnd
  rw [gap, cur]
  dsimp only
  rw [next]

variable (last : nextGroup ph (g + 1) = none)
include last

/-- After the last group of a phase the next one is latched where it has been shifted. -/
theorem gapEnd_last :
    t.gapEnd =
      if t.shifted then Strobe.latch { t with cur := none, stage := .waiting } else { t with cur := none, stage := .waiting } := by
  unfold Strobe.gapEnd
  rw [gap, cur]
  dsimp only
  rw [last]

end Gap

/-! ## The head's events (R148, R149) -/

section Head
variable {s : State} {j : PrintJob} {t : Strobe} (hj : s.prtJob = some j) (ht : j.strobe = some t)
include hj

theorem strobesMoved_going {u : Strobe} (going : u.over = false) :
    strobesMoved u s = { s with prtJob := some { j with strobe := some u } } := by
  unfold strobesMoved
  rw [if_neg (by rw [going]; nofun), mapPrtJob, hj]
  rfl

theorem strobesMoved_over {u : Strobe} (ended : u.over = true) :
    strobesMoved u s = lineSteps { s with prtJob := some { j with strobe := none } } := by
  unfold strobesMoved
  rw [if_pos ended, mapPrtJob, hj]
  rfl

include ht

theorem headEvent_moves (f : Strobe → Strobe) : headEvent f s = strobesMoved (f t) s := by
  unfold headEvent
  rw [hj]
  dsimp only
  rw [ht]

/-- An event of the head that leaves strobes or phases to come. -/
theorem headEvent_going {f : Strobe → Strobe} {u : Strobe} (moves : f t = u) (going : u.over = false) :
    headEvent f s = { s with prtJob := some { j with strobe := some u } } := by
  rw [headEvent_moves hj ht, moves, strobesMoved_going hj going]

end Head

/-- Strobes that run are not over. -/
theorem over_running {t : Strobe} (running : t.cur ≠ none) : t.over = false := by
  unfold Strobe.over
  rw [Option.isNone_eq_false_iff.2 (Option.isSome_iff_ne_none.2 running)]
  exact Bool.and_false _

/-! ## The motor tables out of use (R117, R153) -/

/-- The job as PRAMP and PPHASE go out of use. -/
def PrintJob.exited (j : PrintJob) : PrintJob := { j with inCopy := false, owed := 0, owedExit := false }

/-- The motor tables out of use at the end of a page exit, their pending copies applied. -/
def exitOver (j : PrintJob) (s : State) : State := applyMotorTables { s with prtJob := some j.exited }

theorem exitOver_leaves (j : PrintJob) (s : State) :
    (exitOver j s).prtJob = some j.exited ∧ (exitOver j s).dir = s.dir ∧ (exitOver j s).rings = s.rings := by
  unfold exitOver
  rw [(applies_applyMotorTables _).frame]
  exact ⟨rfl, rfl, rfl⟩

/-! ## The end of a motion of channel P (R106, R149, R153) -/

section Rest
variable {s : State} {j : PrintJob} (hj : s.prtJob = some j)

/-- The job as a printed line is done (R143). -/
def PrintJob.linePrinted (j : PrintJob) : PrintJob :=
  { j with h2 := j.h1, h1 := j.src.getD whiteLine, printed := j.printed + 1, stepping := none }

theorem lineDone_ending (ending : j.cycle = .ending) : lineDone j s = { s with prtJob := some j.linePrinted } :=
  if_pos ending

theorem lineDone_page (going : j.cycle ≠ .ending) (owed : j.repeats = 0) (last : j.srcLast = true) :
    lineDone j s = pageEnd { s with prtJob := some j.linePrinted } :=
  (if_neg going).trans (if_pos ⟨owed, last⟩)

theorem lineDone_more (going : j.cycle ≠ .ending) (more : j.repeats ≠ 0 ∨ j.srcLast = false) :
    lineDone j s = { s with prtJob := some { j.linePrinted with cycle := .lineStart } } :=
  (if_neg going).trans (if_neg fun ⟨owed, last⟩ =>
    more.elim (· owed) fun notLast => Bool.false_ne_true (notLast.symm.trans last))

include hj

theorem printRest_line (steps : j.stepping = some .lineBurst) : printRest s = lineDone j s := by
  unfold printRest
  rw [hj]
  dsimp only
  rw [steps]

theorem printRest_exit (steps : j.stepping = some .pageExit) :
    printRest s =
      if j.cycle = .ending then { s with prtJob := some { j with stepping := none } }
      else afterExit { s with prtJob := some { j with stepping := none } } := by
  unfold printRest
  rw [hj]
  dsimp only
  rw [steps]

/-! ## The page end (R153) -/

/-- The job as it asks steps of channel P: in ENDING it stays so. -/
def PrintJob.asking (kind : Stepping) (j : PrintJob) : PrintJob :=
  { j with stepping := some kind, cycle := if j.cycle = .ending then .ending else .stepping }

/-- Steps asked of channel P that are not refused. -/
theorem askSteps_asked {kind : Stepping} {r : MotorRequest} {n : Nat} {t : State}
    (taken : requestP r { s with prtJob := some (j.asking kind) } = (t, true)) : askSteps kind r n s = t := by
  have asked : mapPrtJob (fun j =>
      { j with stepping := some kind, cycle := if j.cycle = .ending then .ending else .stepping }) s =
        { s with prtJob := some (j.asking kind) } := by
    unfold mapPrtJob
    rw [hj]
    rfl
  unfold askSteps
  rw [asked, taken]
  rfl

/-- The job at the page end of a copy. -/
def PrintJob.pageEnded (j : PrintJob) : PrintJob :=
  { j with exitDone := true, cycle := if j.copy < j.copies then .stepping else .ending }

theorem pageEnd_eq :
    pageEnd s =
      if 0 < j.printed ∧ 0 < setPexit s then exitSteps (setPexit s) { s with prtJob := some j.pageEnded }
      else afterExit { s with prtJob := some j.pageEnded } := by
  unfold pageEnd
  rw [hj]
  rfl

theorem pageEnd_exits (printed : 0 < j.printed) (exit : 0 < setPexit s) (rest : s.motP.atRest = true) :
    pageEnd s =
      { s with
        motP := (s.motP.beginRun (rampCount (rampTable .P s)) .print false (rampCount (rampTable .P s) - 1)
          (rampCount (rampTable .P s) - 1) (some (setPexit s))).issue (rampTable .P s) (phaseCount (phaseTable .P s)),
        prtJob := some { j.pageEnded with stepping := some .pageExit } } := by
  have stays : j.pageEnded.asking .pageExit = { j.pageEnded with stepping := some .pageExit } := by
    unfold PrintJob.asking PrintJob.pageEnded
    split <;> rfl
  rw [pageEnd_eq hj, if_pos ⟨printed, exit⟩]
  refine askSteps_asked (j := j.pageEnded) rfl ?_
  rw [stays]
  exact requestP_atRest (s := { s with prtJob := some { j.pageEnded with stepping := some .pageExit } }) rest ..

theorem afterExit_eq :
    afterExit s =
      if j.copy < j.copies then nextCopy (exitOver j s)
      else { exitOver j s with prtJob := some { j.exited with cycle := .ending, exitDone := true, stepping := none } } := by
  obtain ⟨job, -⟩ := exitOver_leaves j s
  have free : applyMotorTables (mapPrtJob (fun j => { j with inCopy := false, owed := 0, owedExit := false }) s)
      = exitOver j s := by
    unfold exitOver mapPrtJob
    rw [hj]
    rfl
  unfold afterExit
  rw [free]
  dsimp only
  rw [job]
  rfl

end Rest

/-- The print reader of a page at the page's head line again (R88). -/
def Directory.readerAtHead (d : Directory) (page : Nat) (e : Entry) : Directory :=
  { d with entries := d.entries.map fun x =>
      if x.id = page then { x with printRd := x.printRd.map fun r => { r with linePos := e.headLine, block := e.first } } else x }

/-- The next copy at its first line start: ring, pass and reader, tables and items (R153). -/
theorem nextCopy_starts {s : State} {j : PrintJob} {e : Entry} (hj : s.prtJob = some j) (he : entryOf j.page s = some e) :
    nextCopy s =
      copySet { s.rings with print := s.rings.print.emptied } (some (passStart e))
        (s.dir.readerAtHead j.page e) (some { j with copy := j.copy + 1 }.copyStart) (applyAll [tHeat, tTempf] s) := by
  have page : entryOf j.page (emptyPrintRing { s with prtJob := some { j with copy := j.copy + 1 } }) = some e := he
  unfold nextCopy
  rw [hj]
  dsimp only
  unfold restartPass
  rw [page]
  exact copyItems_copySet _ (some (passStart e)) _ { j with copy := j.copy + 1 } s

/-- After the page exit of a copy before the last, the next copy is at its first line start (R153). -/
theorem afterExit_next {s : State} {j : PrintJob} {e : Entry} (hj : s.prtJob = some j) (more : j.copy < j.copies)
    (he : entryOf j.page s = some e) :
    afterExit s =
      { applyAll [tHeat, tTempf]
          { exitOver j s with
            rings := { s.rings with print := s.rings.print.emptied },
            prtJob := some { j.exited with copy := j.copy + 1 },
            printDec := some (passStart e),
            dir := s.dir.readerAtHead j.page e } with
        prtJob := some { j.exited with copy := j.copy + 1 }.copyStart } := by
  obtain ⟨job, dir, rings⟩ := exitOver_leaves j s
  have page : entryOf j.exited.page (exitOver j s) = some e := (entryOf_of_entries (congrArg (·.entries) dir) _).trans he
  have applied : applyAll [tHeat, tTempf]
      { exitOver j s with
        rings := { s.rings with print := s.rings.print.emptied },
        prtJob := some { j.exited with copy := j.copy + 1 },
        printDec := some (passStart e),
        dir := s.dir.readerAtHead j.page e } = _ :=
    heatTables_copySet { s.rings with print := s.rings.print.emptied } (some (passStart e)) (s.dir.readerAtHead j.page e)
      (some { j.exited with copy := j.copy + 1 }) (exitOver j s)
  rw [applied, afterExit_eq hj, if_pos more, nextCopy_starts job page, dir, rings]
  generalize applyAll [tHeat, tTempf] (exitOver j s) = u
  rfl

/-- MOTION_END of a channel P that steps for the job, which is told of the rest. -/
theorem exec_motionEnd_print {lv : Levels} {s : State} (spent : s.motP.spent = true) (own : s.motP.owner = .print) :
    exec (.motionEnd .P lv) s = .next (settle (printRest (restedP (sense lv s)))) :=
  congrArg (fun t => Host.Outcome.next (settle t)) (motionEnds_print (s := sense lv s) spent own)

/-- Settles O47: the head by its strobes, the rest by what the steps were for, the page end by the copies to come. -/
theorem strobesBurstsAndPageEnds : Obligations.StrobesBurstsAndPageEnds := by
  refine ⟨fun s j t hj ht => ⟨fun ph rest g shifting idle todo first => ?_, fun g high running => ?_,
      fun g k ph gap cur next => ?_, fun g k ph next rest gap cur last shifted todo first => ?_,
      fun g ph gap cur last unshifted todo rest strobing => ?_⟩,
    fun lv s j spent own hj => ?_, fun s j hj => ⟨pageEnd_exits hj, fun none => ?_, fun final => ?_, fun e more he => ?_⟩⟩
  · have moves := (shiftEnd_latches shifting idle).trans (latch_group (t := { t with shifting := false }) todo first)
    exact congrArg Host.Outcome.next (headEvent_going hj ht moves (over_running nofun))
  · exact congrArg Host.Outcome.next (headEvent_going hj ht (pulseEnd_high high) (over_running running))
  · have moved := headEvent_going hj ht (gapEnd_next gap cur next)
      (over_running (t := { t with stage := .high k }) (by rw [cur]; nofun))
    exact congrArg (fun u => Host.Outcome.next (settle u)) moved
  · have moves := (gapEnd_last gap cur last).trans ((if_pos shifted).trans
      (latch_group (t := { t with cur := none, stage := .waiting }) todo first))
    exact congrArg (fun u => Host.Outcome.next (settle u)) (headEvent_going hj ht moves (over_running nofun))
  · have moves := (gapEnd_last gap cur last).trans (if_neg (by rw [unshifted]; nofun))
    have ended : Strobe.over { t with cur := none, stage := .waiting } = true := by
      unfold Strobe.over
      rw [todo]
      rfl
    have moved : headEvent Strobe.gapEnd s = lineSteps { s with prtJob := some { j with strobe := none } } := by
      rw [headEvent_moves hj ht, moves, strobesMoved_over hj ended]
    have steps := lineSteps_atRest (s := { s with prtJob := some { j with strobe := none } }) rfl
      (by rw [strobing]; nofun) rest
    exact congrArg (fun u => Host.Outcome.next (settle u)) (moved.trans steps)
  · rw [exec_motionEnd_print spent own]
    have job : (restedP (sense lv s)).prtJob = some j := hj
    refine ⟨fun line stepping more => ?_, fun line stepping owed last => ?_, fun line ending => ?_, fun exit going => ?_,
      fun exit ending => ?_⟩
    · rw [printRest_line job line, lineDone_more (by rw [stepping]; nofun) more]
      rfl
    · rw [printRest_line job line, lineDone_page (by rw [stepping]; nofun) owed last]
      rfl
    · rw [printRest_line job line, lineDone_ending ending]
      rfl
    · rw [printRest_exit job exit, if_neg going]
      rfl
    · rw [printRest_exit job exit, if_pos ending]
      rfl
  · exact (pageEnd_eq hj).trans (if_neg (by omega))
  · exact (afterExit_eq hj).trans (if_neg (Nat.not_lt.2 final))
  · exact afterExit_next hj more he

end Sys2Proof.Machine
end

section
/-! The spill as written: its marker, its length and its sum (R175), as the check of R178 reads them. -/

set_option Elab.async false

namespace Sys2Proof.Machine

theorem wordSum_lt (bs : List Byte) : wordSum bs < 65536 := by
  cases bs with
  | nil => exact Nat.zero_lt_succ _
  | cons a t => cases t <;> exact Nat.mod_lt _ (by decide)

/-- The two-byte field behind some bytes, read back. -/
theorem wordAt_append_be16 (bs : List Byte) {n : Nat} (h : n < 65536) : wordAt (bs ++ be16 n) bs.length = n := by
  have high : byteAt (bs ++ be16 n) bs.length = n / 256 % 256 := by simp [byteAt, be16]
  have low : byteAt (bs ++ be16 n) (bs.length + 1) = n % 256 := by simp [byteAt, be16]
  rw [wordAt, high, low]
  omega

/-- The pad makes a count even. -/
theorem padOf_even (n : Nat) : (n + (padOf n).length) % 2 = 0 := by
  unfold padOf
  split
  · rw [List.length_singleton]
    omega
  · rw [List.length_nil]
    omega

/-! ## The length of a spill -/

theorem spillSummed_length (s : State) :
    (spillSummed s).length = 4 + (spillBody s).length + (padOf (spillBody s).length).length := by
  simp only [spillSummed, List.length_append, be16_length]

theorem spillSummed_even (s : State) : (spillSummed s).length % 2 = 0 := by
  have padded := padOf_even (spillBody s).length
  rw [spillSummed_length]
  omega

theorem spillImage_length (s : State) : (spillImage s).length = (spillSummed s).length + 2 := by
  rw [spillImage, List.length_append, be16_length]

/-- The marker, the length of what is summed, and the rest. -/
theorem spillImage_head (s : State) : ∃ rest, spillImage s = 0xA5 :: 0x5A :: (be16 (spillSummed s).length ++ rest) := by
  refine ⟨spillBody s ++ padOf (spillBody s).length ++ be16 (wordSum (spillSummed s)), ?_⟩
  rw [spillSummed_length]
  simp only [spillImage, spillSummed, List.append_assoc]
  rfl

/-- The length field counts all but the sum, where two bytes can hold that count. -/
theorem spillLength_spillImage {s : State} (h : (spillSummed s).length ≤ 65535) :
    spillLength (spillImage s) = (spillSummed s).length := by
  obtain ⟨rest, image⟩ := spillImage_head s
  rw [image]
  exact wordAt_be16 _ _ _ rest h

/-! ## The sum of a spill -/

/-- The sum is that of the bytes the length field counts. -/
theorem spillSumOk_spillImage {s : State} (h : spillLength (spillImage s) = (spillSummed s).length) :
    spillSumOk (spillImage s) = true := by
  have summed : (spillImage s).take (spillSummed s).length = spillSummed s := List.take_left
  have sum : wordAt (spillImage s) (spillSummed s).length = wordSum (spillSummed s) :=
    wordAt_append_be16 (spillSummed s) (wordSum_lt _)
  rw [spillSumOk, h, summed, sum]
  exact decide_eq_true rfl

/-- Settles O59: a spill that fits the reserve states its own length, and what R178 sums is what R175 summed. -/
theorem spillCarriesMarkerAndSum : Obligations.SpillCarriesMarkerAndSum := by
  intro s fits
  have whole := spillImage_length s
  have length : spillLength (spillImage s) = (spillSummed s).length := spillLength_spillImage (by omega)
  have inReserve : spillLength (spillImage s) + 2 ≤ 16384 := by omega
  obtain ⟨rest, image⟩ := spillImage_head s
  refine ⟨by rw [image]; rfl, decide_eq_true inReserve, spillSumOk_spillImage length, by omega, ?_⟩
  rw [length]
  exact spillSummed_even s

end Sys2Proof.Machine
end

section
/-! The EVENT queue (R184 to R186): one record per flag, each of a flag reported. A post neither makes nor breaks this, an
EVACK and the reading of a record keep it, and nothing else within the part moves the queue. -/

set_option Elab.async false

namespace Sys2Proof.Machine

/-! ## Order in the queue -/

/-- Past its first `k` records the queue holds at most one per flag, each of a flag marked reported (R184, R186). -/
def Events.orderly (e : Events) (k : Nat) : Prop :=
  (e.queue.drop k).Nodup ∧ ∀ f ∈ e.queue.drop k, (e.flags[f]).reported = true

/-- What a post does to the report marks where it gives none itself: the flag whose record joins is marked (R184). -/
theorem post_reported (e : Events) {f : Fin 20} {g : EventFlag} (h : g.reported = (e.flags[f]).reported) (x : Fin 20) :
    ((e.post f g).flags[x]).reported = ((e.flags[x]).reported || (decide (x = f) && (g.set && !g.masked && !g.reported))) := by
  by_cases same : x = f
  · subst same
    rw [post_flag, decide_eq_true rfl, Bool.true_and, h]
  · rw [post_other e g same, decide_eq_false same, Bool.false_and, Bool.or_false]

/-- A record joins an orderly stretch of the queue just where its flag was not marked reported. -/
theorem orderly_join {marks marks' : Fin 20 → Bool} {f : Fin 20} (unmarked : marks f = false)
    (joined : ∀ x, marks' x = (marks x || decide (x = f))) (q : List (Fin 20)) :
    ((q ++ [f]).Nodup ∧ ∀ x ∈ q ++ [f], marks' x = true) ↔ (q.Nodup ∧ ∀ x ∈ q, marks x = true) := by
  simp only [List.nodup_append, List.mem_append, List.mem_singleton, joined, Bool.or_eq_true, decide_eq_true_eq]
  constructor
  · rintro ⟨⟨once, -, apart⟩, all⟩
    exact ⟨once, fun x hx => (all x (.inl hx)).resolve_right (apart x hx f rfl)⟩
  · rintro ⟨once, all⟩
    refine ⟨⟨once, List.nodup_singleton f, ?_⟩, fun x hx => hx.imp_left (all x)⟩
    rintro x hx _ rfl rfl
    exact absurd (all x hx) (by simp [unmarked])

/-- A post that gives no mark itself neither makes nor breaks the order: the record that joins is the first of its flag. -/
theorem orderly_post (e : Events) {f : Fin 20} {g : EventFlag} (h : g.reported = (e.flags[f]).reported) :
    (e.post f g).orderly = e.orderly := by
  funext k
  have marks := post_reported e h
  unfold Events.orderly
  rw [post_queue]
  cases joins : g.set && !g.masked && !g.reported with
  | false =>
    simp only [marks, joins, Bool.and_false, Bool.or_false, Bool.false_eq_true, if_false, List.append_nil]
  | true =>
    rw [if_pos rfl, List.drop_append]
    rcases Nat.eq_zero_or_pos (k - e.queue.length) with inside | beyond
    · have unmarked : (e.flags[f]).reported = false := by
        rw [← h]
        cases hr : g.reported <;> simp [hr] at joins ⊢
      rw [inside, List.drop_zero]
      exact propext (orderly_join (marks := fun x => (e.flags[x]).reported) unmarked
        (fun x => by rw [marks, joins, Bool.and_true]) _)
    · rw [List.drop_of_length_le (l := e.queue) (by omega), List.drop_of_length_le (l := [f]) beyond, List.append_nil]
      simp

/-! ## Flags raised, masked and acknowledged -/

theorem raised_reported (g : EventFlag) (p c r : Nat) : (g.raised p c r).reported = g.reported := by
  unfold EventFlag.raised
  split <;> rfl

@[simp] theorem orderly_raise (e : Events) (f : Fin 20) (p c r : Nat) : (e.raise f p c r).orderly = e.orderly :=
  orderly_post _ (raised_reported ..)

@[simp] theorem orderly_maskAll (e : Events) (n : Nat) : (e.maskAll n).orderly = e.orderly := by
  have all (l : List (Fin 20)) : ∀ e : Events, (l.foldl (fun e f => e.mask f (n.testBit f.val)) e).orderly = e.orderly := by
    induction l with
    | nil => exact fun _ => rfl
    | cons f l ih => exact fun e => (ih _).trans (orderly_post e rfl)
  exact all _ e

/-- EVACK withdraws the waiting records of the flags it clears, so that every record left is of a flag it leaves alone. -/
theorem orderly_ackAll (b : Bool) (fs : List (Fin 20)) {e : Events} (h : e.orderly (if b then 1 else 0)) :
    (e.ackAll b fs).1.orderly (if b then 1 else 0) := by
  obtain ⟨once, reported⟩ := h
  have left : (e.ackAll b fs).1.queue.drop (if b then 1 else 0)
      = (e.queue.drop (if b then 1 else 0)).filter (fun f => decide (f ∉ fs)) := by
    rw [ackAll_queue]
    cases b with
    | false => rfl
    | true => cases e.queue <;> rfl
  unfold Events.orderly
  rw [left]
  refine ⟨once.filter _, fun f hf => ?_⟩
  obtain ⟨waits, kept⟩ := List.mem_filter.1 hf
  rw [ackAll_not_mem b fs e f (of_decide_eq_true kept)]
  exact reported f waits

/-- The oldest record read away, or begun: the rest stays in order. -/
theorem orderly_tail {e : Events} {k n : Nat} (hkn : k ≤ n) (h : e.orderly k) : e.orderly n := by
  obtain ⟨once, reported⟩ := h
  have rest : e.queue.drop n = (e.queue.drop k).drop (n - k) := by
    rw [List.drop_drop, Nat.add_sub_cancel' hkn]
  unfold Events.orderly
  rw [rest]
  exact ⟨once.sublist (List.drop_sublist _ _), fun f hf => reported f (List.mem_of_mem_drop hf)⟩

@[simp] theorem orderly_ite {c : Prop} {h : Decidable c} (s t : State) :
    (if c then s else t).events.orderly = if c then s.events.orderly else t.events.orderly := by split <;> rfl

/-- An operation repeated over a list leaves what each of its rounds leaves. -/
theorem orderly_foldl {α : Type} {f : State → α → State} (h : ∀ s a, (f s a).events.orderly = s.events.orderly)
    (l : List α) (s : State) : (l.foldl f s).events.orderly = s.events.orderly := by
  induction l generalizing s with
  | nil => rfl
  | cons a l ih => exact (ih _).trans (h s a)

/-! ## Tables -/

@[simp] theorem orderly_setActive (id : Fin 14) (img : List Byte) (s : State) :
    (setActive id img s).events.orderly = s.events.orderly := by simp [setActive]

@[simp] theorem orderly_replaceActive (id : Fin 14) (img : List Byte) (s : State) :
    (replaceActive id img s).events.orderly = s.events.orderly := by simp [replaceActive]

@[simp] theorem orderly_applyPending (id : Fin 14) (s : State) : (applyPending id s).events.orderly = s.events.orderly := by
  unfold applyPending
  split <;> simp

@[simp] theorem orderly_applyAll (ids : List (Fin 14)) (s : State) : (applyAll ids s).events.orderly = s.events.orderly :=
  orderly_foldl (fun s id => orderly_applyPending id s) ids s

@[simp] theorem orderly_applyMotorTables (s : State) : (applyMotorTables s).events.orderly = s.events.orderly :=
  orderly_foldl (f := fun s id => if tableInUse id s then s else applyPending id s) (fun s id => by simp) _ s

@[simp] theorem mapCoder_events (c : CoderCtx) (f : Coder → Coder) (s : State) : (mapCoder c f s).events = s.events :=
  setCoder_events ..

/-! ## Page memory (R62 to R70) -/

@[simp] theorem orderly_pumpAsk (c : CoderCtx) (s : State) : (pumpAsk c s).events.orderly = s.events.orderly := by
  simp [pumpAsk, enterMemwait, allocate_events]

@[simp] theorem orderly_askBlock (c : CoderCtx) (s : State) : (askBlock c s).events.orderly = s.events.orderly := by
  simp [askBlock]

@[simp] theorem orderly_serveOne (c : CoderCtx) (s : State) : (serveOne c s).events.orderly = s.events.orderly := by
  simp [serveOne]

@[simp] theorem orderly_serveWaiters (s : State) : (serveWaiters s).events.orderly = s.events.orderly := by
  simp [serveWaiters]

@[simp] theorem orderly_freeSingle (b : Nat) (s : State) : (freeSingle b s).events.orderly = s.events.orderly := by
  simp [freeSingle]

@[simp] theorem orderly_freeCurrent (b n : Nat) (s : State) : (freeCurrent b n s).events.orderly = s.events.orderly := by
  simp [freeCurrent]

@[simp] theorem orderly_checkLink (b : Nat) (s : State) : (checkLink b s).events.orderly = s.events.orderly := by
  simp [checkLink]

@[simp] theorem orderly_freeChain (a b k : Nat) (c : Option Nat) (s : State) :
    (freeChain a b k c s).events.orderly = s.events.orderly := by simp [freeChain]

@[simp] theorem orderly_doUpkeep (u : Upkeep) (s : State) : (doUpkeep u s).events.orderly = s.events.orderly := by
  cases u <;> simp [doUpkeep, writeNext, writeHeader]

@[simp] theorem orderly_doBuild (s : State) : (doBuild s).events.orderly = s.events.orderly := by
  unfold doBuild
  split <;> simp [writeHeader]

/-! ## Page directory (R77 to R90) -/

@[simp] theorem orderly_idleCoder (c : CoderCtx) (s : State) : (idleCoder c s).events.orderly = s.events.orderly := by
  simp [idleCoder, killGrant]

@[simp] theorem orderly_idleDecoder (c : DecoderCtx) (s : State) : (idleDecoder c s).events.orderly = s.events.orderly := by
  simp [idleDecoder, killGrant]

@[simp] theorem orderly_dropEntry (e : Entry) (c : Option Nat) (s : State) :
    (dropEntry e c s).events.orderly = s.events.orderly := by simp [dropEntry, removeEntry]

@[simp] theorem orderly_settleEmpty (i : Nat) (s : State) : (settleEmpty i s).events.orderly = s.events.orderly := by
  unfold settleEmpty
  split <;> simp

@[simp] theorem orderly_settleChain (i : Nat) (c : Coder) (s : State) :
    (settleChain i c s).events.orderly = s.events.orderly := by
  unfold settleChain
  split <;> simp [writeHeader]

@[simp] theorem orderly_noteCompleted (c : CoderCtx) (i : Nat) (t q : Bool) (s : State) :
    (noteCompleted c i t q s).events.orderly = s.events.orderly := by
  cases c <;> simp [noteCompleted]

@[simp] theorem orderly_completePage (c : CoderCtx) (t q : Bool) (s : State) :
    (completePage c t q s).events.orderly = s.events.orderly := by
  unfold completePage
  dsimp only
  split <;> simp [markComplete]

@[simp] theorem orderly_clearReader (c : DecoderCtx) (i : Nat) (s : State) :
    (clearReader c i s).events.orderly = s.events.orderly := by simp [clearReader]

@[simp] theorem orderly_moveReader (c : DecoderCtx) (i l b : Nat) (s : State) :
    (moveReader c i l b s).events.orderly = s.events.orderly := by simp [moveReader]

@[simp] theorem orderly_admitReader (c : DecoderCtx) (e : Entry) (k : Bool) (s : State) :
    (admitReader c e k s).events.orderly = s.events.orderly := by simp [admitReader]

@[simp] theorem orderly_removeReader (c : DecoderCtx) (i : Nat) (s : State) :
    (removeReader c i s).events.orderly = s.events.orderly := by
  unfold removeReader
  split
  · rfl
  · split <;> simp

@[simp] theorem orderly_leaveBlock (c : DecoderCtx) (i b l o : Nat) (s : State) :
    (leaveBlock c i b l o s).events.orderly = s.events.orderly := by
  unfold leaveBlock
  split
  · rfl
  · split <;> simp

@[simp] theorem orderly_leaveAll (c : DecoderCtx) (i l o : Nat) (bs : List Nat) (s : State) :
    (leaveAll c i l o bs s).events.orderly = s.events.orderly := orderly_foldl (fun s b => orderly_leaveBlock c i b l o s) bs s

@[simp] theorem orderly_discardPage (i : Nat) (r : Bool) (s : State) :
    (discardPage i r s).events.orderly = s.events.orderly := by
  unfold discardPage
  split <;> simp [printPageGone, emptyPrintRing]

@[simp] theorem orderly_discardWritten (c : CoderCtx) (s : State) :
    (discardWritten c s).events.orderly = s.events.orderly := by
  unfold discardWritten
  split <;> simp

@[simp] theorem orderly_applyPolicy (c : CoderCtx) (p : Policy) (s : State) :
    (applyPolicy c p s).events.orderly = s.events.orderly := by
  cases p <;> simp [applyPolicy]

@[simp] theorem orderly_discardWaiting (c : CoderCtx) (s : State) :
    (discardWaiting c s).events.orderly = s.events.orderly := orderly_foldl (fun s i => orderly_discardPage i false s) _ s

@[simp] theorem orderly_enterDirwait (c : CoderCtx) (s : State) : (enterDirwait c s).events.orderly = s.events.orderly := by
  simp [enterDirwait]

@[simp] theorem orderly_endDirwait (c : CoderCtx) (s : State) : (endDirwait c s).events.orderly = s.events.orderly := by
  simp [endDirwait]

/-! ## The coder and decoder contexts (R54, R57) -/

@[simp] theorem orderly_beginCoding (c : CoderCtx) (s : State) : (beginCoding c s).events.orderly = s.events.orderly := by
  simp [beginCoding]

@[simp] theorem orderly_takeUpIntake (s : State) : (takeUpIntake s).events.orderly = s.events.orderly := by
  unfold takeUpIntake
  split <;> simp [createEntry]

@[simp] theorem orderly_coderStart (c : CoderCtx) (s : State) : (coderStart c s).events.orderly = s.events.orderly := by
  have sheet : (takeUpScan s).events.orderly = s.events.orderly := by
    unfold takeUpScan
    split <;> simp
  unfold coderStart
  split
  · split <;> simp [sheet]
  · rfl

@[simp] theorem orderly_lineCoded (c : CoderCtx) (s : State) : (lineCoded c s).events.orderly = s.events.orderly := by
  cases c <;> simp [lineCoded, freeCodedSlot]

@[simp] theorem orderly_placeLine (c : DecoderCtx) (p : Pass) (l : Line) (r o : Bool) (s : State) :
    (placeLine c p l r o s).events.orderly = s.events.orderly := by simp [placeLine, enterRing]

@[simp] theorem orderly_finishLine (c : DecoderCtx) (p : Pass) (r : LineRead) (s : State) :
    (finishLine c p r s).events.orderly = s.events.orderly := by
  unfold finishLine
  dsimp only
  split <;> simp [countDamage]

@[simp] theorem orderly_decoderStart (c : DecoderCtx) (s : State) : (decoderStart c s).events.orderly = s.events.orderly := by
  unfold decoderStart
  split <;> simp [replaceLine, countDamage]

@[simp] theorem orderly_decodeBurst (c : DecoderCtx) (s : State) : (decodeBurst c s).events.orderly = s.events.orderly := by
  unfold decodeBurst
  split
  · rfl
  · split <;> simp [enterSuccessor, firstUnitRead]

/-! ## Channels and the scan (R103, R119 to R135) -/

@[simp] theorem mapMotor_events (ch : Channel) (f : Motor → Motor) (s : State) : (mapMotor ch f s).events = s.events :=
  setMotor_events ..

@[simp] theorem issueStep_events (ch : Channel) (s : State) : (issueStep ch s).events = s.events := mapMotor_events ..

@[simp] theorem takeRun_events (ch : Channel) (o : Owner) (r : Bool) (q u : Nat) (n : Option Nat) (s : State) :
    (takeRun ch o r q u n s).events = s.events := by simp [takeRun]

@[simp] theorem orderly_settleScanPages (h : ScanSettle) (p : Policy) (s : State) :
    (settleScanPages h p s).events.orderly = s.events.orderly := by
  cases h <;> simp [settleScanPages, settleWritten]

@[simp] theorem orderly_scanDecision (r : Nat) (h : ScanSettle) (d : Option Nat) (s : State) :
    (scanDecision r h d s).events.orderly = s.events.orderly := by
  unfold scanDecision
  split <;> simp [emptyScanRing, releasePlace]

@[simp] theorem orderly_scanFaulted (s : State) : (scanFaulted s).events.orderly = s.events.orderly := by
  unfold scanFaulted
  split <;> simp [emptyScanRing]

@[simp] theorem orderly_settleScanEnd (s : State) : (settleScanEnd s).events.orderly = s.events.orderly := by
  have ended (j : ScanJob) : (endScan j s).events.orderly = s.events.orderly := by
    unfold endScan
    dsimp only
    split <;> simp [emptyScanRing]
  unfold settleScanEnd
  split <;> simp [ended]

@[simp] theorem orderly_scanJam (p r : Nat) (s : State) : (scanJam p r s).events.orderly = s.events.orderly := by
  simp [scanJam]

@[simp] theorem orderly_closingBoundary (s : State) : (closingBoundary s).events.orderly = s.events.orderly := by
  unfold closingBoundary
  split <;> simp

@[simp] theorem orderly_pageStart (s : State) : (pageStart s).events.orderly = s.events.orderly := by
  have applied := orderly_applyAll scanTables s
  unfold pageStart
  generalize applyAll scanTables s = u at *
  exact applied

@[simp] theorem orderly_boundaryStep (first : Bool) (j : ScanJob) (s : State) :
    (boundaryStep first j s).events.orderly = s.events.orderly := by simp [boundaryStep]

@[simp] theorem orderly_searchStep (j : ScanJob) (s : State) : (searchStep j s).events.orderly = s.events.orderly := by
  have edge (u : State) : (leadingEdge u).events = u.events := by
    unfold leadingEdge
    split <;> rfl
  simp [searchStep, edge]

@[simp] theorem orderly_scanStep (first : Bool) (s : State) : (scanStep first s).events.orderly = s.events.orderly := by
  unfold scanStep
  split
  · simp
  · split <;> simp [pageStep]

@[simp] theorem orderly_startScanRun (r : Bool) (s : State) : (startScanRun r s).events.orderly = s.events.orderly := by
  unfold startScanRun
  split <;> simp

@[simp] theorem orderly_settleScanRestart (s : State) : (settleScanRestart s).events.orderly = s.events.orderly := by
  unfold settleScanRestart
  split <;> simp

@[simp] theorem orderly_settleRoom (s : State) : (settleRoom s).events.orderly = s.events.orderly := by
  have given (u : State) : (scanRoom u).events.orderly = u.events.orderly := by
    unfold scanRoom
    split
    · simp
    · dsimp only
      split <;> simp
  simp [settleRoom, given]

/-! ## Intake and output (R157 to R166) -/

@[simp] theorem orderly_endIntake (r : Nat) (s : State) : (endIntake r s).events.orderly = s.events.orderly := by
  unfold endIntake
  split <;> simp [clearIntakeLine, emptyIntakeRing]

@[simp] theorem orderly_settleIntake (s : State) : (settleIntake s).events.orderly = s.events.orderly := by
  have closed : (closePage s).events.orderly = s.events.orderly := by
    unfold closePage
    split
    · rfl
    · split <;> simp
  unfold settleIntake
  split <;> simp [closed]

@[simp] theorem orderly_memExpire (c : CoderCtx) (s : State) : (memExpire c s).events.orderly = s.events.orderly := by
  have intake : (intakeMemExpiry s).events.orderly = s.events.orderly := by
    unfold intakeMemExpiry
    split <;> simp
  cases c <;> simp [memExpire, scanMemExpiry, intake]

@[simp] theorem orderly_dirExpire (c : CoderCtx) (s : State) : (dirExpire c s).events.orderly = s.events.orderly := by
  cases c <;> simp [dirExpire, scanDirExpiry, intakeDirExpiry]

@[simp] theorem orderly_zeroWaits (s : State) : (zeroWaits s).events.orderly = s.events.orderly := by
  have one (c : CoderCtx) (u : State) : (zeroWait c u).events.orderly = u.events.orderly := by simp [zeroWait]
  simp [zeroWaits, one]

@[simp] theorem orderly_settleOutput (s : State) : (settleOutput s).events.orderly = s.events.orderly := by
  unfold settleOutput
  split <;> simp

@[simp] theorem orderly_settlePass (c : DecoderCtx) (s : State) : (settlePass c s).events.orderly = s.events.orderly := by
  unfold settlePass
  split
  · rfl
  · cases c <;> simp

/-! ## The Print Engine (R136 to R155) -/

@[simp] theorem requestP_events (r : MotorRequest) (s : State) : (requestP r s).1.events = s.events := by
  unfold requestP
  split
  · rfl
  · split
    · simp
    · cases r <;> simp [takeBurst]

@[simp] theorem askSteps_events (k : Stepping) (r : MotorRequest) (n : Nat) (s : State) :
    (askSteps k r n s).events = s.events := by
  unfold askSteps
  dsimp only
  split <;> simp

@[simp] theorem orderly_staleSpellBegins (p : Nat) (s : State) :
    (staleSpellBegins p s).events.orderly = s.events.orderly := by simp [staleSpellBegins]

@[simp] theorem orderly_strobeLine (s : State) : (strobeLine s).events.orderly = s.events.orderly := by
  unfold strobeLine
  split
  · rfl
  · dsimp only
    split <;> simp [lineSteps]

@[simp] theorem orderly_copyItems (s : State) : (copyItems s).events.orderly = s.events.orderly := by simp [copyItems]

@[simp] theorem orderly_afterExit (s : State) : (afterExit s).events.orderly = s.events.orderly := by
  have next (u : State) : (nextCopy u).events.orderly = u.events.orderly := by
    unfold nextCopy restartPass
    split
    · rfl
    · rw [orderly_copyItems]
      split <;> simp [emptyPrintRing]
  unfold afterExit
  dsimp only
  split <;> simp [next]

@[simp] theorem orderly_pageEnd (s : State) : (pageEnd s).events.orderly = s.events.orderly := by
  unfold pageEnd
  split <;> simp [exitSteps]

@[simp] theorem orderly_takeSource (n : Nat) (s : State) : (takeSource n s).1.events.orderly = s.events.orderly := by
  induction n generalizing s with
  | zero => rfl
  | succ n ih =>
    unfold takeSource
    split
    · rfl
    · split
      · split <;> simp
      · dsimp only
        split
        · split
          · simp
          · simp [ih]
        · rfl

@[simp] theorem orderly_lineStart (s : State) : (lineStart s).events.orderly = s.events.orderly := by
  unfold lineStart
  split
  · rfl
  · have source (c : Prop) [Decidable c] :
        (if c then takeSource (Config.printRingSlots + 1) s else (s, true)).1.events.orderly = s.events.orderly := by
      split <;> simp
    simp [suspendPrint, source]

@[simp] theorem orderly_printMove (s : State) : (printMove s).events.orderly = s.events.orderly := by
  unfold printMove
  split
  · rfl
  · split <;> simp [endingMove, exitSteps, endPrint, emptyPrintRing]

@[simp] theorem orderly_settlePrint (s : State) : (settlePrint s).events.orderly = s.events.orderly := by
  have moves (n : Nat) (u : State) : (printMoves n u).events.orderly = u.events.orderly := by
    induction n generalizing u with
    | zero => simp [printMoves]
    | succ n ih => simp [printMoves, ih]
  exact moves 400 s

/-! ## What follows at once -/

@[simp] theorem spillReady_events (s : State) : (spillReady s).events = s.events := by
  unfold spillReady
  split
  · split <;> rfl
  · rfl

@[simp] theorem arbitrate_events (s : State) : (arbitrate s).events = s.events := by
  unfold arbitrate
  dsimp only
  split
  · simp
  · split
    · simp [grantBurst]
    · split <;> simp [grantBurst]

@[simp] theorem updateIdle_events (s : State) : (updateIdle s).events = s.events := by
  unfold updateIdle
  split
  · split <;> rfl
  · rfl

/-- What follows a command at once posts flags and takes no record from the queue. -/
@[simp] theorem orderly_settle (s : State) : (settle s).events.orderly = s.events.orderly := by
  simp [settle, settleJobs]

/-! ## The orders (R3) -/

@[simp] theorem orderCalibrate_events (s : State) : (orderCalibrate s).1.events = s.events := by
  unfold orderCalibrate
  split <;> rfl

@[simp] theorem orderIntake_events (p : List Byte) (s : State) : (orderIntake p s).1.events = s.events := by
  unfold orderIntake
  split
  · split
    · rfl
    · split <;> rfl
  · rfl

@[simp] theorem orderIntakeEnd_events (s : State) : (orderIntakeEnd s).1.events = s.events := by
  unfold orderIntakeEnd
  split <;> rfl

@[simp] theorem orderly_orderScan (p : List Byte) (s : State) : (orderScan p s).1.events.orderly = s.events.orderly := by
  unfold orderScan
  split
  · split
    · rfl
    · dsimp only
      split
      · rfl
      · simp [beginScan]
  · rfl

@[simp] theorem orderly_orderOutput (p : List Byte) (s : State) :
    (orderOutput p s).1.events.orderly = s.events.orderly := by
  unfold orderOutput
  split
  · rfl
  · split
    · rfl
    · split
      · rfl
      · split
        · rfl
        · simp

@[simp] theorem orderly_orderPrint (p : List Byte) (s : State) : (orderPrint p s).1.events.orderly = s.events.orderly := by
  unfold orderPrint
  split
  · split
    · rfl
    · split
      · rfl
      · split
        · rfl
        · split
          · rfl
          · split
            · rfl
            · simp [beginPrint]
  · rfl

@[simp] theorem orderly_orderErase (p : List Byte) (s : State) : (orderErase p s).1.events.orderly = s.events.orderly := by
  unfold orderErase
  split
  · rfl
  · split
    · rfl
    · rfl
    · split <;> simp

@[simp] theorem orderly_orderStop (p : List Byte) (s : State) : (orderStop p s).1.events.orderly = s.events.orderly := by
  have scan (k : Bool) (a : List Byte) : (orderStopScan k a s).1.events.orderly = s.events.orderly := by
    unfold orderStopScan
    split
    · split <;> simp
    · rfl
  have intake (k : Bool) (a : List Byte) : (orderStopIntake k a s).1.events.orderly = s.events.orderly := by
    unfold orderStopIntake
    split <;> simp
  have print (a : List Byte) : (orderStopPrint a s).1.events.orderly = s.events.orderly := by
    unfold orderStopPrint
    split
    · rfl
    · split <;> simp [emptyPrintRing]
  have output (a : List Byte) : (orderStopOutput a s).1.events.orderly = s.events.orderly := by
    unfold orderStopOutput
    split
    · rfl
    · split <;> simp [emptyOutputRing]
  unfold orderStop
  split
  · rfl
  · split <;> simp [scan, intake, print, output]

@[simp] theorem orderly_orderResume (p : List Byte) (s : State) :
    (orderResume p s).1.events.orderly = s.events.orderly := by
  unfold orderResume printResume
  split
  · rfl
  · split
    · split <;> simp
    · split
      · rfl
      · split
        · rfl
        · split <;> simp [resumePrint, exitSteps]

@[simp] theorem orderly_orderMove (p : List Byte) (s : State) : (orderMove p s).1.events.orderly = s.events.orderly := by
  unfold orderMove
  split
  · split
    · rfl
    · split <;> simp
  · rfl

@[simp] theorem orderPower_events (p : List Byte) (s : State) : (orderPower p s).1.events = s.events := by
  unfold orderPower takeDoze
  dsimp only
  split
  · split
    · rfl
    · split <;> rfl
  · split <;> rfl
  · split <;> rfl
  · rfl

@[simp] theorem orderly_reachReady (r : Nat) (s : State) : (reachReady r s).events.orderly = s.events.orderly := by
  unfold reachReady
  dsimp only
  split <;> simp

@[simp] theorem startBuild_events (s : State) : (startBuild s).events = s.events := rfl

@[simp] theorem orderly_orderReady (s : State) : (orderReady s).1.events.orderly = s.events.orderly := by
  unfold orderReady
  split
  · split <;> simp
  · rfl

@[simp] theorem beginReturn_events (r : Nat) (s : State) : (beginReturn r s).events = s.events := by
  unfold beginReturn
  split <;> rfl

theorem orderly_dropJobs (s : State) : (dropJobs s).events.orderly = s.events.orderly := by
  simp [dropJobs, abandonCalibration, clearIntakeLine, emptyOutputRing, emptyPrintRing, emptyIntakeRing, emptyScanRing,
    fillReplies]

theorem orderly_dropReaders (s : State) (i : Nat) : (dropReaders s i).events.orderly = s.events.orderly := by
  simp [dropReaders]

theorem orderly_completeAtPfail (s : State) (i : Nat) : (completeAtPfail s i).events.orderly = s.events.orderly := by
  simp [completeAtPfail, markComplete]

theorem orderly_endAtPfail (s : State) : (endAtPfail s).events.orderly = s.events.orderly := by
  unfold endAtPfail
  rw [orderly_dropJobs]
  exact (orderly_foldl orderly_dropReaders ..).trans (orderly_foldl orderly_completeAtPfail ..)

theorem orderly_endAtRestart (s : State) : (endAtRestart s).events.orderly = s.events.orderly := by
  unfold endAtRestart
  rw [orderly_dropJobs]
  exact (orderly_foldl orderly_dropReaders ..).trans (orderly_foldl (fun s i => orderly_discardPage i true s) ..)

@[simp] theorem orderly_orderRestart (s : State) : (orderRestart s).1.events.orderly = s.events.orderly := by
  have motors (u : State) : (restartMotors u).events.orderly = u.events.orderly := by simp [restartMotors, cutOffBoth]
  have diag (u : State) : (restartDiag (restartFront u)).events = u.events := rfl
  unfold orderRestart
  dsimp only
  split <;> simp [motors, diag, orderly_endAtRestart]

@[simp] theorem orderly_actOrder (c : Nat) (p : List Byte) (s : State) :
    (actOrder c p s).1.events.orderly = s.events.orderly := by
  unfold actOrder
  split
  all_goals simp [orderTemp]

/-! ## LOAD and DIAG -/

@[simp] theorem orderly_installImage (id : Fin 14) (img : List Byte) (s : State) :
    (installImage id img s).1.events.orderly = s.events.orderly := by
  unfold installImage
  split
  · simp [installSettings]
  · split <;> simp

@[simp] theorem orderly_gather (id : Fin 14) (n : Nat) (f : Bool) (img : List Byte) (s : State) :
    (gather id n f img s).1.events.orderly = s.events.orderly := by
  have complete (u : State) : (completeImage id img u).1.events.orderly = u.events.orderly := by
    unfold completeImage
    split
    · rfl
    · split
      · rfl
      · split <;> simp
  unfold gather
  split
  · simp
  · split <;> simp [complete]

@[simp] theorem orderly_loadSegment (id : Fin 14) (seg fin : Nat) (bs : List Byte) (s : State) :
    (loadSegment id seg fin bs s).1.events.orderly = s.events.orderly := by
  unfold loadSegment
  split
  · rfl
  · split
    · simp
    · split
      · rfl
      · split <;> simp

@[simp] theorem orderly_actLoad (sub : Byte) (p : List Byte) (s : State) :
    (actLoad sub p s).1.events.orderly = s.events.orderly := by
  unfold actLoad
  split <;> simp

@[simp] theorem actDiag_events (sub : Byte) (p : List Byte) (s : State) : (actDiag sub p s).1.events = s.events := by
  have item (m i : Nat) (img : List Byte) : (writeItem m i img s).1.events = s.events := by
    unfold writeItem
    split
    · simp
    · split
      · rfl
      · unfold writeCopy
        split
        · rfl
        · split
          · rfl
          · unfold putCopy
            split
            · simp
            · split <;> rfl
    · simp [setRing]
  unfold actDiag orderDiag
  split
  · rfl
  · unfold takeDiag
    split
    · rfl
    · rfl
    · rfl
    · dsimp only
      split <;> exact item ..

/-! ## The record partly read -/

/-- The queue past the record partly read is in order: what the two invariants say together (R184, R186). -/
def State.inOrder (s : State) : Prop := s.events.orderly (if eventBegun s then 1 else 0)

theorem inOrder_iff (s : State) : s.inOrder ↔ s.queueSound ∧ s.queueReported := Iff.rfl

/-- What leaves the outbound record and the order of the queue keeps the queue in order. -/
theorem inOrder_of_course {s t : State} (hc : t.port.course = s.port.course) (ho : t.events.orderly = s.events.orderly)
    (h : s.inOrder) : t.inOrder := by
  unfold State.inOrder eventBegun at *
  rw [hc, ho]
  exact h

theorem course_of_talk {p q : Port} (h : p.talk = q.talk) : p.course = q.course := ((talk_iff p q).1 h).2.2.1

theorem inOrder_of_talk {s t : State} (ht : t.port.talk = s.port.talk) (ho : t.events.orderly = s.events.orderly)
    (h : s.inOrder) : t.inOrder := inOrder_of_course (course_of_talk ht) ho h

theorem inOrder_raise (f : Fin 20) (p c r : Nat) {s : State} (h : s.inOrder) : (raise f p c r s).inOrder :=
  inOrder_of_course (s := s) rfl (by simp) h

theorem inOrder_settle {s : State} (h : s.inOrder) : (settle s).inOrder := inOrder_of_talk (talk_settle s) (orderly_settle s) h

theorem inOrder_arbitrate {s : State} (h : s.inOrder) : (arbitrate s).inOrder :=
  inOrder_of_talk (talk_arbitrate s) (by simp) h

/-- After every cold start the queue is empty and no record partly read. -/
theorem inOrder_of_reset {s : State} (h : s.events = Events.reset) : s.inOrder := by
  unfold State.inOrder
  rw [h]
  exact ⟨by simp [Events.reset], by simp [Events.reset]⟩

theorem inOrder_coldStart (s : State) : (coldStart s).inOrder := inOrder_of_reset rfl

/-! ## Ending everything -/

theorem course_dropJobs (s : State) : (dropJobs s).port.course = s.port.course := by
  have calibration : (abandonCalibration s).port.course = s.port.course := by
    unfold abandonCalibration
    split <;> rfl
  refine Eq.trans (course_of_talk ?_) calibration
  simp [dropJobs]

theorem course_endAtPfail (s : State) : (endAtPfail s).port.course = s.port.course := by
  unfold endAtPfail
  rw [course_dropJobs]
  exact course_of_talk ((talk_foldl talk_dropReaders ..).trans (talk_foldl talk_completeAtPfail ..))

theorem course_endAtRestart (s : State) : (endAtRestart s).port.course = s.port.course := by
  unfold endAtRestart
  rw [course_dropJobs]
  exact course_of_talk ((talk_foldl talk_dropReaders ..).trans (talk_foldl (fun s i => talk_discardPage i true s) ..))

theorem course_orderRestart (s : State) : (orderRestart s).1.port.course = s.port.course := by
  have stopped : (restartMotors (restartDiag (restartFront (endAtRestart s)))).port.course = s.port.course :=
    (course_of_talk (talk_restartMotors _)).trans (course_endAtRestart s)
  unfold orderRestart
  dsimp only
  split
  · exact (course_of_talk (talk_beginReturn ..)).trans stopped
  · exact stopped

theorem course_actOrder (c : Nat) (p : List Byte) (s : State) : (actOrder c p s).1.port.course = s.port.course := by
  unfold actOrder
  split
  case h_14 => exact course_orderRestart s
  all_goals exact course_of_talk (by simp)

/-! ## Records (R3, R186) -/

theorem inOrder_answer (r : Record) {x : State × ReplyBody} (h : x.1.inOrder) : (answer r x).inOrder :=
  inOrder_of_course rfl rfl h

theorem inOrder_evack (p : List Byte) {s : State} (h : s.inOrder) : (orderEvack p s).1.inOrder := by
  unfold orderEvack
  split
  · exact h
  · exact orderly_ackAll _ _ h

/-- Of the records EVACK alone withdraws from the queue. -/
theorem inOrder_act (r : Record) {s : State} (h : s.inOrder) : (act r s).inOrder := by
  unfold act
  split
  · exact inOrder_answer r h
  · split
    · unfold actLine
      split
      · exact inOrder_answer r h
      · exact inOrder_of_course rfl rfl h
    · split
      · exact inOrder_arbitrate (inOrder_answer r (inOrder_of_talk (talk_actLoad ..) (orderly_actLoad ..) h))
      · split
        · exact inOrder_answer r h
        · split
          · exact inOrder_answer r (inOrder_evack _ h)
          · split
            · exact inOrder_arbitrate (inOrder_answer r (inOrder_of_talk (talk_actDiag ..) (by simp) h))
            · split
              · exact inOrder_settle (inOrder_answer r (inOrder_of_course (course_actOrder ..) (orderly_actOrder ..) h))
              · exact inOrder_answer r h

theorem inOrder_dispatch (r : Record) {s : State} (h : s.inOrder) : (dispatch r s).inOrder :=
  inOrder_of_course (s := act r (mapPort (fun p => { p with inbound := .receiving [] }) s)) rfl rfl
    (inOrder_act r (inOrder_of_course rfl rfl h))

theorem inOrder_completeRecord (r : Record) {s : State} (h : s.inOrder) : (completeRecord r s).inOrder := by
  unfold completeRecord
  split
  · exact inOrder_of_talk (talk_beginReturn ..) (by rw [beginReturn_events]) (inOrder_of_course rfl rfl h)
  · exact inOrder_dispatch r h

theorem inOrder_setInbound (i : Inbound) {s : State} (h : s.inOrder) : (setInbound i s).inOrder :=
  inOrder_of_course rfl rfl h

theorem inOrder_drained (k b : Byte) (st : Status) {s : State} (h : s.inOrder) : (drained k b st s).inOrder :=
  inOrder_of_course rfl rfl h

theorem inOrder_takeByte (d : Byte) {s : State} (h : s.inOrder) : (takeByte d s).inOrder := by
  unfold takeByte
  split
  · unfold appendByte
    split
    · exact inOrder_setInbound _ h
    · split
      · unfold headerTaken
        split
        · split
          · exact inOrder_drained _ _ _ h
          · exact inOrder_setInbound _ h
        · split
          · exact inOrder_completeRecord _ h
          · exact inOrder_setInbound _ h
      · split
        · exact inOrder_setInbound _ h
        · exact inOrder_completeRecord _ h
  · split
    · exact inOrder_drained _ _ _ h
    · exact inOrder_setInbound _ h
  · exact h

@[simp] theorem orderly_coverFound (s : State) : (coverFound s).events.orderly = s.events.orderly := by
  simp [coverFound, cutOffBoth]

@[simp] theorem orderly_takeLatch (s : State) : (takeLatch s).events.orderly = s.events.orderly := by
  simp [takeLatch]

@[simp] theorem orderly_leaveSleep (s : State) : (leaveSleep s).events.orderly = s.events.orderly := by
  simp [leaveSleep, readShadow]

@[simp] theorem orderly_sleepWake (r : Nat) (s : State) : (sleepWake r s).events.orderly = s.events.orderly := by
  simp [sleepWake]

theorem inOrder_strobe (g : Bool) (d : Byte) {s : State} (h : s.inOrder) : (strobe g d s).inOrder := by
  have together : (holdTogether d s).inOrder := by
    unfold holdTogether
    split
    · split
      · split
        · exact inOrder_setInbound _ h
        · exact h
      · exact h
    · exact h
    · exact h
  unfold strobe
  split
  · exact inOrder_arbitrate (inOrder_of_talk (talk_sleepWake ..) (orderly_sleepWake ..) h)
  · split
    · exact inOrder_takeByte d h
    · split
      · exact together
      · exact h

theorem inOrder_writeRecord (r : Record) {s : State} (h : s.inOrder) : (writeRecord r s).inOrder := by
  have bytes (bs : List Byte) : ∀ {s : State}, s.inOrder → (bs.foldl (fun s d => strobe false d s) s).inOrder := by
    induction bs with
    | nil => exact id
    | cons b bs ih => exact fun h => ih (inOrder_strobe false b h)
  unfold writeRecord
  split
  · split
    · exact inOrder_drained _ _ _ h
    · exact inOrder_completeRecord r h
  · exact bytes _ h

theorem inOrder_dispatchHeld {s : State} (h : s.inOrder) : (dispatchHeld s).inOrder := by
  unfold dispatchHeld
  split
  · exact inOrder_dispatch _ h
  · exact h
  · exact h

/-! ## The outbound side (R8, R9, R186) -/

/-- Past the record that a read strobe takes its byte from the queue is in order, begun before or only now. -/
theorem orderly_driven {c : OutCourse} {s : State}
    (hc : s.port.course = none ∨ ∃ r, s.port.course = some { c with rest := r }) (h : s.inOrder) :
    s.events.orderly (if c.source = .event then 1 else 0) := by
  refine orderly_tail ?_ h
  rcases hc with none | ⟨r, some⟩
  · simp [eventBegun, none]
  · simp [eventBegun, some]

/-- The record read to its end leaves the queue (R185). -/
theorem inOrder_outboundEnd (o : OutSource) {s : State} (idle : s.port.course = none)
    (h : s.events.orderly (if o = .event then 1 else 0)) : (outboundEnd o s).inOrder := by
  have begun : eventBegun s = false := by rw [eventBegun, idle]
  have apart (ho : o ≠ .event) : s.inOrder := by
    unfold State.inOrder
    rw [begun]
    rwa [if_neg ho] at h
  cases o with
  | reply => exact inOrder_of_course rfl rfl (apart nofun)
  | line => exact inOrder_settle (inOrder_of_course rfl rfl (apart nofun))
  | event =>
    unfold State.inOrder
    rw [show eventBegun (outboundEnd .event s) = false from begun]
    exact h

/-- A read strobe begins a record, reads it on, or reads it to its end. -/
theorem inOrder_driveByte {c : OutCourse} {s : State}
    (hc : s.port.course = none ∨ ∃ r, s.port.course = some { c with rest := r }) (h : s.inOrder) :
    (driveByte c s).inOrder := by
  have past := orderly_driven hc h
  unfold driveByte
  split
  · exact h
  · exact inOrder_outboundEnd c.source rfl past
  · simpa [State.inOrder, eventBegun] using past

theorem inOrder_readStrobe {s : State} (h : s.inOrder) : (readStrobe s).inOrder := by
  unfold readStrobe
  split
  · split
    · next c hc => exact inOrder_driveByte (.inr ⟨c.rest, hc⟩) h
    · next hc =>
      split
      · exact inOrder_driveByte (.inl hc) h
      · exact h
  · exact inOrder_of_course rfl rfl h

/-! ## Bursts -/

@[simp] theorem orderly_unitsWritten (c : CoderCtx) (n : Nat) (s : State) :
    (unitsWritten c n s).events.orderly = s.events.orderly := by
  have after (w : Bool) (u : State) : (afterLine c w u).events.orderly = u.events.orderly := by
    cases c <;> simp [afterLine]
  simp [unitsWritten, after]

theorem inOrder_diagBurst {s : State} (h : s.inOrder) : (diagBurst s).inOrder := by
  unfold diagBurst
  split
  · exact h
  · dsimp only
    split <;> exact inOrder_of_course rfl rfl h

@[simp] theorem orderly_abandonEntry (d : Bool) (k : Nat) (s : State) :
    (abandonEntry d k s).events.orderly = s.events.orderly := by simp [abandonEntry]

@[simp] theorem standbySpilled_events (s : State) : (standbySpilled s).events = s.events := by
  unfold standbySpilled
  split
  · rfl
  · split <;> rfl

@[simp] theorem orderly_clearMarker (z : MemSize) (n : AfterClear) (s : State) :
    (clearMarker z n s).events.orderly = s.events.orderly := by
  cases n
  · simp [clearMarker]
  · simp [clearMarker, noSpill]
  · unfold clearMarker standbyAbandoned
    dsimp only
    split <;> simp

@[simp] theorem orderly_spillBurst (s : State) : (spillBurst s).events.orderly = s.events.orderly := by
  unfold spillBurst
  split
  · rfl
  · unfold checkCandidate
    split
    · rfl
    · split <;> rfl
  · unfold readSpill
    dsimp only
    split
    · split <;> simp [noSpill]
    · rfl
  · simp [rereadSpill, restoreSpill, readShadow]
  · simp
  · rfl
  · rfl
  · unfold writeMarker
    dsimp only
    split <;> simp [askSelfRefresh]

/-- SLEEP, STANDBY or the hold reached as the DRAM enters self-refresh (R74); only a hold whose warning is gone starts cold. -/
theorem inOrder_enterSelfRefresh (w : SelfRefreshFor) {s : State} (h : s.inOrder) : (enterSelfRefresh w s).inOrder := by
  have asleep : (abandonDiag (mapPmc (fun p =>
      { p with selfRefresh := true, srPending := none, refreshDue := false }) s)).inOrder := inOrder_of_course rfl rfl h
  unfold enterSelfRefresh
  dsimp only
  split
  · exact asleep
  · exact asleep
  · unfold reachHold
    dsimp only
    split
    · exact asleep
    · exact inOrder_coldStart _
  · exact asleep
  · exact asleep

theorem inOrder_endGrant {s : State} (h : s.inOrder) : (endGrant s).inOrder := by
  unfold endGrant
  split
  · exact h
  · have free : (mapPmc (fun p => { p with grant := none }) s).inOrder := h
    generalize mapPmc (fun p => { p with grant := none }) s = u at free
    unfold deliver
    split
    · exact free
    · unfold lastRefreshMade
      split
      · exact free
      · exact inOrder_enterSelfRefresh _ free
    · exact inOrder_of_talk (by simp) (by simp) free
    · exact inOrder_of_talk (by simp) (by simp) free
    · exact inOrder_of_talk (by simp) (by simp) free
    · exact inOrder_of_talk (by simp) (by simp) free
    · exact inOrder_of_talk (by simp) (by simp) free
    · split
      · exact inOrder_diagBurst free
      · exact free

/-! ## Readouts, motor and head events -/

theorem inOrder_readoutEnds (v : Vector Byte 1760) {s : State} (h : s.inOrder) : (readoutEnds v s).inOrder := by
  have calibrated (b w : List Byte) : (endCalibration b w s).inOrder := by
    have replaced : (replaceActive tShading (shadingImage b w)
        (mapFront (fun f => { f with cal := none, lamp := false }) s)).inOrder := inOrder_of_talk (by simp) (by simp) h
    exact inOrder_raise _ _ _ _ (inOrder_of_course rfl rfl replaced)
  have placed (r : Rings) (f : ScanFront) : ({ s with rings := r, front := f } : State).inOrder := h
  unfold readoutEnds
  split
  · unfold calibrationLine
    dsimp only
    split
    · split <;> exact h
    · exact h
    · split
      · exact h
      · exact calibrated ..
  · unfold lineRead
    split
    · exact placed _ _
    · exact h

@[simp] theorem lampWarm_events (s : State) : (lampWarm s).events = s.events := by
  unfold lampWarm
  split
  · rfl
  · split <;> rfl

@[simp] theorem orderly_stepFalls (ch : Channel) (s : State) : (stepFalls ch s).events.orderly = s.events.orderly := by
  unfold stepFalls
  split
  · split <;> simp
  · rfl

@[simp] theorem orderly_motionEnds (ch : Channel) (s : State) : (motionEnds ch s).events.orderly = s.events.orderly := by
  have rest (c : Channel) (u : State) : (restChannel c u).events = u.events := mapMotor_events ..
  have print (u : State) : (printRest u).events.orderly = u.events.orderly := by
    unfold printRest
    split
    · rfl
    · split <;> simp [lineDone]
  have waiting (u : State) : (takeWaiting u).events = u.events := by
    unfold takeWaiting
    split <;> simp
  unfold motionEnds
  split
  · split <;> simp [rest, print, waiting]
  · rfl

@[simp] theorem headEvent_events (f : Strobe → Strobe) (s : State) : (headEvent f s).events = s.events := by
  unfold headEvent strobesMoved
  split
  · rfl
  · split
    · rfl
    · split <;> simp [lineSteps]

@[simp] theorem orderly_tempExpired (s : State) : (tempExpired s).events.orderly = s.events.orderly := by
  unfold tempExpired
  split
  · rfl
  · dsimp only
    split <;> simp

/-! ## Power states, lines, resets -/

@[simp] theorem orderly_entryGoesOn (s : State) : (entryGoesOn s).events.orderly = s.events.orderly := by
  have checked (e : SleepEntry) : (passCheck e s).events = s.events := by
    unfold passCheck
    dsimp only
    split <;> rfl
  unfold entryGoesOn
  split
  · rfl
  · split
    · split <;> simp [checked]
    · rfl

theorem inOrder_wakeEvent (r : Nat) {s : State} (h : s.inOrder) : (wakeEvent r s).inOrder := by
  unfold wakeEvent
  split
  · exact h
  · exact inOrder_of_talk (talk_beginReturn ..) (by simp) h
  · exact inOrder_of_talk (talk_sleepWake ..) (by simp) h
  · exact inOrder_coldStart _

theorem inOrder_wakeRise (b r : Nat) (m : Risen → Risen) {s : State} (h : s.inOrder) : (wakeRise b r m s).inOrder := by
  unfold wakeRise
  split
  · exact h
  · split
    · exact inOrder_wakeEvent r h
    · exact h

theorem inOrder_ringRises {s : State} (h : s.inOrder) : (ringRises s).inOrder := by
  unfold ringRises
  split
  · exact h
  · exact inOrder_wakeRise _ _ _ h

theorem inOrder_keyRises {s : State} (h : s.inOrder) : (keyRises s).inOrder := by
  unfold keyRises
  split
  · exact h
  · exact inOrder_wakeRise _ _ _ h

theorem inOrder_docpRises {s : State} (h : s.inOrder) : (docpRises s).inOrder := by
  unfold docpRises
  split
  · exact h
  · have woken := inOrder_wakeRise 2 3 (fun r => { r with docp := true })
      (s := { s with lines := { s.lines with docp := true } }) h
    unfold docIn
    split
    · exact inOrder_raise _ _ _ _ woken
    · exact woken

theorem inOrder_wakeTimerExpires {s : State} (h : s.inOrder) : (wakeTimerExpires s).inOrder := by
  unfold wakeTimerExpires
  split
  · exact inOrder_wakeEvent _ h
  · exact h

@[simp] theorem idleExpires_events (s : State) : (idleExpires s).events = s.events := by
  unfold idleExpires
  split
  · split <;> rfl
  · rfl

@[simp] theorem orderly_coverFalls (s : State) : (coverFalls s).events.orderly = s.events.orderly := by
  simp [coverFalls, coverOpened, printFaulted, cutOffBoth]

theorem inOrder_pfailSequence {s : State} (h : s.inOrder) : (pfailSequence s).inOrder := by
  unfold pfailSequence
  dsimp only
  split
  · split <;> exact h
  · have ended : (endAtPfail (cutOffBoth byPfail s)).inOrder :=
      inOrder_of_course (course_endAtPfail _) (orderly_endAtPfail _) h
    generalize endAtPfail (cutOffBoth byPfail s) = u at *
    exact ended

theorem inOrder_pfailLineRises {s : State} (h : s.inOrder) : (pfailLineRises s).inOrder := by
  unfold pfailLineRises pfailRises
  split
  · exact h
  · split
    · exact h
    · split
      · exact h
      · split
        · exact inOrder_pfailSequence (inOrder_of_talk (talk_leaveSleep _) (orderly_leaveSleep _) h)
        · exact inOrder_pfailSequence h

theorem inOrder_pfailLineFalls {s : State} (h : s.inOrder) : (pfailLineFalls s).inOrder := by
  unfold pfailLineFalls
  split
  · dsimp only
    split
    · exact inOrder_coldStart _
    · exact h
  · exact h

@[simp] theorem orderly_resetEnds (s : State) : (resetEnds s).events.orderly = s.events.orderly := by
  have lid (u : State) : (if u.lines.cover then u else coverFound u).events.orderly = u.events.orderly := by simp
  have hold (u : State) : (holdAtOnce u).events = u.events := rfl
  have warned (u : State) : (if u.lines.pfail then holdAtOnce u else u).events.orderly = u.events.orderly := by simp [hold]
  have left : (leaveReset s).events.orderly = s.events.orderly := (warned _).trans (lid _)
  simp [resetEnds, left]

@[simp] theorem orderly_romRecord (k b : Byte) (n : Nat) (p : List Byte) (s : State) :
    (romRecord k b n p s).events.orderly = s.events.orderly := by
  have load (q : List Byte) (u : State) : (romLoad b q u).1.events.orderly = u.events.orderly := by
    unfold romLoad
    split <;> simp
  have bad (u : State) : (romBad u).events.orderly = u.events.orderly := by simp [romBad]
  simp [romRecord, romEnd, load, bad]

@[simp] theorem orderly_runReached (s : State) : (runReached s).events.orderly = s.events.orderly := by
  unfold runReached
  split
  · rfl
  · dsimp only
    split <;> simp [readShadow]

/-! ## Every command -/

/-- Every command keeps the queue in order. -/
theorem inOrder_exec (i : Instr) {s : State} (h : s.inOrder) : ∀ t, exec i s = .next t → t.inOrder := by
  have sensed (lv : Levels) : (sense lv s).inOrder := h
  intro t ht
  cases i <;> injection ht with ht <;> subst ht
  case wstbStrobe w d lv =>
    split
    · exact inOrder_strobe _ _ (sensed lv)
    · exact sensed lv
  case rstbStrobe cs =>
    split
    · exact inOrder_readStrobe h
    · exact h
  case sleepEntry lv => exact inOrder_settle (inOrder_of_talk (talk_entryGoesOn _) (by simp) (sensed lv))
  case dramGrantEnd lv =>
    split
    · exact inOrder_settle (inOrder_endGrant (sensed lv))
    · exact sensed lv
  case refreshDue => exact inOrder_arbitrate (inOrder_of_talk (by simp [refreshFalls]) (by simp [refreshFalls]) h)
  case coderLineStart c => exact inOrder_settle (inOrder_of_talk (talk_coderStart ..) (by simp) h)
  case memwaitExpiry c => exact inOrder_settle (inOrder_of_talk (talk_memExpire ..) (by simp) h)
  case dirwaitExpiry c => exact inOrder_settle (inOrder_of_talk (talk_dirExpire ..) (by simp) h)
  case decoderLineStart c => exact inOrder_settle (inOrder_of_talk (talk_decoderStart ..) (by simp) h)
  case readoutEnd v => exact inOrder_settle (inOrder_readoutEnds v h)
  case lampwarmExpiry => exact inOrder_of_talk (talk_lampWarm _) (by simp) h
  case motorStep ch lv => exact inOrder_settle (inOrder_of_talk (talk_stepFalls ..) (by simp) (sensed lv))
  case motionEnd ch lv => exact inOrder_settle (inOrder_of_talk (talk_motionEnds ..) (by simp) (sensed lv))
  case holdTimerExpiry ch => exact inOrder_of_talk (talk_holdExpires ..) (by simp [holdExpires]) h
  case headShiftEnd => exact inOrder_of_talk (talk_headEvent ..) (by simp) h
  case strobeEnd => exact inOrder_of_talk (talk_headEvent ..) (by simp) h
  case gapEnd => exact inOrder_settle (inOrder_of_talk (talk_headEvent ..) (by simp) h)
  case tempAgeExpiry => exact inOrder_of_talk (talk_tempExpired _) (by simp) h
  case idleTimerExpiry => exact inOrder_of_talk (talk_idleExpires _) (by simp) h
  case wakeTimerExpiry => exact inOrder_arbitrate (inOrder_wakeTimerExpires h)
  case ringRise => exact inOrder_arbitrate (inOrder_ringRises h)
  case keyRise => exact inOrder_arbitrate (inOrder_keyRises h)
  case docpRise => exact inOrder_arbitrate (inOrder_docpRises h)
  case runReached lv =>
    split
    · exact inOrder_settle (inOrder_dispatchHeld (inOrder_of_talk (talk_runReached _) (by simp) (sensed lv)))
    · exact sensed lv
  case coverOpen => exact inOrder_settle (inOrder_of_talk (talk_coverFalls _) (by simp) h)
  case pfailRise => exact inOrder_settle (inOrder_pfailLineRises h)
  case pfailFall => exact inOrder_pfailLineFalls h
  case powerOn lv d => exact inOrder_of_reset rfl
  case resetAssert => exact inOrder_coldStart _
  case resetRelease lv =>
    exact inOrder_settle (inOrder_of_talk (by simp [resetReleased]) (by simp [resetReleased]) (sensed lv))
  case resetStateEnd lv =>
    exact inOrder_settle (inOrder_of_talk (by simp [resetStateEnds]) (by simp [resetStateEnds]) (sensed lv))
  case romRecord k b n p =>
    split
    · exact inOrder_settle (inOrder_of_talk (talk_romRecord ..) (by simp) h)
    · exact h
  case scan => exact inOrder_writeRecord _ (sensed _)
  case print => exact inOrder_writeRecord _ (sensed _)
  case resume => exact inOrder_writeRecord _ (sensed _)
  case temp => exact inOrder_writeRecord _ (sensed _)
  all_goals exact inOrder_writeRecord _ h

/-- Settles O5: every command keeps the queue in order past the record partly read, posts by leaving its order as it is, EVACK
by withdrawing the records of the flags it clears. -/
theorem eventQueueStaysSound : Obligations.EventQueueStaysSound := by
  intro s t sound reported k
  rcases step_front k with rfl | ⟨c, r, -, hc⟩
  · exact ⟨sound, reported⟩
  · exact (inOrder_iff t).1 (inOrder_exec c ((inOrder_iff { s with pending := r }).2 ⟨sound, reported⟩) t hc)

end Sys2Proof.Machine
end

section
/-! Diagnostic access to the internal memories (R188, R189): the slots of the rings, the error row and the table copies, read and
written at once, and refused while their owner is not idle. -/

set_option Elab.async false

namespace Sys2Proof.Machine

/-! ## The record -/

/-- What the payload of a DIAG record spells: memory, item, offset, and what follows them. -/
theorem diagPayload_fields (m : Byte) (item offset : BitVec 16) (asks : List Byte) :
    byteAt (diagPayload m item offset ++ asks) 0 = m.toNat ∧ wordAt (diagPayload m item offset ++ asks) 1 = item.toNat
      ∧ wordAt (diagPayload m item offset ++ asks) 3 = offset.toNat
      ∧ (diagPayload m item offset ++ asks).drop 5 = asks := by
  have hi := item.isLt
  have ho := offset.isLt
  refine ⟨rfl, ?_, ?_, rfl⟩ <;>
    · simp only [diagPayload, be16, wordAt, byteAt, List.cons_append, List.nil_append, List.getD_cons_succ,
        List.getD_cons_zero, BitVec.toNat_ofNat]
      omega

/-- A DIAG record answered at once: its reply filled, the port free to go on (R4, R189). -/
def diagTold (sub : Byte) (st : Status) (ans : List Byte) (t : State) : State :=
  restartIdle (arbitrate (pushReply kDiag sub (.filled st ans) t))

/-- A DIAG record in READY that its header check and its order let through is answered as the order says (R3, R188). -/
theorem diag_answered {sub m : Byte} {item offset : BitVec 16} {asks ans : List Byte} {a : DiagAsk} {st : Status} {s t : State}
    (ho : portOpen s) (hh : headerCheck kDiag sub (5 + asks.length) = none)
    (ha : diagAsk sub (diagPayload m item offset ++ asks) = a)
    (taken : orderDiag m.toNat item.toNat offset.toNat a s = (t, .filled st ans)) :
    writeRecord { kind := kDiag, sub := sub, payload := diagPayload m item offset ++ asks } s = diagTold sub st ans t := by
  have length : (diagPayload m item offset ++ asks).length = 5 + asks.length := by
    simp only [diagPayload, List.length_append, List.length_cons, be16_length]
  obtain ⟨memory, which, place, -⟩ := diagPayload_fields m item offset asks
  have acts : actDiag sub (diagPayload m item offset ++ asks) s = (t, .filled st ans) := by
    unfold actDiag
    rw [memory, which, place, ha, taken]
  rw [writeRecord_ready ho (by rw [length]; exact hh) (held_only_orders (by decide : kDiag ≠ kOrder))]
  have owner : act { kind := kDiag, sub := sub, payload := diagPayload m item offset ++ asks } s =
      arbitrate (answer { kind := kDiag, sub := sub, payload := diagPayload m item offset ++ asks }
        (actDiag sub (diagPayload m item offset ++ asks) s)) := by
    simp [act, ho.2.2, kLine, kLoad, kQuery, kEvack, kDiag]
  rw [owner, acts]
  rfl

theorem exec_diagRead {m : Byte} {item offset count : BitVec 16} {ans : List Byte} {st : Status} {s t : State} (ho : portOpen s)
    (taken : orderDiag m.toNat item.toNat offset.toNat (.read count.toNat) s = (t, .filled st ans)) :
    exec (.diagRead m item offset count) s = .next (diagTold 0 st ans t) := by
  have asks : diagAsk 0 (diagPayload m item offset ++ be16 count.toNat) = .read count.toNat := by
    have word : wordAt (diagPayload m item offset ++ be16 count.toNat) 5 = count.toNat := by
      have hc := count.isLt
      simp only [diagPayload, be16, wordAt, byteAt, List.cons_append, List.nil_append, List.getD_cons_succ,
        List.getD_cons_zero, BitVec.toNat_ofNat]
      omega
    rw [diagAsk, if_pos rfl, word]
  exact congrArg Host.Outcome.next (diag_answered ho rfl asks taken)

theorem exec_diagWrite {m : Byte} {item offset : BitVec 16} {data ans : List Byte} {st : Status} {s t : State} (ho : portOpen s)
    (hd : data ≠ []) (hl : data.length ≤ 2043)
    (taken : orderDiag m.toNat item.toNat offset.toNat (.write false data) s = (t, .filled st ans)) :
    exec (.diagWrite m item offset data) s = .next (diagTold 1 st ans t) := by
  have bytes : 0 < data.length := List.length_pos_iff.mpr hd
  have header : headerCheck kDiag 1 (5 + data.length) = none := by
    rw [headerCheck, show lengthRange? kDiag 1 = some (6, 2048) from rfl]
    exact if_pos ⟨by omega, by omega⟩
  have asks : diagAsk 1 (diagPayload m item offset ++ data) = .write false data := by
    rw [diagAsk, if_neg (by decide), (diagPayload_fields m item offset data).2.2.2]
    rfl
  exact congrArg Host.Outcome.next (diag_answered ho header asks taken)

/-! ## The checks (R188) and the access -/

/-- An access to an internal memory that breaks none of the checks 1 to 3 of R188. -/
structure InternalFits (memory item offset size : Nat) (a : DiagAsk) (s : State) : Prop where
  internal : memory ≠ 0
  sized    : itemSize? memory item s = some size
  present  : memory = 6 → tableItemCopy item s ≠ none
  inside   : diagOutOfBounds memory item offset size a s = false

/-- A read is inside its item where its offset is; the error row is read by whole entries. -/
theorem inside_read {memory item offset size n : Nat} (s : State) (h : offset < size)
    (even : memory = 5 → offset % 2 = 0 ∧ n % 2 = 0) : diagOutOfBounds memory item offset size (.read n) s = false := by
  simp only [diagOutOfBounds, DiagAsk.count, Bool.or_eq_false_iff, decide_eq_false_iff_not, Bool.and_eq_false_imp,
    decide_eq_true_eq]
  exact ⟨⟨by omega, trivial⟩, fun h5 => by have := even h5; simp [this]⟩

/-- A write is inside its item where all its bytes are; SETTINGS is written by LOAD alone. -/
theorem inside_write {memory item offset size : Nat} {d : List Byte} (s : State) (internal : memory ≠ 0) (hd : d ≠ [])
    (h : offset + d.length ≤ size) (even : memory = 5 → offset % 2 = 0 ∧ d.length % 2 = 0)
    (table : memory = 6 → item % 256 ≠ 0) : diagOutOfBounds memory item offset size (.write false d) s = false := by
  have bytes : 0 < d.length := List.length_pos_iff.mpr hd
  simp only [diagOutOfBounds, DiagAsk.count, Bool.or_eq_false_iff, decide_eq_false_iff_not, Bool.and_eq_false_imp,
    decide_eq_true_eq, Bool.false_and, internal]
  exact ⟨⟨by omega, ⟨⟨by omega, trivial⟩, by simp⟩, table⟩, fun h5 => by have := even h5; simp [this]⟩

section Access
variable {memory item offset size : Nat} {a : DiagAsk} {s : State}

theorem diagRefusal_fits (fits : InternalFits memory item offset size a s) :
    diagRefusal memory item offset a s = if ownerIdle memory item s then none else some .state := by
  obtain ⟨-, hs, present, inside⟩ := fits
  unfold diagRefusal
  rw [hs]
  dsimp only
  rw [if_neg (fun h => present h.1 h.2), if_neg (by simp [inside])]
  cases ownerIdle memory item s <;> rfl

/-- Check 4 of R188: an item whose owner is not idle. -/
theorem orderDiag_busy (fits : InternalFits memory item offset size a s) (busy : ownerIdle memory item s = false) :
    orderDiag memory item offset a s = (s, .filled .state []) := by
  unfold orderDiag
  rw [diagRefusal_fits fits, busy]
  rfl

theorem orderDiag_idle (fits : InternalFits memory item offset size a s) (idle : ownerIdle memory item s = true) :
    orderDiag memory item offset a s = takeDiag memory item offset size a s := by
  unfold orderDiag
  rw [diagRefusal_fits fits, idle, fits.sized]
  rfl

/-- A read of a count within its item answers the bytes asked for. -/
theorem orderDiag_reads {n : Nat} (fits : InternalFits memory item offset size (.read n) s)
    (idle : ownerIdle memory item s = true) (h0 : 0 < n) (hn : n ≤ 2036) (whole : offset + n ≤ size) :
    orderDiag memory item offset (.read n) s =
      (s, .filled .ok (diagAddress memory item offset ++ be16 n ++ ((itemBytes memory item s).drop offset).take n ++ [0]
        ++ be16 0xFFFF)) := by
  have count : readCount size offset n = n := by
    unfold readCount
    rw [if_neg h0.ne']
    omega
  rw [orderDiag_idle fits idle]
  unfold takeDiag
  split
  · exact absurd rfl fits.internal
  · exact absurd rfl fits.internal
  · next h =>
    cases h
    simp [count, sliceOf]
  · next h => cases h

/-- A write is answered with the status of its item's image as changed, and with its address where the image is taken. -/
theorem orderDiag_writes {d : List Byte} {st : Status} {t : State}
    (fits : InternalFits memory item offset size (.write false d) s) (idle : ownerIdle memory item s = true)
    (written : writeItem memory item (patchAt (itemBytes memory item s) offset d) s = (t, st)) :
    orderDiag memory item offset (.write false d) s =
      (t, .filled st (if st = .ok ∨ st = .clamped then diagAddress memory item offset ++ be16 d.length else [])) := by
  rw [orderDiag_idle fits idle]
  unfold takeDiag
  split
  · exact absurd rfl fits.internal
  · exact absurd rfl fits.internal
  · next h => cases h
  · next h =>
    cases h
    rw [written]
    dsimp only
    split <;> rfl

end Access

/-- OK and CLAMPED are the statuses of an image taken. -/
theorem status_taken {c : Prop} [Decidable c] {a b : Status} (ha : a = .ok ∨ a = .clamped) (hb : b = .ok ∨ b = .clamped) :
    (if c then a else b) = .ok ∨ (if c then a else b) = .clamped := by
  split
  · exact ha
  · exact hb

/-- The address of an internal item as the record spells it, and the count. -/
theorem diagAddress_bytes (m : Byte) (item offset : BitVec 16) (n : Nat) :
    diagAddress m.toNat item.toNat offset.toNat ++ be16 n = [m] ++ be16 item.toNat ++ be16 offset.toNat ++ be16 n := by
  simp [diagAddress, be8]

/-! ## The slots (memories 1 to 4) -/

/-- No job, and for the Scan Ring no calibration, has the ring of memories 1 to 4. -/
def ringIdle (m : Byte) (s : State) : Prop :=
  (m = 1 → s.scanJob = none ∧ s.front.cal = none) ∧ (m = 2 → s.intJob = none) ∧ (m = 3 → s.prtJob = none)
    ∧ (m = 4 → s.outJob = none)

/-- The slots of the ring of memories 1 to 4. -/
def ringSlots (m : Byte) : Nat := if m = 1 then 16 else if m = 2 then 8 else 4

theorem slotMemory_cases {m : Byte} (h1 : 1 ≤ m.toNat) (h4 : m.toNat ≤ 4) : m = 1 ∨ m = 2 ∨ m = 3 ∨ m = 4 := by
  bv_omega

section Slots
variable {m : Byte} {item : Nat} {s : State}

theorem ownerIdle_slot (h1 : 1 ≤ m.toNat) (h4 : m.toNat ≤ 4) : ownerIdle m.toNat item s = true ↔ ringIdle m s := by
  rcases slotMemory_cases h1 h4 with rfl | rfl | rfl | rfl <;> simp [ownerIdle, ringIdle]

theorem itemSize_slot (h1 : 1 ≤ m.toNat) (h4 : m.toNat ≤ 4) (hi : item < ringSlots m) :
    itemSize? m.toNat item s = some 219 := by
  rcases slotMemory_cases h1 h4 with rfl | rfl | rfl | rfl <;> exact if_pos hi

theorem itemBytes_slot (h1 : 1 ≤ m.toNat) (h4 : m.toNat ≤ 4) :
    itemBytes m.toNat item s = slotBytes ((ringOf m.toNat s).slot item) := by
  rcases slotMemory_cases h1 h4 with rfl | rfl | rfl | rfl <;> rfl

theorem writeItem_slot (h1 : 1 ≤ m.toNat) (h4 : m.toNat ≤ 4) (img : List Byte) :
    writeItem m.toNat item img s =
      (setRing m.toNat { ringOf m.toNat s with slots := (ringOf m.toNat s).slots.set item (slotOfBytes img) } s, .ok) := by
  rcases slotMemory_cases h1 h4 with rfl | rfl | rfl | rfl <;> rfl

theorem fits_slot {offset : Nat} {a : DiagAsk} (h1 : 1 ≤ m.toNat) (h4 : m.toNat ≤ 4) (hi : item < ringSlots m)
    (inside : diagOutOfBounds m.toNat item offset 219 a s = false) : InternalFits m.toNat item offset 219 a s :=
  ⟨by omega, itemSize_slot h1 h4 hi, fun h6 => by omega, inside⟩

end Slots

/-! ## The error row (memory 5) -/

theorem ownerIdle_errorRow (s : State) : ownerIdle 5 0 s = true ↔ s.scanJob = none ∧ s.front.cal = none := by
  simp [ownerIdle]

theorem fits_errorRow {offset : Nat} {a : DiagAsk} {s : State} (inside : diagOutOfBounds 5 0 offset 3456 a s = false) :
    InternalFits 5 0 offset 3456 a s := ⟨nofun, rfl, nofun, inside⟩

theorem itemBytes_errorRow (s : State) : itemBytes 5 0 s = errorBytes s.front.errorRow := rfl

theorem writeItem_errorRow (new : List Byte) (s : State) :
    writeItem 5 0 new s =
      ({ s with front := { s.front with errorRow := errorOfBytes new } }, if errorClamps new then .clamped else .ok) := rfl

/-! ## The table copies (memory 6) -/

/-- The item that names a copy of a table. -/
def copyItem (pending : Bool) (id : Fin 14) : BitVec 16 := BitVec.ofNat 16 (id.val + if pending then 256 else 0)

theorem tableItem_copyItem (pending : Bool) (id : Fin 14) :
    tableItem? (copyItem pending id).toNat = some (pending, id) := by
  revert id pending
  decide

theorem copyItem_settings {pending : Bool} {id : Fin 14} (h : id ≠ tSettings) : (copyItem pending id).toNat % 256 ≠ 0 := by
  revert id pending
  decide

section Tables
variable {pending : Bool} {id : Fin 14} {img : List Byte} {s : State}

theorem ownerIdle_copy :
    ownerIdle 6 (copyItem pending id).toNat s = true ↔ tableInUse id s = false ∧ (id = tShading → s.front.cal = none) := by
  unfold ownerIdle
  rw [tableItem_copyItem]
  simp [imp_iff_not_or]

theorem itemBytes_copy (hc : copyOf pending id s = some img) : itemBytes 6 (copyItem pending id).toNat s = img := by
  unfold itemBytes tableItemCopy
  rw [tableItem_copyItem]
  simp [hc]

theorem fits_copy {offset : Nat} {a : DiagAsk} (hc : copyOf pending id s = some img)
    (inside : diagOutOfBounds 6 (copyItem pending id).toNat offset img.length a s = false) :
    InternalFits 6 (copyItem pending id).toNat offset img.length a s := by
  refine ⟨nofun, ?_, fun _ => ?_, inside⟩
  · unfold itemSize?
    rw [tableItem_copyItem]
    simp [hc]
  · unfold tableItemCopy
    rw [tableItem_copyItem]
    simp [hc]

theorem writeItem_copy (new : List Byte) : writeItem 6 (copyItem pending id).toNat new s = writeCopy pending id new s := by
  unfold writeItem
  rw [tableItem_copyItem]
  rfl

/-- The copies after one of them is set. -/
theorem copies_set (v : Vector (Option (List Byte)) 14) (id : Fin 14) (o : Option (List Byte)) :
    (v.set id o)[id] = o ∧ ∀ k : Fin 14, k ≠ id → (v.set id o)[k] = v[k] := by
  refine ⟨by simp, fun k hk => ?_⟩
  have apart : id.val ≠ k.val := fun x => hk (Fin.ext x.symm)
  simp [Vector.getElem_set_ne _ _ apart]

/-- The active copy put in place: the active SHADING gives the defective-pixel map (R26). -/
theorem putCopy_active (id : Fin 14) (img : List Byte) (s : State) :
    putCopy false id img s = { s with
      tables := { s.tables with active := s.tables.active.set id (some img) },
      front := if id = tShading then { s.front with defective := defectiveOf img } else s.front } := by
  unfold putCopy
  by_cases shading : id = tShading <;> simp [shading]

/-- A copy put in place changes no other copy, and beside the copies no more than the map that the active SHADING gives (R26). -/
theorem putCopy_leaves (pending : Bool) (id : Fin 14) (img : List Byte) (s : State) :
    let t := putCopy pending id img s
    copyOf pending id t = some img ∧ (∀ q k, (q ≠ pending ∨ k ≠ id) → copyOf q k t = copyOf q k s)
      ∧ (id = tShading → pending = false → t.front.defective = defectiveOf img)
      ∧ t.events = s.events ∧ t.motS = s.motS ∧ t.motP = s.motP ∧ t.dram = s.dram := by
  cases pending with
  | true =>
    obtain ⟨own, other⟩ := copies_set s.tables.pending id (some img)
    refine ⟨own, fun q k h => ?_, nofun, rfl, rfl, rfl, rfl⟩
    cases q with
    | true => exact other k (h.resolve_left (· rfl))
    | false => rfl
  | false =>
    obtain ⟨own, other⟩ := copies_set s.tables.active id (some img)
    rw [putCopy_active]
    refine ⟨own, fun q k h => ?_, fun shading _ => ?_, rfl, rfl, rfl, rfl⟩
    · cases q with
      | true => rfl
      | false => exact other k (h.resolve_left (· rfl))
    · dsimp only
      rw [if_pos shading]

end Tables

/-! ## Reads and writes by memory -/

section Answers
variable {s : State}

/-- Slots read and written while their ring is idle, and refused while it is not. -/
theorem exec_slots {m : Byte} {item offset : BitVec 16} (ho : portOpen s) (h1 : 1 ≤ m.toNat) (h4 : m.toNat ≤ 4)
    (hi : item.toNat < ringSlots m) (at' : offset.toNat < 219) :
    (ringIdle m s →
        (∀ count : BitVec 16, 0 < count.toNat → offset.toNat + count.toNat ≤ 219 →
            exec (.diagRead m item offset count) s =
              .next (diagTold 0 .ok ([m] ++ be16 item.toNat ++ be16 offset.toNat ++ be16 count.toNat
                ++ ((slotBytes ((ringOf m.toNat s).slot item.toNat)).drop offset.toNat).take count.toNat ++ [0]
                ++ be16 0xFFFF) s))
          ∧ (∀ data : List Byte, data ≠ [] → offset.toNat + data.length ≤ 219 →
              exec (.diagWrite m item offset data) s =
                .next (diagTold 1 .ok ([m] ++ be16 item.toNat ++ be16 offset.toNat ++ be16 data.length)
                  (setRing m.toNat { ringOf m.toNat s with
                    slots := (ringOf m.toNat s).slots.set item.toNat (slotOfBytes
                      (patchAt (slotBytes ((ringOf m.toNat s).slot item.toNat)) offset.toNat data)) } s))))
      ∧ (¬ringIdle m s →
          (∀ count : BitVec 16, exec (.diagRead m item offset count) s = .next (diagTold 0 .state [] s))
            ∧ ∀ data : List Byte, data ≠ [] → offset.toNat + data.length ≤ 219 →
                exec (.diagWrite m item offset data) s = .next (diagTold 1 .state [] s)) := by
  have reads (n : Nat) : InternalFits m.toNat item.toNat offset.toNat 219 (.read n) s :=
    fits_slot h1 h4 hi (inside_read s at' fun h5 => by omega)
  have writes {d : List Byte} (hd : d ≠ []) (whole : offset.toNat + d.length ≤ 219) :
      InternalFits m.toNat item.toNat offset.toNat 219 (.write false d) s :=
    fits_slot h1 h4 hi (inside_write s (by omega) hd whole (fun h5 => by omega) fun h6 => by omega)
  have owner := ownerIdle_slot (item := item.toNat) (s := s) h1 h4
  refine ⟨fun idle => ⟨fun count h0 whole => ?_, fun data hd whole => ?_⟩,
    fun busy => ⟨fun count => ?_, fun data hd whole => ?_⟩⟩
  · rw [← diagAddress_bytes, ← itemBytes_slot h1 h4]
    exact exec_diagRead ho (orderDiag_reads (reads _) (owner.2 idle) h0 (by omega) whole)
  · rw [← diagAddress_bytes]
    exact exec_diagWrite ho hd (by omega)
      (orderDiag_writes (writes hd whole) (owner.2 idle) (by rw [writeItem_slot h1 h4, itemBytes_slot h1 h4]))
  · exact exec_diagRead ho (orderDiag_busy (reads _) (Bool.eq_false_iff.2 (mt owner.1 busy)))
  · exact exec_diagWrite ho hd (by omega) (orderDiag_busy (writes hd whole) (Bool.eq_false_iff.2 (mt owner.1 busy)))

/-- The error row read (R188). -/
theorem exec_readErrorRow {offset count : BitVec 16} (ho : portOpen s) (even : offset.toNat % 2 = 0)
    (at' : offset.toNat < 3456) (evenCount : count.toNat % 2 = 0) :
    (s.scanJob = none → s.front.cal = none → 0 < count.toNat → count.toNat ≤ 2036 → offset.toNat + count.toNat ≤ 3456 →
        exec (.diagRead 5 0 offset count) s =
          .next (diagTold 0 .ok ([5] ++ be16 (0 : BitVec 16).toNat ++ be16 offset.toNat ++ be16 count.toNat
            ++ ((errorBytes s.front.errorRow).drop offset.toNat).take count.toNat ++ [0] ++ be16 0xFFFF) s))
      ∧ ((s.scanJob ≠ none ∨ s.front.cal ≠ none) →
          exec (.diagRead 5 0 offset count) s = .next (diagTold 0 .state [] s)) := by
  have fits : InternalFits 5 0 offset.toNat 3456 (.read count.toNat) s :=
    fits_errorRow (inside_read s at' fun _ => ⟨even, evenCount⟩)
  refine ⟨fun job cal h0 hn whole => ?_, fun busy => ?_⟩
  · rw [← diagAddress_bytes]
    exact exec_diagRead ho (orderDiag_reads fits ((ownerIdle_errorRow s).2 ⟨job, cal⟩) h0 hn whole)
  · refine exec_diagRead ho (orderDiag_busy fits (Bool.eq_false_iff.2 fun idle => ?_))
    obtain ⟨job, cal⟩ := (ownerIdle_errorRow s).1 idle
    exact busy.elim (· job) (· cal)

/-- The error row written, each entry brought into its range (R189). -/
theorem exec_writeErrorRow {offset : BitVec 16} {data : List Byte} (ho : portOpen s) (even : offset.toNat % 2 = 0)
    (hd : data ≠ []) (evenBytes : data.length % 2 = 0) (hl : data.length ≤ 2043) (whole : offset.toNat + data.length ≤ 3456) :
    let new := patchAt (errorBytes s.front.errorRow) offset.toNat data
    (s.scanJob = none → s.front.cal = none →
        exec (.diagWrite 5 0 offset data) s =
          .next (diagTold 1 (if errorClamps new then .clamped else .ok)
            ([5] ++ be16 (0 : BitVec 16).toNat ++ be16 offset.toNat ++ be16 data.length)
            { s with front := { s.front with errorRow := errorOfBytes new } }))
      ∧ ((s.scanJob ≠ none ∨ s.front.cal ≠ none) →
          exec (.diagWrite 5 0 offset data) s = .next (diagTold 1 .state [] s)) := by
  have fits : InternalFits 5 0 offset.toNat 3456 (.write false data) s :=
    fits_errorRow (inside_write s nofun hd whole (fun _ => ⟨even, evenBytes⟩) nofun)
  refine ⟨fun job cal => ?_, fun busy => ?_⟩
  · rw [← diagAddress_bytes]
    have taken := orderDiag_writes fits ((ownerIdle_errorRow s).2 ⟨job, cal⟩) (writeItem_errorRow ..)
    rw [if_pos (status_taken (.inr rfl) (.inl rfl)), itemBytes_errorRow] at taken
    exact exec_diagWrite ho hd hl taken
  · refine exec_diagWrite ho hd hl (orderDiag_busy fits (Bool.eq_false_iff.2 fun idle => ?_))
    obtain ⟨job, cal⟩ := (ownerIdle_errorRow s).1 idle
    exact busy.elim (· job) (· cal)

section Copy
variable {pending : Bool} {id : Fin 14} {img : List Byte} {offset : BitVec 16}

theorem copy_busy (busy : tableInUse id s = true ∨ (id = tShading ∧ s.front.cal ≠ none)) :
    ownerIdle 6 (copyItem pending id).toNat s = false := by
  refine Bool.eq_false_iff.2 fun idle => ?_
  obtain ⟨unused, cal⟩ := ownerIdle_copy.1 idle
  rcases busy with used | ⟨shading, calibrates⟩
  · exact absurd used (by simp [unused])
  · exact calibrates (cal shading)

/-- A table copy read (R188). -/
theorem exec_readCopy {count : BitVec 16} (ho : portOpen s) (hc : copyOf pending id s = some img)
    (at' : offset.toNat < img.length) :
    ((tableInUse id s = true ∨ (id = tShading ∧ s.front.cal ≠ none)) →
        exec (.diagRead 6 (copyItem pending id) offset count) s = .next (diagTold 0 .state [] s))
      ∧ (tableInUse id s = false → (id = tShading → s.front.cal = none) → 0 < count.toNat → count.toNat ≤ 2036 →
          offset.toNat + count.toNat ≤ img.length →
            exec (.diagRead 6 (copyItem pending id) offset count) s =
              .next (diagTold 0 .ok ([6] ++ be16 (copyItem pending id).toNat ++ be16 offset.toNat ++ be16 count.toNat
                ++ (img.drop offset.toNat).take count.toNat ++ [0] ++ be16 0xFFFF) s)) := by
  have fits : InternalFits 6 (copyItem pending id).toNat offset.toNat img.length (.read count.toNat) s :=
    fits_copy hc (inside_read s at' nofun)
  refine ⟨fun busy => exec_diagRead ho (orderDiag_busy fits (copy_busy busy)), fun unused cal h0 hn whole => ?_⟩
  rw [← diagAddress_bytes]
  have taken := orderDiag_reads fits (ownerIdle_copy.2 ⟨unused, cal⟩) h0 hn whole
  rw [itemBytes_copy hc] at taken
  exact exec_diagRead ho taken

/-- A write to a table copy comes to what `writeCopy` makes of the changed image (R189). -/
theorem exec_writeCopy {data : List Byte} (ho : portOpen s) (hc : copyOf pending id s = some img) (hs : id ≠ tSettings)
    (whole : offset.toNat + data.length ≤ img.length) (hd : data ≠ []) (hl : data.length ≤ 2043) :
    ((tableInUse id s = true ∨ (id = tShading ∧ s.front.cal ≠ none)) →
        exec (.diagWrite 6 (copyItem pending id) offset data) s = .next (diagTold 1 .state [] s))
      ∧ (tableInUse id s = false → (id = tShading → s.front.cal = none) → ∀ t st,
          writeCopy pending id (patchAt img offset.toNat data) s = (t, st) →
            exec (.diagWrite 6 (copyItem pending id) offset data) s =
              .next (diagTold 1 st (if st = .ok ∨ st = .clamped then
                [6] ++ be16 (copyItem pending id).toNat ++ be16 offset.toNat ++ be16 data.length else []) t)) := by
  have fits : InternalFits 6 (copyItem pending id).toNat offset.toNat img.length (.write false data) s :=
    fits_copy hc (inside_write s nofun hd whole nofun fun _ => copyItem_settings hs)
  refine ⟨fun busy => exec_diagWrite ho hd hl (orderDiag_busy fits (copy_busy busy)), fun unused cal t st written => ?_⟩
  rw [← diagAddress_bytes]
  have taken := orderDiag_writes fits (ownerIdle_copy.2 ⟨unused, cal⟩) (by rw [writeItem_copy, itemBytes_copy hc, written])
  exact exec_diagWrite ho hd hl taken

/-- The outcomes of a write to a table copy: its length no longer fits, an enumeration no longer does, or it is clamped and put
in place (R189). -/
theorem writeCopy_cases (new : List Byte) :
    (tableLengthOk id new = false → writeCopy pending id new s = (s, .length))
      ∧ (tableLengthOk id new = true → tableEnumsOk id new = false → writeCopy pending id new s = (s, .badarg))
      ∧ (tableLengthOk id new = true → tableEnumsOk id new = true → writeCopy pending id new s =
          (putCopy pending id (clampTable id new).image s, if (clampTable id new).count = 0 then .ok else .clamped)) := by
  exact ⟨fun length => by simp [writeCopy, length], fun length enums => by simp [writeCopy, length, enums],
    fun length enums => by simp [writeCopy, length, enums]⟩

end Copy
end Answers

/-- Settles O50: memory by memory, the access through the checks of R188 to what its owner's storage then holds. -/
theorem diagInternalAccess : Obligations.DiagInternalAccess := by
  intro s ho
  refine ⟨fun m item offset h1 h4 hi at' => exec_slots ho h1 h4 hi at', fun offset count even at' evenCount =>
    exec_readErrorRow ho even at' evenCount, fun offset data busy even hd evenBytes hl whole =>
    (exec_writeErrorRow ho even hd evenBytes hl whole).2 busy, fun offset data job cal even hd evenBytes hl whole =>
    (exec_writeErrorRow ho even hd evenBytes hl whole).1 job cal, fun id pending offset count img hc at' =>
    exec_readCopy ho hc at', fun id pending offset data img hc hs at' whole hd hl => ?_⟩
  obtain ⟨busy, idle⟩ := exec_writeCopy ho hc hs whole hd hl
  obtain ⟨length, enums, fit⟩ := writeCopy_cases (pending := pending) (id := id) (s := s) (patchAt img offset.toNat data)
  refine ⟨busy, fun unused cal => ⟨fun hl => ?_, fun hl he => ?_, fun hl he => ?_⟩⟩
  · exact idle unused cal _ _ (length hl)
  · exact idle unused cal _ _ (enums hl he)
  · have written := idle unused cal _ _ (fit hl he)
    rw [if_pos (status_taken (.inl rfl) (.inr rfl))] at written
    exact ⟨putCopy pending id (clampTable id (patchAt img offset.toNat data)).image s, written, putCopy_leaves ..⟩

end Sys2Proof.Machine
end

section
/-! The queue: one step takes the command at its front (log entry 1). -/

namespace Sys2Proof.Machine

/-- On an empty queue the block idles: no command runs and the state stays as it is. -/
theorem step_of_pending_nil {s : State} (empty : s.pending = []) : step s = .next s := by
  unfold step
  rw [empty]

/-- The front command is off the queue before it runs. -/
theorem step_of_pending_cons {c : Instr} {rest : List Instr} {s : State} (front : s.pending = c :: rest) :
    step s = exec c { s with pending := rest } := by
  unfold step
  rw [front]

/-- Settles O1: one equation of `step` for each shape of the queue. -/
theorem stepRunsFrontCommand : Obligations.StepRunsFrontCommand :=
  ⟨fun _ _ _ front => step_of_pending_cons front, fun _ empty => step_of_pending_nil empty⟩

end Sys2Proof.Machine
end
